-- ==== Sys2Proof/Word.lean ====
section
/-! DEFINITION. The word types of the module: bytes, 32-bit and 64-bit words (R3 to R5). -/

namespace Sys2Proof

/-- A byte; bit 0 is its least significant bit (R4). -/
abbrev Byte := BitVec 8

/-- A 32-bit word: an FP32 or INT32 value, a slice counter, a 32-bit register. -/
abbrev Word32 := BitVec 32

/-- A 64-bit word: a scalar register of a pea, a 64-bit module register. -/
abbrev Word64 := BitVec 64

end Sys2Proof
end

