-- ==== Sys2Proof/Syntax.lean ====
section
/-! DEFINITION. The commands of the block: one constructor of `Instr` for each row of
spec/opcode_table.json, with the operands the row's rules name.  A host opcode's constructor holds
the fields of its packet; a happening's constructor holds what the outside world, or a part of the
module whose choice the manual leaves to it, supplies. -/

namespace Sys2Proof

/-- What a packet carries besides its opcode and parameters (Table 5.3). -/
structure Hdr where
  ctx : Nat
  seq : Nat
  fence : Bool := false
  irq : Bool := false
deriving DecidableEq, Repr

/-- Precision recipe (Table 4.5). -/
structure Recipe where
  wfmt : Nat
  afmt : Nat
  accInt32 : Bool := false
  ref : Bool := false
  ovfClamp : Bool := false
  outBudget : Nat := 8
  outRatio : Nat := 16
  fixed : Bool := false
  fixedE : Nat := 127
  baseE : Nat := 127
  satPpm : Nat := 100
  ovfPpm : Nat := 1000
  uflPpm : Nat := 5000
  windowLog2 : Nat := 24
deriving DecidableEq, Repr

/-- MOVE body (Table 7.5). -/
structure MoveBody where
  op : Nat
  bypass : Bool := false
  release : Bool := false
  order : Nat := 0
  cmp : Nat := 0
  rows : Nat := 1
  rowBytes : Nat
  src : Nat
  dst : Nat
  srcStride : Nat := 0
  dstStride : Nat := 1
deriving DecidableEq, Repr

/-- Descriptor kinds and bodies (Table 3.4).  `reserved` is a descriptor whose KIND or FLAGS hold
a reserved value (R67). -/
inductive DescBody where
  | run (prog entry : Nat) (args : List Nat)
  | move (m : MoveBody)
  | wait (addr target : Nat)
  | post (addr inc : Nat)
  | reserved
deriving DecidableEq, Repr

/-- A descriptor: header (Table 3.3) and body. -/
structure Desc where
  last : Bool := false
  gated : Bool := false
  ctx : Nat
  unit : Nat
  gateAddr : Nat := 0
  body : DescBody
deriving DecidableEq, Repr

/-- Turnip's writes to a pending half (R65). -/
inductive QueueWrite where
  | entry (index : Nat) (d : Desc)
  | ready
  | withdraw
deriving DecidableEq, Repr

/-- The pea's own registers that a slice read can fill (R13, Table 3.1). -/
inductive PeaDst where
  | scalar (r : Nat)
  | vector (r : Nat)
  | weights (off : Nat)
  | acts (off : Nat)
deriving DecidableEq, Repr

/-- Slice atomics (R69). -/
inductive AtomicOp where
  | add | minS | minU | maxS | maxU | swap | cas
deriving DecidableEq, Repr

/-- Vector-unit functions (R61, R62). -/
inductive VecOp where
  | fma | exp2 | log2 | recip | rsqrt | tanh | erf | sum | max | maxIdx
deriving DecidableEq, Repr

/-- Operands of a matrix instruction: where the planes of R94 and Table 4.3 lie in the pea's
operand buffers, the tile shape and the K range.  The block of column n at block position b has
index `blk0 + n * blkCol + b * blkK` (the program chooses the order, R94); the group of row r at
group position g has index `grp0 + r * grpRow + g`. -/
structure MatOp where
  rowsM : Nat
  cols : Nat := 16
  k0 : Nat
  k1 : Nat
  codeBase : Nat
  paramBase : Nat
  blk0 : Nat := 0
  blkCol : Nat
  blkK : Nat := 1
  elemBase : Nat
  sideBase : Nat
  spillBase : Nat
  grp0 : Nat := 0
  grpRow : Nat
  accBase : Nat
  fromZero : Bool
deriving DecidableEq, Repr

/-- Identity block (Table 13.4); `bad` is a block that fails IDENTIFY (R323). -/
structure Ident where
  node : Nat
  port : Nat
  planLoaded : Bool := false
  proto : Nat
  serial : Nat
  fwRev : Nat := 0
  planId : Nat := 0
deriving DecidableEq, Repr

/-- TSYNC (Table 2.3). -/
structure Tsync where
  version : Nat := 1
  group : Nat
  tick : Nat
  periodUs : Nat
  step : Nat
  nextStep : Nat
  nextPeriodUs : Nat
  pathDelayNs : Nat
  hops : Nat
  floor : Bool := false
  rootNode : Nat
deriving DecidableEq, Repr

/-- TREQ (R39). -/
structure Treq where
  version : Nat := 1
  group : Nat
  tick : Nat
  node : Nat
  reqStep : Nat
  cause : Nat
deriving DecidableEq, Repr

/-- Fabric packet (Table 14.1) with its payload. -/
structure FabPkt where
  type : Nat
  release : Bool := false
  retry : Bool := false
  detoured : Bool := false
  src : Nat
  dst : Nat
  ftid : Nat
  cls : Nat := 0
  order : Nat := 0
  detours : Nat := 0
  ssn : Nat := 0
  tag : Nat := 0
  len : Nat := 0
  offset : Nat := 0
  aop : Nat := 0
  size : Nat := 0
  srcEpoch : Nat := 0
  dstEpoch : Nat := 0
  lowTag : Nat := 0
  reqId : Nat := 0
  payload : List Byte := []
deriving DecidableEq, Repr

/-- Notice kinds (R358). -/
inductive NoticeKind where
  | fabricReady (epoch : Nat)
  | leaving
  | linkDown (port peer : Nat)
deriving DecidableEq, Repr

/-- NOTICE packet (R358). -/
structure Notice where
  origin : Nat
  number : Nat
  kind : NoticeKind
  hops : Nat := 0
deriving DecidableEq, Repr

/-- Count header and return header (Table 12.4). -/
structure ExpHdr where
  layoutId : Nat
  round : Nat
  index : Nat
  count : Nat
  dropped : Nat := 0
  abandoned : Bool := false
  fault : Bool := false
  type : Nat
deriving DecidableEq, Repr

/-- Row tag (Table 12.3). -/
structure RowTag where
  slot : Nat
  gen : Nat
  row : Nat
  rank : Nat
  status : Nat := 0
  round : Nat
  source : Nat
  expert : Nat
deriving DecidableEq, Repr

/-- Collective header (Table 15.5). -/
structure CollHdr where
  collId : Nat
  round : Nat
  stage : Nat
  sender : Nat
  abandoned : Bool := false
  fault : Bool := false
  count : Nat
deriving DecidableEq, Repr

/-- KV_TABLE_SETUP ATTACH block (Table 10.5). -/
structure KvAttach where
  pool : Nat
  kfmt : Nat
  h : Nat
  d : Nat
  groups : Nat
  layers : Nat
  streams : Nat
  maxBlocks : Nat
  tableBase : Nat
  tablePages : Nat
  poolBase : Nat
  poolPages : Nat
  recBase : Nat
  recPages : Nat
  hbmPages : Nat
  lpPages : Nat
  root : List Byte
deriving DecidableEq, Repr

/-- PREFIX_INSERT and PREFIX_LOOKUP block (Table 10.9). -/
structure PrefixBlk where
  map : Bool := false
  stream : Nat
  firstBlock : Nat
  blocks : Nat
  parent : List Byte
  outPtr : Nat
  tokens : List Byte
deriving DecidableEq, Repr

/-- Batch entry of a step (Table 11.4). -/
structure Entry where
  slot : Nat
  gen : Nat
  kind : Nat
  nodes : Nat := 1
  token : Nat := 0
  promptLen : Nat := 0
  dataPtr : Nat := 0
deriving DecidableEq, Repr

/-- STEP_SUBMIT block (Table 11.3). -/
structure StepBlk where
  ride : Bool := false
  riders : Nat := 0
  phases : Nat
  resultBytes : Nat
  plan : Nat
  inSlice : Nat
  inBytes : Nat
  resSlice : Nat
  outPtr : Nat
  args : List Byte := []
  entries : List Entry
deriving DecidableEq, Repr

/-- EXP_LAYOUT INSTALL block (Table 12.1). -/
structure LayoutBlk where
  topk : Nat
  layer : Nat
  self : Nat
  layoutId : Nat
  srcCap : Nat
  rowUnits : Nat
  ansUnits : Nat
  order : Nat := 0
  hdrWait : Nat := 0
  sharedPhases : Nat := 0
  xrec : Nat
  sources : List Nat
  experts : List (Nat × Nat)
deriving DecidableEq, Repr

/-- EXP_QUEUE_POST block (Table 12.5). -/
structure QueueBlk where
  queue : Nat
  layoutId : Nat
  expert : Nat
  unitRows : Nat
  ctrl : Nat
  data : Nat
  dataSlice : Bool := false
  prog : Nat := 0
  progEntry : Nat := 0
  args : List Nat := []
deriving DecidableEq, Repr

/-- COLL_SETUP block (Table 15.3). -/
structure CollBlk where
  kind : Nat
  wire : Nat
  rank : Nat
  order : Nat
  waitTicks : Nat := 0
  collId : Nat
  queue : Nat
  layer : Nat
  maxCount : Nat
  recv : Nat
  nodes : List Nat
deriving DecidableEq, Repr

/-- SHARD_INSTALL parameters (Table 15.8). -/
structure ShardBlk where
  slot : Nat
  shard : Nat
  basePage : Nat
  upstream : Bool := false
  pinHbm : Bool := false
  upNode : Nat := 0
  queue : Nat := 0
  downNode : Nat := 0xFFF
  downNone : Bool := true
  downQueue : Nat := 0
  order : Nat := 1
  src : Nat := 0
deriving DecidableEq, Repr

/-- GRANT_SET parameters (Table 6.4). -/
structure GrantBlk where
  entry : Nat
  valid : Bool
  localTen : Nat := 0
  srcNode : Nat := 0
  srcFtid : Nat := 0
  basePage : Nat := 0
  pages : Nat := 0
  rights : Nat := 0
deriving DecidableEq, Repr

/-- One 10 µs sample (R390, R407): bus mV, input current in 10 mA, junctions and stacks in °C. -/
structure Sample where
  milliVolt : Nat
  current10mA : Nat
  tj : Nat := 0
  tjSite : Nat := 0
  th : Nat := 0
  thStack : Nat := 0
deriving DecidableEq, Repr

/-- A local store or atomic or load or message as a requester issues it (R340). -/
structure FabReq where
  ten : Nat
  ctx : Nat
  seq : Nat
  type : Nat
  node : Nat
  offset : Nat
  len : Nat := 0
  cls : Nat := 0
  release : Bool := false
  aop : Nat := 0
  size : Nat := 0
  tagQueue : Nat := 0
  payload : List Byte := []
  record : Option (Nat × Nat) := none   -- pea and logical slice address of a FATOM record
deriving DecidableEq, Repr

/-- Where data was found bad (Table 8.4 STORE, Table 5.6 sources). -/
inductive Store where
  | slice | hbm | lpddr | flash | datapath
deriving DecidableEq, Repr

/-- What a read meets in a stored line or unit beside what the state holds: wrong bits by place (a slice byte's 13, one of a
unit's 72 bytes), the severity the stack reports (0 clean, 1 corrected, 2 uncorrectable; for LPDDR5X 1 is a link
correction), and whether the unit came from another address (R193 to R196). -/
structure ErrPat where
  flips : List (Nat × Nat) := []
  stack : Nat := 0
  elsewhere : Bool := false
deriving DecidableEq, Repr

/-- Where bad data stood: its physical place, and the address at which its reader sees it. -/
structure Place where
  loc : Nat
  view : Nat
deriving DecidableEq, Repr

/-- The erase of a flash block that is collected, and whether it fails (R189). -/
structure BlockErase where
  block : Nat
  fails : Bool
deriving DecidableEq, Repr

/-- What the memory test of stage 4 finds: whether the memories came up, and the failing rows of LPDDR5X (R209, R440). -/
structure MemTest where
  ok : Bool
  lpFail : List Nat
deriving DecidableEq, Repr

/-- A unit that a scrub of HBM3E finds with errors: its physical number, the tenancy and unit of its range where it is a
page's, the errors, and whether a write reached it since its scrub read (R204, R206). -/
structure HbmHit where
  phys : Nat
  owner : Option (Nat × Nat) := none
  err : ErrPat := {}
  written : Bool := false
deriving DecidableEq, Repr

/-- Who read the bad data (Table 8.3). -/
inductive Reader where
  | pea (p : Nat)
  | moveDesc (p : Nat)
  | turnipOwn (core : Nat)
  | turnipFor (ctx seq : Nat)
  | fabricSource (p : FabPkt)
  | host
  | scrubber
deriving DecidableEq, Repr

/-- A read or a beat that is tried again: whose it is, its number, and its place (R201, R210). -/
structure Repeated where
  who : Reader
  num : Nat
  place : Place := { loc := 0, view := 0 }
deriving DecidableEq, Repr

/-- Flash tier states (Table 7.10). -/
inductive FlashState where
  | normal | warn | readOnly | offline
deriving DecidableEq, Repr

/-- One physical flit as FEC decoding leaves it (R314): its 256 bytes (Table 13.1), for each codeword that ends with
it the physical lane of each symbol in error, whether an earlier uncorrectable codeword held a part of it, and the
µs after the boundary at which it came. -/
structure Flit where
  bytes : List Byte
  codewords : List (List Nat) := []
  damaged : Bool := false
  atUs : Nat := 0
deriving DecidableEq, Repr

/-- Firmware image header facts (Table 18.6) as the boot engine reads them (R441). -/
structure ImageHdr where
  wellFormed : Bool
  fwRev : Nat
  secVersion : Nat
  proto : Nat
  digest : List Byte
deriving DecidableEq, Repr

/-- The commands: one constructor per row of spec/opcode_table.json. -/
inductive Instr where
  -- ticks, steps, units
  | tickBoundary
  | stepOpen (ctx seq : Nat)
  | slotDrain (ctx slot : Nat)
  | ctxCloseComplete (ctx : Nat)
  | unitCut (ctx seq : Nat)
  | turnipQueueWrite (pea : Nat) (w : QueueWrite)
  | go
  | peaStaggerStart (pea : Nat)
  | engineColdStart (pea : Nat)
  | workUnitComplete (pea : Nat)
  | descRun (pea : Nat)
  | move (pea : Nat)
  | moveComplete (pea : Nat)
  | descWait (pea : Nat)
  | descWaitSatisfied (pea : Nat)
  | descPost (pea : Nat)
  -- pea instructions
  | peaLoad (pea addr len : Nat) (dst : PeaDst)
  | peaStore (pea addr : Nat) (data : List Byte)
  | sliceAtomic (pea addr : Nat) (wide : Bool) (op : AtomicOp) (a b : Word64) (rd : Nat)
  | fence (pea : Nat)
  | align (pea g n : Nat)
  | alignFail (ten g : Nat)
  | quant (pea vsrc elem side spill : Nat)
  | matrixInstruction (pea : Nat) (m : MatOp)
  | layer (pea n : Nat)
  | tile (pea : Nat)
  | vectorOperation (pea : Nat) (op : VecOp) (rd ra rb rc : Nat)
  | topk (pea scores e k idxOut scoreOut : Nat)
  | astat (pea rec vsrc : Nat) (mask : Word64) (c : Word32) (vdst sdst : Nat)
  | anorm (pea rec vsrc vdst : Nat)
  | arecomp (pea rec vsrc : Nat) (mask : Word64) (c : Word32) (vdst : Nat)
  | fatom (pea aop size cls : Nat) (handle a b : Word64) (rec : Nat)
  | collect (pea collId inAddr outAddr count rec counter : Nat)
  | returnAnswer (pea ten queue tagAddr ansAddr : Nat)
  -- expert exchange, collectives, shards
  | exchangeRoundStart (ctx layer : Nat)
  | queueHeaderReceive (ten queue : Nat) (h : ExpHdr)
  | queueRowReceive (ten queue layoutId pos : Nat) (t : RowTag) (row : List Byte)
  | queueReturnHeaders (ten queue : Nat)
  | gatherAnswerReceive (ctx layer : Nat) (t : RowTag) (answer : List Byte)
  | gatherReturnHeader (ctx layer : Nat) (h : ExpHdr)
  | expertRoundDeadline (ctx layer : Nat)
  | collHeaderReceive (ctx : Nat) (h : CollHdr)
  | collRoundDeadline (ctx collId : Nat)
  | shardChunkProcess (ten slot shard : Nat) (data : List Byte) (abandoned readFailed : Bool)
  | shardInstallFinalize (ten slot shard : Nat)
  | shardUpstreamTimeout (ten slot shard : Nat)
  | shardBackgroundVerify
  -- tiers
  | promotionStart (ten page tier : Nat)
  | migrationCommit (ten page : Nat) (errs : List (Nat × Nat))
  | sourceFrameRelease (ten page : Nat)
  | stallLimitExpiry (pea : Nat)
  | kvFlashDemote (ten pool : Nat)
  | pageReclaim
  | lpVerifyPass (errs : List (Nat × Nat × Nat × Nat))
  | sramScrubPass (bytes : List Nat) (bits : List Nat)
  | hbmScrubPass (units : List (Nat × Option (Nat × Nat))) (errs : List ErrPat) (written : List Nat)
  | scrubForcedGrant (slice : Nat)
  | repairRewrite (hbm : Bool) (unit : Nat)
  | uncorrectableRead (store : Store) (who : Reader) (place : Place) (err : ErrPat)
  | lpLinkRetry (read : Repeated) (ok : Bool)
  | hbmCaParityReissue (cmd : Repeated) (ok : Bool)
  | datapathParityReplay (beat : Repeated) (source : Nat) (ok : Bool)
  | turnipParityReplay (core : Nat) (ok : Bool)
  | turnipWatchdogExpiry (core : Nat)
  | flashRetentionScan (block : Nat) (overLimit : Bool)
  | flashReadDisturbRelocate (block : Nat)
  | flashFreeBlockCollect (erase : BlockErase)
  | flashProgramFail (block : Nat)
  | flashStateChange (dest : FlashState) (channel : Nat)
  -- tick synchronisation
  | rootTsyncLaunch
  | tsyncReceive (port : Nat) (m : Tsync)
  | tsyncMiss
  | tickSyncLoss
  | treqReceive (port : Nat) (m : Treq)
  | portDelayMeasure (port ns : Nat)
  | groupJoinTimeout
  -- general host opcodes
  | nop (h : Hdr)
  | identify (h : Hdr) (outPtr : Nat)
  | countersRead (h : Hdr) (set target firstLayer layers outPtr : Nat)
  | planLoad (h : Hdr) (planPtr planLen : Nat)
  | planClear (h : Hdr)
  | fwBankBegin (h : Hdr) (length : Nat)
  | fwBankData (h : Hdr) (len dataPtr offset : Nat)
  | fwDataProgrammed
  | fwBankAbandon (h : Hdr)
  | fwBankCommit (h : Hdr)
  | fwCommitCheckDone
  | attest (h : Hdr) (nonce : List Byte) (outPtr : Nat)
  | attestSignDone
  | setGuard (h : Hdr) (guardUs : Nat)
  -- tenancies
  | tenCreate (h : Hdr) (ten keys ftid : Nat)
  | tenRebind (h : Hdr) (src dst pods keys slices : Nat)
  | rebindFlashClearDone (seq : Nat)
  | rebindCryptoEraseDone (seq : Nat)
  | rebindResetDone (seq : Nat)
  | tenDestroy (h : Hdr) (ten : Nat)
  | ctxOpen (h : Hdr) (c ten : Nat) (expert : Bool) (key : Nat)
  | ctxClose (h : Hdr) (c : Nat)
  | grantSet (h : Hdr) (g : GrantBlk)
  | ctxSched (h : Hdr) (c share : Nat)
  -- KV and prefix
  | kvTableAttach (h : Hdr) (a : KvAttach)
  | kvTableDetach (h : Hdr)
  | kvTableStatus (h : Hdr) (outPtr : Nat)
  | kvMapCopy (h : Hdr) (srcStream srcBlock dstStream dstBlock blocks : Nat)
  | kvMapMove (h : Hdr) (srcStream srcBlock dstStream dstBlock blocks : Nat)
  | kvUnmap (h : Hdr) (stream length : Nat)
  | prefixInsert (h : Hdr) (b : PrefixBlk)
  | prefixLookup (h : Hdr) (b : PrefixBlk)
  | prefixDrop (h : Hdr) (all : Bool) (hash : List Byte)
  | kvPin (h : Hdr) (stream firstBlock blocks : Nat) (pin : Bool)
  -- steps
  | stepSubmit (h : Hdr) (b : StepBlk)
  | slotAlloc (h : Hdr) (slot stream : Nat)
  | slotRelease (h : Hdr) (slot gen : Nat) (keep : Bool)
  | prefillRatio (h : Hdr) (chunk ratio floor : Nat) (basic : Bool)
  -- experts
  | expLayoutInstall (h : Hdr) (b : LayoutBlk)
  | expLayoutRemove (h : Hdr) (layer : Nat)
  | expQueuePost (h : Hdr) (b : QueueBlk)
  | expQueueUnpost (h : Hdr) (queue : Nat)
  | expShared (h : Hdr) (layer order : Nat) (basic : Bool) (podMask : Nat)
  -- tiers, host side
  | memAlloc (h : Hdr) (base pages key : Nat)
  | memFree (h : Hdr) (base pages : Nat)
  | memPin (h : Hdr) (base pages tier : Nat)
  | memDemote (h : Hdr) (base pages tier : Nat)
  | memPrefetch (h : Hdr) (base pages : Nat)
  | migratePolicy (h : Hdr) (ahead : Bool) (touch : Bool) (stallLimitMs : Nat) (basic : Bool)
  -- precision, compression
  | recipeSet (h : Hdr) (layer : Nat) (expert : Bool) (r : Recipe)
  | recipeGet (h : Hdr) (layer outPtr : Nat)
  | cmpTableLoad (h : Hdr) (gen tablePtr : Nat)
  | cmpTableStandard (h : Hdr)
  | cmpTableHold (h : Hdr) (gen : Nat)
  | cmpTableUnhold (h : Hdr) (gen : Nat)
  | cmpTableStatus (h : Hdr) (outPtr : Nat)
  -- groups, collectives, ports
  | groupJoin (h : Hdr) (group rootNode planId : Nat) (members : List Nat)
  | groupLeave (h : Hdr)
  | collSetup (h : Hdr) (b : CollBlk)
  | collRemove (h : Hdr) (collId : Nat)
  | portReset (h : Hdr) (ports : Nat)
  | remapAccept (h : Hdr) (port node peerPort serial : Nat)
  -- manifests and shards
  | manifestLoad (h : Hdr) (slot manPtr manLen : Nat) (keyDigest : List Byte)
  | manifestCheckDone (ten slot : Nat)
  | manifestUnload (h : Hdr) (slot : Nat)
  | shardInstall (h : Hdr) (b : ShardBlk)
  | shardRemove (h : Hdr) (slot shard : Nat)
  | shardVerify (h : Hdr) (slot shard : Nat)
  | verifyInterval (h : Hdr) (hours : Nat)
  -- power, capture
  | capSet (h : Hdr) (capW : Nat)
  | stepLimit (h : Hdr) (step : Nat)
  | energyRead (h : Hdr) (scope target outPtr : Nat)
  | captureStart (h : Hdr) (fill boot : Bool) (linkGb triggers postTicks : Nat)
  | captureStop (h : Hdr) (disarm atFlag : Bool) (atTick : Nat)
  | captureExport (h : Hdr) (outPtr offset length : Nat)
  -- urgent ring
  | abort (h : Hdr) (target : Nat)
  | cancel (h : Hdr) (slot gen : Nat) (keep : Bool)
  | replayBoundary (completionsDone recordBad : Bool) (diverge : Nat)
  -- fabric
  | fabricRequestIssue (r : FabReq)
  | fabricPacketForward (p : FabPkt)
  | fabricRequestReceive (p : FabPkt)
  | fabricCompletionReceive (p : FabPkt)
  | fabricTimeout (reqId : Nat)
  | fabricHoldSend (src reqId : Nat)
  | fabricHoldReceive (reqId : Nat)
  | fabricNotReadyRetry (reqId : Nat)
  | fabricNotReadyExpiry (reqId : Nat)
  | replayEntryAge (src tag : Nat)
  | noticeReceive (port : Nat) (n : Notice)
  | fabricReadyAnnounce
  -- links
  | linkFlitReceive (port : Nat) (f : Flit)
  | linkReplayTimeout (port : Nat)
  | linkDetectStart (port : Nat)
  | linkPartnerDetect (port : Nat)
  | linkEqualizeDone (port lanes : Nat) (failed : Nat)
  | linkIdentityReceive (port : Nat) (block : List Byte)
  | linkIdentifyTimeout (port : Nat)
  | linkRetryTimer (port : Nat)
  | linkNoticeReceive (port : Nat) (accept : Bool)
  | linkLaneFail (port lane : Nat)
  | linkLaneSubstitute (port logical spare : Nat)
  | linkWidthRelockDone (port : Nat)
  | linkLockLoss (port : Nat)
  -- power
  | telemetrySample (x : Sample)
  | clampEnd
  | stepWalkIndex
  | thermalShutdown
  | supplyShutdown (cause : Nat)
  | leaseExpiry
  | energyCalibration
  | podGate (pod : Nat)
  -- management port
  | i3cLease (mseq ceilingW leaseSeq : Nat)
  | i3cResetCold (mseq : Nat) (replay : Bool)
  | i3cResetWarm (mseq : Nat)
  | warmResetResume
  | i3cNode (mseq node : Nat)
  | i3cCoolant (mseq : Nat) (tenthsC : Int) (flow : Nat)
  | i3cAlarm (mseq state : Nat)
  | i3cPlanBlock (mseq offset : Nat) (last : Bool) (data : List Byte)
  | i3cFwBlockBegin (mseq length : Nat)
  | i3cFwBlockData (mseq offset : Nat) (data : List Byte)
  | i3cFwBlockAbandon (mseq : Nat)
  | i3cFwBlockCommit (mseq : Nat)
  | i3cRecovery (mseq op arg : Nat) (data : List Byte)
  | i3cStatusRead
  | i3cEnec (events : Nat)
  | i3cDisec (events : Nat)
  | i3cRstdaa
  | i3cEntdaa (addr : Nat)
  | i3cSetdasa (addr : Nat)
  | i3cSetnewda (addr : Nat)
  | i3cSetmwl (len : Nat)
  | i3cSetmrl (len : Nat)
  | i3cGetmwl
  | i3cGetmrl
  | i3cGetpid
  | i3cGetbcr
  | i3cGetdcr
  | i3cGetstatus
  | i3cGetmxds
  | i3cRstact (defining : Nat)
  -- lifecycle
  | resetInputAssert (ns : Nat)
  | resetInputRelease
  | powerupRailsDone
  | bootBankSelect (turnipWithheld : Nat) (withheld : List Nat)
  | turnipRelease
  | memoryInitDone (test : MemTest)
  | ftlMountDone (ok : Bool)
  | moduleReady
  | presenceLoss (ns : Nat)
  | hotswapIsolate
  | hotswapBleedDone
  | presenceMake
  | hotswapChargeStart
  | hotswapBulkCharged
  -- host port
  | cxlLinkTrain (speed width : Nat) (flit256 cacheEn vfEnable : Bool) (numVfs : Nat)
  | cmdRingEnable (fn log2 : Nat)
  | cmdRingDisable (fn : Nat)
  | evtRingEnable (fn log2 : Nat)
  | evtRingDisable (fn : Nat)
  | cmdDoorbell (fn tail : Nat)
  | cmdUrgDoorbell (fn tail : Nat)
  | cmdStatusHeadWrite (fn head : Nat)
  | evtHeadWrite (fn head : Nat)
  | evtStatusClear (fn : Nat) (bits : Word32)
  | ringSlotWrite (fn off : Nat) (data : List Byte)
  | tikCountLoRead
  | tikPeriodWrite (periodUs : Nat)
  | tikGuardWrite (guardUs : Nat)
  | tikSyncLostSeenClear
  | fabReachWrite (mode : Bool)
  | fabCtrlWrite (timeoutUs attempts retainMs notReadyMs : Nat)
  | lnkCtrlWrite (laneErrMax : Nat)
  | memWatermarkWrite (hbmLow hbmHigh lpLow lpHigh : Nat)
  | eccScrubWrite (sramS hbmH lpH : Nat)
  | pwrGateWrite (gateTicks : Nat)
  | capReplayAddrWrite (out : Bool) (base : Nat)
  | registerWrite (fn bar off width value : Nat)
  | functionLevelReset (fn : Nat)
  | vfEnableClear
  | msixUnmask (fn : Nat)
  | cxlAtomicOp (fn : Nat)
  | cxlSnoop (line : Nat)
  | hostReadComplete (id : Nat) (data : Option (List Byte))
  | hostReadTimeout (id : Nat)
  | mergeEntryClose (slice line : Nat)
  | matrixEngineCold (pea : Nat)
  | resetHoldEnd
  | flashDieLoss (channel blocks : Nat) (covered : Bool)
  | flashChannelRetrain (channel : Nat)
  | rowRemapCopyDone (controller : Nat)
  | podUngateDone (pod : Nat)
deriving DecidableEq, Repr

end Sys2Proof
end

