-- ==== Sys2Proof/Decode.lean ====
section
/-! DEFINITION. The command a table word spells.  No row of the operation table gives bits: the
packets of the host opcodes are 64 bytes (Table 5.3) and are read from ring slots in
Machine/Operands.lean, and a happening has no encoding at all. -/

namespace Sys2Proof

/-- The command that the low `nbits` bits of `w` spell by the table's bits: none, for no row of the
table has bits. -/
def decodeTableWord (_nbits _w : Nat) : Option Instr := none

end Sys2Proof
end

