-- ==== Sys2Proof/Config.lean ====
section
/-! DEFINITION. What an implementation fixes and the manual leaves open: free values (opaque
constants with no body, so no statement can rest on one) and the values fused at manufacture. -/

namespace Sys2Proof.Config

/-- R460 SEC_ID: module serial, fused at manufacture. -/
opaque serial : Nat
/-- R441, R460 SEC_FW_KEY: SHA-256 of the fused firmware key. -/
opaque fwKeyDigest : List Byte
/-- R441: fused minimum security version. -/
opaque minSecVersion : Nat
/-- R454: the 60-byte HSS public key of the identity. -/
opaque identityKey : List Byte
/-- R455: the HSS signature of the identity key with leaf `leaf` over a report. -/
opaque identitySign (leaf : Nat) (report : List Byte) : List Byte
/-- R484: the I3C provisioned identifier read by GETPID, whose value the manual does not state. -/
opaque i3cPid : List Byte
/-- R484: GETSTATUS and GETMXDS bytes, which I3C Basic defines and the manual does not state. -/
opaque i3cStatusBytes (n : Nat) : List Byte
/-- R484: the bytes GETMXDS returns. -/
opaque i3cMxds : List Byte
/-- R484: what GETMRL returns after the two bytes of the maximum read length, if anything. -/
opaque i3cMrlTail : List Byte
/-- R148: the n-th 256-bit key drawn by the key-slot store's random source. -/
opaque randomKey (n : Nat) : BitVec 256
/-- R148: the difference from K1 that the n-th K2 generated again has, which is never zero. -/
opaque keyRedraw (n : Nat) : BitVec 256
/-- R195: the 8 check bytes of a unit's ciphertext at a physical address; the manual gives the code's bounds, not its
polynomial. -/
opaque rsCheck (cipher : List Byte) (phys : Nat) : List Byte
/-- R195: whether an error in more than 5 of a unit's 72 bytes (which, and by what) is detected. -/
opaque rsDetects (bytes : List Nat) (xors : List Byte) : Bool
/-- R355: the n-th fabric epoch drawn; the model uses it as a nonzero 16-bit value. -/
opaque randomEpoch (n : Nat) : Nat
/-- R61: by how many FP32 codes a vector-unit function's result stands off the nearest one; the model keeps the result
within 2 units in the last place of the exact value. -/
opaque ulpOffset (op : VecOp) (x : Word32) : Int
/-- R61: a vector-unit function's result for an input outside the function's domain, or for an infinite
one, where the manual states none. -/
opaque vecOutside (op : VecOp) (x : Word32) : Word32
/-- R62: the maximum of lanes of which one holds a NaN, and its lane, which the manual does not state. -/
opaque nanMax (lanes : List Word32) : Word32
opaque nanMaxLane (lanes : List Word32) : Nat
/-- R62: which two of the `n` values left a lane sum adds next; the manual gives the sum no order. -/
opaque sumPick (n : Nat) : Nat × Nat
/-- R104: what a chunk whose activation group carries outlier entries adds to an INT32 accumulator entry, from the chunk's
weight blocks, the group's side record and spill area, the chunk's elements and its first K; the manual allows outlier
entries in no INT32 recipe and gives no result. -/
opaque int32Outlier (weights side elems : List Byte) (k : Nat) : Int
/-- R283: firmware's basic-level prefill budget for the n-th choice, before the bounds the rule sets. -/
opaque prefillBudget (n : Nat) : Nat
/-- R399, R503: the cap limiter's step at a boundary, from firmware's coefficients. -/
opaque capStep (n : Nat) : Nat
/-- R397, R503: the predicted 20 ms mean in W at a boundary. -/
opaque predictedMeanW (n : Nat) : Nat
/-- R406: the module's modelled power in W with a walk index or a cold start included. -/
opaque modelledPowerW (n : Nat) : Nat
/-- R412, R413: a context's modelled energy in mJ over a calibration interval, from its activity counts so far and by
firmware's coefficients. -/
opaque modelledEnergy (ctx n : Nat) (macs : List (Nat × Nat)) (counts : List Nat) : Nat
/-- R413: the modelled energy in mJ of module work over a calibration interval. -/
opaque modelledModuleEnergy (n : Nat) : Nat
/-- R414 K: the FP32 rounding of the calibration factor, whose rounding rule is not stated. -/
opaque calibrationFactor (num den : Nat) : Word32
/-- R49, R183: the end that the firmware predicts for a unit, in µs from its boundary, the commits it waits for included. -/
opaque predictedEnd (n : Nat) : Nat
/-- R45: packets acted on per ring at one boundary beyond the first. -/
opaque packetsPerRing (n : Nat) : Nat
/-- R357: predicted time to the fabric-ready announcement, in µs. -/
opaque fabricReadyHintUs (n : Nat) : Nat
/-- R189: the mean erase count of the flash blocks. -/
opaque meanEraseCount (n : Nat) : Nat
/-- R192 ERASE_SPREAD: largest minus smallest erase count in service; the model keeps it within 200. -/
opaque eraseSpread (n : Nat) : Nat
/-- R192 NAND_WRITTEN: the NAND programs, in units of 2 MiB, of the n-th write into flash. -/
opaque nandPrograms (n : Nat) : Nat
/-- R189, R192 RETRIED: the reads of a page's promotion from flash that one channel had to retry, for the n-th choice. -/
opaque flashRetries (n channel : Nat) : Nat
/-- R211: the physical place of a 64 KiB block of a tenancy's page in a tier's store, as LOCATION spells it. -/
opaque placeOf (store ten page block : Nat) : Nat
/-- R189: the flash block that a location lies in, as LOCATION spells it. -/
opaque blockOf (loc : Nat) : Nat
/-- R191 SPARE_PERMILLE: spare blocks at manufacture. -/
opaque spareBlocks : Nat
/-- R189, R192 REBUILT: the chunks rebuilt from die parity at the n-th read of a page or die loss. -/
opaque rebuiltChunks (n : Nat) : Nat
/-- R374, R378: the value OUT holds after a faulted round, which the manual leaves undefined. -/
opaque undefinedByte (n : Nat) : Byte
/-- R463: the arrival offset, in ns, of a tick message: of a port, in a tick, after so many entries of its record. -/
opaque arrivalNs (port tick n : Nat) : Nat
/-- R460 BOOT_MS: ms from the start of the n-th power-up since a cold reset to the start of its tick. -/
opaque preTickMs (n : Nat) : Nat
/-- R437, R439: ms from the boundary of the n-th warm reset to the start of its power-up. -/
opaque warmOffMs (n : Nat) : Nat
/-- R209: whether a row of HBM3E holds under soft post-package repair when it is tested. -/
opaque softRepairHolds (row : Nat) : Bool
/-- R209: the bank of a row of HBM3E. -/
opaque bankOfRow (row : Nat) : Nat
/-- R209: the spare rows of a bank of HBM3E. -/
opaque bankSpareRows (bank : Nat) : Nat
/-- R455 FW_DIGEST: the SHA-256 of the image written at manufacture. -/
opaque factoryDigest : List Byte

end Sys2Proof.Config
end

