-- ==== Sys2Proof/Machine/State.lean ====
section
/-! DEFINITION. The machine's state as plain data: every register, buffer, queue, counter, mode and
pin the manual gives the module, the queue of waiting commands, and the state right after a cold
reset.  A field's trailing comment gives its width, the rule that names it and, in brackets, the
assumption-log entry where the model chose its reset value. -/

namespace Sys2Proof.Machine

/-- A sorted sparse map: keys strictly rising, no entry equal to zero (the value an unlisted key has). -/
abbrev SMap (w : Nat) := List (Nat × BitVec w)

/-- Byte memory in the canonical form of `SMap`. -/
abbrev Mem := List Host.Cell

/-- Why the machine stops with a fault: never.  Every failure the manual describes is a status, an
event, a counter or a mode of the module, so no command faults. -/
inductive Fault where
deriving DecidableEq, Repr

/-- Why the machine refuses a command. -/
inductive Refusal where
  /-- Raised by an arm of `exec` that has no meaning yet: safe (nothing is proved of it). -/
  | notModelled (mnemonic : String)
deriving DecidableEq, Repr

/-- Module states (CMD_STATE, Table 5.2). -/
inductive ModState where
  | boot | mgmt | ready | fault
deriving DecidableEq, Repr

/-- Whole-module conditions outside CMD_STATE (R22, R410, R437, R457, R480). -/
inductive Run where
  | up            -- powered, reset input released
  | held          -- reset input asserted (R22), or a release held back by R436
  | warmOff       -- warm reset: memory rails only (R437)
  | shutdown      -- thermal or supply shutdown: as under R22 until a reset (R410, R480)
  | removed       -- hot removal has run (R457)
deriving DecidableEq, Repr

/-- Status codes (Table 5.6). -/
inductive Status where
  | ok | notReady | invalid | denied | poisoned | cancelled | tooLate | noTarget | targetLost
  | indeterminate | ignoredGen | outOfReach | noSpace | noBank | moduleFault | digestMismatch
  | sigFail | flagWithheld | tierFail
deriving DecidableEq, Repr

/-- Reasons for ignoring (Table 5.10). -/
inductive Reason where
  | ring | opcode | cls | context | sequence | permission | range | slotWrite | doorbell | pointer | register
deriving DecidableEq, Repr

/-- What the module sends to the outside, in order (R422, R428, R424, R484, R319). -/
inductive Out where
  | hostWrite (addr : Nat) (bytes : List Byte)
  | replayWrite (base addr : Nat) (bytes : List Byte)
  | hostRead (id addr len : Nat)
  | interrupt (fn addr data : Nat)
  | ibi (cause : Nat)
  | hotJoin
  | i3cRead (bytes : List Byte)
  | i3cNack
  | cxlUnsupported (fn : Nat)
  | snoopMiss (line : Nat)
  | cxlPoisoned (addr : Nat)
  | regRead (value : Nat)
  | linkTsync (port : Nat) (m : Tsync)
  | linkTreq (port : Nat) (m : Treq)
  | linkIdent (port : Nat) (block : List Byte)
  | linkAccept (port : Nat)
  | linkWithdraw (port : Nat)
  | linkLane (port logical spare : Nat)
  | linkNarrow (port logical : Nat)
  | flitPayload (port kind : Nat) (bytes : List Byte)
  | linkAck (port ack : Nat) (nak : Bool)
  | linkResend (port firstSeq : Nat)
  | fabric (port : Nat) (p : FabPkt)
  | notice (port : Nat) (n : Notice)
deriving DecidableEq, Repr

/-! ### Rings and functions -/

/-- What the checks of R139 made of a queued packet: ignored, passed, or passed and since answered by an
ABORT, a CANCEL or a close (R135, R156). -/
inductive Verdict where
  | ignored | passed | answered
deriving DecidableEq, Repr

/-- What a packet was to bring into being (R139, R157, R174). -/
inductive Made where
  | nothing
  | tenancy (t : Nat)
  | context (c : Nat)
  | pages (base count : Nat)
  | slot (slot stream : Nat)
  | parts (src dst pods slices : Nat)
  | table
deriving DecidableEq, Repr

/-- A finalised command-ring request: its SEQ, finalising tick, code and DETAIL, and what it did not bring
into being as it should have. -/
structure Final where
  seq : Nat
  tick : Nat
  st : Status
  detail : Nat
  unmade : Made := .nothing
deriving DecidableEq, Repr

/-- One function's ring registers (Table 5.2), slots and MSI-X vector. -/
structure Fn where
  cmdEnable : Bool := false        -- [1] R120 CMD_CTRL.ENABLE
  cmdEnabled : Bool := false       -- [1] R120 CMD_CTRL.ENABLED
  statusLog2 : Nat := 9            -- [5] R119 CMD_CTRL.STATUS_LOG2
  statusBase : Nat := 0            -- [52] R120 CMD_STATUS_BASE.BASE
  tail : Nat := 0                  -- [32] R122 last accepted CMD_DOORBELL.TAIL
  urgTail : Nat := 0               -- [32] R122 last accepted CMD_URG_DOORBELL.TAIL
  head : Nat := 0                  -- [32] R119 CMD_HEAD.HEAD
  urgHead : Nat := 0               -- [32] R119 CMD_HEAD.URG_HEAD
  nextSeq : Nat := 0               -- [32] R139 CMD_SEQ.NEXT_SEQ
  urgNextSeq : Nat := 0            -- [32] R139 CMD_SEQ.URG_NEXT_SEQ
  statusHead : Nat := 0            -- [32] R134 CMD_STATUS_HEAD.HEAD
  statusWritten : Nat := 0         -- [32] R132 replies written (free-running)
  ignoredTotal : Nat := 0          -- [32] R139 CMD_IGNORED.TOTAL
  ignoredLast : Nat := 0           -- [4] R139 CMD_IGNORED.LAST_REASON
  evtEnable : Bool := false        -- [1] R120 EVT_CTRL.ENABLE
  evtEnabled : Bool := false       -- [1] R120 EVT_CTRL.ENABLED
  evtLog2 : Nat := 7               -- [5] R119 EVT_CTRL.LOG2
  evtBase : Nat := 0               -- [52] R120 EVT_RING_BASE.BASE
  evtHead : Nat := 0               -- [32] R134 EVT_HEAD.HEAD
  evtTail : Nat := 0               -- [32] R136 EVT_TAIL.TAIL
  evtLost : Nat := 0               -- [32] R136 EVT_LOST.LOST
  evtStatus : BitVec 32 := 0       -- [32] R10 EVT_STATUS (W1C bits 0 to 6)
  lostSince : Nat := 0             -- [32] R136 records lost since the previous EVENTS_LOST
  lostFirstTick : Nat := 0         -- [48] R136 FIRST_TICK of the next EVENTS_LOST
  lostAt : Option Nat := none      -- [64] R136 boundary of the latest loss
  irqAt : Option Nat := none       -- [64] R138 boundary of the latest interrupt
  sumAt : Option Nat := none       -- [64] R140 boundary of the latest IGNORED_SUMMARY
  ignCount : Nat := 0              -- [32] R140 items ignored since the previous summary
  ignFirstSeq : Nat := 0           -- [32] R140 FIRST_SEQ
  ignFirstReason : Nat := 0        -- [8] R140 FIRST_REASON
  ignFirstOpcode : Nat := 0        -- [8] R140 FIRST_OPCODE
  ignReasons : BitVec 16 := 0      -- [16] R140 REASONS
  ignOrd : Nat := 0                -- [count] R140 place of the first item ignored, packets after every write
  arrivals : Nat := 0              -- [count] R140 writes refused or latched since the boundary
  eccSuppressed : Nat := 0         -- [16] R211 SUPPRESSED of the next ECC record
  eccWritten : Nat := 0            -- [5] R211 ECC records written at this boundary
  cmdSlots : Mem := []             -- [16 KiB] R425 command ring slots
  urgSlots : Mem := []             -- [1 KiB] R425 urgent ring slots
  msixAddr : Nat := 0              -- [64] R426 MSI-X table address
  msixData : Nat := 0              -- [32] R426 MSI-X table data
  msixMasked : Bool := true        -- [1] R426 MSI-X mask bit
  msixPending : Bool := false      -- [1] R424 MSI-X pending bit
  irqWant : Bool := false          -- [1] R138 an interrupt is due at this boundary
  flrLatched : Bool := false       -- [1] R430 FLR latched, not acted on
  checked : List Verdict := []     -- [256] R139 verdicts on queued command-ring packets, oldest first
  urgChecked : List Verdict := []  -- [16] R139 verdicts on queued urgent packets, oldest first
  finals : List Final := []        -- [list] R135 finalised command-ring requests, latest first
deriving DecidableEq, Repr

/-- A register or doorbell write as the host made it, waiting for a boundary (R120, R431, R494):
function, BAR, offset, width in bytes, value, and its place among the function's writes of the tick (R140). -/
structure RegWrite where
  fn : Nat
  bar : Nat
  off : Nat
  width : Nat
  value : Nat
  ord : Nat := 0
deriving DecidableEq, Repr

/-! ### Requests -/

/-- Progress of a request that has been accepted and not finalised (R130, R132). -/
inductive ReqSt where
  | fetching (readId : Nat) (len : Nat)       -- PTR parameters outstanding (R124)
  | fetched (bytes : Option (List Byte))      -- parameters in, acted on at the next boundary
  | running                                   -- acted on, not finalised
  | waitStep                                  -- acted-on step not opened (R270)
deriving DecidableEq, Repr

/-- An accepted packet whose reply is owed. -/
structure Req where
  ctx : Nat
  seq : Nat
  op : Nat
  urgent : Bool := false
  irq : Bool := false
  st : ReqSt := .running
  abortBy : Option Nat := none           -- SEQ of the ABORT or close that stops it (R135)
  preFlr : Bool := false                 -- accepted before an FLR (R430)
  arg : Nat := 0                         -- the SEQ that an ABORT of a step names (R287)
deriving DecidableEq, Repr

/-! ### Contexts -/

/-- Trouble counts (Table 4.6) with their rate denominators. -/
structure Trouble where
  sat : Nat := 0
  ovf : Nat := 0
  ufl : Nat := 0
  invalid : Nat := 0
  spill : Nat := 0
  elements : Nat := 0
  groups : Nat := 0
  nonzero : Nat := 0
deriving DecidableEq, Repr

/-- Layer account of a context: its counter block (Table 5.13) and its evaluation window (R113). -/
structure LayerAcct where
  layer : Nat
  total : Trouble := {}
  flags : Nat := 0
  win : Trouble := {}
  wOpened : Nat := 0
deriving DecidableEq, Repr

/-- Batch slot (R264, R266). -/
structure BatchSlot where
  slot : Nat
  allocated : Bool := false
  releasing : Bool := false
  draining : Bool := false
  keep : Bool := false
  gen : Nat := 0
  stream : Nat := 0
  drains : List Nat := []            -- SEQ of commands replying at the drain boundary
deriving DecidableEq, Repr

/-- Pending prefill (R282). -/
structure Prefill where
  slot : Nat
  gen : Nat
  dataPtr : Nat
  promptLen : Nat
  done : Nat := 0
deriving DecidableEq, Repr

/-- Compression bank (R224, R226). -/
structure Bank where
  gen : Nat := 0
  lens : List Nat := []
  tcrc : Nat := 0
  holds : Nat := 0
deriving DecidableEq, Repr

/-- A table load acted on and not resolved (R228): `image` is what the fetch brought, `none` inside
for one that failed. -/
structure TableLd where
  seq : Nat
  gen : Nat
  done : Bool := false
  image : Option (List Byte) := none
deriving DecidableEq, Repr

/-- The part of an exchange round for one expert: its rows with their tags and positions, where the rows lie, and what
its count header says (R295 to R297). -/
structure Unsent where
  expert : Nat
  round : Nat
  seq : Nat
  rows : List (RowTag × Nat)
  act : Nat
  dropped : Nat
  abandoned : Bool
deriving DecidableEq, Repr

/-- Headers of one round found missing at a boundary (R310). -/
structure MissNote where
  ctx : Nat
  layer : Nat
  side : Nat
  expert : Nat
  round : Nat
  first : Nat
  node : Nat
  count : Nat
  cause : Nat
deriving DecidableEq, Repr

/-- Expert layout and its source round (R289, R291, R305). -/
structure Layout where
  blk : LayoutBlk
  round : Nat := 0
  isOpen : Bool := false
  openRound : Nat := 0
  openSeq : Nat := 0
  startTick : Nat := 0
  returned : List Nat := []            -- experts whose return header of the open round arrived
  lastReturn : List (Nat × Nat) := []  -- expert, last round returned (R297)
  waiting : List Unsent := []          -- parts of rounds held back by R297
  gathered : Bool := false             -- the gather round's completion has been acted on (R305)
  gatherOver : Bool := false           -- the gather round is complete (R305)
  passCut : Bool := false              -- the first pass of the expert phase has been cut (R300, R308)
  badRounds : List (Nat × Status × Nat) := []   -- rounds faulted before the step that will hold them: round, code, DETAIL (R309)
  gatherAddr : Nat := 0
  rows : Nat := 0
  status : Status := .ok
  orderMode : Nat := 0                 -- EXP_SHARED ORDER (R307)
  podMask : Nat := 0                   -- EXP_SHARED POD_MASK
deriving DecidableEq, Repr

/-- Collective and its open round (R370, R375, R377). -/
structure Coll where
  blk : CollBlk
  round : Nat := 0
  isOpen : Bool := false
  seq : Nat := 0
  pea : Nat := 0
  count : Nat := 0
  inAddr : Nat := 0
  outAddr : Nat := 0
  recAddr : Nat := 0
  counterAddr : Nat := 0
  startTick : Nat := 0
  arrived : List (Nat × CollHdr) := [] -- accepted headers by slot, parity of the round times T plus the stage
  sent : List Nat := []                -- stages sent
  late : List Nat := []                -- R378 slots of faulted rounds whose messages may still come
deriving DecidableEq, Repr

/-- KV table of a context (R238). -/
structure KvTable where
  pool : Nat
  streams : Nat
  maxBlocks : Nat
  base : Nat
  pages : Nat
  openPage : List (Nat × Nat) := []    -- stream, open pool page (R236)
  dead : Bool := false                 -- released by a rebind (R262)
deriving DecidableEq, Repr

/-- Account (R168) and activity counts (R412). -/
structure Account where
  podTicks : Nat := 0
  ovrClock : Nat := 0
  ovrStall : Nat := 0
  ovrFabric : Nat := 0
  ovrEstimate : Nat := 0
  energyMj : Nat := 0
  fabTx : Nat := 0
  fabRx : Nat := 0
  deniedIn : Nat := 0
  macs : List (Nat × Nat) := []     -- by MACs per cycle of Table 3.2
  vecOps : Nat := 0
  sliceBytes : Nat := 0
  tierBytes : Nat := 0
  frozen : Bool := false
deriving DecidableEq, Repr

/-- One context. -/
structure Ctx where
  isOpen : Bool := false             -- [1] R152
  ten : Nat := 0                     -- [6] R152 tenancy bound
  openTick : Nat := 0                -- [64] R113 boundary at which it was opened
  expert : Bool := false             -- [1] R127 expert right
  key : Nat := 0                     -- [6] R150 default key index
  closing : Option Nat := none       -- [33] R156 closing, with the SEQ of the CTX_CLOSE
  share : Nat := 16                  -- [8] R153 time-slicing share
  cur : Int := 0                     -- [int] R153 cur[c]
  guardUs : Nat := 0                 -- [6] R49 context guard, 0 for the basic level
  ahead : Bool := true               -- [1] R185 AHEAD
  touch : Bool := false              -- [1] R185 TOUCH
  stallLimitMs : Nat := 100          -- [10] R185 STALL_LIMIT_MS
  prefillExpert : Bool := false      -- [1] R283 expert-level ratio in force
  chunk : Nat := 2048                -- [12] R283 CHUNK
  ratio : Nat := 0                   -- [8] R283 RATIO
  floor : Nat := 0                   -- [15] R283 FLOOR
  verifyHours : Nat := 24            -- [8] R387 verification interval
  recipes : List (Nat × Recipe) := []      -- [1,024 x 128] R109
  layers : List LayerAcct := []            -- [1,024 x 256] R112, R142
  slots : List BatchSlot := []             -- [4,096 slots] R264
  prefills : List Prefill := []            -- [list] R282
  table : Option KvTable := none           -- [1 table] R238
  cmpCurrent : Nat := 0                    -- [4] R224 current generation
  bankA : Bank := {}                       -- [bank] R224
  bankB : Bank := {}                       -- [bank] R224
  cmpPending : Option TableLd := none      -- [load] R228
  layouts : List Layout := []              -- [128] R289
  colls : List Coll := []                  -- [64] R370
  ovrClock : Nat := 0                -- [32] R142 OVR_CLOCK
  ovrStall : Nat := 0                -- [32] R142 OVR_STALL
  ovrFabric : Nat := 0               -- [32] R142 OVR_FABRIC
  ovrEstimate : Nat := 0             -- [32] R142 OVR_ESTIMATE
  waitTicks : Nat := 0               -- [32] R142 WAIT_TICKS
  denied : Nat := 0                  -- [32] R142 DENIED
  alignFail : Nat := 0               -- [32] R142 ALIGN_FAIL
  ignored : Nat := 0                 -- [32] R142 IGNORED
  evtLost : Nat := 0                 -- [32] R142 EVT_LOST
  genDrop : Nat := 0                 -- [32] R142 GEN_DROP
  ringStall : Nat := 0               -- [32] R142 RING_STALL
  stallAt : Option Nat := none       -- [64] R142 boundary last counted in RING_STALL
  discAt : Option Nat := none        -- [64] R268 boundary of the latest GEN_DISCARD event
  genDropTick : List (Nat × Nat × Nat × Nat × Nat × Bool) := []   -- [list] R268 slot, gen, current gen, seq, where, cut off by an FLR
  stallTick : List (Nat × Nat × Nat × Bool) := []  -- [list] R180 stalls ended in the tick: tier, page, µs, failed
  acct : Account := {}               -- [account] R168
deriving DecidableEq, Repr

/-! ### Tenancies -/

/-- A key index of a tenancy (R150, R151, R161). -/
structure KeyIx where
  slot : Nat
  frozen : Bool := false
  epoch : Nat := 0
deriving DecidableEq, Repr

/-- An align round (R86). -/
structure AlignRound where
  group : Nat
  n : Nat
  peas : List Nat
deriving DecidableEq, Repr

/-- KV page-table entry (Table 10.4) as data. -/
structure Kve where
  fill : Nat
  page : Nat
  slot : Nat
deriving DecidableEq, Repr

/-- KV pool (Table 10.1, R236, R237, R249, R251). -/
structure Pool where
  num : Nat
  geo : KvAttach
  tables : Nat := 0
  refs : List (Nat × Nat) := []            -- slot key page*128+slot, reference count
  quarantine : List (Nat × Nat) := []      -- slot key, boundary its count fell to zero
  pinned : List (Nat × Nat) := []          -- R250 entries KV_PIN marked: entry key, slot key
  entries : List (Nat × Kve) := []         -- page-table entries: key ctx, index packed
deriving DecidableEq, Repr

/-- Prefix index entry (R258). -/
structure PrefixEnt where
  pool : Nat
  hash : List Byte
  lastUse : Nat
  record : List Kve
  slot : Nat := 0                    -- record number in the pool's record area
deriving DecidableEq, Repr

/-- Inbound buffer of an expert queue (Table 12.6). -/
structure QBuf where
  round : Nat
  hdrs : List (Nat × ExpHdr) := []         -- source, header
  faulted : Bool := false
  earlyCut : Bool := false
  complete : Bool := false
  acted : Bool := false                    -- its completion has been acted on (R301)
  todo : List Nat := []                    -- expert units to cut (R301)
  rowsIn : Bool := false                   -- a row of the round has arrived (R298)
  answers : List (Nat × Nat) := []         -- source, answers sent
  startTick : Nat := 0
deriving DecidableEq, Repr

/-- Expert queue (R298). -/
structure Queue where
  num : Nat
  ctx : Nat
  blk : QueueBlk
  buf0 : QBuf := { round := 0 }
  buf1 : QBuf := { round := 1 }
  expected : Nat := 0
deriving DecidableEq, Repr

/-- Stored manifest or a manifest load under way (R380, R381). -/
structure Manifest where
  slot : Nat
  ctx : Nat
  seq : Nat
  loaded : Bool := false
  image : Option (List Byte) := none
  len : Nat := 0
  done : Bool := false                      -- the fetch has ended
  checked : Bool := false                   -- the check has ended (R381)
  keyDigest : List Byte := []
  modelId : List Byte := []
  shards : List (Nat × List Byte) := []     -- length and digest by index
deriving DecidableEq, Repr

/-- Home of a page (Table 7.2). -/
inductive Tier where
  | zero | hbm | lp | flash
deriving DecidableEq, Repr

/-- Shard states: installing, awaiting its finalising boundary, installed, failed (R382 to R388). -/
inductive ShardSt where
  | installing | hashed | installed | failed
deriving DecidableEq, Repr

/-- Shard record (R382, R388). -/
structure Shard where
  blk : ShardBlk
  ctx : Nat
  seq : Nat
  st : ShardSt := .installing
  key : Nat := 0
  length : Nat := 0
  next : Nat := 0                      -- next chunk number
  tiers : List Tier := []              -- tiers of the frames filled so far, by page
  lastHdrUs : Nat := 0                 -- when the last chunk header arrived (R385)
  bytes : List Byte := []              -- bytes received so far, in chunk order
  fwdFail : Bool := false
  lastGood : Nat := 0
  dueUs : Nat := 0
  hours : Nat := 24
  verifies : List (Nat × Nat) := []    -- SHARD_VERIFYs under way: context, SEQ
  stop : Option Nat := none            -- SEQ of the ABORT or close that stopped the install (R385)
deriving DecidableEq, Repr

/-- A valid slice-map entry (R71): logical and physical slice and WRITE. -/
structure SliceEnt where
  logical : Nat
  phys : Nat
  write : Bool := true
deriving DecidableEq, Repr

/-- One tenancy. -/
structure Ten where
  live : Bool := false                   -- [1] R144
  destroying : Bool := false             -- [1] R158
  keys : List KeyIx := []                -- [64] R151
  ftid : Nat := 0                        -- [16] R144
  sliceMap : List SliceEnt := []         -- [192 entries] R71, R146 slice map of the tenancy's pods
  aligns : List AlignRound := []         -- [16 groups] R86
  pools : List Pool := []                -- [8] R234
  prefixes : List PrefixEnt := []        -- [65,536] R258
  queues : List Queue := []              -- [1,024] R298
  manifests : List Manifest := []        -- [16] R380
  shards : List Shard := []              -- [4,096] R382
  acct : Account := {}                   -- [account] R168
  podTick : Option Nat := none           -- [tick] R153 tick in which pods were last assigned
  podOf : List (Nat × Nat) := []         -- [pods] R153 pods assigned in that tick: pod, context
deriving DecidableEq, Repr

/-- Owner of a pod or slice (R144, Table 6.5). -/
inductive Owner where
  | free
  | ten (t : Nat)
  | rebinding
  | withheld
deriving DecidableEq, Repr

/-- Stages of a rebind (Table 6.3). -/
inductive RebindSt where
  | drain | flashClear | cryptoErase | resetting | assign
deriving DecidableEq, Repr

/-- A rebind or destroy in progress (R158 to R165). -/
structure Rebind where
  seq : Nat
  src : Nat
  dst : Nat
  pods : Nat
  slices : Nat
  keys : Nat
  destroy : Bool := false
  startTick : Nat := 0
  startUs : Nat := 0
  st : RebindSt := .drain
  reclaim : Nat := 0
  acrossReset : Bool := false
  hit : List (Nat × Nat) := []        -- requests whose units it withdrew or stopped (R160): context, SEQ
deriving DecidableEq, Repr

/-- What a key slot holds (R148): nothing, the keys of a draw, or zeros after a crypto-erase (R162). -/
inductive KeySlot where
  | free
  | drawn (n : Nat)
  | zero
deriving DecidableEq, Repr

/-- Tenancy block: tenancies, pods, slices, key slots, grants, rebinds (chapter 6). -/
structure TenSt where
  tens : List Ten := List.replicate 48 {}            -- [48] R144
  pods : List Owner := List.replicate 48 .free       -- [48] R144, Table 6.5
  slices : List Owner := List.replicate 184 .free    -- [184] R144
  keySlots : List KeySlot := List.replicate 256 .free   -- [256 x 512] R148 K1 and K2 of each slot, as the draw they came from
  grants : List GrantBlk := []                       -- [1,024] R166
  rebinds : List Rebind := []                        -- [list] R165 pending rebinds
  lastUs : Nat := 0                                  -- [16] R169 TEN_REBIND_TIME.LAST_US
  maxUs : Nat := 0                                   -- [16] R169 TEN_REBIND_TIME.MAX_US
  reclaimed : Nat := 0                               -- [32] R169 TEN_RECLAIM.RECLAIMED
  warmDone : List Rebind := []                       -- [list] R165 rebinds finished across a warm reset
deriving DecidableEq, Repr

/-! ### Tiers and protection -/

/-- A migration asked for and not started (R178, R183, R184): page of a tenancy and its destination. -/
structure Ask where
  ten : Nat
  page : Nat
  dest : Tier
  victim : Bool := false         -- asked for under R182, R251 or R252, which spare pinned and named pages
  kv : Bool := false             -- asked for under R251 or R252, whose moves Table 10.10 counts
deriving DecidableEq, Repr

/-- A MEM_PIN, MEM_DEMOTE or MEM_PREFETCH not settled (R184): pages outstanding and the count for DETAIL. -/
structure MoveCmd where
  ctx : Nat
  seq : Nat
  op : Nat
  ten : Nat
  dest : Tier
  left : List Nat
  count : Nat := 0
  stop : Option Nat := none      -- SEQ of the ABORT that stopped it
deriving DecidableEq, Repr

/-- A migration in flight: the destination tier whose frame is being filled (R186). -/
structure Mig where
  dest : Tier
  kv : Bool := false             -- a demotion under R251 or R252
deriving DecidableEq, Repr

/-- A page of a tenancy (R172). -/
structure Page where
  ten : Nat
  num : Nat
  key : Nat
  ctx : Nat := 256                          -- R412 the context that owns it, 256 for one that has closed
  tier : Tier := .zero
  pin : Nat := 0                            -- 0 none, 1 HBM, 2 LPDDR5X
  lastTouch : Nat := 0
  mig : Option Mig := none
  oldFrames : List Tier := []               -- source frames not yet freed, oldest first (R186)
  claim : Nat := 0                          -- 0 none, 1 pool, 2 record area, 3 table, 4 shard, 5 queue data
  owner : Nat := 0                          -- pool number, context or shard slot of the claim
  crcs : List Word32 := []                  -- [32 x 32] CRC-32C of each 64 KiB block, while outside HBM (R198)
  crcBad : List Nat := []                   -- poisoned 64 KiB blocks (R199)
  prefetch : Bool := false                  -- in the prefetch set as of the last boundary (R253)
  asked : Bool := false                     -- its promotion was asked under R253 and has not committed
deriving DecidableEq, Repr

/-- Memory block: slices, pages and their contents (chapters 3, 7, 8, 10). -/
structure MemSt where
  sliceMem : Mem := []                  -- [384 MiB] R68 all slices, address slice*2^21 + offset
  slicePoison : List Nat := []          -- [marks] R203 poisoned slice bytes, rising
  sliceErr : SMap 13 := []              -- [13 per byte] R193 wrong bits of a stored word, by slice byte
  dev : Mem := []                       -- [48 x 2^45 B] R144 page contents, address ten*2^45 + offset
  devPoison : List Nat := []            -- [marks] R203 poisoned 64-byte units, rising
  errPlace : List (Nat × Nat) := []     -- [list] R195 the physical unit of a unit with wrong bytes, by unit
  devErr : SMap 8 := []                 -- [72 x 8 per unit] R195 wrong bytes of a stored unit, by unit*128 + byte
  framePoison : List Nat := []          -- [marks] R204 poisoned units of free and module HBM frames, by physical unit
  pages : List Page := []               -- [2^24 per tenancy] R172
  asks : List Ask := []                 -- [list] R183 migrations asked for, in order
  moves : List MoveCmd := []            -- [list] R184 tier commands not settled
  reclaimQ : List (Nat × Tier) := []    -- [list] R163 pages queued for reclaim: tenancy, frame tier
  lingering : List (Nat × Nat × Tier) := []  -- [list] R175 source frames of freed pages with reads outstanding: tenancy, page, tier
  hbmLowering : Bool := false           -- [1] R182 HBM is being brought from below HBM_LOW to HBM_HIGH
  lpLowering : Bool := false            -- [1] R182 LPDDR5X is being brought from below LP_LOW to LP_HIGH
  merges : List (Nat × Nat) := []       -- [16 per slice] R79 open merge entries: slice, line
  mergeBad : List (Nat × Nat) := []     -- [16 per slice] R82 open entries whose array read was uncorrectable
  sliceRepair : List Nat := []          -- [list] R194 repair queue of lines
  hbmRepair : List (Nat × Nat) := []    -- [64 per controller] R197 physical unit and the unit it holds
  merged : Nat := 0                     -- [64] R89 MERGED
  mergeFull : Nat := 0                  -- [16] R89 MERGE_FULL
  denied : Nat := 0                     -- [16] R89 DENIED
  alignFail : Nat := 0                  -- [16] R89 ALIGN_FAIL
  pendReject : Nat := 0                 -- [16] R89 PEND_REJECT
  precSat : Nat := 0                    -- [16] R115 SAT
  precOvf : Nat := 0                    -- [16] R115 OVF
  precUfl : Nat := 0                    -- [16] R115 UFL
  precInvalid : Nat := 0                -- [8] R115 INVALID
  precFlags : Nat := 0                  -- [8] R115 FLAGS
  hbmLow : Nat := 8192                  -- [16] R192 MEM_WATERMARK.HBM_LOW
  hbmHigh : Nat := 16384                -- [16] R192 HBM_HIGH
  lpLow : Nat := 4096                   -- [16] R192 LP_LOW
  lpHigh : Nat := 8192                  -- [16] R192 LP_HIGH
  stalls : Nat := 0                     -- [32] R192 MEM_STALL.STALLS
  stallFailed : Nat := 0                -- [16] R192 FAILED
  stallRemote : Nat := 0                -- [16] R192 REMOTE
  promoted : Nat := 0                   -- [32] R192 MEM_MIGRATE.PROMOTED
  demoted : Nat := 0                    -- [32] R192 DEMOTED
  kvToLp : Nat := 0                     -- [32] R263 MEM_KV_SPILL.TO_LP
  kvToFlash : Nat := 0                  -- [32] R263 TO_FLASH
  kvPrefetched : Nat := 0               -- [32] R263 PREFETCHED
  kvLate : Nat := 0                     -- [16] R263 LATE
  kvOvercommit : Nat := 0               -- [16] R263 OVERCOMMIT
  kvHit : Nat := 0                      -- [32] R263 HIT_BLOCKS
  kvEvicted : Nat := 0                  -- [16] R263 EVICTED
  kvDup : Nat := 0                      -- [16] R263 DUP
deriving DecidableEq, Repr

/-- Flash tier (R188 to R191, Table 7.12); all of it is kept in flash. -/
structure FlashSt where
  state : FlashState := .normal     -- [2] R190 (log 5)
  lifePct : Nat := 0                -- [8] R191 LIFE_PCT
  sparePermille : Nat := 1000       -- [16] R191 SPARE_PERMILLE
  retired : Nat := 0                -- [32] R191 RETIRED
  eraseSpread : Nat := 0            -- [16] R192 ERASE_SPREAD
  framesWritten : Nat := 0          -- [32] R192 FRAMES_WRITTEN
  nandWritten : Nat := 0            -- [32] R192 NAND_WRITTEN
  disturb : Nat := 0                -- [32] R192 DISTURB
  retention : Nat := 0              -- [32] R192 RETENTION
  retried : Nat := 0                -- [32] R192 RETRIED
  rebuilt : Nat := 0                -- [16] R192 REBUILT
  uncorrectable : Nat := 0          -- [16] R192 UNCORRECTABLE
  retiredBlocks : List Nat := []    -- [list] R189 blocks out of service
  channel : Nat := 0xFF             -- [8] R191 CHANNEL: the channel that took the tier OFFLINE
  choices : Nat := 0                -- [count] R189 model's own: index of the next free value (log 9)
deriving DecidableEq, Repr

/-- What the flash tier reports at the next boundary (R191). -/
structure FlashTick where
  changedTick : Bool := false       -- [1] R191 state changed in the tick
  lifeTick : Bool := false          -- [1] R191 life step in the tick
  retiredTick : Nat := 0            -- [16] R191 RETIRED_TICK
deriving DecidableEq, Repr

/-- The flash channels' interfaces (Table 7.8): NV-LPDDR4 once trained, SDR timing mode 0 before; the reads that needed
read retry since the channel last trained, and the frames written in place since the flash tier last counted them. -/
structure ChanSt where
  nvLpddr4 : List Bool := List.replicate 8 false   -- [8] R188 trained channels
  retries : List Nat := List.replicate 8 0         -- [8] R188 read retries since the last training
  inPlace : Nat := 0                               -- [count] R192 frames written in place and not counted yet
  readsInPlace : Nat := 0                          -- [count] R192 pages read in place and not counted yet
deriving DecidableEq, Repr

/-- Protection block (Table 8.5, R207 to R211). -/
structure EccSt where
  sramS : Nat := 10                 -- [6] R212 SRAM_S
  hbmH : Nat := 24                  -- [8] R212 HBM_H
  lpH : Nat := 168                  -- [8] R212 LP_H
  sramPasses : Nat := 0             -- [16] R212
  hbmPasses : Nat := 0              -- [16] R212
  sramCorrected : Nat := 0          -- [32] R212
  sramUncorr : Nat := 0             -- [16] R212
  sramPoisonRead : Nat := 0         -- [16] R212
  hbmCorrected : Nat := 0           -- [32] R212
  hbmUncorr : Nat := 0              -- [16] R212
  hbmPoisonRead : Nat := 0          -- [16] R212
  ondie : Nat := 0                  -- [32] R212
  ondieUe : Nat := 0                -- [16] R212
  caRetry : Nat := 0                -- [16] R212
  lpLinkCorrected : Nat := 0        -- [32] R212
  lpLinkRetry : Nat := 0            -- [16] R212
  lpCrcFail : Nat := 0              -- [16] R212
  xbarReplay : Nat := 0             -- [32] R212
  turnipReplay : Nat := 0           -- [16] R212
  parityFailed : Nat := 0           -- [16] R212
  remaps : List Nat := []           -- [24,576] R208 HBM3E rows remapped at run time
  remapping : List (Nat × Nat) := []  -- [list] R208 controller, row whose copy is under way
  lastCorrected : List (Nat × Nat) := []  -- [list] R208 corrected at the previous pass
  withheld : Nat := 0               -- [8] R207 WITHHELD
  tickSram : Nat := 0               -- [32] R211 SRAM corrections in the tick
  tickHbm : Nat := 0                -- [32] R211
  tickLp : Nat := 0                 -- [16] R211
  tickReplays : Nat := 0            -- [16] R211
  tickCandidates : Nat := 0         -- [16] R211
  parityRun : List (Nat × Nat) := []   -- [beats x 2] R210 consecutive replays of a beat
  caRun : List (Nat × Nat) := []    -- [list] R15 consecutive failures per command
  lpRun : List (Nat × Nat) := []    -- [reads x 2] R201 consecutive retries of a read
deriving DecidableEq, Repr

/-- Compression counters (Table 9.7). -/
structure CmpSt where
  frBlocks : Nat := 0       -- [32] R233
  frSat : Nat := 0          -- [16] R233
  frUfl : Nat := 0          -- [16] R233
  vrBlocks : Nat := 0       -- [32] R233
  vrStored : Nat := 0       -- [16] R233
  vrSat : Nat := 0          -- [16] R233
  dmgIndex : Nat := 0       -- [16] R233
  dmgHeader : Nat := 0      -- [16] R233
  dmgCrc : Nat := 0         -- [16] R233
  dmgCode : Nat := 0        -- [16] R233
  loads : Nat := 0          -- [16] R233
  refused : Nat := 0        -- [16] R233
  freed : Nat := 0          -- [16] R233
  frInvalid : Nat := 0      -- [16] R233
deriving DecidableEq, Repr

/-! ### Peas -/

/-- What a pea is doing with its active unit (R64, R176, R178). -/
inductive PeaSt where
  | idle
  | staged                -- swapped in by GO, not yet started (R84)
  | ready                 -- between descriptors
  | run                   -- program running
  | moving                -- MOVE in progress
  | stalled (ten : Nat) (pages : List (Nat × Nat × Nat))  -- page, tier waited for, µs it began
  | waiting               -- WAIT not satisfied
  | aligned               -- waiting in an align round
  | held                  -- stalled in a FATOM, 32 being outstanding (R352)
  | done                  -- unit ended, completion latched
deriving DecidableEq, Repr

/-- A work unit in a half (R64). -/
structure WUnit where
  ctx : Nat
  ten : Nat
  seq : Nat                         -- request that owns it
  unit : Nat
  descs : List Desc
  layers : List (Nat × Recipe) := []  -- recipes copied in at the cut (R111)
  gen : Nat := 0                    -- compression generation copied in (R224)
  phase : Nat := 0
  expertQ : Option (Nat × Nat × Bool) := none  -- expert unit: queue, buffer, early (R300)
  cut : Nat := 0                    -- [64] R249 tick in which it was cut
  touch : Bool := false             -- [1] R185 TOUCH in force when it was cut
  stallMs : Nat := 100              -- [10] R185 STALL_LIMIT_MS in force when it was cut
  kvMoves : List Nat := []          -- indices of MOVEs emitted for KV READs, APPENDs and lanes (R239)
deriving DecidableEq, Repr

/-- One pea (Table 3.1). -/
structure Pea where
  active : Option WUnit := none      -- [32 x 64 B] R64 active half
  pend : List (Nat × Desc) := []     -- [32 x 64 B] R65 pending half entries
  pendUnit : Option WUnit := none    -- [half] R65 what Turnip cut into the pending half
  ready : Bool := false              -- [1] R65 READY
  st : PeaSt := .idle                -- [state] R50
  ix : Nat := 0                      -- [5] R64 descriptor in progress
  startTick : Nat := 0               -- [64] R51 boundary at which the unit started
  hadStall : Bool := false           -- [1] R53 the unit stalled on a page
  hadFabric : Bool := false          -- [1] R53 the unit waited on a remote completion
  hadClock : Bool := false           -- [1] R53 a slower clock was asked for or in force during the unit
  cold : Bool := true                -- [1] R85
  warmHold : Bool := false           -- [1] R86
  layerSel : Nat := 0                -- [10] R111 layer selected
  layerSet : Bool := false           -- [1] R111
  named : List Nat := []             -- [8] R111 layers the unit has named
  alignFailed : Bool := false        -- [1] R87 ALIGN_FAIL in sequencer status
  tile : Trouble := {}               -- [8 x 32] R112 counts of the tile in progress
  lastTile : Trouble := {}           -- [8 x 32] R112 counts of the last tile, in sequencer status
  scalar : SMap 64 := []             -- [32 x 64] R154 scalar registers
  vector : SMap 32 := []             -- [32 x 64 x 32] R154 vector registers
  acc : SMap 32 := []                -- [4,096 x 32] R154 accumulator file
  weights : Mem := []                -- [2 x 32 KiB] R154 weight buffer
  acts : Mem := []                   -- [2 x 16 KiB] R154 activation buffer
  prog : Mem := []                   -- [32 KiB] R154 program buffer
  fatoms : Nat := 0                  -- [6] R352 FATOMs outstanding
  fatomHeld : Option (FabReq × Nat) := none  -- [request] R352 FATOM that stalls the sequencer: the atomic and its record
  pkts : List Nat := []              -- [list] R345 fabric requests of the MOVE outstanding
  mvBuf : Mem := []                  -- [buffer] R213 bytes fetched for a compressing MOVE from a handle
  mvBad : List (Nat × Nat) := []     -- [list] R202 fetched ranges that came poisoned: place in the buffer and length
  mvPhase : Nat := 0                 -- [17] R222 0 straight into slices, 1 index being fetched, 2 data, 3 + j block j
  mvTodo : Bool := false             -- [1] R177 the MOVE in progress has its pages and has not moved its rows
  mvStatus : Status := .ok           -- [8] R345 first code among the MOVE's packets
  mvDetail : Nat := 0                -- [32] R345 its DETAIL
  ungating : Bool := false           -- [1] R411 its pod is being ungated
deriving DecidableEq, Repr

/-! ### Steps -/

/-- An entry of an open step (R270, R271). -/
structure StepEnt where
  e : Entry
  status : Status := .ok
  rows : Nat := 0
  len : Nat := 0                     -- L: stream length at S
  stream : Nat := 0
  wait : Bool := false               -- the read of its tree record is outstanding
  tree : List (Nat × Nat) := []      -- token, parent
  lanes : List (Nat × List (Nat × Kve)) := []  -- lane leaf and its slots by (column offset)
  inPlace : List Nat := []           -- slot keys of the lanes that the stream's own entry holds (R279)
  bound : Bool := true               -- its slot was bound to a stream at S
deriving DecidableEq, Repr

/-- A rider (R282). -/
structure Rider where
  slot : Nat
  gen : Nat
  stream : Nat
  len : Nat
  chunk : Nat
  wait : Bool := false               -- the read of its tokens is outstanding
  tokens : List Byte := []
  failed : Bool := false
deriving DecidableEq, Repr

/-- Where a step stands in its plan: phase, pass, the phase's passes (0 before its first cut) and
units, and the units of the pass already cut (R273). -/
structure Prog where
  phase : Nat := 0
  pass : Nat := 0
  passes : Nat := 0
  peas : Nat := 0
  placed : Nat := 0
deriving DecidableEq, Repr

/-- A block that an APPEND of a step writes (R245, R246). -/
structure Written where
  stream : Nat
  ix : Nat                           -- its entry in the table
  slot : Nat                         -- slot key
  count : Nat                        -- tokens written there
deriving DecidableEq, Repr

/-- A submitted step (R269 to R287). -/
structure Step where
  ctx : Nat
  seq : Nat
  blk : StepBlk
  opened : Option Nat := none        -- S
  ents : List StepEnt := []
  riders : List Rider := []
  main : Prog := {}                  -- the phase being cut (R273)
  cutDone : Bool := false            -- no further unit is cut (R287, R501)
  areaDone : Bool := false           -- the input area is written (R272)
  bars : Nat := 0                    -- slice address of the barrier words (Table 11.5)
  expCut : Bool := false             -- the expert phase's first pass has been cut (R300)
  shared : Prog := {}                -- the shared phase being cut while the expert phase is open (R306)
  fail : Option (Status × Nat) := none   -- what a cut found: the next boundary finalises the step with it (R273)
  late : Option (Status × Nat) := none   -- what its expert rounds came to: kept for its usual boundary (R309)
  expLeft : List Nat := []           -- an aborted step's layers whose expert rounds are still served (R311)
  stopBy : Option Nat := none        -- SEQ of the ABORT or close that stopped it (R287)
  deferred : Bool := false           -- a unit of it was put off to a later tick (R183)
  appended : List Written := []      -- the blocks its DECODE and rider appends write
  mapped : List Written := []        -- table entries mapped at the cut, and the slots they were mapped to (R246)
  pool : Option (Nat × Nat) := none  -- tenancy and pool of its context's table at S
deriving DecidableEq, Repr

/-- Step counters (Table 11.9), expert counters (Table 12.10) and steps. -/
structure StepSt where
  steps : List Step := []            -- [list] R269 unfinalised steps
  nSteps : Nat := 0                  -- [32] R288 STEPS
  genDrop : Nat := 0                 -- [16] R288 GEN_DROP
  aborted : Nat := 0                 -- [16] R288 ABORTED
  treeNodes : Nat := 0               -- [32] R288 NODES
  accepted : Nat := 0                -- [32] R288 ACCEPTED
  tokens : Nat := 0                  -- [32] R288 TOKENS
  prefillDone : Nat := 0             -- [16] R288 DONE
  discarded : Nat := 0               -- [16] R288 DISCARDED
  expSent : Nat := 0                 -- [32] R312 SENT
  expDropped : Nat := 0              -- [16] R312 DROPPED
  expInvalid : Nat := 0              -- [16] R312 INVALID
  zeroHdr : Nat := 0                 -- [32] R312 ZERO_HDR
  missing : Nat := 0                 -- [16] R312 MISSING
  badHdr : Nat := 0                  -- [16] R312 BAD_HDR
  answers : Nat := 0                 -- [32] R312 ANSWERS
  gGenDrop : Nat := 0                -- [16] R312 GEN_DROP
  stale : Nat := 0                   -- [16] R312 STALE
  units : Nat := 0                   -- [32] R312 UNITS
  skipped : Nat := 0                 -- [16] R312 SKIPPED
  lost : Nat := 0                    -- [16] R312 LOST
  unitNo : Nat := 0                  -- [24] R64 work-unit numbers assigned by Turnip
  choices : Nat := 0                 -- [count] R283 model's own: index of the next free value (log 9)
deriving DecidableEq, Repr

/-! ### Links -/

/-- Port states (Table 13.3). -/
inductive PortState where
  | down | detect | equalize | identify | check | active | quarantine | failed
deriving DecidableEq, Repr

/-- One link port (Table 13.12 and R313 to R334). -/
structure Port where
  state : PortState := .down         -- [4] R319
  qcause : Nat := 0                  -- [4] R335
  width : Nat := 0                   -- [5] R313
  proto : Nat := 0                   -- [16] R324 agreed version
  peer : Option Ident := none        -- [identity] R323 block last received since DOWN
  delayNs : Nat := 0                 -- [16] R35
  rxFailed : Nat := 0                -- [18] R333
  txFailed : Nat := 0                -- [18] R333
  spares : Nat := 0                  -- [4] R333
  laneMap : List Nat := []           -- [16 x 5] R313 physical lane of each logical lane, receive direction
  txMap : List Nat := []             -- [16 x 5] R313 the same, transmit direction
  accepted : Bool := false           -- [1] R329 partner's latest notice is an accept
  selfPass : Bool := false           -- [1] R328 own check passed
  fails : Nat := 0                   -- [4] R321 consecutive failed attempts
  lockFails : Nat := 0               -- [2] R321 consecutive attempts under 16 lanes
  waiting : Bool := false            -- [1] R321 waiting before the next attempt
  waitUs : Nat := 0                  -- [time] R321 model's own: µs of the boundary before that wait began (log 7)
  detectUs : Nat := 0                -- [time] R334 model's own: µs of the boundary before the port entered DETECT (log 7)
  gotIdent : Bool := false           -- [1] R322 identity block received in this IDENTIFY
  echoed : Bool := false             -- [1] R322 echo measurement made in this IDENTIFY
  laneErrs : List (Nat × Nat) := []  -- [list] R333 symbols corrected in the last 1 ms: µs, physical lane
  relock : Bool := false             -- [1] R333 lanes re-locking after a width drop
  fecCorr : Nat := 0                 -- [32] R337
  fecUncorr : Nat := 0               -- [16] R337
  crcFail : Nat := 0                 -- [16] R337
  replayed : Nat := 0                -- [32] R337
  trainFail : Nat := 0               -- [8] R337
  subst : Nat := 0                   -- [8] R337
  widthDrop : Nat := 0               -- [8] R337
  tickDrop : Nat := 0                -- [8] R337
  rxNext : Nat := 0                  -- [12] R316 next sequence number expected
  nakking : Bool := false            -- [1] R316
  txNext : Nat := 0                  -- [12] R316
  replayBuf : List (Nat × Nat) := []   -- [1,024 x 17] R316, R317 unacknowledged flits: sequence number, transmissions
  txWait : List Out := []            -- [list] R316, R333 sequenced flits held back, oldest first
  credit : Nat := 0                  -- [16] R314
  causes : BitVec 8 := 0             -- [8] R335 CAUSE bits for the next LINK_STATE
  changed : Bool := false            -- [1] R335 a LINK_STATE event is due
  shown : PortState × Nat × Nat × List Nat × List Nat := (.down, 0, 0, [], [])
                                     -- [30] R335 state, QCAUSE, width and lane maps at the last boundary
  notes : List (Nat × List Byte) := []   -- [list] R335 MISWIRE and VERSION_MISMATCH events due: type, body
deriving DecidableEq, Repr

/-- Plan node entry (Table 13.6). -/
structure PlanNode where
  node : Nat
  x : Nat
  y : Nat
  z : Nat
  tray : Nat
  serial : Nat
  peers : List (Option (Nat × Nat))
deriving DecidableEq, Repr

/-- Rack plan in force (R325). -/
structure Plan where
  rev : Nat
  dx : Nat
  dy : Nat
  dz : Nat
  nodes : List PlanNode
  id : Nat
deriving DecidableEq, Repr

/-- A plan load acted on and not resolved (R326): its SEQ, length and outstanding read; `image` is what
the fetch brought (`none` inside for a failed read). -/
structure PlanLd where
  seq : Nat
  len : Nat
  done : Bool := false
  image : Option (List Byte) := none
deriving DecidableEq, Repr

/-- Links block. -/
structure LinkSt where
  ports : List Port := List.replicate 6 {}                    -- [6] R319
  laneErrMax : Nat := 4096                                    -- [16] R337
  plan : Option Plan := none                                  -- [plan] R326
  overrides : List (Option (Nat × Nat × Nat)) := List.replicate 6 none  -- [6] R332 node, port, serial
  planLoads : List PlanLd := []                               -- [list] R326 loads acted on and not resolved
  trayPlan : List Byte := []       -- [plan image] R327 I3C plan bytes received
  enabled : Bool := false                                     -- [1] R440 stage 6
  enabledUs : Nat := 0                                        -- [time] R320 model's own: µs of the boundary that enabled links (log 7)
  portResets : List (Nat × Nat) := []                         -- [list] R334 PORT_RESETs not replied: SEQ, ports
deriving DecidableEq, Repr

/-! ### Tick synchronisation -/

/-- A group join acted on and not replied (R365, R366). -/
structure Join where
  seq : Nat
  group : Nat
  root : Nat
  members : List Nat
  startUs : Nat
deriving DecidableEq, Repr

/-- Tick block (chapter 2, Tables 2.1, 2.2, 2.7, 15.11). -/
structure TickSt where
  count : Nat := 0                 -- [64] R47 tick number
  countHi : Nat := 0               -- [32] R47 TIK_COUNT_HI
  nowUs : Nat := 0                 -- [time] R31 model's own: µs since reset at the last boundary (log 7)
  periodUs : Nat := 50             -- [10] R32 PERIOD_US
  inForce : Nat := 50              -- [10] R32 IN_FORCE
  next1 : Nat := 50                -- [10] R32 period announced for the next tick
  next2 : Nat := 50                -- [10] R32 period announced for the tick after
  guardUs : Nat := 2               -- [6] R49
  root : Bool := true              -- [1] R55 ROOT
  upstream : Nat := 0              -- [3] R34 UPSTREAM
  downstream : Nat := 0            -- [6] R34 DOWNSTREAM
  group : Nat := 0                 -- [12] R55 GROUP
  freeRun : Bool := false          -- [1] R37
  missed : Bool := false           -- [1] R37 the next boundary fires from the local timer
  missRun : Nat := 0               -- [2] R37
  lost : Bool := false             -- [1] R38
  lostSeen : Bool := false         -- [1] R38
  lossLatched : Bool := false      -- [1] R38 tick-sync loss latched
  missTotal : Nat := 0             -- [16] R37
  lateReq : Nat := 0               -- [8] R41
  pathDelayNs : Nat := 0           -- [16] R34
  hops : Nat := 0                  -- [8] R34
  ovrTotal : Nat := 0              -- [32] R51
  ovrClock : Nat := 0              -- [16] R53
  ovrStall : Nat := 0              -- [16] R53
  ovrFabric : Nat := 0             -- [16] R53
  ovrEstimate : Nat := 0           -- [16] R53
  members : List Nat := []         -- [4,096] R389 members of the group in force
  rootNode : Nat := 0              -- [12] R389
  join : Option Join := none       -- [1] R389 JOINING
  formed : Bool := false           -- [1] R389 FORMED
  leaves : List (Nat × Nat) := []  -- [commands] R367 GROUP_LEAVEs not replied: SEQ and boundary acted on
  gone : List Nat := []            -- [members] R368 members lost, at the root
  lastTsync : Nat := 0             -- [64] R38 boundary of the last TSYNC received
  tsync : Option Tsync := none     -- [TSYNC] R34 received for the next boundary
  launched : Option Nat := none    -- [64] R34 boundary of the last TSYNC launched
  treqs : List Treq := []          -- [members] R40 latest TREQ of each member
  started : Bool := false          -- [1] R440 the tick has started
  goDone : Bool := true            -- [1] R66 GO written for the tick in progress
deriving DecidableEq, Repr

/-! ### Fabric -/

/-- Who waits for a fabric request: nobody, a MOVE with the slice address its data goes to, or a FATOM
with the slice address of its completion record. -/
inductive Waiter where
  | none
  | move (pea addr : Nat)
  | atom (pea rec : Nat)
  | exch (ctx seq : Nat)                 -- a row, header or answer of a step's expert exchange (R297)
  | coll (ctx collId round : Nat)        -- data or header of a collective's round (R376, R378)
  | shard (ten slot shard : Nat)         -- a chunk forwarded to a shard's downstream (R385)
deriving DecidableEq, Repr

/-- A request outstanding at this source (R340, R350). -/
structure Outreq where
  req : FabReq
  own : Waiter := .none
  id : Nat
  ftid : Nat := 0
  ssn : Nat := 0
  tag : Nat := 0
  order : Nat := 0
  sends : Nat := 0                -- 0: held back
  epoch : Nat := 0
  nrSinceUs : Option Nat := none  -- first NOT_READY
  hint : Nat := 0
  attempts : Nat := 8             -- FAB_CTRL.ATTEMPTS when issued (R361)
  sinceUs : Nat := 0              -- last send or HOLD (R350, R351)
  waitUs : Option Nat := none     -- NOT_READY whose hint is being waited out (R357)
  tainted : Bool := false         -- an earlier request of its class has failed (R344)
deriving DecidableEq, Repr

/-- Source-side stream (R341, R344): node, FTID, class, next SSN, and an earlier failure. -/
structure SrcStream where
  node : Nat
  ftid : Nat
  cls : Nat
  next : Nat := 0
  failed : Bool := false
deriving DecidableEq, Repr

/-- Destination-side stream (R342). -/
structure DstStream where
  src : Nat
  ftid : Nat
  cls : Nat
  next : Nat := 0
  busy : Bool := false                      -- the request at `next` waits on a page (R181)
  held : List (FabPkt × Nat × Status) := [] -- early arrivals with their admission (R342)
deriving DecidableEq, Repr

/-- Replay-table entry (R354). -/
structure Replay where
  src : Nat
  ftid : Nat
  tag : Nat
  status : Status
  old : Nat
  aged : Bool := false
  atUs : Nat := 0                 -- when it was recorded
  retainMs : Nat := 10
deriving DecidableEq, Repr

/-- Fabric block (Tables 1.6, 14.6, 15.11). -/
structure FabSt where
  mode : Bool := false             -- [1] R26 FAB_REACH.MODE
  inForce : Bool := false          -- [1] R26 MODE_IN_FORCE
  traySet : List Nat := []         -- [8] R27 tray set
  trayNodes : Nat := 1             -- [4] R27 TRAY_NODES
  timeoutUs : Nat := 500           -- [13] R361
  attempts : Nat := 8              -- [4] R361
  retainMs : Nat := 10             -- [8] R361
  notReadyMs : Nat := 1000         -- [14] R361
  ready : Bool := false            -- [1] R446
  epoch : Nat := 0                 -- [16] R355
  node : Option Nat := none        -- [13] R444 node number
  out : List Outreq := []          -- [4,096 per stream] R340 requests outstanding
  nextId : Nat := 0                -- [16] R340 REQ_ID
  srcStreams : List SrcStream := []     -- [streams] R341
  dstStreams : List DstStream := []     -- [streams] R342
  replays : List Replay := []      -- [1,024 per source] R354
  tags : List ((Nat × Nat) × Nat) := []  -- [per node and FTID] R354 next tag
  peerEpochs : List (Nat × Nat) := []   -- [per node] R355 epochs learnt of destinations
  srcEpochs : List (Nat × Nat) := []    -- [per node] R355 epochs seen of sources
  seen : List (Nat × Nat) := []    -- [list] R358 notices seen
  noticeNo : Nat := 0              -- [16] R358 own notice number
  downSeen : List (Nat × Nat × Nat) := []  -- [list] R359 lost-link evidence: node, reporter, port
  lostNodes : List Nat := []       -- [list] R359 nodes declared lost
  lossLatched : List (Nat × Nat) := []  -- [list] R359 losses latched: node, cause
  readyLatched : List Nat := []    -- [list] R359 FABRIC_READY not yet acted on
  waitPage : List (FabPkt × Nat × Nat × Nat) := []  -- [list] R181 requests waiting on a page: tenancy, page, µs it began
  refused : List (Nat × Nat × Nat × Nat × Status) := []  -- [list] R342 ordered stores and messages refused in their turn: source, FTID, class, SSN
  admitted : List (Nat × Nat) := []     -- [list] R161 source and REQ_ID of requests admitted before a rebind's boundary
  localQ : List (Nat × Status × Nat × List Byte) := []  -- [list] R339 completions of this module's own requests
  sent : Nat := 0                  -- [32] R361
  resent : Nat := 0                -- [16] R361
  nrRetry : Nat := 0               -- [16] R361
  applied : Nat := 0               -- [32] R361
  replayHit : Nat := 0             -- [16] R361
  indeterminate : Nat := 0         -- [16] R361
  detoured : Nat := 0              -- [32] R361
  noRoute : Nat := 0               -- [16] R361
  reorderDrop : Nat := 0           -- [16] R361
  flags : Nat := 0                 -- [32] R361
  withheld : Nat := 0              -- [16] R361
  lineHold : Nat := 0              -- [16] R361
  targetLost : Nat := 0            -- [32] R361
  lastNode : Nat := 0              -- [12] R361
  nodesLost : Nat := 0             -- [16] R361
  dropMsgs : Nat := 0              -- [count] R167 messages dropped
  rounds : Nat := 0                -- [32] R389 FAB_COLL.ROUNDS
  faulted : Nat := 0               -- [16] R389
  collZero : Nat := 0              -- [16] R389
  collBad : Nat := 0               -- [16] R389
  collRefused : Nat := 0           -- [16] R389
  shInstallFail : Nat := 0         -- [16] R389 SEC_SHARD.INSTALL_FAIL
  shVerified : Nat := 0            -- [16] R389
  shVerifyFail : Nat := 0          -- [16] R389
  shFwdBytes : Nat := 0            -- [52] R389 FORWARDED_MB, kept in bytes
  shVerBytes : Nat := 0            -- [52] R389 VERIFIED_MB, kept in bytes
deriving DecidableEq, Repr

/-! ### Power -/

/-- Clamps of R401. -/
inductive Clamp where
  | supply | thermal | fast
deriving DecidableEq, Repr

/-- A clamp that holds: µs of samples with its condition absent, whether its end is latched, and whether
its input has been acted on (R401, R402). -/
structure ClampSt where
  kind : Clamp
  clearUs : Nat := 0
  ended : Bool := false
  acted : Bool := false
deriving DecidableEq, Repr

/-- Power block (Tables 16.9, 20.12). -/
structure PwrSt where
  voltMv : Nat := 0                -- [16] R390
  current : Nat := 0               -- [16] R390
  powerW : Nat := 0                -- [16] R390
  window : List Nat := []          -- [2,000] R390 samples of the last 20 ms, newest first, in 10 µW
  energy : Nat := 0                -- [88] R390 input energy, kept in 0.1 nJ
  capW : Nat := 1600               -- [11] R394
  ceilingW : Nat := 900            -- [11] R393
  leased : Bool := false           -- [1] R392
  leaseEndUs : Nat := 0            -- [time] R392
  lastLeaseSeq : Option Nat := none   -- [17] R392 last applied, none after a reset or expiry
  alarm : Bool := false            -- [1] R409
  leases : Nat := 0                -- [16] R420
  expired : Nat := 0               -- [8] R420
  refused : Nat := 0               -- [8] R420
  localStep : Nat := 0             -- [5] R420 LOCAL
  groupStep : Nat := 0             -- [5] R420 GROUP
  nextStep : Nat := 0              -- [5] R40 NEXT_STEP announced for the next tick
  grantStep : Nat := 0             -- [5] R40 grant for the tick after the next
  limitNode : Nat := 0xFFFF        -- [16] R415 LIMIT_NODE of the step in force
  nextNode : Nat := 0xFFFF         -- [16] R415 LIMIT_NODE of the next tick's step
  grantNode : Nat := 0xFFFF        -- [16] R415 LIMIT_NODE of the grant
  reqStep : Nat := 0               -- [5] R399
  reqCause : BitVec 4 := 0         -- [4] R399
  clamps : List ClampSt := []      -- [3] R401 clamps holding
  samples : Nat := 0               -- [count] R390 samples taken since the last boundary
  walkUs : Nat := 0                -- [time] R405 the earliest time of the walk's next index
  ran19 : Bool := false            -- [1] R397 the clock ran at step 19 in the tick in progress
  floor : Bool := false            -- [1] R403
  pace : Nat := 0                  -- [4] R397 in force
  nextPace : Nat := 0              -- [4] R397 fixed for the next tick
  capPace : Nat := 0               -- [4] R397
  stepLimit : Nat := 0             -- [5] R400
  tj : Nat := 0                    -- [8] R407
  tjSite : Nat := 0                -- [8] R415
  th : Nat := 0                    -- [8] R407
  thStack : Nat := 0               -- [8] R415
  coolantTenths : Int := 0         -- [16] R409 inlet, 0.1 °C
  flow : Nat := 0                  -- [16] R409
  thermalStep : Nat := 0           -- [5] R407
  thermalLatched : Nat := 0        -- [5] R407 R42 the step of the last boundary's readings, an input of its tick (log 29)
  hbmPace : Nat := 0               -- [4] R408
  gateTicks : Nat := 200           -- [10] R411
  gated : List Nat := []           -- [48] R411 gated pods
  ungating : List Nat := []        -- [48] R411 pods being ungated
  idleTicks : List Nat := List.replicate 48 0   -- [48 x 10] R411 boundaries without a unit
  nClamps : Nat := 0               -- [16] R420 CLAMPS
  nSupply : Nat := 0               -- [16] R420 SUPPLY
  deferred : Nat := 0              -- [16] R420 DEFERRED
  stepChanges : Nat := 0           -- [16] R420 STEP_CHANGES
  powerCause : BitVec 16 := 0      -- [16] R415 POWER causes of the boundary
  thermalCause : BitVec 16 := 0    -- [16] R415 THERMAL causes of the boundary
  lastCalUs : Nat := 0             -- [time] R413
  lastCalTick : Nat := 0           -- [64] R414
  lastCal : Nat := 0               -- [88] R413 measured energy at the last calibration, in 0.1 nJ
  calCtx : List (Nat × Account) := []   -- [256] R414 accounts of contexts as of the last calibration
  calClosed : List (Nat × Nat × Account) := []   -- R413 context, tenancy and counts of contexts closed since the last calibration
  calTen : List (Nat × Account) := []   -- [48] R414 accounts of tenancies as of the last calibration
  factor : Word32 := 0             -- [32] R414 K
  moduleMj : Nat := 0              -- [64] R413 module account
  calNo : Nat := 0                 -- [count] R413 model's own: index of the next free value (log 9)
  riseTicks : Nat := 0             -- [count] R404 ticks before another rise may be announced
  shutLatched : Bool := false      -- [1] R410 thermal shutdown latched
  uvSamples : Nat := 0             -- [count] R480 consecutive samples below 32 V
  ovSamples : Nat := 0             -- [count] R480 consecutive samples above 41 V
  ocSamples : Nat := 0             -- [count] R480 consecutive samples above 65 A
deriving DecidableEq, Repr

/-! ### Management port, lifecycle, firmware, attestation, capture -/

/-- A management message waiting for its boundary (R485). -/
inductive TrayMsg where
  | lease (seq ceiling lseq : Nat)
  | reset (seq kind : Nat) (replay : Bool)
  | node (seq node : Nat)
  | coolant (seq : Nat) (tenths : Int) (flow : Nat)
  | alarm (seq state : Nat)
  | planBlock (seq off : Nat) (last : Bool) (data : List Byte)
  | fwBlock (seq op arg : Nat) (data : List Byte)
  | recovery (seq op arg : Nat) (data : List Byte)
deriving DecidableEq, Repr

/-- I3C port (R484 to R486). -/
structure I3cSt where
  queue : List TrayMsg := []       -- [16] R485
  dynAddr : Option Nat := none     -- [7] R484
  events : Bool := true            -- [1] R484 in-band interrupts enabled (log 12)
  hotJoin : Bool := true           -- [1] R484 Hot-Join requests enabled (log 12)
  lastSeq : Nat := 0               -- [32] R486 LAST_SEQ
  lastResult : Status := .ok       -- [8] R486 LAST_RESULT
  nack : Nat := 0                  -- [16] R489 I3C_NACK
  bad : Nat := 0                   -- [16] R489 I3C_BAD
  block : List Byte := []          -- [32 B] R486 status block as of the last boundary
  portUp : Bool := false           -- [1] R484 the port responds
deriving DecidableEq, Repr

/-- Firmware bank states (Table 18.5). -/
inductive BankState where
  | empty | writing | incomplete | staged | trial | active | valid
deriving DecidableEq, Repr

/-- A firmware bank (R448): its state, the bytes programmed, the header facts of a committed image, who
wrote it, and whether it holds the image written at manufacture. -/
structure FwBank where
  st : BankState := .empty
  image : List Byte := []
  fwRev : Nat := 0
  secVersion : Nat := 0
  proto : Nat := 1
  tray : Bool := false
  factory : Bool := false
deriving DecidableEq, Repr

/-- A DATA being fetched or programmed (R449): its SEQ, none for the tray's; whether its fetch has ended
and what it brought; whether its update is still open. -/
structure FwData where
  seq : Option Nat
  len : Nat
  done : Bool := false
  bytes : Option (List Byte) := none
  live : Bool := true
deriving DecidableEq, Repr

/-- Charge of the bulk capacitance (R479, R481): below 5 V, between, or at least 30 V. -/
inductive Bulk where
  | bled | charging | full
deriving DecidableEq, Repr

/-- Lifecycle block (Table 18.15, R437, R457, R479). -/
structure LifeSt where
  run : Run := .up                 -- [state] R22
  mode : ModState := .boot         -- [2] R129 CMD_STATE
  stage : Nat := 1                 -- [4] R440 SEC_BOOT.STAGE
  fail : Nat := 0                  -- [4] R443
  bank : Nat := 0                  -- [1] R460 SEC_BOOT.BANK
  proto : Nat := 1                 -- [16] R324 PROTO of the running firmware (log 6)
  fwRev : Nat := 0                 -- [32] R323 FW_REV of the running firmware (log 6)
  bootMs : Nat := 0                -- [16] R460
  warm : Bool := false             -- [1] R437 this power-up follows a warm reset
  last : Nat := 0                  -- [3] R460 SEC_RESET.LAST
  warmCount : Nat := 0             -- [16] R460
  replay : Bool := false           -- [1] R472 replay mode
  halted : List Nat := []          -- [8] R19 halted cores
  haltLatched : List (Nat × Nat) := []  -- [list] R20 halts latched: core, cause
  replays : List (Nat × Nat) := [] -- [8 x 2] R19 consecutive replays per core
  updOpen : Bool := false          -- [1] R460 OPEN
  updTray : Bool := false          -- [1] R460 SOURCE
  updLen : Nat := 0                -- [32] R449 LENGTH
  written : Nat := 0               -- [32] R460 WRITTEN
  refused : Nat := 0               -- [16] R460 REFUSED
  updBank : Nat := 0               -- [1] R449 bank of the open or last update
  dataPending : Option FwData := none  -- [command] R449 the DATA being fetched or programmed
  commitPending : Option (Option Nat) := none   -- [command] R450 SEQ, or none inside for the tray
  fwEvents : List (Nat × Nat × Nat) := []  -- [list] R453 causes found during power-up: cause, bank, state
  leavesLeft : Nat := 0            -- [10] R455 leaves left in the reserved block
  attests : List (Nat × Nat × List Byte × Nat) := []  -- [list] R455 context, SEQ, report, OUT_PTR
  attestUs : List Nat := []        -- [256] R455 times of the signatures of the last second
  present : Bool := true           -- [1] R489 PRESENT
  removal : Bool := false          -- [1] R457 removal sequence running
  presenceLatched : Bool := false  -- [1] R483
  isolated : Bool := false         -- [1] R481
  bulk : Bulk := .full             -- [state] R479 charge of the bulk capacitance (log 11)
  rstLow : Bool := false           -- [1] R436 MOD_RST_N is driven low
  rstShort : Bool := false         -- [1] R436 less than 1 ms since the reset began
  switchOn : Bool := true          -- [1] R479 hot-swap switch conducts
  qualifying : Bool := false       -- [1] R479 100 ms presence qualification
  stage3Us : Nat := 0              -- [time] R446 time at which stage 3 ended
deriving DecidableEq, Repr

/-- Capture entry as recorded (Table 19.2): kind, class, source and a digest of what it holds. -/
structure CapEntry where
  kind : Nat
  cls : Nat
  source : Nat
  ord : List Nat := []             -- R464 its place in the order in which its class is acted on
  body : List Byte := []
deriving DecidableEq, Repr

/-- A tick record (Table 19.1). -/
structure TickRec where
  tick : Nat
  entries : List CapEntry
  pre : Bool := false
  last : Bool := false
deriving DecidableEq, Repr

/-- Capture block (Table 19.7). -/
structure CapSt where
  state : Nat := 0                 -- [2] R477
  fill : Bool := false             -- [1] R465 MODE
  bootOrigin : Bool := false       -- [1] R465
  wrapped : Bool := false          -- [1] R477
  endCause : Nat := 0              -- [3] R467
  linkGb : Nat := 0                -- [6] R465
  triggers : Nat := 0              -- [16] R465
  postTicks : Nat := 0             -- [24] R465
  postLeft : Nat := 0              -- [24] R466
  triggerTick : Nat := 0           -- [64] R477
  triggerBit : Nat := 0            -- [8] R470
  fired : Nat := 0                 -- [16] R466 trigger kinds seen at this boundary
  records : List TickRec := []     -- [tick area] R462
  ring : List Byte := []           -- [LINK_GB GiB] R462 payload ring, oldest byte first
  current : List CapEntry := []    -- [record] R463 entries of the tick in progress
  firstTick : Nat := 0             -- [64] R477
  lastTick : Nat := 0              -- [64] R477
  used : Nat := 0                  -- [64] R477 CAP_USED
  ringWritten : Nat := 0           -- [64] R470
  stops : List (Nat × Nat) := []   -- [list] R467 CAPTURE_STOPs waiting for the end: SEQ and AT_TICK
  exports : List (Nat × Nat × Nat × Nat) := []  -- [list] R469 SEQ, OUT_PTR, OFFSET, LENGTH
  events : List (Nat × Nat) := []  -- [list] R476 cause and tick
  replayBase : Nat := 0            -- [52] R477
  replayOut : Nat := 0             -- [52] R477
  replayTick : Nat := 0            -- [48] R477
  diverge : Nat := 0               -- [3] R474
deriving DecidableEq, Repr

/-! ### Host port -/

/-- A read of host memory outstanding (R429): for a PTR block, an image, a tree record, a prompt or
firmware data. -/
inductive ReadFor where
  | params (ctx seq : Nat)
  | plan (seq : Nat)
  | table (ctx : Nat)
  | fwData
  | manifest (ten slot : Nat)
  | tree (ctx seq ent : Nat)
  | prompt (ctx seq rider : Nat)
  | gone                               -- R156 what it was for has ended with its context
deriving DecidableEq, Repr

/-- Host port (Table 17.4). -/
structure HostSt where
  speed : Nat := 0                 -- [4] R434
  width : Nat := 0                 -- [4] R434
  flit256 : Bool := false          -- [1] R434
  cacheEn : Bool := false          -- [1] R434
  vfEnable : Bool := false         -- [1] R423
  numVfs : Nat := 0                -- [8] R423
  badMmio : Nat := 0               -- [16] R434
  readFail : Nat := 0              -- [16] R434
  flr : Nat := 0                   -- [16] R434
  dropped : Nat := 0               -- [16] R434
  reads : List (Nat × Nat × ReadFor) := []   -- [256] R421 reads outstanding: identifier, address, purpose
  readUs : List (Nat × Nat) := []      -- [256] R429 the times at which they were sent, by identifier
  nextRead : Nat := 0              -- [count] R421 model's own: identifier of the next read (log 10)
  lastServed : Nat := 0            -- [8] R45 context served first at the previous boundary
  held : List RegWrite := []       -- [64 per function] R431 writes held in BOOT
  writes : List RegWrite := []     -- [list] R42, R120 register writes latched in this tick
  stopped : Bool := false          -- [1] R433 nothing further is issued to the host
  openAtStart : List Nat := []     -- [255] R152 contexts that were open at the start of the boundary
deriving DecidableEq, Repr

/-- An uncorrectable error latched (class 3, R202): the request it hits and what is reported. -/
structure ErrIn where
  store : Store
  foundBy : Nat
  ctx : Nat
  seq : Option Nat
  source : Nat
  loc : Nat
  view : Nat
  marked : Bool := false         -- a marked location or a damaged block: nothing is reported (R203, R232)
  quiet : Bool := false          -- context 0 has its record of this error already
deriving DecidableEq, Repr

/-- A completion latched (class 5, R64). -/
structure DoneIn where
  ctx : Nat
  seq : Nat
  status : Status
  detail : Nat
  unit : Nat := 0
  phase : Nat := 0
  expertQ : Option (Nat × Nat × Bool) := none
  gen : Nat := 0
deriving DecidableEq, Repr

/-- Inputs latched in the tick and acted on at the next boundary (R42, Table 2.5). -/
structure Latched where
  errs : List ErrIn := []              -- [list] R43 class 3
  dones : List DoneIn := []            -- [list] R43 class 5
  roundsDone : List (Nat × Nat) := []  -- [list] R299 class 5 queue rounds complete: tenancy, queue
  gathersDone : List (Nat × Nat) := [] -- [list] R305 class 5 gathers complete: context, layer
  exchFaults : List (Nat × Nat × Status × Nat) := []  -- [list] R297 class 3: context, SEQ, code, detail
  missing : List MissNote := []        -- [list] R310 headers found missing at this boundary, for its HEADER_MISSING events
  msgs : List (Waiter × Status × Nat) := []  -- [list] R377, R385 completions of collective and shard messages: who waits, code, node
  portDown : List Nat := []            -- [list] R322 class 3
  portLanes : List (Nat × Nat) := []   -- [list] R333 class 5: port, CAUSE bit of a substitution or width change
  portCheck : List Nat := []           -- [list] R322 class 5
  portNotice : List (Nat × Bool) := [] -- [list] R329 class 5
deriving DecidableEq, Repr

/-- What no reset clears: everything the module keeps in flash, and the model's own counts of draws
from the random sources (a draw is never made twice). -/
structure Nv where
  flash : FlashSt := {}
  moduleSlot : Nat := 0            -- [512] R148 the draw that the module slot's keys came from (log 24)
  keyDraws : Nat := 0              -- [count] R148 model's own: draws made since (log 8)
  epochDraws : Nat := 0            -- [count] R355 model's own: draws made (log 8)
  lastShut : Nat := 0              -- [3] R489 LAST_SHUT, in flash
  uvShut : Nat := 0                -- [8] R489, in flash
  ovShut : Nat := 0                -- [8] R489, in flash
  ocTrip : Nat := 0                -- [8] R489, in flash
  bankA : FwBank := { st := .active, factory := true }   -- [bank] R448 (log 6)
  bankB : FwBank := {}             -- [bank] R448 (log 6)
  nextBank : Nat := 0                  -- [1] R442 NEXT bank (log 6)
  leaves : Nat := 0                -- [40] R455 SEC_ATTEST.LEAVES
  capArmed : Option (Bool × Nat × Nat × Nat) := none  -- [settings] R465 boot arming, in flash
  fused : Nat := 0                 -- [16] R212 FUSED, in fuses
  sramSpares : List (Nat × Nat) := []  -- [192 x 2 x 4] R207 spare rows and columns of a slice used, by 2*slice, 2*slice+1
  hardRows : List Nat := []        -- [list] R209 HBM3E rows under hard post-package repair
  remapRows : List Nat := []       -- [list] R209 HBM3E rows with a run-time remap, kept with the repair log
  lpRows : List Nat := []          -- [list] R209 LPDDR5X rows under post-package repair
  candidates : List (Nat × Nat) := [] -- [log] R208 store and location, in flash
deriving DecidableEq, Repr

/-- An event record due and not yet written (R136): ring, type, context, tick and body. -/
structure EvRec where
  fn : Nat
  typ : Nat
  ctx : Nat
  tick : Nat
  body : List Byte
  cls : Nat := 0                     -- class of the input it reports; 0 where its type tells it (R44)
deriving DecidableEq, Repr

/-- Everything else the module holds: what a cold reset returns to its reset values. -/
structure Mach where
  tick : TickSt := {}
  fns : List Fn := List.replicate 256 {}     -- [256] R118 functions
  reqs : List Req := []            -- [list] R132 requests accepted and not finalised
  ctxs : List Ctx := List.replicate 256 {}   -- [256] R144 contexts
  ten : TenSt := {}
  mem : MemSt := {}
  flashTick : FlashTick := {}
  chan : ChanSt := {}
  ecc : EccSt := {}
  cmp : CmpSt := {}
  peas : List Pea := List.replicate 192 {}   -- [192] R57 peas
  stp : StepSt := {}
  link : LinkSt := {}
  fab : FabSt := {}
  pwr : PwrSt := {}
  i3c : I3cSt := {}
  life : LifeSt := {}
  cap : CapSt := {}
  host : HostSt := {}
  lat : Latched := {}
  evq : List EvRec := []           -- [list] R136 event records of the boundary, not yet written
  out : List Out := []             -- [outbox] R428 what the module has sent, oldest first (log 2)
deriving DecidableEq, Repr

/-- The machine: the queue of waiting commands, what no reset clears, and all the rest. -/
structure State where
  pending : List Instr := []       -- [queue] model's own: commands waiting, first in first out (log 1)
  nv : Nv := {}
  m : Mach := {}
deriving DecidableEq, Repr

/-- The machine right after a cold reset: power applied, the reset input released, power-up stage 1
in progress (R440), every register at its cold reset value (Table 21.2, R425), every module-internal
store empty. -/
def State.reset : State := {}

end Sys2Proof.Machine
end

