-- ==== Sys2Proof/Machine/Bytes.lean ====
section
/-! DEFINITION. Bytes, saturating counts, and the sorted sparse maps that hold every memory of the
module. -/

namespace Sys2Proof.Machine

/-- R5: the `n` bytes of `v`, least significant first. -/
def le : Nat → Nat → List Byte
  | 0, _ => []
  | n + 1, v => BitVec.ofNat 8 v :: le n (v / 256)

/-- R5: the number that bytes spell, least significant first. -/
def unle : List Byte → Nat
  | [] => 0
  | b :: bs => b.toNat + 256 * unle bs

/-- `n` zero bytes. -/
def zeros (n : Nat) : List Byte := List.replicate n 0

/-- Bytes padded with zeros, or cut, to `n`. -/
def padTo (n : Nat) (bs : List Byte) : List Byte := (bs ++ zeros n).take n

/-- The bytes `[lo + n - 1 : lo]` of a block, as a number. -/
def field (bs : List Byte) (lo n : Nat) : Nat := unle ((bs.drop lo).take n)

/-- The bits `[hi : lo]` of a number. -/
def bitsOf (v hi lo : Nat) : Nat := v / 2 ^ lo % 2 ^ (hi + 1 - lo)

/-- A flag as a bit. -/
def bit (b : Bool) : Nat := if b then 1 else 0

/-- A value held in a saturating field of `w` bits. -/
def sat (w v : Nat) : Nat := min v (2 ^ w - 1)

/-- A saturating counter of `w` bits advanced by `k`. -/
def bump (w k n : Nat) : Nat := sat w (n + k)

/-- The low `w` bits of a wrapping count. -/
def wrap (w v : Nat) : Nat := v % 2 ^ w

/-- The distance from `b` forward to `a` among free-running 32-bit counts (R119). -/
def dist (a b : Nat) : Nat := (a + 2 ^ 32 - b % 2 ^ 32) % 2 ^ 32

/-- Every byte zero. -/
def allZero (bs : List Byte) : Bool := bs.all (· == 0)

/-- A member of a rising list, put in its place once. -/
def insRising (k : Nat) : List Nat → List Nat
  | [] => [k]
  | j :: r => if j < k then j :: insRising k r else if j = k then j :: r else k :: j :: r

/-- The members outside `lo ≤ j < hi`. -/
def delRange (lo hi : Nat) (l : List Nat) : List Nat := l.filter fun j => j < lo || hi ≤ j

/-- Some member lies in `lo ≤ j < hi`. -/
def anyIn (lo hi : Nat) (l : List Nat) : Bool := l.any fun j => lo ≤ j && j < hi

/-- An element put before the first one it does not follow. -/
def insertBy {α : Type} (le : α → α → Bool) (x : α) : List α → List α
  | [] => [x]
  | y :: r => if le x y then x :: y :: r else y :: insertBy le x r

/-- A list in rising order, equal elements in their order. -/
def sortBy {α : Type} (le : α → α → Bool) (l : List α) : List α := l.foldr (insertBy le) []

/-! ### Sparse maps -/

/-- What a key holds: zero where nothing is listed. -/
def smGet {w : Nat} (k : Nat) : SMap w → BitVec w
  | [] => 0
  | (j, u) :: r => if j = k then u else smGet k r

/-- A key given a value; the value zero leaves the key unlisted. -/
def smSet {w : Nat} (k : Nat) (v : BitVec w) : SMap w → SMap w
  | [] => if v = 0 then [] else [(k, v)]
  | (j, u) :: r =>
    if j < k then (j, u) :: smSet k v r
    else if j = k then (if v = 0 then r else (k, v) :: r)
    else if v = 0 then (j, u) :: r
    else (k, v) :: (j, u) :: r

/-- The keys `lo ≤ j < hi` returned to zero. -/
def smClear {w : Nat} (lo hi : Nat) (m : SMap w) : SMap w := m.filter fun c => c.1 < lo || hi ≤ c.1

/-- The cells of `lo ≤ key < lo + n`, with keys counted from `lo`. -/
def smSlice {w : Nat} (lo n : Nat) (m : SMap w) : SMap w :=
  (m.filter fun c => lo ≤ c.1 && c.1 < lo + n).map fun c => (c.1 - lo, c.2)

/-- The canonical form: keys strictly rising, no entry zero. -/
def smWf {w : Nat} : SMap w → Bool
  | [] => true
  | [(_, v)] => v != 0
  | (j, v) :: (k, u) :: r => v != 0 && j < k && smWf ((k, u) :: r)

/-- The `n` bytes from address `a`. -/
def memRead (m : Mem) (a : Nat) : Nat → List Byte
  | 0 => []
  | n + 1 => smGet a m :: memRead m (a + 1) n

/-- Bytes written from address `a` upward. -/
def memWrite (a : Nat) : List Byte → Mem → Mem
  | [], m => m
  | b :: bs, m => memWrite (a + 1) bs (smSet a b m)

/-- The `n` values from key `k`. -/
def smRead {w : Nat} (m : SMap w) (k : Nat) : Nat → List (BitVec w)
  | 0 => []
  | n + 1 => smGet k m :: smRead m (k + 1) n

/-- Values written from key `k` upward. -/
def smWrite {w : Nat} (k : Nat) : List (BitVec w) → SMap w → SMap w
  | [], m => m
  | v :: vs, m => smWrite (k + 1) vs (smSet k v m)

/-! ### Association lists -/

/-- The value of a key. -/
def alGet {α : Type} (k : Nat) (l : List (Nat × α)) : Option α := (l.find? (·.1 == k)).map (·.2)

/-- A key given a value, in front of the others. -/
def alSet {α : Type} (k : Nat) (v : α) (l : List (Nat × α)) : List (Nat × α) :=
  (k, v) :: l.filter (·.1 != k)

/-- A key removed. -/
def alDel {α : Type} (k : Nat) (l : List (Nat × α)) : List (Nat × α) := l.filter (·.1 != k)

/-- One entry of a list changed. -/
def modAt {α : Type} (i : Nat) (f : α → α) (l : List α) : List α := l.modify i f

/-- Pieces of `n`; `fuel` bounds their number. -/
def chunksOf {α : Type} (n : Nat) : Nat → List α → List (List α)
  | 0, _ => []
  | _, [] => []
  | fuel + 1, l => l.take n :: chunksOf n fuel (l.drop n)

end Sys2Proof.Machine
end

