-- ==== Sys2Proof/Machine/Fp.lean ====
section
/-! DEFINITION. Exact binary numbers, their rounding, and the element formats of Table 4.1. -/

namespace Sys2Proof.Machine

/-- A value of a floating-point or integer format: NaN, an infinity, or `± m · 2 ^ e` exactly; a zero
keeps its sign. -/
inductive Num where
  | nan
  | inf (neg : Bool)
  | fin (neg : Bool) (m : Nat) (e : Int)
deriving DecidableEq, Repr

/-- The length of a number in bits. -/
def bitLen (n : Nat) : Nat := if n = 0 then 0 else Nat.log2 n + 1

/-- R92: `m / 2 ^ s` rounded to the nearest whole number, ties to even. -/
def rneShift (m s : Nat) : Nat :=
  let q := m / 2 ^ s
  let r := m % 2 ^ s
  if 2 ^ s < 2 * r || (2 ^ s = 2 * r && q % 2 = 1) then q + 1 else q

/-- A whole number of units of `2 ^ q` nearest to `m · 2 ^ e`. -/
def rneAt (q : Int) (m : Nat) (e : Int) : Nat :=
  if q ≤ e then m * 2 ^ (e - q).toNat else rneShift m (q - e).toNat

/-- The code, without sign, of `m · 2 ^ e` rounded to a binary format of `p` significant bits whose
smallest unit is `2 ^ emin`; exponents above the format's run on into larger codes. -/
def encodeMag (p : Nat) (emin : Int) (m : Nat) (e : Int) : Nat :=
  if m = 0 then 0
  else
    let q := max emin (e + bitLen m - p)
    (q - emin).toNat * 2 ^ (p - 1) + rneAt q m e

/-- The value of a code, without sign, of a binary format of `p` significant bits. -/
def decodeMag (p : Nat) (emin : Int) (code : Nat) : Nat × Int :=
  let ex := code / 2 ^ (p - 1)
  let fr := code % 2 ^ (p - 1)
  if ex = 0 then (fr, emin) else (fr + 2 ^ (p - 1), emin + ((ex : Int) - 1))

/-- Whether `m · 2 ^ e` exceeds the whole number `k`. -/
def magGt (m : Nat) (e : Int) (k : Nat) : Bool :=
  if 0 ≤ e then k < m * 2 ^ e.toNat else k * 2 ^ (-e).toNat < m

/-- The exact sign-magnitude value as an integer in units of `2 ^ u`, for `u` no greater than `e`. -/
def numInt (neg : Bool) (m : Nat) (e u : Int) : Int :=
  let k : Int := (m * 2 ^ (e - u).toNat : Nat)
  if neg then -k else k

/-- R92: the negation. -/
def numNeg : Num → Num
  | .nan => .nan
  | .inf s => .inf (!s)
  | .fin s m e => .fin (!s) m e

/-- The magnitude. -/
def numAbs : Num → Num
  | .nan => .nan
  | .inf _ => .inf false
  | .fin _ m e => .fin false m e

/-- A finite value equal to zero. -/
def numIsZero : Num → Bool
  | .fin _ m _ => m == 0
  | _ => false

/-- Neither NaN nor infinite. -/
def numFinite : Num → Bool
  | .fin .. => true
  | _ => false

/-- R92: the exact product; infinity times zero is NaN. -/
def numMul : Num → Num → Num
  | .nan, _ | _, .nan => .nan
  | .inf s, .inf t => .inf (s != t)
  | .inf s, .fin t m _ => if m = 0 then .nan else .inf (s != t)
  | .fin s m _, .inf t => if m = 0 then .nan else .inf (s != t)
  | .fin s m e, .fin t n f => .fin (s != t) (m * n) (e + f)

/-- R92: the exact sum; infinity minus infinity is NaN, and a zero sum is +0 unless both are -0. -/
def numAdd : Num → Num → Num
  | .nan, _ | _, .nan => .nan
  | .inf s, .inf t => if s = t then .inf s else .nan
  | .inf s, .fin .. => .inf s
  | .fin .., .inf t => .inf t
  | .fin s m e, .fin t n f =>
    let u := min e f
    let k := numInt s m e u + numInt t n f u
    if k = 0 then .fin (s && t) 0 0 else .fin (decide (k < 0)) k.natAbs u

/-- The exact value of `2 ^ k` times a number. -/
def numScale (k : Int) : Num → Num
  | .fin s m e => .fin s m (e + k)
  | x => x

/-- Strictly less, for values that are not NaN. -/
def numLt : Num → Num → Bool
  | .nan, _ | _, .nan => false
  | .inf s, .inf t => s && !t
  | .inf s, .fin .. => s
  | .fin .., .inf t => !t
  | .fin s m e, .fin t n f =>
    let u := min e f
    decide (numInt s m e u < numInt t n f u)

/-! ### FP32 -/

/-- R92: the value of an FP32 word. -/
def fpNum (w : Word32) : Num :=
  let v := w.toNat
  let neg := v.testBit 31
  let c := v % 2 ^ 31
  if 0x7F800000 < c then .nan
  else if c = 0x7F800000 then .inf neg
  else let d := decodeMag 24 (-149) c; .fin neg d.1 d.2

/-- A sign and a magnitude code of `w` bits. -/
def withSign (w : Nat) (neg : Bool) (code : Nat) : Nat := (if neg then 2 ^ (w - 1) else 0) + code

/-- R92: the FP32 word nearest to a number, ties to even. -/
def numFp : Num → Word32
  | .nan => 0x7FC00000
  | .inf s => BitVec.ofNat 32 (withSign 32 s 0x7F800000)
  | .fin s m e => BitVec.ofNat 32 (withSign 32 s (min (encodeMag 24 (-149) m e) 0x7F800000))

/-- R92: the sum of two words, rounded once. -/
def fpAdd (a b : Word32) : Word32 := numFp (numAdd (fpNum a) (fpNum b))
/-- R92: the product of two words, rounded once. -/
def fpMul (a b : Word32) : Word32 := numFp (numMul (fpNum a) (fpNum b))
/-- R92: `a · b + c`, rounded once. -/
def fpFma (a b c : Word32) : Word32 := numFp (numAdd (numMul (fpNum a) (fpNum b)) (fpNum c))
/-- R92: the negation. -/
def fpNeg (a : Word32) : Word32 := numFp (numNeg (fpNum a))
/-- The word's value is NaN. -/
def fpIsNan (a : Word32) : Bool := fpNum a == .nan
/-- Strictly less. -/
def fpLt (a b : Word32) : Bool := numLt (fpNum a) (fpNum b)

/-- The whole square root, found bit by bit from bit `k - 1` down. -/
def isqrt (n : Nat) : Nat → Nat → Nat
  | 0, r => r
  | k + 1, r => let t := r + 2 ^ k; isqrt n k (if t * t ≤ n then t else r)

/-- `m · 2 ^ e / d`, for `0 < d`, with guard bits and a sticky bit. -/
def numDivMag (neg : Bool) (m : Nat) (e : Int) (d : Nat) : Num :=
  let k := bitLen d + 60
  let q := m * 2 ^ k / d
  let sticky := if m * 2 ^ k % d = 0 then 0 else 1
  .fin neg (2 * q + sticky) (e - k - 1)

/-- R92: the correctly rounded square root of a magnitude. -/
def fpSqrtMag (m : Nat) (e : Int) : Word32 :=
  let e2 : Int := if e % 2 = 0 then e else e - 1
  let m2 := if e % 2 = 0 then m else 2 * m
  let n := m2 * 2 ^ 128
  let r := isqrt n (bitLen n / 2 + 1) 0
  let sticky := if r * r = n then 0 else 1
  numFp (.fin false (2 * r + sticky) (e2 / 2 - 64 - 1))

/-- R92: the square root of a word. -/
def fpSqrt (a : Word32) : Word32 :=
  match fpNum a with
  | .nan => 0x7FC00000
  | .inf s => if s then 0x7FC00000 else a
  | .fin s m e => if m = 0 then a else if s then 0x7FC00000 else fpSqrtMag m e

/-- The reciprocal of a nonzero magnitude, with guard bits. -/
def numRecip (neg : Bool) (m : Nat) (e : Int) : Num := numDivMag neg 1 (-e) m

/-- The reciprocal square root of a nonzero magnitude, with guard bits: the root of `2 ^ (2 k) / m` over `2 ^ k`. -/
def numRsqrt (m : Nat) (e : Int) : Num :=
  let e2 : Int := if e % 2 = 0 then e else e - 1
  let m2 := if e % 2 = 0 then m else 2 * m
  let k := bitLen m2 + 64
  let n := 2 ^ (2 * k) / m2
  let r := isqrt n (bitLen n / 2 + 1) 0
  .fin false (2 * r + 1) (-(e2 / 2) - k - 1)

/-- R92: a NaN is the canonical NaN. -/
def fpCanon (a : Word32) : Word32 := if fpIsNan a then 0x7FC00000 else a

/-- A word's exact value, an infinity standing for the value that follows the largest finite one. -/
def fpExact (w : Word32) : Num :=
  let d := decodeMag 24 (-149) (w.toNat % 2 ^ 31)
  .fin (w.toNat.testBit 31) d.1 d.2

/-- R61: a word lies within two units in the last place of a value, the unit being that of the value. -/
def within2 (x : Num) (w : Word32) : Bool :=
  match x, numAdd (fpExact w) (numNeg x) with
  | .fin _ m e, .fin _ dm de => !numLt (.fin false 2 (max (-149) (e + bitLen m - 24))) (.fin false dm de)
  | _, _ => false

/-- A word moved by `k` codes, towards larger values where `k` is positive. -/
def fpStep (k : Int) (a : Word32) : Word32 :=
  let neg := decide (2 ^ 31 ≤ a.toNat)
  let c : Int := (a.toNat % 2 ^ 31 : Nat)
  let v := (if neg then -c else c) + k
  BitVec.ofNat 32 (withSign 32 (decide (v < 0) || (decide (v = 0) && neg)) (min 0x7F800000 v.natAbs))

/-- R61: a word within two units in the last place of a value: the nearest one moved by a free number of codes, where that
stays within the two. -/
def fpNear (k : Int) (x : Num) : Word32 :=
  let c := fpStep (max (-5) (min 5 k)) (numFp x)
  if within2 x c then c else numFp x

/-! ### Narrow element formats (Table 4.1, R90, R91) -/

/-- Element formats. -/
inductive Elem where
  | e4m3 | e5m2 | int8 | bf16 | int4 | e2m1
deriving DecidableEq, Repr

/-- Width of an element in bits. -/
def elemBits : Elem → Nat
  | .bf16 => 16 | .int4 | .e2m1 => 4 | _ => 8

/-- Largest finite magnitude of a format, as `m · 2 ^ e`. -/
def elemMax : Elem → Nat × Nat
  | .e4m3 => (448, 0) | .e5m2 => (57344, 0) | .int8 => (127, 0)
  | .bf16 => (255, 120) | .int4 => (7, 0) | .e2m1 => (6, 0)

/-- A two's complement code of `w` bits as a number. -/
def intNum (w c : Nat) : Num :=
  if c.testBit (w - 1) then .fin true (2 ^ w - c % 2 ^ w) 0 else .fin false (c % 2 ^ w) 0

/-- R90: the value of an element code. -/
def elemNum (f : Elem) (c : Nat) : Num :=
  match f with
  | .e4m3 =>
    if c % 128 = 127 then .nan else let d := decodeMag 4 (-9) (c % 128); .fin (c.testBit 7) d.1 d.2
  | .e5m2 =>
    if 124 < c % 128 then .nan else if c % 128 = 124 then .inf (c.testBit 7)
    else let d := decodeMag 3 (-16) (c % 128); .fin (c.testBit 7) d.1 d.2
  | .bf16 => fpNum (BitVec.ofNat 32 (c % 2 ^ 16 * 2 ^ 16))
  | .int8 => intNum 8 c
  | .int4 => intNum 4 c
  | .e2m1 => let d := decodeMag 2 (-1) (c % 8); .fin (c.testBit 3) d.1 d.2

/-- A conversion's code and what it counts (R91). -/
structure Conv where
  code : Nat
  sat : Bool := false
  ufl : Bool := false
  invalid : Bool := false
deriving DecidableEq, Repr

/-- The code of a sign and a magnitude code in a format. -/
def signCode (f : Elem) (neg : Bool) (c : Nat) : Nat :=
  match f with
  | .int8 => if neg then (256 - c) % 256 else c
  | .int4 => if neg then (16 - c) % 16 else c
  | _ => withSign (elemBits f) neg c

/-- The magnitude code of the largest finite value. -/
def elemMaxCode : Elem → Nat
  | .e4m3 => 0x7E | .e5m2 => 0x7B | .int8 => 127 | .bf16 => 0x7F7F | .int4 => 7 | .e2m1 => 7

/-- The magnitude code of a rounded magnitude within the format's range. -/
def magCode (f : Elem) (m : Nat) (e : Int) : Nat :=
  match f with
  | .e4m3 => encodeMag 4 (-9) m e
  | .e5m2 => encodeMag 3 (-16) m e
  | .bf16 => encodeMag 8 (-133) m e
  | .e2m1 => encodeMag 2 (-1) m e
  | .int8 | .int4 => rneAt 0 m e

/-- R91: a conversion into a narrower format. -/
def toElem (f : Elem) : Num → Conv
  | .nan =>
    match f with
    | .e4m3 | .e5m2 => { code := 0x7F }
    | .bf16 => { code := 0x7FC0 }
    | .int8 | .int4 => { code := 0, invalid := true }
    | .e2m1 => { code := 0 }
  | .inf s =>
    match f with
    | .e5m2 => { code := withSign 8 s 0x7C }
    | .bf16 => { code := withSign 16 s 0x7F80 }
    | _ => { code := signCode f s (elemMaxCode f), sat := true }
  | .fin s m e =>
    if magGt m (e - (elemMax f).2) (elemMax f).1 then
      { code := signCode f s (elemMaxCode f), sat := true }
    else
      let c := magCode f m e
      { code := signCode f s c, ufl := m != 0 && c == 0 }

/-- The value of a BF16 code as FP32. -/
def bf16Fp (c : Nat) : Word32 := numFp (elemNum .bf16 c)

/-! ### Scale bytes (R93) -/

/-- The smallest exponent from `lo` to 254, tried upward, at which the magnitude fits the format. -/
def scaleFor (f : Elem) (m : Nat) (e : Int) : Nat → Nat → Nat
  | 0, k => k
  | fuel + 1, k =>
    if magGt m (e + 127 - k - (elemMax f).2) (elemMax f).1 && k < 254 then scaleFor f m e fuel (k + 1) else k

/-- R100 step 4, MAXABS: the scale of a largest magnitude; 127 where it is zero. -/
def maxAbsScale (f : Elem) : Num → Nat
  | .fin _ m e => if m = 0 then 127 else scaleFor f m e 254 1
  | _ => 254

end Sys2Proof.Machine
end

