-- ==== Sys2Proof/Machine/Sha.lean ====
section
/-! DEFINITION. The digests and checks the manual names: SHA-256, CRC-32C and the CRC-16 of a
compression table. -/

namespace Sys2Proof.Machine

/-- SHA-256's round constants. -/
def shaK : List Word32 :=
  [0x428A2F98, 0x71374491, 0xB5C0FBCF, 0xE9B5DBA5, 0x3956C25B, 0x59F111F1, 0x923F82A4, 0xAB1C5ED5] ++
  [0xD807AA98, 0x12835B01, 0x243185BE, 0x550C7DC3, 0x72BE5D74, 0x80DEB1FE, 0x9BDC06A7, 0xC19BF174] ++
  [0xE49B69C1, 0xEFBE4786, 0x0FC19DC6, 0x240CA1CC, 0x2DE92C6F, 0x4A7484AA, 0x5CB0A9DC, 0x76F988DA] ++
  [0x983E5152, 0xA831C66D, 0xB00327C8, 0xBF597FC7, 0xC6E00BF3, 0xD5A79147, 0x06CA6351, 0x14292967] ++
  [0x27B70A85, 0x2E1B2138, 0x4D2C6DFC, 0x53380D13, 0x650A7354, 0x766A0ABB, 0x81C2C92E, 0x92722C85] ++
  [0xA2BFE8A1, 0xA81A664B, 0xC24B8B70, 0xC76C51A3, 0xD192E819, 0xD6990624, 0xF40E3585, 0x106AA070] ++
  [0x19A4C116, 0x1E376C08, 0x2748774C, 0x34B0BCB5, 0x391C0CB3, 0x4ED8AA4A, 0x5B9CCA4F, 0x682E6FF3] ++
  [0x748F82EE, 0x78A5636F, 0x84C87814, 0x8CC70208, 0x90BEFFFA, 0xA4506CEB, 0xBEF9A3F7, 0xC67178F2]

/-- SHA-256's initial hash value. -/
def shaInit : List Word32 :=
  [0x6A09E667, 0xBB67AE85, 0x3C6EF372, 0xA54FF53A, 0x510E527F, 0x9B05688C, 0x1F83D9AB, 0x5BE0CD19]

/-- A message padded to whole 64-byte blocks. -/
def shaPad (msg : List Byte) : List Byte :=
  let z := (119 - msg.length % 64) % 64
  msg ++ [0x80] ++ zeros z ++ (le 8 (8 * msg.length)).reverse

/-- A big-endian word. -/
def beWord (bs : List Byte) : Word32 := BitVec.ofNat 32 (unle bs.reverse)

/-- The message schedule, newest word first, extended by `fuel` words. -/
def shaSchedule : Nat → List Word32 → List Word32
  | 0, w => w
  | fuel + 1, w =>
    let a := w.getD 1 0
    let b := w.getD 14 0
    let s1 := a.rotateRight 17 ^^^ a.rotateRight 19 ^^^ (a >>> 10)
    let s0 := b.rotateRight 7 ^^^ b.rotateRight 18 ^^^ (b >>> 3)
    shaSchedule fuel ((s1 + w.getD 6 0 + s0 + w.getD 15 0) :: w)

/-- The eight working words of a compression. -/
structure ShaWork where
  a : Word32
  b : Word32
  c : Word32
  d : Word32
  e : Word32
  f : Word32
  g : Word32
  h : Word32
deriving DecidableEq, Repr

/-- One round. -/
def shaRound (x : ShaWork) (kw : Word32 × Word32) : ShaWork :=
  let s1 := x.e.rotateRight 6 ^^^ x.e.rotateRight 11 ^^^ x.e.rotateRight 25
  let ch := (x.e &&& x.f) ^^^ (~~~x.e &&& x.g)
  let t1 := x.h + s1 + ch + kw.1 + kw.2
  let s0 := x.a.rotateRight 2 ^^^ x.a.rotateRight 13 ^^^ x.a.rotateRight 22
  let mj := (x.a &&& x.b) ^^^ (x.a &&& x.c) ^^^ (x.b &&& x.c)
  { a := t1 + s0 + mj, b := x.a, c := x.b, d := x.c, e := x.d + t1, f := x.e, g := x.f, h := x.g }

/-- One 64-byte block compressed into a hash value. -/
def shaBlock (hv : List Word32) (block : List Byte) : List Word32 :=
  let w := (shaSchedule 48 ((chunksOf 4 16 block).map beWord).reverse).reverse
  let x : ShaWork := { a := hv.getD 0 0, b := hv.getD 1 0, c := hv.getD 2 0, d := hv.getD 3 0,
                       e := hv.getD 4 0, f := hv.getD 5 0, g := hv.getD 6 0, h := hv.getD 7 0 }
  let y := (shaK.zip w).foldl shaRound x
  List.zipWith (· + ·) hv [y.a, y.b, y.c, y.d, y.e, y.f, y.g, y.h]

/-- SHA-256 of a message, 32 bytes. -/
def sha256 (msg : List Byte) : List Byte :=
  let p := shaPad msg
  ((chunksOf 64 (p.length / 64 + 1) p).foldl shaBlock shaInit).flatMap fun w => (le 4 w.toNat).reverse

/-- One bit of CRC-32C, reflected. -/
def crc32cBit (c : Word32) : Word32 := if c.getLsbD 0 then (c >>> 1) ^^^ 0x82F63B78 else c >>> 1

/-- One byte of CRC-32C. -/
def crc32cByte (c : Word32) (b : Byte) : Word32 :=
  (List.range 8).foldl (fun c _ => crc32cBit c) (c ^^^ b.zeroExtend 32)

/-- CRC-32C of bytes. -/
def crc32c (bs : List Byte) : Nat := (~~~ (bs.foldl crc32cByte 0xFFFFFFFF)).toNat

/-- One bit of the CRC-64 of Table 13.1, most significant bit first. -/
def crc64Bit (c : Word64) : Word64 := if c.getLsbD 63 then (c <<< 1) ^^^ 0x42F0E1EBA9EA3693 else c <<< 1

/-- One byte of that CRC-64. -/
def crc64Byte (c : Word64) (b : Byte) : Word64 :=
  (List.range 8).foldl (fun c _ => crc64Bit c) (c ^^^ (b.zeroExtend 64 <<< 56))

/-- Table 13.1: the CRC-64 of bytes, initial value and final XOR all ones, no reflection. -/
def crc64 (bs : List Byte) : Nat := (~~~ (bs.foldl crc64Byte (BitVec.allOnes 64))).toNat

/-- One bit of the CRC-16 of polynomial 0x1021. -/
def crc16Bit (c : BitVec 16) : BitVec 16 := if c.getLsbD 15 then (c <<< 1) ^^^ 0x1021 else c <<< 1

/-- One byte of that CRC-16. -/
def crc16Byte (c : BitVec 16) (b : Byte) : BitVec 16 :=
  (List.range 8).foldl (fun c _ => crc16Bit c) (c ^^^ (b.zeroExtend 16 <<< 8))

/-- The CRC-16 with initial value 0xFFFF. -/
def crc16 (bs : List Byte) : Nat := (bs.foldl crc16Byte 0xFFFF).toNat

end Sys2Proof.Machine
end

