-- ==== Sys2Proof/Machine/Codes.lean ====
section
/-! DEFINITION. The codes that stored data carries: the Hamming words of a slice (R193), the verdict of the HBM3E code
(R195, R196), the CRCs of a page's blocks (R198, R200), and XTS-AES-256 (R148, R149). -/

namespace Sys2Proof.Machine

/-! ### The extended Hamming word of a byte (R193, R203) -/

/-- A stored word: data and check field. -/
abbrev Word13 := BitVec 13

/-- The Hamming positions of a byte's eight data bits; bit `p - 1` of a word stands at position `p`, bit 12 is the parity
of the whole word (log 93). -/
def hamData : List Nat := [3, 5, 6, 7, 9, 10, 11, 12]

/-- The positions of the bits of a word that are set. -/
def hamSyndrome (w : Word13) : Nat := (List.range 12).foldl (fun s i => if w.getLsbD i then s ^^^ (i + 1) else s) 0

/-- The parity of a word. -/
def hamParity (w : Word13) : Bool := (List.range 13).foldl (fun s i => s ^^ w.getLsbD i) false

/-- A word with the bit at a position turned over. -/
def hamFlip (p : Nat) (w : Word13) : Word13 := w ^^^ BitVec.ofNat 13 (2 ^ (p - 1))

/-- R193: the word that a byte is stored as. -/
def hamEncode (b : Byte) : Word13 :=
  let d := hamData.zipIdx.foldl (fun w x => if b.getLsbD x.2 then hamFlip x.1 w else w) 0
  let s := hamSyndrome d
  let c := [0, 1, 2, 3].foldl (fun w j => if s.testBit j then hamFlip (2 ^ j) w else w) d
  if hamParity c then c ^^^ 4096 else c

/-- The byte that a word's data bits spell. -/
def hamByte (w : Word13) : Byte :=
  hamData.zipIdx.foldl (fun b x => if w.getLsbD (x.1 - 1) then b ||| BitVec.ofNat 8 (2 ^ x.2) else b) 0

/-- R193: an array read of a word: its byte with one wrong bit of the 13 corrected, or nothing for two wrong bits and for a
syndrome that names no position. -/
def hamDecode (w : Word13) : Option Byte :=
  let s := hamSyndrome w
  if !hamParity w then (if s = 0 then some (hamByte w) else none)
  else if s = 0 then some (hamByte w)
  else if s ≤ 12 then some (hamByte (hamFlip s w))
  else none

/-- R203: a poisoned byte's word: its syndrome, 15, names no position, and no one or two wrong bits of a stored byte make
it. -/
def hamPoison : Word13 := hamFlip 12 (hamFlip 2 (hamFlip 1 0))

/-! ### The HBM3E code (R195, R196) -/

/-- What the module code finds of a unit. -/
inductive UnitVerdict where
  | clean | corrects | uncorrectable
deriving DecidableEq, Repr

/-- R195: the verdict on a unit of which the listed ones of the 72 bytes are wrong.  A unit from another address fails; up to
3 wrong bytes are corrected, 4 and 5 detected, and more are detected or not (a free value). -/
def unitVerdict (elsewhere : Bool) (es : List (Nat × Byte)) : UnitVerdict :=
  if elsewhere then .uncorrectable
  else if es.length = 0 then .clean
  else if es.length ≤ 3 then .corrects
  else if es.length ≤ 5 then .uncorrectable
  else if Config.rsDetects (es.map (·.1)) (es.map (·.2)) then .uncorrectable
  else .clean

/-- R195: a unit as the stack stores it: its ciphertext and the 8 check bytes of the code, its physical address folded in. -/
def unitStored (cipher : List Byte) (phys : Nat) : List Byte := cipher ++ padTo 8 (Config.rsCheck cipher phys)

/-! ### The CRC-32C of a page's blocks (R198 to R200) -/

/-- A register of CRC-32C advanced by one zero byte, as multiplication by x⁸ modulo its polynomial. -/
def crcMul (a b : Word32) : Word32 :=
  ((List.range 32).foldl (fun (x : Word32 × Word32) i => (if b.getLsbD (31 - i) then x.1 ^^^ x.2 else x.1, crc32cBit x.2)) (0, a)).1

/-- The factor of `n` zero bytes, `x` to the power `8 n`: `sq` is that of the bit of `n` in turn. -/
def crcPowFrom : Nat → Nat → Word32 → Word32 → Word32
  | 0, _, _, acc => acc
  | fuel + 1, n, sq, acc => crcPowFrom fuel (n / 2) (crcMul sq sq) (if n % 2 = 1 then crcMul acc sq else acc)

/-- A CRC register over `n` further zero bytes. -/
def crcOver (n : Nat) (c : Word32) : Word32 := crcMul c (crcPowFrom 40 n 0x00800000 0x80000000)

/-- What a byte at distance `k` from a message's end adds to its CRC. -/
def crcPart (k : Nat) (b : Byte) : Word32 := crcOver k (crc32cByte 0 b)

/-- R198: the CRC-32C of `n` bytes of which only the listed ones, by position, are not zero. -/
def crcSparse (n : Nat) (cs : Mem) : Word32 :=
  cs.foldl (fun c x => c ^^^ crcPart (n - 1 - x.1) x.2) (~~~ (crcOver n 0xFFFFFFFF))

/-- Bytes of a block. -/
def crcBlock : Nat := 65536

/-! ### XTS-AES-256 (R148, R149) -/

/-- A byte doubled in AES's field. -/
def gfDouble (a : Byte) : Byte := if a.getLsbD 7 then (a <<< 1) ^^^ 0x1B else a <<< 1

/-- A product in AES's field. -/
def gfMul (a b : Byte) : Byte :=
  ((List.range 8).foldl (fun (x : Byte × Byte) i => (if b.getLsbD i then x.1 ^^^ x.2 else x.1, gfDouble x.2)) (0, a)).1

/-- The inverse in AES's field, zero for zero: the 254th power. -/
def gfInv (a : Byte) : Byte :=
  let a2 := gfMul a a
  let a4 := gfMul a2 a2
  let a8 := gfMul a4 a4
  let a16 := gfMul a8 a8
  let a32 := gfMul a16 a16
  let a64 := gfMul a32 a32
  let a128 := gfMul a64 a64
  gfMul a128 (gfMul a64 (gfMul a32 (gfMul a16 (gfMul a8 (gfMul a4 a2)))))

/-- AES's byte substitution. -/
def subByte (a : Byte) : Byte :=
  let b := gfInv a
  b ^^^ b.rotateLeft 1 ^^^ b.rotateLeft 2 ^^^ b.rotateLeft 3 ^^^ b.rotateLeft 4 ^^^ 0x63

/-- Its inverse. -/
def unsubByte (a : Byte) : Byte := gfInv (a.rotateLeft 1 ^^^ a.rotateLeft 3 ^^^ a.rotateLeft 6 ^^^ 0x05)

/-- Bytes added in the field. -/
def xorBytes (a b : List Byte) : List Byte := List.zipWith (· ^^^ ·) a b

/-- AES-256's key schedule: the last eight words, latest first, grown to 60. -/
def aesExpand : Nat → Nat → Byte → List (List Byte) → List (List Byte)
  | 0, _, _, ws => ws
  | fuel + 1, i, rcon, ws =>
    let p := ws.headD []
    let t := if i % 8 = 0 then xorBytes ((p.drop 1 ++ p.take 1).map subByte) [rcon, 0, 0, 0]
             else if i % 8 = 4 then p.map subByte else p
    aesExpand fuel (i + 1) (if i % 8 = 0 then gfDouble rcon else rcon) (xorBytes (ws.getD 7 []) t :: ws)

/-- The 15 round keys of a 32-byte key. -/
def aesKeys (key : List Byte) : List (List Byte) :=
  let ws := (aesExpand 52 8 1 (chunksOf 4 8 key).reverse).reverse
  (chunksOf 4 15 ws).map List.flatten

/-- The rows of a state shifted; byte `i` of a state stands in row `i % 4` and column `i / 4`. -/
def shiftRows (s : List Byte) : List Byte := (List.range 16).map fun i => s.getD ((i + 4 * (i % 4)) % 16) 0
/-- The rows shifted back. -/
def unshiftRows (s : List Byte) : List Byte := (List.range 16).map fun i => s.getD ((i + 12 * (i % 4)) % 16) 0

/-- The columns of a state multiplied by the polynomial with the given coefficients. -/
def mixBy (c : List Byte) (s : List Byte) : List Byte :=
  (List.range 16).map fun i =>
    (List.range 4).foldl (fun x j => x ^^^ gfMul (c.getD ((j + 4 - i % 4) % 4) 0) (s.getD (i / 4 * 4 + j) 0)) 0

/-- AES-256 of a block. -/
def aesEncrypt (ks : List (List Byte)) (b : List Byte) : List Byte :=
  let s := xorBytes b (ks.headD [])
  let s := ((ks.drop 1).take 13).foldl (fun s k => xorBytes (mixBy [2, 3, 1, 1] (shiftRows (s.map subByte))) k) s
  xorBytes (shiftRows (s.map subByte)) (ks.getD 14 [])

/-- Its inverse. -/
def aesDecrypt (ks : List (List Byte)) (b : List Byte) : List Byte :=
  let s := unshiftRows (xorBytes b (ks.getD 14 [])) |>.map unsubByte
  let s := ((ks.drop 1).take 13).reverse.foldl
    (fun s k => (unshiftRows (mixBy [14, 11, 13, 9] (xorBytes s k))).map unsubByte) s
  xorBytes s (ks.headD [])

/-- A tweak multiplied by the primitive element, once for each block of a unit before this one. -/
def tweakNext (t : BitVec 128) : BitVec 128 := if t.getLsbD 127 then (t <<< 1) ^^^ 0x87 else t <<< 1

/-- R149: the tweaks of a unit's four blocks: bits [38:0] hold the unit's position. -/
def tweaks (k2 : BitVec 256) (pos : Nat) : List (List Byte) :=
  let t0 := BitVec.ofNat 128 (unle (aesEncrypt (aesKeys (le 32 k2.toNat)) (le 16 (pos % 2 ^ 39))))
  [t0, tweakNext t0, tweakNext (tweakNext t0), tweakNext (tweakNext (tweakNext t0))].map fun t => le 16 t.toNat

/-- R149: a 64-byte data unit encrypted under XTS-AES-256; a key's 32 bytes are numbered from its low end (log 94). -/
def xtsEncrypt (k1 k2 : BitVec 256) (pos : Nat) (unit : List Byte) : List Byte :=
  let ks := aesKeys (le 32 k1.toNat)
  (((chunksOf 16 4 unit).zip (tweaks k2 pos)).map fun x => xorBytes (aesEncrypt ks (xorBytes x.1 x.2)) x.2).flatten

/-- R149: and decrypted. -/
def xtsDecrypt (k1 k2 : BitVec 256) (pos : Nat) (unit : List Byte) : List Byte :=
  let ks := aesKeys (le 32 k1.toNat)
  (((chunksOf 16 4 unit).zip (tweaks k2 pos)).map fun x => xorBytes (aesDecrypt ks (xorBytes x.1 x.2)) x.2).flatten

/-- R148: K1 of a draw. -/
def key1 (draw : Nat) : BitVec 256 := Config.randomKey (2 * draw)

/-- R148: K2 of a draw, generated again where it would equal K1. -/
def key2 (draw : Nat) : BitVec 256 :=
  let k := Config.randomKey (2 * draw + 1)
  if k = key1 draw then key1 draw ^^^ (if Config.keyRedraw draw = 0 then 1 else Config.keyRedraw draw) else k

end Sys2Proof.Machine
end

