-- ==== Sys2Proof/Machine/Ops.lean ====
section
/-! DEFINITION. The operations every family shares: reaching one context, function, pea, tenancy or
port; replies, events, interrupts and ignored items (chapter 5); capture entries (chapter 19). -/

namespace Sys2Proof.Machine

/-! ### Codes -/

/-- Table 5.6: the byte of a status code. -/
def statusCode : Status → Nat
  | .ok => 0x00 | .notReady => 0x01 | .invalid => 0x02 | .denied => 0x03 | .poisoned => 0x04
  | .cancelled => 0x05 | .tooLate => 0x06 | .noTarget => 0x07 | .targetLost => 0x08
  | .indeterminate => 0x09 | .ignoredGen => 0x0A | .outOfReach => 0x0B | .noSpace => 0x0C
  | .noBank => 0x0D | .moduleFault => 0x0E | .digestMismatch => 0x0F | .sigFail => 0x10
  | .flagWithheld => 0x11 | .tierFail => 0x12

/-- R133: the rank of a code among several that apply; the lowest wins. -/
def statusRank : Status → Nat
  | .poisoned => 0 | .targetLost => 1 | .denied => 2 | .invalid => 3 | .cancelled => 4
  | .ok => 6 | _ => 5

/-- R43, R133: the status and DETAIL of a request to which both apply; of two with the same code, the lower DETAIL, so that
no order of arrival decides (log 108). -/
def worse (a b : Status × Nat) : Status × Nat :=
  if statusRank b.1 < statusRank a.1 || (b.1 == a.1 && b.2 < a.2) then b else a

/-- Table 5.10: the code of a reason for ignoring. -/
def reasonCode : Reason → Nat
  | .ring => 1 | .opcode => 2 | .cls => 3 | .context => 4 | .sequence => 5 | .permission => 6
  | .range => 7 | .slotWrite => 8 | .doorbell => 9 | .pointer => 10 | .register => 11

/-! ### Reaching one of many -/

/-- A context by number. -/
def ctxOf (m : Mach) (c : Nat) : Ctx := m.ctxs[c]?.getD {}
/-- One context changed. -/
def modCtx (c : Nat) (f : Ctx → Ctx) (m : Mach) : Mach := { m with ctxs := modAt c f m.ctxs }
/-- A function by number (R118: function c serves context c). -/
def fnOf (m : Mach) (c : Nat) : Fn := m.fns[c]?.getD {}
/-- One function changed. -/
def modFn (c : Nat) (f : Fn → Fn) (m : Mach) : Mach := { m with fns := modAt c f m.fns }
/-- A pea by number. -/
def peaOf (m : Mach) (p : Nat) : Pea := m.peas[p]?.getD {}
/-- One pea changed. -/
def modPea (p : Nat) (f : Pea → Pea) (m : Mach) : Mach := { m with peas := modAt p f m.peas }
/-- A tenancy by number. -/
def tenOf (m : Mach) (t : Nat) : Ten := m.ten.tens[t]?.getD {}
/-- One tenancy changed. -/
def modTen (t : Nat) (f : Ten → Ten) (m : Mach) : Mach :=
  { m with ten := { m.ten with tens := modAt t f m.ten.tens } }
/-- A link port by number. -/
def portOf (m : Mach) (p : Nat) : Port := m.link.ports[p]?.getD {}
/-- One link port changed. -/
def modPort (p : Nat) (f : Port → Port) (m : Mach) : Mach :=
  { m with link := { m.link with ports := modAt p f m.link.ports } }
/-- A change of the tick block. -/
def modTick (f : TickSt → TickSt) (m : Mach) : Mach := { m with tick := f m.tick }
/-- A change of the memory block. -/
def modMem (f : MemSt → MemSt) (m : Mach) : Mach := { m with mem := f m.mem }
/-- A change of the step block. -/
def modStp (f : StepSt → StepSt) (m : Mach) : Mach := { m with stp := f m.stp }
/-- A change of the fabric block. -/
def modFab (f : FabSt → FabSt) (m : Mach) : Mach := { m with fab := f m.fab }
/-- A change of the power block. -/
def modPwr (f : PwrSt → PwrSt) (m : Mach) : Mach := { m with pwr := f m.pwr }
/-- A change of the lifecycle block. -/
def modLife (f : LifeSt → LifeSt) (m : Mach) : Mach := { m with life := f m.life }
/-- A change of the inputs latched for the next boundary. -/
def modLat (f : Latched → Latched) (m : Mach) : Mach := { m with lat := f m.lat }
/-- A change of the protection block. -/
def modEcc (f : EccSt → EccSt) (m : Mach) : Mach := { m with ecc := f m.ecc }

/-- A condition guarding a change. -/
def onlyIf (b : Bool) (f : Mach → Mach) (m : Mach) : Mach := if b then f m else m

/-- A change made for each member of a list, in order. -/
def forEach {α : Type} (l : List α) (f : α → Mach → Mach) (m : Mach) : Mach :=
  l.foldl (fun m a => f a m) m

/-- What goes to the host. -/
def toHost : Out → Bool
  | .hostWrite .. => true
  | .hostRead .. => true
  | .interrupt .. => true
  | _ => false

/-- Something sent to the outside.  Nothing goes to the host once removal has stopped it (R433); in replay
mode a write to host memory goes to CAP_REPLAY_OUT with its address (R472). -/
def send (o : Out) (m : Mach) : Mach :=
  if m.host.stopped && toHost o then m
  else
    match m.life.replay, o with
    | true, .hostWrite a bs => { m with out := m.out ++ [.replayWrite (m.cap.replayOut * 4096) a bs] }
    | _, o => { m with out := m.out ++ [o] }

/-- R421, R429: a read of host memory issued; in replay mode its data comes from the image instead (R472). -/
def askHost (w : ReadFor) (addr len : Nat) (m : Mach) : Mach :=
  let i := m.host.nextRead
  let m := { m with host := { m.host with reads := m.host.reads ++ [(i, addr, w)], nextRead := i + 1
                                          readUs := m.host.readUs ++ [(i, m.tick.nowUs)] } }
  if m.life.replay then m else send (.hostRead i addr len) m

/-- R500: this module's node number in a 16-bit field, or the marker. -/
def node16 (m : Mach) : Nat := m.fab.node.getD 0x8000

/-- R369: the work units of a context belong to the group. -/
def groupCtx (m : Mach) (c : Nat) : Bool :=
  let x := ctxOf m c
  let self := m.fab.node.getD 0x8000
  !x.colls.isEmpty || x.layouts.any fun l => l.blk.sources.any (· != self) || l.blk.experts.any (·.1 != self)

/-- A time limit of `us` begun at `since` can be reached within the tick in progress (log 7). -/
def due (m : Mach) (since us : Nat) : Bool := since + us < m.tick.nowUs + m.tick.inForce

/-- R19, R20: some Turnip core still runs. -/
def turnipRuns (m : Mach) : Bool := m.life.halted.length < 8

/-- The module is up and served by its clocks (R22, R410, R437, R457, R480). -/
def isUp (m : Mach) : Bool := m.life.run == .up && !m.pwr.shutLatched

/-! ### Capture entries (R463, R464) -/

/-- An input recorded in the tick record in progress, while a recording runs; `ord` places it in its class (R464). -/
def captureAt (ord : List Nat) (kind cls source : Nat) (body : List Byte) (m : Mach) : Mach :=
  if m.cap.state == 1 || m.cap.state == 2 then
    { m with cap := { m.cap with current := m.cap.current ++ [{ kind, cls, source, ord, body }] } }
  else m

/-- An input recorded that its class takes by its source, or, in class 0, as it came. -/
def capture (kind cls source : Nat) (body : List Byte) : Mach → Mach :=
  captureAt (if cls = 0 then [] else [1, source]) kind cls source body

/-- R462, R463: a payload put into the ring, and its entry's last 16 bytes: the digest's first 8 and the
ring offset, all ones where no ring holds it. -/
def capturePayload (digest : List Byte) (payload : List Byte) (m : Mach) : List Byte × Mach :=
  let size := m.cap.linkGb * 2 ^ 30
  if (m.cap.state == 1 || m.cap.state == 2) && payload.length ≤ size then
    let r := m.cap.ring ++ payload
    (digest.take 8 ++ le 8 m.cap.ringWritten,
     { m with cap := { m.cap with ring := r.drop (r.length - size), ringWritten := m.cap.ringWritten + payload.length } })
  else (digest.take 8 ++ le 8 (2 ^ 64 - 1), m)

/-- Table 19.4: the trigger bit of an event, where it has one. -/
def triggerBit (typ : Nat) (body : List Byte) : Option Nat :=
  let cause := field body 0 2
  match typ with
  | 0x02 => some 0 | 0x11 => some 1 | 0x05 => some 2 | 0x06 => some 3 | 0x48 => some 4 | 0x30 => some 5
  | 0x58 => if cause.testBit 4 || cause.testBit 6 then some 6 else none
  | 0x59 => if cause.testBit 1 || cause.testBit 6 then some 7 else none
  | 0x28 => some 8 | 0x50 => some 9 | 0x41 => some 10
  | 0x40 => if (field body 4 1).testBit 1 then some 10 else none
  | _ => none

/-- R466: an event of a selected kind is written, or would be were its ring enabled. -/
def trigger (typ : Nat) (body : List Byte) (m : Mach) : Mach :=
  match triggerBit typ body with
  | some b =>
    if m.cap.state == 1 && m.cap.triggers.testBit b then
      { m with cap := { m.cap with fired := m.cap.fired ||| 2 ^ b } }
    else m
  | none => m

/-! ### EVT_STATUS, interrupts, events (R131, R136 to R138) -/

/-- R138: an EVT_STATUS bit set; a change from 0 to 1 calls for an interrupt. -/
def setEvt (c b : Nat) (m : Mach) : Mach :=
  modFn c (fun f =>
    if f.evtStatus.getLsbD b then f
    else { f with evtStatus := f.evtStatus ||| BitVec.ofNat 32 (2 ^ b), irqWant := true }) m

/-- An event record due at the boundary last fired, on the ring of function `c` (R136). -/
def emit (c typ ctx : Nat) (body : List Byte) (m : Mach) : Mach :=
  let m := trigger typ body m
  { m with evq := m.evq ++ [{ fn := c, typ, ctx, tick := m.tick.count, body }] }

/-- The functions whose event ring is enabled. -/
def evtRings (m : Mach) : List Nat :=
  (List.range 256).filter fun c => (fnOf m c).evtEnabled

/-- An event for every enabled ring. -/
def emitAll (typ ctx : Nat) (body : List Byte) (m : Mach) : Mach :=
  m |> trigger typ body |> forEach (evtRings m) (fun c => emit c typ ctx body)

/-- R131: OWN of entry number `i` of a ring of `n` entries. -/
def ownBit (i n : Nat) : Nat := 1 - i / n % 2

/-- R136: the free entries of an event ring. -/
def evtFree (f : Fn) : Nat := 2 ^ f.evtLog2 - dist f.evtTail f.evtHead

/-- R476: a CAPTURE event of the boundary last fired. -/
def captureEvent (cause tick : Nat) (m : Mach) : Mach :=
  emit 0 0x70 0 (le 1 cause ++ le 1 m.cap.endCause ++ le 1 m.cap.triggerBit ++ zeros 1 ++ le 6 m.cap.firstTick ++ le 6 tick) m

/-- R466: the first trigger of a recording acts: the trigger tick's own record and POST_TICKS further ones
are still taken. -/
def actTrigger (m : Mach) : Mach :=
  if m.cap.state == 1 && m.cap.fired != 0 then
    let b := ((List.range 16).find? m.cap.fired.testBit).getD 0
    { m with cap := { m.cap with state := 2, triggerTick := m.tick.count, triggerBit := b, postLeft := m.cap.postTicks + 1, fired := 0 } }
      |> captureEvent 2 m.tick.count
  else { m with cap := { m.cap with fired := 0 } }

/-- Table 5.7: one record written at the tail of the event ring. -/
def putRecord (c typ ctx tick : Nat) (body : List Byte) (m : Mach) : Mach :=
  let f := fnOf m c
  let n := 2 ^ f.evtLog2
  let rec32 := le 1 typ ++ le 1 ctx ++ le 6 tick ++ padTo 23 body ++ le 1 (ownBit f.evtTail n)
  m |> send (.hostWrite (f.evtBase * 4096 + 32 * (f.evtTail % n)) rec32)
    |> modFn c (fun f => { f with evtTail := wrap 32 (f.evtTail + 1), irqWant := true })
    |> setEvt c 0

/-- R136: a record counted as lost, as it is not written. -/
def loseRecord (c tick : Nat) (m : Mach) : Mach :=
  m |> modFn c (fun f =>
        { f with evtLost := bump 32 1 f.evtLost, lostSince := bump 32 1 f.lostSince, lostAt := some m.tick.count,
                 lostFirstTick := if f.lostSince = 0 then tick else f.lostFirstTick })
    |> modCtx c (fun x => if c == 0 || x.isOpen then { x with evtLost := bump 32 1 x.evtLost } else x)
    |> setEvt c 2

/-- R430: a reply or record discarded for an FLR. -/
def countDropped (m : Mach) : Mach := { m with host := { m.host with dropped := bump 16 1 m.host.dropped } }

/-- R115: a PRECISION_FLAG record that is written counts. -/
def countFlag (typ : Nat) (m : Mach) : Mach :=
  if typ = 0x07 then modMem (fun x => { x with precFlags := bump 8 1 x.precFlags }) m else m

/-- R136: one due record written while at least 2 entries are free, and lost otherwise. -/
def writeRecord (e : EvRec) (m : Mach) : Mach :=
  let f := fnOf m e.fn
  if f.evtEnabled && 2 ≤ evtFree f then
    m |> putRecord e.fn e.typ e.ctx e.tick e.body |> countFlag e.typ
  else loseRecord e.fn e.tick m

/-- R136: the EVENTS_LOST record that goes first at a boundary after a loss, once an entry is free. -/
def lostRecord (c : Nat) (m : Mach) : Mach :=
  let f := fnOf m c
  if f.evtEnabled && 0 < f.lostSince && f.lostAt != some m.tick.count && 1 ≤ evtFree f then
    m |> putRecord c 0x04 c m.tick.count (le 4 f.lostSince ++ le 6 f.lostFirstTick)
      |> modFn c (fun f => { f with lostSince := 0, lostFirstTick := 0 })
  else m

/-- R424: the message of a function's vector: its data to its address. -/
def sendIrq (c : Nat) (m : Mach) : Mach := send (.interrupt c (fnOf m c).msixAddr (fnOf m c).msixData) m

/-- R424: the message of a vector, or its pending bit while it is masked. -/
def signal (c : Nat) (m : Mach) : Mach :=
  if (fnOf m c).msixMasked then modFn c (fun f => { f with msixPending := true }) m
  else sendIrq c m

/-- R138: the interrupt of a function that wants it, after its last write and once in a boundary; one that a row wants
after that comes with the next boundary's (log 96). -/
def signalIfWanted (c : Nat) (m : Mach) : Mach :=
  if (fnOf m c).irqWant && (fnOf m c).irqAt != some m.tick.count then
    m |> modFn c (fun f => { f with irqWant := false, irqAt := some m.tick.count }) |> signal c
  else m

/-- R44, Table 2.5: the class of the input that an event reports, where it was noted; else that of its type.  A LINK_STATE event whose CAUSE holds down, bit 1,
reports a class 3 input, and what no class names is reported with the completions (log 97). -/
def evClass (e : EvRec) : Nat :=
  if e.cls != 0 then e.cls
  else match e.typ with
  | 0x69 => 2
  | 0x02 | 0x06 | 0x11 | 0x48 => 3
  | 0x40 => if (field e.body 4 1).testBit 1 then 3 else 5
  | 0x58 | 0x59 => 4
  | 0x03 | 0x68 => 7
  | _ => 5

/-- R44: the events that come after the first `n` are those of inputs of class `k`. -/
def ofClass (k n : Nat) (m : Mach) : Mach :=
  { m with evq := m.evq.take n ++ (m.evq.drop n).map fun e => { e with cls := k } }

/-- Two keys by context, then sequence number. -/
def keyLe (a b : Nat × Nat) : Bool := a.1 < b.1 || (a.1 == b.1 && a.2 ≤ b.2)

/-- R44, R45, R136: the records of a boundary in order: by class, and below class 7 by context. -/
def evOrder (a b : EvRec) : Bool :=
  evClass a < evClass b || (evClass a == evClass b && (evClass a == 7 || a.ctx ≤ b.ctx))

/-- R136, R138: the records of the boundary written in order, then the interrupts.  While no
core runs nothing is written (R129), and while removal has stopped the host port, nothing is issued
(R433). -/
def flushEvents (m : Mach) : Mach :=
  let fs := List.range 256
  let q := sortBy evOrder (m.evq.filter fun e => turnipRuns m || e.typ == 2)
  { m with evq := [] }
    |> onlyIf (turnipRuns m) (forEach fs lostRecord) |> forEach q writeRecord |> forEach fs signalIfWanted

/-! ### Ignored items (R139, R140) -/

/-- R140: the place of an item among a function's items ignored: a write's by its arrival, every packet's after that. -/
def ignPlace (f : Fn) (isPacket : Bool) : Nat := if isPacket then 2 ^ 32 else f.arrivals

/-- R140: an item of a function ignored, as its registers and the next summary have it. -/
def ignoreFn (r : Reason) (seq opcode : Nat) (isPacket : Bool) (f : Fn) : Fn :=
  let first := f.ignCount = 0 || ignPlace f isPacket < f.ignOrd
  { f with
    ignoredTotal := bump 32 1 f.ignoredTotal
    ignoredLast := reasonCode r
    ignCount := bump 32 1 f.ignCount
    ignOrd := if first then ignPlace f isPacket else f.ignOrd
    ignFirstReason := if first then reasonCode r else f.ignFirstReason
    ignFirstSeq := if first then seq else f.ignFirstSeq
    ignFirstOpcode := if first then opcode else f.ignFirstOpcode
    arrivals := if isPacket then f.arrivals else f.arrivals + 1
    ignReasons := f.ignReasons ||| BitVec.ofNat 16 (2 ^ (reasonCode r - 1)) }

/-- An item of function `c` ignored: SEQ and OPCODE are those of a packet, and zero for a write.  The counters of a context
that has closed stay as they are (R142, R156). -/
def ignoreItem (c : Nat) (r : Reason) (seq opcode : Nat) (isPacket : Bool) (m : Mach) : Mach :=
  m |> modFn c (ignoreFn r seq opcode isPacket)
    |> modCtx c (fun x => if c == 0 || x.isOpen then { x with ignored := bump 32 1 x.ignored } else x)
    |> setEvt c 4

/-- A refused write of function `c`. -/
def ignoreWrite (c : Nat) (r : Reason) : Mach → Mach := ignoreItem c r 0 0 false

/-- R140: the IGNORED_SUMMARY of a function that had anything ignored, one at a boundary; what a row has ignored after it
comes with the next boundary's (log 96). -/
def ignoredSummary (c : Nat) (m : Mach) : Mach :=
  let f := fnOf m c
  if f.ignCount = 0 || f.sumAt == some m.tick.count then m
  else
    m |> emit c 0x03 c (le 4 f.ignCount ++ le 4 f.ignFirstSeq ++ le 1 f.ignFirstReason ++
          le 1 f.ignFirstOpcode ++ le 2 f.ignReasons.toNat)
      |> modFn c (fun f => { f with sumAt := some m.tick.count, ignCount := 0, ignFirstSeq := 0, ignFirstReason := 0,
                                    ignFirstOpcode := 0, ignReasons := 0, ignOrd := 0 })

/-- R268, Table 11.2: the GEN_DISCARD event of a context some of whose results were discarded; that of a step cut off by
an FLR is discarded and counted (R430, log 32).  There is one at a boundary; what is discarded at a row after it comes with
the next boundary's (log 96). -/
def genDiscard (c : Nat) (m : Mach) : Mach :=
  let ds := (ctxOf m c).genDropTick
  if (ctxOf m c).discAt == some m.tick.count then m
  else
    let m := m |> onlyIf (ds.any (·.2.2.2.2.2)) countDropped |> modCtx c (fun x => { x with genDropTick := [] })
    match ds.filter (!·.2.2.2.2.2) with
    | [] => m
    | (slot, gen, cur, seq, w, _) :: r =>
      m |> modCtx c (fun x => { x with discAt := some m.tick.count })
        |> emit c 0x28 c (le 2 (sat 16 (r.length + 1)) ++ le 2 slot ++ le 2 gen ++ le 2 cur ++ le 4 seq ++ le 1 w)

/-- R132, R142: the ring of a context is held back at the boundary: STALL is set, and the boundary counted once. -/
def holdRing (c : Nat) (m : Mach) : Mach :=
  m |> setEvt c 3 |> modCtx c (fun x =>
    if x.stallAt == some m.tick.count then x
    else { x with ringStall := bump 32 1 x.ringStall, stallAt := some m.tick.count })

/-! ### Requests and replies (R130 to R132) -/

/-- The request of context `c` with sequence number `q`, of the urgent ring when `u`. -/
def isReq (c : Nat) (u : Bool) (q : Nat) (r : Req) : Bool := r.ctx == c && r.urgent == u && r.seq == q

/-- An accepted and unfinalised request. -/
def findReq (m : Mach) (c : Nat) (u : Bool) (q : Nat) : Option Req := m.reqs.find? (isReq c u q)

/-- R430: a request that an FLR has cut off. -/
def cutOff (m : Mach) (c q : Nat) : Bool := (findReq m c false q).any (·.preFlr)

/-- A request changed. -/
def modReq (c : Nat) (u : Bool) (q : Nat) (f : Req → Req) (m : Mach) : Mach :=
  { m with reqs := m.reqs.map fun r => if isReq c u q r then f r else r }

/-- A request whose reply is owed from now on. -/
def addReq (r : Req) (m : Mach) : Mach := { m with reqs := m.reqs ++ [r] }

/-- R131, Table 5.5: one reply written to the status ring of function `c`. -/
def putReply (c seq detail : Nat) (st : Status) (urgent irq : Bool) (m : Mach) : Mach :=
  let f := fnOf m c
  let n := 2 ^ f.statusLog2
  let bytes := le 4 seq ++ le 4 detail ++ le 6 m.tick.count ++ le 1 (statusCode st) ++
    le 1 (ownBit f.statusWritten n + 2 * bit urgent)
  m |> send (.hostWrite (f.statusBase * 4096 + 16 * (f.statusWritten % n)) bytes)
    |> modFn c (fun f => { f with statusWritten := wrap 32 (f.statusWritten + 1),
                                  irqWant := f.irqWant || irq })
    |> setEvt c 1

/-- R130: a request finalised, with its one reply.  A request cut off by an FLR, or whose rings are
out of service, gets none (R121, R430), and none is written once removal has begun (R433). -/
def finaliseReq (c : Nat) (u : Bool) (q : Nat) (st : Status) (detail : Nat) (m : Mach) : Mach :=
  match findReq m c u q with
  | none => m
  | some r =>
    let m := { m with reqs := m.reqs.filter fun r => !isReq c u q r }
    let m := modFn c (fun f => { f with finals := if u then f.finals else { seq := q, tick := m.tick.count, st, detail } :: f.finals }) m
    if m.life.removal || !turnipRuns m || !(fnOf m c).cmdEnabled && !r.preFlr then m
    else if r.preFlr then countDropped m
    else putReply c q detail st u r.irq m

/-- A request of a command ring finalised. -/
def finalise (c q : Nat) (st : Status) (detail : Nat := 0) : Mach → Mach := finaliseReq c false q st detail

end Sys2Proof.Machine
end

