-- ==== Sys2Proof/Machine/Memory.lean ====
section
/-! DEFINITION. Slices, the device-local ranges and their pages: translation, reading, writing, wrong bits and
poison (chapters 3, 7 and 8). -/

namespace Sys2Proof.Machine

/-! ### Slices (R68, R71, R72, R203) -/

/-- Bytes of a slice. -/
def sliceSize : Nat := 2 ^ 21

/-- A read's outcome: its bytes, poison with its source (Table 5.6), or a denial. -/
inductive Rd where
  | ok (bytes : List Byte)
  | poison (source : Nat)
  | denied (what : Nat)
deriving DecidableEq, Repr

/-- R71: the map entry of a logical slice number. -/
def sliceEnt (m : Mach) (t n : Nat) : Option SliceEnt :=
  if 191 < n then none else (tenOf m t).sliceMap.find? (·.logical == n)

/-- R71, R72: the physical pieces of a logical range, or the logical slice that denies it. -/
def slPieces (m : Mach) (t : Nat) (wr : Bool) : Nat → Nat → Nat → Except Nat (List (Nat × Nat))
  | 0, _, _ => .ok []
  | fuel + 1, a, n =>
    if n = 0 then .ok []
    else
      let k := min n (sliceSize - a % sliceSize)
      match sliceEnt m t (a / sliceSize) with
      | none => .error (a / sliceSize)
      | some e =>
        if wr && !e.write then .error (a / sliceSize)
        else
          match slPieces m t wr fuel (a + k) (n - k) with
          | .error x => .error x
          | .ok r => .ok ((e.phys * sliceSize + a % sliceSize, k) :: r)

/-- The pieces of `n` bytes at logical address `a` of tenancy `t`. -/
def slRange (m : Mach) (t : Nat) (wr : Bool) (a n : Nat) : Except Nat (List (Nat × Nat)) :=
  slPieces m t wr (n / sliceSize + 2) a n

/-- R194, R203: some line that a piece touches holds poison. -/
def pieceBad (m : Mach) (pc : Nat × Nat) : Bool :=
  anyIn (pc.1 / 64 * 64) ((pc.1 + pc.2 + 63) / 64 * 64) m.mem.slicePoison

/-- R193: what an array read of a stored byte gives: its word is the byte's, with the bits that have gone wrong turned
over. -/
def storedByte (m : Mach) (a : Nat) (b : Byte) : Option Byte :=
  match smGet a m.mem.sliceErr with
  | 0 => some b
  | e => hamDecode (hamEncode b ^^^ e)

/-- The bytes of pieces, as their words decode. -/
def piecesRead (m : Mach) (ps : List (Nat × Nat)) : List Byte :=
  ps.flatMap fun p =>
    let bs := memRead m.mem.sliceMem p.1 p.2
    if m.mem.sliceErr.isEmpty then bs else bs.zipIdx.map fun x => (storedByte m (p.1 + x.2) x.1).getD x.1

/-- A read of `n` bytes at logical slice address `a` of tenancy `t`. -/
def slRead (m : Mach) (t a n : Nat) : Rd :=
  match slRange m t false a n with
  | .error x => .denied x
  | .ok ps => if ps.any (pieceBad m) then .poison 0 else .ok (piecesRead m ps)

/-! ### Array reads and merging (R79, R82, R194) -/

/-- R194: a line holds a byte that an array read corrects. -/
def lineWrong (m : Mach) (line : Nat) : Bool := m.mem.sliceErr.any fun e => e.1 / 64 == line

/-- Table 19.2: a correctable report recorded, with its store and physical location. -/
def captureCorr (store loc : Nat) : Mach → Mach := captureAt [3, store, loc] 0x08 5 store (le 8 loc)

/-- R82, R194: an array read of a line: one correction is counted where a byte is corrected, and the line is queued for
repair. -/
def arrayRead (line : Nat) (m : Mach) : Mach :=
  if lineWrong m line then
    m |> modEcc (fun e => { e with sramCorrected := bump 32 1 e.sramCorrected, tickSram := bump 32 1 e.tickSram })
      |> captureCorr 0 (64 * line) |> modMem (fun x => { x with sliceRepair := if x.sliceRepair.contains line then x.sliceRepair else x.sliceRepair ++ [line] })
  else m

/-- R79: a read attaches to an open entry. -/
def attachRead : Mach → Mach := modMem fun x => { x with merged := sat 64 (x.merged + 1) }

/-- R79: a read that finds no entry for its line opens one, if one of the slice's 16 is free. -/
def openMerge (slice line : Nat) : Mach → Mach :=
  modMem fun x =>
    if x.merges.countP (·.1 == slice) < 16 then { x with merges := x.merges ++ [(slice, line)] }
    else { x with mergeFull := bump 16 1 x.mergeFull }

/-- R79, R82: one line read by a requester: it attaches to an open entry and is no array read of its own, or opens an entry,
or finds none free. -/
def mergeLine (slice line : Nat) (m : Mach) : Mach :=
  if m.mem.merges.contains (slice, line) then attachRead m
  else m |> openMerge slice line |> arrayRead (slice * 32768 + line)

/-- The lines that physical pieces touch. -/
def pieceLines (ps : List (Nat × Nat)) : List Nat :=
  ps.flatMap fun p => List.range' (p.1 / 64) ((p.1 + p.2 + 63) / 64 - p.1 / 64)

/-- R79, R83: a read of logical bytes, whoever reads them, merges line by line; an atomic's read does not merge. -/
def noteRead (t a n : Nat) (merges : Bool) (m : Mach) : Mach :=
  match slRange m t false a n with
  | .error _ => m
  | .ok ps => forEach (pieceLines ps) (fun l => if merges then mergeLine (l / 32768) (l % 32768) else arrayRead l) m

/-- R82: every poisoned line of a range is being read through an entry whose array read is counted already. -/
def countedBad (m : Mach) (t a n : Nat) : Bool :=
  match slRange m t false a n with
  | .error _ => false
  | .ok ps => (pieceLines ps).all fun l =>
      m.mem.mergeBad.contains (l / 32768, l % 32768) || !anyIn (64 * l) (64 * l + 64) m.mem.slicePoison

/-- R81: the entries of the lines that a write or atomic touches close. -/
def closeMerges (lo hi : Nat) (x : MemSt) : MemSt :=
  let inside (e : Nat × Nat) : Bool := lo < hi && lo / 64 ≤ e.1 * 32768 + e.2 && e.1 * 32768 + e.2 ≤ (hi - 1) / 64
  { x with merges := x.merges.filter (!inside ·), mergeBad := x.mergeBad.filter (!inside ·) }

/-- R72, R177: how far a walk upward from a logical address comes before a slice that denies it. -/
def slReach (m : Mach) (t : Nat) (wr : Bool) : Nat → Nat → Nat → Nat
  | 0, _, _ => 0
  | fuel + 1, a, n =>
    let k := min n (sliceSize - a % sliceSize)
    if n = 0 || !(slRange m t wr a k).isOk then 0 else k + slReach m t wr fuel (a + k) (n - k)

/-- R203: reads of a marked location are counted as such. -/
def countPoison (r : Rd) (m : Mach) : Mach :=
  match r with
  | .poison 0 => modEcc (fun e => { e with sramPoisonRead := bump 16 1 e.sramPoisonRead }) m
  | .poison 1 => modEcc (fun e => { e with hbmPoisonRead := bump 16 1 e.hbmPoisonRead }) m
  | _ => m

/-- R82: the open entries of some lines whose array read was uncorrectable: what attaches to them counts nothing more. -/
def markMerges (lines : List Nat) : Mach → Mach :=
  modMem fun x => { x with mergeBad := ((lines.map fun l => (l / 32768, l % 32768)).filter fun e =>
    x.merges.contains e && !x.mergeBad.contains e) ++ x.mergeBad }

/-- R82, R203: a read of poisoned slice bytes counts as one of a marked location, unless it shares the array reads that
found them. -/
def countBadRead (t a n : Nat) (m : Mach) : Mach :=
  if countedBad m t a n then m
  else
    m |> countPoison (.poison 0)
      |> markMerges (match slRange m t false a n with
          | .ok ps => (pieceLines ps).filter fun l => anyIn (64 * l) (64 * l + 64) m.mem.slicePoison
          | .error _ => [])

/-- R79, R83, R194, R203: a read of slices by Turnip, a ring port or the exchange unit: what it gives, with its merging and
what its array reads count. -/
def slTake (t a n : Nat) (m : Mach) : Rd × Mach :=
  let r := slRead m t a n
  let m := noteRead t a n true m
  match r with
  | .poison _ => (r, countBadRead t a n m)
  | .denied _ => (.denied (node16 m), m)
  | .ok _ => (r, m)

/-- R81, R193, R203: bytes written at a physical slice address, each with its new check field; the bytes' poison and wrong
bits are gone and the lines' merge entries close. -/
def physWrite (a : Nat) (bs : List Byte) (m : Mach) : Mach :=
  let hi := a + bs.length
  modMem (fun x => closeMerges a hi
    { x with
      sliceMem := memWrite a bs x.sliceMem
      slicePoison := delRange a hi x.slicePoison
      sliceErr := smClear a hi x.sliceErr }) m

/-- Bytes written over pieces. -/
def piecesWrite : List (Nat × Nat) → List Byte → Mach → Mach
  | [], _, m => m
  | p :: ps, bs, m => piecesWrite ps (bs.drop p.2) (physWrite p.1 (bs.take p.2) m)

/-- A write at a logical slice address; a denied write is dropped and names its slice (R72). -/
def slWrite (t a : Nat) (bs : List Byte) (m : Mach) : Except Nat Mach :=
  match slRange m t true a bs.length with
  | .error x => .error x
  | .ok ps => .ok (piecesWrite ps bs m)

/-- A write by a module unit into the tenancy's slices; a range the map does not hold is untouched. -/
def slPut (t a : Nat) (bs : List Byte) (m : Mach) : Mach :=
  match slWrite t a bs m with
  | .error _ => m
  | .ok m' => m'

/-- R81, R202, R203: bytes of a logical range written as poison. -/
def slPoison (t a n : Nat) (m : Mach) : Mach :=
  match slRange m t true a n with
  | .error _ => m
  | .ok ps =>
    forEach ps (fun p => modMem fun x => closeMerges p.1 (p.1 + p.2)
      { x with slicePoison := (List.range p.2).foldl (fun l i => insRising (p.1 + i) l) x.slicePoison
               sliceErr := smClear p.1 (p.1 + p.2) x.sliceErr }) m

/-- R162 step 2, R440: a whole physical slice returned to zero. -/
def clearSlice (n : Nat) (m : Mach) : Mach :=
  modMem (fun x =>
    { x with
      sliceMem := smClear (n * sliceSize) ((n + 1) * sliceSize) x.sliceMem
      slicePoison := delRange (n * sliceSize) ((n + 1) * sliceSize) x.slicePoison
      sliceErr := smClear (n * sliceSize) ((n + 1) * sliceSize) x.sliceErr
      merges := x.merges.filter (·.1 != n), mergeBad := x.mergeBad.filter (·.1 != n) }) m

/-! ### Pages and frames (R171 to R173, R190) -/

/-- Bytes of a page. -/
def pageSize : Nat := 2 ^ 21

/-- A page of a tenancy. -/
def findPage (m : Mach) (t n : Nat) : Option Page :=
  m.mem.pages.find? fun p => p.ten == t && p.num == n

/-- A page changed. -/
def modPage (t n : Nat) (f : Page → Page) (m : Mach) : Mach :=
  modMem (fun x => { x with pages := x.pages.map fun p => if p.ten == t && p.num == n then f p else p }) m

/-- Tenancy frames of a tier (Table 7.1). -/
def tierFrames : Tier → Nat
  | .hbm => 913479 | .lp => 447523 | .flash => 5722045 | .zero => 0

/-- Frames of a tier that one page holds: its home, a frame being filled, and the source frames not
yet freed. -/
def pageFrames (t : Tier) (p : Page) : Nat :=
  bit (p.tier == t) + bit (p.mig.any (·.dest == t)) + p.oldFrames.countP (· == t)

/-- The shards being installed in every tenancy. -/
def installs (m : Mach) : List Shard := m.ten.tens.flatMap fun x => x.shards.filter fun s => s.st == .installing || s.st == .hashed

/-- The pages of a shard. -/
def shardPages (s : Shard) : Nat := (s.length + 2 ^ 21 - 1) / 2 ^ 21

/-- R383: a page reserved by an install of the tenancy that has not committed. -/
def reserved (m : Mach) (t n : Nat) : Bool :=
  (tenOf m t).shards.any fun s =>
    (s.st == .installing || s.st == .hashed) && s.blk.basePage ≤ n && n < s.blk.basePage + shardPages s

/-- Frames of a tier in use: those queued for reclaim, those of freed pages still being read and those an install has
filled included. -/
def usedFrames (m : Mach) (t : Tier) : Nat :=
  m.mem.pages.foldl (fun n p => n + pageFrames t p) 0 + m.mem.reclaimQ.countP (·.2 == t) +
    m.mem.lingering.countP (·.2.2 == t) +
    ((installs m).map fun s => s.tiers.countP (· == t)).sum

/-- MEM_TIER_FREE: frames of a tier holding no page. -/
def freeFrames (m : Mach) (t : Tier) : Nat := tierFrames t - usedFrames m t

/-- R190: the flash frames that the flash state lets pages claim; at READ_ONLY those that hold pages. -/
def claimFlash (fs : FlashState) (m : Mach) : Nat :=
  match fs with
  | .normal | .warn => tierFrames .flash
  | .readOnly => m.mem.pages.countP (·.tier == .flash)
  | .offline => 0

/-- R172: the frames that pages may claim. -/
def claimable (fs : FlashState) (m : Mach) : Nat := tierFrames .hbm + tierFrames .lp + claimFlash fs m

/-- R172: the claims held, one for each existing page and each page an install has reserved. -/
def claims (m : Mach) : Nat := m.mem.pages.length + ((installs m).map shardPages).sum

/-- R161: the key index of a tenancy is frozen, or no longer holds a slot. -/
def keyFrozen (m : Mach) (t k : Nat) : Bool := ((tenOf m t).keys[k]?.map (·.frozen)).getD true

/-- R161, R176: the page exists and its key index is not frozen. -/
def pageUsable (m : Mach) (t n : Nat) : Bool :=
  match findPage m t n with
  | none => false
  | some p => !keyFrozen m t p.key

/-- The page numbers of `n` bytes at a device-local offset. -/
def pagesOf (off n : Nat) : List Nat :=
  if n = 0 then [] else List.range' (off / pageSize) ((off + n - 1) / pageSize + 1 - off / pageSize)

/-- The store address of a device-local offset. -/
def devAddr (t off : Nat) : Nat := t * 2 ^ 45 + off

/-- R199: a block of a page in LPDDR5X or flash that is marked poisoned. -/
def blockBad (m : Mach) (t off : Nat) : Bool :=
  match findPage m t (off / pageSize) with
  | none => false
  | some p => (p.tier == .lp || p.tier == .flash) && p.crcBad.contains (off % pageSize / 65536)

/-- The source number of a page's home tier. -/
def tierSource : Tier → Nat
  | .lp => 2 | .flash => 3 | _ => 1

/-- R199, R203: the source of poison in `n` bytes at a device-local offset, if there is any. -/
def devBad (m : Mach) (t off n : Nat) : Option Nat :=
  if anyIn (devAddr t off / 64) ((devAddr t (off + n) + 63) / 64) m.mem.devPoison then some 1
  else
    let bs := List.range' (off / 65536) ((off + n + 65535) / 65536 - off / 65536)
    (bs.find? fun b => blockBad m t (b * 65536)).map fun b =>
      ((findPage m t (b * 65536 / pageSize)).map (tierSource ·.tier)).getD 1

/-! ### What the tiers store (R17, R18, R148, R149, R195) -/

/-- R150, R151: the draw that the keys of a page came from, where its slot holds keys. -/
def pageDraw (m : Mach) (t n : Nat) : Option Nat :=
  (findPage m t n).bind fun p => ((tenOf m t).keys[p.key]?).bind fun k =>
    match m.ten.keySlots[k.slot]? with
    | some (.drawn d) => some d
    | _ => none

/-- R17, R149: a 64-byte unit of a tenancy's range as it stands at the pins of any tier: encrypted under its page's key
slot with the unit's position as its tweak, whatever the tier. -/
def pinUnit (m : Mach) (t unit : Nat) : Option (List Byte) :=
  (pageDraw m t (64 * unit / pageSize)).map fun d =>
    xtsEncrypt (key1 d) (key2 d) unit (memRead m.mem.dev (devAddr t (64 * unit)) 64)

/-- R149: a unit of a stored compressed page image: its position is the page's base plus its index in the image. -/
def pinImageUnit (m : Mach) (t n index : Nat) (unit : List Byte) : Option (List Byte) :=
  (pageDraw m t n).map fun d => xtsEncrypt (key1 d) (key2 d) (n * pageSize / 64 + index) unit

/-- R149: a unit of a module region, by its region offset: the module slot encrypts it. -/
def pinModuleUnit (nv : Nv) (off : Nat) (unit : List Byte) : List Byte :=
  xtsEncrypt (key1 nv.moduleSlot) (key2 nv.moduleSlot) (off / 64) unit

/-- The key of a unit among the units of every range. -/
def unitKey (t off : Nat) : Nat := devAddr t off / 64

/-- R195: the wrong bytes of a stored unit, of its 72. -/
def unitErrs (m : Mach) (k : Nat) : List (Nat × Byte) := smSlice (128 * k) 72 m.mem.devErr

/-- R195: an HBM3E unit as its stack stores it at a physical address: ciphertext and check bytes, with its wrong bytes. -/
def hbmStored (m : Mach) (t unit phys : Nat) : Option (List Byte) :=
  (pinUnit m t unit).map fun c =>
    (unitStored c phys).zipIdx.map fun x => x.1 ^^^ smGet x.2 (unitErrs m (unitKey t (64 * unit)))

/-- R17, R195: what the engine decrypts from a unit whose errors the module code does not see: the ciphertext as it stands
in the stack, under the page's keys. -/
def unitSeen (m : Mach) (t unit : Nat) : List Byte :=
  match pageDraw m t (64 * unit / pageSize), pinUnit m t unit with
  | some d, some c =>
    xtsDecrypt (key1 d) (key2 d) unit (c.zipIdx.map fun x => x.1 ^^^ smGet x.2 (unitErrs m (unitKey t (64 * unit))))
  | _, _ => memRead m.mem.dev (devAddr t (64 * unit)) 64

/-- The bytes of a range as its units decode: a unit whose errors the module code does not see gives what stands there. -/
def devBytes (m : Mach) (t off n : Nat) : List Byte :=
  let bs := memRead m.mem.dev (devAddr t off) n
  if m.mem.devErr.isEmpty then bs
  else bs.zipIdx.map fun x =>
    let a := off + x.2
    if 5 < (unitErrs m (unitKey t a)).length then (unitSeen m t (a / 64)).getD (a % 64) x.1 else x.1

/-- What a range gives to a reader that may read it: poison (R203) or its bytes. -/
def devSee (m : Mach) (t off n : Nat) : Rd :=
  match devBad m t off n with
  | some src => .poison src
  | none => .ok (devBytes m t off n)

/-- R147, R176: a read of `n` bytes at a device-local offset. -/
def devRead (m : Mach) (t off n : Nat) : Rd :=
  if !(pagesOf off n).all (pageUsable m t) then .denied (node16 m) else devSee m t off n

/-- R349: the pseudo-channel, of all 768, of a 256-byte granule of an HBM3E frame address. -/
def hbmChannel (g : Nat) : Nat := (g + 389 * (g / 768)) % 768

/-- R349: the stack of a 64-byte unit's physical number, whose controller owns it. -/
def hbmCtl (unit : Nat) : Nat := hbmChannel (unit / 4) % 24

/-- R349: the pseudo-channel, within its stack, of a 64-byte unit's physical number. -/
def hbmPseudo (unit : Nat) : Nat := hbmChannel (unit / 4) / 24

/-- R197: a correctable unit found on a read or merge is queued at its controller, which holds 64. -/
def queueRepair (phys key : Nat) (m : Mach) : Mach :=
  if m.mem.hbmRepair.contains (phys, key) || 64 ≤ m.mem.hbmRepair.countP (fun x => hbmCtl x.1 == hbmCtl phys) then m
  else modMem (fun x => { x with hbmRepair := x.hbmRepair ++ [(phys, key)] }) m

/-- R192: the pages in flash that a read in place of a range reaches. -/
def noteInPlace (t off n : Nat) (m : Mach) : Mach :=
  let k := (pagesOf off n).countP fun i => (findPage m t i).any (·.tier == .flash)
  { m with chan := { m.chan with readsInPlace := m.chan.readsInPlace + k } }

/-- What a read of a range counts: the units in HBM3E that it corrects, each queued for repair (Table 8.2), and the pages in
flash that it reads in place (R192). -/
def noteDev (t off n : Nat) (m : Mach) : Mach :=
  let ks := ((m.mem.devErr.map fun e => e.1 / 128).dedup).filter fun k =>
    devAddr t off / 64 ≤ k && k ≤ (devAddr t (off + n) - 1) / 64 && 0 < n && (unitErrs m k).length ≤ 3
  m |> modEcc (fun e => { e with hbmCorrected := bump 32 ks.length e.hbmCorrected, tickHbm := bump 32 ks.length e.tickHbm })
    |> forEach ks (fun k m => let phys := (alGet k m.mem.errPlace).getD k; m |> captureCorr 1 (64 * phys) |> queueRepair phys k)
    |> noteInPlace t off n

/-! ### Writing a range (R177, R197 to R200, R203) -/

/-- R198: the CRC-32C of block `b` of a page's plaintext. -/
def blockCrc (m : Mach) (t n b : Nat) : Word32 :=
  crcSparse crcBlock (smSlice (devAddr t (n * pageSize + b * crcBlock)) crcBlock m.mem.dev)

/-- R198: the 32 CRCs of a page. -/
def pageCrcs (m : Mach) (t n : Nat) : List Word32 := (List.range 32).map (blockCrc m t n)

/-- R200: what a byte's change at a place of its block adds to the block's CRC. -/
def crcChange (old new : Byte) (at_ : Nat) : Word32 := if old = new then 0 else crcPart (crcBlock - 1 - at_) (old ^^^ new)

/-- R200: a page's CRCs after bytes written in place, folded in from the old and the new of each byte. -/
def foldCrcs (m : Mach) (t off : Nat) (bs : List Byte) (p : Page) : List Word32 :=
  bs.zipIdx.foldl (fun cs x =>
    let a := off + x.2
    if p.ten == t && p.num == a / pageSize then
      cs.modify (a % pageSize / crcBlock) (· ^^^ crcChange (smGet (devAddr t a) m.mem.dev) x.1 (a % crcBlock))
    else cs) p.crcs

/-- R200: the CRCs of the pages outside HBM that a write reaches in place. -/
def updateCrcs (t off : Nat) (bs : List Byte) (m : Mach) : Mach :=
  modMem (fun x => { x with pages := x.pages.map fun p =>
    if p.ten == t && !p.crcs.isEmpty && (pagesOf off bs.length).contains p.num then { p with crcs := foldCrcs m t off bs p }
    else p }) m

/-- R177, R197, R203: bytes written into a range: the units covered whole lose their poison, every unit written is stored
clean, and a page outside HBM keeps its CRCs (R200); flash frames written in place are counted (R192). -/
def devPut (t off : Nat) (bs : List Byte) (m : Mach) : Mach :=
  let a := devAddr t off
  let lo := a / 64
  let hi := if bs.isEmpty then lo else (a + bs.length + 63) / 64
  { m with chan := { m.chan with inPlace := m.chan.inPlace +
      (pagesOf off bs.length).countP fun n => (findPage m t n).any (·.tier == .flash) } }
    |> updateCrcs t off bs
    |> modMem (fun x =>
        { x with dev := memWrite a bs x.dev
                 devPoison := delRange ((a + 63) / 64) ((a + bs.length) / 64) x.devPoison
                 devErr := smClear (128 * lo) (128 * hi) x.devErr
                 hbmRepair := x.hbmRepair.filter fun r => !(lo ≤ r.2 && r.2 < hi) })

/-- R177, R197: the first byte of a write that lies in a unit it covers only in part and whose old bytes are uncorrectable,
counted from the write's start. -/
def partialAt (m : Mach) (t off n : Nat) : Option Nat :=
  let a := devAddr t off
  let e := a + n
  if n = 0 then none
  else if (a % 64 != 0 || e / 64 == a / 64 && e % 64 != 0) && m.mem.devPoison.contains (a / 64) then some 0
  else if e % 64 != 0 && m.mem.devPoison.contains (e / 64) then some (e / 64 * 64 - a)
  else none

/-- R197: a write that covers part of a poisoned unit writes nothing of that unit. -/
def partialBad (m : Mach) (t off n : Nat) : Bool := (partialAt m t off n).isSome

/-- R177, R197: a write walked upward as far as a unit that its merge cannot read; a correctable unit that a merge reads is
counted. -/
def devMerge (t off : Nat) (bs : List Byte) (m : Mach) : Mach :=
  let a := devAddr t off
  let m := noteDev t off (if a % 64 = 0 then 0 else min bs.length (64 - a % 64)) m
  let m := noteDev t (off + bs.length - (a + bs.length) % 64)
    (if a / 64 = (a + bs.length) / 64 && a % 64 != 0 then 0 else (a + bs.length) % 64) m
  match partialAt m t off bs.length with
  | none => devPut t off bs m
  | some k => devPut t off (bs.take k) m

/-- A page's contents returned to zero, with its poison and wrong bytes (R173, R175, R203). -/
def clearPage (t n : Nat) (m : Mach) : Mach :=
  let lo := devAddr t (n * pageSize)
  modMem (fun x => { x with dev := smClear lo (lo + pageSize) x.dev
                            devPoison := delRange (lo / 64) ((lo + pageSize) / 64) x.devPoison
                            devErr := smClear (2 * lo) (2 * (lo + pageSize)) x.devErr
                            hbmRepair := x.hbmRepair.filter fun r => !(lo / 64 ≤ r.2 && r.2 < (lo + pageSize) / 64) }) m

/-- R200, R241: a page written with zeros where it is: outside HBM its CRCs follow. -/
def zeroPage (t n : Nat) (m : Mach) : Mach :=
  m |> clearPage t n |> modPage t n (fun p => { p with crcs := p.crcs.map fun _ => crcSparse crcBlock [] })

/-- A touch: the page's last-touch tick becomes the tick in progress. -/
def touchPage (t n : Nat) (m : Mach) : Mach :=
  modPage t n (fun p => { p with lastTouch := m.tick.count }) m

/-- R183: a migration asked for, unless it is under way or asked for already. -/
def askMove (t n : Nat) (dest : Tier) (m : Mach) : Mach :=
  match findPage m t n with
  | none => m
  | some p =>
    if p.tier == dest || p.mig.any (·.dest == dest) then m
    else if m.mem.asks.any (fun a => a.ten == t && a.page == n && a.dest == dest) then
      modMem (fun x => { x with asks := x.asks.map fun a =>
        if a.ten == t && a.page == n && a.dest == dest then { a with victim := false } else a }) m
    else modMem (fun x => { x with asks := x.asks ++ [{ ten := t, page := n, dest }] }) m

/-- R182, R251: a victim's demotion asked for, which the page's pin or a unit that names it may still stop. -/
def askVictim (t n : Nat) (dest : Tier) (m : Mach) : Mach :=
  match findPage m t n with
  | none => m
  | some p =>
    if p.tier == dest || p.mig.isSome || m.mem.asks.any (fun a => a.ten == t && a.page == n && a.dest == dest) then m
    else modMem (fun x => { x with asks := x.asks ++ [{ ten := t, page := n, dest, victim := true }] }) m

/-- R184: a page of the commands under way that `which` names is settled: it has come to a tier, or its move was abandoned or
refused.  A MEM_DEMOTE counts the pages that did not come, the others those that did; a command whose own move of the page is
still asked for goes on waiting. -/
def settleWhere (which : MoveCmd → Bool) (t n : Nat) (at_ : Option Tier) : Mach → Mach :=
  modMem fun x => { x with moves := x.moves.map fun c =>
    let came := at_ == some c.dest
    let waits := at_.isSome && x.asks.any fun a => a.ten == t && a.page == n && a.dest == c.dest
    if c.ten == t && c.left.contains n && which c && (came || !waits) then
      { c with left := c.left.filter (· != n), count := if (c.op == 0x53) == came then c.count else c.count + 1 }
    else c }

/-- R184: a page of every command under way is settled. -/
def settlePage (t n : Nat) (at_ : Option Tier) : Mach → Mach := settleWhere (fun _ => true) t n at_

/-- R184: a page's move to one tier does not happen: the commands that asked for that move settle it. -/
def settleMiss (t n : Nat) (dest : Tier) : Mach → Mach := settleWhere (·.dest == dest) t n none

/-- R184: pages pinned in a tier. -/
def pinned (m : Mach) (pin : Nat) : Nat := m.mem.pages.countP (·.pin == pin)

/-- R184: the most pages that may be pinned. -/
def pinLimit (pin : Nat) : Nat := if pin = 1 then 822131 else 402770

/-- R251, R254: a pool page in HBM is pinned there, or held unpinned where the limit of R184 stops the pin. -/
def pinPoolPage (t n : Nat) (m : Mach) : Mach :=
  match findPage m t n with
  | none => m
  | some g => if g.claim = 1 && g.tier == .hbm && pinned m 1 < pinLimit 1 then modPage t n (fun g => { g with pin := 1 }) m else m

/-- R179, R187: the migrations asked for or in flight for a page are abandoned: the destination frame returns to the pool and
the commands that wait for the page settle it. -/
def dropMove (t n : Nat) (m : Mach) : Mach :=
  m |> modPage t n (fun g => { g with mig := none, asked := false })
    |> modMem (fun x => { x with asks := x.asks.filter fun a => !(a.ten == t && a.page == n) })
    |> settlePage t n none |> pinPoolPage t n

/-- The tier a ZERO page materialises in. -/
def zeroTier (p : Page) : Tier := if p.pin = 2 then .lp else .hbm

/-- R173, R198, R203: a ZERO page takes a frame of its pinned tier, filled with zeros; one outside HBM carries CRCs. -/
def fillZero (p : Page) : Page :=
  { p with tier := zeroTier p, crcs := if p.pin = 2 then List.replicate 32 (crcSparse crcBlock []) else [] }

/-- R173: a ZERO page is filled for its first write. -/
def materialise (t n : Nat) (m : Mach) : Mach :=
  match findPage m t n with
  | some p => if p.tier == .zero then m |> clearPage t n |> modPage t n fillZero |> pinPoolPage t n else m
  | none => m

/-- The pages of a tenancy bound to a key index. -/
def pagesOfKey (m : Mach) (t k : Nat) : List Page :=
  m.mem.pages.filter fun p => p.ten == t && p.key == k

end Sys2Proof.Machine
end

