-- ==== Sys2Proof/Machine/Units.lean ====
section
/-! DEFINITION. Work units on the peas: the descriptor queue, GO, the descriptors RUN, WAIT and POST,
and how a unit ends (R48, R50, R64 to R67, R84 to R87, R112). -/

namespace Sys2Proof.Machine

/-! ### Trouble counts (R112, R115) -/

/-- Counts added, each saturating at 32 bits (Table 5.13), cycles at 64; the rate denominators, which no register shows,
saturate at 64. -/
def addTrouble (a b : Trouble) : Trouble :=
  { sat := bump 32 a.sat b.sat, ovf := bump 32 a.ovf b.ovf, ufl := bump 32 a.ufl b.ufl
    invalid := bump 32 a.invalid b.invalid, spill := bump 64 a.spill b.spill
    elements := bump 64 a.elements b.elements, groups := bump 64 a.groups b.groups
    nonzero := bump 64 a.nonzero b.nonzero }

/-- The account of a layer of a context; one never used holds zeros, its window open since the context was. -/
def layerAcct (x : Ctx) (n : Nat) : LayerAcct := (x.layers.find? (·.layer == n)).getD { layer := n, wOpened := x.openTick }

/-- One layer's account changed. -/
def modAcct (c n : Nat) (f : LayerAcct → LayerAcct) : Mach → Mach :=
  modCtx c fun x => { x with layers := f (layerAcct x n) :: x.layers.filter (·.layer != n) }

/-- R112, R114, R115: counts added to a layer's account, its window and the module totals. -/
def addCounts (c layer : Nat) (k : Trouble) (m : Mach) : Mach :=
  m |> modAcct c layer (fun a => { a with total := addTrouble k a.total, win := addTrouble k a.win })
    |> modMem (fun x =>
        { x with precSat := bump 16 k.sat x.precSat, precOvf := bump 16 k.ovf x.precOvf
                 precUfl := bump 16 k.ufl x.precUfl, precInvalid := bump 8 k.invalid x.precInvalid })

/-- R112: the tile in progress ends; its counts are held and added to the layer's account.  The spec does not say which layer
takes the counts of a tile in which LAYER ran midway, or that has none: the layer selected at its end takes them, and with
none selected they are held only (DESIGN CHOICE, log 138). -/
def endTile (p : Nat) (m : Mach) : Mach :=
  let a := peaOf m p
  let m := modPea p (fun a => { a with lastTile := a.tile, tile := {} }) m
  match a.active with
  | some u => if a.layerSet then addCounts u.ctx a.layerSel a.tile m else m
  | none => m

/-! ### Ending a unit -/

/-- R64: a completion latched as a class 5 input. -/
def latchDone (d : DoneIn) (m : Mach) : Mach :=
  m |> modLat (fun l => { l with dones := l.dones ++ [d] })
    |> captureAt [4, d.ctx, d.seq] 0x07 5 d.unit (le 4 d.seq ++ le 1 (statusCode d.status))

/-- The active unit of a pea ends with a status: its tile ends, its completion is latched and the
half is empty. -/
def endUnit (p : Nat) (st : Status) (detail : Nat) (m : Mach) : Mach :=
  match (peaOf m p).active with
  | none => m
  | some u =>
    m |> endTile p
      |> modPea p (fun a => { a with active := none, st := .idle, warmHold := false, fatomHeld := none })
      |> latchDone { ctx := u.ctx, seq := u.seq, status := st, detail, unit := u.unit, phase := u.phase,
                     expertQ := u.expertQ, gen := u.gen }

/-- Table 5.6: DETAIL of INVALID, the descriptor's index and the unit's number. -/
def invalidDetail (a : Pea) : Nat :=
  match a.active with
  | none => 0
  | some u => a.ix + 2 ^ 8 * (u.unit % 2 ^ 24)

/-- R67, R99, R111: the unit ends with INVALID. -/
def endInvalid (p : Nat) (m : Mach) : Mach := endUnit p .invalid (invalidDetail (peaOf m p)) m

/-- R72: a denied access ends the unit with DENIED, naming the logical slice, and is counted. -/
def endDenied (p what : Nat) (m : Mach) : Mach :=
  let c := ((peaOf m p).active.map (·.ctx)).getD 0
  m |> modMem (fun x => { x with denied := bump 16 1 x.denied })
    |> modCtx c (fun x => { x with denied := bump 32 1 x.denied })
    |> endUnit p .denied what

/-- R202, R203: a poisoned read ends the unit with POISONED. -/
def endPoisoned (p source : Nat) (m : Mach) : Mach :=
  m |> countPoison (.poison source) |> endUnit p .poisoned source

/-- The tenancy of a pea's active unit. -/
def peaTen (m : Mach) (p : Nat) : Nat := ((peaOf m p).active.map (·.ten)).getD 48

/-- The context of a pea's active unit. -/
def peaCtx (m : Mach) (p : Nat) : Nat := ((peaOf m p).active.map (·.ctx)).getD 0

/-- R412: activity counted for the context of a pea's unit. -/
def charge (p : Nat) (f : Account → Account) (m : Mach) : Mach := modCtx (peaCtx m p) (fun c => { c with acct := f c.acct }) m

/-- R412: slice bytes read or written by a pea. -/
def chargeBytes (p n : Nat) : Mach → Mach := charge p fun a => { a with sliceBytes := a.sliceBytes + n }

/-- R82, R203: a pea's read of poisoned slice bytes ends its unit; it counts as a read of a marked location, unless it
shares the array read that found them. -/
def endBadRead (p a n : Nat) (m : Mach) : Mach :=
  m |> countBadRead (peaTen m p) a n |> endUnit p .poisoned 0

/-- A pea access of its tenancy's slices that reads: what follows gets the bytes, and a refusal ends the unit. -/
def peaAccess (merges : Bool) (p a n : Nat) (k : List Byte → Mach → Mach) (m : Mach) : Mach :=
  let m' := noteRead (peaTen m p) a n merges m
  match slRead m (peaTen m p) a n with
  | .ok bs => k bs (chargeBytes p n m')
  | .poison _ => endBadRead p a n m'
  | .denied x => endDenied p x m

/-- R75, R79: a pea's read, which merges line by line. -/
def peaRead (p a n : Nat) (k : List Byte → Mach → Mach) (m : Mach) : Mach := peaAccess true p a n k m

/-- R69, R72: the read of a pea's atomic, denied before the slice is touched where its write would be. -/
def peaTake (p a n : Nat) (k : List Byte → Mach → Mach) (m : Mach) : Mach :=
  match slRange m (peaTen m p) true a n with
  | .error x => endDenied p x m
  | .ok _ => peaAccess false p a n k m

/-- A pea write of its tenancy's slices; a refusal ends the unit and writes nothing. -/
def peaWrite (p a : Nat) (bs : List Byte) (k : Mach → Mach) (m : Mach) : Mach :=
  match slWrite (peaTen m p) a bs m with
  | .ok m' => k (chargeBytes p bs.length m')
  | .error x => endDenied p x m

/-! ### The descriptor queue (R64 to R66) -/

/-- A unit as queue entries spell it: entries 0 up to the first LAST, an entry never written being
one of a reserved KIND. -/
def unitDescs (pend : List (Nat × Desc)) (c u : Nat) : Nat → Nat → List Desc
  | 0, _ => []
  | fuel + 1, i =>
    match alGet i pend with
    | none => { ctx := c, unit := u, body := .reserved } :: unitDescs pend c u fuel (i + 1)
    | some d => if d.last then [d] else d :: unitDescs pend c u fuel (i + 1)

/-- The unit that a marked half holds, for a half that Turnip wrote entry by entry.  Its request, which the entries do not
name, is the first unfinalised step of entry 0's context (log 99). -/
def unitOf (m : Mach) (pend : List (Nat × Desc)) : WUnit :=
  let d := alGet 0 pend
  let c := (d.map (·.ctx)).getD 0
  let u := (d.map (·.unit)).getD 0
  let x := ctxOf m c
  let seq := ((m.stp.steps.find? (·.ctx == c)).map (·.seq)).getD 0
  { ctx := c, ten := x.ten, seq, unit := u, descs := unitDescs pend c u 32 0,
    layers := x.recipes, gen := x.cmpCurrent, touch := x.touch, stallMs := x.stallLimitMs, cut := m.tick.count }

/-- R65: a write of Turnip to the pending half of a pea's queue. -/
def queueWrite (p : Nat) (w : QueueWrite) (m : Mach) : Mach :=
  let a := peaOf m p
  let reject := modMem (fun x => { x with pendReject := bump 16 1 x.pendReject }) m
  match w with
  | .withdraw => modPea p (fun a => { a with pend := [], pendUnit := none, ready := false }) m
  | .entry i d => if a.ready then reject else modPea p (fun a => { a with pend := alSet i d a.pend }) m
  | .ready =>
    if a.ready then reject
    else if a.pend.any (·.2.last) then
      modPea p (fun a => { a with ready := true, pendUnit := some (unitOf m a.pend) }) m
    else m

/-- R48, R65: a unit cut for a pea fills its pending half and marks it READY. -/
def issueUnit (p : Nat) (u : WUnit) : Mach → Mach :=
  modPea p fun a =>
    { a with pend := (List.range u.descs.length).zip u.descs, pendUnit := some u, ready := true }

/-- R48, R501: the cut and unstarted units that satisfy `q` are withdrawn. -/
def withdrawUnits (q : Nat → WUnit → Bool) (m : Mach) : Mach :=
  { m with peas := m.peas.mapIdx fun p a =>
      match a.pendUnit with
      | some u => if q p u then { a with pend := [], pendUnit := none, ready := false } else a
      | none => a }

/-- R48: a unit cut in a tick starts at a later boundary. -/
def cutBefore (m : Mach) (a : Pea) : Bool := a.pendUnit.all fun u => u.cut < m.tick.count

/-- R66: one queue at GO; a unit of the group does not start while tick sync is lost (R38), nor one cut in the tick that GO
opens (R48). -/
def goPea (m : Mach) (p : Nat) (a : Pea) : Pea :=
  if a.ready && cutBefore m a && !(m.tick.lost && a.pendUnit.any fun u => groupCtx m u.ctx) && a.active.isNone
      && !m.pwr.gated.contains (p / 4) && !m.pwr.ungating.contains (p / 4) then
    { a with active := a.pendUnit, pend := [], pendUnit := none, ready := false, st := .staged, ix := 0,
             startTick := m.tick.count }
  else a

/-- R66: GO, once in each tick, multicast to every queue; nothing new starts in FAULT (R21). -/
def goAll (m : Mach) : Mach :=
  if m.tick.goDone || !turnipRuns m || !isUp m || m.life.mode == .fault then m
  else
    { m with peas := m.peas.mapIdx (goPea m), tick := { m.tick with goDone := true } }

/-- R154: a pea's registers at zero, its matrix engine cold (R85). -/
def clearPea (a : Pea) : Pea :=
  { a with cold := true, warmHold := false, layerSel := 0, layerSet := false, named := [], alignFailed := false,
           tile := {}, lastTile := {}, scalar := [], vector := [], acc := [], weights := [], acts := [],
           prog := [], hadStall := false, hadFabric := false, hadClock := false }

/-- R84, R154: the pea starts the unit that GO gave it. -/
def staggerStart (p : Nat) (m : Mach) : Mach :=
  match (peaOf m p).st with
  | .staged => modPea p (fun a => { clearPea a with st := .ready, ix := 0 }) m
  | _ => m

/-! ### Descriptors in order (R64, R67) -/

/-- The descriptor in progress. -/
def curDesc (a : Pea) : Option Desc := a.active.bind fun u => u.descs[a.ix]?

/-- R64: the descriptor in progress completes; after LAST the unit only awaits its completion. -/
def descDone (p : Nat) : Mach → Mach :=
  modPea p fun a =>
    match curDesc a with
    | none => a
    | some d => if d.last then { a with st := .done } else { a with st := .ready, ix := a.ix + 1 }

/-- A running program executes END. -/
def runEnds (p : Nat) (m : Mach) : Mach := if (peaOf m p).st == .run then descDone p m else m

/-- R300: the skipped RUN of an early expert unit is counted. -/
def countSkip (p : Nat) (m : Mach) : Mach :=
  if ((peaOf m p).active.bind (·.expertQ)).any (·.2.2) then modStp (fun x => { x with skipped := bump 16 1 x.skipped }) m
  else m

/-- R64, R67: GATED descriptors whose count reads zero are skipped; a reserved one ends the unit. -/
def skipGated (p : Nat) : Nat → Mach → Mach
  | 0, m => m
  | fuel + 1, m =>
    let a := peaOf m p
    if a.st != .ready then m
    else
      match curDesc a with
      | none => m
      | some d =>
        if d.body == .reserved then endInvalid p m
        else if d.gated then
          peaRead p d.gateAddr 4 (fun bs m => if unle bs = 0 then skipGated p fuel (descDone p (countSkip p m)) else m) m
        else m

/-- The pea brought to the next descriptor that runs. -/
def settlePea (p : Nat) (m : Mach) : Mach := skipGated p 33 (runEnds p m)

/-- The body of the descriptor about to run. -/
def nextBody (m : Mach) (p : Nat) : Option DescBody :=
  let a := peaOf m p
  if a.st == .ready then (curDesc a).map (·.body) else none

/-- R64, Table 3.4: a RUN descriptor loads its program from a slice and runs it. -/
def runDesc (p : Nat) (m : Mach) : Mach :=
  let m := settlePea p m
  match nextBody m p with
  | some (.run prog _ _) =>
    let n := min 32768 (sliceSize - prog % sliceSize)
    match slRange m (peaTen m p) false prog n with
    | .error x => endDenied p x m
    | .ok ps =>
      let m := noteRead (peaTen m p) prog n true m
      if ps.any (pieceBad m) then endBadRead p prog n m
      else
        m |> chargeBytes p n |> modPea p (fun a =>
          { a with st := .run,
                   prog := match ps with
                     | [q] => smSlice q.1 q.2 m.mem.sliceMem
                     | _ => [] })
  | _ => m

/-- R298: bytes of a control area. -/
def ctrlSize (l : LayoutBlk) : Nat := (16 + 16 * l.sources.length + 63) / 64 * 64

/-- The layout that a queue serves. -/
def queueLayout (m : Mach) (k : Queue) : Option Layout :=
  (ctxOf m k.ctx).layouts.find? (·.blk.layoutId == k.blk.layoutId)

/-- R53: the counter at a slice address is advanced by completions or messages from other modules: it belongs to an open
collective round (R375), for which a WAIT begun before it waits too, or stands in an expert queue's control buffers (R298). -/
def remoteCounter (m : Mach) (t addr : Nat) : Bool :=
  (m.ctxs.any fun x => x.ten == t && x.colls.any fun k => k.isOpen && k.counterAddr == addr) ||
    (tenOf m t).queues.any fun k => (queueLayout m k).any fun l =>
      k.blk.ctrl ≤ addr && addr < k.blk.ctrl + 2 * ctrlSize l.blk

/-- R64: the WAIT about to run, or waiting, tests its counter. -/
def testWait (p addr target : Nat) (m : Mach) : Mach :=
  peaRead p addr 4 (fun bs m =>
    if target ≤ unle bs then descDone p m
    else modPea p (fun a => { a with st := .waiting, hadFabric := a.hadFabric || remoteCounter m (peaTen m p) addr }) m) m

/-- R64: a WAIT descriptor starts. -/
def waitDesc (p : Nat) (m : Mach) : Mach :=
  let m := settlePea p m
  match nextBody m p with
  | some (.wait addr target) => testWait p addr target m
  | _ => m

/-- R64: a waiting WAIT looks at its counter again, and the descriptors behind it are settled. -/
def waitAgain (p : Nat) (m : Mach) : Mach :=
  let a := peaOf m p
  if a.st == .waiting then
    match (curDesc a).map Desc.body with
    | some (.wait addr target) => skipGated p 33 (testWait p addr target m)
    | _ => m
  else m

/-- R64: a POST descriptor adds to its counter, wrapping at 32 bits.  R69 gives atomics on naturally aligned words only and
no rule for another address: the add is made there all the same (log 53). -/
def postDesc (p : Nat) (m : Mach) : Mach :=
  let m := settlePea p m
  match nextBody m p with
  | some (.post addr inc) =>
    peaTake p addr 4 (fun bs m =>
      peaWrite p addr (le 4 ((unle bs + inc) % 2 ^ 32)) (fun m => skipGated p 33 (descDone p m)) m) m
  | _ => m

/-- R64: a unit whose LAST descriptor has completed completes with OK. -/
def completeUnit (p : Nat) (m : Mach) : Mach :=
  let m := settlePea p m
  if (peaOf m p).st == .done then endUnit p .ok 0 m else m

/-! ### Align groups (R86, R87) -/

/-- R86, R87: the peas of a round go on with their programs.  Two points the spec leaves open (DESIGN CHOICE, log 100): every
engine is warm on release, also a cold one, with no stagger slot and no governor check; and ALIGN_FAIL in a sequencer's
status stands until the pea's next completed round or its next unit. -/
def releasePeas (ps : List Nat) (failed : Bool) (m : Mach) : Mach :=
  forEach ps (fun p => modPea p fun a =>
    { a with st := .run, warmHold := false, cold := false, alignFailed := failed }) m

/-- R87: a round of a tenancy fails: its peas are released, and the failure is counted once. -/
def failRound (t g : Nat) (also : List Nat) (m : Mach) : Mach :=
  match (tenOf m t).aligns.find? (·.group == g) with
  | none => m
  | some r =>
    let ps := r.peas ++ also
    let cs := (ps.map (peaCtx m)).dedup
    m |> modTen t (fun x => { x with aligns := x.aligns.filter (·.group != g) })
      |> releasePeas ps true
      |> modMem (fun x => { x with alignFail := bump 16 1 x.alignFail })
      |> forEach cs (fun c => modCtx c fun x => { x with alignFail := bump 32 1 x.alignFail })

/-- R86: a pea arrives at an align group.  `n` outside 2 to 192 is neither refused nor given a meaning by the spec: the pea
waits for the round's failure (DESIGN CHOICE, log 101). -/
def arrive (p g n : Nat) (m : Mach) : Mach :=
  let t := peaTen m p
  let hold := modPea p fun a => { a with st := .aligned, warmHold := true }
  match (tenOf m t).aligns.find? (·.group == g) with
  | none => m |> hold |> modTen t (fun x => { x with aligns := { group := g, n, peas := [p] } :: x.aligns })
  | some r =>
    if r.n ≠ n then failRound t g [p] m
    else if r.peas.length + 1 = n then
      m |> modTen t (fun x => { x with aligns := x.aligns.filter (·.group != g) })
        |> releasePeas (r.peas ++ [p]) false
    else
      m |> hold |> modTen t (fun x => { x with aligns := x.aligns.map fun r =>
                      if r.group == g then { r with peas := r.peas ++ [p] } else r })

/-- A pea whose program is running. -/
def peaRuns (m : Mach) (p : Nat) : Bool := (peaOf m p).st == .run && isUp m

end Sys2Proof.Machine
end

