-- ==== Sys2Proof/Machine/Peas.lean ====
section
/-! DEFINITION. Commands of the peas, their queues and the slices: PEA_LOAD to ALIGN_FAIL, GO, and the
descriptors RUN, WAIT and POST. -/

namespace Sys2Proof.Machine

/-- A command that touches neither the queue nor what no reset clears. -/
def onM (f : Mach → Mach) (s : State) : Host.Outcome State Fault Refusal := .next { s with m := f s.m }

/-- A command of the running module: while the module is held, shut down or removed, nothing happens. -/
def onUp (f : Mach → Mach) : State → Host.Outcome State Fault Refusal :=
  onM fun m => if isUp m then f m else m

/-- Words of four bytes. -/
def words4 (bs : List Byte) : List Word32 := (chunksOf 4 bs.length bs).map fun b => BitVec.ofNat 32 (unle b)

/-- The bytes of words. -/
def bytes4 (ws : List Word32) : List Byte := ws.flatMap fun w => le 4 w.toNat

/-- R13, Table 3.1: bytes of a slice put into a pea's registers. -/
def fillPea (dst : PeaDst) (bs : List Byte) (a : Pea) : Pea :=
  match dst with
  | .scalar r => { a with scalar := smSet r (BitVec.ofNat 64 (unle bs)) a.scalar }
  | .vector r => { a with vector := smWrite (64 * r) (words4 bs) a.vector }
  | .weights off => { a with weights := memWrite off bs a.weights }
  | .acts off => { a with acts := memWrite off bs a.acts }

/-- R75, R79: a pea reads a slice; the read merges line by line. -/
def peaLoad (p a n : Nat) (dst : PeaDst) (m : Mach) : Mach :=
  if peaRuns m p then peaRead p a n (fun bs => modPea p (fillPea dst bs)) m else m

/-- R75: a pea writes bytes of a slice. -/
def peaStore (p a : Nat) (bs : List Byte) (m : Mach) : Mach :=
  if peaRuns m p then peaWrite p a bs id m else m

/-- R69: the value an atomic leaves in a word of `w` bits that holds `v`. -/
def atomicOp (w : Nat) (op : AtomicOp) (v a b : BitVec w) : BitVec w :=
  match op with
  | .add => v + a
  | .minS => if v.slt a then v else a
  | .minU => if v.ult a then v else a
  | .maxS => if v.slt a then a else v
  | .maxU => if v.ult a then a else v
  | .swap => a
  | .cas => if v = a then b else v

/-- R69: an atomic on a word of four or eight bytes, as numbers. -/
def atomicNat (wide : Bool) (op : AtomicOp) (v a b : Nat) : Nat :=
  if wide then (atomicOp 64 op (BitVec.ofNat 64 v) (BitVec.ofNat 64 a) (BitVec.ofNat 64 b)).toNat
  else (atomicOp 32 op (BitVec.ofNat 32 v) (BitVec.ofNat 32 a) (BitVec.ofNat 32 b)).toNat

/-- Bytes of an atomic's word. -/
def atomicSize (wide : Bool) : Nat := if wide then 8 else 4

/-- R69: a pea's atomic on a naturally aligned word; the word's old value goes to scalar `rd`.  How a 32-bit old value
fills the 64-bit register is not said: it is zero-extended (DESIGN CHOICE, log 95). -/
def sliceAtomic (p a : Nat) (wide : Bool) (op : AtomicOp) (x y : Word64) (rd : Nat) (m : Mach) : Mach :=
  let n := atomicSize wide
  if !peaRuns m p || a % n != 0 then m
  else
    peaTake p a n (fun bs m =>
      peaWrite p a (le n (atomicNat wide op (unle bs) x.toNat y.toNat))
        (modPea p fun q => { q with scalar := smSet rd (BitVec.ofNat 64 (unle bs)) q.scalar }) m) m

/-- R406: the mean of the previous 100 µs of samples in W, zero before the first sample. -/
def meanPower (m : Mach) : Nat :=
  let w := m.pwr.window.take 10
  w.sum / (100000 * max 1 w.length)

/-- R406: the ramp governor's verdict on one more start, from firmware's modelled power. -/
def governorAdmits (m : Mach) : Bool := Config.modelledPowerW m.stp.choices ≤ meanPower m + 150

/-- R85: a cold engine's first MAC at a slot that the governor admits. -/
def coldStart (p : Nat) (m : Mach) : Mach :=
  if (peaOf m p).cold && peaRuns m p then
    let ok := governorAdmits m
    m |> modStp (fun x => { x with choices := x.choices + 1 })
      |> modPea p (fun a => { a with cold := !ok })
      |> modPwr (fun x => if ok then x else { x with deferred := bump 16 1 x.deferred })
  else m

/-- R66: GO. -/
def execGo (s : State) : Host.Outcome State Fault Refusal := onUp goAll s
/-- R84: a pea starts its unit. -/
def execPeaStaggerStart (pea : Nat) (s : State) : Host.Outcome State Fault Refusal := onUp (staggerStart pea) s
/-- R85: a cold engine starts. -/
def execEngineColdStart (pea : Nat) (s : State) : Host.Outcome State Fault Refusal := onUp (coldStart pea) s
/-- R85: an engine idle for 1 µs is cold, except in warm hold (R86). -/
def execMatrixEngineCold (pea : Nat) (s : State) : Host.Outcome State Fault Refusal :=
  onUp (modPea pea fun a => { a with cold := a.cold || !a.warmHold }) s
/-- R65: a write of Turnip to a descriptor queue. -/
def execTurnipQueueWrite (pea : Nat) (w : QueueWrite) (s : State) : Host.Outcome State Fault Refusal :=
  onUp (queueWrite pea w) s
/-- R64: a unit completes. -/
def execWorkUnitComplete (pea : Nat) (s : State) : Host.Outcome State Fault Refusal := onUp (completeUnit pea) s
/-- R64: RUN. -/
def execDescRun (pea : Nat) (s : State) : Host.Outcome State Fault Refusal := onUp (runDesc pea) s
/-- R64: WAIT. -/
def execDescWait (pea : Nat) (s : State) : Host.Outcome State Fault Refusal := onUp (waitDesc pea) s
/-- R64: a waiting WAIT is satisfied. -/
def execDescWaitSatisfied (pea : Nat) (s : State) : Host.Outcome State Fault Refusal := onUp (waitAgain pea) s
/-- R64: POST. -/
def execDescPost (pea : Nat) (s : State) : Host.Outcome State Fault Refusal := onUp (postDesc pea) s
/-- R75: a pea's slice read. -/
def execPeaLoad (pea addr len : Nat) (dst : PeaDst) (s : State) : Host.Outcome State Fault Refusal :=
  onUp (peaLoad pea addr len dst) s
/-- R75: a pea's slice write. -/
def execPeaStore (pea addr : Nat) (data : List Byte) (s : State) : Host.Outcome State Fault Refusal :=
  onUp (peaStore pea addr data) s
/-- R69: a slice atomic. -/
def execSliceAtomic (pea addr : Nat) (wide : Bool) (op : AtomicOp) (a b : Word64) (rd : Nat) (s : State) :
    Host.Outcome State Fault Refusal := onUp (sliceAtomic pea addr wide op a b rd) s
/-- R63: FENCE.  A model in which a write is applied when it is issued has nothing to wait for, so
FENCE completes and changes nothing. -/
def execFence (pea : Nat) (s : State) : Host.Outcome State Fault Refusal := onUp (modPea pea id) s
/-- R86: ALIGN. -/
def execAlign (pea g n : Nat) (s : State) : Host.Outcome State Fault Refusal :=
  onUp (fun m => if peaRuns m pea then arrive pea g n m else m) s
/-- R87: an align round is not complete after 8 µs. -/
def execAlignFail (ten g : Nat) (s : State) : Host.Outcome State Fault Refusal := onUp (failRound ten g []) s
/-- R79: a merge entry's window ends. -/
def execMergeEntryClose (slice line : Nat) (s : State) : Host.Outcome State Fault Refusal :=
  onUp (modMem fun x => { x with merges := x.merges.filter (· != (slice, line)), mergeBad := x.mergeBad.filter (· != (slice, line)) }) s

end Sys2Proof.Machine
end

