-- ==== Sys2Proof/Machine/PowerView.lean ====
section
/-! DEFINITION. The limit in force, the mean input power and the POWER and THERMAL events (R390, R395,
R415). -/

namespace Sys2Proof.Machine

/-- R395: LIMIT_W. -/
def limitW (x : PwrSt) : Nat := min (min x.capW x.ceilingW) (if x.alarm then 900 else 1600)

/-- R390: the average input power over the last 20 ms, of the samples there are. -/
def avgW (x : PwrSt) : Nat := x.window.sum / (100000 * max 1 x.window.length)

/-- R420: ms left on the lease. -/
def leaseLeft (m : Mach) : Nat := if m.pwr.leased then (m.pwr.leaseEndUs - m.tick.nowUs) / 1000 else 0

/-- R401: a clamp holds. -/
def clamped (x : PwrSt) : Bool := !x.clamps.isEmpty

/-- The inlet temperature in whole °C. -/
def coolantC (x : PwrSt) : Nat := ((x.coolantTenths / 10) % 256).toNat

/-- Table 16.4: the POWER body. -/
def powerBody (x : PwrSt) : List Byte :=
  le 2 x.powerCause.toNat ++ le 1 x.localStep ++ le 1 x.groupStep ++ le 1 x.reqStep ++ le 1 x.reqCause.toNat ++
    le 2 (limitW x) ++ le 2 x.ceilingW ++ le 2 (sat 16 (avgW x)) ++ le 2 x.limitNode ++ le 1 x.nextPace ++
    le 1 (bit (clamped x) + 2 * bit x.floor)

/-- Table 16.4: the THERMAL body. -/
def thermalBody (x : PwrSt) : List Byte :=
  le 2 x.thermalCause.toNat ++ le 1 x.tj ++ le 1 x.tjSite ++ le 1 x.th ++ le 1 x.thStack ++ le 1 x.thermalStep ++
    le 1 x.hbmPace ++ le 1 (coolantC x) ++ le 2 x.flow

/-- R415: the POWER and THERMAL events of a boundary at which a cause occurred. -/
def powerEvents (m : Mach) : Mach :=
  let x := m.pwr
  m |> onlyIf (x.powerCause != 0) (emit 0 0x58 0 (powerBody x))
    |> onlyIf (x.thermalCause != 0) (emit 0 0x59 0 (thermalBody x))
    |> modPwr (fun x => { x with powerCause := 0, thermalCause := 0 })

/-- A POWER cause noted for the boundary. -/
def notePower (b : Nat) : Mach → Mach := modPwr fun x => { x with powerCause := x.powerCause ||| BitVec.ofNat 16 (2 ^ b) }

/-- A THERMAL cause noted for the boundary. -/
def noteThermal (b : Nat) : Mach → Mach :=
  modPwr fun x => { x with thermalCause := x.thermalCause ||| BitVec.ofNat 16 (2 ^ b) }

/-- R395: a change of what bounds the module; a change of LIMIT_W is a POWER cause. -/
def changeLimit (f : PwrSt → PwrSt) (m : Mach) : Mach :=
  let l := limitW m.pwr
  let m := modPwr f m
  if limitW m.pwr = l then m else notePower 7 m

end Sys2Proof.Machine
end

