-- ==== Sys2Proof/Machine/Act.lean ====
section
/-! DEFINITION. How a command packet is checked, accepted and acted on, whichever opcode it carries
(R124 to R130, R139, R145), and how a host opcode's row runs one packet at the boundary last fired. -/

namespace Sys2Proof.Machine

/-- What Table 5.4 says of an opcode, with R145's list. -/
structure OpInfo where
  op : Nat
  mgmt : Bool := false
  expert : Bool := false
  zeroOnly : Bool := false
  tenant : Bool := false     -- R145: DENIED from context 0
  urgent : Bool := false
deriving DecidableEq, Repr

/-- A packet with its meaning: its opcode's facts, its header, its range checks, its effect once it is acted on, and the
replies that it brings at once to packets still queued, beside its own. -/
structure Packet where
  info : OpInfo
  hdr : Hdr
  ok : Nv → Mach → Bool
  eff : Nv → Mach → Nv × Mach
  extra : Mach → Nat := fun _ => 0

/-- A packet whose effect leaves what no reset clears. -/
def packet (info : OpInfo) (hdr : Hdr) (ok : Mach → Bool) (f : FlashState → Mach → Mach) : Packet :=
  { info, hdr, ok := fun _ => ok, eff := fun nv m => (nv, f nv.flash.state m) }

/-- R121, R129, R152, R156, R164: the rings of a function are served; none is in BOOT. -/
def served (m : Mach) (c : Nat) : Bool :=
  m.life.mode != .boot && (fnOf m c).cmdEnabled &&
    (c == 0 || ((ctxOf m c).isOpen && (ctxOf m c).closing.isNone && !(tenOf m (ctxOf m c).ten).destroying))

/-- R127: the issuer may use the opcode at its level. -/
def permitted (m : Mach) (o : OpInfo) (c : Nat) : Bool :=
  (!o.zeroOnly || c == 0) && (!o.expert || c == 0 || (ctxOf m c).expert)

/-- R134: replies written and not yet consumed by the host. -/
def unread (f : Fn) : Nat := dist f.statusWritten f.statusHead

/-- R132: replies owed by a function's rings. -/
def owed (m : Mach) (c : Nat) : Nat := m.reqs.countP fun r => r.ctx == c && !r.preFlr

/-- R132: the status ring has room for one more reply, and for `extra` beside it. -/
def hasRoom (m : Mach) (c : Nat) (urgent : Bool) (extra : Nat) : Bool :=
  let f := fnOf m c
  owed m c + unread f + extra < 2 ^ f.statusLog2 - (if urgent then 0 else 16)

/-- R125: a FENCE packet waits for every earlier accepted packet of its ring. -/
def fenceHolds (m : Mach) (h : Hdr) (urgent : Bool) : Bool :=
  h.fence && m.reqs.any fun r => r.ctx == h.ctx && r.urgent == urgent

/-- Table 18.3: the milliseconds that stages 1 to 3 took, within their limit: a free value. -/
def preTickMs (m : Mach) : Nat := min (if m.life.warm then 150 else 160) (Config.preTickMs m.life.warmCount)

/-- R437: the milliseconds, at least 10, from a warm reset's boundary to the start of its power-up: a free value. -/
def warmOffMs (m : Mach) : Nat := if m.life.warm then max 10 (min 650 (Config.warmOffMs m.life.warmCount)) else 0

/-- R129, R439: the ticks to the latest READY, at least 1; after a warm reset the limit runs from the boundary that acted on
its request. -/
def readyHint (m : Mach) : Nat :=
  let latest := m.life.stage3Us + 1000 * ((if m.life.warm then 1000 else 5000) - preTickMs m - warmOffMs m)
  max 1 ((latest - m.tick.nowUs + m.tick.inForce - 1) / m.tick.inForce)

/-- R139: the first check of Table 5.10 that a packet of a known opcode fails. -/
def firstFail (nv : Nv) (m : Mach) (p : Packet) : Option Reason :=
  let c := p.hdr.ctx
  let f := fnOf m c
  if p.hdr.seq ≠ (if p.info.urgent then f.urgNextSeq else f.nextSeq) then some .sequence
  else if !permitted m p.info c then some .permission
  else if !p.ok nv m then some .range
  else none

/-- R139: a packet that passed its checks advances its ring's expected number and is owed a reply. -/
def accept (p : Packet) (m : Mach) : Mach :=
  m |> modFn p.hdr.ctx (fun f =>
        if p.info.urgent then { f with urgNextSeq := wrap 32 (f.urgNextSeq + 1) }
        else { f with nextSeq := wrap 32 (f.nextSeq + 1) })
    |> addReq { ctx := p.hdr.ctx, seq := p.hdr.seq, op := p.info.op, urgent := p.info.urgent, irq := p.hdr.irq }

/-- R129, R145: what becomes of an accepted packet before its own effect: a code, or nothing. -/
def turnedAway (m : Mach) (p : Packet) : Option (Status × Nat) :=
  match m.life.mode with
  | .mgmt => if p.info.mgmt then none else some (.notReady, readyHint m)
  | .fault => if p.info.mgmt then none else some (.moduleFault, m.life.halted.headD 0)
  | _ => if p.info.tenant && p.hdr.ctx == 0 then some (.denied, node16 m) else none

/-- An accepted packet acted on. -/
def actOn (p : Packet) (nv : Nv) (m : Mach) : Nv × Mach :=
  match turnedAway m p with
  | some (st, d) => (nv, finaliseReq p.hdr.ctx p.info.urgent p.hdr.seq st d m)
  | none => p.eff nv m

/-- A packet checked, and accepted and acted on where every check holds. -/
def takePacket (p : Packet) (nv : Nv) (m : Mach) : Nv × Mach :=
  match firstFail nv m p with
  | some r => (nv, ignoreItem p.hdr.ctx r p.hdr.seq p.info.op true m)
  | none => actOn p nv (accept p m)

/-- A packet can be served now: its module runs, its rings are served and hold nothing before it, the
fence lets it through and the status ring has room. -/
def canServe (m : Mach) (p : Packet) : Bool :=
  isUp m && m.life.mode != .boot && turnipRuns m && served m p.hdr.ctx && p.hdr.ctx < 256 &&
    (let f := fnOf m p.hdr.ctx
     if p.info.urgent then f.urgHead == f.urgTail else f.head == f.tail) &&
    !fenceHolds m p.hdr p.info.urgent

/-- R119, R122: the ring pointers past one packet that the host notified and the module consumed. -/
def passPacket (c : Nat) (urgent : Bool) : Mach → Mach :=
  modFn c fun f =>
    if urgent then { f with urgTail := wrap 32 (f.urgTail + 1), urgHead := wrap 32 (f.urgHead + 1) }
    else { f with tail := wrap 32 (f.tail + 1), head := wrap 32 (f.head + 1) }

/-- Table 13.3: the code of a port state. -/
def portCode : PortState → Nat
  | .down => 0 | .detect => 1 | .equalize => 2 | .identify => 3 | .check => 4 | .active => 5 | .quarantine => 6 | .failed => 7

/-- R335, Tables 13.9 and 13.10: the events of a port, LINK_STATE first. -/
def portEvents (p : Nat) (m : Mach) : Mach :=
  let x := portOf m p
  let body := le 1 p ++ le 1 (portCode x.state) ++ le 1 x.qcause ++ le 1 x.width ++ le 1 x.causes.toNat ++
    le 2 ((x.peer.map (·.node)).getD 0xFFFF) ++ le 1 ((x.peer.map (·.port)).getD 0xFF) ++ le 2 x.proto ++ le 3 x.rxFailed ++
    le 1 x.spares
  let now := (x.state, x.qcause, x.width, x.laneMap, x.txMap)
  let m := if x.changed || x.shown != now then emit 0 0x40 0 body m else m
  m |> forEach x.notes (fun n => emit 0 n.1 0 n.2)
    |> modPort p (fun x => { x with changed := false, causes := 0, notes := [], shown := now })

/-- R310, Table 12.8: the HEADER_MISSING event of a context for the rounds faulted at a boundary. -/
def missingEvent (c : Nat) (m : Mach) : Mach :=
  let key (x : MissNote) : Nat := (x.layer * 2 + x.side) * 65536 + x.expert
  match sortBy (fun a b => key a ≤ key b) (m.lat.missing.filter (·.ctx == c)) with
  | [] => m
  | x :: r =>
    m |> modLat (fun l => { l with missing := l.missing.filter (·.ctx != c) })
      |> emit c 0x30 c (le 2 x.layer ++ le 4 x.round ++ le 1 x.side ++ le 2 x.expert ++ le 2 x.first ++ le 2 x.node ++
          le 2 (sat 16 (x.count + (r.map (·.count)).sum)) ++ le 1 x.cause)

/-- What is written after the packets of a boundary: the summaries of ignored items, the records and
the interrupts. -/
def endWrites (m : Mach) : Mach :=
  m |> forEach (List.range 256) ignoredSummary |> forEach (List.range 256) genDiscard
    |> forEach (m.lat.missing.map (·.ctx)).dedup missingEvent
    |> forEach (List.range 6) portEvents |> powerEvents |> actTrigger |> flushEvents

/-- One packet of an otherwise empty ring, served at the boundary last fired.  Without room it stays where it is, its
ring's pointers unmoved, and the row comes again (R132, log 33). -/
def servePacket (p : Packet) (nv : Nv) (m : Mach) : Nv × Mach :=
  if !canServe m p then (nv, m)
  else if !hasRoom m p.hdr.ctx p.info.urgent (p.extra m) then (nv, m |> holdRing p.hdr.ctx |> flushEvents)
  else
    let r := takePacket p nv (passPacket p.hdr.ctx p.info.urgent m)
    (r.1, endWrites r.2)

/-- A host opcode's row. -/
def runPacket (p : Packet) (s : State) : Host.Outcome State Fault Refusal :=
  let r := servePacket p s.nv s.m
  .next { s with nv := r.1, m := r.2 }

/-- A range of `n` items from `lo` inside `lim`. -/
def within (lo n lim : Nat) : Bool := 1 ≤ n && lo + n ≤ lim

/-- A result written to host memory before its command's reply (R126). -/
def putHost (addr : Nat) (bytes : List Byte) : Mach → Mach := send (.hostWrite addr bytes)

/-- A reply of the command ring for the packet itself. -/
def reply (h : Hdr) (st : Status) (detail : Nat) : Mach → Mach := finalise h.ctx h.seq st detail

/-- The tenancy of the issuing context. -/
def hTen (m : Mach) (h : Hdr) : Nat := (ctxOf m h.ctx).ten

end Sys2Proof.Machine
end

