-- ==== Sys2Proof/Machine/General.lean ====
section
/-! DEFINITION. The general host opcodes: NOP, IDENTIFY, COUNTERS_READ, SET_GUARD, RECIPE_SET and
RECIPE_GET (R109 to R115, R141, R142, R454), and the evaluation windows of the layers. -/

namespace Sys2Proof.Machine

/-! ### Firmware banks as other chapters see them -/

/-- A firmware bank by number. -/
def bankOf (nv : Nv) (b : Nat) : FwBank := if b = 0 then nv.bankA else nv.bankB

/-- Table 18.5: the code of a bank state. -/
def bankCode : BankState → Nat
  | .empty => 0 | .writing => 1 | .incomplete => 2 | .staged => 3 | .trial => 4 | .active => 5 | .valid => 6

/-- R454, Table 18.9: the identity record. -/
def identityRecord (nv : Nv) (m : Mach) : List Byte :=
  let run := bankOf nv m.life.bank
  let oth := bankOf nv (1 - m.life.bank)
  padTo 128 (le 8 Config.serial ++ le 4 m.life.fwRev ++ le 4 oth.fwRev ++ le 1 m.life.bank ++
    le 1 (bankCode nv.bankA.st) ++ le 1 (bankCode nv.bankB.st) ++ le 1 m.life.last ++ le 2 (node16 m) ++
    le 2 m.life.proto ++ le 2 run.secVersion ++ zeros 6 ++ padTo 60 Config.identityKey)

/-- Table 5.4: NOP. -/
def pktNop (h : Hdr) : Packet := packet { op := 0x00, mgmt := true } h (fun _ => true) (fun _ => reply h .ok 0)

/-- R454: IDENTIFY. -/
def pktIdentify (h : Hdr) (out : Nat) : Packet :=
  { info := { op := 0x01, mgmt := true }, hdr := h, ok := fun _ _ => out % 32 == 0
    eff := fun nv m => (nv, m |> putHost out (identityRecord nv m) |> reply h .ok 128) }

/-! ### Counters -/

/-- R142, Table 5.12: the counter block of a context. -/
def ctxBlock (m : Mach) (c : Nat) : List Byte :=
  let x := ctxOf m c
  padTo 64 (le 8 m.tick.count ++ le 4 x.ovrClock ++ le 4 x.ovrStall ++ le 4 x.ovrFabric ++ le 4 x.ovrEstimate ++
    le 4 x.waitTicks ++ le 4 x.denied ++ le 4 x.alignFail ++ le 4 x.ignored ++ le 4 x.evtLost ++ le 4 x.genDrop ++
    le 4 x.ringStall)

/-- R142, Table 5.13: the counter block of a layer; all zero but its number where it has no recipe. -/
def layerBlock (x : Ctx) (n : Nat) : List Byte :=
  match alGet n x.recipes, x.layers.find? (·.layer == n) with
  | some _, some a =>
    le 2 n ++ zeros 2 ++ le 4 (sat 32 a.total.sat) ++ le 4 (sat 32 a.total.ovf) ++ le 4 (sat 32 a.total.ufl) ++
      le 4 (sat 32 a.total.invalid) ++ le 8 (sat 64 a.total.spill) ++ le 4 (sat 32 a.flags)
  | _, _ => padTo 32 (le 2 n)

/-- R141, Table 5.11: COUNTERS_READ. -/
def pktCountersRead (h : Hdr) (set target first layers out : Nat) : Packet :=
  packet { op := 0x02, mgmt := true } h
    (fun _ => set ≤ 1 && target ≤ 255 && (h.ctx == 0 || target == h.ctx) && out % 32 == 0 &&
      (if set = 0 then first == 0 && layers == 0 else within first layers 1024))
    (fun _ m =>
      let bs := if set = 0 then ctxBlock m target
        else ((List.range layers).map fun i => layerBlock (ctxOf m target) (first + i)).flatten
      m |> putHost out bs |> reply h .ok bs.length)

/-- R49, R141: SET_GUARD. -/
def pktSetGuard (h : Hdr) (guard : Nat) : Packet :=
  packet { op := 0x08, expert := true } h (fun _ => guard ≤ 50)
    (fun _ m => m |> modCtx h.ctx (fun x => { x with guardUs := guard }) |> reply h .ok 0)

/-! ### Precision recipes -/

/-- R110: the record that firmware completes at the basic level. -/
def basicRecipe (wfmt afmt : Nat) (ref : Bool) : Recipe := { wfmt, afmt, ref }

/-- What a basic-level packet may carry: nothing but WFMT, AFMT and REF (Table 5.11). -/
def bareRecipe (r : Recipe) : Recipe :=
  { wfmt := r.wfmt, afmt := r.afmt, ref := r.ref, outBudget := 0, outRatio := 0, fixedE := 0, baseE := 0, satPpm := 0,
    ovfPpm := 0, uflPpm := 0, windowLog2 := 0 }

/-- Table 4.5: the formats of a recipe. -/
def formatsOk (r : Recipe) : Bool :=
  1 ≤ r.wfmt && r.wfmt ≤ 9 && 1 ≤ r.afmt && r.afmt ≤ 4 && (r.wfmt == 4) == (r.afmt == 4)

/-- R104: the combinations that INT32 accumulation allows. -/
def int32Ok (r : Recipe) : Bool :=
  (r.wfmt == 3 || r.wfmt == 5 || r.wfmt == 7 || r.wfmt == 8) && r.afmt == 3 && r.outBudget == 0 && !r.ref

/-- R109: every field of a whole record in its range. -/
def recipeOk (r : Recipe) : Bool :=
  formatsOk r && (!r.accInt32 || int32Ok r) && r.outBudget ≤ 8 && 2 ≤ r.outRatio && r.outRatio ≤ 255 &&
    r.fixedE ≤ 254 && r.baseE ≤ 254 && 16 ≤ r.windowLog2 && r.windowLog2 ≤ 30 && r.satPpm < 65536 && r.ovfPpm < 65536 &&
    r.uflPpm < 65536

/-- Table 4.5: the bytes of a recipe. -/
def recipeBytes (r : Recipe) : List Byte :=
  le 1 r.wfmt ++ le 1 r.afmt ++ le 1 (bit r.accInt32 + 2 * bit r.ref + 4 * bit r.ovfClamp) ++ le 1 r.outBudget ++
    le 1 r.outRatio ++ le 1 (bit r.fixed) ++ le 1 r.fixedE ++ le 1 r.baseE ++ le 2 r.satPpm ++ le 2 r.ovfPpm ++
    le 2 r.uflPpm ++ le 1 r.windowLog2 ++ zeros 1

/-- The recipe by which a layer's window is evaluated.  DESIGN CHOICE (log 15): a layer that has
counts and no recipe is evaluated by the basic-level values. -/
def windowRecipe (x : Ctx) (n : Nat) : Recipe := (alGet n x.recipes).getD (basicRecipe 1 1 false)

/-- R113: `k` of `n` is a greater rate than `ppm` per million, which 0xFFFF disables. -/
def passes (k n ppm : Nat) : Bool := ppm != 0xFFFF && ppm * n < k * 1000000

/-- R113: the rate per million, rounded down; none of nothing. -/
def ratePpm (k n : Nat) : Nat := k * 1000000 / max 1 n

/-- R113, R114: the flags of a window that closes: SAT, OVF, UFL and INVALID. -/
def windowFlags (r : Recipe) (w : Trouble) : Nat :=
  bit (passes w.sat w.elements r.satPpm) + 2 * bit (passes w.ovf w.groups r.ovfPpm) +
    4 * bit (passes w.ufl w.nonzero r.uflPpm) + 8 * bit (w.invalid != 0)

/-- Table 5.9: the PRECISION_FLAG body. -/
def precisionBody (n flags : Nat) (w : Trouble) : List Byte :=
  le 2 n ++ le 1 flags ++ le 3 (sat 24 (ratePpm w.sat w.elements)) ++ le 3 (sat 24 (ratePpm w.ovf w.groups)) ++
    le 3 (sat 24 (ratePpm w.ufl w.nonzero)) ++ le 2 (sat 16 w.invalid) ++ le 4 (sat 32 w.spill) ++ le 5 (sat 40 w.elements)

/-- R113, R114: a layer's window closed, evaluated and reopened empty at this boundary. -/
def closeWindow (c n : Nat) (m : Mach) : Mach :=
  let x := ctxOf m c
  let win := (layerAcct x n).win
  let flags := if win.elements = 0 then 0 else windowFlags (windowRecipe x n) win
  m |> modAcct c n (fun a => { a with win := {}, wOpened := m.tick.count, flags := a.flags + bit (flags != 0) })
    |> onlyIf (flags != 0) (emit c 0x07 c (precisionBody n flags win))

/-- R113: a window is full, or has been open for 1,000 ticks with an element. -/
def windowDue (m : Mach) (x : Ctx) (a : LayerAcct) : Bool :=
  2 ^ (windowRecipe x a.layer).windowLog2 ≤ a.win.elements || (1 ≤ a.win.elements && a.wOpened + 1000 ≤ m.tick.count)

/-- R113: the windows of a context that close at the boundary.  The spec does not say what becomes of a closed context's
windows: they stay and are still evaluated, by the basic recipe, and their events reach no ring (DESIGN CHOICE, log 139). -/
def closeWindows (c : Nat) (m : Mach) : Mach :=
  let x := ctxOf m c
  forEach ((x.layers.filter (windowDue m x)).map (·.layer)) (closeWindow c) m

/-- R109 to R111, R114: RECIPE_SET. -/
def pktRecipeSet (h : Hdr) (layer : Nat) (expert : Bool) (r : Recipe) : Packet :=
  packet { op := 0x60, expert } h
    (fun _ => layer ≤ 1023 && (if expert then recipeOk r else formatsOk r && r == bareRecipe r))
    (fun _ m =>
      m |> closeWindow h.ctx layer
        |> modCtx h.ctx (fun x =>
            { x with recipes := alSet layer (if expert then r else basicRecipe r.wfmt r.afmt r.ref) x.recipes })
        |> reply h .ok 0)

/-- R141: RECIPE_GET. -/
def pktRecipeGet (h : Hdr) (layer out : Nat) : Packet :=
  packet { op := 0x61 } h (fun _ => layer ≤ 1023 && out % 16 == 0)
    (fun _ m =>
      match alGet layer (ctxOf m h.ctx).recipes with
      | some r => m |> putHost out (recipeBytes r) |> reply h .ok 1
      | none => m |> putHost out (zeros 16) |> reply h .ok 0)

/-- Table 5.4: NOP. -/
def execNop (h : Hdr) (s : State) : Host.Outcome State Fault Refusal := runPacket (pktNop h) s
/-- R454: IDENTIFY. -/
def execIdentify (h : Hdr) (outPtr : Nat) (s : State) : Host.Outcome State Fault Refusal := runPacket (pktIdentify h outPtr) s
/-- R141, R142: COUNTERS_READ. -/
def execCountersRead (h : Hdr) (set target firstLayer layers outPtr : Nat) (s : State) : Host.Outcome State Fault Refusal :=
  runPacket (pktCountersRead h set target firstLayer layers outPtr) s
/-- R49, R141: SET_GUARD. -/
def execSetGuard (h : Hdr) (guardUs : Nat) (s : State) : Host.Outcome State Fault Refusal := runPacket (pktSetGuard h guardUs) s
/-- R109, R110, R114: RECIPE_SET. -/
def execRecipeSet (h : Hdr) (layer : Nat) (expert : Bool) (r : Recipe) (s : State) : Host.Outcome State Fault Refusal :=
  runPacket (pktRecipeSet h layer expert r) s
/-- R141: RECIPE_GET. -/
def execRecipeGet (h : Hdr) (layer outPtr : Nat) (s : State) : Host.Outcome State Fault Refusal :=
  runPacket (pktRecipeGet h layer outPtr) s

end Sys2Proof.Machine
end

