-- ==== Sys2Proof/Machine/Hss.lean ====
section
/-! DEFINITION. The verification of HSS signatures as RFC 8554 defines it, for the one LMS and the
one LM-OTS type that R379 admits: LMS_SHA256_M32_H20 with LMOTS_SHA256_N32_W8. -/

namespace Sys2Proof.Machine

/-- A number as big-endian bytes. -/
def be (n v : Nat) : List Byte := (le n v).reverse

/-- The number that big-endian bytes spell at an offset. -/
def beField (bs : List Byte) (lo n : Nat) : Nat := unle ((bs.drop lo).take n).reverse

/-- LM-OTS: one chain from `a` to 255. -/
def otsChain (id : List Byte) (q i : Nat) : Nat → Nat → List Byte → List Byte
  | 0, _, x => x
  | fuel + 1, a, x => otsChain id q i fuel (a + 1) (sha256 (id ++ be 4 q ++ be 2 i ++ be 1 a ++ x))

/-- LM-OTS: the digest with its checksum, 34 coefficients of 8 bits. -/
def otsCoefs (d : List Byte) : List Nat :=
  let cs := d.map (·.toNat)
  let sum := (cs.map (255 - ·)).sum
  cs ++ [sum / 256, sum % 256]

/-- LM-OTS: the public key that a signature's 34 chains lead to. -/
def otsCandidate (id : List Byte) (q : Nat) (msg c : List Byte) (ys : List Byte) : List Byte :=
  let d := sha256 (id ++ be 4 q ++ [0x81, 0x81] ++ c ++ msg)
  let zs := (otsCoefs d).zipIdx.flatMap fun x => otsChain id q x.2 (255 - x.1) x.1 ((ys.drop (32 * x.2)).take 32)
  sha256 (id ++ be 4 q ++ [0x80, 0x80] ++ zs)

/-- LMS: the root that a leaf and its authentication path lead to. -/
def lmsRoot (id : List Byte) : Nat → Nat → List Byte → List Byte → List Byte
  | 0, _, _, x => x
  | fuel + 1, n, path, x =>
    let p := path.take 32
    let y := if n % 2 = 1 then p ++ x else x ++ p
    lmsRoot id fuel (n / 2) (path.drop 32) (sha256 (id ++ be 4 (n / 2) ++ [0x83, 0x83] ++ y))

/-- LMS: a 1,772-byte signature on a message under a 56-byte public key. -/
def lmsVerify (pub msg sig : List Byte) : Bool :=
  let id := (pub.drop 8).take 16
  let q := beField sig 0 4
  let k := otsCandidate id q msg ((sig.drop 8).take 32) ((sig.drop 40).take 1088)
  pub.length == 56 && sig.length == 1772
    && beField pub 0 4 == 8 && beField pub 4 4 == 4 && beField sig 4 4 == 4 && beField sig 1128 4 == 8 && q < 2 ^ 20
    && lmsRoot id 20 (2 ^ 20 + q) (sig.drop 1132) (sha256 (id ++ be 4 (2 ^ 20 + q) ++ [0x82, 0x82] ++ k)) == pub.drop 24

/-- HSS: the signatures of `n` lower keys, then of the message. -/
def hssLevels (msg : List Byte) : Nat → List Byte → List Byte → Bool
  | 0, pub, sig => lmsVerify pub msg sig
  | n + 1, pub, sig =>
    let lower := (sig.drop 1772).take 56
    lmsVerify pub lower (sig.take 1772) && hssLevels msg n lower (sig.drop 1828)

/-- R379: an HSS signature on a message under a 60-byte public key of 1 to 3 levels. -/
def hssVerify (key msg sig : List Byte) : Bool :=
  let l := beField key 0 4
  1 ≤ l && l ≤ 3 && key.length == 60 && beField sig 0 4 + 1 == l && hssLevels msg (l - 1) (key.drop 4) (sig.drop 4)

end Sys2Proof.Machine
end

