-- ==== Sys2Proof/Machine/Codec.lean ====
section
/-! DEFINITION. Fixed-rate blocks and variable-rate streams as functions on bytes (chapter 9). -/

namespace Sys2Proof.Machine

/-! ### Fixed-rate blocks (R215, R216, Table 9.2) -/

/-- Code bits b of a fixed-rate format 1 FR4, 2 FR83, 3 FR2. -/
def frBits (fmt : Nat) : Nat := 2 * fmt + 1

/-- Block bytes C of a fixed-rate format. -/
def frBytes (fmt : Nat) : Nat := 2 * fmt + 2

/-- What blocks count (Table 9.7). -/
structure FrCount where
  blocks : Nat := 0
  sat : Nat := 0
  ufl : Nat := 0
  invalid : Nat := 0
deriving DecidableEq, Repr

/-- Counts added. -/
def frAdd (a b : FrCount) : FrCount :=
  { blocks := a.blocks + b.blocks, sat := a.sat + b.sat, ufl := a.ufl + b.ufl, invalid := a.invalid + b.invalid }

/-- R216: the smallest scale from `k` to 254 at which a magnitude does not exceed `lim`. -/
def frScale (lim m : Nat) (e : Int) : Nat → Nat → Nat
  | 0, k => k
  | fuel + 1, k => if magGt m (e + 127 - k) lim && k < 254 then frScale lim m e fuel (k + 1) else k

/-- The largest magnitude of a list of numbers, as an exact value. -/
def numMax (xs : List Num) : Num := xs.foldl (fun a x => if numLt a (numAbs x) then numAbs x else a) (.fin false 0 0)

/-- R216: one element's code at a scale. -/
def frCode (b e : Nat) (x : Num) : Nat × FrCount :=
  match x with
  | .fin s m ex =>
    let lim := 2 ^ (b - 1) - 1
    let big := magGt m (ex + 127 - e) lim
    let c := if big then lim else rneAt 0 m (ex + 127 - e)
    ((if s && c != 0 then 2 ^ (b - 1) else 0) + c,
      { sat := bit big, ufl := bit (m != 0 && c == 0) })
  | _ => (0, {})

/-- R216: a block of eight BF16 elements encoded. -/
def frEncodeBlock (fmt : Nat) (xs : List Num) : List Byte × FrCount :=
  let b := frBits fmt
  if !xs.all numFinite then (padTo (frBytes fmt) [255], { blocks := 1, invalid := 1 })
  else
    let e := match numMax xs with
      | .fin _ m ex => if m = 0 then 127 else frScale (2 ^ (b - 1) - 1) m ex 254 1
      | _ => 254
    let cs := xs.map (frCode b e)
    let v := (cs.zipIdx).foldl (fun n c => n + c.1.1 * 2 ^ (b * c.2)) 0
    (le 1 e ++ le (frBytes fmt - 1) v, cs.foldl (fun k c => frAdd k c.2) { blocks := 1 })

/-- R215: a block decoded to eight BF16 elements. -/
def frDecodeBlock (fmt : Nat) (bs : List Byte) : List Byte × FrCount :=
  let b := frBits fmt
  let e := field bs 0 1
  let v := field bs 1 (frBytes fmt - 1)
  if e = 255 then ((List.range 8).flatMap fun _ => le 2 0x7FC0, { blocks := 1, invalid := 1 })
  else
    let cs := (List.range 8).map fun i =>
      let c := v / 2 ^ (b * i) % 2 ^ b
      toElem .bf16 (.fin (c.testBit (b - 1)) (c % 2 ^ (b - 1)) ((e : Int) - 127))
    (cs.flatMap fun c => le 2 c.code, { blocks := 1, sat := cs.countP (·.sat) })

/-- R217: plaintext encoded block by block. -/
def frEncode (fmt : Nat) (bs : List Byte) : List Byte × FrCount :=
  (chunksOf 16 bs.length bs).foldl (fun r c =>
    let x := frEncodeBlock fmt ((chunksOf 2 8 c).map fun h => elemNum .bf16 (unle h))
    (r.1 ++ x.1, frAdd r.2 x.2)) ([], {})

/-- R217: blocks decoded to plaintext. -/
def frDecode (fmt : Nat) (bs : List Byte) : List Byte × FrCount :=
  (chunksOf (frBytes fmt) bs.length bs).foldl (fun r c =>
    let x := frDecodeBlock fmt c
    (r.1 ++ x.1, frAdd r.2 x.2)) ([], {})

/-! ### Tables (R219, R225) -/

/-- The standard code lengths of generation 0. -/
def stdLens : List Nat := [2] ++ List.replicate 254 9 ++ [8] ++ List.replicate 16 6

/-- R219: the canonical code as (length, code, symbol), in the manner of RFC 1951. -/
def codeTable (lens : List Nat) : List (Nat × Nat × Nat) :=
  ((List.range' 1 15).foldl (fun (st : Nat × List (Nat × Nat × Nat)) l =>
    (lens.zipIdx.filter (·.1 == l)).foldl (fun st s => (st.1 + 1, st.2 ++ [(l, st.1, s.2)])) (2 * st.1, st.2))
    (0, [])).2

/-- R225: the bytes of the code lengths, two to a byte. -/
def lenBytes (lens : List Nat) : List Byte :=
  (chunksOf 2 136 lens).map fun p => BitVec.ofNat 8 (p.getD 0 0 + 16 * p.getD 1 0)

/-- R225: the table CRC of code lengths. -/
def tableCrc (lens : List Nat) : Nat := crc16 (lenBytes lens)

/-- R225: the code lengths of a table image, when it is valid. -/
def imageLens (img : List Byte) : Option (List Nat) :=
  let lens := (img.take 136).flatMap fun b => [b.toNat % 16, b.toNat / 16]
  if img.length = 144 && lens.all (0 < ·) && lens.foldl (fun s l => s + 2 ^ (15 - l)) 0 == 2 ^ 15 &&
      crc16 (img.take 136) == field img 136 2 && allZero (img.drop 138) then some lens else none

/-! ### The coder (R219 to R221) -/

/-- R220: the run symbols of `z` zero bytes. -/
def runSyms : Nat → Nat → List Nat
  | 0, _ => []
  | fuel + 1, z =>
    if z = 0 then []
    else if z = 1 then [0]
    else let k := min 16 (Nat.log2 z); (255 + k) :: runSyms fuel (z - 2 ^ k)

/-- R220: the symbols of plaintext; `z` zero bytes are waiting. -/
def toSyms : Nat → List Byte → List Nat
  | z, [] => runSyms (z + 1) z
  | z, b :: r => if b = 0 then toSyms (z + 1) r else runSyms (z + 1) z ++ b.toNat :: toSyms 0 r

/-- The low `n` bits of a code, most significant first. -/
def codeBits : Nat → Nat → List Bool
  | 0, _ => []
  | n + 1, c => c.testBit n :: codeBits n c

/-- Bits packed from the least significant bit of the first byte upward. -/
def packBits (bs : List Bool) : List Byte :=
  (chunksOf 8 bs.length bs).map fun c => BitVec.ofNat 8 ((c.zipIdx).foldl (fun n b => n + bit b.1 * 2 ^ b.2) 0)

/-- Bits of bytes, least significant first. -/
def unpackBits (bs : List Byte) : List Bool := bs.flatMap fun b => (List.range 8).map fun i => b.getLsbD i

/-- R219: plaintext as a coded payload. -/
def encodePayload (lens : List Nat) (bs : List Byte) : List Byte :=
  let tab := codeTable lens
  packBits ((toSyms 0 bs).flatMap fun s =>
    match tab.find? (·.2.2 == s) with
    | some x => codeBits x.1 x.2.1
    | none => [])

/-- R219: one symbol read from a bit stream. -/
def readSym (tab : List (Nat × Nat × Nat)) : Nat → Nat → Nat → List Bool → Option (Nat × List Bool)
  | 0, _, _, _ => none
  | _, _, _, [] => none
  | fuel + 1, l, c, b :: r =>
    let c' := 2 * c + bit b
    match tab.find? fun x => x.1 == l + 1 && x.2.1 == c' with
    | some x => some (x.2.2, r)
    | none => readSym tab fuel (l + 1) c' r

/-- R219: `n` bytes decoded; none where the bits are no code, emit past the end or leave more than
zero padding of the last byte. -/
def readBytes (tab : List (Nat × Nat × Nat)) : Nat → Nat → List Bool → Option (List Byte)
  | 0, _, _ => none
  | fuel + 1, n, bits =>
    if n = 0 then (if bits.length < 8 && bits.all (!·) then some [] else none)
    else
      match readSym tab 15 0 0 bits with
      | none => none
      | some (s, r) =>
        let e := if s < 256 then [BitVec.ofNat 8 s] else zeros (2 ^ (s - 255))
        if n < e.length then none
        else (readBytes tab fuel (n - e.length) r).map (e ++ ·)

/-- R221: one BF16 element rounded to `7 - loss` mantissa bits. -/
def lossElem (loss c : Nat) : Nat × Bool :=
  let s := c / 2 ^ 15
  let g := c % 2 ^ 15
  if 0x7F80 < g then (0x7FC0, false)
  else if g = 0x7F80 then (c, false)
  else
    let q := rneShift g loss * 2 ^ loss
    if 0x7F80 ≤ q then (s * 2 ^ 15 + 0x7F7F / 2 ^ loss * 2 ^ loss, true) else (s * 2 ^ 15 + q, false)

/-- R221: bounded-loss rounding of plaintext, with its saturations. -/
def lossRound (loss : Nat) (bs : List Byte) : List Byte × Nat :=
  if loss = 0 then (bs, 0)
  else
    let xs := (chunksOf 2 bs.length bs).map fun h => lossElem loss (unle h)
    (xs.flatMap fun x => le 2 x.1, xs.countP (·.2))

/-- Bytes rounded up to a multiple of 8. -/
def up8 (n : Nat) : Nat := (n + 7) / 8 * 8

/-- Plaintext bytes of a variable-rate block. -/
def vrBlock (bsize : Nat) : Nat := 4096 * 4 ^ bsize

/-- R218, R220, Table 9.3: one block, and whether it is STORED. -/
def vrEncodeBlock (lens : List Nat) (gen bsize loss : Nat) (bs : List Byte) : List Byte × Bool :=
  let p := encodePayload lens bs
  let stored := bs.length ≤ p.length
  let pay := if stored then bs else p
  let h := le 1 (gen + 16 * bit (!stored)) ++ le 1 (bsize + 4 * loss) ++ le 3 pay.length ++
    le 1 (tableCrc lens)
  let blk := h ++ le 2 (crc16 (h ++ pay)) ++ pay
  (padTo (up8 blk.length) blk, stored)

/-- R218: a stream of the blocks of plaintext, with the number of STORED blocks. -/
def vrEncode (lens : List Nat) (gen bsize loss : Nat) (bs : List Byte) : List Byte × Nat :=
  let blks := (chunksOf (vrBlock bsize) bs.length bs).map (vrEncodeBlock lens gen bsize loss)
  let base := up8 (4 * (blks.length + 1))
  let idx := blks.foldl (fun (l : List Nat) b => l ++ [l.getLastD 0 + b.1.length / 8]) [base / 8]
  (padTo base (idx.flatMap (le 4)) ++ blks.flatMap (·.1), blks.countP (·.2))

/-- The checks of R231. -/
inductive Damage where
  | index | header | crc | code
deriving DecidableEq, Repr

/-- R231: the checks that a block's 8 header bytes decide, INDEX and HEADER: the code lengths to decode with, or the check
failed; `tab` gives those of an available generation. -/
def vrHead (tab : Nat → Option (List Nat)) (bsize i0 i1 : Nat) (h : List Byte) : Except Damage (List Nat) :=
  let b := vrBlock bsize
  let codec := field h 0 1 / 16
  let shape := field h 1 1
  let len := field h 2 3
  if i1 ≤ i0 || 8 * (i1 - i0) != up8 (8 + len) then .error .index
  else
    match tab (field h 0 1 % 16) with
    | none => .error .header
    | some lens =>
      if 1 < codec || shape % 4 != bsize || 32 ≤ shape
          || (codec == 0 && len != b) || (codec == 1 && (len == 0 || b ≤ len))
          || (codec == 1 && field h 5 1 != tableCrc lens % 256) then .error .header
      else .ok lens

/-- R231: one stored block decoded, or the first check it fails. -/
def vrDecodeBlock (tab : Nat → Option (List Nat)) (bsize i0 i1 : Nat) (blk : List Byte) :
    Except Damage (List Byte) :=
  let b := vrBlock bsize
  let len := field blk 2 3
  match vrHead tab bsize i0 i1 blk with
  | .error d => .error d
  | .ok lens =>
    let pay := (blk.drop 8).take len
    if crc16 (blk.take 6 ++ pay) != field blk 6 2 then .error .crc
    else if !allZero (blk.drop (8 + len)) then .error .code
    else if field blk 0 1 / 16 = 0 then .ok pay
    else
      match readBytes (codeTable lens) (b + 1) b (unpackBits pay) with
      | none => .error .code
      | some bs => .ok bs

end Sys2Proof.Machine
end

