-- ==== Sys2Proof/Machine/Routing.lean ====
section
/-! DEFINITION. Where a packet goes next: the plan's coordinates, dimension orders, usable ports and
detours (R346 to R348), and reach (R27 to R29). -/

namespace Sys2Proof.Machine

/-- This module's node number as an ordinary number; one no node has while none is set. -/
def selfNode (m : Mach) : Nat := m.fab.node.getD 0x8000

/-- The plan's entry of a node. -/
def planNode (m : Mach) (n : Nat) : Option PlanNode :=
  m.link.plan.bind fun p => p.nodes.find? (·.node == n)

/-- The size of a dimension of the plan in force. -/
def dimSize (p : Plan) (d : Nat) : Nat := if d = 0 then p.dx else if d = 1 then p.dy else p.dz

/-- A coordinate of a node. -/
def coord (n : PlanNode) (d : Nat) : Nat := if d = 0 then n.x else if d = 1 then n.y else n.z

/-- Table 14.1: the header of a packet. -/
def fabHeader (p : FabPkt) : List Byte :=
  le 1 p.type ++ le 1 (bit p.release + 2 * bit p.retry + 4 * bit p.detoured) ++ le 2 p.src ++ le 2 p.dst ++ le 2 p.ftid ++
    le 1 p.cls ++ le 1 (p.order + 8 * p.detours) ++ le 2 p.ssn ++ le 2 p.tag ++ le 2 p.len ++ le 6 p.offset ++ le 1 p.aop ++
    le 1 p.size ++ le 2 p.srcEpoch ++ le 2 p.dstEpoch ++ le 2 p.lowTag ++ le 2 p.reqId

/-- R346: the dimensions of an order, first to last. -/
def orderDims (o : Nat) : List Nat :=
  match o % 6 with
  | 0 => [0, 1, 2] | 1 => [0, 2, 1] | 2 => [1, 0, 2] | 3 => [1, 2, 0] | 4 => [2, 0, 1] | _ => [2, 1, 0]

/-- R346: a packet's dimension order. -/
def packetOrder (src dst cls ftid offset : Nat) : Nat :=
  if cls = 0 then let l := offset / 64; (l + l / 512) % 6 else (src + dst + cls + ftid) % 6

/-- R346: the offset to a node in a dimension, and the port of the minimal direction. -/
def dimStep (p : Plan) (a b : PlanNode) (o d : Nat) : Nat × Nat :=
  let n := dimSize p d
  let k := (coord b d + n - coord a d % n) % n
  (k, if 2 * k < n || (2 * k = n && o % 2 = 0) then 2 * d else 2 * d + 1)

/-- R347: the ports that reduce a nonzero offset: the minimal direction's, and at exactly half the ring either's. -/
def reducers (p : Plan) (s : Nat × Nat × Nat) : List Nat :=
  if 2 * s.2.1 = dimSize p s.1 then [s.2.2, 4 * s.1 + 1 - s.2.2] else [s.2.2]

/-- The node that the plan places behind a port of this module. -/
def planNeighbour (m : Mach) (p : Nat) : Option Nat :=
  (planNode m (selfNode m)).bind fun n => (n.peers[p]?.join).map (·.1)

/-- R347: a port usable for a packet to `dst`. -/
def portUsable (m : Mach) (dst p : Nat) : Bool :=
  (portOf m p).state == .active &&
    match m.link.overrides[p]?.getD none with
    | some (node, _, _) => planNeighbour m p == some node || node == dst
    | none => true

/-- What a module does with a packet. -/
inductive Hop where
  | deliver
  | port (p : Nat) (detoured : Bool) (extra : Nat)
  | drop
deriving DecidableEq, Repr

/-- R346 to R348: the next hop of a packet to `dst` with an order and the detour hops it has taken. -/
def nextHop (m : Mach) (dst order detours : Nat) : Hop :=
  if dst = selfNode m then .deliver
  else
    match m.link.plan, planNode m (selfNode m), planNode m dst with
    | some pl, some a, some b =>
      let steps := (orderDims order).map fun d => (d, dimStep pl a b order d)
      let live := steps.filter fun s => s.2.1 != 0
      match live with
      | [] => .deliver
      | s :: _ =>
        if portUsable m dst s.2.2 then .port s.2.2 false 0
        else
          match (live.flatMap (reducers pl)).find? (portUsable m dst) with
          | some p => .port p true 0
          | none =>
            let idle := (steps.filter fun s => s.2.1 == 0).map (·.1)
            match (List.range 6).find? fun p => idle.contains (p / 2) && portUsable m dst p with
            | some p => if detours < 2 then .port p false 1 else .drop
            | none => .drop
    | _, _, _ => .drop

/-- R316: a flit of a port's transmit direction enters its replay buffer, once transmitted. -/
def txFlit (p : Nat) : Mach → Mach :=
  modPort p fun x =>
    { x with replayBuf := x.replayBuf ++ [(x.txNext, 1)], txNext := wrap 12 (x.txNext + 1) }

/-- R316, R333: a port that can send a sequenced flit now: its replay buffer has room and its lanes are locked. -/
def canSend (x : Port) : Bool := x.replayBuf.length < 1024 && !x.relock

/-- Something sent on a port in a sequenced flit, or held behind those that wait; nothing leaves once removal has
begun (R457). -/
def linkSend (p : Nat) (o : Out) (m : Mach) : Mach :=
  let x := portOf m p
  if m.life.removal then m
  else if canSend x && x.txWait.isEmpty then m |> txFlit p |> send o
  else modPort p (fun x => { x with txWait := x.txWait ++ [o] }) m

/-- R316: the flits held back go, in order, while the port can send. -/
def drainFrom : Nat → Nat → Mach → Mach
  | 0, _, m => m
  | n + 1, p, m =>
    match (portOf m p).txWait with
    | [] => m
    | o :: os =>
      if canSend (portOf m p) then m |> modPort p (fun x => { x with txWait := os }) |> txFlit p |> send o |> drainFrom n p
      else m

/-- R316: a port's held flits sent as far as there is room. -/
def drainPort (p : Nat) (m : Mach) : Mach := drainFrom (portOf m p).txWait.length p m

/-- R347: a packet sent on its next hop, or dropped and counted. -/
def routePacket (p : FabPkt) (m : Mach) : Mach :=
  match nextHop m p.dst p.order p.detours with
  | .deliver => m
  | .drop => modFab (fun f => { f with noRoute := bump 16 1 f.noRoute }) m
  | .port q det extra =>
    m |> modFab (fun f => if det || extra != 0 then { f with detoured := bump 32 1 f.detoured } else f)
      |> linkSend q (.fabric q { p with detoured := p.detoured || det, detours := p.detours + extra })

/-- R28, R29: a node is reached by memory accesses. -/
def inReach (m : Mach) (n : Nat) : Bool := m.fab.inForce && m.fab.traySet.contains n

/-- The ports in ACTIVE. -/
def activePorts (m : Mach) : List Nat := (List.range 6).filter fun p => (portOf m p).state == .active

/-- A notice sent on every ACTIVE port but one (R358). -/
def spread (n : Notice) (butPort : Nat) (m : Mach) : Mach :=
  forEach ((activePorts m).filter (· != butPort)) (fun p => linkSend p (.notice p n)) m

/-- R358: a notice of this module's own. -/
def ownNotice (k : NoticeKind) (m : Mach) : Mach :=
  m |> spread { origin := selfNode m, number := m.fab.noticeNo, kind := k } 6
    |> modFab (fun f => { f with noticeNo := wrap 16 (f.noticeNo + 1),
                                 seen := (selfNode m, f.noticeNo) :: f.seen })

end Sys2Proof.Machine
end

