-- ==== Sys2Proof/Machine/CollArea.lean ====
section
/-! DEFINITION. The receive area of a collective, and what a message to its queue writes there (R372, R374). -/

namespace Sys2Proof.Machine

/-- R116: the bytes that `n` elements take on the wire. -/
def wireBytes (wire n : Nat) : Nat := if wire ≤ 2 then n / 256 * 260 else n / 32 * 17

/-- The number of members. -/
def Coll.n (k : Coll) : Nat := k.blk.nodes.length

/-- R372, Table 15.4: the stages T of a round. -/
def collStages (k : Coll) : Nat :=
  match k.blk.kind with
  | 1 => 2 * (k.n - 1) | 4 => 1 | _ => k.n - 1

/-- R372: elements q of a full segment of a round of `c` elements. -/
def segLen (k : Coll) (c : Nat) : Nat := if k.blk.kind = 4 then c else 256 * ((c + 256 * k.n - 1) / (256 * k.n))

/-- R374: the wire bytes W of a stage's slot. -/
def slotWire (k : Coll) : Nat := (wireBytes k.blk.wire (segLen k k.blk.maxCount) + 63) / 64 * 64

/-- The slot number of a stage in a round's buffer. -/
def slotNo (k : Coll) (round t : Nat) : Nat := round % 2 * collStages k + t

/-- R374: where a stage's data and header stand in the receive area. -/
def dataOff (k : Coll) (slot : Nat) : Nat := slot * slotWire k
/-- Where its header stands. -/
def hdrOff (k : Coll) (slot : Nat) : Nat := 2 * collStages k * slotWire k + 16 * slot

/-- R374, R378: wire data of a message to a collective's queue, written unless its stage is already full or it comes late for a
faulted round. -/
def collData (t tag off : Nat) (bs : List Byte) (m : Mach) : Mach :=
  let q := tag % 4096
  match (List.range 256).findSome? fun c =>
      let x := ctxOf m c
      if x.isOpen && x.ten == t then (x.colls.find? (·.blk.queue == q)) else none with
  | none => m
  | some k =>
    let slot := off / slotWire k
    if hdrOff k 0 ≤ off then m
    else if (alGet slot k.arrived).isSome || k.late.contains slot then modFab (fun f => { f with collBad := bump 16 1 f.collBad }) m
    else slPut t (k.blk.recv + off) bs m

end Sys2Proof.Machine
end

