-- ==== Sys2Proof/Machine/Fabric.lean ====
section
/-! DEFINITION. Loads, stores, atomics and messages between modules: issue, order, completion, resends,
the destination's checks and the replay tables (chapter 14, R28 to R30, R166, R167). -/

namespace Sys2Proof.Machine

/-! ### Types and codes -/

/-- Table 14.1: request types. -/
def tLoad : Nat := 1
/-- STORE. -/
def tStore : Nat := 2
/-- ATOMIC. -/
def tAtomic : Nat := 3
/-- MESSAGE. -/
def tMessage : Nat := 4

/-- R345: the rank of a packet's status in its MOVE; the lowest is the MOVE's. -/
def moveRank : Status → Nat
  | .poisoned => 0 | .targetLost => 1 | .denied => 2 | .invalid => 3 | .cancelled => 4
  | .flagWithheld => 5 | .notReady => 6 | .outOfReach => 7 | .tierFail => 8 | .indeterminate => 9
  | .ok => 11 | _ => 10

/-- A status code read from its byte. -/
def statusOf (n : Nat) : Status :=
  match n with
  | 0 => .ok | 1 => .notReady | 2 => .invalid | 3 => .denied | 4 => .poisoned | 5 => .cancelled
  | 6 => .tooLate | 7 => .noTarget | 8 => .targetLost | 9 => .indeterminate | 10 => .ignoredGen
  | 11 => .outOfReach | 12 => .noSpace | 13 => .noBank | 14 => .moduleFault | 15 => .digestMismatch
  | 16 => .sigFail | 17 => .flagWithheld | _ => .tierFail

/-- Whether `a` lies before `b` among numbers of 16 bits that wrap. -/
def before16 (a b : Nat) : Bool := let d := (b + 65536 - a % 65536) % 65536; 0 < d && d < 32768

/-- R353, Table 14.3: the new value of a word of `w` bits. -/
def fabOp (w aop : Nat) (v a b : BitVec w) : BitVec w :=
  match aop with
  | 1 => v + a
  | 2 => v &&& a
  | 3 => v ||| a
  | 4 => v ^^^ a
  | 5 => if v.slt a then v else a
  | 6 => if v.slt a then a else v
  | 7 => if v.ult a then v else a
  | 8 => if v.ult a then a else v
  | 9 => a
  | 10 => if v = b then a else v
  | _ => v

/-- R353: the new value of a word of `size` bytes. -/
def fabAtomic (size aop v a b : Nat) : Nat :=
  if aop = 11 then (fpAdd (BitVec.ofNat 32 v) (BitVec.ofNat 32 a)).toNat
  else (fabOp (8 * size) aop (BitVec.ofNat _ v) (BitVec.ofNat _ a) (BitVec.ofNat _ b)).toNat

/-- Table 14.3: an opcode and size that exist. -/
def atomicValid (aop size : Nat) : Bool :=
  1 ≤ aop && aop ≤ 11 && (size == 4 || (size == 8 && aop != 11))

/-! ### Completing at the source -/

/-- R352: the completion record of a FATOM. -/
def atomRecord (old tag : Nat) (st : Status) (detail : Nat) : List Byte :=
  le 8 old ++ le 2 tag ++ le 1 (statusCode st) ++ le 1 1 ++ le 4 detail

/-- What a completion does for whoever waits (R345, R352): nothing for a MOVE that has been stopped.  Bytes loaded into a
slice that has left the tenancy are denied (R161). -/
def deliver (o : Outreq) (st : Status) (detail : Nat) (data : List Byte) (m : Mach) : Mach :=
  match o.own with
  | .none => m
  | .move p a =>
    if !(peaOf m p).pkts.contains o.id then m
    else
      let buffered := o.req.type = tLoad && (peaOf m p).mvPhase != 0
      let landed := if o.req.type = tLoad && !buffered && st == .ok then slWrite o.req.ten a (data.take o.req.len) m else .ok m
      let (m, st, detail) := match landed with
        | .ok m => (m, st, detail)
        | .error _ => (m, .denied, node16 m)
      let m := if buffered then
          modPea p (fun x =>
            { x with mvBuf := memWrite a (data.take o.req.len) x.mvBuf
                     mvBad := if st == .poisoned then (a, o.req.len) :: x.mvBad else x.mvBad }) m
        else if o.req.type = tLoad && st == .poisoned then slPoison o.req.ten a o.req.len m
        else m
      modPea p (fun x =>
        { x with pkts := x.pkts.filter (· != o.id)
                 mvStatus := if moveRank st < moveRank x.mvStatus then st else x.mvStatus
                 mvDetail := if moveRank st < moveRank x.mvStatus then detail else x.mvDetail }) m
  | .atom p rec =>
    m |> slPut o.req.ten rec (atomRecord (unle data) o.tag st detail)
      |> modPea p (fun x => { x with fatoms := x.fatoms - 1 })
  | .exch c q =>
    if st == .ok then m
    else modLat (fun l => { l with exchFaults := l.exchFaults ++ [(c, q, st, if st == .targetLost then detail else o.req.node)] }) m
  | w => modLat (fun l => { l with msgs := l.msgs ++ [(w, st, o.req.node)] }) m

/-- R344: a store or message has failed: every later request of its class in its stream has an earlier failure. -/
def markFailed (o : Outreq) (m : Mach) : Mach :=
  modFab (fun f =>
    { f with
      srcStreams := f.srcStreams.map fun s =>
        if s.node == o.req.node && s.ftid == o.ftid && s.cls == o.req.cls then { s with failed := true } else s
      out := f.out.takeWhile (·.id != o.id) ++ (f.out.dropWhile (·.id != o.id)).map fun x =>
        if x.req.node == o.req.node && x.ftid == o.ftid && x.req.cls == o.req.cls then { x with tainted := true } else x }) m

/-- A request of this source completes; its data is received for its tenancy and context (R168). -/
def completeOut (o : Outreq) (st : Status) (detail : Nat) (data : List Byte) (m : Mach) : Mach :=
  let fails := st != .ok && (o.req.type == tStore || o.req.type == tMessage)
  let m := if fails then markFailed o m else m
  let m := modFab (fun f =>
    { f with out := f.out.filter (·.id != o.id)
             targetLost := if st == .targetLost then bump 32 1 f.targetLost else f.targetLost
             indeterminate := if st == .indeterminate then bump 16 1 f.indeterminate else f.indeterminate
             withheld := if st == .flagWithheld then bump 16 1 f.withheld else f.withheld }) m
  let m := modCtx o.req.ctx (fun c => { c with acct := { c.acct with fabRx := c.acct.fabRx + data.length } }) m
  let m := modTen o.req.ten (fun t => { t with acct := { t.acct with fabRx := t.acct.fabRx + data.length } }) m
  let c := capturePayload (sha256 data) data m
  c.2 |> capture 0x0C 0 0 (le 2 o.id ++ le 1 (statusCode st) ++ zeros 5 ++ c.1) |> deliver o st detail data

/-- The request outstanding under an identifier. -/
def findOut (m : Mach) (id : Nat) : Option Outreq := m.fab.out.find? (·.id == id)

/-- An outstanding request changed. -/
def modOut (id : Nat) (f : Outreq → Outreq) : Mach → Mach :=
  modFab fun x => { x with out := x.out.map fun o => if o.id == id then f o else o }

/-! ### Applying at the destination -/

/-- The bytes of DETAIL at the head of a completion's payload. -/
def completionOf (m : Mach) (p : FabPkt) (st : Status) (detail : Nat) (data : List Byte) : FabPkt :=
  { type := 8, src := selfNode m, dst := p.src, ftid := p.ftid, cls := p.cls,
    order := packetOrder p.dst p.src p.cls p.ftid p.offset, ssn := p.ssn, tag := p.tag,
    len := data.length, aop := statusCode st, srcEpoch := m.fab.epoch, dstEpoch := p.srcEpoch,
    reqId := p.reqId, payload := le 4 detail ++ data }

/-- A completion given to a request: to this module's own through its queue, to another's by packet.  The request's admission
before a freeze ends with it (R161). -/
def answerPkt (p : FabPkt) (st : Status) (detail : Nat) (data : List Byte) (m : Mach) : Mach :=
  let m := modFab (fun f => { f with admitted := f.admitted.filter (· != (p.src, p.reqId)) }) m
  if p.src = selfNode m then modFab (fun f => { f with localQ := f.localQ ++ [(p.reqId, st, detail, data)] }) m
  else routePacket (completionOf m p st detail data) m

/-- R342, R360: an ordered STORE or MESSAGE refused in its turn was never applied: a duplicate of it gets the refusal again. -/
def noteRefused (p : FabPkt) (st : Status) (m : Mach) : Mach :=
  if p.cls = 0 || (p.type != tStore && p.type != tMessage) then m
  else
    modFab (fun f =>
      let keep := f.refused.filter fun r => !(r.1 == p.src && r.2.1 == p.ftid && r.2.2.1 == p.cls && r.2.2.2.1 == p.ssn)
      { f with refused := if st == .ok then keep else (p.src, p.ftid, p.cls, p.ssn, st) :: keep }) m

/-- R342: the refusal that a duplicate's original got. -/
def refusedAs (m : Mach) (p : FabPkt) : Option Status :=
  (m.fab.refused.find? fun r => r.1 == p.src && r.2.1 == p.ftid && r.2.2.1 == p.cls && r.2.2.2.1 == p.ssn).map (·.2.2.2.2)

/-- R342: a request's outcome in its turn, answered and remembered where it was refused. -/
def answerTurn (p : FabPkt) (st : Status) (detail : Nat) (data : List Byte) (m : Mach) : Mach :=
  m |> noteRefused p st |> answerPkt p st detail data

/-- R168: bytes that a tenancy sends as a request's data. -/
def sentFor (t n : Nat) : Mach → Mach := modTen t fun x => { x with acct := { x.acct with fabTx := x.acct.fabTx + n } }

/-- R342: the stream of a request at its destination. -/
def dstStream (m : Mach) (p : FabPkt) : DstStream :=
  (m.fab.dstStreams.find? fun s => s.src == p.src && s.ftid == p.ftid && s.cls == p.cls).getD
    { src := p.src, ftid := p.ftid, cls := p.cls }

/-- The stream changed. -/
def setDstStream (s : DstStream) : Mach → Mach :=
  modFab fun f => { f with dstStreams := s :: f.dstStreams.filter fun x =>
    !(x.src == s.src && x.ftid == s.ftid && x.cls == s.cls) }

/-- The bytes of a request's range: an atomic's word, or its LEN. -/
def extent (p : FabPkt) : Nat := if p.type = tAtomic then p.size else p.len

/-- R166, R167: the lowest valid entry that covers a request with the right `right`. -/
def grantFor (m : Mach) (p : FabPkt) (right : Nat) : Option GrantBlk :=
  let n := extent p
  (m.ten.grants.filter fun g =>
    g.valid && (g.srcNode == p.src || g.srcNode == 0xFFF) && g.srcFtid == p.ftid && p.ftid != 0xFFFF
      && g.rights.testBit right
      && (right == 3 || (g.basePage * pageSize ≤ p.offset && p.offset + n ≤ (g.basePage + g.pages) * pageSize))).foldl
    (fun b g => match b with
      | none => some g
      | some x => if g.entry < x.entry then some g else some x) none

/-- The right that a request type needs. -/
def rightOf (type : Nat) : Nat := if type = tLoad then 0 else if type = tStore then 1 else if type = tAtomic then 2 else 3

/-- R356: a posted queue of the tenancy that a message names: an expert queue, a collective's or a
shard install's receive queue.  DESIGN CHOICE (log 13): the gather area of a layer's layout, whose queue
the manual does not number, is expert queue 1,024 + layer. -/
def queuePosted (m : Mach) (t tag : Nat) : Bool :=
  let q := tag % 4096
  match tag / 4096 with
  | 0 =>
    if q < 1024 then (tenOf m t).queues.any (·.num == q)
    else m.ctxs.any fun c => c.isOpen && c.ten == t && c.layouts.any (·.blk.layer == q - 1024)
  | 1 => m.ctxs.any fun c => c.isOpen && c.ten == t && c.colls.any (·.blk.queue == q)
  | 2 => (tenOf m t).shards.any fun s => s.st == .installing && s.blk.upstream && s.blk.queue == q
  | _ => false

/-- R168: the context that a posted queue of a tenancy belongs to. -/
def queueCtx (m : Mach) (t tag : Nat) : Option Nat :=
  let q := tag % 4096
  let own (p : Ctx → Bool) : Option Nat := m.ctxs.findIdx? fun c => c.isOpen && c.ten == t && p c
  match tag / 4096 with
  | 0 =>
    if q < 1024 then ((tenOf m t).queues.find? (·.num == q)).map (·.ctx) else own fun c => c.layouts.any (·.blk.layer == q - 1024)
  | 1 => own fun c => c.colls.any (·.blk.queue == q)
  | _ => none

/-- R29, R167: the tenancy a request enters, or the status that turns it away. -/
def enters (m : Mach) (p : FabPkt) : Nat × Status :=
  if p.type = tMessage then
    match grantFor m p 3 with
    | none => (48, .denied)
    | some _ =>
      let ts := (m.ten.grants.filter fun g =>
        g.valid && (g.srcNode == p.src || g.srcNode == 0xFFF) && g.srcFtid == p.ftid && g.rights.testBit 3).map
          (·.localTen)
      match ts.find? fun t => queuePosted m t p.tag with
      | none => (48, .denied)
      | some t => (t, .ok)
  else if !inReach m p.src then (48, .outOfReach)
  else
    match grantFor m p (rightOf p.type) with
    | none => (48, .denied)
    | some g => (g.localTen, .ok)

/-- DETAIL of a destination's refusal: its node number, or the source of poison (R202). -/
def refusalDetail (m : Mach) (st : Status) : Nat :=
  match st with
  | .denied | .outOfReach => node16 m
  | .poisoned => 4
  | _ => 0

/-- R354: the replay entry that an atomic finds. -/
def replayOf (m : Mach) (p : FabPkt) : Option Replay :=
  m.fab.replays.find? fun r => r.src == p.src && r.ftid == p.ftid && r.tag % 1024 == p.tag % 1024

/-- R354: entries of a source below its LOW_TAG are released. -/
def releaseReplays (p : FabPkt) : Mach → Mach :=
  modFab fun f => { f with replays := f.replays.filter fun r => !(r.src == p.src && r.ftid == p.ftid && before16 r.tag p.lowTag) }

/-- R354: an atomic's outcome recorded. -/
def recordReplay (p : FabPkt) (st : Status) (old : Nat) (m : Mach) : Mach :=
  modFab (fun f =>
    { f with replays :=
        { src := p.src, ftid := p.ftid, tag := p.tag, status := st, old, atUs := m.tick.nowUs, retainMs := f.retainMs } ::
        f.replays.filter fun r => !(r.src == p.src && r.ftid == p.ftid && r.tag % 1024 == p.tag % 1024) }) m

/-- R354: the entries of a node and tag that have been recorded for their RETAIN_MS keep the tag and discard the result. -/
def ageReplay (src tag : Nat) (m : Mach) : Mach :=
  modFab (fun f => { f with replays := f.replays.map fun r =>
    if r.src == src && r.tag == tag && due m r.atUs (r.retainMs * 1000) then { r with aged := true, old := 0 } else r }) m

/-- An atomic's answer: recorded, counted and returned. -/
def finishAtomic (p : FabPkt) (st : Status) (detail old : Nat) (m : Mach) : Mach :=
  m |> recordReplay p st old
    |> modFab (fun f => if st == .ok then { f with applied := bump 32 1 f.applied } else f)
    |> answerPkt p st detail (if st == .ok then le p.size old else [])

/-- Table 5.6: the source of poison that a fabric source is told. -/
def fabPoison : Nat := 4

/-- R353: an atomic on a word of a page that can be used now. -/
def applyAtomic (p : FabPkt) (t : Nat) (m : Mach) : Mach :=
  let m := noteDev t p.offset p.size m
  match devSee m t p.offset p.size with
  | .denied x => finishAtomic p .denied x 0 m
  | .poison s => m |> countPoison (.poison s) |> finishAtomic p .poisoned fabPoison 0
  | .ok bs =>
    let a := unle (p.payload.take p.size)
    let b := unle ((p.payload.drop p.size).take p.size)
    m |> devPut t p.offset (le p.size (fabAtomic p.size p.aop (unle bs) a b))
      |> sentFor t p.size |> finishAtomic p .ok 0 (unle bs)

/-- A store, load or atomic applied to a page that can be used now (R353); a poisoned read answers with source 4 (R202), and
so does a store whose merge cannot read a unit (R197), of which it writes nothing. -/
def applyNow (p : FabPkt) (t : Nat) (m : Mach) : Mach :=
  let m := touchPage t (p.offset / pageSize) m
  if p.type = tLoad then
    let m := noteDev t p.offset p.len m
    match devSee m t p.offset p.len with
    | .ok bs => m |> sentFor t bs.length |> answerPkt p .ok 0 bs
    | .poison s => m |> countPoison (.poison s) |> answerPkt p .poisoned fabPoison []
    | .denied x => answerPkt p .denied x [] m
  else if p.type = tStore then
    let m := materialise t (p.offset / pageSize) m
    let st : Status := if partialBad m t p.offset p.payload.length then .poisoned else .ok
    m |> devMerge t p.offset p.payload |> answerTurn p st (if st == .ok then 0 else fabPoison) []
  else m |> materialise t (p.offset / pageSize) |> applyAtomic p t

/-- R161: the request was admitted before the boundary that froze its page. -/
def wasAdmitted (m : Mach) (p : FabPkt) : Bool := m.fab.admitted.contains (p.src, p.reqId)

/-- R161, R176, R239: the page of a store, load or atomic may be used. -/
def pageAdmits (m : Mach) (p : FabPkt) (t : Nat) : Bool :=
  let n := p.offset / pageSize
  match findPage m t n with
  | none => false
  | some g => (!keyFrozen m t g.key || wasAdmitted m p) && (p.type == tLoad || g.claim == 0)

/-- R178, R181: how a page stands for a request: usable now, to be waited for, or failing at once. -/
inductive PageNow where
  | use
  | wait
  | fail
deriving DecidableEq, Repr

/-- R178, R199: a page is read or written where it is. -/
def pageInPlace (touch bypass : Bool) (g : Page) : Bool := touch || bypass || g.pin == 2 || !g.crcBad.isEmpty

/-- R178, R190: a page for an access that promotes on touch, unless pinned in LPDDR5X. -/
def pageNow (fs : FlashState) (m : Mach) (g : Page) (wr inPlace : Bool) : PageNow :=
  match g.mig with
  | some _ =>
    -- a demotion reads from the HBM frame, and a write abandons it (Table 7.7); a ZERO page being filled reads as zero (R173)
    if g.tier == .hbm || (g.tier == .zero && !wr) then .use else .wait
  | none =>
    match g.tier with
    | .hbm => .use
    | .zero => if wr then (if freeFrames m (zeroTier g) = 0 then .wait else .use) else .use
    | .lp => if inPlace || g.pin == 2 then .use else .wait
    | .flash => if fs == .offline then .fail else if inPlace then .use else .wait

/-- R187: a write to a page under demotion abandons the demotion; the command that asked for it counts it. -/
def abandonDemotion (t n : Nat) (m : Mach) : Mach :=
  match findPage m t n with
  | none => m
  | some g =>
    match g.mig with
    | none => m
    | some mg =>
      if g.tier == .hbm then m |> modPage t n (fun g => { g with mig := none }) |> settleMiss t n mg.dest |> pinPoolPage t n
      else m

/-- An admitted request in its turn: applied, refused, or waiting on its page (R181). -/
def applyPkt (fs : FlashState) (p : FabPkt) (t : Nat) (st : Status) (m : Mach) : Mach × Bool :=
  if st != .ok then
    if p.type = tAtomic then (finishAtomic p st (refusalDetail m st) 0 m, true)
    else (answerTurn p st (refusalDetail m st) [] m, true)
  else if p.type = tMessage then
    (m |> onlyIf (p.tag / 4096 == 1) (collData t p.tag p.offset p.payload) |> answerTurn p .ok 0 [], true)
  else
    let n := p.offset / pageSize
    if !pageAdmits m p t then
      (if p.type = tAtomic then finishAtomic p .denied (node16 m) 0 m else answerTurn p .denied (node16 m) [] m, true)
    else
      match findPage m t n with
      | none => (m, true)
      | some g =>
        if wasAdmitted m p || ((devBad m t p.offset (extent p)).isSome && g.tier != .hbm) then (applyNow p t m, true)
        else
          match pageNow fs m g (p.type != tLoad) (pageInPlace false false g) with
          | .use => (m |> onlyIf (p.type != tLoad) (abandonDemotion t n) |> applyNow p t, true)
          | .fail =>
            (if p.type = tAtomic then finishAtomic p .tierFail (n % 2 ^ 24) 0 m
             else answerTurn p .tierFail (n % 2 ^ 24) [] m, true)
          | .wait =>
            (m |> touchPage t n |> askMove t n (if g.tier == .zero then zeroTier g else .hbm)
               |> modFab (fun f => { f with waitPage := f.waitPage ++ [(p, t, n, m.tick.nowUs)] }), false)

/-- R354: an atomic in its turn: answered from the replay table, or applied once.  One out of reach is neither (R29). -/
def resolveAtomic (fs : FlashState) (p : FabPkt) (t : Nat) (st : Status) (m : Mach) : Mach × Bool :=
  if st == .outOfReach then (answerPkt p st (refusalDetail m st) [] m, true) else
  let m := releaseReplays p m
  match replayOf m p with
  | none => applyPkt fs p t st m
  | some r =>
    if r.tag != p.tag then applyPkt fs p t st m
    else if r.aged then (answerPkt p .indeterminate p.tag [] m |>
        modFab (fun f => { f with indeterminate := bump 16 1 f.indeterminate }), true)
    else
      (m |> modFab (fun f => if p.retry then { f with replayHit := bump 16 1 f.replayHit } else f)
         |> answerPkt p r.status (refusalDetail m r.status) (if r.status == .ok then le p.size r.old else []), true)

/-- A request in its turn. -/
def takeTurn (fs : FlashState) (p : FabPkt) (t : Nat) (st : Status) (m : Mach) : Mach × Bool :=
  if p.type = tAtomic then resolveAtomic fs p t st m else applyPkt fs p t st m

/-- R342: a stream goes on with the early arrivals whose turn has come. -/
def drainStream (fs : FlashState) (src ftid cls : Nat) : Nat → Mach → Mach
  | 0, m => m
  | fuel + 1, m =>
    let s := (m.fab.dstStreams.find? fun s => s.src == src && s.ftid == ftid && s.cls == cls).getD { src, ftid, cls }
    if s.busy then m
    else
      match s.held.find? fun h => h.1.ssn == s.next with
      | none => m
      | some h =>
        let s' := { s with held := s.held.filter (·.1.ssn != h.1.ssn) }
        let (m1, done) := takeTurn fs h.1 h.2.1 h.2.2 (setDstStream s' m)
        if done then drainStream fs src ftid cls fuel (setDstStream { s' with next := wrap 16 (s'.next + 1) } m1)
        else setDstStream { s' with busy := true } m1

/-- R342: a duplicate of a request whose turn has been: applied, or refused and answered with the refusal again.  R29's check
comes before it. -/
def answerDuplicate (p : FabPkt) (t : Nat) (st : Status) (m : Mach) : Mach :=
  if st == .outOfReach then answerPkt p st (refusalDetail m st) [] m
  else if p.type = tAtomic then
    match replayOf m p with
    | some r =>
      if r.tag = p.tag && !r.aged then
        m |> modFab (fun f => if p.retry then { f with replayHit := bump 16 1 f.replayHit } else f)
          |> answerPkt p r.status (refusalDetail m r.status) (if r.status == .ok then le p.size r.old else [])
      else m |> modFab (fun f => { f with indeterminate := bump 16 1 f.indeterminate })
             |> answerPkt p .indeterminate p.tag []
    | none => m |> modFab (fun f => { f with indeterminate := bump 16 1 f.indeterminate })
                |> answerPkt p .indeterminate p.tag []
  else if p.type = tLoad then
    if st != .ok then answerPkt p st (refusalDetail m st) [] m
    else if pageAdmits m p t then applyNow p t m
    else answerPkt p .denied (node16 m) [] m
  else
    match refusedAs m p with
    | some st => answerPkt p st (if st == .tierFail then p.offset / pageSize % 2 ^ 24 else refusalDetail m st) [] m
    | none => answerPkt p .ok 0 [] m

/-- R342: an admitted or refused request takes its place in its stream. -/
def enterStream (fs : FlashState) (p : FabPkt) (t : Nat) (st : Status) (m : Mach) : Mach :=
  if p.cls = 0 then
    if m.fab.waitPage.any (fun w => w.1.src == p.src && w.1.reqId == p.reqId) then m else (takeTurn fs p t st m).1
  else
    let s := dstStream m p
    if before16 p.ssn s.next then answerDuplicate p t st m
    else if s.busy && p.ssn == s.next then m
    else if p.ssn == s.next then
      let (m1, done) := takeTurn fs p t st (setDstStream s m)
      if done then drainStream fs p.src p.ftid p.cls 257 (setDstStream { s with next := wrap 16 (s.next + 1) } m1)
      else setDstStream { s with busy := true } m1
    else if s.held.any (·.1.ssn == p.ssn) then m
    else if 256 ≤ s.held.length then modFab (fun f => { f with reorderDrop := bump 16 1 f.reorderDrop }) m
    else setDstStream { s with held := s.held ++ [(p, t, st)] } m

/-- R181: a request's page no longer keeps it waiting. -/
def pageFree (fs : FlashState) (m : Mach) (p : FabPkt) (t n : Nat) : Bool :=
  match findPage m t n with
  | none => true
  | some g => wasAdmitted m p || pageNow fs m g (p.type != tLoad) (pageInPlace false false g) != .wait

/-- R181, R186: the requests that waited on a page go on, each in its turn; where the page has come to rest elsewhere it is
asked for again and they wait on. -/
def releasePage (fs : FlashState) (t n : Nat) (m : Mach) : Mach :=
  let here (w : FabPkt × Nat × Nat × Nat) : Bool := w.2.1 == t && w.2.2.1 == n
  let go (w : FabPkt × Nat × Nat × Nat) : Bool := here w && pageFree fs m w.1 t n
  let ws := m.fab.waitPage.filter go
  let m := m |> onlyIf (m.fab.waitPage.any fun w => here w && !go w) (askMove t n .hbm)
    |> modFab (fun f => { f with waitPage := f.waitPage.filter (!go ·) })
  forEach ws (fun w m =>
    let p := w.1
    let m := modMem (fun x => { x with stallRemote := bump 16 1 x.stallRemote }) m
    let (m1, done) := takeTurn fs p t .ok m
    if done && p.cls != 0 then
      let s := dstStream m1 p
      drainStream fs p.src p.ftid p.cls 257 (setDstStream { s with busy := false, next := wrap 16 (s.next + 1) } m1)
    else m1) m

/-! ### Sending at the source -/

/-- The lines of 64 bytes that a request covers. -/
def reqLines (r : FabReq) : Nat × Nat :=
  let n := if r.type = tAtomic then r.size else max 1 (max r.len r.payload.length)
  (r.offset / 64, (r.offset + n - 1) / 64)

/-- Two requests meet in a line of one destination, or of one queue for messages. -/
def sameLine (a b : FabReq) : Bool :=
  a.node == b.node && (a.type == tMessage) == (b.type == tMessage)
    && (a.type != tMessage || a.tagQueue == b.tagQueue)
    && (reqLines a).1 ≤ (reqLines b).2 && (reqLines b).1 ≤ (reqLines a).2

/-- R343: the request waits for an earlier one of its source to the same line. -/
def lineHeld (earlier : List Outreq) (o : Outreq) : Bool :=
  o.req.cls == 0 && earlier.any fun e =>
    e.ftid == o.ftid && sameLine e.req o.req &&
      (o.req.type != tLoad || e.req.type == tStore || e.req.type == tAtomic)

/-- R344: a release flag waits for earlier stores and messages to its node. -/
def flagHeld (earlier : List Outreq) (o : Outreq) : Bool :=
  o.req.release && earlier.any fun e =>
    e.ftid == o.ftid && e.req.node == o.req.node && (e.req.type == tStore || e.req.type == tMessage)

/-- R341: the stream has its 4,096 requests outstanding. -/
def streamFull (earlier : List Outreq) (o : Outreq) : Bool :=
  4096 ≤ earlier.countP fun e => e.req.node == o.req.node && e.ftid == o.ftid && e.req.cls == o.req.cls

/-- R354: the oldest tag of a source to a node still uncompleted. -/
def lowTag (earlier : List Outreq) (o : Outreq) : Nat :=
  ((earlier.find? fun e => e.req.type == tAtomic && e.req.node == o.req.node && e.ftid == o.ftid).map (·.tag)).getD o.tag

/-- R354: the tag window is full. -/
def tagHeld (earlier : List Outreq) (o : Outreq) : Bool :=
  o.req.type == tAtomic && 1024 ≤ (o.tag + 65536 - lowTag earlier o) % 65536

/-- R344: an earlier request of the flag's class has failed. -/
def flagFailed (o : Outreq) : Bool := o.req.release && o.tainted

/-- Table 14.1: the packet of a request. -/
def pktOf (m : Mach) (o : Outreq) (low : Nat) : FabPkt :=
  { type := o.req.type, release := o.req.release, retry := o.req.type == tAtomic && 0 < o.sends,
    src := selfNode m, dst := o.req.node, ftid := o.ftid, cls := o.req.cls, order := o.order, ssn := o.ssn,
    tag := if o.req.type = tAtomic then o.tag else o.req.tagQueue,
    len := if o.req.type = tLoad then o.req.len else o.req.payload.length,
    offset := o.req.offset, aop := o.req.aop, size := o.req.size, srcEpoch := m.fab.epoch,
    dstEpoch := (alGet o.req.node m.fab.peerEpochs).getD 0, lowTag := low, reqId := o.id,
    payload := o.req.payload }

/-- One send of a request: to this module itself, or by its next hop. -/
def sendOut (fs : FlashState) (id : Nat) (m : Mach) : Mach :=
  match findOut m id with
  | none => m
  | some o =>
    let earlier := m.fab.out.takeWhile (·.id != id)
    let p := pktOf m o (lowTag earlier o)
    let m := modOut id (fun o => { o with sends := o.sends + 1, sinceUs := m.tick.nowUs, epoch := p.dstEpoch }) m
    let m := modFab (fun f =>
      { f with sent := bump 32 1 f.sent
               flags := if o.req.release && o.sends = 0 then bump 32 1 f.flags else f.flags }) m
    let m := modCtx o.req.ctx (fun c => { c with acct := { c.acct with fabTx := c.acct.fabTx + o.req.payload.length } }) m
    let m := modTen o.req.ten (fun t => { t with acct := { t.acct with fabTx := t.acct.fabTx + o.req.payload.length } }) m
    if o.req.node = selfNode m then enterStream fs p o.req.ten .ok m else routePacket p m

/-- R341: the next sequence number of an ORDERED stream, taken. -/
def takeSsn (node ftid cls : Nat) (m : Mach) : Nat × Mach :=
  let s := (m.fab.srcStreams.find? fun s => s.node == node && s.ftid == ftid && s.cls == cls).getD
    { node, ftid, cls }
  let s' := { s with next := if cls = 0 then 0 else wrap 16 (s.next + 1) }
  let keep := m.fab.srcStreams.filter fun x => !(x.node == node && x.ftid == ftid && x.cls == cls)
  (s.next, modFab (fun f => { f with srcStreams := s' :: keep }) m)

/-- R161: the requests admitted so far that name pages satisfying `q` of a tenancy keep their admission. -/
def keepAdmitted (t : Nat) (q : Nat → Bool) : Mach → Mach :=
  modFab fun f =>
    let inHand := f.waitPage.map (fun w => (w.1, w.2.1)) ++
      f.dstStreams.flatMap fun s => s.held.filterMap fun h => if h.2.2 == .ok then some (h.1, h.2.1) else none
    { f with admitted := f.admitted ++
        (inHand.filter fun x => x.2 == t && x.1.type != tMessage && q (x.1.offset / pageSize)).map fun x => (x.1.src, x.1.reqId) }

/-- R340: a request issued, with its identifier; the checks of R28 and R359 complete it at once.  The spec does not say
whether a request refused so uses up its sequence number and tag: it does here, and the stream's next request carries the
next number (DESIGN CHOICE, log 105). -/
def issueReq (r : FabReq) (own : Waiter) (m : Mach) : Mach :=
  let id := m.fab.nextId
  let ftid := (tenOf m r.ten).ftid
  let (ssn, m) := takeSsn r.node ftid r.cls m
  let tag := ((m.fab.tags.find? (·.1 == (r.node, ftid))).map (·.2)).getD 0
  let m := if r.type = tAtomic then modFab (fun f =>
      { f with tags := ((r.node, ftid), wrap 16 (tag + 1)) :: f.tags.filter (·.1 != (r.node, ftid)) }) m else m
  let failed := m.fab.srcStreams.any fun s => s.node == r.node && s.ftid == ftid && s.cls == r.cls && s.failed
  let o : Outreq :=
    { req := r, own, id, ftid, ssn, tag, order := packetOrder (selfNode m) r.node r.cls ftid r.offset,
      attempts := m.fab.attempts, epoch := (alGet r.node m.fab.peerEpochs).getD 0, sinceUs := m.tick.nowUs, tainted := failed }
  let m := modFab (fun f => { f with nextId := wrap 16 (f.nextId + 1), out := f.out ++ [o] }) m
  let m := match own with
    | .move p _ => modPea p (fun x => { x with pkts := x.pkts ++ [id] }) m
    | .atom p _ => modPea p (fun x => { x with fatoms := x.fatoms + 1 }) m
    | _ => m
  if r.node != selfNode m && r.type != tMessage && !inReach m r.node then
    completeOut o .outOfReach r.node [] m
  else if m.fab.lostNodes.contains r.node then completeOut o .targetLost r.node [] m
  else
    let earlier := m.fab.out.takeWhile (·.id != id)
    if lineHeld earlier o then modFab (fun f => { f with lineHold := bump 16 1 f.lineHold }) m else m

/-- R341, R343, R344: a request not yet sent is sent, withheld, or goes on waiting. -/
def tryHeld (fs : FlashState) (m : Mach) (id : Nat) : Mach :=
  match findOut m id with
  | none => m
  | some o =>
    let earlier := m.fab.out.takeWhile (·.id != id)
    if 0 < o.sends || lineHeld earlier o || flagHeld earlier o || streamFull earlier o || tagHeld earlier o then m
    else if flagFailed o then
      (if m.fab.lostNodes.contains o.req.node then completeOut o .targetLost o.req.node [] m
       else completeOut o .flagWithheld o.req.cls [] m)
    else sendOut fs id m

/-- R352: a FATOM that stalled its sequencer, with fewer than 32 outstanding now. -/
def freedFatom (m : Mach) : Option (Nat × FabReq × Nat) :=
  (m.peas.zipIdx.find? fun x => x.1.fatomHeld.isSome && x.1.fatoms < 32).bind fun x => x.1.fatomHeld.map fun h => (x.2, h)

/-- R352: such a FATOM issued, and its pea's program goes on. -/
def issueFatom (x : Nat × FabReq × Nat) (m : Mach) : Mach :=
  m |> modPea x.1 (fun a => { a with fatomHeld := none, st := if a.st == .held then .run else a.st })
    |> issueReq x.2.1 (.atom x.1 x.2.2)

/-- Completions of this module's own requests taken, waiting requests tried and stalled FATOMs issued, until nothing moves. -/
def pumpFab (fs : FlashState) : Nat → Mach → Mach
  | 0, m => m
  | fuel + 1, m =>
    match m.fab.localQ with
    | (id, st, detail, data) :: r =>
      let m := modFab (fun f => { f with localQ := r }) m
      match findOut m id with
      | none => pumpFab fs fuel m
      | some o => pumpFab fs fuel (completeOut o st detail data m)
    | [] =>
      let ids := (m.fab.out.filter (·.sends == 0)).map (·.id)
      let m' := ids.foldl (tryHeld fs) m
      match freedFatom m' with
      | some x => pumpFab fs fuel (issueFatom x m')
      | none => if m'.fab.localQ.isEmpty then m' else pumpFab fs fuel m'

/-- The fabric set going again after a completion or an issue. -/
def settleFab (fs : FlashState) (m : Mach) : Mach :=
  pumpFab fs (2 * m.fab.out.length + 4 * m.peas.countP (·.fatomHeld.isSome) + 8) m

/-- Requests whose context or tenancy has ended belong to none (256, 48) from then on: what they bring goes nowhere (R168,
R170). -/
def disown (q : FabReq → Bool) (f : FabReq → FabReq) : Mach → Mach :=
  modFab fun x => { x with out := x.out.map fun o => if q o.req then { o with req := f o.req } else o }

/-- A request issued and set going. -/
def issueNow (fs : FlashState) (r : FabReq) (own : Waiter) (m : Mach) : Mach :=
  settleFab fs (issueReq r own m)

/-- R355, R360: every request outstanding to a node under another epoch completes, those held back at the source too. -/
def learnEpoch (node epoch : Nat) (m : Mach) : Mach :=
  let old := (alGet node m.fab.peerEpochs).getD 0
  if epoch = 0 || epoch = old then m
  else
    let m := modFab (fun f =>
      { f with peerEpochs := alSet node epoch f.peerEpochs
               srcStreams := if old = 0 then f.srcStreams else f.srcStreams.filter (·.node != node)
               tags := if old = 0 then f.tags else f.tags.filter (·.1.1 != node) }) m
    if old = 0 then m
    else
      forEach (m.fab.out.filter fun o => o.req.node == node) (fun o =>
        if o.req.type = tAtomic then completeOut o .indeterminate o.tag [] else completeOut o .targetLost node []) m

/-! ### Commands -/

/-- R189: NAND programs, at most 1.3 times the frames written. -/
def programs (n : Nat) (f : FlashSt) : FlashSt :=
  { f with nandWritten := max f.nandWritten (min (f.framesWritten * 13 / 10) (bump 32 n f.nandWritten)) }

/-- R192: a frame written into flash. -/
def flashWrite (f : FlashSt) : FlashSt :=
  programs (Config.nandPrograms f.choices) { f with framesWritten := bump 32 1 f.framesWritten, choices := f.choices + 1 }

/-- Frames written into flash, one after another. -/
def flashWrites : Nat → FlashSt → FlashSt
  | 0, f => f
  | n + 1, f => flashWrites n (flashWrite f)

/-- R188, R192: the reads of a page in flash that needed read retry, by channel: free values. -/
def retriesOf (f : FlashSt) : List Nat := (List.range 8).map (Config.flashRetries f.choices)

/-- R189, R192: a page read out of flash: the reads retried, and the chunks rebuilt from die parity where retries did not
do: free values. -/
def flashRead (f : FlashSt) : FlashSt :=
  { f with retried := bump 32 (retriesOf f).sum f.retried, rebuilt := bump 16 (Config.rebuiltChunks f.choices) f.rebuilt
           choices := f.choices + 1 }

/-- Pages read out of flash, one after another, with the retries of each channel. -/
def flashReads : Nat → FlashSt → List Nat → FlashSt × List Nat
  | 0, f, rs => (f, rs)
  | n + 1, f, rs => flashReads n (flashRead f) (List.zipWith (· + ·) rs (retriesOf f))

/-- R192: the flash tier with the frames that commands have written and read in place since the last boundary counted. -/
def flashView (nv : Nv) (m : Mach) : FlashSt :=
  (flashReads m.chan.readsInPlace (flashWrites m.chan.inPlace nv.flash) m.chan.retries).1

/-- R192: at a boundary what commands wrote and read in place in flash pages joins the counts kept in flash. -/
def foldFlash (r : Nv × Mach) : Nv × Mach :=
  if r.2.chan.inPlace = 0 && r.2.chan.readsInPlace = 0 then r
  else
    let x := flashReads r.2.chan.readsInPlace (flashWrites r.2.chan.inPlace r.1.flash) r.2.chan.retries
    ({ r.1 with flash := x.1 }, { r.2 with chan := { r.2.chan with inPlace := 0, readsInPlace := 0, retries := x.2 } })

/-- A command of the running module that meets the flash tier's state. -/
def onFab (f : FlashState → Mach → Mach) (s : State) : Host.Outcome State Fault Refusal :=
  if isUp s.m then .next { s with m := f s.nv.flash.state s.m } else .next s

/-- R352: a pea's atomic: with 32 outstanding it stalls the pea's sequencer until one completes. -/
def peaAtomic (fs : FlashState) (r : FabReq) (p rec : Nat) (m : Mach) : Mach :=
  if (peaOf m p).fatoms < 32 then issueNow fs r (.atom p rec) m
  else if (peaOf m p).st == .run then modPea p (fun a => { a with st := .held, fatomHeld := some (r, rec) }) m
  else m

/-- R353: an atomic that Table 14.3 has, on a naturally aligned word. -/
def atomicFits (aop size off : Nat) : Bool := atomicValid aop size && off % size == 0

/-- R340: a request of a pea, Turnip or the exchange unit.  A reserved atomic is no request that any of them makes. -/
def issueCmd (r : FabReq) (fs : FlashState) (m : Mach) : Mach :=
  if r.type = tAtomic && !atomicFits r.aop r.size r.offset then m
  else
    match r.record with
    | some (p, a) => peaAtomic fs r p a m
    | none => issueNow fs r .none m

/-- R167, R168: the tenancy, and for a message the context, whose account counts a denied request.  A denied request enters no
tenancy and the spec does not say which one counts it: the first grant with its FTID names it, whatever the node, and none
does where there is no such grant (DESIGN CHOICE, log 125). -/
def deniedFor (m : Mach) (p : FabPkt) : Option (Nat × Option Nat) :=
  (m.ten.grants.find? fun g => g.valid && g.srcFtid == p.ftid).map fun g =>
    (g.localTen, if p.type = tMessage then queueCtx m g.localTen p.tag else none)

/-- R168: a denied request counted. -/
def countDenied (p : FabPkt) (m : Mach) : Mach :=
  match deniedFor m p with
  | none => m
  | some (t, c) =>
    let m := modTen t (fun x => { x with acct := { x.acct with deniedIn := x.acct.deniedIn + 1 } }) m
    match c with
    | none => m
    | some c => modCtx c (fun x => { x with acct := { x.acct with deniedIn := x.acct.deniedIn + 1 } }) m

/-- R29, R355 to R357: a request arriving from another node: reach, epoch and grants in that order.  Before fabric-ready R29
gives OUT_OF_REACH, since MODE_IN_FORCE is 0, and R357 has every admitted request answered NOT_READY: the model answers
NOT_READY before it checks reach or grants (DESIGN CHOICE, log 126).  A reserved type or atomic is not answered (log 127). -/
def receiveReq (p : FabPkt) (fs : FlashState) (m : Mach) : Mach :=
  let c := capturePayload (sha256 p.payload) p.payload m
  let m := capture 0x0B 0 0 (fabHeader p ++ c.1) c.2
  if m.life.removal || p.type = 0 || 4 < p.type || p.dst != selfNode m then m
  else if p.type = tAtomic && !atomicFits p.aop p.size p.offset then m
  else if !m.fab.ready || m.life.mode == .fault then
    let hint := if m.life.mode == .fault || m.fab.node.isNone then 0
      else max 1 (Config.fabricReadyHintUs m.stp.choices)
    m |> modStp (fun x => { x with choices := x.choices + 1 }) |> answerPkt p .notReady hint []
  else if p.dstEpoch != 0 && p.dstEpoch != m.fab.epoch then
    if p.type != tMessage && !inReach m p.src then answerPkt p .outOfReach (refusalDetail m .outOfReach) [] m
    else if p.type = tAtomic then
      m |> modFab (fun f => { f with indeterminate := bump 16 1 f.indeterminate }) |> answerPkt p .indeterminate p.tag []
    else answerPkt p .targetLost (node16 m) [] m
  else
    let m := if (alGet p.src m.fab.srcEpochs).getD p.srcEpoch = p.srcEpoch then m
      else modFab (fun f => { f with dstStreams := f.dstStreams.filter (·.src != p.src)
                                     refused := f.refused.filter (·.1 != p.src)
                                     admitted := f.admitted.filter (·.1 != p.src)
                                     replays := f.replays.filter (·.src != p.src)
                                     waitPage := f.waitPage.filter (·.1.src != p.src) }) m
    let m := modFab (fun f => { f with srcEpochs := alSet p.src p.srcEpoch f.srcEpochs }) m
    let (t, st) := enters m p
    let m := modTen t (fun x => { x with acct := { x.acct with fabRx := x.acct.fabRx + p.payload.length } }) m
    let m := match (if p.type = tMessage && st == .ok then queueCtx m t p.tag else none) with
      | none => m
      | some c => modCtx c (fun x => { x with acct := { x.acct with fabRx := x.acct.fabRx + p.payload.length } }) m
    let m := if st == .denied then countDenied p m else m
    let m := if st == .denied && p.type = tMessage then modFab (fun f => { f with dropMsgs := f.dropMsgs + 1 }) m else m
    settleFab fs (enterStream fs p t st m)

/-- R350: a completion arriving at the source. -/
def receiveCompletion (p : FabPkt) (fs : FlashState) (m : Mach) : Mach :=
  let m := learnEpoch p.src p.srcEpoch m
  match findOut m p.reqId with
  | none => settleFab fs m
  | some o =>
    if o.sends = 0 || o.req.node != p.src then settleFab fs m
    else
      let st := statusOf p.aop
      let detail := field p.payload 0 4
      if st == .notReady then
        modOut o.id (fun o =>
          { o with nrSinceUs := some (o.nrSinceUs.getD m.tick.nowUs), waitUs := some m.tick.nowUs, hint := detail }) m
      else settleFab fs (completeOut o st detail (p.payload.drop 4) m)

/-- R350: the next send of a request, on the next dimension order. -/
def resend (fs : FlashState) (id : Nat) (m : Mach) : Mach :=
  m |> modOut id (fun o => { o with order := (o.order + 1) % 6 }) |> sendOut fs id

/-- R350: a request times out: resent, or TARGET_LOST after its last attempt.  One that never leaves the module (R339) and one
that waits out a hint (R357) do not time out. -/
def timeoutReq (id : Nat) (fs : FlashState) (m : Mach) : Mach :=
  match findOut m id with
  | none => m
  | some o =>
    if o.sends = 0 || o.req.node = selfNode m || o.waitUs.isSome || !due m o.sinceUs m.fab.timeoutUs then m
    else if o.attempts ≤ o.sends then settleFab fs (completeOut o .targetLost o.req.node [] m)
    else
      m |> modFab (fun f => { f with resent := bump 16 1 f.resent }) |> resend fs id

/-- R351: a destination holding a request sends a HOLD. -/
def holdSend (src id : Nat) (m : Mach) : Mach :=
  let ps := m.fab.waitPage.map (·.1) ++ m.fab.dstStreams.flatMap fun s => s.held.map (·.1)
  match ps.find? fun p => p.src == src && p.reqId == id with
  | none => m
  | some p => routePacket { completionOf m p .ok 0 [] with type := 0x0A, payload := [], len := 0, aop := 0 } m

/-- R351: a HOLD restarts a request's timeout. -/
def holdReceive (id : Nat) (m : Mach) : Mach := modOut id (fun o => { o with sinceUs := m.tick.nowUs }) m

/-- R357: a request answered NOT_READY is sent again once its hint, or TIMEOUT_US where that is 0, has passed; the send counts
against no attempt. -/
def notReadyRetry (id : Nat) (fs : FlashState) (m : Mach) : Mach :=
  match findOut m id with
  | none => m
  | some o =>
    if !(o.waitUs.any fun t => due m t (if o.hint = 0 then m.fab.timeoutUs else o.hint)) then m
    else
      m |> modFab (fun f => { f with nrRetry := bump 16 1 f.nrRetry })
        |> resend fs id |> modOut id (fun o => { o with sends := o.sends - 1, waitUs := none })

/-- R357: NOT_READY_MS have passed since the first NOT_READY. -/
def notReadyExpiry (id : Nat) (fs : FlashState) (m : Mach) : Mach :=
  match findOut m id with
  | none => m
  | some o =>
    if !(o.nrSinceUs.any fun t => due m t (m.fab.notReadyMs * 1000)) then m
    else settleFab fs (completeOut o .notReady ((o.hint + m.tick.inForce - 1) / m.tick.inForce) [] m)

/-- R359: every port that the plan connects to a node is known to be down. -/
def allLinksDown (m : Mach) (x : Nat) : Bool :=
  match m.link.plan with
  | none => false
  | some pl =>
    let cs := pl.nodes.flatMap fun n => (n.peers.zipIdx).filterMap fun q =>
      match q.1 with
      | some (peer, _) => if peer = x then some (n.node, q.2) else none
      | none => none
    !cs.isEmpty && cs.all fun c => m.fab.downSeen.contains (x, c.1, c.2)

/-- R359: a loss latched as class 3, once.  A module does not lose itself (R339). -/
def latchLoss (x cause : Nat) (m : Mach) : Mach :=
  if x = selfNode m || m.fab.lossLatched.any (·.1 == x) || m.fab.lostNodes.contains x then m
  else modFab (fun f => { f with lossLatched := f.lossLatched ++ [(x, cause)] }) m

/-- R359: LINK_DOWN naming node `x`, from port `port` of node `by_`. -/
def noteDown (x by_ port : Nat) (m : Mach) : Mach :=
  let m := modFab (fun f => { f with downSeen := (x, by_, port) :: f.downSeen }) m
  if allLinksDown m x then latchLoss x 1 m else m

/-- R358, R359: a notice arriving. -/
def receiveNotice (port : Nat) (n : Notice) (fs : FlashState) (m : Mach) : Mach :=
  if m.fab.seen.contains (n.origin, n.number) then m
  else
    let m := modFab (fun f => { f with seen := (n.origin, n.number) :: f.seen }) m
    let m := capture 0x0A 5 port (le 2 n.origin ++ le 2 n.number) m
    let m := if n.hops < 24 then spread { n with hops := n.hops + 1 } port m else m
    match n.kind with
    | .fabricReady e =>
      m |> learnEpoch n.origin e
        |> modFab (fun f => { f with downSeen := f.downSeen.filter (·.1 != n.origin)
                                     readyLatched := f.readyLatched ++ [n.origin] })
        |> settleFab fs
    | .leaving => latchLoss n.origin 0 m
    | .linkDown p x => noteDown x n.origin p m

/-- R53, R352: FATOM of a pea, whose completion may come from another module; a further one stalls the sequencer while 32 are
outstanding. -/
def fatomOp (p aop size cls : Nat) (handle a b : Word64) (rec : Nat) (fs : FlashState) (m : Mach) : Mach :=
  let x := peaOf m p
  let h := handle.toNat
  if 2 ^ 57 ≤ h || 7 < cls || !atomicFits aop size h then endInvalid p m
  else
    match slRange m (peaTen m p) true rec 16 with
    | .error n => endDenied p n m
    | .ok _ =>
      let m := modPea p (fun x => { x with hadFabric := x.hadFabric || h / 2 ^ 45 != selfNode m }) m
      peaAtomic fs { ten := peaTen m p, ctx := peaCtx m p, seq := (x.active.map (·.seq)).getD 0, type := tAtomic,
                     node := h / 2 ^ 45, offset := h % 2 ^ 45, cls, aop, size,
                     payload := le size a.toNat ++ le size b.toNat } p rec m

end Sys2Proof.Machine
end

