-- ==== Sys2Proof/Machine/Move.lean ====
section
/-! DEFINITION. MOVE descriptors: the body's checks, pages and stalls, copying, compression on the way,
and transfers to and from handles (R176 to R180, R213 to R232, R340, R345). -/

namespace Sys2Proof.Machine

/-! ### The body (R176, R213, R217, R222) -/

/-- CMP [3:0] FORMAT. -/
def cmpFmt (b : MoveBody) : Nat := b.cmp % 16
/-- CMP [5:4] BSIZE. -/
def cmpBsize (b : MoveBody) : Nat := b.cmp / 16 % 4
/-- CMP [7] DIR: the destination is compressed. -/
def cmpEncode (b : MoveBody) : Bool := b.cmp / 128 % 2 == 1
/-- A fixed-rate MOVE. -/
def cmpFixed (b : MoveBody) : Bool := 1 ≤ cmpFmt b && cmpFmt b ≤ 3
/-- A variable-rate MOVE. -/
def cmpVar (b : MoveBody) : Bool := 4 ≤ cmpFmt b

/-- R213, R217, R222: a CMP byte and a shape of rows that no rule excludes. -/
def cmpValid (b : MoveBody) : Bool :=
  if b.cmp = 0 then true
  else if b.cmp / 64 % 2 = 1 || 256 ≤ b.cmp then false
  else if cmpFixed b then cmpBsize b == 0 && b.rowBytes % 16 == 0
  else if cmpVar b && cmpFmt b ≤ 11 then
    cmpBsize b ≤ 2 && (cmpFmt b == 4 || cmpEncode b) && b.rows == 1
      && b.rowBytes % vrBlock (cmpBsize b) == 0 && (!cmpEncode b || b.srcStride == 0)
  else false

/-- Where one side of a MOVE lies (Table 7.5 OP). -/
inductive Side where
  | slice | dev | handle
deriving DecidableEq, Repr

/-- The source side of an OP. -/
def srcSide (op : Nat) : Side := if op = 1 then .dev else if op = 3 then .handle else .slice
/-- The destination side of an OP. -/
def dstSide (op : Nat) : Side := if op = 2 then .dev else if op = 4 then .handle else .slice

/-- Table 7.5: the bits an address of a side may hold. -/
def sideBits : Side → Nat
  | .slice => 29 | .dev => 45 | .handle => 57

/-- R176: a body with no reserved value. -/
def moveValid (b : MoveBody) : Bool :=
  b.op ≤ 4 && 1 ≤ b.rows && b.rows ≤ 65535 && 1 ≤ b.rowBytes && b.rowBytes ≤ 2097152 && b.dstStride != 0
    && (!b.release || b.op == 4) && (b.order == 0 || 3 ≤ b.op) && b.order ≤ 7
    && b.src < 2 ^ sideBits (srcSide b.op) && b.dst < 2 ^ sideBits (dstSide b.op) && cmpValid b

/-- Variable-rate blocks of a MOVE. -/
def vrCount (b : MoveBody) : Nat := b.rowBytes / vrBlock (cmpBsize b)

/-- Bytes of a row on the side that is compressed when `comp`. -/
def rowLen (b : MoveBody) (comp : Bool) : Nat :=
  if comp && cmpFixed b then b.rowBytes / 16 * frBytes (cmpFmt b) else b.rowBytes

/-- Bytes that a stream of a MOVE may need (R222). -/
def vrRoom (b : MoveBody) : Nat := up8 (4 * (vrCount b + 1)) + vrCount b * (vrBlock (cmpBsize b) + 8)

/-- The destination ranges of a MOVE. -/
def dstRanges (b : MoveBody) : List (Nat × Nat) :=
  if cmpVar b then [(b.dst, if cmpEncode b then vrRoom b else b.rowBytes)]
  else (List.range b.rows).map fun r => (b.dst + r * b.dstStride, rowLen b (b.cmp != 0 && cmpEncode b))

/-- A reader of the source side. -/
abbrev Reader' := Nat → Nat → Rd

/-- R222: the index entries of a stream that a MOVE needs, as byte offsets from its base. -/
def vrIndexRange (b : MoveBody) : Nat × Nat := (b.src + 4 * b.srcStride, 4 * (vrCount b + 1))

/-- R222: the entries of the index, read. -/
def vrIndex (rd : Reader') (b : MoveBody) : Except Rd (List Nat) :=
  match rd (vrIndexRange b).1 (vrIndexRange b).2 with
  | .ok bs => .ok ((chunksOf 4 bs.length bs).map unle)
  | r => .error r

/-- The source ranges of a MOVE. -/
def srcRanges (rd : Reader') (b : MoveBody) : List (Nat × Nat) :=
  if cmpVar b && !cmpEncode b then
    vrIndexRange b ::
      (match vrIndex rd b with
       | .ok ix =>
         let lo := ix.headD 0
         let hi := ix.getLastD 0
         if lo < hi && hi - lo ≤ vrCount b * (vrBlock (cmpBsize b) / 8 + 1) then [(b.src + 8 * lo, 8 * (hi - lo))]
         else []
       | .error _ => [])
  else if cmpVar b then [(b.src, b.rowBytes)]
  else (List.range b.rows).map fun r => (b.src + r * b.srcStride, rowLen b (b.cmp != 0 && !cmpEncode b))

/-- The source side of a MOVE of tenancy `t`, read where it lies. -/
def readSide (m : Mach) (t : Nat) (sd : Side) : Reader' := fun a n =>
  match sd with
  | .dev => devRead m t a n
  | _ => slRead m t a n

/-! ### Ending and stalling -/

/-- R412: bytes moved by a MOVE, counted for the unit's context. -/
def chargeMove (p slice tier : Nat) (m : Mach) : Mach :=
  charge p (fun a => { a with sliceBytes := a.sliceBytes + slice, tierBytes := a.tierBytes + tier }) m

/-- R180: a stall that has ended, noted for its context's event and counted. -/
def noteStall (c tier page us : Nat) (failed : Bool) (m : Mach) : Mach :=
  m |> modCtx c (fun x => { x with stallTick := x.stallTick ++ [(tier, page, us, failed)] })
    |> modMem (fun x => { x with stalls := bump 32 1 x.stalls
                                 stallFailed := if failed then bump 16 1 x.stallFailed else x.stallFailed })

/-- Table 7.6: WORST_TIER of a page that a MOVE waits for. -/
def stallTier (g : Page) : Nat :=
  match g.mig with
  | some mg => if mg.dest == .hbm then (if g.tier == .flash then 3 else if g.tier == .lp then 2 else 4) else 4
  | none => match g.tier with
    | .lp => 2 | .flash => 3 | _ => 4

/-- R251: a ZERO page of a pool has been asked into HBM and waits for a victim to leave. -/
def zeroAsked (m : Mach) (t : Nat) (g : Page) : Bool :=
  g.tier == .zero && g.claim == 1 && m.mem.asks.any fun a => a.ten == t && a.page == g.num && a.dest == .hbm

/-- R178: how a page of a MOVE stands. -/
def moveNow (fs : FlashState) (m : Mach) (touch bypass : Bool) (t n : Nat) (wr : Bool) : PageNow :=
  match findPage m t n with
  | none => .use
  | some g => if wr && zeroAsked m t g then .wait else pageNow fs m g wr (pageInPlace touch bypass g)

/-- R178: the migrator is asked for a page that a MOVE needs. -/
def askNeeded (t n : Nat) (m : Mach) : Mach :=
  match findPage m t n with
  | none => m
  | some g => askMove t n (if g.tier == .zero then zeroTier g else .hbm) m

/-- R178: a pea begins to wait for pages, and the migrator is asked for them; a wait for a page asked for under R253 is
counted. -/
def stallOn (p t : Nat) (ns : List Nat) (m : Mach) : Mach :=
  let ws := ns.map fun n => (n, ((findPage m t n).map stallTier).getD 4, m.tick.nowUs)
  m |> modPea p (fun a => { a with st := .stalled t ws, hadStall := true })
    |> forEach ns (fun n m =>
        m |> onlyIf ((findPage m t n).any (·.asked)) (modMem fun x => { x with kvLate := bump 16 1 x.kvLate })
          |> askNeeded t n)

/-! ### Writing a destination -/

/-- A write of a MOVE's bytes: the module after it, and whether the MOVE goes on. -/
abbrev Go := Mach × Bool

/-- R197, R203: bytes written at a device-local offset in ascending order; a partial write of a poisoned unit ends the unit,
the bytes below it written. -/
def putDev (p t off : Nat) (bs : List Byte) (m : Mach) : Go :=
  let bad := partialAt m t off bs.length
  let m := m |> forEach (pagesOf off bs.length) (materialise t) |> devMerge t off bs |> chargeMove p 0 (bad.getD bs.length)
  if bad.isSome then (endPoisoned p 1 m, false) else (m, true)

/-- R72, R161: an access of a MOVE to a slice that its tenancy may not use ends the unit; DETAIL is this module's node. -/
def denyMove (p : Nat) (m : Mach) : Mach := endDenied p (node16 m) m

/-- R72, R177: bytes written into slices in ascending order, up to a slice that refuses them. -/
def putSl (p t a : Nat) (bs : List Byte) (m : Mach) : Go :=
  let k := slReach m t true (bs.length / sliceSize + 2) a bs.length
  let m := m |> slPut t a (bs.take k) |> chargeMove p k 0
  if k < bs.length then (denyMove p m, false) else (m, true)

/-- R340: the pieces of a range that no 256-byte boundary of the remote offset crosses. -/
def cutPackets : Nat → Nat → Nat → List (Nat × Nat)
  | 0, _, _ => []
  | fuel + 1, off, n =>
    if n = 0 then []
    else let k := min n (256 - off % 256); (off, k) :: cutPackets fuel (off + k) (n - k)

/-- A fabric request of a MOVE. -/
def moveReq (m : Mach) (p : Nat) (b : MoveBody) (type h off len : Nat) (rel : Bool) (pay : List Byte) : FabReq :=
  { ten := peaTen m p, ctx := peaCtx m p, seq := ((peaOf m p).active.map (·.seq)).getD 0, type,
    node := h / 2 ^ 45, offset := off, len, cls := b.order, release := rel, payload := pay }

/-- R340, R344: bytes stored to a handle in packets, the last one a release flag where the MOVE asks. -/
def putRemote (fs : FlashState) (p : Nat) (b : MoveBody) (h : Nat) (bs : List Byte) (last : Bool) (m : Mach) : Go :=
  let off := h % 2 ^ 45
  let ks := cutPackets (bs.length / 256 + 2) off bs.length
  (forEach ks (fun k m =>
    let rel := b.release && last && k.1 + k.2 == off + bs.length
    issueNow fs (moveReq m p b tStore h k.1 0 rel ((bs.drop (k.1 - off)).take k.2)) (.move p 0) m)
    (modPea p (fun a => { a with hadFabric := a.hadFabric || h / 2 ^ 45 != node16 m }) m), true)

/-- Bytes of a MOVE put at its destination. -/
def putSide (fs : FlashState) (p t : Nat) (b : MoveBody) (a : Nat) (bs : List Byte) (last : Bool) (m : Mach) : Go :=
  match dstSide b.op with
  | .slice => putSl p t a bs m
  | .dev => putDev p t a bs m
  | .handle => putRemote fs p b a bs last m

/-- R202, R203: bytes of a tenancy's range written as poison, by whole units. -/
def poisonDev (t a n : Nat) (m : Mach) : Mach :=
  let lo := devAddr t a / 64
  let hi := (devAddr t a + n + 63) / 64
  modMem (fun x => { x with devPoison := (List.range' lo (hi - lo)).foldl (fun l i => insRising i l) x.devPoison })
    (forEach (pagesOf a n) (materialise t) m)

/-- R202: destination bytes written as poison.  A handle of this module names the tenancy's own range (R339); to another node
nothing is sent: no packet of chapter 14 carries poison. -/
def poisonSide (t : Nat) (sd : Side) (a n : Nat) (m : Mach) : Mach :=
  match sd with
  | .slice => slPoison t a n m
  | .dev => poisonDev t a n m
  | .handle => if a / 2 ^ 45 = node16 m then poisonDev t (a % 2 ^ 45) n m else m

/-- R79, R83: a MOVE's read of its source merges in slices; in HBM3E its corrections are counted. -/
def noteSrc (t : Nat) (sd : Side) (a n : Nat) (m : Mach) : Mach :=
  match sd with
  | .slice => noteRead t a n true m
  | .dev => noteDev t a n m
  | .handle => m

/-- A failed read of a MOVE's source at `src`: a denial, or poison passed on to `n` destination bytes. -/
def failRead (p t : Nat) (b : MoveBody) (src a n : Nat) (r : Rd) (m : Mach) : Mach :=
  match r with
  | .ok _ => m
  | .denied x => if srcSide b.op == .dev then endUnit p .denied x m else denyMove p m
  | .poison s =>
    let m := poisonSide t (dstSide b.op) a n m
    if srcSide b.op == .slice && countedBad m t src 1 then endUnit p .poisoned s m else endPoisoned p s m

/-! ### Rows -/

/-- R202: a row that holds poison, copied up to the unit that holds it: 64 bytes in slices and HBM3E,
the 64 KiB block elsewhere. -/
def rowPieces (fs : FlashState) (p t : Nat) (b : MoveBody) (rd : Reader') (src dst n : Nat) : Nat → Nat → Mach → Go
  | 0, _, m => (m, true)
  | fuel + 1, o, m =>
    if n ≤ o then (m, true)
    else
      let k := min (64 - (src + o) % 64) (n - o)
      match rd (src + o) k with
      | .ok bs =>
        let r := putSide fs p t b (dst + o) bs false m
        if r.2 then rowPieces fs p t b rd src dst n fuel (o + k) r.1 else r
      | .poison s =>
        let e := min (65536 - (src + o) % 65536) (n - o)
        let span := if (s = 2 || s = 3) && rd (src + o + e - 1) 1 == .poison s then e else k
        (failRead p t b (src + o) (dst + o) span (.poison s) m, false)
      | r => (failRead p t b (src + o) (dst + o) k r m, false)

/-- R233: fixed-rate counts. -/
def countFr (k : FrCount) (m : Mach) : Mach :=
  { m with cmp := { m.cmp with
      frBlocks := bump 32 k.blocks m.cmp.frBlocks, frSat := bump 16 k.sat m.cmp.frSat
      frUfl := bump 16 k.ufl m.cmp.frUfl, frInvalid := bump 16 k.invalid m.cmp.frInvalid } }

/-- R202: the blocks of `n` source bytes, from one that reads poison on, whose source meets the 64-byte unit that holds it. -/
def unitBlocks (rd : Reader') (src n left : Nat) : Nat :=
  let near := match rd src (min n (64 - src % 64)) with
    | .ok _ => false
    | _ => true
  min left (((src / 64 + if near then 1 else 2) * 64 - src + n - 1) / n)

/-- R177, R202: a row of a fixed-rate MOVE whose source cannot be read whole, block by block up to the unit that fails. -/
def compPieces (fs : FlashState) (p t : Nat) (b : MoveBody) (rd : Reader') (src dst : Nat) : Nat → Mach → Go
  | 0, m => (m, true)
  | left + 1, m =>
    let f := cmpFmt b
    let n := if cmpEncode b then 16 else frBytes f
    let k := if cmpEncode b then frBytes f else 16
    match rd src n with
    | .ok bs =>
      let x := if cmpEncode b then frEncode f bs else frDecode f bs
      let r := putSide fs p t b dst x.1 false (countFr x.2 m)
      if r.2 then compPieces fs p t b rd (src + n) (dst + k) left r.1 else r
    | e => (failRead p t b src dst (k * unitBlocks rd src n (left + 1)) e m, false)

/-- One row of a plain or fixed-rate MOVE. -/
def moveRow (fs : FlashState) (p t : Nat) (b : MoveBody) (rd : Reader') (r : Nat) (m : Mach) : Go :=
  let comp := b.cmp != 0
  let src := b.src + r * b.srcStride
  let dst := b.dst + r * b.dstStride
  let n := rowLen b (comp && !cmpEncode b)
  let last := r + 1 == b.rows
  let m := noteSrc t (srcSide b.op) src n m
  match rd src n with
  | .ok bs =>
    let m := if srcSide b.op == .dev then chargeMove p 0 n m else chargeMove p n 0 m
    if !comp then putSide fs p t b dst bs last m
    else
      let x := if cmpEncode b then frEncode (cmpFmt b) bs else frDecode (cmpFmt b) bs
      putSide fs p t b dst x.1 last (countFr x.2 m)
  | _ => if comp then compPieces fs p t b rd src dst (b.rowBytes / 16) m else rowPieces fs p t b rd src dst n (n / 64 + 2) 0 m

/-- The rows of a MOVE in ascending order, until one ends the unit. -/
def moveRows (fs : FlashState) (p t : Nat) (b : MoveBody) (rd : Reader') : List Nat → Mach → Go
  | [], m => (m, true)
  | r :: rs, m =>
    let g := moveRow fs p t b rd r m
    if g.2 then moveRows fs p t b rd rs g.1 else g

/-! ### Variable-rate streams -/

/-- R224: the code lengths of a generation that a context can decode with. -/
def genLens (m : Mach) (c gen : Nat) : Option (List Nat) :=
  let x := ctxOf m c
  if gen = 0 then some stdLens
  else if x.bankA.gen = gen then some x.bankA.lens
  else if x.bankB.gen = gen then some x.bankB.lens
  else none

/-- R218 to R222: a variable-rate encode. -/
def vrEncodeMove (fs : FlashState) (p t : Nat) (b : MoveBody) (rd : Reader') (m : Mach) : Go :=
  let m := noteSrc t (srcSide b.op) b.src b.rowBytes m
  match rd b.src b.rowBytes with
  | .ok bs =>
    let gen := ((peaOf m p).active.map (·.gen)).getD 0
    let lossy := lossRound (cmpFmt b - 4) bs
    let e := vrEncode ((genLens m (peaCtx m p) gen).getD stdLens) gen (cmpBsize b) (cmpFmt b - 4) lossy.1
    putSide fs p t b b.dst e.1 true
      { m with cmp := { m.cmp with vrBlocks := bump 32 (vrCount b) m.cmp.vrBlocks
                                   vrStored := bump 16 e.2 m.cmp.vrStored
                                   vrSat := bump 16 lossy.2 m.cmp.vrSat } }
  | e => (failRead p t b b.src b.dst (vrRoom b) e m, false)

/-- R232: the store that holds the byte at `a` of a MOVE's stream. -/
def streamStore (m : Mach) (t : Nat) (b : MoveBody) (a : Nat) : Nat :=
  match srcSide b.op with
  | .slice => 0
  | .handle => 4
  | .dev => ((findPage m t (a / pageSize)).map (tierSource ·.tier)).getD 1

/-- R232, R233: a damaged block counted by the check it failed. -/
def countDamage (d : Damage) (c : CmpSt) : CmpSt :=
  match d with
  | .index => { c with dmgIndex := bump 16 1 c.dmgIndex }
  | .header => { c with dmgHeader := bump 16 1 c.dmgHeader }
  | .crc => { c with dmgCrc := bump 16 1 c.dmgCrc }
  | .code => { c with dmgCode := bump 16 1 c.dmgCode }

/-- R231, R232: a damaged block: poison at its place, its count, the unit's end and the class 3 input. -/
def streamDamage (p t : Nat) (b : MoveBody) (d : Damage) (src dst : Nat) (m : Mach) : Mach :=
  let s := streamStore m t b src
  let u := (peaOf m p).active
  let e : ErrIn := { store := .slice, foundBy := 0, ctx := (u.map (·.ctx)).getD 0, seq := u.map (·.seq),
                     source := s, loc := 0, view := 0, marked := true }
  let m := { m with cmp := countDamage d m.cmp }
  m |> modLat (fun l => { l with errs := l.errs ++ [e] })
    |> poisonSide t (dstSide b.op) dst (vrBlock (cmpBsize b)) |> endUnit p .poisoned s

/-- R218, R231: the bytes of a block that its index entries bound which are read: no block that passes its checks is longer
than its header and, rounded up, a payload of the whole block. -/
def vrBlockLen (b : MoveBody) (i0 i1 : Nat) : Nat := min (8 * (i1 - i0)) (vrBlock (cmpBsize b) + 16)

/-- R231, R232: block `j` of a stream read, checked and decoded; nothing of it is read where its index entries fail alone, and
poison in it comes before what the checks find. -/
def vrBlockMove (fs : FlashState) (p t : Nat) (b : MoveBody) (rd : Reader') (i0 i1 j : Nat) (m : Mach) : Go :=
  let dst := b.dst + j * vrBlock (cmpBsize b)
  let src := b.src + 8 * i0
  if i1 ≤ i0 then (streamDamage p t b .index src dst m, false)
  else
    let m := noteSrc t (srcSide b.op) src (vrBlockLen b i0 i1) m
    match rd src (vrBlockLen b i0 i1) with
    | .ok blk =>
      match vrDecodeBlock (genLens m (peaCtx m p)) (cmpBsize b) i0 i1 blk with
      | .error d => (streamDamage p t b d src dst m, false)
      | .ok bs => putSide fs p t b dst bs (j + 1 == vrCount b)
          { m with cmp := { m.cmp with vrBlocks := bump 32 1 m.cmp.vrBlocks } }
    | e => (failRead p t b src dst (vrBlock (cmpBsize b)) e m, false)

/-- R231, R232: the blocks of a stream decoded in order; none after a damaged one is read. -/
def vrBlocksMove (fs : FlashState) (p t : Nat) (b : MoveBody) (rd : Reader') : List (Nat × Nat) → Nat → Mach → Go
  | [], _, m => (m, true)
  | (i0, i1) :: r, j, m =>
    let g := vrBlockMove fs p t b rd i0 i1 j m
    if g.2 then vrBlocksMove fs p t b rd r (j + 1) g.1 else g

/-- R222: a variable-rate decode. -/
def vrDecodeMove (fs : FlashState) (p t : Nat) (b : MoveBody) (rd : Reader') (m : Mach) : Go :=
  let q := vrIndexRange b
  let m := noteSrc t (srcSide b.op) q.1 q.2 m
  match vrIndex rd b with
  | .error e => (failRead p t b q.1 b.dst (vrBlock (cmpBsize b)) e m, false)
  | .ok ix => vrBlocksMove fs p t b rd (ix.zip ix.tail) 0 m

/-- The bytes of a MOVE whose source `rd` can read now. -/
def moveBytes (fs : FlashState) (p t : Nat) (b : MoveBody) (rd : Reader') (m : Mach) : Go :=
  if cmpVar b then (if cmpEncode b then vrEncodeMove fs p t b rd m else vrDecodeMove fs p t b rd m)
  else moveRows fs p t b rd (List.range b.rows) m

/-! ### Handles as sources -/

/-- Loads of a range of the remote side, each to the place `base + (offset - from)`. -/
def loadRemote (fs : FlashState) (p : Nat) (b : MoveBody) (h n base : Nat) (m : Mach) : Mach :=
  let off := h % 2 ^ 45
  forEach (cutPackets (n / 256 + 2) off n) (fun k m =>
    issueNow fs (moveReq m p b tLoad h k.1 k.2 false []) (.move p (base + (k.1 - off))) m) m

/-- R340: a MOVE from a handle sends its loads.  A compressing one brings the bytes into a buffer first,
at their distance from SRC. -/
def startRemote (fs : FlashState) (p t : Nat) (b : MoveBody) (m : Mach) : Mach :=
  let m := modPea p (fun a => { a with st := .moving, hadFabric := a.hadFabric || b.src / 2 ^ 45 != node16 m }) m
  if b.cmp = 0 then
    match (dstRanges b).findSome? fun r => match slRange m t true r.1 r.2 with
      | .error x => some x
      | .ok _ => none with
    | some _ => denyMove p m
    | none =>
      forEach (List.range b.rows) (fun r m =>
        loadRemote fs p b (b.src + r * b.srcStride) b.rowBytes (b.dst + r * b.dstStride) m) m
  else if cmpVar b && !cmpEncode b then
    let q := vrIndexRange b
    loadRemote fs p b q.1 q.2 (q.1 - b.src) (modPea p (fun a => { a with mvPhase := 1 }) m)
  else
    let rs := srcRanges (fun _ _ => .denied 0) b
    forEach rs (fun r m => loadRemote fs p b r.1 r.2 (r.1 - b.src) m) (modPea p (fun a => { a with mvPhase := 2 }) m)

/-- The buffer of fetched bytes as a source; a range that came poisoned reads as poison of the fabric (R202). -/
def bufRead (m : Mach) (p : Nat) (b : MoveBody) : Reader' := fun a n =>
  let x := peaOf m p
  if x.mvBad.any (fun q => q.1 < a - b.src + n && a - b.src < q.1 + q.2) then .poison 4
  else .ok (memRead x.mvBuf (a - b.src) n)

/-- The index entries of block `j` of a stream being fetched. -/
def bufIndex (m : Mach) (p : Nat) (b : MoveBody) (j : Nat) : Nat × Nat :=
  match vrIndex (bufRead m p b) b with
  | .ok ix => (ix.getD j 0, ix.getD (j + 1) 0)
  | .error _ => (0, 0)

/-! ### The MOVE -/

/-- R176, R239: a page that no MOVE may use, or that this one may not write. -/
def pageRefused (m : Mach) (p t : Nat) (wr : Bool) (n : Nat) : Bool :=
  let a := peaOf m p
  match findPage m t n with
  | none => true
  | some g =>
    keyFrozen m t g.key ||
      (wr && g.claim != 0 && !((a.active.map (·.kvMoves)).getD []).contains a.ix)

/-- R173: the ZERO pages to be written for which no frame is left, those of lower numbers having taken theirs. -/
def zeroWaits (m : Mach) (t : Nat) (ns : List Nat) : List Nat :=
  let zeros (d : Tier) := ns.filter fun n => (findPage m t n).any fun g => g.tier == .zero && g.mig.isNone && zeroTier g == d
  (zeros .hbm).drop (freeFrames m .hbm) ++ (zeros .lp).drop (freeFrames m .lp)

/-- The pages that a MOVE reads where its source lies in the tiers. -/
def srcPages (m : Mach) (t : Nat) (b : MoveBody) : List Nat :=
  if srcSide b.op == .dev then ((srcRanges (readSide m t .dev) b).flatMap fun r => pagesOf r.1 r.2).dedup else []

/-- The pages that a MOVE writes where its destination lies in the tiers. -/
def dstPages (b : MoveBody) : List Nat :=
  if dstSide b.op == .dev then ((dstRanges b).flatMap fun r => pagesOf r.1 r.2).dedup else []

/-- R176: a MOVE names a page that it may not use. -/
def moveRefused (m : Mach) (p : Nat) (b : MoveBody) : Bool :=
  let t := peaTen m p
  (srcPages m t b).any (pageRefused m p t false) || (dstPages b).any (pageRefused m p t true)

/-- R199: what a MOVE reads of a page holds poison: it is read at once, and no stall begins. -/
def partBad (m : Mach) (t : Nat) (b : MoveBody) (n : Nat) : Bool :=
  (srcRanges (readSide m t .dev) b).any fun r =>
    let lo := max r.1 (n * pageSize)
    let hi := min (r.1 + r.2) ((n + 1) * pageSize)
    lo < hi && (devBad m t lo (hi - lo)).isSome

/-- R178 to R180: a MOVE at the start of its descriptor, or going on after its pages have come.  Its bytes are moved when it
completes, those of a store to a handle are sent now (log 55).  Once removal has begun, the ring ports start none (R457). -/
def moveGo (p : Nat) (b : MoveBody) (fs : FlashState) (m : Mach) : Mach :=
  let t := peaTen m p
  let touch := ((peaOf m p).active.map (·.touch)).getD false
  let sp := srcPages m t b
  let dp := dstPages b
  if m.life.removal then m
  else if moveRefused m p b then endUnit p .denied (node16 m) m
  else
    let m := m |> forEach (sp ++ dp) (touchPage t) |> forEach dp (abandonDemotion t)
    let now := sp.map (fun n => (n, if partBad m t b n then .use else moveNow fs m touch b.bypass t n false)) ++
      dp.map fun n => (n, moveNow fs m touch b.bypass t n true)
    match now.find? (·.2 == .fail) with
    | some x => endUnit p .tierFail (x.1 % 2 ^ 24) m
    | none =>
      let ws := (now.filter (·.2 == .wait)).map (·.1) ++ zeroWaits m t dp
      if !ws.isEmpty then stallOn p t ws.dedup m
      else if srcSide b.op == .handle then startRemote fs p t b m
      else
        let m := modPea p (fun a => { a with st := .moving, mvTodo := dstSide b.op != .handle }) m
        if dstSide b.op == .handle then (moveBytes fs p t b (readSide m t (srcSide b.op)) m).1 else forEach dp (materialise t) m

/-- Table 3.4: a MOVE descriptor starts. -/
def moveDesc (p : Nat) (fs : FlashState) (m : Mach) : Mach :=
  let m := settlePea p m
  match nextBody m p with
  | some (.move b) =>
    if !moveValid b then endInvalid p m
    else
      moveGo p b fs (modPea p (fun a =>
        { a with pkts := [], mvBuf := [], mvBad := [], mvPhase := 0, mvTodo := false, mvStatus := .ok, mvDetail := 0 }) m)
  | _ => m

/-- The MOVE in progress at a pea. -/
def curMove (m : Mach) (p : Nat) : Option MoveBody :=
  match (curDesc (peaOf m p)).map Desc.body with
  | some (.move b) => some b
  | _ => none

/-- The descriptor after a MOVE. -/
def afterMove (p : Nat) (m : Mach) : Mach := skipGated p 33 (descDone p m)

/-- R231, R232: block `j` of a stream from a handle is fetched, once its index entries have passed. -/
def fetchBlock (fs : FlashState) (p t : Nat) (b : MoveBody) (j : Nat) (m : Mach) : Mach :=
  let q := bufIndex m p b j
  if vrCount b ≤ j then afterMove p m
  else if q.2 ≤ q.1 then streamDamage p t b .index (b.src + 8 * q.1) (b.dst + j * vrBlock (cmpBsize b)) m
  else loadRemote fs p b (b.src + 8 * q.1) (vrBlockLen b q.1 q.2) (8 * q.1) (modPea p (fun a => { a with mvPhase := 3 + j }) m)

/-- R177: a MOVE that has its pages moves its rows and completes. -/
def moveCopy (fs : FlashState) (p : Nat) (b : MoveBody) (m : Mach) : Mach :=
  let t := peaTen m p
  if moveRefused m p b then endUnit p .denied (node16 m) m
  else
    let g := m |> modPea p (fun a => { a with mvTodo := false }) |> forEach (dstPages b) (abandonDemotion t)
      |> moveBytes fs p t b (readSide m t (srcSide b.op))
    if g.2 then afterMove p g.1 else g.1

/-- R176, R345: the last byte of a MOVE has been applied, or its last packet has completed. -/
def moveDone (p : Nat) (fs : FlashState) (m : Mach) : Mach :=
  let a := peaOf m p
  if a.st != .moving || !a.pkts.isEmpty then m
  else
    match curMove m p with
    | none => m
    | some b =>
      let t := peaTen m p
      if a.mvStatus != .ok && !(a.mvStatus == .poisoned && a.mvPhase != 0) then endUnit p a.mvStatus a.mvDetail m
      else if a.mvTodo then moveCopy fs p b m
      else if a.mvPhase = 0 then afterMove p m
      else if a.mvPhase = 1 then
        match vrIndex (bufRead m p b) b with
        | .error e => failRead p t b b.src b.dst (vrBlock (cmpBsize b)) e m
        | .ok _ => fetchBlock fs p t b 0 m
      else if a.mvPhase = 2 then
        let g := moveBytes fs p t b (bufRead m p b) m
        if g.2 then afterMove p g.1 else g.1
      else
        let j := a.mvPhase - 3
        let q := bufIndex m p b j
        let g := vrBlockMove fs p t b (bufRead m p b) q.1 q.2 j m
        if g.2 then fetchBlock fs p t b (j + 1) g.1 else g.1

/-! ### Stalls that end (R179, R180, R187) -/

/-- The stall entry of a pea for a page. -/
def stallEntry (m : Mach) (p t n : Nat) : Option (Nat × Nat × Nat) :=
  match (peaOf m p).st with
  | .stalled t' ws => if t' = t then ws.find? (·.1 == n) else none
  | _ => none

/-- R178: a page that a pea waits for is available to its MOVE. -/
def pageReady (fs : FlashState) (m : Mach) (p t n : Nat) : Bool :=
  match curMove m p with
  | none => true
  | some b =>
    let touch := ((peaOf m p).active.map (·.touch)).getD false
    let wr := dstSide b.op == .dev && (dstRanges b).any fun r => (pagesOf r.1 r.2).contains n
    moveNow fs m touch b.bypass t n wr != .wait

/-- R178: a page that a pea waits for has come to rest: where it is available the stall ends, and the MOVE goes on once
nothing is waited for; elsewhere the stall goes on and the page is asked for again. -/
def stallEnds (fs : FlashState) (t n p : Nat) (m : Mach) : Mach :=
  match stallEntry m p t n with
  | none => m
  | some w =>
    if !pageReady fs m p t n then askNeeded t n m else
    let m := noteStall (peaCtx m p) w.2.1 n (m.tick.nowUs - w.2.2) false m
    match (peaOf m p).st with
    | .stalled _ ws =>
      let ws := ws.filter (·.1 != n)
      if !ws.isEmpty then modPea p (fun a => { a with st := .stalled t ws }) m
      else
        let m := modPea p (fun a => { a with st := .ready }) m
        match curMove m p with
        | some b => moveGo p b fs m
        | none => m
    | _ => m

/-- R180: every stall of a pea ends, that of page `n` as one that failed where `failed`. -/
def endStalls (p n : Nat) (failed : Bool) (m : Mach) : Mach :=
  match (peaOf m p).st with
  | .stalled _ ws =>
    forEach ws (fun w m => noteStall (peaCtx m p) w.2.1 w.1 (m.tick.nowUs - w.2.2) (failed && w.1 == n) m) m
  | _ => m

/-- The peas that wait for a page end their units with a code. -/
def stallFails (t n : Nat) (st : Status) (detail : Nat) (m : Mach) : Mach :=
  forEach (List.range 192) (fun p m =>
    if (stallEntry m p t n).isSome then m |> endStalls p n (st == .tierFail) |> endUnit p st detail else m) m

/-- A reader that finds the bytes from `lo` up to `hi` poison of a source. -/
def badRead (rd : Reader') (lo hi src : Nat) : Reader' := fun a n => if a < hi && lo < a + n then .poison src else rd a n

/-- R203: POISON_READ as it stood before a read whose error was counted as it was detected. -/
def keepPoisonRead (old : Mach) : Mach → Mach :=
  modEcc fun e => { e with sramPoisonRead := old.ecc.sramPoisonRead, hbmPoisonRead := old.ecc.hbmPoisonRead }

/-- R202, Table 8.3: a MOVE whose source is found poison from `lo` up to `hi`: the rows before it are written and its unit is
written as poison, and the MOVE ends its unit with POISONED. -/
def movePoisoned (fs : FlashState) (p lo hi src : Nat) (m : Mach) : Mach :=
  match curMove m p with
  | none => endUnit p .poisoned src m
  | some b =>
    let t := peaTen m p
    let g := moveBytes fs p t b (badRead (readSide m t (srcSide b.op)) lo hi src)
      (modPea p (fun a => { a with st := .moving, mvTodo := false }) m)
    if g.2 then endUnit p .poisoned src m else keepPoisonRead m g.1

/-- R180, R199, R202: the MOVEs that wait for a page whose data cannot be read end their units with POISONED. -/
def stallPoisons (fs : FlashState) (t n src : Nat) (m : Mach) : Mach :=
  forEach (List.range 192) (fun p m =>
    if (stallEntry m p t n).isSome then m |> endStalls p n false |> movePoisoned fs p (n * pageSize) ((n + 1) * pageSize) src
    else m) m

/-- R181: the remote requests that wait for a page, and began to before `by_`, complete with a code. -/
def remoteFailsBy (by_ : Nat) (fs : FlashState) (t n : Nat) (st : Status) (detail : Nat) (m : Mach) : Mach :=
  let sel (w : FabPkt × Nat × Nat × Nat) : Bool := w.2.1 == t && w.2.2.1 == n && w.2.2.2 < by_
  let ws := m.fab.waitPage.filter sel
  let m := modFab (fun f => { f with waitPage := f.waitPage.filter (!sel ·) }) m
  settleFab fs (forEach ws (fun w m =>
    let p := w.1
    let m := modMem (fun x => { x with stallRemote := bump 16 1 x.stallRemote }) m
    let m := if p.type = tAtomic then finishAtomic p st detail 0 m else answerTurn p st detail [] m
    if p.cls = 0 then m
    else
      let s := dstStream m p
      drainStream fs p.src p.ftid p.cls 257 (setDstStream { s with busy := false, next := wrap 16 (s.next + 1) } m)) m)

/-- The remote requests that wait for a page complete with a code. -/
def remoteFails (fs : FlashState) (t n : Nat) (st : Status) (detail : Nat) (m : Mach) : Mach :=
  remoteFailsBy (m.tick.nowUs + 1) fs t n st detail m

/-- Somebody waits for a page. -/
def pageWaited (m : Mach) (t n : Nat) : Bool :=
  m.fab.waitPage.any (fun w => w.2.1 == t && w.2.2.1 == n) ||
    (List.range 192).any fun p => (stallEntry m p t n).isSome

/-- R186: everything that waits for a page goes on. -/
def pageArrives (fs : FlashState) (t n : Nat) (m : Mach) : Mach :=
  settleFab fs (releasePage fs t n (forEach (List.range 192) (stallEnds fs t n) m))

/-- R179, R181: the stall that has lasted longest at a pea reaches its limit; 192 stands for the oldest
remote request. -/
def stallLimit (p : Nat) (fs : FlashState) (m : Mach) : Mach :=
  if p < 192 then
    match (peaOf m p).st with
    | .stalled t ws =>
      match ws with
      | [] => m
      | w :: _ =>
        if !due m w.2.2 (((peaOf m p).active.map (·.stallMs)).getD 100 * 1000) then m
        else
          let m := m |> endStalls p w.1 true |> endUnit p .tierFail (w.1 % 2 ^ 24)
          if pageWaited m t w.1 then m else dropMove t w.1 m
    | _ => m
  else
    match m.fab.waitPage.find? fun w => due m w.2.2.2 100000 with
    | none => m
    | some w =>
      let m := remoteFailsBy (m.tick.nowUs + m.tick.inForce - 100000) fs w.2.1 w.2.2.1 .tierFail (w.2.2.1 % 2 ^ 24) m
      if pageWaited m w.2.1 w.2.2.1 then m else dropMove w.2.1 w.2.2.1 m

/-- R176: MOVE. -/
def execMove (pea : Nat) (s : State) : Host.Outcome State Fault Refusal := onFab (moveDesc pea) s
/-- R176: a MOVE completes. -/
def execMoveComplete (pea : Nat) (s : State) : Host.Outcome State Fault Refusal := onFab (moveDone pea) s
/-- R179: a stall reaches STALL_LIMIT_MS. -/
def execStallLimitExpiry (pea : Nat) (s : State) : Host.Outcome State Fault Refusal := onFab (stallLimit pea) s

end Sys2Proof.Machine
end

