-- ==== Sys2Proof/Machine/Tiers.lean ====
section
/-! DEFINITION. The migrator and the tier opcodes (R171 to R187, R251), and the flash tier
(R188 to R191). -/

namespace Sys2Proof.Machine

/-! ### Victims and pools (R182, R251) -/

/-- The pages that a unit's MOVEs name, those of a stream by its index. -/
def movePages (m : Mach) (u : WUnit) : List (Nat × Nat) :=
  u.descs.flatMap fun d =>
    match d.body with
    | .move b => (srcPages m u.ten b ++ dstPages b).map fun n => (u.ten, n)
    | _ => []

/-- The units cut and not completed. -/
def cutUnits (m : Mach) : List WUnit := m.peas.flatMap fun a => a.active.toList ++ a.pendUnit.toList

/-- R182, R251: pages named by a MOVE of a unit cut and not completed. -/
def namedPages (m : Mach) : List (Nat × Nat) := (cutUnits m).flatMap (movePages m)

/-- R182: an earlier victim. -/
def victimLe (a b : Page) : Bool :=
  if a.lastTouch ≠ b.lastTouch then a.lastTouch < b.lastTouch
  else if a.ten ≠ b.ten then a.ten < b.ten
  else a.num ≤ b.num

/-- A page is leaving its tier, or is to leave it. -/
def leaving (m : Mach) (g : Page) : Bool :=
  g.mig.isSome || m.mem.asks.any fun a => a.ten == g.ten && a.page == g.num

/-- R182: the victims of a tier, first to last. -/
def victims (m : Mach) (t : Tier) : List Page :=
  let named := namedPages m
  sortBy victimLe (m.mem.pages.filter fun g =>
    g.tier == t && g.pin == 0 && !leaving m g && !named.contains (g.ten, g.num))

/-- R182: a tier that fell below LOW is brought down to HIGH: whether it still is. -/
def lowering (was : Bool) (low high free : Nat) : Bool := free < low || (was && free < high)

/-- R182: victims of a tier are asked for until its free frames, with those on their way out, reach HIGH. -/
def watermark (t dest : Tier) (high : Nat) (m : Mach) : Mach :=
  let going := m.mem.pages.countP fun g => g.tier == t && leaving m g
  forEach ((victims m t).take (high - freeFrames m t - going)) (fun g => askVictim g.ten g.num dest) m

/-- R182: the migrator compares free frames with MEM_WATERMARK. -/
def watermarks (fs : FlashState) (m : Mach) : Mach :=
  let m := modMem (fun x => { x with hbmLowering := lowering x.hbmLowering x.hbmLow x.hbmHigh (freeFrames m .hbm)
                                     lpLowering := lowering x.lpLowering x.lpLow x.lpHigh (freeFrames m .lp) }) m
  m |> onlyIf m.mem.hbmLowering (watermark .hbm .lp m.mem.hbmHigh)
    |> onlyIf (m.mem.lpLowering && (fs == .normal || fs == .warn)) (watermark .lp .flash m.mem.lpHigh)

/-- A KV pool of a tenancy. -/
def findPool (m : Mach) (t k : Nat) : Option Pool := (tenOf m t).pools.find? (·.num == k)

/-- A pool changed. -/
def modPool (t k : Nat) (f : Pool → Pool) : Mach → Mach :=
  modTen t fun x => { x with pools := x.pools.map fun p => if p.num == k then f p else p }

/-- The pages of a pool. -/
def poolPages (m : Mach) (t k : Nat) : List Page :=
  m.mem.pages.filter fun g => g.ten == t && g.claim == 1 && g.owner == k

/-- R235: bytes of a token record. -/
def tokenRec (g : KvAttach) : Nat :=
  if g.kfmt = 4 then 4 * g.h * g.d else (2 * g.h * g.d + 2 * g.h + 63) / 64 * 64

/-- R235: bytes of a slot. -/
def slotBytes (g : KvAttach) : Nat := (64 * tokenRec g + 16383) / 16384 * 16384

/-- R235: slots of a pool page. -/
def slotsPer (g : KvAttach) : Nat := pageSize / slotBytes g

/-- A slot of a pool as one number. -/
def slotKey (page slot : Nat) : Nat := page * 128 + slot

/-- R236: the open pages of the streams attached to a pool. -/
def openPages (m : Mach) (t k : Nat) : List Nat :=
  m.ctxs.flatMap fun c =>
    match c.table with
    | some tb => if c.isOpen && c.ten == t && tb.pool == k then tb.openPage.map (·.2) else []
    | none => []

/-- R250: pool pages that hold a pinned slot. -/
def pinnedPages (p : Pool) : List Nat := (p.pinned.map (·.2 / 128)).dedup

/-- R251: a page of a pool may be spilled: it is not open, holds no pinned slot, is named by no unit and is in no prefetch
set. -/
def maySpill (m : Mach) (t : Nat) (p : Pool) (g : Page) : Bool :=
  g.tier == .hbm && g.mig.isNone && !(openPages m t p.num).contains g.num && !(pinnedPages p).contains g.num
    && !(namedPages m).contains (g.ten, g.num) && !g.prefetch

/-- R251: the pool page to spill, of those not on their way out already. -/
def poolVictim (m : Mach) (t : Nat) (p : Pool) : Option Page :=
  (sortBy victimLe ((poolPages m t p.num).filter fun g => maySpill m t p g && !leaving m g)).head?

/-- R251, R252, R263: a pool page's demotion asked for by the KV manager, which Table 10.10 counts. -/
def askKv (t n : Nat) (dest : Tier) (m : Mach) : Mach :=
  m |> askVictim t n dest |> modMem (fun x => { x with asks := x.asks.map fun a =>
    if a.ten == t && a.page == n && a.dest == dest then { a with kv := true } else a })

/-- R251: a victim of the pool is to be demoted. -/
def poolSpill (t : Nat) (p : Pool) (m : Mach) : Mach :=
  match poolVictim m t p with
  | none => m
  | some g => askKv t g.num .lp m

/-- R251: HBM pages of a pool, those on their way into HBM included. -/
def poolHbm (m : Mach) (t k : Nat) : Nat := (poolPages m t k).countP fun g => g.tier == .hbm || g.mig.any (·.dest == .hbm)

/-- R251, R254: a pool page may enter HBM now; one of the pool is on its way out otherwise. -/
def poolRoom (m : Mach) (t : Nat) (p : Pool) : Bool :=
  poolHbm m t p.num < p.geo.hbmPages ||
    (!(poolPages m t p.num).any (fun g => g.tier == .hbm && leaving m g) && (poolVictim m t p).isNone)

/-! ### Settling the tier commands (R184) -/

/-- Class 5: the tier command of a context and sequence number replies once its last page has settled. -/
def finishMove (c q : Nat) (m : Mach) : Mach :=
  let done (k : MoveCmd) : Bool := k.ctx == c && k.seq == q && k.left.isEmpty
  m |> modMem (fun x => { x with moves := x.moves.filter (!done ·) })
    |> forEach (m.mem.moves.filter done) (fun k => match k.stop with
      | some by_ => finalise c q .cancelled by_
      | none => finalise c q .ok k.count)

/-- R184: a MEM_PREFETCH goes on with the promotions already copying only. -/
def keepCopying (c q by_ : Nat) (m : Mach) : Mach :=
  modMem (fun x => { x with moves := x.moves.map fun k =>
    if k.ctx == c && k.seq == q && k.op == 0x54 then
      { k with stop := some by_
               left := k.left.filter fun n => (findPage m k.ten n).any fun g => g.mig.any (·.dest == .hbm) }
    else k }) m

/-- R184: a promotion asked for is still wanted: by a command, a pea or request that waits, or a unit that names the page. -/
def promotionWanted (m : Mach) (t n : Nat) : Bool :=
  m.mem.moves.any (fun k => k.ten == t && k.dest == .hbm && k.left.contains n) || pageWaited m t n ||
    (namedPages m).contains (t, n) || (findPage m t n).any (·.asked)

/-- R184: the promotions that a stopped MEM_PREFETCH alone had asked for are not started. -/
def dropUnwanted (t : Nat) (ns : List Nat) (m : Mach) : Mach :=
  forEach ns (fun n m =>
    if promotionWanted m t n then m
    else modMem (fun x => { x with asks := x.asks.filter fun a => !(a.ten == t && a.page == n && a.dest == .hbm) }) m) m

/-- R184: ABORT of a MEM_PREFETCH: promotions not started are dropped. -/
def stopPrefetch (c q by_ : Nat) (m : Mach) : Mach :=
  match m.mem.moves.find? fun k => k.ctx == c && k.seq == q && k.op == 0x54 with
  | none => m
  | some k => m |> keepCopying c q by_ |> dropUnwanted k.ten k.left

/-! ### The tier opcodes -/

/-- R174: every page of a range exists. -/
def allExist (m : Mach) (t base n : Nat) : Bool := (List.range n).all fun i => (findPage m t (base + i)).isSome

/-- R174, R239: the range exists and none of it is claimed. -/
def freeRange (m : Mach) (t base n : Nat) : Bool :=
  (List.range n).all fun i => ((findPage m t (base + i)).map (·.claim == 0)).getD false

/-- R175: MEM_ALLOC. -/
def pktMemAlloc (h : Hdr) (base pages key : Nat) : Packet :=
  packet { op := 0x50, tenant := true } h
    (fun m => within base pages (2 ^ 24)
      && (h.ctx == 0 || ((key == 0xFF || key < (tenOf m (hTen m h)).keys.length)
          && (List.range pages).all fun i =>
            (findPage m (hTen m h) (base + i)).isNone && !reserved m (hTen m h) (base + i))))
    (fun fs m =>
      let t := hTen m h
      let k := if key = 0xFF then (ctxOf m h.ctx).key else key
      if keyFrozen m t k then reply h .denied (node16 m) m
      else if claimable fs m < claims m + pages then reply h .noSpace 1 m
      else
        m |> modMem (fun x => { x with pages := x.pages ++ (List.range pages).map fun i =>
                ({ ten := t, num := base + i, key := k, ctx := h.ctx } : Page) })
          |> reply h .ok 0)

/-- R175: the source frames of a freed page, whose earlier reads may be outstanding: they go on until released. -/
def linger (t n : Nat) (m : Mach) : Mach :=
  modMem (fun x => { x with lingering := x.lingering ++
    (((findPage m t n).map (·.oldFrames)).getD []).map fun d => (t, n, d) }) m

/-- R175, R187: pages gone; whoever waits for them is refused. -/
def freePages (fs : FlashState) (t base n : Nat) (m : Mach) : Mach :=
  let m := forEach (List.range' base n) (fun i m =>
    m |> dropMove t i |> linger t i |> clearPage t i
      |> stallFails t i .denied (node16 m)) m
  let m := modMem (fun x => { x with pages := x.pages.filter fun g =>
    !(g.ten == t && base ≤ g.num && g.num < base + n) }) m
  forEach (List.range' base n) (fun i m => remoteFails fs t i .denied (node16 m) m) m

/-- R175: MEM_FREE. -/
def pktMemFree (h : Hdr) (base pages : Nat) : Packet :=
  packet { op := 0x51, tenant := true } h
    (fun m => within base pages (2 ^ 24) && (h.ctx == 0 || freeRange m (hTen m h) base pages))
    (fun fs m => m |> freePages fs (hTen m h) base pages |> reply h .ok pages)

/-- R184: a command whose pages are on their way, or one that has nothing to wait for. -/
def startMoves (h : Hdr) (op : Nat) (dest : Tier) (left : List Nat) (count : Nat) (m : Mach) : Mach :=
  if left.isEmpty then reply h .ok count m
  else
    modMem (fun x => { x with moves := x.moves ++
      [{ ctx := h.ctx, seq := h.seq, op, ten := hTen m h, dest, left, count }] }) m

/-- The pages of a range that satisfy `q`. -/
def rangePages (m : Mach) (t base n : Nat) (q : Page → Bool) : List Nat :=
  (List.range' base n).filter fun i => ((findPage m t i).map q).getD false

/-- The tier of a pin or of a demotion's TIER field. -/
def tierOf (k : Nat) : Tier := if k = 1 then .hbm else if k = 2 then .lp else .flash

/-- R184, R187: a pin's own move takes the place of one in the other direction. -/
def pinMove (t : Nat) (dest : Tier) (n : Nat) (m : Mach) : Mach :=
  let other := (findPage m t n).any fun g => g.mig.any (·.dest != dest)
  let asked := m.mem.asks.any fun a => a.ten == t && a.page == n && a.dest != dest
  m |> onlyIf (other || asked) (dropMove t n) |> askMove t n dest

/-- R184: MEM_PIN. -/
def pktMemPin (h : Hdr) (base pages tier : Nat) : Packet :=
  packet { op := 0x52, expert := true, tenant := true } h
    (fun m => within base pages (2 ^ 24) && tier ≤ 2 && (h.ctx == 0 || freeRange m (hTen m h) base pages))
    (fun fs m =>
      let t := hTen m h
      if tier = 0 then
        m |> forEach (List.range' base pages) (fun i => modPage t i fun g => { g with pin := 0 }) |> reply h .ok 0
      else if pinLimit tier < pinned m tier + (rangePages m t base pages (·.pin != tier)).length then
        reply h .noSpace 2 m
      else
        let go := rangePages m t base pages fun g => g.tier != .zero && g.tier != tierOf tier
        m |> forEach (List.range' base pages) (fun i => modPage t i fun g => { g with pin := tier })
          |> forEach (rangePages m t base pages (·.tier != .zero)) (pinMove t (tierOf tier))
          |> forEach (List.range' base pages) (pageArrives fs t) |> startMoves h 0x52 (tierOf tier) go 0)

/-- How high a tier lies. -/
def height : Tier → Nat
  | .hbm => 3 | .lp => 2 | .flash => 1 | .zero => 0

/-- R184: MEM_DEMOTE. -/
def pktMemDemote (h : Hdr) (base pages tier : Nat) : Packet :=
  packet { op := 0x53, expert := true, tenant := true } h
    (fun m => within base pages (2 ^ 24) && (tier == 2 || tier == 3)
      && (h.ctx == 0 || freeRange m (hTen m h) base pages))
    (fun fs m =>
      let t := hTen m h
      if tier = 3 && (fs == .readOnly || fs == .offline) then reply h .noSpace 3 m
      else
        let go := rangePages m t base pages fun g => g.pin == 0 && height (tierOf tier) < height g.tier
        let kept := (rangePages m t base pages (·.pin != 0)).length
        m |> forEach go (fun n => askMove t n (tierOf tier)) |> startMoves h 0x53 (tierOf tier) go kept)

/-- R184: MEM_PREFETCH. -/
def pktMemPrefetch (h : Hdr) (base pages : Nat) : Packet :=
  packet { op := 0x54, expert := true, tenant := true } h
    (fun m => within base pages (2 ^ 24) && (h.ctx == 0 || freeRange m (hTen m h) base pages))
    (fun _ m =>
      let t := hTen m h
      let go := rangePages m t base pages fun g =>
        g.tier != .zero && g.tier != .hbm && g.pin != 2 && g.crcBad.isEmpty
      m |> forEach go (fun n => askMove t n .hbm) |> startMoves h 0x54 .hbm go 0)

/-- R185: MIGRATE_POLICY. -/
def pktMigratePolicy (h : Hdr) (ahead touch : Bool) (limit : Nat) (basic : Bool) : Packet :=
  packet { op := 0x55, expert := true, tenant := true } h (fun _ => basic || limit ≤ 1000)
    (fun _ m =>
      m |> modCtx h.ctx (fun c =>
            if basic then { c with ahead := true, touch := false, stallLimitMs := 100 }
            else { c with ahead, touch, stallLimitMs := if limit = 0 then 100 else limit })
        |> reply h .ok 0)

/-! ### Migrations (R186, R187, R199) -/

/-- An ask of the migrator taken off its list; a page that is not to come settles the commands that wait for it. -/
def unask (t n : Nat) (dest : Tier) : Mach → Mach :=
  modMem fun x => { x with asks := x.asks.filter fun a => !(a.ten == t && a.page == n && a.dest == dest) }

/-- An ask that leads to no migration. -/
def refuseAsk (t n : Nat) (dest : Tier) (m : Mach) : Mach :=
  m |> unask t n dest |> onlyIf (dest == .hbm) (modPage t n fun g => { g with asked := false }) |> settleMiss t n dest

/-- R182, R251: a victim asked for may still be demoted: unpinned, or spilled by its pool, and named by no unit. -/
def stillVictim (m : Mach) (t : Nat) (g : Page) : Bool :=
  if g.claim = 1 && g.tier == .hbm then (findPool m t g.owner).any fun p => maySpill m t p g
  else g.pin == 0 && !(namedPages m).contains (t, g.num)

/-- R184: a page pinned in another tier does not leave its own. -/
def pinHolds (g : Page) (dest : Tier) : Bool := g.pin != 0 && dest != (if g.pin = 1 then .hbm else .lp)

/-- What becomes of a migration asked for: `gone` with its page, `came` already, `refused` by the page's pin, key, marks or use
or by the flash tier's state, `lost` in an OFFLINE flash tier, `held` for a frame or for room in its pool, which a `spill` is to
make, or ready to `start`. -/
inductive AskNow where
  | gone | came | refused | lost | held | spill | start
deriving DecidableEq, Repr

/-- R251: a page's demotion is a spill of its pool. -/
def isSpill (a : Ask) (g : Page) : Bool := a.victim && g.claim == 1 && g.tier == .hbm

/-- R182, R184, R190, R199, R251: what becomes of a migration asked for. -/
def askNow (fs : FlashState) (m : Mach) (a : Ask) : AskNow :=
  match findPage m a.ten a.page with
  | none => .gone
  | some g =>
    if g.mig.isSome then .held
    else if g.tier == a.dest then .came
    else if keyFrozen m a.ten g.key || (a.dest == .hbm && g.tier != .zero && !g.crcBad.isEmpty)
        || (a.victim && !stillVictim m a.ten g) || (!isSpill a g && pinHolds g a.dest)
        || (a.dest == .flash && (fs == .readOnly || fs == .offline)) then .refused
    else if g.tier == .flash && fs == .offline then .lost
    else if freeFrames m a.dest = 0 then .held
    else
      match if g.claim = 1 && a.dest == .hbm then findPool m a.ten g.owner else none with
      | some p =>
        if poolRoom m a.ten p then .start
        else if (poolPages m a.ten p.num).any (fun g => g.tier == .hbm && leaving m g) then .held
        else .spill
      | none => .start

/-- R183: a migration asked for is a promotion, which takes its turn. -/
def isPromotion (m : Mach) (a : Ask) : Bool :=
  (findPage m a.ten a.page).any fun g => height g.tier < height a.dest

/-- R186 step 1: the migrator takes a destination frame and starts to copy a page that was asked for.  Promotions start in the
order they were asked for, one that cannot start now passed over (R183). -/
def promotionStart (t n : Nat) (dest : Tier) (fs : FlashState) (m : Mach) : Mach :=
  let this (a : Ask) : Bool := a.ten == t && a.page == n && a.dest == dest
  match m.mem.asks.find? this with
  | none => m
  | some a =>
    match askNow fs m a with
    | .gone => unask t n dest m
    | .came => m |> unask t n dest |> settlePage t n (some dest)
    | .refused => refuseAsk t n dest m
    | .lost => m |> refuseAsk t n dest |> stallFails t n .tierFail (n % 2 ^ 24) |> remoteFails fs t n .tierFail (n % 2 ^ 24)
    | .held => m
    | .spill => match (findPage m t n).bind fun g => findPool m t g.owner with
      | some p => poolSpill t p m
      | none => m
    | .start =>
      if isPromotion m a && (m.mem.asks.takeWhile (!this ·)).any fun b => isPromotion m b && askNow fs m b == .start then m
      else m |> unask t n dest |> modPage t n fun g =>
        { g with mig := some { dest, kv := a.kv }, pin := if isSpill a g then 0 else g.pin }

/-! ### Images and checks of a copy (R198, R199, R223) -/

/-- The plaintext of a 64 KiB block of a page. -/
def blockBytes64 (m : Mach) (t n b : Nat) : List Byte := memRead m.mem.dev (devAddr t (n * pageSize + b * crcBlock)) crcBlock

/-- R223: block `b` of a page as its flash image holds it: lossless, generation 0, 64 KiB. -/
def imageBlock (m : Mach) (t n b : Nat) : List Byte × Bool := vrEncodeBlock stdLens 0 2 0 (blockBytes64 m t n b)

/-- R220, R223: block `b` of a page's image is STORED; one of zeros never is. -/
def imageStored (m : Mach) (t n b : Nat) : Bool :=
  !(smSlice (devAddr t (n * pageSize + b * crcBlock)) crcBlock m.mem.dev).isEmpty && (imageBlock m t n b).2

/-- R223: the image of a page in flash, as it is encrypted and programmed. -/
def flashImage (m : Mach) (t n : Nat) : List Byte :=
  (vrEncode stdLens 0 2 0 (memRead m.mem.dev (devAddr t (n * pageSize)) pageSize)).1

/-- R223, R233: the 32 blocks of a page's image encoded on its way into flash. -/
def countImage (t n : Nat) (m : Mach) : Mach :=
  { m with cmp := { m.cmp with
      vrBlocks := bump 32 32 m.cmp.vrBlocks
      vrStored := bump 16 ((List.range 32).countP (imageStored m t n)) m.cmp.vrStored } }

/-- The wrong bytes of a block: `errs` by block times 2^17 plus place. -/
def blockErrs (errs : List (Nat × Nat)) (b : Nat) : List (Nat × Byte) :=
  (errs.filter fun e => e.1 / 2 ^ 17 == b).map fun e => (e.1 % 2 ^ 17, BitVec.ofNat 8 e.2)

/-- Bytes with the wrong ones among them. -/
def withErrs (es : List (Nat × Byte)) (bs : List Byte) : List Byte :=
  es.foldl (fun l e => l.modify e.1 (· ^^^ e.2)) bs

/-- R198: what wrong bytes of a block's plaintext do to its CRC. -/
def crcErrs (es : List (Nat × Byte)) : Word32 :=
  es.foldl (fun c e => if e.1 < crcBlock then c ^^^ crcPart (crcBlock - 1 - e.1) e.2 else c) 0

/-- R223, R231: block `b` of a page's flash image, read with wrong bytes, checked and decoded. -/
def imageDecode (m : Mach) (t n b : Nat) (es : List (Nat × Byte)) : Except Damage (List Byte) :=
  let img := (imageBlock m t n b).1
  vrDecodeBlock (fun k => if k = 0 then some stdLens else none) 2 0 (img.length / 8) (withErrs es img)

/-- R199: block `b` of a page, read from its tier with wrong bytes, does not match the CRC kept with the page.  An image is
decoded first, and a damaged block of it is bad (R223). -/
def blockFails (m : Mach) (t : Nat) (g : Page) (errs : List (Nat × Nat)) (b : Nat) : Bool :=
  match g.crcs[b]? with
  | none => false
  | some crc =>
    let es := blockErrs errs b
    if es.isEmpty || g.tier != .flash then blockCrc m t g.num b ^^^ crcErrs es != crc
    else
      match imageDecode m t g.num b es with
      | .error _ => true
      | .ok bs => BitVec.ofNat 32 (crc32c bs) != crc

/-- R233: what the checks of the blocks of a flash image count as they are decoded: each damaged block by its check, and the
blocks decoded. -/
def countDecoded (t : Nat) (g : Page) (errs : List (Nat × Nat)) (m : Mach) : Mach :=
  if g.tier != .flash then m
  else
    let ds := (List.range 32).filterMap fun b =>
      let es := blockErrs errs b
      if es.isEmpty then none
      else match imageDecode m t g.num b es with
        | .error d => some d
        | .ok _ => none
    { m with cmp := { ds.foldl (fun c d => countDamage d c) m.cmp with vrBlocks := bump 32 (32 - ds.length) m.cmp.vrBlocks } }

/-- The context and request of each pea's unit that waits for a page, each once. -/
def waitingReqs (m : Mach) (t n : Nat) : List (Nat × Nat) :=
  ((List.range 192).filterMap fun p =>
    if (stallEntry m p t n).isSome then (peaOf m p).active.map fun u => (u.ctx, u.seq) else none).dedup

/-- R199, R211: what is reported of a bad block of a page: to context 0, and to each request that waits for it. -/
def blockErrIns (m : Mach) (t : Nat) (g : Page) (by_ b : Nat) : List ErrIn :=
  let store : Store := if g.tier == .flash then .flash else .lpddr
  let one (c : Nat) (q : Option Nat) (quiet : Bool) : ErrIn :=
    { store, foundBy := by_, ctx := c, seq := q, source := tierSource g.tier, quiet
      loc := Config.placeOf (tierSource g.tier) t g.num b, view := g.num * pageSize + b * crcBlock }
  match waitingReqs m t g.num with
  | [] => [one 0 none false]
  | rs => rs.zipIdx.map fun r => one r.1.1 (some r.1.2) (0 < r.2)

/-- R179, R199: a page's migration is abandoned for its data: its waiters get POISONED, the commands settle it. -/
def sourceBad (fs : FlashState) (t n : Nat) (m : Mach) : Mach :=
  let src := ((findPage m t n).map (tierSource ·.tier)).getD 1
  m |> dropMove t n |> stallPoisons fs t n src |> remoteFails fs t n .poisoned src

/-- R199: blocks of a page marked poisoned, each counted and reported. -/
def markBlocks (t n by_ : Nat) (bad : List Nat) (m : Mach) : Mach :=
  match findPage m t n with
  | none => m
  | some g =>
    let fresh := bad.filter fun b => !g.crcBad.contains b
    m |> modPage t n (fun g => { g with crcBad := g.crcBad ++ fresh })
      |> modEcc (fun e => { e with lpCrcFail := bump 16 fresh.length e.lpCrcFail })
      |> modLat (fun l => { l with errs := l.errs ++ fresh.flatMap (blockErrIns m t g by_) })

/-- R203: a unit of a page holds poison. -/
def pagePoisoned (m : Mach) (t n : Nat) : Bool :=
  let lo := devAddr t (n * pageSize)
  anyIn (lo / 64) ((lo + pageSize) / 64) m.mem.devPoison

/-- R198, R203: a page as it stands after its commit: outside HBM with its CRCs, its poison left behind with the old frame. -/
def landPage (t n : Nat) (g : Page) (dest : Tier) (m : Mach) : Mach :=
  let cs := if dest == .hbm then [] else if g.tier == .hbm then pageCrcs m t n else g.crcs
  let lo := devAddr t (n * pageSize)
  m |> modPage t n (fun g => if g.tier == .zero then { fillZero g with mig := none, asked := g.asked && dest != .hbm }
        else { g with tier := dest, mig := none, oldFrames := g.oldFrames ++ [g.tier], crcs := cs, asked := g.asked && dest != .hbm })
    |> modMem (fun x => { x with devPoison := delRange (lo / 64) ((lo + pageSize) / 64) x.devPoison
                                 devErr := smClear (2 * lo) (2 * (lo + pageSize)) x.devErr
                                 hbmRepair := x.hbmRepair.filter fun r => !(lo / 64 ≤ r.2 && r.2 < (lo + pageSize) / 64) })

/-- R192, R233, R263: what a commit counts. -/
def countMove (t : Nat) (g : Page) (mg : Mig) (m : Mach) : Mach :=
  let dest := mg.dest
  if g.tier == .zero then m
  else
    m |> modMem (fun x =>
          if height g.tier < height dest then { x with promoted := bump 32 1 x.promoted }
          else
            { x with demoted := bump 32 1 x.demoted
                     kvToLp := if mg.kv && dest == .lp then bump 32 1 x.kvToLp else x.kvToLp
                     kvToFlash := if mg.kv && dest == .flash then bump 32 1 x.kvToFlash else x.kvToFlash })
      |> onlyIf (dest == .flash) (countImage t g.num)

/-- R186, R188, R192: the flash tier's part of a commit. -/
def flashPart (g : Page) (dest : Tier) (f : FlashSt) : FlashSt :=
  let f := if g.tier == .flash then flashRead f else f
  if dest == .flash then flashWrite f else f

/-- R188: the retries of a page's promotion, kept by channel. -/
def chanRetries (f : FlashSt) (m : Mach) : Mach :=
  { m with chan := { m.chan with retries := List.zipWith (· + ·) m.chan.retries (retriesOf f) } }

/-- R18, R196: what the engine of the source tier gives a copy out of HBM: its corrections are counted and the wrong bytes that
the module code does not see go with the page. -/
def readHbm (t n : Nat) (m : Mach) : Mach :=
  let lo := devAddr t (n * pageSize) / 64
  let ks := ((m.mem.devErr.map fun e => e.1 / 128).dedup).filter fun k =>
    lo ≤ k && k < lo + pageSize / 64 && 5 < (unitErrs m k).length
  m |> noteDev t (n * pageSize) pageSize
    |> modMem (fun x => { x with dev := ks.foldl (fun d k => memWrite (64 * k) (unitSeen m t (k % 2 ^ 39)) d) x.dev })

/-- R18, R201: what the engine of LPDDR5X gives a copy: the wrong bytes that no check of R199 has stopped go with the page. -/
def readLp (t n : Nat) (errs : List (Nat × Nat)) : Mach → Mach :=
  modMem fun x => { x with dev := errs.foldl (fun d e =>
    let a := devAddr t (n * pageSize + e.1 / 2 ^ 17 * crcBlock + e.1 % 2 ^ 17)
    if e.1 % 2 ^ 17 < crcBlock then smSet a (smGet a d ^^^ BitVec.ofNat 8 e.2) d else d) x.dev }

/-- R18: a page read out of its source tier, as its bytes go to the destination's engine. -/
def readSource (t : Nat) (g : Page) (errs : List (Nat × Nat)) : Mach → Mach :=
  match g.tier with
  | .hbm => readHbm t g.num
  | .lp => readLp t g.num errs
  | _ => id

/-- R412: the bytes of a migration, counted for the context that owns its page; those of a ZERO page are only written. -/
def chargeMigration (g : Page) : Mach → Mach :=
  let n := if g.tier == .zero then pageSize else 2 * pageSize
  modCtx g.ctx fun x => { x with acct := { x.acct with tierBytes := x.acct.tierBytes + n } }

/-- R186 step 2: a copy is complete, with the wrong bytes that its source gave: its checks, its commit, and what follows.
The checks of R199 cover a promotion into HBM, and the decoding of an image a page on its way out of flash (R223). -/
def migrationCommit (t n : Nat) (errs : List (Nat × Nat)) (nv : Nv) (m : Mach) : Nv × Mach :=
  let fs := nv.flash.state
  match findPage m t n with
  | none => (nv, m)
  | some g =>
    match g.mig with
    | none => (nv, m)
    | some mg =>
      let bad := if g.tier == .flash || (g.tier == .lp && mg.dest == .hbm) then (List.range 32).filter (blockFails m t g errs) else []
      let m := countDecoded t g errs m
      if !bad.isEmpty then (nv, m |> markBlocks t n 2 bad |> sourceBad fs t n)
      else if (g.tier != .zero && pagePoisoned m t n)
          || (g.tier != .zero && mg.dest == .hbm && !g.crcBad.isEmpty) then (nv, sourceBad fs t n m)
      else if mg.dest == .flash && (fs == .readOnly || fs == .offline) then (nv, m |> dropMove t n |> pageArrives fs t n)
      else
        ({ nv with flash := flashPart g mg.dest nv.flash },
          m |> readSource t g errs |> landPage t n g mg.dest |> countMove t g mg
            |> chargeMigration g |> onlyIf (g.tier == .flash) (chanRetries nv.flash) |> pinPoolPage t n |> settlePage t n (some mg.dest) |> captureAt [3, t, n] 0x07 5 t (le 4 n) |> pageArrives fs t n)

/-- R175, R186: the oldest source frame of a page, or of the page that had its number and was freed, returns to the pool. -/
def releaseFrame (t n : Nat) (m : Mach) : Mach :=
  let here (x : Nat × Nat × Tier) : Bool := x.1 == t && x.2.1 == n
  if m.mem.lingering.any here then modMem (fun x => { x with lingering := x.lingering.eraseP here }) m
  else modPage t n (fun g => { g with oldFrames := g.oldFrames.tail }) m

/-- R163: the first page of the reclaim queue returns to the free pool. -/
def pageReclaim (m : Mach) : Mach :=
  match m.mem.reclaimQ with
  | [] => m
  | _ :: r =>
    { m with mem := { m.mem with reclaimQ := r }
             ten := { m.ten with reclaimed := bump 32 1 m.ten.reclaimed } }

/-- R252: the pool's oldest LPDDR5X page is demoted to flash once LP_PAGES is passed. -/
def kvFlashDemote (t k : Nat) (fs : FlashState) (m : Mach) : Mach :=
  match findPool m t k with
  | none => m
  | some p =>
    let lp := (poolPages m t k).filter (·.tier == .lp)
    if lp.length ≤ p.geo.lpPages || fs == .readOnly || fs == .offline then m
    else
      match (sortBy victimLe (lp.filter fun g => !leaving m g)).head? with
      | none => m
      | some g =>
        askKv t g.num .flash m

/-! ### The flash tier (R188 to R191) -/

/-- How far down a flash state lies. -/
def flashRank : FlashState → Nat
  | .normal => 0 | .warn => 1 | .readOnly => 2 | .offline => 3

/-- Table 7.10: when a state is entered. -/
def flashDue (f : FlashSt) (dest : FlashState) : Bool :=
  match dest with
  | .normal => false
  | .warn => f.sparePermille < 250 || 90 ≤ f.lifePct
  | .readOnly => f.sparePermille < 50
  | .offline => true

/-- R190, R191: the flash tier moves downward to a state whose condition holds. -/
def flashWorse (dest : FlashState) (channel : Nat) (nv : Nv) (m : Mach) : Nv × Mach :=
  if flashRank dest ≤ flashRank nv.flash.state || !flashDue nv.flash dest then (nv, m)
  else
    let m := { m with flashTick := { m.flashTick with changedTick := true } }
    let gone := m.mem.pages.filter fun g => g.tier == .flash
    let m := if dest == .offline then
        forEach gone (fun g m =>
          m |> dropMove g.ten g.num |> stallFails g.ten g.num .tierFail (g.num % 2 ^ 24)
            |> remoteFails dest g.ten g.num .tierFail (g.num % 2 ^ 24)) m
      else m
    ({ nv with flash := { nv.flash with state := dest, channel := if dest == .offline then channel else nv.flash.channel } }, m)

/-- R190: WARN or READ_ONLY is entered as soon as the spare blocks or the life used call for it. -/
def flashSettles (r : Nv × Mach) : Nv × Mach :=
  let a := flashWorse .warn 0xFF r.1 r.2
  flashWorse .readOnly 0xFF a.1 a.2

/-- R191: blocks taken out of service. -/
def retire (bs : List Nat) (nv : Nv) (m : Mach) : Nv × Mach :=
  let fresh := bs.filter fun b => !nv.flash.retiredBlocks.contains b
  let f := { nv.flash with retired := bump 32 fresh.length nv.flash.retired
                           retiredBlocks := fresh ++ nv.flash.retiredBlocks }
  let left := Config.spareBlocks - f.retiredBlocks.length
  let f := { f with sparePermille := min f.sparePermille (1000 * left / Config.spareBlocks) }
  flashSettles ({ nv with flash := f },
    { m with flashTick := { m.flashTick with retiredTick := bump 16 fresh.length m.flashTick.retiredTick } })

/-- R189: a block relocated: its pages programmed elsewhere. -/
def relocate (f : FlashSt) : FlashSt :=
  programs (Config.nandPrograms f.choices) { f with choices := f.choices + 1 }

/-- R189, R191: an erase: the life used and the spread follow, and a step of 10 % is reported. -/
def eraseBlock (nv : Nv) (m : Mach) : Nv × Mach :=
  let f := nv.flash
  let life := max f.lifePct (min 255 (Config.meanEraseCount f.choices * 100 / 3000))
  flashSettles ({ nv with flash := { f with lifePct := life, eraseSpread := min 200 (Config.eraseSpread f.choices),
                                            choices := f.choices + 1 } },
    if life / 10 = f.lifePct / 10 then m else { m with flashTick := { m.flashTick with lifeTick := true } })

/-- A command that changes what no reset clears, while the module is up. -/
def onNv (f : Nv → Mach → Nv × Mach) (s : State) : Host.Outcome State Fault Refusal :=
  if isUp s.m then
    let r := f s.nv s.m
    .next { s with nv := r.1, m := r.2 }
  else .next s

/-- A change of the flash tier alone. -/
def onFlash (f : FlashSt → FlashSt) : State → Host.Outcome State Fault Refusal :=
  onNv fun nv m => ({ nv with flash := f nv.flash }, m)

/-- R175: MEM_ALLOC. -/
def execMemAlloc (h : Hdr) (base pages key : Nat) (s : State) : Host.Outcome State Fault Refusal :=
  runPacket (pktMemAlloc h base pages key) s
/-- R175: MEM_FREE. -/
def execMemFree (h : Hdr) (base pages : Nat) (s : State) : Host.Outcome State Fault Refusal :=
  runPacket (pktMemFree h base pages) s
/-- R184: MEM_PIN. -/
def execMemPin (h : Hdr) (base pages tier : Nat) (s : State) : Host.Outcome State Fault Refusal :=
  runPacket (pktMemPin h base pages tier) s
/-- R184: MEM_DEMOTE. -/
def execMemDemote (h : Hdr) (base pages tier : Nat) (s : State) : Host.Outcome State Fault Refusal :=
  runPacket (pktMemDemote h base pages tier) s
/-- R184: MEM_PREFETCH. -/
def execMemPrefetch (h : Hdr) (base pages : Nat) (s : State) : Host.Outcome State Fault Refusal :=
  runPacket (pktMemPrefetch h base pages) s
/-- R185: MIGRATE_POLICY. -/
def execMigratePolicy (h : Hdr) (ahead touch : Bool) (stallLimitMs : Nat) (basic : Bool) (s : State) :
    Host.Outcome State Fault Refusal := runPacket (pktMigratePolicy h ahead touch stallLimitMs basic) s
/-- R186: a migration starts; TIER 1 HBM, 2 LPDDR5X, 3 flash. -/
def execPromotionStart (ten page tier : Nat) (s : State) : Host.Outcome State Fault Refusal :=
  onFab (fun fs m => if m.life.removal then m else promotionStart ten page (tierOf tier) fs m) s
/-- R186: a migration commits. -/
def execMigrationCommit (ten page : Nat) (errs : List (Nat × Nat)) (s : State) : Host.Outcome State Fault Refusal :=
  onNv (migrationCommit ten page errs) s
/-- R186: the oldest source frame is freed, every read issued before its commit having completed. -/
def execSourceFrameRelease (ten page : Nat) (s : State) : Host.Outcome State Fault Refusal :=
  onUp (releaseFrame ten page) s
/-- R163: a page is reclaimed. -/
def execPageReclaim (s : State) : Host.Outcome State Fault Refusal := onUp pageReclaim s
/-- R252: a pool page goes to flash. -/
def execKvFlashDemote (ten pool : Nat) (s : State) : Host.Outcome State Fault Refusal := onFab (kvFlashDemote ten pool) s
/-- R189: the retention scan of a block. -/
def execFlashRetentionScan (block : Nat) (overLimit : Bool) (s : State) : Host.Outcome State Fault Refusal :=
  onFlash (fun f => if overLimit && !f.retiredBlocks.contains block then
    relocate { f with retention := bump 32 1 f.retention } else f) s
/-- R189: a block is relocated for read disturb. -/
def execFlashReadDisturbRelocate (block : Nat) (s : State) : Host.Outcome State Fault Refusal :=
  onFlash (fun f => if f.retiredBlocks.contains block then f else relocate { f with disturb := bump 32 1 f.disturb }) s
/-- R189: free blocks are collected; a block that fails its erase is retired. -/
def execFlashFreeBlockCollect (erase : BlockErase) (s : State) : Host.Outcome State Fault Refusal :=
  onNv (fun nv m =>
    if nv.flash.retiredBlocks.contains erase.block then (nv, m)
    else if erase.fails then retire [erase.block] nv m
    else eraseBlock nv m) s
/-- R189: a program fails: it is made elsewhere and the block retired. -/
def execFlashProgramFail (block : Nat) (s : State) : Host.Outcome State Fault Refusal :=
  onNv (fun nv m => retire [block] { nv with flash := relocate nv.flash } m) s
/-- R190: the flash state changes. -/
def execFlashStateChange (dest : FlashState) (channel : Nat) (s : State) : Host.Outcome State Fault Refusal :=
  onNv (flashWorse dest channel) s
/-- R189, R190: a die is lost: its data is rebuilt and its blocks retired, or the tier goes OFFLINE. -/
def execFlashDieLoss (channel blocks : Nat) (covered : Bool) (s : State) : Host.Outcome State Fault Refusal :=
  onNv (fun nv m =>
    if covered then
      let f := { nv.flash with rebuilt := bump 16 (Config.rebuiltChunks nv.flash.choices) nv.flash.rebuilt
                               choices := nv.flash.choices + 1 }
      let base := f.retiredBlocks.foldl max 0 + 1
      retire (List.range' base blocks) { nv with flash := f } m
    else flashWorse .offline channel nv m) s
/-- R188: a channel trains: its NV-LPDDR4 interface is in use, and its retries are counted anew. -/
def trainChannel (c : Nat) (m : Mach) : Mach :=
  { m with chan := { m.chan with nvLpddr4 := m.chan.nvLpddr4.set c true, retries := m.chan.retries.set c 0 } }

/-- R188: a channel whose retry rate has passed its limit trains again; its data and the tier's state stay. -/
def execFlashChannelRetrain (channel : Nat) (s : State) : Host.Outcome State Fault Refusal := onUp (trainChannel channel) s

end Sys2Proof.Machine
end

