-- ==== Sys2Proof/Machine/Kv.lean ====
section
/-! DEFINITION. KV pools, page tables, the walk of KV accesses, mapping, pins, and the prefix index
(chapter 10). -/

namespace Sys2Proof.Machine

/-! ### Tables and entries (R238) -/

/-- R238: the index of an entry. -/
def kvIx (g : KvAttach) (tb : KvTable) (s l gr b : Nat) : Nat :=
  ((s * g.layers + l) * g.groups + gr) * tb.maxBlocks + b

/-- The key of an entry among the entries of a pool's tables. -/
def kvKey (c ix : Nat) : Nat := c * 2 ^ 48 + ix

/-- Table 10.4: an entry's 64 bits. -/
def kveBits (e : Kve) : Nat := 1 + 2 * e.fill + 2 ^ 8 * e.page + 2 ^ 32 * e.slot

/-- A context with its table's pool. -/
structure KvView where
  t : Nat
  c : Nat
  tb : KvTable
  p : Pool
deriving DecidableEq, Repr

/-- The table of a context and the pool it is attached to. -/
def kvView (m : Mach) (c : Nat) : Option KvView :=
  (ctxOf m c).table.bind fun tb =>
    if tb.dead then none else (findPool m (ctxOf m c).ten tb.pool).map fun p => { t := (ctxOf m c).ten, c, tb, p }

/-- An entry of a context's table. -/
def kvEntry (v : KvView) (ix : Nat) : Option Kve := alGet (kvKey v.c ix) v.p.entries

/-- R238: where an entry lies in its table's pages. -/
def entryOff (v : KvView) (ix : Nat) : Nat := v.tb.base * pageSize + 8 * ix

/-- R197: the bytes of an entry written into its table's pages; the unit they lie in is merged. -/
def mirrorEntry (v : KvView) (ix n : Nat) (m : Mach) : Mach :=
  m |> materialise v.t (entryOff v ix / pageSize) |> devMerge v.t (entryOff v ix) (le 8 n)

/-- R197, R203: the source of poison in the table units of some entries, if there is any. -/
def badEntry (m : Mach) (v : KvView) (ixs : List Nat) : Option Nat := ixs.findSome? fun ix => devBad m v.t (entryOff v ix) 8

/-- R237: the count of a slot. -/
def slotRefs (p : Pool) (k : Nat) : Nat := (alGet k p.refs).getD 0

/-- R237: one more reference. -/
def addRef (k : Nat) (p : Pool) : Pool := { p with refs := alSet k (slotRefs p k + 1) p.refs }

/-- R237, R249: one reference less; at zero the slot enters quarantine at boundary `now`. -/
def dropRef (now k : Nat) (p : Pool) : Pool :=
  let n := slotRefs p k - 1
  if n = 0 then { p with refs := alDel k p.refs, quarantine := alSet k now p.quarantine }
  else { p with refs := alSet k n p.refs }

/-- An entry written, without its slot's count. -/
def putKve (c ix : Nat) (e : Kve) (m : Mach) : Mach :=
  match kvView m c with
  | none => m
  | some v =>
    m |> modPool v.t v.tb.pool (fun p => { p with entries := alSet (kvKey c ix) e p.entries })
      |> mirrorEntry v ix (kveBits e)

/-- An entry zeroed, without its slot's count. -/
def zeroKve (c ix : Nat) (m : Mach) : Mach :=
  match kvView m c with
  | none => m
  | some v =>
    m |> modPool v.t v.tb.pool (fun p => { p with entries := alDel (kvKey c ix) p.entries }) |> mirrorEntry v ix 0

/-- R248: an entry mapped to a slot, whose count rises. -/
def mapKve (c ix : Nat) (e : Kve) (m : Mach) : Mach :=
  match kvView m c with
  | none => m
  | some v => m |> putKve c ix e |> modPool v.t v.tb.pool (addRef (slotKey e.page e.slot))

/-- R250: the pin mark of an entry cleared. -/
def unpinEntry (c ix : Nat) (p : Pool) : Pool := { p with pinned := p.pinned.filter (·.1 != kvKey c ix) }

/-- R248, R250: an entry unmapped. -/
def unmapKve (c ix : Nat) (m : Mach) : Mach :=
  match kvView m c with
  | none => m
  | some v =>
    match kvEntry v ix with
    | none => m
    | some e =>
      m |> zeroKve c ix |> modPool v.t v.tb.pool (fun p => p |> unpinEntry c ix |> dropRef m.tick.count (slotKey e.page e.slot))

/-- The layers and groups of a geometry. -/
def lgs (g : KvAttach) : List (Nat × Nat) :=
  (List.range g.layers).flatMap fun l => (List.range g.groups).map fun gr => (l, gr)

/-- R248: the entries of a column. -/
def column (v : KvView) (s b : Nat) : List Nat := (lgs v.p.geo).map fun x => kvIx v.p.geo v.tb s x.1 x.2 b

/-- R245: a stream's committed length in one layer and group, from block `b` on. -/
def lenFrom (v : KvView) (s l gr : Nat) : Nat → Nat → Nat
  | 0, _ => 0
  | fuel + 1, b =>
    match kvEntry v (kvIx v.p.geo v.tb s l gr b) with
    | none => 0
    | some e => if e.fill = 64 then 64 + lenFrom v s l gr fuel (b + 1) else e.fill

/-- R245: a stream's committed length in one layer and group. -/
def kvLen (v : KvView) (s l gr : Nat) : Nat := lenFrom v s l gr v.tb.maxBlocks 0

/-- The length a stream holds: that of its first layer and group. -/
def streamLen (m : Mach) (c s : Nat) : Nat :=
  match kvView m c with
  | none => 0
  | some v => kvLen v s 0 0

/-! ### Slots (R235 to R237, R249) -/

/-- R237: a slot is free. -/
def slotFree (p : Pool) (k : Nat) : Bool := slotRefs p k == 0 && (alGet k p.quarantine).isNone

/-- The free slots of a pool page. -/
def freeSlots (p : Pool) (n : Nat) : List Nat := (List.range (slotsPer p.geo)).filter fun i => slotFree p (slotKey n i)

/-- R236: a fully free page for a stream: in HBM first, then ascending. -/
def freshPage (m : Mach) (v : KvView) : Option Page :=
  let op := openPages m v.t v.p.num
  let fs := (poolPages m v.t v.p.num).filter fun g =>
    (freeSlots v.p g.num).length == slotsPer v.p.geo && !op.contains g.num
  let s := sortBy (fun a b => a.num ≤ b.num) fs
  (s.find? (·.tier == .hbm)).or s.head?

/-- R236: a pool page whose slots are all free returns to ZERO.  Its marks stay: it is not freed (R199). -/
def pageToZero (t n : Nat) (m : Mach) : Mach :=
  m |> dropMove t n |> clearPage t n |> modPage t n (fun g => { g with tier := .zero, pin := 0, crcs := [] })

/-- R251: a page that becomes a stream's open page enters HBM: a fully free page takes a frame of zeros.  Where a victim of the
pool must leave first, or no frame is free, its zeros wait with the migrator (R173). -/
def enterHbm (t n : Nat) (p : Pool) (m : Mach) : Mach :=
  match findPage m t n with
  | none => m
  | some g =>
    if g.tier == .hbm then m
    else
      let m := m |> onlyIf (g.tier != .zero) (pageToZero t n) |> modPage t n (fun g => { g with pin := 0 })
      if poolRoom m t p && freeFrames m .hbm != 0 then materialise t n m
      else m |> onlyIf (!(poolPages m t p.num).any fun g => g.tier == .hbm && leaving m g) (poolSpill t p) |> askMove t n .hbm

/-- The open page of a stream set or removed. -/
def setOpen (c s : Nat) (n : Option Nat) : Mach → Mach :=
  modCtx c fun x => { x with table := x.table.map fun tb =>
    { tb with openPage := match n with
        | some k => alSet s k tb.openPage
        | none => alDel s tb.openPage } }

/-- R236: a slot taken for a new KV page of a stream, or none. -/
def takeSlot (c s : Nat) (m : Mach) : Option ((Nat × Nat) × Mach) :=
  (kvView m c).bind fun v =>
    let cur := (alGet s v.tb.openPage).bind fun n => ((freeSlots v.p n).head?).map fun i => (n, i)
    let done := fun (n i : Nat) (m : Mach) =>
      ((n, i), if (freeSlots v.p n).length ≤ 1 then setOpen c s none m else setOpen c s (some n) m)
    match cur with
    | some (n, i) => some (done n i (enterHbm v.t n v.p m))
    | none => (freshPage m v).map fun g => done g.num 0 (enterHbm v.t g.num v.p m)

/-- R236: the pages of a pool whose slots are all free and which are not yet ZERO, open ones among them. -/
def freedPages (m : Mach) (t : Nat) (p : Pool) : List Nat :=
  ((poolPages m t p.num).filter fun g => g.tier != .zero && (freeSlots p g.num).length == slotsPer p.geo).map (·.num)

/-- R249: the slots of a pool that leave quarantine, every unit cut before they entered it having been finalised. -/
def releaseSlots (m : Mach) (p : Pool) : Pool :=
  let cuts := (cutUnits m).map (·.cut)
  { p with quarantine := p.quarantine.filter fun q => !(cuts.all fun k => q.2 ≤ k) }

/-- R236, R249: slots leave quarantine, and pool pages without a slot in use return to ZERO. -/
def releaseQuarantine (m : Mach) : Mach :=
  forEach (List.range 48) (fun t m =>
    forEach (tenOf m t).pools (fun p m =>
      let p := releaseSlots m p
      m |> modPool t p.num (fun _ => p) |> forEach (freedPages m t p) (pageToZero t)) m) m

/-! ### The walk (R244, R245) -/

/-- KV access entry (Table 10.7) as read from a step's plan. -/
structure KvAccess where
  append : Bool
  group : Nat
  layer : Nat
  stream : Nat
  first : Nat
  count : Nat
  slice : Nat
deriving DecidableEq, Repr

/-- Table 10.7: an entry's sixteen bytes; none where it holds a reserved value. -/
def readAccess (bs : List Byte) : Option KvAccess :=
  let op := field bs 0 1
  let a : KvAccess := { append := op == 1, group := field bs 1 1, layer := field bs 2 2, stream := field bs 4 2,
                        first := field bs 6 2, count := field bs 8 2, slice := field bs 10 4 }
  if 1 < op || field bs 14 2 != 0 || 2 ^ 29 ≤ a.slice || a.count == 0
      || (if a.append then a.first != 0 || 1024 < a.count else 31 < a.count) then none
  else some a

/-- R244: an access inside the geometry: outside it, it holds a reserved value. -/
def accessOk (v : KvView) (a : KvAccess) : Bool :=
  a.layer < v.p.geo.layers && a.group < v.p.geo.groups && a.stream < v.tb.streams
    && (a.append || a.first + a.count ≤ v.tb.maxBlocks)

/-- A MOVE between a slot and a slice. -/
def kvMove (op rowBytes src dst : Nat) : MoveBody := { op, rowBytes, src, dst }

/-- R244: the device-local offset of a slot. -/
def slotOff (g : KvAttach) (e : Kve) : Nat := e.page * pageSize + e.slot * slotBytes g

/-- R244: the MOVEs of a READ, one for each valid block with committed tokens. -/
def kvRead (v : KvView) (a : KvAccess) : List MoveBody :=
  (List.range a.count).filterMap fun i =>
    match kvEntry v (kvIx v.p.geo v.tb a.stream a.layer a.group (a.first + i)) with
    | some e =>
      if e.fill = 0 then none
      else
        let n := 64 * tokenRec v.p.geo
        some (kvMove 1 n (slotOff v.p.geo e) (a.slice + i * n))
    | none => none

/-- What an APPEND comes to: its MOVEs, the entries it mapped and the blocks it writes, or a status (R245). -/
inductive Walk where
  | ok (ms : List MoveBody) (mapped : List Nat) (ws : List Written)
  | fail (st : Status) (detail : Nat)
deriving DecidableEq, Repr

/-- R245: the blocks that an APPEND's tokens reach, from a position on. -/
def appendBlocks (c : Nat) (a : KvAccess) : Nat → Nat → Nat → Mach → Walk × Mach
  | 0, _, _, m => (.ok [] [] [], m)
  | fuel + 1, done, pos, m =>
    if a.count ≤ done then (.ok [] [] [], m)
    else
      match kvView m c with
      | none => (.fail .denied (node16 m), m)
      | some v =>
        let g := v.p.geo
        let b := pos / 64
        let k := min (64 - pos % 64) (a.count - done)
        let ix := kvIx g v.tb a.stream a.layer a.group b
        let go := fun (e : Kve) (fresh : List Nat) (m : Mach) =>
          let mv := kvMove 2 (k * tokenRec g) (a.slice + done * tokenRec g) (slotOff g e + (pos % 64) * tokenRec g)
          let w : Written := { stream := a.stream, ix, slot := slotKey e.page e.slot, count := k }
          match appendBlocks c a fuel (done + k) (pos + k) m with
          | (.ok ms mp ws, m) => (.ok (mv :: ms) (fresh ++ mp) (w :: ws), m)
          | r => r
        if v.tb.maxBlocks ≤ b then (.fail .invalid 0, m)
        else if let some src := badEntry m v [ix] then (.fail .poisoned src, m)
        else
          match kvEntry v ix with
          | some e => if 1 < slotRefs v.p (slotKey e.page e.slot) then (.fail .denied (node16 m), m) else go e [] m
          | none =>
            match takeSlot c a.stream m with
            | none => (.fail .noSpace 0x10, m)
            | some (s, m) =>
              let e : Kve := { fill := 0, page := s.1, slot := s.2 }
              go e [ix] (mapKve c ix e m)

/-- R245: an APPEND of a context, from the stream's committed length. -/
def kvAppend (c : Nat) (a : KvAccess) (m : Mach) : Walk × Mach :=
  match kvView m c with
  | none => (.fail .denied (node16 m), m)
  | some v => if accessOk v a then appendBlocks c a 34 0 (kvLen v a.stream a.layer a.group) m else (.fail .invalid 0, m)

/-- R246: an APPEND commits: the FILL of a block it wrote rises by the tokens written there, where the entry still names the
slot they were written to. -/
def commitAppend (c : Nat) (w : Written) (m : Mach) : Mach :=
  match (kvView m c).bind (kvEntry · w.ix) with
  | none => m
  | some e => if slotKey e.page e.slot = w.slot then putKve c w.ix { e with fill := min 64 (e.fill + w.count) } m else m

/-! ### The KV opcodes -/

/-- A KV command of a context whose pool a rebind released is DENIED (R262). -/
def kvGuard (h : Hdr) (f : KvView → Mach → Mach) (m : Mach) : Mach :=
  match kvView m h.ctx with
  | some v => f v m
  | none => reply h .denied (node16 m) m

/-- R197, R202, R203: a command that reads or writes entries whose table units hold poison is finalised POISONED and changes
nothing. -/
def kvClean (h : Hdr) (bad : Option Nat) (f : Mach → Mach) (m : Mach) : Mach :=
  match bad with
  | some src => m |> countPoison (.poison src) |> reply h .poisoned src
  | none => f m

/-- R243: the context has a table. -/
def hasTable (m : Mach) (c : Nat) : Bool := (ctxOf m c).table.isSome

/-- R265, R269: the context has a KV table that no rebind released. -/
def liveTable (m : Mach) (c : Nat) : Bool := (ctxOf m c).table.any (!·.dead)

/-- R262: the table is there and was not released. -/
def kvOk (m : Mach) (h : Hdr) (q : KvView → Bool) : Bool :=
  h.ctx == 0 || (hasTable m h.ctx && ((kvView m h.ctx).map q).getD true)

/-- R241: the fields of an ATTACH lie in their ranges. -/
def attachFields (a : KvAttach) : Bool :=
  a.pool ≤ 7 && (a.kfmt == 1 || a.kfmt == 2 || a.kfmt == 4) && 1 ≤ a.h && a.h ≤ 16
    && (a.d == 64 || a.d == 128 || a.d == 192 || a.d == 256) && 1 ≤ a.groups && a.groups ≤ 64
    && 1 ≤ a.layers && a.layers ≤ 1024 && 1 ≤ a.streams && a.streams ≤ 65535 && 1 ≤ a.maxBlocks && a.maxBlocks ≤ 32768
    && within a.tableBase a.tablePages (2 ^ 24) && within a.poolBase a.poolPages (2 ^ 24)
    && (a.recPages == 0 || within a.recBase a.recPages (2 ^ 24))
    && 1 ≤ a.hbmPages && a.hbmPages ≤ a.poolPages && a.lpPages ≤ a.poolPages && a.root.length == 16
    && (8 * (a.streams * a.layers * a.groups * a.maxBlocks) + pageSize - 1) / pageSize ≤ a.tablePages

/-- Two ranges of pages overlap. -/
def overlap (a n b k : Nat) : Bool := n != 0 && k != 0 && a < b + k && b < a + n

/-- R241: the pool fields of an ATTACH equal the pool's own. -/
def samePool (a b : KvAttach) : Bool :=
  ({ a with streams := 0, maxBlocks := 0, tableBase := 0, tablePages := 0 } : KvAttach) ==
    { b with streams := 0, maxBlocks := 0, tableBase := 0, tablePages := 0 }

/-- R241: an ATTACH in range of the tenancy. -/
def attachOk (m : Mach) (h : Hdr) (a : KvAttach) : Bool :=
  let t := hTen m h
  let live := ((ctxOf m h.ctx).table.map (!·.dead)).getD false
  let own := freeRange m t a.tableBase a.tablePages
  let keys := fun (b n : Nat) => (List.range' b n).map fun i => ((findPage m t i).map (·.key)).getD 64
  let key := (keys a.poolBase 1).headD 64
  !live && own && !overlap a.tableBase a.tablePages a.poolBase a.poolPages
    && !overlap a.tableBase a.tablePages a.recBase a.recPages && !overlap a.poolBase a.poolPages a.recBase a.recPages
    && (keys a.tableBase a.tablePages).all (· == key)
    && (match findPool m t a.pool with
        | some p => samePool a p.geo
        | none => freeRange m t a.poolBase a.poolPages && freeRange m t a.recBase a.recPages
            && ((keys a.poolBase a.poolPages) ++ keys a.recBase a.recPages).all (· == key))

/-- Pages claimed for a pool, its records or a table. -/
def claimPages (t base n claim owner : Nat) (m : Mach) : Mach :=
  forEach (List.range' base n) (fun i => modPage t i fun g => { g with claim, owner }) m

/-- R241: ATTACH. -/
def pktKvTableAttach (h : Hdr) (a : KvAttach) : Packet :=
  packet { op := 0x20, tenant := true } h (fun m => attachFields a && (h.ctx == 0 || attachOk m h a))
    (fun _ m =>
      let t := hTen m h
      let fresh := (findPool m t a.pool).isNone
      let tb : KvTable :=
        { pool := a.pool, streams := a.streams, maxBlocks := a.maxBlocks, base := a.tableBase, pages := a.tablePages }
      if fresh && pinLimit 1 < pinned m 1 + a.hbmPages then reply h .noSpace 2 m
      else
        let m := if fresh then
            m |> modTen t (fun x => { x with pools := x.pools ++ [{ num := a.pool, geo := a }] })
              |> claimPages t a.poolBase a.poolPages 1 a.pool |> claimPages t a.recBase a.recPages 2 a.pool
          else m
        m |> modPool t a.pool (fun p => { p with tables := p.tables + 1 })
          |> claimPages t a.tableBase a.tablePages 3 h.ctx
          |> forEach (List.range' a.tableBase a.tablePages) (zeroPage t)
          |> modCtx h.ctx (fun c => { c with table := some tb })
          |> reply h .ok (slotsPer a))

/-- R258: the size of a record. -/
def recSize (g : KvAttach) : Nat := (g.layers * g.groups * 8 + 63) / 64 * 64

/-- R258: where the record of an entry of the prefix index lies. -/
def recOff (g : KvAttach) (slot : Nat) : Nat := g.recBase * pageSize + slot * recSize g

/-- R261: an entry of the prefix index goes, with its record's entries, which are zeroed, and their references. -/
def dropPrefix (t : Nat) (e : PrefixEnt) (m : Mach) : Mach :=
  let now := m.tick.count
  m |> (match findPool m t e.pool with
        | some p => devPut t (recOff p.geo e.slot) (zeros (recSize p.geo))
        | none => id)
    |> modTen t (fun x => { x with prefixes := x.prefixes.filter fun y => !(y.pool == e.pool && y.hash == e.hash) })
    |> modPool t e.pool (fun p => e.record.foldl (fun p k => dropRef now (slotKey k.page k.slot) p) p)

/-- R242: the last table of a pool has gone: its entries, its pages and its claims. -/
def closePool (t k : Nat) (m : Mach) : Mach :=
  let m := forEach ((tenOf m t).prefixes.filter (·.pool == k)) (dropPrefix t) m
  let ps := m.mem.pages.filter fun g => g.ten == t && g.owner == k && (g.claim == 1 || g.claim == 2)
  m |> forEach ps (fun g m => m |> pageToZero t g.num |> modPage t g.num (fun g => { g with claim := 0, owner := 0 }))
    |> modTen t (fun x => { x with pools := x.pools.filter (·.num != k) })

/-- R242: the table of a context detached. -/
def detachTable (c : Nat) (m : Mach) : Mach :=
  match kvView m c with
  | none => modCtx c (fun x => { x with table := none }) m
  | some v =>
    let ixs := (v.p.entries.filter fun e => e.1 / 2 ^ 48 == c).map fun e => e.1 % 2 ^ 48
    let m := m |> forEach ixs (unmapKve c) |> claimPages v.t v.tb.base v.tb.pages 0 0
      |> modCtx c (fun x => { x with table := none })
      |> modPool v.t v.tb.pool (fun p => { p with tables := p.tables - 1 })
    if v.p.tables ≤ 1 then closePool v.t v.tb.pool m else m

/-- R242: DETACH. -/
def pktKvTableDetach (h : Hdr) : Packet :=
  packet { op := 0x20, tenant := true } h (fun m => kvOk m h fun _ => true)
    (fun _ m => kvGuard h (fun _ m => m |> detachTable h.ctx |> reply h .ok 0) m)

/-- R243, Table 10.6: the 32 bytes of a pool's counts. -/
def kvStatus (m : Mach) (v : KvView) : List Byte :=
  let ps := poolPages m v.t v.p.num
  let n := fun (t : Tier) => ps.countP (·.tier == t)
  le 4 (n .hbm) ++ le 4 (n .lp) ++ le 4 (n .flash) ++ le 4 v.p.refs.length ++ le 4 v.p.quarantine.length ++
    le 4 ((tenOf m v.t).prefixes.countP (·.pool == v.p.num)) ++ le 4 (n .hbm - v.p.geo.hbmPages) ++ zeros 4

/-- R243: STATUS. -/
def pktKvTableStatus (h : Hdr) (outPtr : Nat) : Packet :=
  packet { op := 0x20, tenant := true } h (fun _ => outPtr % 32 == 0)
    (fun _ m =>
      if ((ctxOf m h.ctx).table.map (·.dead)).getD false then reply h .denied (node16 m) m
      else m |> putHost outPtr (((kvView m h.ctx).map (kvStatus m)).getD (zeros 32)) |> reply h .ok 32)

/-- The counts that references to slots would reach stay within 16 bits (R237). -/
def refsFit (p : Pool) (es : List Kve) : Bool :=
  let ks := es.map fun e => slotKey e.page e.slot
  ks.all fun k => slotRefs p k + ks.countP (· == k) ≤ 65535

/-- R248: the two ranges of columns of a KV_MAP lie in the table. -/
def mapRange (v : KvView) (ss sb ds db n : Nat) : Bool :=
  ss < v.tb.streams && ds < v.tb.streams && sb + n ≤ v.tb.maxBlocks && db + n ≤ v.tb.maxBlocks
    && (List.range n).all fun i => (column v ds (db + i)).all fun x => (kvEntry v x).isNone

/-- R248: KV_MAP COPY. -/
def pktKvMapCopy (h : Hdr) (ss sb ds db n : Nat) : Packet :=
  packet { op := 0x21, tenant := true } h
    (fun m => 1 ≤ n && n ≤ 2048 && kvOk m h fun v => mapRange v ss sb ds db n
      && (List.range n).all fun i => (column v ss (sb + i)).all fun x => (kvEntry v x).isSome)
    (fun _ => kvGuard h fun v m =>
      let ps := (List.range n).flatMap fun i => (column v ss (sb + i)).zip (column v ds (db + i))
      let es := ps.filterMap fun x => (kvEntry v x.1).map fun e => (x.2, e)
      kvClean h (badEntry m v (ps.map (·.1) ++ ps.map (·.2))) (fun m =>
      if !refsFit v.p (es.map (·.2)) then reply h .noSpace 0x13 m
      else m |> forEach es (fun x => mapKve h.ctx x.1 x.2) |> reply h .ok es.length) m)

/-- R250: a pin mark goes with the entry that KV_MAP MOVE moves. -/
def movePin (a b : Nat) (p : Pool) : Pool := { p with pinned := p.pinned.map fun x => if x.1 = a then (b, x.2) else x }

/-- R246: what unfinalised steps of a context wrote into an entry goes with the entry that KV_MAP MOVE moves. -/
def moveTaken (c a b : Nat) : Mach → Mach :=
  let go (w : Written) : Written := if w.ix = a then { w with ix := b } else w
  modStp fun x => { x with steps := x.steps.map fun s =>
    if s.ctx == c then { s with mapped := s.mapped.map go, appended := s.appended.map go } else s }

/-- R248: KV_MAP MOVE. -/
def pktKvMapMove (h : Hdr) (ss sb ds db n : Nat) : Packet :=
  packet { op := 0x21, tenant := true } h
    (fun m => 1 ≤ n && n ≤ 2048 && kvOk m h fun v => mapRange v ss sb ds db n && !(ss == ds && overlap sb n db n))
    (fun _ => kvGuard h fun v m =>
      let ps := (List.range n).flatMap fun i => (column v ss (sb + i)).zip (column v ds (db + i))
      let es := ps.filterMap fun x => (kvEntry v x.1).map fun e => (x.1, x.2, e)
      kvClean h (badEntry m v (ps.map (·.1) ++ ps.map (·.2))) (fun m =>
        m |> forEach es (fun x m => m |> putKve h.ctx x.2.1 x.2.2 |> zeroKve h.ctx x.1
                |> modPool v.t v.tb.pool (movePin (kvKey h.ctx x.1) (kvKey h.ctx x.2.1)) |> moveTaken h.ctx x.1 x.2.1)
          |> reply h .ok es.length) m)

/-- The mapped entries of a stream from a block on. -/
def entriesFrom (v : KvView) (s b : Nat) : List Nat :=
  let lo := kvIx v.p.geo v.tb s 0 0 0
  let hi := kvIx v.p.geo v.tb (s + 1) 0 0 0
  (v.p.entries.filter fun e =>
    e.1 / 2 ^ 48 == v.c && lo ≤ e.1 % 2 ^ 48 && e.1 % 2 ^ 48 < hi && b ≤ e.1 % 2 ^ 48 % v.tb.maxBlocks).map fun e => e.1 % 2 ^ 48

/-- R248: the columns of a stream unmapped from a block on. -/
def unmapFrom (c s b : Nat) (m : Mach) : Mach :=
  match kvView m c with
  | none => m
  | some v => forEach (entriesFrom v s b) (unmapKve c) m

/-- R248: a stream truncated to a length. -/
def truncStream (c s len : Nat) (m : Mach) : Mach :=
  let m := unmapFrom c s ((len + 63) / 64) m
  let m := if len % 64 = 0 then m
    else
      match kvView m c with
      | none => m
      | some v =>
        let ixs := column v s (len / 64)
        let es := ixs.filterMap fun x => (kvEntry v x).map fun e => (x, e)
        if es.any fun x => 1 < slotRefs v.p (slotKey x.2.page x.2.slot) then forEach ixs (unmapKve c) m
        else forEach es (fun x => putKve c x.1 { x.2 with fill := min x.2.fill (len % 64) }) m
  if streamLen m c s = 0 then setOpen c s none m else m

/-- R248: KV_UNMAP. -/
def pktKvUnmap (h : Hdr) (stream length : Nat) : Packet :=
  packet { op := 0x22, tenant := true } h
    (fun m => kvOk m h fun v => stream < v.tb.streams && length ≤ 64 * v.tb.maxBlocks)
    (fun _ => kvGuard h fun v m =>
      kvClean h (badEntry m v (entriesFrom v stream (length / 64))) (fun m =>
        let m := truncStream h.ctx stream length m
        reply h .ok (streamLen m h.ctx stream) m) m)

/-- R250: a pool page that now holds a pinned slot: its spill is abandoned, and it is promoted where it is not in HBM. -/
def pinnedPageStays (t n : Nat) (m : Mach) : Mach :=
  m |> abandonDemotion t n
    |> modMem (fun x => { x with asks := x.asks.filter fun a => !(a.ten == t && a.page == n && a.victim) })
    |> askMove t n .hbm

/-- R250: KV_PIN. -/
def pktKvPin (h : Hdr) (stream first blocks : Nat) (pin : Bool) : Packet :=
  packet { op := 0x26, expert := true, tenant := true } h
    (fun m => 1 ≤ blocks && kvOk m h fun v => stream < v.tb.streams && first + blocks ≤ v.tb.maxBlocks)
    (fun _ => kvGuard h fun v m =>
      let ixs := (List.range blocks).flatMap fun i => column v stream (first + i)
      let xs := ixs.filterMap fun ix =>
        (kvEntry v ix).map fun e => (kvKey v.c ix, slotKey e.page e.slot)
      let ks := xs.map (·.2)
      let p := { v.p with pinned :=
        if pin then (v.p.pinned ++ xs).dedup else v.p.pinned.filter fun x => !ks.contains x.2 }
      kvClean h (badEntry m v ixs) (fun m =>
        if v.p.geo.hbmPages < (pinnedPages p).length && pin then reply h .noSpace 2 m
        else
          let m := modPool v.t v.p.num (fun _ => p) m
          let m := if pin then forEach (ks.map (· / 128)).dedup (pinnedPageStays v.t) m else m
          reply h .ok (pinnedPages p).length m) m)

/-! ### Prefix reuse (R257 to R261) -/

/-- R257: the hashes of blocks in order. -/
def hashChain (parent : List Byte) : List (List Byte) → List (List Byte)
  | [] => []
  | b :: r => let h := (sha256 (parent ++ b)).take 16; h :: hashChain h r

/-- R257: the hashes of a command's blocks: block 0 follows the pool's ROOT. -/
def blkHashes (g : KvAttach) (b : PrefixBlk) : List (List Byte) :=
  hashChain (if b.firstBlock = 0 then g.root else b.parent) (chunksOf 256 16 b.tokens)

/-- An entry of a pool's prefix index. -/
def findPrefix (m : Mach) (t k : Nat) (h : List Byte) : Option PrefixEnt :=
  (tenOf m t).prefixes.find? fun e => e.pool == k && e.hash == h

/-- R258: the records of a pool. -/
def recCount (g : KvAttach) : Nat := g.recPages * pageSize / recSize g

/-- R258: the fields of a PREFIX_INSERT or PREFIX_LOOKUP. -/
def prefixOk (m : Mach) (h : Hdr) (b : PrefixBlk) : Bool :=
  1 ≤ b.blocks && b.blocks ≤ 15 && b.parent.length == 16 && b.outPtr % 16 == 0 && b.tokens.length == 256 * b.blocks
    && kvOk m h fun v => b.stream < v.tb.streams && b.firstBlock + b.blocks ≤ v.tb.maxBlocks

/-- R258: the leading blocks whose hash has an entry. -/
def matched (m : Mach) (v : KvView) (hs : List (List Byte)) : Nat :=
  (hs.takeWhile fun h => (findPrefix m v.t v.p.num h).isSome).length

/-- The output of a prefix command. -/
def prefixOut (n done : Nat) (hs : List (List Byte)) : List Byte := le 4 n ++ le 4 done ++ zeros 8 ++ hs.flatten

/-- R259: the columns that a LOOKUP with MAP maps, up to the first that holds a valid entry. -/
def mapPlan (m : Mach) (v : KvView) (s : Nat) : Nat → List (List Byte) → List (Nat × Kve)
  | _, [] => []
  | b, h :: r =>
    match findPrefix m v.t v.p.num h with
    | none => []
    | some e =>
      let ixs := column v s b
      if ixs.any fun x => (kvEntry v x).isSome then [] else ixs.zip e.record ++ mapPlan m v s (b + 1) r

/-- R203, R259: the source of poison in the records of some hashes, if there is any. -/
def badRecords (m : Mach) (v : KvView) (hs : List (List Byte)) : Option Nat :=
  hs.findSome? fun h => (findPrefix m v.t v.p.num h).bind fun e => devBad m v.t (recOff v.p.geo e.slot) (recSize v.p.geo)

/-- R259: PREFIX_LOOKUP. -/
def pktPrefixLookup (h : Hdr) (b : PrefixBlk) : Packet :=
  packet { op := 0x24, tenant := true } h (fun m => prefixOk m h b)
    (fun _ => kvGuard h fun v m =>
      let hs := blkHashes v.p.geo b
      let n := matched m v hs
      let plan := if b.map then mapPlan m v b.stream b.firstBlock (hs.take n) else []
      kvClean h ((badEntry m v (plan.map (·.1))).or (if b.map then badRecords m v (hs.take n) else none)) (fun m =>
      if !refsFit v.p (plan.map (·.2)) then reply h .noSpace 0x13 m
      else
        let now := m.tick.count
        m |> modTen v.t (fun x => { x with prefixes := x.prefixes.map fun e =>
                if e.pool == v.p.num && (hs.take n).contains e.hash then { e with lastUse := now } else e })
          |> forEach plan (fun x => mapKve h.ctx x.1 x.2)
          |> modMem (fun x => { x with kvHit := bump 32 n x.kvHit })
          |> putHost b.outPtr (prefixOut n (plan.length / (v.p.geo.layers * v.p.geo.groups)) hs)
          |> reply h .ok n) m)

/-- R260: the entry to evict among candidates: oldest use, then lowest hash. -/
def evictee (es : List PrefixEnt) : Option PrefixEnt :=
  (sortBy (fun a b => if a.lastUse ≠ b.lastUse then a.lastUse < b.lastUse else unle a.hash ≤ unle b.hash) es).head?

/-- R260: room made for one more entry of a pool, or none. -/
def makeRoom (t k : Nat) (m : Mach) : Option Mach :=
  let es := (tenOf m t).prefixes
  let own := es.filter (·.pool == k)
  let full := ((findPool m t k).map (recCount ·.geo)).getD 0 ≤ own.length
  if !full && es.length < 65536 then some m
  else
    (evictee (if full then own else es)).map fun e =>
      m |> dropPrefix t e |> modMem (fun x => { x with kvEvicted := bump 16 1 x.kvEvicted })

/-- The lowest record number of a pool that no entry uses. -/
def freeRec (m : Mach) (t k : Nat) : Nat :=
  let us := ((tenOf m t).prefixes.filter (·.pool == k)).map (·.slot)
  ((List.range (us.length + 1)).find? fun i => !us.contains i).getD 0

/-- R258, R260: one block inserted: created, a duplicate, over a count, or no room. -/
def insertBlock (v : KvView) (s b : Nat) (h : List Byte) (m : Mach) : Except Nat (Nat × Mach) :=
  if (findPrefix m v.t v.p.num h).isSome then
    .ok (0, modMem (fun x => { x with kvDup := bump 16 1 x.kvDup }) m)
  else
    match makeRoom v.t v.p.num m with
    | none => .error 0x11
    | some m =>
      let es := (column v s b).filterMap (kvEntry v)
      match findPool m v.t v.p.num with
      | none => .error 0x11
      | some p =>
        if !refsFit p es then .error 0x13
        else
          let slot := freeRec m v.t v.p.num
          let e : PrefixEnt := { pool := v.p.num, hash := h, lastUse := m.tick.count, record := es, slot }
          let off := recOff v.p.geo slot
          .ok (1, m |> modPool v.t v.p.num (fun p => es.foldl (fun p k => addRef (slotKey k.page k.slot) p) p)
                    |> modTen v.t (fun x => { x with prefixes := x.prefixes ++ [e] })
                    |> forEach (pagesOf off (recSize v.p.geo)) (materialise v.t)
                    |> devPut v.t off (padTo (recSize v.p.geo) (es.flatMap fun k => le 8 (kveBits k))))

/-- R260: the blocks inserted in order: how many were created and passed, and why it stopped. -/
def insertBlocks (v : KvView) (s : Nat) : Nat → List (List Byte) → Mach → (Nat × Nat × Nat) × Mach
  | _, [], m => ((0, 0, 0), m)
  | b, h :: r, m =>
    if !(column v s b).all fun x => ((kvEntry v x).map (·.fill == 64)).getD false then ((0, 0, 0), m)
    else
      match insertBlock v s b h m with
      | .error d => ((0, 0, d), m)
      | .ok (n, m) =>
        let x := insertBlocks v s (b + 1) r m
        ((x.1.1 + n, x.1.2.1 + 1, x.1.2.2), x.2)

/-- R260: PREFIX_INSERT. -/
def pktPrefixInsert (h : Hdr) (b : PrefixBlk) : Packet :=
  packet { op := 0x23, tenant := true } h (fun m => prefixOk m h b && !b.map)
    (fun _ => kvGuard h fun v m =>
      let hs := blkHashes v.p.geo b
      let n := matched m v hs
      let r := insertBlocks v b.stream b.firstBlock hs m
      kvClean h (badEntry m v ((List.range b.blocks).flatMap fun i => column v b.stream (b.firstBlock + i))) (fun m =>
        if r.1.2.2 = 0x13 then reply h .noSpace 0x13 m
        else
          let m := putHost b.outPtr (prefixOut n r.1.1 hs) r.2
          if r.1.2.2 = 0x11 then reply h .noSpace 0x11 m else reply h .ok r.1.1 m) m)

/-- R261: PREFIX_DROP. -/
def pktPrefixDrop (h : Hdr) (all : Bool) (hash : List Byte) : Packet :=
  packet { op := 0x25, tenant := true } h
    (fun m => hash.length == 16 && (!all || allZero hash) && kvOk m h fun _ => true)
    (fun _ => kvGuard h fun v m =>
      let es := (tenOf m v.t).prefixes.filter fun e => e.pool == v.p.num && (all || e.hash == hash)
      m |> forEach es (dropPrefix v.t) |> reply h .ok es.length)

/-- R262: a rebind freezes a key index: the pools under it are released without being read. -/
def releasePools (t k : Nat) (m : Mach) : Mach :=
  let ps := (tenOf m t).pools.filter fun p => ((findPage m t p.geo.poolBase).map (·.key)) == some k
  forEach ps (fun p m =>
    { m with ctxs := m.ctxs.map fun c =>
        if c.isOpen && c.ten == t && (c.table.map (·.pool)) == some p.num then
          { c with table := c.table.map fun tb => { tb with dead := true } } else c }
      |> modTen t (fun x => { x with pools := x.pools.filter (·.num != p.num)
                                     prefixes := x.prefixes.filter (·.pool != p.num) })) m

/-- R254: pools overcommitted at a boundary are counted. -/
def countOvercommit (m : Mach) : Mach :=
  let n := (List.range 48).foldl (fun n t =>
    n + (tenOf m t).pools.countP fun p => p.geo.hbmPages < (poolPages m t p.num).countP (·.tier == .hbm)) 0
  modMem (fun x => { x with kvOvercommit := bump 16 n x.kvOvercommit }) m

/-- R241: KV_TABLE_SETUP ATTACH. -/
def execKvTableAttach (h : Hdr) (a : KvAttach) (s : State) : Host.Outcome State Fault Refusal :=
  runPacket (pktKvTableAttach h a) s
/-- R242: KV_TABLE_SETUP DETACH. -/
def execKvTableDetach (h : Hdr) (s : State) : Host.Outcome State Fault Refusal := runPacket (pktKvTableDetach h) s
/-- R243: KV_TABLE_SETUP STATUS. -/
def execKvTableStatus (h : Hdr) (outPtr : Nat) (s : State) : Host.Outcome State Fault Refusal :=
  runPacket (pktKvTableStatus h outPtr) s
/-- R248: KV_MAP COPY. -/
def execKvMapCopy (h : Hdr) (srcStream srcBlock dstStream dstBlock blocks : Nat) (s : State) :
    Host.Outcome State Fault Refusal := runPacket (pktKvMapCopy h srcStream srcBlock dstStream dstBlock blocks) s
/-- R248: KV_MAP MOVE. -/
def execKvMapMove (h : Hdr) (srcStream srcBlock dstStream dstBlock blocks : Nat) (s : State) :
    Host.Outcome State Fault Refusal := runPacket (pktKvMapMove h srcStream srcBlock dstStream dstBlock blocks) s
/-- R248: KV_UNMAP. -/
def execKvUnmap (h : Hdr) (stream length : Nat) (s : State) : Host.Outcome State Fault Refusal :=
  runPacket (pktKvUnmap h stream length) s
/-- R260: PREFIX_INSERT. -/
def execPrefixInsert (h : Hdr) (b : PrefixBlk) (s : State) : Host.Outcome State Fault Refusal :=
  runPacket (pktPrefixInsert h b) s
/-- R259: PREFIX_LOOKUP. -/
def execPrefixLookup (h : Hdr) (b : PrefixBlk) (s : State) : Host.Outcome State Fault Refusal :=
  runPacket (pktPrefixLookup h b) s
/-- R261: PREFIX_DROP. -/
def execPrefixDrop (h : Hdr) (all : Bool) (hash : List Byte) (s : State) : Host.Outcome State Fault Refusal :=
  runPacket (pktPrefixDrop h all hash) s
/-- R250: KV_PIN. -/
def execKvPin (h : Hdr) (stream firstBlock blocks : Nat) (pin : Bool) (s : State) : Host.Outcome State Fault Refusal :=
  runPacket (pktKvPin h stream firstBlock blocks pin) s

end Sys2Proof.Machine
end

