-- ==== Sys2Proof/Machine/Tenancy.lean ====
section
/-! DEFINITION. Tenancies, key slots, contexts, grants and rebinding (chapter 6). -/

namespace Sys2Proof.Machine

/-- A row that stands for something the module does at the boundary last fired, with what it writes. -/
def atBoundary (f : FlashState → Mach → Mach) : State → Host.Outcome State Fault Refusal :=
  onFab fun fs m => endWrites (f fs m)

/-! ### Creating (R151, R159) -/

/-- The numbers of free key slots, ascending. -/
def freeKeySlots (m : Mach) : List Nat :=
  (List.range 256).filter fun i => m.ten.keySlots[i]?.getD .free == .free

/-- A key slot given a value. -/
def setKeySlot (i : Nat) (v : KeySlot) (m : Mach) : Mach :=
  { m with ten := { m.ten with keySlots := m.ten.keySlots.set i v } }

/-- R148: a draw for a slot; `key1` and `key2` of it are the slot's keys. -/
def drawKey (i : Nat) (nv : Nv) (m : Mach) : Nv × Mach :=
  ({ nv with keyDraws := nv.keyDraws + 1 }, setKeySlot i (.drawn (nv.keyDraws + 1)) m)

/-- A key drawn for every slot of a list. -/
def drawKeys (is : List Nat) (nv : Nv) (m : Mach) : Nv × Mach := is.foldl (fun r i => drawKey i r.1 r.2) (nv, m)

/-- Table 6.6: a TENANCY_DONE event. -/
def tenancyDone (op seq src dst pods us reclaim : Nat) (m : Mach) : Mach :=
  if cutOff m 0 seq then countDropped m
  else emit 0 0x60 0 (le 1 op ++ le 4 seq ++ le 1 src ++ le 1 dst ++ le 6 pods ++ le 2 us ++ le 4 reclaim) m

/-- A tenancy number names an existing tenancy. -/
def tenLive (m : Mach) (t : Nat) : Bool := t < 48 && (tenOf m t).live

/-- R159: TEN_CREATE. -/
def pktTenCreate (h : Hdr) (t keys ftid : Nat) : Packet where
  info := { op := 0x10, zeroOnly := true }
  hdr := h
  ok := fun _ m => t < 48 && !(tenOf m t).live && 1 ≤ keys && keys ≤ 64 && ftid ≤ 0xFFFE
    && m.ten.tens.all fun x => !(x.live && x.ftid == ftid)
  eff := fun nv m =>
    let free := freeKeySlots m
    if free.length < keys then (nv, reply h .noSpace 1 m)
    else
      let is := free.take keys
      let r := drawKeys is nv m
      (r.1, r.2 |> modTen t (fun _ => { live := true, ftid, keys := is.map fun i => { slot := i } })
              |> modPwr (fun x => { x with
                    calTen := alDel t x.calTen
                    calClosed := x.calClosed.map fun y => if y.2.1 = t then (y.1, 48, y.2.2) else y })
              |> tenancyDone 1 h.seq t 0xFF 0 0 0 |> reply h .ok 0)

/-! ### Rebinding (R158 to R165) -/

/-- The set bits of a mask below `n`. -/
def bitsBelow (n mask : Nat) : List Nat := (List.range n).filter mask.testBit

/-- The owner that a SRC or DST field names. -/
def ownerOf (x : Nat) : Owner := if x = 0xFF then .free else .ten x

/-- R158: SRC or DST names free, or a tenancy that exists and is not being destroyed. -/
def endOk (m : Mach) (x : Nat) : Bool := x == 0xFF || (tenLive m x && !(tenOf m x).destroying)

/-- R158: the key indices of a tenancy that pending rebinds destroy. -/
def dyingKeys (m : Mach) (t : Nat) : Nat :=
  m.ten.rebinds.foldl (fun k r => if r.src = t then k ||| r.keys else k) 0

/-- R158: a TEN_REBIND in range. -/
def rebindOk (m : Mach) (src dst pods keys slices : Nat) : Bool :=
  endOk m src && endOk m dst && pods < 2 ^ 48 && slices < 2 ^ 184 && keys < 2 ^ 64
    && !(pods == 0 && slices == 0 && keys == 0) && !(src == dst && (pods != 0 || slices != 0))
    && (bitsBelow 48 pods).all (fun p => m.ten.pods[p]? == some (ownerOf src))
    && (bitsBelow 184 slices).all (fun n => m.ten.slices[n]? == some (ownerOf src))
    && (keys == 0 || (src != 0xFF && (bitsBelow 64 keys).all fun k =>
          k < (tenOf m src).keys.length && !(dyingKeys m src).testBit k))

/-- The owners of pods and slices set. -/
def setOwners (pods slices : List Nat) (o : Owner) (m : Mach) : Mach :=
  { m with ten := { m.ten with
      pods := m.ten.pods.mapIdx fun i x => if pods.contains i then o else x
      slices := m.ten.slices.mapIdx fun i x => if slices.contains i then o else x } }

/-- Table 6.3, N: a rebind accepted: its pods and slices marked, the units cut for its pods withdrawn. -/
def startRebind (r : Rebind) (m : Mach) : Mach :=
  let ps := bitsBelow 48 r.pods
  let hit := (m.peas.zipIdx.filter fun x => ps.contains (x.2 / 4)).filterMap fun x => x.1.pendUnit.map fun u => (u.ctx, u.seq)
  let r := { r with startTick := m.tick.count, startUs := m.tick.nowUs, hit }
  { m with ten := { m.ten with rebinds := m.ten.rebinds ++ [r] } }
    |> setOwners ps (bitsBelow 184 r.slices) .rebinding
    |> modTen r.src (fun x => { x with podOf := x.podOf.filter fun y => !ps.contains y.1 })
    |> withdrawUnits fun p _ => ps.contains (p / 4)

/-- R160: TEN_REBIND. -/
def pktTenRebind (h : Hdr) (src dst pods keys slices : Nat) : Packet :=
  packet { op := 0x11, zeroOnly := true } h (fun m => rebindOk m src dst pods keys slices)
    (fun _ => startRebind { seq := h.seq, src, dst, pods, slices, keys })

/-- The mask of the members of a list. -/
def maskOf (is : List Nat) : Nat := is.foldl (fun n i => n + 2 ^ i) 0

/-- R164: TEN_DESTROY. -/
def pktTenDestroy (h : Hdr) (t : Nat) : Packet :=
  packet { op := 0x12, zeroOnly := true } h
    (fun m => tenLive m t && !(tenOf m t).destroying && m.ten.rebinds.all fun r => r.src != t && r.dst != t)
    (fun _ m =>
      let pods := maskOf ((List.range 48).filter fun p => m.ten.pods[p]? == some (.ten t))
      let slices := maskOf ((List.range 184).filter fun n => m.ten.slices[n]? == some (.ten t))
      m |> modTen t (fun x => { x with destroying := true })
        |> startRebind { seq := h.seq, src := t, dst := 0xFF, pods, slices,
                         keys := 2 ^ (tenOf m t).keys.length - 1, destroy := true })

/-- R161: the migrations of pages under frozen keys are abandoned, the MOVEs that wait for them are denied, and the fabric
requests admitted before the freeze complete in place. -/
def freezePages (fs : FlashState) (t k : Nat) (m : Mach) : Mach :=
  forEach (pagesOfKey m t k) (fun g m =>
    m |> keepAdmitted t (· == g.num) |> dropMove t g.num |> stallFails t g.num .denied (node16 m)
      |> releasePage fs t g.num) m

/-- R112, R160: a pea of a named pod is stopped; its tile ends with its unit. -/
def stopPea (p : Nat) (m : Mach) : Mach :=
  let t := peaTen m p
  let gs := ((tenOf m t).aligns.filter fun r => r.peas.contains p).map (·.group)
  m |> forEach gs (fun g => failRound t g [])
    |> endTile p
    |> modPea p (fun a => { a with active := none, st := .idle, warmHold := false, fatomHeld := none, pkts := [] })

/-- R168, R413: a closing context's share of its tenancy's account; fabric bytes and denials are counted
there already. -/
def foldAcct (a x : Account) : Account :=
  { x with podTicks := x.podTicks + a.podTicks, ovrClock := x.ovrClock + a.ovrClock, ovrStall := x.ovrStall + a.ovrStall
           ovrFabric := x.ovrFabric + a.ovrFabric, ovrEstimate := x.ovrEstimate + a.ovrEstimate
           energyMj := x.energyMj + a.energyMj }

/-- The context that a read of host memory is for. -/
def readCtx : ReadFor → Option Nat
  | .params c _ | .table c | .tree c _ _ | .prompt c _ _ => some c
  | .plan _ | .fwData | .manifest _ _ | .gone => none

/-- R156: what the reads outstanding for a closing context bring is for nobody: not for one that opens under its number. -/
def orphanReads (c : Nat) (m : Mach) : Mach :=
  let end_ (r : Nat × Nat × ReadFor) : Nat × Nat × ReadFor := if readCtx r.2.2 == some c then (r.1, r.2.1, .gone) else r
  { m with host := { m.host with reads := m.host.reads.map end_ } }

/-- R156: the close of a context: its rings out of service, its settings and tables released, its
counters frozen.  Its shards keep their interval, and they and its pages belong to no context (256) from
then on (R9, R387, R412); its counts of the interval wait for its calibration (R413). -/
def closeCtx (c : Nat) (m : Mach) : Mach :=
  m |> detachTable c
    |> modStp (fun x => { x with discarded := bump 16 (ctxOf m c).prefills.length x.discarded })
    |> modTen (ctxOf m c).ten (fun t =>
          { t with acct := foldAcct (ctxOf m c).acct t.acct
                   shards := t.shards.map fun s => if s.ctx == c then { s with ctx := 256 } else s })
    |> modPwr (fun p => { p with calClosed := p.calClosed ++ [(c, (ctxOf m c).ten, (ctxOf m c).acct)] })
    |> modMem (fun x => { x with pages := x.pages.map fun g => if g.ctx == c then { g with ctx := 256 } else g })
    |> modCtx c (fun x =>
          { x with isOpen := false, expert := false, closing := none, share := 16, cur := 0, guardUs := 0,
                   ahead := true, touch := false, stallLimitMs := 100, prefillExpert := false, chunk := 2048,
                   ratio := 0, floor := 0, verifyHours := 24, recipes := [], slots := [], prefills := [],
                   table := none, cmpCurrent := 0, bankA := {}, bankB := {}, cmpPending := none, layouts := [],
                   colls := [] })
    |> modFn c (fun f => { f with cmdEnable := false, cmdEnabled := false, evtEnable := false, evtEnabled := false })
    |> disown (·.ctx == c) (fun r => { r with ctx := 256 })
    |> orphanReads c

/-- R156, R164: the contexts of a tenancy that ends close, each after its requests and before the reply of a CTX_CLOSE that
waits for it, and the grants that name the tenancy end.  What a context opened or a grant set since the drain finds itself in
the same way at the assigning boundary (log 98). -/
def endContexts (t seq : Nat) (m : Mach) : Mach :=
  let cs := (List.range 256).filter fun c => (ctxOf m c).isOpen && (ctxOf m c).ten == t
  let rq := sortBy (fun a b => keyLe (a.ctx, a.seq) (b.ctx, b.seq)) (m.reqs.filter fun q => cs.contains q.ctx)
  let closes := cs.filterMap fun c => (ctxOf m c).closing
  m |> forEach rq (fun q => finaliseReq q.ctx q.urgent q.seq .cancelled seq)
    |> forEach cs closeCtx
    |> forEach closes (fun q => finalise 0 q .ok 0)
    |> (fun m => { m with ten := { m.ten with grants := m.ten.grants.filter fun g => g.localTen != t } })

/-- R133, R160: what a request that a rebind stops is finalised with: CANCELLED, or what its step has met already where that
ranks first. -/
def stoppedCode (m : Mach) (by_ : Nat) (x : Nat × Nat) : Status × Nat :=
  match m.stp.steps.find? fun s => s.ctx == x.1 && s.seq == x.2 with
  | none => (.cancelled, by_)
  | some s => (s.fail.toList ++ s.late.toList).foldl worse (.cancelled, by_)

/-- Table 6.3, N+1: the end of a rebind's drain. -/
def drainEnd (fs : FlashState) (r : Rebind) (m : Mach) : Mach :=
  let ps := bitsBelow 48 r.pods
  let ss := bitsBelow 184 r.slices
  let peas := (List.range 192).filter fun p => ps.contains (p / 4) && (peaOf m p).active.isSome
  let hit := r.hit ++ peas.filterMap fun p => (peaOf m p).active.map fun u => (u.ctx, u.seq)
  let m := m |> forEach peas stopPea
    |> forEach (sortBy keyLe hit.dedup) (fun x m => let y := stoppedCode m r.seq x; finalise x.1 x.2 y.1 y.2 m)
    |> (fun m => { m with ten := { m.ten with tens := m.ten.tens.map fun t =>
          { t with sliceMap := t.sliceMap.filter fun e => !ss.contains e.phys } } })
    |> forEach (bitsBelow 64 r.keys) (fun k m =>
          m |> modTen r.src (fun x => { x with keys := modAt k (fun i => { i with frozen := true }) x.keys })
            |> releasePools r.src k |> freezePages fs r.src k)
  let m := if r.destroy then
      endContexts r.src r.seq m
    else m
  { m with ten := { m.ten with rebinds := m.ten.rebinds.map fun x =>
      if x.seq == r.seq then { x with st := .flashClear } else x } }

/-- R160: every rebind one boundary old ends its drain. -/
def drainEnds (fs : FlashState) (m : Mach) : Mach :=
  forEach (m.ten.rebinds.filter fun r => r.st == .drain && r.startTick < m.tick.count) (drainEnd fs) m

/-- The rebind under way with a sequence number at a step. -/
def findRebind (m : Mach) (seq : Nat) (st : RebindSt) : Option Rebind :=
  m.ten.rebinds.find? fun r => r.seq == seq && r.st == st

/-- A rebind changed. -/
def modRebind (seq : Nat) (f : Rebind → Rebind) (m : Mach) : Mach :=
  { m with ten := { m.ten with rebinds := m.ten.rebinds.map fun r => if r.seq == seq then f r else r } }

/-- Table 6.3 step 2: flash-clear ends. -/
def flashClearDone (seq : Nat) (m : Mach) : Mach :=
  match findRebind m seq .flashClear with
  | none => m
  | some r =>
    let ps := bitsBelow 48 r.pods
    let peas := (List.range 192).filter fun p => ps.contains (p / 4)
    m |> forEach (bitsBelow 184 r.slices) clearSlice
      |> forEach peas (fun p => modPea p fun a =>
            { clearPea a with active := none, pend := [], pendUnit := none, ready := false, st := .idle })
      |> modRebind seq (fun r => { r with st := .cryptoErase })

/-- Table 6.3 step 4: the pages of a key index queued for reclaim. -/
def reclaimKey (t k : Nat) (m : Mach) : Mach :=
  let gs := pagesOfKey m t k
  m |> modTen t (fun x => { x with keys := modAt k (fun i => { i with epoch := i.epoch + 1 }) x.keys })
    |> forEach gs (fun g => clearPage t g.num)
    |> modMem (fun x => { x with pages := x.pages.filter fun g => !(g.ten == t && g.key == k)
                                 reclaimQ := x.reclaimQ ++ gs.map fun g => (t, g.tier) })

/-- Table 6.3 steps 3 and 4: the key slots zeroised and drawn anew, unless the tenancy ends; then the
epochs advance and the pages are queued. -/
def cryptoEraseDone (seq : Nat) (nv : Nv) (m : Mach) : Nv × Mach :=
  match findRebind m seq .cryptoErase with
  | none => (nv, m)
  | some r =>
    let ks := bitsBelow 64 r.keys
    let slots := ks.filterMap fun k => ((tenOf m r.src).keys[k]?).map (·.slot)
    let x := if r.destroy then (nv, forEach slots (fun i => setKeySlot i .zero) m) else drawKeys slots nv m
    let n := (ks.map fun k => (pagesOfKey m r.src k).length).sum
    (x.1, x.2 |> forEach ks (reclaimKey r.src) |> modRebind seq (fun r => { r with st := .resetting, reclaim := n }))

/-- R146: a slice joins a tenancy at its lowest free logical number.  No rule gives WRITE of its new entry in the slice map: it
is 1, so that the slice can be written (DESIGN CHOICE, log 134). -/
def joinSlice (t n : Nat) : Mach → Mach :=
  modTen t fun x =>
    let l := ((List.range 192).find? fun i => !x.sliceMap.any (·.logical == i)).getD 192
    { x with sliceMap := x.sliceMap ++ [{ logical := l, phys := n }] }

/-- R165, R169: a rebind that has passed on leaves the list, and its time is kept. -/
def endRebind (r : Rebind) (us : Nat) (m : Mach) : Mach :=
  let rebinds := m.ten.rebinds.filter (·.seq != r.seq)
  if r.acrossReset then { m with ten := { m.ten with rebinds } }
  else { m with ten := { m.ten with rebinds, lastUs := sat 16 us, maxUs := max m.ten.maxUs (sat 16 us) } }

/-- Table 6.3 step 5: a rebind's pods and slices pass on, and its command replies. -/
def assignRebind (r : Rebind) (m : Mach) : Mach :=
  let us := m.tick.nowUs - r.startUs
  let ps := bitsBelow 48 r.pods
  let ss := bitsBelow 184 r.slices
  let m := setOwners ps ss (ownerOf r.dst) m
  let m := if r.destroy then
      let slots := (tenOf m r.src).keys.map (·.slot)
      m |> endContexts r.src r.seq |> forEach slots (fun i => setKeySlot i .free)
        |> modTen r.src (fun x => { acct := { x.acct with frozen := true } })
        |> disown (·.ten == r.src) (fun q => { q with ten := 48 })
    else
      modTen r.src (fun x =>
        let keys := x.keys.mapIdx fun i k => if r.keys.testBit i then { k with frozen := false } else k
        { x with keys }) m
  let m := endRebind r us m
  if r.acrossReset then
    { m with ten := { m.ten with warmDone := m.ten.warmDone ++ [r] } }
  else
    m |> tenancyDone (if r.destroy then 3 else 2) r.seq r.src r.dst r.pods us r.reclaim |> finalise 0 r.seq .ok us

/-- R162: a rebind is due to pass on at this boundary. -/
def rebindDue (m : Mach) (r : Rebind) : Bool := r.st == .assign && r.startTick + 2 ≤ m.tick.count

/-- R146: the slices that join tenancies at a boundary, those of every rebind due together in ascending physical order. -/
def joinDue (m : Mach) : Mach :=
  let joins (t : Nat) : Nat := ((m.ten.rebinds.filter fun r => rebindDue m r && r.dst == t).map (·.slices)).foldl (· ||| ·) 0
  forEach (List.range 48) (fun t => forEach (bitsBelow 184 (joins t)) (joinSlice t)) m

/-- R162: a rebind that is due passes on. -/
def assignDue (seq : Nat) (m : Mach) : Mach :=
  forEach (m.ten.rebinds.filter fun r => r.seq == seq && rebindDue m r) assignRebind m

/-! ### Contexts and grants (R152, R155, R166) -/

/-- R152: CTX_OPEN. -/
def pktCtxOpen (h : Hdr) (c t : Nat) (expert : Bool) (key : Nat) : Packet :=
  packet { op := 0x13, zeroOnly := true } h
    (fun m => 1 ≤ c && c ≤ 255 && !(ctxOf m c).isOpen && tenLive m t && key < (tenOf m t).keys.length)
    (fun _ m => m |> modPwr (fun x => { x with calCtx := alDel c x.calCtx }) |> modCtx c (fun _ => { isOpen := true, ten := t, expert, key, openTick := m.tick.count }) |> reply h .ok 0)

/-- R155, R156: a context that is open and not closing. -/
def ctxLive (m : Mach) (c : Nat) : Bool := 1 ≤ c && c ≤ 255 && (ctxOf m c).isOpen && (ctxOf m c).closing.isNone

/-- R155: CTX_SCHED. -/
def pktCtxSched (h : Hdr) (c share : Nat) : Packet :=
  packet { op := 0x16, expert := true, zeroOnly := true } h (fun m => ctxLive m c && share ≤ 255)
    (fun _ m => m |> modCtx c (fun x => { x with share := if share = 0 then 16 else share }) |> reply h .ok 0)

/-- Table 6.4: the ranges of a GRANT_SET. -/
def grantOk (m : Mach) (g : GrantBlk) : Bool :=
  g.entry ≤ 1023 &&
    (if g.valid then
      tenLive m g.localTen && g.srcNode ≤ 0xFFF && g.srcFtid ≤ 0xFFFE && 1 ≤ g.rights && g.rights ≤ 15
        && (if g.rights = 8 then g.pages == 0 && g.basePage < 2 ^ 24 else within g.basePage g.pages (2 ^ 24))
    else g.localTen == 0 && g.srcNode == 0 && g.srcFtid == 0 && g.basePage == 0 && g.pages == 0 && g.rights == 0)

/-- R166: GRANT_SET. -/
def pktGrantSet (h : Hdr) (g : GrantBlk) : Packet :=
  packet { op := 0x15, zeroOnly := true } h (fun m => grantOk m g)
    (fun _ m =>
      { m with ten := { m.ten with grants :=
          (if g.valid then [g] else []) ++ m.ten.grants.filter fun x => x.entry != g.entry } }
        |> reply h .ok 0)

/-- R156: a closing context without an unfinalised request completes its close. -/
def ctxCloseComplete (c : Nat) (m : Mach) : Mach :=
  match (ctxOf m c).closing with
  | none => m
  | some q => if m.reqs.any (·.ctx == c) then m else m |> closeCtx c |> finalise 0 q .ok 0

/-- R159: TEN_CREATE. -/
def execTenCreate (h : Hdr) (ten keys ftid : Nat) (s : State) : Host.Outcome State Fault Refusal :=
  runPacket (pktTenCreate h ten keys ftid) s
/-- R160: TEN_REBIND. -/
def execTenRebind (h : Hdr) (src dst pods keys slices : Nat) (s : State) : Host.Outcome State Fault Refusal :=
  runPacket (pktTenRebind h src dst pods keys slices) s
/-- R162: flash-clear ends. -/
def execRebindFlashClearDone (seq : Nat) (s : State) : Host.Outcome State Fault Refusal := onUp (flashClearDone seq) s
/-- R162: crypto-erase ends. -/
def execRebindCryptoEraseDone (seq : Nat) (s : State) : Host.Outcome State Fault Refusal := onNv (cryptoEraseDone seq) s
/-- R162: the reset step ends. -/
def execRebindResetDone (seq : Nat) (s : State) : Host.Outcome State Fault Refusal :=
  onUp (fun m => if (findRebind m seq .resetting).isSome then modRebind seq (fun r => { r with st := .assign }) m else m) s
/-- R164: TEN_DESTROY. -/
def execTenDestroy (h : Hdr) (ten : Nat) (s : State) : Host.Outcome State Fault Refusal := runPacket (pktTenDestroy h ten) s
/-- R152: CTX_OPEN. -/
def execCtxOpen (h : Hdr) (c ten : Nat) (expert : Bool) (key : Nat) (s : State) : Host.Outcome State Fault Refusal :=
  runPacket (pktCtxOpen h c ten expert key) s
/-- R156: a close completes. -/
def execCtxCloseComplete (ctx : Nat) (s : State) : Host.Outcome State Fault Refusal :=
  atBoundary (fun _ => ctxCloseComplete ctx) s
/-- R166: GRANT_SET. -/
def execGrantSet (h : Hdr) (g : GrantBlk) (s : State) : Host.Outcome State Fault Refusal := runPacket (pktGrantSet h g) s
/-- R155: CTX_SCHED. -/
def execCtxSched (h : Hdr) (c share : Nat) (s : State) : Host.Outcome State Fault Refusal :=
  runPacket (pktCtxSched h c share) s

end Sys2Proof.Machine
end

