-- ==== Sys2Proof/Machine/Steps.lean ====
section
/-! DEFINITION. Serving steps: batch slots, submitting and opening a step, its rows, input area,
trees and riders, the commit at its end (chapter 11).  Cutting its units is in Cut.lean. -/

namespace Sys2Proof.Machine

/-! ### Batch slots (R264 to R268) -/

/-- A batch slot of a context; one never used is free with generation 0. -/
def slotOf (m : Mach) (c n : Nat) : BatchSlot := ((ctxOf m c).slots.find? (·.slot == n)).getD { slot := n }

/-- A batch slot changed. -/
def modSlot (c n : Nat) (f : BatchSlot → BatchSlot) (m : Mach) : Mach :=
  let b := f (slotOf m c n)
  modCtx c (fun x => { x with slots := b :: x.slots.filter (·.slot != n) }) m

/-- R264: the generation after `g`. -/
def nextGen (g : Nat) : Nat := if 65535 ≤ g then 1 else g + 1

/-- R266: a slot that SLOT_RELEASE, CANCEL and entries may name. -/
def slotLive (m : Mach) (c n : Nat) : Bool := let b := slotOf m c n; b.allocated && !b.releasing

/-- DETAIL of a slot and its generation. -/
def slotDetail (b : BatchSlot) : Nat := b.slot + 2 ^ 16 * b.gen

/-- R268: a discarded result, noted for the boundary's event and counted. -/
def discard (c slot gen seq w : Nat) (m : Mach) : Mach :=
  let cur := (slotOf m c slot).gen
  m |> modCtx c (fun x => { x with genDropTick := x.genDropTick ++ [(slot, gen, cur, seq, w, cutOff m c seq)]
                                   genDrop := bump 32 1 x.genDrop })
    |> modStp (fun x => { x with genDrop := bump 16 1 x.genDrop })

/-- R265: SLOT_ALLOC. -/
def pktSlotAlloc (h : Hdr) (slot stream : Nat) : Packet :=
  packet { op := 0x31, tenant := true } h
    (fun m =>
      (slot < 4096 || slot == 0xFFFF) && (h.ctx == 0 ||
        (kvOk m h (fun v => stream < v.tb.streams) && liveTable m h.ctx
          && (ctxOf m h.ctx).slots.all (fun b => !((b.allocated || b.releasing) && b.stream == stream))
          && (slot == 0xFFFF || (let b := slotOf m h.ctx slot; !b.allocated && !b.releasing && !b.draining)))))
    (fun _ => kvGuard h fun _ m =>
      let n := if slot = 0xFFFF then
          (List.range 4096).find? fun i => let b := slotOf m h.ctx i; !b.allocated && !b.releasing
        else some slot
      match n with
      | none => reply h .noSpace 0x20 m
      | some n =>
        let m := modSlot h.ctx n (fun b => { b with allocated := true, stream, gen := nextGen b.gen }) m
        reply h .ok (slotDetail (slotOf m h.ctx n)) m)

/-- A pending prefill of a slot discarded (R266, R282). -/
def dropPrefill (c n : Nat) (m : Mach) : Mach :=
  if (ctxOf m c).prefills.any (·.slot == n) then
    m |> modCtx c (fun x => { x with prefills := x.prefills.filter (·.slot != n) })
      |> modStp (fun x => { x with discarded := bump 16 1 x.discarded })
  else m

/-- R266: the generation advances and the drain begins; `release` frees the slot at its end. -/
def startDrain (c n q : Nat) (keep release urgent : Bool) (m : Mach) : Mach :=
  m |> modSlot c n (fun b =>
        { b with gen := nextGen b.gen, draining := true, keep := if b.draining then b.keep && keep else keep
                 releasing := b.releasing || release, drains := b.drains ++ [2 * q + bit urgent] })
    |> dropPrefill c n

/-- R266: SLOT_RELEASE. -/
def pktSlotRelease (h : Hdr) (slot gen : Nat) (keep : Bool) : Packet :=
  packet { op := 0x32, tenant := true } h (fun m => slot < 4096 && (h.ctx == 0 || slotLive m h.ctx slot))
    (fun _ m =>
      if (slotOf m h.ctx slot).gen ≠ gen then reply h .tooLate 0 m
      else startDrain h.ctx slot h.seq keep true false m)

/-- R266: CANCEL, from the urgent ring. -/
def pktCancel (h : Hdr) (slot gen : Nat) (keep : Bool) : Packet :=
  packet { op := 0xC1, urgent := true } h (fun m => slot < 4096 && slotLive m h.ctx slot)
    (fun _ m =>
      if (slotOf m h.ctx slot).gen ≠ gen then finaliseReq h.ctx true h.seq .tooLate 0 m
      else startDrain h.ctx slot h.seq keep false true m)

/-- R266: an unfinalised step holds an entry or a rider for the slot. -/
def slotHeld (m : Mach) (c n : Nat) : Bool :=
  m.stp.steps.any fun s => s.ctx == c && (s.blk.entries.any (·.slot == n) || s.riders.any (·.slot == n))

/-- R266: the drain boundary of a slot. -/
def slotDrain (c n : Nat) (m : Mach) : Mach :=
  let b := slotOf m c n
  if !b.draining || slotHeld m c n then m
  else
    let m := if b.keep then m else truncStream c b.stream 0 m
    let m := modSlot c n (fun b =>
      { b with draining := false, drains := [], keep := false,
               allocated := b.allocated && !b.releasing, releasing := false }) m
    let d := slotDetail (slotOf m c n)
    forEach b.drains (fun q => finaliseReq c (q % 2 == 1) (q / 2) .ok d) m

/-- R283: PREFILL_RATIO. -/
def pktPrefillRatio (h : Hdr) (chunk ratio floor : Nat) (basic : Bool) : Packet :=
  packet { op := 0x33, expert := true, tenant := true } h
    (fun _ => basic || (64 ≤ chunk && chunk ≤ 2048 && chunk % 64 == 0 && ratio ≤ 255 && floor ≤ 16384 && floor % 64 == 0))
    (fun _ m =>
      m |> modCtx h.ctx (fun x =>
            if basic then { x with prefillExpert := false, chunk := 2048, ratio := 0, floor := 0 }
            else { x with prefillExpert := true, chunk, ratio, floor })
        |> reply h .ok 0)

/-! ### Submitting (R269) -/

/-- Table 11.4: a batch entry in range. -/
def entryOk (e : Entry) : Bool :=
  e.slot < 4096 && e.kind ≤ 2 &&
    (if e.kind = 0 then e.nodes == 1 && e.promptLen == 0 && e.dataPtr == 0
     else if e.kind = 1 then 1 ≤ e.nodes && e.nodes ≤ 256 && e.token == 0 && e.promptLen == 0 && e.dataPtr % 8 == 0
     else e.nodes == 0 && e.token == 0 && 1 ≤ e.promptLen && e.promptLen ≤ 2097152 && e.dataPtr % 4 == 0)

/-- R269, Table 11.3: a STEP_SUBMIT in range. -/
def stepOk (b : StepBlk) : Bool :=
  b.riders ≤ 16 && b.entries.length ≤ 126 && 1 ≤ b.phases && b.phases ≤ 4096 && 32 ≤ b.resultBytes
    && b.resultBytes ≤ 2048 && b.resultBytes % 32 == 0 && b.plan % 64 == 0 && b.inSlice % 64 == 0
    && b.outPtr % 32 == 0 && b.args.length ≤ 24 && b.entries.all entryOk && (b.entries.map (·.slot)).Nodup

/-- R269: STEP_SUBMIT. -/
def pktStepSubmit (h : Hdr) (b : StepBlk) : Packet :=
  packet { op := 0x30, tenant := true } h (fun m => stepOk b && (h.ctx == 0 || liveTable m h.ctx))
    (fun _ m =>
      m |> modStp (fun x => { x with steps := x.steps ++ [{ ctx := h.ctx, seq := h.seq, blk := b }] })
        |> modReq h.ctx false h.seq (fun r => { r with st := .waitStep }))

/-! ### Steps in progress -/

/-- A step by its context and sequence number. -/
def findStep (m : Mach) (c q : Nat) : Option Step := m.stp.steps.find? fun s => s.ctx == c && s.seq == q

/-- A step changed. -/
def modStep (c q : Nat) (f : Step → Step) : Mach → Mach :=
  modStp fun x => { x with steps := x.steps.map fun s => if s.ctx == c && s.seq == q then f s else s }

/-- R246: an entry that a step mapped at its cut unmapped, where it still names the slot it was mapped to. -/
def unmapTaken (c : Nat) (w : Written) (m : Mach) : Mach :=
  match (kvView m c).bind (kvEntry · w.ix) with
  | none => m
  | some e => if slotKey e.page e.slot = w.slot then unmapKve c w.ix m else m

/-- R279: the slots that an entry's lanes took for themselves. -/
def laneKeys (e : StepEnt) : List Nat :=
  ((e.lanes.flatMap fun l => l.2.map fun k => slotKey k.2.page k.2.slot).dedup).filter fun k => !e.inPlace.contains k

/-- Slots of a pool each lose one reference. -/
def dropSlots (t p : Nat) (ks : List Nat) (m : Mach) : Mach :=
  forEach ks (fun k => modPool t p (dropRef m.tick.count k)) m

/-- R286: what a step took and does not keep: the slots mapped at its cuts, and its lanes' slots, in the pool it opened
with. -/
def releaseStep (s : Step) (m : Mach) : Mach :=
  let m := forEach s.mapped (unmapTaken s.ctx) m
  match s.pool with
  | none => m
  | some x => dropSlots x.1 x.2 (s.ents.flatMap laneKeys) m

/-- R286, R501: a step finalised with a code that commits nothing. -/
def failStep (s : Step) (st : Status) (d : Nat) (m : Mach) : Mach :=
  m |> modStp (fun x => { x with steps := x.steps.filter fun t => !(t.ctx == s.ctx && t.seq == s.seq)
                                 aborted := if st == .cancelled then bump 16 1 x.aborted else x.aborted })
    |> withdrawUnits (fun _ u => u.ctx == s.ctx && u.seq == s.seq)
    |> releaseStep s
    |> finalise s.ctx s.seq st d

/-! ### Phase records (Table 11.6) -/

/-- A phase record. -/
structure Phase where
  layer : Nat
  peas : Nat
  read : Bool
  write : Bool
  join : Bool
  stage : Nat
  stride : Nat
  src : Nat
  prog : Nat
  entry : Nat
  args : List Nat
  bad : Bool
deriving DecidableEq, Repr

/-- Table 11.6: a record's bytes. -/
def parsePhase (bs : List Byte) : Phase :=
  let fl := field bs 3 1
  let layer := field bs 0 2
  let args := (List.range 10).map fun i => field bs (24 + 4 * i) 4
  { layer, peas := field bs 2 1, read := fl.testBit 0, write := fl.testBit 1, join := fl.testBit 2
    stage := field bs 4 4, stride := field bs 8 4, src := field bs 12 4, prog := field bs 16 4, entry := field bs 20 4
    args := args.take 7
    bad := 8 ≤ fl || field bs 2 1 = 0 || 192 < field bs 2 1 || (1023 < layer && layer != 0xFFFF)
      || (args.drop 7).any (· != 0) || (fl % 4 != 0 && layer == 0xFFFF) }

/-- R270, R273: a phase record of a step's plan, read as its phase is cut. -/
def planPhase (m : Mach) (s : Step) (p : Nat) : Except (Status × Nat) Phase :=
  match devRead m (ctxOf m s.ctx).ten (s.blk.plan + 64 * p) 64 with
  | .ok bs => .ok (parsePhase bs)
  | .denied d => .error (.denied, d)
  | .poison n => .error (.poisoned, n)

/-- R292: the layout of an expert phase. -/
def expertOf (m : Mach) (c : Nat) (ph : Phase) : Option Layout :=
  if ph.read || ph.write then none else (ctxOf m c).layouts.find? (·.blk.layer == ph.layer)

/-- R292: the layers whose layouts a step's plan names in expert phases. -/
def expertLayers (m : Mach) (s : Step) : List Nat :=
  (List.range s.blk.phases).filterMap fun p =>
    match planPhase m s p with
    | .ok ph => (expertOf m s.ctx ph).map (·.blk.layer)
    | .error _ => none

/-! ### Opening (R270, R282, R283) -/

/-- R270, R292: an earlier unfinalised step of the context holds a stream or a layout of this one. -/
def blocked (m : Mach) (s : Step) : Bool :=
  let earlier := (m.stp.steps.filter (·.ctx == s.ctx)).takeWhile (·.seq != s.seq)
  let named (es : List Entry) : List Nat := (es.filter fun e => slotLive m s.ctx e.slot).map fun e => (slotOf m s.ctx e.slot).stream
  let streams := named (s.blk.entries.filter (·.kind != 2))
  let held := earlier.flatMap fun t =>
    if t.opened.isSome then (t.ents.filter fun e => e.bound && e.status != .ignoredGen).map (·.stream) else named t.blk.entries
  let ls := expertLayers m s
  streams.any held.contains || earlier.any fun t => (expertLayers m t).any ls.contains

/-- R270: one entry checked at S. -/
def openEntry (s : Step) (e : Entry) (m : Mach) : StepEnt × Mach :=
  let c := s.ctx
  let b := slotOf m c e.slot
  let len := if b.allocated then streamLen m c b.stream else 0
  let ent : StepEnt := { e, stream := b.stream, len, bound := b.allocated }
  if !slotLive m c e.slot || b.gen ≠ e.gen then
    ({ ent with status := .ignoredGen }, discard c e.slot e.gen s.seq 0 m)
  else if (ctxOf m c).prefills.any (·.slot == e.slot) then ({ ent with status := .notReady }, m)
  else
    let cap := 64 * ((kvView m c).map (·.tb.maxBlocks)).getD 0
    if cap < len + (if e.kind = 2 then e.promptLen else 1) then ({ ent with status := .invalid }, m)
    else if e.kind = 2 then
      (ent, modCtx c (fun x =>
        { x with prefills := x.prefills ++ [{ slot := e.slot, gen := e.gen, dataPtr := e.dataPtr, promptLen := e.promptLen }] }) m)
    else if e.kind = 1 then
      ({ ent with rows := e.nodes, wait := true }, m)
    else ({ ent with rows := 1 }, m)

/-- R270: the entries checked in index order. -/
def openEntries (s : Step) : List Entry → Mach → List StepEnt × Mach
  | [], m => ([], m)
  | e :: es, m =>
    let r := openEntry s e m
    let t := openEntries s es r.2
    (r.1 :: t.1, t.2)

/-- R275: the READ MOVEs that a unit can take. -/
def readCap (g : KvAttach) (ph : Phase) : Nat := min 31 ((ph.stride - 512) / (64 * tokenRec g))

/-- A quotient rounded up. -/
def ceilDiv (a b : Nat) : Nat := (a + b - 1) / b

/-- R275: the passes of a phase with `n` KV MOVEs, `k` of them READs. -/
def passesFor (g : KvAttach) (ph : Phase) (n k : Nat) : Nat :=
  max 1 (max (ceilDiv n (31 * ph.peas)) (if k = 0 then 1 else ceilDiv k (max 1 (readCap g ph) * ph.peas)))

/-- R283: the passes of a phase for rows of given lengths and counts, beside `tree` writes of trees in each group and the
READs of trees of given lengths. -/
def phasePasses (g : KvAttach) (ph : Phase) (rows : List (Nat × Nat)) (trees : List Nat) (tree : Nat) : Nat :=
  let w := if ph.write then ((rows.map fun r => ceilDiv (r.1 % 64 + r.2) 64).sum + tree) * g.groups else 0
  let k := if ph.read then ((rows.map fun r => ceilDiv r.1 64).sum + (trees.map fun l => ceilDiv l 64).sum) * g.groups else 0
  passesFor g ph (w + k) k

/-- R279, R283: the most writes that a tree of `n` nodes makes in one layer and group, whatever its shape: one or two for each
of its lanes. -/
def treeWrites (e : StepEnt) : Nat := min 32 e.rows * (if 64 < e.len % 64 + min 16 e.rows then 2 else 1)

/-- R282: riders taken from pending prefills within a budget. -/
def pickRiders (m : Mach) (c chunk : Nat) : Nat → Nat → List Prefill → List Rider
  | 0, _, _ => []
  | _, _, [] => []
  | n + 1, budget, p :: ps =>
    let left := p.promptLen - p.done
    let k := min chunk (min left budget)
    let k := if k < left then k / 64 * 64 else k
    if k = 0 then []
    else
      let b := slotOf m c p.slot
      { slot := p.slot, gen := p.gen, stream := b.stream, len := streamLen m c b.stream, chunk := k, wait := true }
        :: pickRiders m c chunk n (budget - k) ps

/-- R282: the pending prefills whose slots no unfinalised step holds. -/
def freePrefills (m : Mach) (s : Step) : List Prefill := (ctxOf m s.ctx).prefills.filter fun p => !slotHeld m s.ctx p.slot

/-- R283: the budget at the basic level: firmware's choice, lowered until the chunks add no pass.  DEDUCED: trees are not yet
fetched at S, so it adds none for any shape that they can turn out to have. -/
def basicBudget (m : Mach) (s : Step) (ents : List StepEnt) (n : Nat) : Nat :=
  match kvView m s.ctx with
  | none => 0
  | some v =>
    let rows := ents.filter fun e => e.rows != 0 && e.e.kind != 1
    let trees := ents.filter fun e => e.rows != 0 && e.e.kind == 1
    let own := rows.map fun e => (e.len, e.rows)
    let tl := trees.map (·.len)
    let phs := (List.range s.blk.phases).filterMap fun p => (planPhase m s p).toOption
    let fits := fun (b : Nat) =>
      let rs := (pickRiders m s.ctx 2048 s.blk.riders b (freePrefills m s)).map fun r => (r.len, r.chunk)
      phs.all fun ph => (List.range ((trees.map treeWrites).sum + 1)).all fun w =>
        phasePasses v.p.geo ph (own ++ rs) tl w == phasePasses v.p.geo ph own tl w
    let want := Config.prefillBudget n % 257
    let p := (((List.range (want + 1)).reverse.map (64 * ·)).find? fits).getD 0
    if own.isEmpty && trees.isEmpty then max 64 p else p

/-- R282: the riders of a step. -/
def chooseRiders (m : Mach) (s : Step) (ents : List StepEnt) : List Rider :=
  if !s.blk.ride then []
  else
    let x := ctxOf m s.ctx
    let d := (ents.map (·.rows)).sum
    let budget := if x.prefillExpert then max x.floor (x.ratio * d) else basicBudget m s ents m.stp.choices
    pickRiders m s.ctx (if x.prefillExpert then x.chunk else 2048) s.blk.riders budget (freePrefills m s)

/-! ### Trees (R277, R278) -/

/-- R277: the nodes of a tree record: token and parent, or none where it is malformed. -/
def treeNodes (n : Nat) (bs : List Byte) : Option (List (Nat × Nat)) :=
  let rs := (chunksOf 8 n bs).map fun r => (field r 0 4, field r 4 1, field r 5 3)
  let ok := rs.length == n && rs.zipIdx.all fun x =>
    x.1.2.2 == 0 && (if x.2 = 0 then x.1.2.1 == 0xFF else x.1.2.1 < x.2)
  if ok then some (rs.map fun r => (r.1, r.2.1)) else none

/-- The path from the root to a node. -/
def pathTo (t : List (Nat × Nat)) : Nat → Nat → List Nat
  | 0, _ => []
  | fuel + 1, i =>
    if i = 0 then [0] else pathTo t fuel (((t[i]?).map (·.2)).getD 0) ++ [i]

/-- The path of a node of a tree. -/
def nodePath (t : List (Nat × Nat)) (i : Nat) : List Nat := pathTo t (t.length + 1) i

/-- R278: the leaves of a tree, ascending. -/
def leaves (t : List (Nat × Nat)) : List Nat :=
  (List.range t.length).filter fun i => t.zipIdx.all fun x => x.2 == 0 || x.1.2 != i

/-- R277: a tree no deeper than 16 with at most 32 leaves. -/
def treeOk (t : List (Nat × Nat)) : Bool :=
  (List.range t.length).all (fun i => (nodePath t i).length ≤ 16) && (leaves t).length ≤ 32

/-- The token records of a lane's image (R278). -/
def imageLen (e : StepEnt) (leaf : Nat) : Nat := e.len % 64 + (nodePath e.tree leaf).length

/-- The lanes of an entry: none for one without a valid tree. -/
def entLanes (e : StepEnt) : List Nat := if e.tree.isEmpty then [] else leaves e.tree

/-- The records of an entry's lane images. -/
def entImages (e : StepEnt) : Nat := ((entLanes e).map (imageLen e)).sum

/-! ### The input area (R271, R272) -/

/-- Rows of an entry or rider as a step's parts see them: index, slot, first row, rows, stream length. -/
structure RowSet where
  ix : Nat
  slot : Nat
  stream : Nat
  first : Nat
  rows : Nat
  len : Nat
  ent : Option StepEnt
  rider : Option Rider
deriving DecidableEq, Repr

/-- R271: the rows of a step in order: entries of each kind, then riders. -/
def rowSets (s : Step) : List RowSet :=
  let es := s.ents.zipIdx
  let kind := fun (k : Nat) => (es.filter fun x => x.1.e.kind == k).map fun x =>
    (x.2, x.1.e.slot, x.1.stream, x.1.rows, x.1.len, some x.1, (none : Option Rider))
  let rs := s.riders.zipIdx.map fun x =>
    (s.ents.length + x.2, x.1.slot, x.1.stream, if x.1.failed then 0 else x.1.chunk, x.1.len, (none : Option StepEnt), some x.1)
  let all := kind 0 ++ kind 1 ++ kind 2 ++ rs
  (all.foldl (fun (acc : Nat × List RowSet) x =>
    (acc.1 + x.2.2.2.1,
     acc.2 ++ [{ ix := x.1, slot := x.2.1, stream := x.2.2.1, first := acc.1, rows := x.2.2.2.1, len := x.2.2.2.2.1,
                 ent := x.2.2.2.2.2.1, rider := x.2.2.2.2.2.2 }])) (0, [])).2

/-- The rows of a step. -/
def rowCount (s : Step) : Nat := ((rowSets s).map (·.rows)).sum

/-- The rows of an entry or rider, by its index. -/
def rowsOf (s : Step) (i : Nat) : Option RowSet := (rowSets s).find? (·.ix == i)

/-- The lane image records of the entries before one. -/
def imageBase (s : Step) (i : Nat) : Nat := ((s.ents.take i).map entImages).sum

/-- The nodes of the trees of the entries before one that have masks. -/
def maskBase (s : Step) (i : Nat) : Nat :=
  ((s.ents.take i).map fun e => if e.e.kind = 1 then e.rows else 0).sum

/-- The lanes of the entries before one. -/
def laneBase (s : Step) (i : Nat) : Nat := ((s.ents.take i).map fun e => (entLanes e).length).sum

/-- The offsets of the parts of Table 11.5: rows, masks, lanes, barriers, end. -/
def areaOffs (s : Step) : Nat × Nat × Nat × Nat × Nat :=
  let rows := 64 + 64 * (s.ents.length + s.riders.length)
  let masks := rows + 16 * rowCount s
  let lanes := masks + 32 * maskBase s s.ents.length
  let bars := lanes + 8 * laneBase s s.ents.length
  (rows, masks, lanes, bars, bars + 4 * s.blk.phases)

/-- An entry record of the input area. -/
def entryRec (s : Step) (x : RowSet) : List Byte :=
  let o := areaOffs s
  let kind := (x.ent.map (·.e.kind)).getD 3
  let gen := ((x.ent.map (·.e.gen)).or (x.rider.map (·.gen))).getD 0
  let st := (x.ent.map (·.status)).getD (if x.rows = 0 then .poisoned else .ok)
  let tree := kind == 1 && x.rows != 0
  padTo 64 (le 1 kind ++ le 1 (statusCode st) ++ le 2 x.slot ++ le 2 gen ++ le 4 x.first ++ le 2 x.rows ++
    le 4 x.len ++ le 2 ((x.ent.map fun e => (entLanes e).length).getD 0) ++
    le 4 (if tree then o.2.1 + 32 * maskBase s x.ix else 0) ++ le 4 (if tree then o.2.2.1 + 8 * laneBase s x.ix else 0) ++
    le 4 (if tree then imageBase s x.ix else 0))

/-- The row records of an entry or rider. -/
def rowRecs (x : RowSet) : List Byte :=
  (List.range x.rows).flatMap fun i =>
    let tok := match x.ent, x.rider with
      | some e, _ => if e.e.kind = 1 then ((e.tree[i]?).map (·.1)).getD 0 else e.e.token
      | none, some r => field r.tokens (4 * i) 4
      | none, none => 0
    let pos := match x.ent with
      | some e => if e.e.kind = 1 && !e.tree.isEmpty then x.len + (nodePath e.tree i).length - 1 else x.len
      | none => x.len + i
    le 4 tok ++ le 4 pos ++ le 2 x.ix ++ le 2 i ++ le 2 x.stream ++ zeros 2

/-- R272: the mask rows of a tree entry. -/
def maskRows (e : StepEnt) : List Byte :=
  if e.e.kind ≠ 1 then []
  else (List.range e.rows).flatMap fun i =>
    le 32 ((if e.tree.isEmpty then [i] else nodePath e.tree i).foldl (fun n j => n ||| 2 ^ j) 0)

/-- R272: the lane records of an entry whose images begin at `base`. -/
def laneRecs (e : StepEnt) : List Nat → Nat → List Byte
  | [], _ => []
  | l :: ls, base =>
    le 2 l ++ le 1 (nodePath e.tree l).length ++ le 1 0 ++ le 4 base ++ laneRecs e ls (base + imageLen e l)

/-- Table 11.5: the input area. -/
def areaBytes (s : Step) (opened : Nat) : List Byte :=
  let rs := rowSets s
  let byIx := (List.range (s.ents.length + s.riders.length)).filterMap fun i => rs.find? (·.ix == i)
  padTo 64 (le 4 (rowCount s) ++ le 2 s.ents.length ++ le 1 s.riders.length ++ le 1 0 ++ le 8 opened ++ padTo 24 s.blk.args) ++
    byIx.flatMap (entryRec s) ++ rs.flatMap rowRecs ++ s.ents.flatMap maskRows ++
    (s.ents.zipIdx.flatMap fun x => laneRecs x.1 (entLanes x.1) (imageBase s x.2)) ++ zeros (4 * s.blk.phases)

/-- R272: the input area written once every record and prompt of the step has been fetched. -/
def writeArea (c q : Nat) (m : Mach) : Mach :=
  match findStep m c q with
  | none => m
  | some s =>
    if s.areaDone || s.opened.isNone || s.ents.any (·.wait) || s.riders.any (·.wait) then m
    else
      let o := areaOffs s
      if s.blk.inBytes < o.2.2.2.2 then failStep s .noSpace 0x21 m
      else
        match slWrite (ctxOf m c).ten s.blk.inSlice (areaBytes s (s.opened.getD 0)) m with
        | .error x => failStep s .denied x m
        | .ok m => modStep c q (fun s => { s with areaDone := true, bars := s.blk.inSlice + o.2.2.2.1 }) m

/-- R277: a tree record arrives, or its fetch fails. -/
def treeArrives (c q i : Nat) (data : Option (List Byte)) (m : Mach) : Mach :=
  let cap := 64 * ((kvView m c).map (·.tb.maxBlocks)).getD 0
  let f := fun (e : StepEnt) =>
    let e := { e with wait := false }
    match data with
    | none => { e with status := .poisoned }
    | some bs =>
      match treeNodes e.e.nodes bs with
      | none => { e with status := .invalid }
      | some t =>
        if !treeOk t then { e with status := .invalid }
        else if (List.range t.length).any fun k => cap < e.len + (nodePath t k).length then
          { e with status := .invalid, rows := 0 }
        else { e with tree := t }
  m |> modStep c q (fun s => { s with ents := modAt i f s.ents }) |> writeArea c q

/-- R282: a rider's tokens arrive, or their fetch fails. -/
def promptArrives (c q i : Nat) (data : Option (List Byte)) (m : Mach) : Mach :=
  let slot := ((findStep m c q).bind fun s => (s.riders[i]?).map (·.slot)).getD 4096
  let m := if data.isNone then dropPrefill c slot m else m
  m |> modStep c q (fun s => { s with riders := modAt i (fun r =>
        { r with wait := false, failed := data.isNone, tokens := data.getD [] }) s.riders })
    |> writeArea c q

/-- R270, R277, R282: the fetches of an opened step. -/
def askParts (s : Step) (m : Mach) : Mach :=
  let m := forEach s.ents.zipIdx (fun x m =>
    if x.1.wait then askHost (.tree s.ctx s.seq x.2) x.1.e.dataPtr (8 * x.1.e.nodes) m else m) m
  forEach s.riders.zipIdx (fun x m =>
    match (ctxOf m s.ctx).prefills.find? (·.slot == x.1.slot) with
    | none => m
    | some p => askHost (.prompt s.ctx s.seq x.2) (p.dataPtr + 4 * p.done) (4 * x.1.chunk) m) m

/-- R270: a step opens at the boundary last fired. -/
def openStep (c q : Nat) (m : Mach) : Mach :=
  match findStep m c q with
  | none => m
  | some s =>
    if s.opened.isSome || blocked m s || s.cutDone then m
    else
      let t := (ctxOf m c).ten
      if (kvView m c).isNone || !(pagesOf s.blk.plan (64 * s.blk.phases)).all (pageUsable m t) then
        failStep s .denied (node16 m) m
      else
        let r := openEntries s s.blk.entries m
        let m := modStp (fun x => { x with choices := x.choices + 1 }) r.2
        let s := { s with opened := some m.tick.count, ents := r.1, riders := chooseRiders m s r.1
                          pool := (kvView m c).map fun v => (v.t, v.tb.pool) }
        m |> modStep c q (fun _ => s) |> askParts s |> writeArea c q

/-- R270: the steps that can open at the boundary open, those of one context in order. -/
def openSteps (m : Mach) : Mach :=
  forEach (sortBy (fun a b => a.ctx ≤ b.ctx) m.stp.steps) (fun s => openStep s.ctx s.seq) m

/-- R266: the slots whose drain boundary has come drain, those of one context by the first command that waits. -/
def drainSlots (m : Mach) : Mach :=
  forEach (List.range 256) (fun c m =>
    forEach (sortBy (fun a b => a.drains.headD 0 / 2 ≤ b.drains.headD 0 / 2) ((ctxOf m c).slots.filter (·.draining)))
      (fun b => slotDrain c b.slot) m) m

/-! ### The end of a step (R246, R276, R280, R281, R284, R285) -/

/-- R280: an accept record: the nodes accepted, or none where it is invalid. -/
def acceptRec (e : StepEnt) (bs : List Byte) : Option (List Nat) :=
  let a := field bs 0 1
  let p := (List.range a).map fun i => field bs (16 + i) 1
  let ok := 1 ≤ a && a ≤ 16 && allZero ((bs.drop 1).take 15) && p.head? == some 0
    && (p.zip p.tail).all fun x => x.2 != 0 && ((e.tree[x.2]?).map (·.2)) == some x.1
  if ok then some p else none

/-- R281: the lane through which a path commits. -/
def laneFor (e : StepEnt) (path : List Nat) : Option Nat :=
  (entLanes e).findIdx? fun l => path.isPrefixOf (nodePath e.tree l)

/-- The key of a lane's slot: layer, group, and block b or b+1. -/
def laneKey (g : KvAttach) (l gr k : Nat) : Nat := (l * g.groups + gr) * 2 + k

/-- R250: the pin mark of an entry that comes to name another slot goes with it (log 133). -/
def movePinSlot (key slot : Nat) (p : Pool) : Pool :=
  { p with pinned := p.pinned.map fun x => if x.1 = key then (key, slot) else x }

/-- R281: one layer and group of a committed lane; `keys` are the slots it came to. -/
def commitColumn (c : Nat) (e : StepEnt) (lane : List (Nat × Kve)) (a l gr : Nat) (m : Mach) : Mach :=
  match kvView m c with
  | none => m
  | some v =>
    let b := e.len / 64
    let f := e.len % 64
    let ix := kvIx v.p.geo v.tb e.stream l gr b
    let now := m.tick.count
    let m := match alGet (laneKey v.p.geo l gr 0) lane with
      | none => m
      | some k =>
        let old := (kvEntry v ix).map fun o => slotKey o.page o.slot
        let own := slotKey k.page k.slot
        if e.inPlace.contains own then (if old == some own then putKve c ix { k with fill := min 64 (f + a) } m else m)
        else
          let m := m |> putKve c ix { k with fill := min 64 (f + a) } |> modPool v.t v.tb.pool (movePinSlot (kvKey c ix) own)
          match old with
          | some o => modPool v.t v.tb.pool (dropRef now o) m
          | none => m
    match alGet (laneKey v.p.geo l gr 1) lane with
    | none => m
    | some k => if 64 < f + a then putKve c (kvIx v.p.geo v.tb e.stream l gr (b + 1)) { k with fill := f + a - 64 } m else m

/-- What an entry or rider comes to: its status, nodes accepted, lane, path, payload, and what a read of its result area that
failed brings the step. -/
structure EntEnd where
  status : Status
  accept : Nat := 0
  lane : Nat := 0
  path : List Nat := []
  pay : List Byte := []
  bad : Option (Status × Nat) := none
deriving DecidableEq, Repr

/-- R202, R285: what a read of a result area that fails brings the step. -/
def readBad : Rd → Option (Status × Nat)
  | .poison n => some (.poisoned, n)
  | .denied n => some (.denied, n)
  | .ok _ => none

/-- R285: `n` bytes of the result area of an entry or rider, from byte `o` on. -/
def takeResult (s : Step) (i o n : Nat) (m : Mach) : Rd × Mach :=
  if n = 0 then (.ok [], m) else slTake (ctxOf m s.ctx).ten (s.blk.resSlice + i * s.blk.resultBytes + o) n m

/-- R285: the payload that goes with an OK. -/
def withPay (s : Step) (i : Nat) (x : EntEnd) (m : Mach) : EntEnd × Mach :=
  if x.status != .ok || x.bad.isSome then (x, m)
  else
    let rd := takeResult s i 32 (s.blk.resultBytes - 32) m
    match rd.1 with
    | .ok bs => ({ x with pay := bs }, rd.2)
    | r => ({ x with bad := readBad r }, rd.2)

/-- R267, R285: what becomes of an entry when its step is finalised OK; a generation that has passed comes first. -/
def entEnd (s : Step) (e : StepEnt) (i : Nat) (m : Mach) : EntEnd × Mach :=
  if (slotOf m s.ctx e.e.slot).gen ≠ e.e.gen then ({ status := .ignoredGen }, m)
  else if e.status ≠ .ok then ({ status := e.status }, m)
  else if e.e.kind = 0 then withPay s i { status := .ok, accept := 1, path := [0] } m
  else if e.e.kind = 2 then withPay s i { status := .ok } m
  else
    let rd := takeResult s i 0 32 m
    match rd.1 with
    | .ok bs =>
      match acceptRec e bs with
      | none => ({ status := .invalid }, rd.2)
      | some p =>
        match laneFor e p with
        | none => ({ status := .invalid }, rd.2)
        | some k => withPay s i { status := .ok, accept := p.length, lane := k, path := p } rd.2
    | r => ({ status := .ok, bad := readBad r }, rd.2)

/-- The appends of a stream commit: every block the step wrote (R246, R276). -/
def commitStream (c : Nat) (s : Step) (stream : Nat) : Mach → Mach :=
  forEach (s.appended.filter (·.stream == stream)) (commitAppend c)

/-- The appends of a stream that do not commit: their mapped slots are released (R246). -/
def dropStream (c : Nat) (s : Step) (stream : Nat) (m : Mach) : Mach :=
  match kvView m c with
  | none => m
  | some v =>
    let lo := kvIx v.p.geo v.tb stream 0 0 0
    let hi := kvIx v.p.geo v.tb (stream + 1) 0 0 0
    forEach (s.mapped.filter fun w => lo ≤ w.ix && w.ix < hi) (unmapTaken c) m

/-- R281: the lanes of an entry settled: one commits, if any, and every other slot is released. -/
def settleLanes (c : Nat) (e : StepEnt) (x : EntEnd) (m : Mach) : Mach :=
  match kvView m c with
  | none => m
  | some v =>
    let own := ((e.lanes.find? fun l => some l.1 == (entLanes e)[x.lane]?).map (·.2)).getD []
    let m := if x.status == .ok then forEach (lgs v.p.geo) (fun lg => commitColumn c e own x.accept lg.1 lg.2) m else m
    match kvView m c with
    | none => m
    | some v' =>
      let mapped := (lgs v'.p.geo).flatMap fun lg => [0, 1].filterMap fun k =>
        (kvEntry v' (kvIx v'.p.geo v'.tb e.stream lg.1 lg.2 (e.len / 64 + k))).map fun n => slotKey n.page n.slot
      dropSlots v'.t v'.tb.pool ((laneKeys e).filter fun k => !mapped.contains k) m

/-- R284, R285: one entry committed or dropped. -/
def finishEntry (s : Step) (x : StepEnt × EntEnd) (m : Mach) : Mach :=
  let c := s.ctx
  let e := x.1
  let m := if x.2.status == .ignoredGen && e.status != .ignoredGen then discard c e.e.slot e.e.gen s.seq 1 m else m
  if e.e.kind = 0 then (if x.2.status == .ok then commitStream c s e.stream m else dropStream c s e.stream m)
  else if e.e.kind = 1 then
    let m := settleLanes c e x.2 m
    if x.2.status == .ok then
      modStp (fun p => { p with treeNodes := bump 32 e.e.nodes p.treeNodes, accepted := bump 32 x.2.accept p.accepted }) m
    else m
  else m

/-- R267, R284: what a rider comes to, at its place `i` among the result areas; a generation that has passed comes first. -/
def riderEnd (s : Step) (r : Rider) (i : Nat) (m : Mach) : EntEnd × Mach :=
  if (slotOf m s.ctx r.slot).gen ≠ r.gen then ({ status := .ignoredGen }, m)
  else if r.failed then ({ status := .poisoned }, m)
  else withPay s i { status := .ok } m

/-- The ends of the members of a list at the places from one on, each found in the state that the one before it left. -/
def endsOf {α : Type} (f : α → Nat → Mach → EntEnd × Mach) : List α → Nat → Mach → List (α × EntEnd) × Mach
  | [], _, m => ([], m)
  | a :: r, i, m =>
    let x := f a i m
    let y := endsOf f r (i + 1) x.2
    ((a, x.1) :: y.1, y.2)

/-- R284: a rider's chunk committed. -/
def finishRider (s : Step) (x : Rider × EntEnd) (m : Mach) : Mach :=
  let c := s.ctx
  let r := x.1
  match x.2.status with
  | .ok =>
    let left := (((ctxOf m c).prefills.find? (·.slot == r.slot)).map fun p => p.promptLen - p.done).getD 0
    m |> commitStream c s r.stream
      |> modCtx c (fun y => { y with prefills := (y.prefills.map fun p =>
            if p.slot == r.slot then { p with done := p.done + r.chunk } else p).filter fun p => p.done < p.promptLen })
      |> modStp (fun p => { p with tokens := bump 32 r.chunk p.tokens
                                   prefillDone := if left ≤ r.chunk then bump 16 1 p.prefillDone else p.prefillDone })
  | .ignoredGen => m |> discard c r.slot r.gen s.seq 1 |> dropStream c s r.stream
  | _ => dropStream c s r.stream m

/-- Table 11.7: a result record. -/
def resultRec (s : Step) (kind slot gen len left : Nat) (x : EntEnd) : List Byte :=
  padTo s.blk.resultBytes (le 1 (statusCode x.status) ++ le 1 kind ++ le 2 slot ++ le 2 gen ++ le 1 x.accept ++ le 1 x.lane ++
    le 4 len ++ le 4 left ++ padTo 16 (x.path.flatMap (le 1)) ++ x.pay)

/-- R284, R285: the result records of a step, in order. -/
def resultRecs (s : Step) (es : List (StepEnt × EntEnd)) (rs : List (Rider × EntEnd)) (m : Mach) : List Byte :=
  let left := fun (n : Nat) => (((ctxOf m s.ctx).prefills.find? (·.slot == n)).map fun p => p.promptLen - p.done).getD 0
  (es.flatMap fun x => resultRec s x.1.e.kind x.1.e.slot x.1.e.gen (if x.1.bound then streamLen m s.ctx x.1.stream else 0)
      (if x.1.e.kind = 2 then left x.1.e.slot else 0) x.2) ++
    (rs.flatMap fun x => resultRec s 3 x.1.slot x.1.gen (streamLen m s.ctx x.1.stream) (left x.1.slot) x.2) ++
    (List.replicate (s.blk.riders - rs.length) (padTo s.blk.resultBytes (le 1 0 ++ le 1 0xFF))).flatten

/-- R202, R285: a step whose work is done: finalised OK, or with what a read of its results came to. -/
def finishStep (s : Step) (m : Mach) : Mach :=
  let c := s.ctx
  let es := endsOf (entEnd s) s.ents 0 m
  let rs := endsOf (riderEnd s) s.riders s.ents.length es.2
  match (es.1.map (·.2) ++ rs.1.map (·.2)).filterMap (·.bad) with
  | x :: r => let y := r.foldl worse x; failStep s y.1 y.2 rs.2
  | [] =>
    let m := rs.2 |> forEach es.1 (finishEntry s) |> forEach rs.1 (finishRider s)
    let recs := resultRecs s es.1 rs.1 m
    let ok := es.1.countP fun x => x.2.status == .ok
    let d := ok + 2 ^ 8 * rs.1.length + 2 ^ 16 * sat 16 (m.tick.count - s.opened.getD 0)
    let m := if recs.isEmpty then m else putHost s.blk.outPtr recs m
    m |> modStp (fun x => { x with steps := x.steps.filter fun t => !(t.ctx == c && t.seq == s.seq)
                                   nSteps := bump 32 1 x.nSteps })
      |> finalise c s.seq .ok d

/-- R269: STEP_SUBMIT. -/
def execStepSubmit (h : Hdr) (b : StepBlk) (s : State) : Host.Outcome State Fault Refusal := runPacket (pktStepSubmit h b) s
/-- R270: a step opens. -/
def execStepOpen (ctx seq : Nat) (s : State) : Host.Outcome State Fault Refusal :=
  atBoundary (fun _ => openStep ctx seq) s
/-- R266: a slot's drain boundary. -/
def execSlotDrain (ctx slot : Nat) (s : State) : Host.Outcome State Fault Refusal :=
  atBoundary (fun _ => slotDrain ctx slot) s
/-- R265: SLOT_ALLOC. -/
def execSlotAlloc (h : Hdr) (slot stream : Nat) (s : State) : Host.Outcome State Fault Refusal :=
  runPacket (pktSlotAlloc h slot stream) s
/-- R266: SLOT_RELEASE. -/
def execSlotRelease (h : Hdr) (slot gen : Nat) (keep : Bool) (s : State) : Host.Outcome State Fault Refusal :=
  runPacket (pktSlotRelease h slot gen keep) s
/-- R266: CANCEL. -/
def execCancel (h : Hdr) (slot gen : Nat) (keep : Bool) (s : State) : Host.Outcome State Fault Refusal :=
  runPacket (pktCancel h slot gen keep) s
/-- R283: PREFILL_RATIO. -/
def execPrefillRatio (h : Hdr) (chunk ratio floor : Nat) (basic : Bool) (s : State) : Host.Outcome State Fault Refusal :=
  runPacket (pktPrefillRatio h chunk ratio floor basic) s

end Sys2Proof.Machine
end

