-- ==== Sys2Proof/Machine/Experts.lean ====
section
/-! DEFINITION. Expert layouts and queues, the exchange, returns and gathers, and faulted rounds
(chapter 12). -/

namespace Sys2Proof.Machine

/-! ### Layouts (R289 to R291) -/

/-- A layer's layout. -/
def findLayout (m : Mach) (c layer : Nat) : Option Layout := (ctxOf m c).layouts.find? (·.blk.layer == layer)

/-- A layout changed. -/
def modLayout (c layer : Nat) (f : Layout → Layout) : Mach → Mach :=
  modCtx c fun x => { x with layouts := x.layouts.map fun l => if l.blk.layer == layer then f l else l }

/-- Bytes of an activation row (Table 12.1). -/
def rowBytes (b : LayoutBlk) : Nat := 64 * b.rowUnits
/-- Bytes of an answer row. -/
def ansBytes (b : LayoutBlk) : Nat := 64 * b.ansUnits

/-- Table 12.1: the fields of an INSTALL lie in their ranges. -/
def layoutFields (b : LayoutBlk) : Bool :=
  1 ≤ b.topk && b.topk ≤ 16 && b.topk ≤ b.experts.length && b.layer ≤ 1023 && 1 ≤ b.experts.length
    && b.experts.length ≤ 1024 && 1 ≤ b.sources.length && b.sources.length ≤ 128
    && (b.self == 0xFF || b.self < b.sources.length) && 1 ≤ b.layoutId && b.layoutId < 2 ^ 32
    && 4 ≤ b.srcCap && b.srcCap ≤ 4096 && b.srcCap % 4 == 0 && 1 ≤ b.rowUnits && b.rowUnits ≤ 1024
    && 1 ≤ b.ansUnits && b.ansUnits ≤ 1024 && b.order ≤ 7 && b.hdrWait ≤ 255 && b.sharedPhases ≤ 4
    && b.xrec % 64 == 0 && b.sources.all (· ≤ 0xFFF) && b.experts.all fun e => e.1 ≤ 0xFFF && e.2 ≤ 1023

/-- R289, R290: EXP_LAYOUT INSTALL. -/
def pktExpLayoutInstall (h : Hdr) (b : LayoutBlk) : Packet :=
  packet { op := 0x40, tenant := true } h
    (fun m => layoutFields b && (h.ctx == 0 ||
      ((findLayout m h.ctx b.layer).isNone && b.sources.Nodup
        && (b.self == 0xFF || b.sources[b.self]? == some (selfNode m)))))
    (fun _ m =>
      let n := (ctxOf m h.ctx).layouts.length
      if 128 ≤ n then reply h .noSpace 0x30 m
      else m |> modCtx h.ctx (fun x => { x with layouts := x.layouts ++ [{ blk := b }] }) |> reply h .ok (n + 1))

/-- R290: EXP_LAYOUT REMOVE. -/
def pktExpLayoutRemove (h : Hdr) (layer : Nat) : Packet :=
  packet { op := 0x40, tenant := true } h
    (fun m => layer ≤ 1023 && (h.ctx == 0 ||
      ((findLayout m h.ctx layer).isSome
        && m.stp.steps.all fun s => !(s.ctx == h.ctx && (expertLayers m s).contains layer))))
    (fun _ m =>
      m |> modCtx h.ctx (fun x => { x with layouts := x.layouts.filter (·.blk.layer != layer) })
        |> reply h .ok ((ctxOf m h.ctx).layouts.length - 1))

/-! ### Queues (R298, Table 12.6) -/

/-- A queue of a tenancy. -/
def findQueue (m : Mach) (t q : Nat) : Option Queue := (tenOf m t).queues.find? (·.num == q)

/-- A queue changed. -/
def modQueue (t q : Nat) (f : Queue → Queue) : Mach → Mach :=
  modTen t fun x => { x with queues := x.queues.map fun k => if k.num == q then f k else k }

/-- A buffer of a queue. -/
def bufOf (k : Queue) (b : Nat) : QBuf := if b = 0 then k.buf0 else k.buf1

/-- A buffer of a queue changed. -/
def modBuf (t q b : Nat) (f : QBuf → QBuf) : Mach → Mach :=
  modQueue t q fun k => if b = 0 then { k with buf0 := f k.buf0 } else { k with buf1 := f k.buf1 }

/-- R298: bytes of a data area. -/
def dataSize (l : LayoutBlk) : Nat := l.sources.length * l.srcCap * (16 + rowBytes l)

/-- The offset of a row's tag in a queue's data. -/
def tagOff (l : LayoutBlk) (b s p : Nat) : Nat := b * dataSize l + 16 * (s * l.srcCap + p)

/-- The offset of a row in a queue's data. -/
def rowOff (l : LayoutBlk) (b s p : Nat) : Nat :=
  b * dataSize l + 16 * l.sources.length * l.srcCap + rowBytes l * (s * l.srcCap + p)

/-- The slice address of a buffer's control area. -/
def ctrlAt (k : Queue) (l : LayoutBlk) (b : Nat) : Nat := k.blk.ctrl + b * ctrlSize l

/-- R197: a write into a queue's data meets a unit that its merge cannot read. -/
def dataBad (m : Mach) (t : Nat) (k : Queue) (off n : Nat) : Bool := !k.blk.dataSlice && partialBad m t (k.blk.data + off) n

/-- Bytes put into a queue's data. -/
def putData (t : Nat) (k : Queue) (off : Nat) (bs : List Byte) (m : Mach) : Mach :=
  if k.blk.dataSlice then slPut t (k.blk.data + off) bs m
  else
    let a := k.blk.data + off
    m |> forEach (pagesOf a bs.length) (materialise t) |> devMerge t a bs

/-- Bytes read from a queue's data. -/
def readData (m : Mach) (t : Nat) (k : Queue) (off n : Nat) : Rd :=
  if k.blk.dataSlice then slRead m t (k.blk.data + off) n else devRead m t (k.blk.data + off) n

/-- The pages of a queue's data. -/
def queuePages (k : QueueBlk) (l : LayoutBlk) : List Nat := if k.dataSlice then [] else pagesOf k.data (2 * dataSize l)

/-- Table 12.5: the fields of an EXP_QUEUE_POST lie in their ranges. -/
def queueFields (b : QueueBlk) : Bool :=
  b.queue ≤ 1023 && 1 ≤ b.unitRows && b.unitRows ≤ 4096 && b.ctrl % 64 == 0 && b.data % 64 == 0 && b.args.length ≤ 7

/-- R298: an EXP_QUEUE_POST's checks against the tenancy. -/
def queueOk (m : Mach) (h : Hdr) (b : QueueBlk) : Bool :=
  let t := hTen m h
  (findQueue m t b.queue).isNone &&
    (match (ctxOf m h.ctx).layouts.find? (·.blk.layoutId == b.layoutId) with
     | none => false
     | some l =>
       l.blk.experts[b.expert]? == some (selfNode m, b.queue)
         && (slRange m t true b.ctrl (2 * ctrlSize l.blk)).isOk
         && (if b.dataSlice then (slRange m t true b.data (2 * dataSize l.blk)).isOk
             else (queuePages b l.blk).all fun n => ((findPage m t n).map (·.claim == 0)).getD false))

/-- R298: EXP_QUEUE_POST POST. -/
def pktExpQueuePost (h : Hdr) (b : QueueBlk) : Packet :=
  packet { op := 0x41, tenant := true } h (fun m => queueFields b && (h.ctx == 0 || queueOk m h b))
    (fun _ m =>
      let t := hTen m h
      match (ctxOf m h.ctx).layouts.find? (·.blk.layoutId == b.layoutId) with
      | none => reply h .denied (node16 m) m
      | some l =>
        let cb := ctrlSize l.blk
        let ctl := padTo cb (le 8 0 ++ le 4 0) ++ padTo cb (le 8 0 ++ le 4 1)
        m |> modTen t (fun x => { x with queues := x.queues ++ [{ num := b.queue, ctx := h.ctx, blk := b }] })
          |> forEach (queuePages b l.blk) (fun n => modPage t n fun g => { g with claim := 5, owner := b.queue })
          |> slPut t b.ctrl ctl |> reply h .ok 0)

/-- R298: a buffer serves a round that has begun: a row or a header of it has come, a unit of it has been cut, or it was
faulted and still owes its return headers. -/
def bufBusy (x : QBuf) : Bool := !x.hdrs.isEmpty || x.rowsIn || x.earlyCut || x.faulted

/-- R298: a round of a queue is open, by its buffers or because this module's own exchange is in it. -/
def queueBusy (m : Mach) (k : Queue) : Bool :=
  bufBusy k.buf0 || bufBusy k.buf1 || (queueLayout m k).any fun l => l.isOpen && k.expected ≤ l.openRound

/-- R298: EXP_QUEUE_POST UNPOST. -/
def pktExpQueueUnpost (h : Hdr) (q : Nat) : Packet :=
  packet { op := 0x41, tenant := true } h
    (fun m => q ≤ 1023 && (h.ctx == 0 ||
      (match findQueue m (hTen m h) q with
       | none => false
       | some k => k.ctx == h.ctx && !queueBusy m k)))
    (fun _ m =>
      let t := hTen m h
      { m with mem := { m.mem with pages := m.mem.pages.map fun g =>
          if g.ten == t && g.claim == 5 && g.owner == q then { g with claim := 0, owner := 0 } else g } }
        |> modTen t (fun x => { x with queues := x.queues.filter (·.num != q) }) |> reply h .ok 0)

/-- Table 12.7: EXP_SHARED. -/
def pktExpShared (h : Hdr) (layer order : Nat) (basic : Bool) (podMask : Nat) : Packet :=
  packet { op := 0x42, expert := true, tenant := true } h
    (fun m => (basic || (order ≤ 2 && podMask < 2 ^ 48)) && (h.ctx == 0 ||
      ((findLayout m h.ctx layer).isSome
        && (basic || (bitsBelow 48 podMask).all fun p => m.ten.pods[p]? == some (.ten (hTen m h))))))
    (fun _ m =>
      m |> modLayout h.ctx layer (fun l =>
            if basic then { l with orderMode := 0, podMask := 0 } else { l with orderMode := order, podMask })
        |> reply h .ok 0)

/-! ### Headers and rows on the wire (Tables 12.3, 12.4) -/

/-- Table 12.4: a header's bytes. -/
def hdrBytes (h : ExpHdr) : List Byte :=
  le 4 h.layoutId ++ le 4 h.round ++ le 2 h.index ++ le 2 h.count ++ le 2 h.dropped ++
    le 1 (bit h.abandoned + 2 * bit h.fault) ++ le 1 h.type

/-- Table 12.3: a row tag's bytes. -/
def tagBytes (t : RowTag) : List Byte :=
  le 2 t.slot ++ le 2 t.gen ++ le 2 t.row ++ le 1 t.rank ++ le 1 t.status ++ le 4 t.round ++ le 2 t.source ++ le 2 t.expert

/-- Table 12.3: a row tag from its bytes. -/
def readTag (bs : List Byte) : RowTag :=
  { slot := field bs 0 2, gen := field bs 2 2, row := field bs 4 2, rank := field bs 6 1, status := field bs 7 1
    round := field bs 8 4, source := field bs 12 2, expert := field bs 14 2 }

/-- R30, R340: bytes sent into a queue of another node, the last packet a release flag where asked. -/
def sendMsg (fs : FlashState) (own : Waiter) (ten ctx seq node tag off cls : Nat) (bs : List Byte) (rel : Bool)
    (m : Mach) : Mach :=
  forEach (cutPackets (bs.length / 256 + 2) off bs.length) (fun k m =>
    issueNow fs { ten, ctx, seq, type := tMessage, node, offset := k.1, cls, release := rel && k.1 + k.2 == off + bs.length,
                  tagQueue := tag, payload := (bs.drop (k.1 - off)).take k.2 } own m) m

/-- A header with COUNT 0 is counted. -/
def countZero (n : Nat) (m : Mach) : Mach :=
  if n = 0 then modStp (fun x => { x with zeroHdr := bump 32 1 x.zeroHdr }) m else m

/-- R299, R304: something rejected. -/
def badHdr : Mach → Mach := modStp fun x => { x with badHdr := bump 16 1 x.badHdr }

/-! ### What a round brings its step (R202, R297, R309) -/

/-- R133, R309: an outcome kept for a step's usual boundary. -/
def keepLate (c q : Nat) (st : Status) (d : Nat) : Mach → Mach :=
  modStep c q fun s => { s with late := match s.late with
    | none => some (st, d)
    | some x => some (worse x (st, d)) }

/-- R202: what a read of the exchange that fails comes to: an outcome kept. -/
def keepRead (c q : Nat) (r : Rd) : Mach → Mach :=
  match r with
  | .poison n => keepLate c q .poisoned n
  | .denied n => keepLate c q .denied n
  | .ok _ => id

/-- R309: an outcome of a layout's round, kept for the step that holds the round, or until it starts. -/
def chargeRound (c layer round : Nat) (st : Status) (d : Nat) (m : Mach) : Mach :=
  match findLayout m c layer with
  | none => m
  | some l =>
    if l.isOpen && l.openRound == round then keepLate c l.openSeq st d m
    else modLayout c layer (fun l => { l with badRounds := l.badRounds ++ [(round, st, d)] }) m

/-! ### Gathers (R304, R305) -/

/-- The slice address of a gather tag. -/
def gatherTag (l : Layout) (r j : Nat) : Nat := l.gatherAddr + 16 * (r * l.blk.topk + j)

/-- The slice address of an answer. -/
def gatherAnswer (l : Layout) (r j : Nat) : Nat :=
  l.gatherAddr + 64 * ((l.rows * l.blk.topk + 3) / 4) + (r * l.blk.topk + j) * ansBytes l.blk

/-- R305: a gather round completes: tags still PENDING are lost. -/
def gatherDone (c layer : Nat) (m : Mach) : Mach :=
  match findLayout m c layer with
  | none => m
  | some l =>
    let t := (ctxOf m c).ten
    let rd := slTake t l.gatherAddr (16 * (l.rows * l.blk.topk)) m
    let ks := match rd.1 with
      | .ok bs => (List.range (l.rows * l.blk.topk)).filter fun i => field bs (16 * i + 7) 1 == 0
      | _ => []
    rd.2 |> keepRead c l.openSeq rd.1 |> forEach ks (fun i => slPut t (l.gatherAddr + 16 * i + 7) [4])
      |> modStp (fun x => { x with lost := bump 16 ks.length x.lost })
      |> modLayout c layer (fun l => { l with gatherOver := true })
      |> modLat (fun x => { x with gathersDone := x.gathersDone ++ [(c, layer)] })

/-- R304: an answer arrives at its source. -/
def gatherReceive (c layer : Nat) (t : RowTag) (ans : List Byte) (m : Mach) : Mach :=
  match findLayout m c layer with
  | none => badHdr m
  | some l =>
    let ten := (ctxOf m c).ten
    if !l.isOpen || t.round ≠ l.openRound then modStp (fun x => { x with stale := bump 16 1 x.stale }) m
    else if (slotOf m c t.slot).gen ≠ t.gen then
      m |> modStp (fun x => { x with gGenDrop := bump 16 1 x.gGenDrop })
        |> modCtx c (fun x => { x with genDropTick := x.genDropTick ++ [(t.slot, t.gen, (slotOf m c t.slot).gen, l.openSeq, 2, cutOff m c l.openSeq)]
                                       genDrop := bump 32 1 x.genDrop })
    else if l.rows ≤ t.row || l.blk.topk ≤ t.rank then badHdr m
    else
      let rd := slTake ten (gatherTag l t.row t.rank) 16 m
      let m := rd.2
      match rd.1 with
      | .ok bs =>
        let g := readTag bs
        if g.status != 0 || g.slot != t.slot || g.gen != t.gen || g.expert != t.expert then badHdr m
        else
          m |> slPut ten (gatherAnswer l t.row t.rank) (padTo (ansBytes l.blk) ans)
            |> slPut ten (gatherTag l t.row t.rank + 7) [1]
            |> modStp (fun x => { x with answers := bump 32 1 x.answers })
      | r => m |> keepRead c l.openSeq r |> badHdr

/-! ### Sending a round (R294 to R297) -/

/-- R295: the tags of a round's routing entries, in order, from the routing list and the slot tags of its rows. -/
def routeTags (l : Layout) (route tags : List Byte) : List RowTag :=
  (List.range (l.rows * l.blk.topk)).map fun i =>
    let r := i / l.blk.topk
    { slot := field tags (8 * r) 2, gen := field tags (8 * r + 2) 2, row := r, rank := i % l.blk.topk, status := 0
      round := l.openRound, source := l.blk.self, expert := field route (2 * i) 2 }

/-- R295, R296: the part of a round for one expert. -/
def unsentOf (l : Layout) (act : Nat) (ts : List RowTag) (e : Nat) : Unsent :=
  let es := (ts.filter (·.expert == e)).zipIdx
  let rows := es.filter fun x => x.2 < l.blk.srcCap
  { expert := e, round := l.openRound, seq := l.openSeq, rows, act, dropped := es.length - rows.length
    abandoned := l.status == .invalid || l.status == .cancelled }

/-- R299: a header reaches a queue of this module. -/
def completeRound (t q b : Nat) (m : Mach) : Mach :=
  m |> modBuf t q b (fun x => { x with complete := true })
    |> modLat (fun l => { l with roundsDone := l.roundsDone ++ [(t, q)] })

/-- TOTAL of a buffer. -/
def bufTotal (x : QBuf) : Nat := if x.faulted then 0 else (x.hdrs.map (·.2.count)).sum

/-- R299: a header accepted or rejected; whether it completed its round. -/
def acceptHdr (t q : Nat) (h : ExpHdr) (m : Mach) : Mach × Bool :=
  match findQueue m t q with
  | none => (badHdr m, false)
  | some k =>
    match queueLayout m k with
    | none => (badHdr m, false)
    | some l =>
      let b := h.round % 2
      let x := bufOf k b
      if h.type ≠ 1 || h.layoutId ≠ k.blk.layoutId || h.round ≠ x.round || l.blk.sources.length ≤ h.index
          || x.faulted || x.hdrs.any (·.1 == h.index) then (badHdr m, false)
      else
        let at_ := ctrlAt k l.blk b
        let n := x.hdrs.length + 1
        let m := m |> modBuf t q b (fun x => { x with hdrs := x.hdrs ++ [(h.index, h)] })
          |> slPut t (at_ + 16 + 16 * h.index) (hdrBytes h)
          |> slPut t (at_ + 4) (le 4 (bufTotal x + h.count))
          |> slPut t at_ (le 4 n)
        let m := onlyIf h.fault (chargeRound k.ctx l.blk.layer h.round .poisoned 4) m
        if n = l.blk.sources.length then (completeRound t q b m, true) else (m, false)

/-- R299: a row with its tag accepted or rejected. -/
def acceptRow (t q layoutId pos : Nat) (tag : RowTag) (row : List Byte) (m : Mach) : Mach :=
  match findQueue m t q with
  | none => badHdr m
  | some k =>
    match queueLayout m k with
    | none => badHdr m
    | some l =>
      let b := tag.round % 2
      let x := bufOf k b
      if layoutId ≠ k.blk.layoutId || tag.round ≠ x.round || x.faulted || l.blk.sources.length ≤ tag.source
          || l.blk.srcCap ≤ pos then badHdr m
      else
        m |> modBuf t q b (fun x => { x with rowsIn := true })
          |> onlyIf (dataBad m t k (tagOff l.blk b tag.source pos) 16
              || dataBad m t k (rowOff l.blk b tag.source pos) (rowBytes l.blk)) (chargeRound k.ctx l.blk.layer tag.round .poisoned 1)
          |> putData t k (tagOff l.blk b tag.source pos) (tagBytes { tag with status := 0 })
          |> putData t k (rowOff l.blk b tag.source pos) (padTo (rowBytes l.blk) row)

/-- R305, R297: a return header arrives at its source. -/
def noteReturn (c layer : Nat) (h : ExpHdr) (m : Mach) : Mach × Bool :=
  match findLayout m c layer with
  | none => (badHdr m, false)
  | some l =>
    if h.type ≠ 2 || h.layoutId ≠ l.blk.layoutId || l.blk.experts.length ≤ h.index then (badHdr m, false)
    else
      let last := (alGet h.index l.lastReturn).map fun r => max r h.round
      let m := modLayout c layer (fun l => { l with lastReturn := alSet h.index (last.getD h.round) l.lastReturn }) m
      if !l.isOpen || h.round ≠ l.openRound || l.gatherOver || l.returned.contains h.index then (m, true)
      else
        let m := modLayout c layer (fun l => { l with returned := l.returned ++ [h.index] }) m
        let m := if h.fault then keepLate c l.openSeq .poisoned 4 m else m
        (if l.returned.length + 1 = l.blk.experts.length then gatherDone c layer m else m, true)

/-- R303: the return headers of a queue's round, and its buffer's next round. -/
def returnHeaders (fs : FlashState) (t q : Nat) (m : Mach) : Mach :=
  match findQueue m t q with
  | none => m
  | some k =>
    match queueLayout m k with
    | none => m
    | some l =>
      let b := k.expected % 2
      let x := bufOf k b
      let seq := if l.isOpen && l.openRound == x.round then l.openSeq else 0
      let m := forEach l.blk.sources.zipIdx (fun y m =>
        let n := (alGet y.2 x.answers).getD 0
        let h : ExpHdr := { layoutId := k.blk.layoutId, round := x.round, index := k.blk.expert, count := if x.faulted then 0 else n,
                            fault := x.faulted, type := 2 }
        let m := countZero h.count m
        if y.1 = selfNode m then (noteReturn k.ctx l.blk.layer h m).1
        else sendMsg fs (.exch k.ctx seq) t k.ctx seq y.1 (1024 + l.blk.layer) (16 * k.blk.expert) l.blk.order (hdrBytes h) true m) m
      m |> modBuf t q b (fun x => { round := x.round + 2 })
        |> modQueue t q (fun k => { k with expected := k.expected + 1 })
        |> slPut t (ctrlAt k l.blk b) (le 8 0 ++ le 4 (x.round + 2))

/-- R300, R301: no early unit will be cut for a buffer's round any more: the first pass of its expert phase has been cut,
or its completion has been acted on. -/
def noEarly (l : Layout) (x : QBuf) : Bool := !x.earlyCut && (x.acted || (l.isOpen && l.passCut && l.openRound == x.round))

/-- R303: a queue with no token and no early unit returns as soon as its round is complete. -/
def settleQueue (fs : FlashState) (t q b : Nat) (m : Mach) : Mach :=
  match findQueue m t q with
  | none => m
  | some k =>
    let x := bufOf k b
    if x.complete && bufTotal x == 0 && k.expected == x.round && (queueLayout m k).any (noEarly · x) then returnHeaders fs t q m
    else m

/-- A header delivered to a queue of this module. -/
def deliverHdr (fs : FlashState) (t q : Nat) (h : ExpHdr) (m : Mach) : Mach :=
  let r := acceptHdr t q h m
  if r.2 then settleQueue fs t q (h.round % 2) r.1 else r.1

/-- R296: the rows and the count header of a round sent to one expert.  A queue of this module that is not posted denies them
(R167, R298). -/
def sendUnsent (fs : FlashState) (c layer : Nat) (u : Unsent) (m : Mach) : Mach :=
  match findLayout m c layer with
  | none => m
  | some l =>
    match l.blk.experts[u.expert]? with
    | none => m
    | some (node, q) =>
      let t := (ctxOf m c).ten
      let own := Waiter.exch c u.seq
      let here := node == selfNode m
      let h : ExpHdr := { layoutId := l.blk.layoutId, round := u.round, index := l.blk.self, count := u.rows.length,
                          dropped := u.dropped, abandoned := u.abandoned, type := 1 }
      let m := m |> countZero h.count |> modStp (fun x => { x with expSent := bump 32 u.rows.length x.expSent })
      if here && (findQueue m t q).isNone then
        modLat (fun x => { x with exchFaults := x.exchFaults ++ [(c, u.seq, .denied, node)] }) m
      else
        let m := forEach u.rows (fun x m =>
          let rd := slTake t (u.act + x.1.row * rowBytes l.blk) (rowBytes l.blk) m
          match rd.1 with
          | .ok bs =>
            if here then acceptRow t q l.blk.layoutId x.2 x.1 bs rd.2
            else
              rd.2 |> sendMsg fs own t c u.seq node q (tagOff l.blk (u.round % 2) l.blk.self x.2) l.blk.order (tagBytes x.1) false
                |> sendMsg fs own t c u.seq node q (rowOff l.blk (u.round % 2) l.blk.self x.2) l.blk.order bs false
          | r => keepRead c u.seq r rd.2) m
        if here then deliverHdr fs t q h m
        else sendMsg fs own t c u.seq node q (2 * dataSize l.blk + 16 * l.blk.self) l.blk.order (hdrBytes h) true m

/-- R297: an expert's return header of round `r` − 2 has come. -/
def mayGo (l : Layout) (e r : Nat) : Bool := r < 2 || (alGet e l.lastReturn).any fun k => r ≤ k + 2

/-- R297: the part of a round for one expert sent, or held back until its older return. -/
def sendExpert (fs : FlashState) (c layer : Nat) (u : Unsent) (m : Mach) : Mach :=
  match findLayout m c layer with
  | none => m
  | some l =>
    if mayGo l u.expert u.round then sendUnsent fs c layer u m
    else modLayout c layer (fun l => { l with waiting := l.waiting ++ [u] }) m

/-- R295: the gather tags of a round, all written before its first row goes. -/
def writeTags (c layer : Nat) (ts : List RowTag) (m : Mach) : Mach :=
  match findLayout m c layer with
  | none => m
  | some l =>
    let t := (ctxOf m c).ten
    let n := l.blk.experts.length
    forEach ts.zipIdx (fun x m =>
      let e := x.1.expert
      let pos := (ts.take x.2).countP (·.expert == e)
      let st := if e = 0xFFFF then 5 else if n ≤ e then 3 else if pos < l.blk.srcCap then 0 else 2
      m |> slPut t (gatherTag l x.1.row x.1.rank) (tagBytes { x.1 with status := st })
        |> modStp (fun y => { y with expInvalid := if st = 3 then bump 16 1 y.expInvalid else y.expInvalid
                                     expDropped := if st = 2 then bump 16 1 y.expDropped else y.expDropped })) m

/-- The bytes of a read of the exchange, none where it failed, and the outcome that the failure leaves with the step. -/
def exchRead (c q t a n : Nat) (m : Mach) : Option (List Byte) × Mach :=
  let rd := slTake t a n m
  (match rd.1 with
   | .ok bs => some bs
   | _ => none, keepRead c q rd.1 rd.2)

/-- R294, R309, R311: the round of a layout starts, with the rows of its exchange record, or with none where the record or a
list it names is not to be had, or abandoned. -/
def startRound (fs : FlashState) (c layer q : Nat) (abandon : Bool) (m : Mach) : Mach :=
  match findLayout m c layer with
  | none => m
  | some l =>
    let t := (ctxOf m c).ten
    let silent := l.blk.self == 0xFF
    let rd := if silent then (none, m) else exchRead c q t l.blk.xrec 32 m
    let bs := rd.1.getD (zeros 32)
    let bad := rd.1.isSome && (field bs 0 4 != l.blk.layoutId || field bs 24 8 != 0 || 65535 < field bs 4 4)
    let st : Status := if abandon then .cancelled else if bad then .invalid else .ok
    let rows := if st == .ok && !silent then field bs 4 4 else 0
    let m := modLayout c layer (fun l =>
      { l with
        isOpen := true, openRound := l.round, round := wrap 32 (l.round + 1), openSeq := q, returned := []
        startTick := m.tick.count + 1, passCut := false, gathered := silent, gatherOver := silent, gatherAddr := field bs 20 4
        badRounds := l.badRounds.filter (·.1 != l.round), rows, status := st }) rd.2
    let m := m |> forEach (l.badRounds.filter (·.1 == l.round)) (fun b => keepLate c q b.2.1 b.2.2)
      |> onlyIf (!silent && st == .invalid) (keepLate c q .invalid 0)
    if silent then m
    else
      let l := { l with openRound := l.round, openSeq := q, rows, status := st }
      let ro := if rows = 0 then (some [], m) else exchRead c q t (field bs 8 4) (2 * (rows * l.blk.topk)) m
      let ta := if rows = 0 then (some [], ro.2) else exchRead c q t (field bs 16 4) (8 * rows) ro.2
      let ts := match ro.1, ta.1 with
        | some a, some b => routeTags l a b
        | _, _ => []
      ta.2 |> writeTags c layer ts
        |> forEach (List.range l.blk.experts.length) (fun e => sendExpert fs c layer (unsentOf l (field bs 12 4) ts e))

/-- R297: the parts held back for an expert go once its older return header has come; the others wait on. -/
def sendWaiting (fs : FlashState) (c layer : Nat) (m : Mach) : Mach :=
  match findLayout m c layer with
  | none => m
  | some l =>
    m |> modLayout c layer (fun l => { l with waiting := l.waiting.filter fun u => !mayGo l u.expert u.round })
      |> forEach (l.waiting.filter fun u => mayGo l u.expert u.round) (sendUnsent fs c layer)

/-- R305: a return header at its source, and what it lets go. -/
def gatherReturn (fs : FlashState) (c layer : Nat) (h : ExpHdr) (m : Mach) : Mach :=
  let r := noteReturn c layer h m
  if r.2 then sendWaiting fs c layer r.1 else r.1

/-- R294: a phase's units have all completed: none of them is cut and not completed. -/
def unitsGone (m : Mach) (c q phase : Nat) : Bool :=
  (cutUnits m).all fun u => !(u.ctx == c && u.seq == q && u.phase == phase && u.expertQ.isNone)

/-- R273: the pass in progress has been cut whole and has completed. -/
def passDone (m : Mach) (c q : Nat) (p : Prog) : Bool := p.passes != 0 && p.placed == p.peas && unitsGone m c q p.phase

/-- R273: the phase's last pass has completed. -/
def phaseDone (m : Mach) (c q : Nat) (p : Prog) : Bool := passDone m c q p && p.pass + 1 == p.passes

/-- The queues of this module that a layout names. -/
def localQueues (m : Mach) (c : Nat) (l : Layout) : List Queue :=
  (l.blk.experts.zipIdx.filter fun e => e.1.1 == selfNode m).filterMap fun e =>
    (findQueue m (ctxOf m c).ten e.1.2).filter fun k => k.ctx == c && k.blk.layoutId == l.blk.layoutId && k.blk.expert == e.2

/-- R303: every local queue of a layout has sent its return headers of the open round. -/
def queuesServed (m : Mach) (c : Nat) (l : Layout) : Bool := (localQueues m c l).all fun k => l.openRound < k.expected

/-- R292: the phase after the shared phases of an expert phase. -/
def sharedEnd (l : Layout) (p : Nat) : Nat := p + 1 + l.blk.sharedPhases

/-- A phase of a step. -/
def phaseAt (m : Mach) (s : Step) (p : Nat) : Option Phase := if p < s.blk.phases then (planPhase m s p).toOption else none

/-- R292, R294: the phase before phase `p` of a step has completed: an ordinary phase, a shared phase, or an expert phase whose
units have all completed. -/
def routerDone (m : Mach) (s : Step) (p : Nat) : Bool :=
  match (phaseAt m s s.main.phase).bind (expertOf m s.ctx) with
  | none => s.main.phase + 1 == p && phaseDone m s.ctx s.seq s.main
  | some l =>
    (s.main.phase == p && p != 0) ||
      (s.expCut && p == sharedEnd l s.main.phase &&
        (if s.main.phase + 1 == p then l.isOpen && queuesServed m s.ctx l
         else p ≤ s.shared.phase || (s.shared.phase + 1 == p && phaseDone m s.ctx s.seq s.shared)))

/-- R294: the expert phase of a layer whose router phase is done. -/
def exchangeDue (m : Mach) (s : Step) (layer : Nat) : Bool :=
  s.areaDone && !s.cutDone && (List.range s.blk.phases).any fun p =>
    routerDone m s p && (((phaseAt m s p).bind (expertOf m s.ctx)).map (·.blk.layer)) == some layer

/-- R294: the exchange of a layer starts, once the router phase's last unit has completed. -/
def exchangeStart (c layer : Nat) (fs : FlashState) (m : Mach) : Mach :=
  match m.stp.steps.find? fun s => s.ctx == c && exchangeDue m s layer with
  | none => m
  | some s => if ((findLayout m c layer).map (·.isOpen)).getD true then m else startRound fs c layer s.seq false m

/-! ### Queues in service (R303) -/

/-- No unit of a queue's buffer is cut and not completed. -/
def queueUnitsGone (m : Mach) (t q b : Nat) : Bool :=
  (cutUnits m).all fun u => !(u.ten == t && (u.expertQ.map fun x => (x.1, x.2.1)) == some (q, b))

/-- The expert units of a round. -/
def roundUnits (k : Queue) (x : QBuf) : Nat := ceilDiv (bufTotal x) k.blk.unitRows

/-- R303, R309: a queue's units have completed: its return headers go. -/
def queueReturn (t q : Nat) (fs : FlashState) (m : Mach) : Mach :=
  match findQueue m t q with
  | none => m
  | some k =>
    let b := k.expected % 2
    let x := bufOf k b
    let cutAll := x.faulted || (x.complete && (x.acted || (x.earlyCut && roundUnits k x ≤ 1)))
    if cutAll && x.todo.isEmpty && queueUnitsGone m t q b then returnHeaders fs t q m else m

/-- R303: RETURN. -/
def returnOp (p t q tagAddr ansAddr : Nat) (fs : FlashState) (m : Mach) : Mach :=
  if !peaRuns m p || peaTen m p ≠ t then m
  else
    match findQueue m t q with
    | none => endInvalid p m
    | some k =>
      match queueLayout m k with
      | none => endInvalid p m
      | some l =>
        let answer := fun (bs : List Byte) =>
          let g := readTag bs
          peaRead p ansAddr (ansBytes l.blk) (fun ans m =>
            let m := modBuf t q (g.round % 2) (fun x =>
              { x with answers := alSet g.source ((alGet g.source x.answers).getD 0 + 1) x.answers }) m
            match l.blk.sources[g.source]? with
            | none => m
            | some node =>
              if node = selfNode m then gatherReceive k.ctx l.blk.layer g ans m
              else
                let seq := ((peaOf m p).active.map (·.seq)).getD 0
                let off := 16 * l.blk.experts.length + (g.row * l.blk.topk + g.rank) * (16 + ansBytes l.blk)
                sendMsg fs (.exch k.ctx seq) t k.ctx seq node (1024 + l.blk.layer) off l.blk.order (tagBytes g ++ ans) false m)
        if k.blk.dataSlice then peaRead p tagAddr 16 answer m
        else
          match devRead m t tagAddr 16 with
          | .poison s => endPoisoned p s m
          | .denied _ => denyMove p m
          | .ok bs => m |> noteDev t tagAddr 16 |> answer bs

/-! ### Deadlines and faults (R308 to R310) -/

/-- What an incomplete round misses: side, expert, the indices missing and the node of the first. -/
structure Missing where
  side : Nat
  expert : Nat
  round : Nat
  ixs : List Nat
  node : Nat
deriving DecidableEq, Repr

/-- R308: the inbound rounds of a queue that are incomplete, with the sources missing: the open one, and any other begun. -/
def inboundMissing (l : Layout) (begun : Bool) (k : Queue) : List (Missing × Option Queue) :=
  ([k.buf0, k.buf1].filter fun x =>
    ((l.isOpen && x.round == l.openRound) || (begun && bufBusy x)) && !x.complete && !x.faulted).map fun x =>
    let ixs := (List.range l.blk.sources.length).filter fun s => !x.hdrs.any (·.1 == s)
    ({ side := 0, expert := k.blk.expert, round := x.round, ixs, node := (l.blk.sources[ixs.headD 0]?).getD 0 }, some k)

/-- R308: the rounds of a layout that are incomplete, and what they miss; with `begun`, inbound rounds that came before the
module's own exchange too. -/
def openRounds (m : Mach) (c : Nat) (l : Layout) (begun : Bool) : List (Missing × Option Queue) :=
  let gat : List (Missing × Option Queue) :=
    if l.isOpen && !l.gatherOver then
      let ixs := (List.range l.blk.experts.length).filter fun e => !l.returned.contains e
      [({ side := 1, expert := 0xFFFF, round := l.openRound, ixs, node := ((l.blk.experts[ixs.headD 0]?).map (·.1)).getD 0 }, none)]
    else []
  (localQueues m c l).flatMap (inboundMissing l begun) ++ gat

/-- R309: one round faulted. -/
def faultRound (c layer : Nat) (x : Missing × Option Queue) (m : Mach) : Mach :=
  match x.2 with
  | some k =>
    match queueLayout m k with
    | none => m
    | some l =>
      let t := (ctxOf m c).ten
      let b := x.1.round % 2
      let at_ := ctrlAt k l.blk b
      m |> modBuf t k.num b (fun y => { y with faulted := true, todo := [] })
        |> slPut t (at_ + 4) (le 4 0) |> slPut t at_ (le 4 (2 ^ 31 + (bufOf k b).hdrs.length))
  | none => gatherDone c layer m

/-- R309, R310: incomplete rounds of a layout faulted, noted for the boundary's event, and their outcome kept. -/
def faultRounds (c : Nat) (l : Layout) (xs : List (Missing × Option Queue)) (cause : Nat) (st : Status) (d : Nat) : Mach → Mach :=
  forEach xs fun x m =>
    let y := x.1
    m |> faultRound c l.blk.layer x
      |> modStp (fun z => { z with missing := bump 16 y.ixs.length z.missing })
      |> modLat (fun z => { z with missing := z.missing ++
          [{ ctx := c, layer := l.blk.layer, side := y.side, expert := y.expert, round := y.round, first := y.ixs.headD 0
             node := y.node, count := y.ixs.length, cause }] })
      |> chargeRound c l.blk.layer y.round st d

/-- R308: the deadline of an expert round. -/
def expertDeadline (c layer : Nat) (m : Mach) : Mach :=
  match findLayout m c layer with
  | none => m
  | some l =>
    let wait := if l.blk.hdrWait = 0 then 8 else l.blk.hdrWait
    if !l.isOpen || !l.passCut || m.tick.count < l.startTick + wait then m
    else faultRounds c l (openRounds m c l false) 0 .poisoned 4 m

/-- R308: the expert rounds whose deadline this boundary is, or was. -/
def expertDeadlines (m : Mach) : Mach :=
  forEach (List.range 256) (fun c m => forEach (ctxOf m c).layouts (fun l => expertDeadline c l.blk.layer) m) m

/-- R308: a lost node faults every open round that awaits a header from it. -/
def expertNodeLost (node : Nat) (m : Mach) : Mach :=
  forEach (List.range 256) (fun c m =>
    forEach (ctxOf m c).layouts (fun l m =>
      let waits := (openRounds m c l true).filter fun x =>
        x.1.ixs.any fun i => if x.1.side = 0 then l.blk.sources[i]? == some node else (l.blk.experts[i]?).map (·.1) == some node
      faultRounds c l waits 1 .targetLost node m) m) m

/-- R305: the expert phase of a layer is complete at the module. -/
def expertDone (m : Mach) (c layer : Nat) : Bool :=
  match findLayout m c layer with
  | none => true
  | some l => l.isOpen && l.gathered && queuesServed m c l

/-- R273, R305: the expert phase is complete at the coming boundary, which acts on a gather that the tick has completed. -/
def expertDue (m : Mach) (c layer : Nat) : Bool :=
  match findLayout m c layer with
  | none => true
  | some l => l.isOpen && (l.gathered || m.lat.gathersDone.contains (c, layer)) && queuesServed m c l

/-- The round of a layout closed once its expert phase is complete. -/
def closeRound (c layer : Nat) (m : Mach) : Mach :=
  m |> modLayout c layer (fun l => { l with isOpen := false, gathered := false })
    |> modLat (fun x => { x with gathersDone := x.gathersDone.filter (· != (c, layer)) })

/-- R305: a gather's completion acted on. -/
def actGather (x : Nat × Nat) : Mach → Mach := modLayout x.1 x.2 fun l => if l.isOpen then { l with gathered := true } else l

/-- R289: EXP_LAYOUT INSTALL. -/
def execExpLayoutInstall (h : Hdr) (b : LayoutBlk) (s : State) : Host.Outcome State Fault Refusal :=
  runPacket (pktExpLayoutInstall h b) s
/-- R290: EXP_LAYOUT REMOVE. -/
def execExpLayoutRemove (h : Hdr) (layer : Nat) (s : State) : Host.Outcome State Fault Refusal :=
  runPacket (pktExpLayoutRemove h layer) s
/-- R298: EXP_QUEUE_POST POST. -/
def execExpQueuePost (h : Hdr) (b : QueueBlk) (s : State) : Host.Outcome State Fault Refusal := runPacket (pktExpQueuePost h b) s
/-- R298: EXP_QUEUE_POST UNPOST. -/
def execExpQueueUnpost (h : Hdr) (queue : Nat) (s : State) : Host.Outcome State Fault Refusal :=
  runPacket (pktExpQueueUnpost h queue) s
/-- R307: EXP_SHARED. -/
def execExpShared (h : Hdr) (layer order : Nat) (basic : Bool) (podMask : Nat) (s : State) : Host.Outcome State Fault Refusal :=
  runPacket (pktExpShared h layer order basic podMask) s
/-- R294: the exchange of a layer starts. -/
def execExchangeRoundStart (ctx layer : Nat) (s : State) : Host.Outcome State Fault Refusal := onFab (exchangeStart ctx layer) s
/-- R299: a header arrives at a queue. -/
def execQueueHeaderReceive (ten queue : Nat) (h : ExpHdr) (s : State) : Host.Outcome State Fault Refusal :=
  onFab (fun fs => deliverHdr fs ten queue h) s
/-- R299: a row arrives at a queue. -/
def execQueueRowReceive (ten queue layoutId pos : Nat) (t : RowTag) (row : List Byte) (s : State) :
    Host.Outcome State Fault Refusal := onUp (acceptRow ten queue layoutId pos t row) s
/-- R303: a queue's return headers go. -/
def execQueueReturnHeaders (ten queue : Nat) (s : State) : Host.Outcome State Fault Refusal := onFab (queueReturn ten queue) s
/-- R304: an answer arrives at its source. -/
def execGatherAnswerReceive (ctx layer : Nat) (t : RowTag) (answer : List Byte) (s : State) : Host.Outcome State Fault Refusal :=
  onUp (gatherReceive ctx layer t answer) s
/-- R305: a return header arrives at its source. -/
def execGatherReturnHeader (ctx layer : Nat) (h : ExpHdr) (s : State) : Host.Outcome State Fault Refusal :=
  onFab (fun fs => gatherReturn fs ctx layer h) s
/-- R308: an expert round's deadline. -/
def execExpertRoundDeadline (ctx layer : Nat) (s : State) : Host.Outcome State Fault Refusal :=
  atBoundary (fun _ => expertDeadline ctx layer) s
/-- R303: RETURN. -/
def execReturnAnswer (pea ten queue tagAddr ansAddr : Nat) (s : State) : Host.Outcome State Fault Refusal :=
  onFab (returnOp pea ten queue tagAddr ansAddr) s

end Sys2Proof.Machine
end

