-- ==== Sys2Proof/Machine/Cut.lean ====
section
/-! DEFINITION. How Turnip cuts the work units of a step: pods, KV accesses, passes and joins, expert
units and shared phases (R48, R49, R153, R183, R244, R245, R273 to R279, R300 to R302, R306, R411). -/

namespace Sys2Proof.Machine

/-! ### KV accesses of a phase (R244, R245, R275, R279) -/

/-- One KV MOVE of a phase with its access entry (Table 10.7); the slice address of a READ is set
when it is dealt. -/
structure KvItem where
  read : Bool
  group : Nat
  stream : Nat
  first : Nat
  count : Nat
  move : MoveBody
deriving DecidableEq, Repr

/-- R275: the bytes of a group's region at SRC. -/
def regionSize (g : KvAttach) (s : Step) : Nat := (rowCount s + (s.ents.map entImages).sum) * tokenRec g

/-- R275: the READ accesses of a phase in order, a block each. -/
def readAccesses (v : KvView) (s : Step) (ph : Phase) : List KvAccess :=
  ((List.range (s.ents.length + s.riders.length)).filterMap (rowsOf s)).flatMap fun x =>
    if x.rows = 0 then []
    else
      (List.range v.p.geo.groups).flatMap fun gr => (List.range (ceilDiv x.len 64)).map fun b =>
        { append := false, group := gr, layer := ph.layer, stream := x.stream, first := b, count := 1, slice := 0 }

/-- R275: the MOVEs of a phase's READs in order; none where an access is outside the geometry (R244). -/
def readItems (v : KvView) (s : Step) (ph : Phase) : Option (List KvItem) :=
  let as := readAccesses v s ph
  if as.all (accessOk v) then
    some (as.flatMap fun a => (kvRead v a).map fun mv =>
      { read := true, group := a.group, stream := a.stream, first := a.first, count := 1, move := mv })
  else none

/-- R203: the source of poison in the table units that a phase's READs reach, if there is any. -/
def badReads (m : Mach) (v : KvView) (s : Step) (ph : Phase) : Option Nat :=
  if ph.read then badEntry m v ((readAccesses v s ph).map fun a => kvIx v.p.geo v.tb a.stream a.layer a.group a.first) else none

/-- Where a walk got to: its MOVEs, the step and the module, or why it stopped. -/
abbrev Walked := Except (Status × Nat) (List KvItem × Step × Mach)

/-- R245: the APPEND of an entry's or rider's rows in one group. -/
def appendItems (ph : Phase) (x : RowSet) (gr : Nat) (s : Step) (m : Mach) : Walked :=
  match kvView m s.ctx with
  | none => .error (.denied, node16 m)
  | some v =>
    let tr := tokenRec v.p.geo
    let a : KvAccess := { append := true, group := gr, layer := ph.layer, stream := x.stream, first := 0, count := x.rows,
                          slice := ph.src + gr * regionSize v.p.geo s + x.first * tr }
    match kvAppend s.ctx a m with
    | (.ok ms mapped ws, m) =>
      .ok (ms.map fun mv => { read := false, group := gr, stream := x.stream, first := 0, count := mv.rowBytes / tr, move := mv },
           { s with mapped := s.mapped ++ ws.filter fun w => mapped.contains w.ix, appended := s.appended ++ ws.filter fun w => !s.appended.any (·.ix == w.ix) }, m)
    | (.fail st d, _) => .error (st, d)

/-- R279: a lane's slot of a layer and group: block b's own where the lane is written in place, one taken
before, or a new one. -/
def laneSlot (s : Step) (e : StepEnt) (lane : List (Nat × Kve)) (ln l gr k : Nat) (m : Mach) :
    Option (Kve × List (Nat × Kve) × Bool × Mach) :=
  (kvView m s.ctx).bind fun v =>
    let key := laneKey v.p.geo l gr k
    match alGet key lane with
    | some x => some (x, lane, e.inPlace.contains (slotKey x.page x.slot), m)
    | none =>
      let own := if ln = 0 && k = 0 && e.len % 64 != 0 then
          (kvEntry v (kvIx v.p.geo v.tb e.stream l gr (e.len / 64))).filter fun x => slotRefs v.p (slotKey x.page x.slot) == 1
        else none
      match own with
      | some x => some (x, alSet key x lane, true, m)
      | none => (takeSlot s.ctx e.stream m).map fun r =>
          let x : Kve := { fill := 0, page := r.1.1, slot := r.1.2 }
          (x, alSet key x lane, false, modPool v.t v.tb.pool (addRef (slotKey x.page x.slot)) r.2)

/-- A lane's slots of an entry, by its leaf. -/
def laneOf (e : StepEnt) (leaf : Nat) : List (Nat × Kve) := ((e.lanes.find? (·.1 == leaf)).map (·.2)).getD []

/-- A lane's slots kept in its entry. -/
def setLane (i leaf : Nat) (lane : List (Nat × Kve)) (own : List Nat) (s : Step) : Step :=
  { s with ents := modAt i (fun e => { e with lanes := (e.lanes.filter (·.1 != leaf)) ++ [(leaf, lane)]
                                              inPlace := (e.inPlace ++ own).dedup }) s.ents }

/-- R279: the writes of one lane in one group; `base` is the first record of its image. -/
def laneItems (ph : Phase) (i ln leaf base gr : Nat) (s : Step) (m : Mach) : Walked :=
  match s.ents[i]?, kvView m s.ctx with
  | some e, some v =>
    let g := v.p.geo
    let tr := tokenRec g
    let n := imageLen e leaf
    let f := e.len % 64
    let src := ph.src + gr * regionSize g s + (rowCount s + base) * tr
    if let some bad := if ln = 0 && f != 0 then badEntry m v [kvIx g v.tb e.stream ph.layer gr (e.len / 64)] else none then
      .error (.poisoned, bad)
    else
    match laneSlot s e (laneOf e leaf) ln ph.layer gr 0 m with
    | none => .error (.noSpace, 0x10)
    | some (x, lane, inPlace, m) =>
      let own := if inPlace then [slotKey x.page x.slot] else []
      let lo := if inPlace then f else 0
      let k := min n 64 - lo
      let item := fun (count : Nat) (mv : MoveBody) =>
        ({ read := false, group := gr, stream := e.stream, first := 0, count, move := mv } : KvItem)
      let here := item k (kvMove 2 (k * tr) (src + lo * tr) (slotOff g x + lo * tr))
      if n ≤ 64 then .ok ([here], setLane i leaf lane own s, m)
      else
        match laneSlot s e lane ln ph.layer gr 1 m with
        | none => .error (.noSpace, 0x10)
        | some (y, lane, _, m) =>
          .ok ([here, item (n - 64) (kvMove 2 ((n - 64) * tr) (src + 64 * tr) (slotOff g y))], setLane i leaf lane own s, m)
  | _, _ => .error (.denied, node16 m)

/-- Walks made one after the other. -/
def walkAll {α : Type} (f : α → Step → Mach → Walked) : List α → Step → Mach → Walked
  | [], s, m => .ok ([], s, m)
  | a :: r, s, m =>
    match f a s m with
    | .error e => .error e
    | .ok (xs, s, m) =>
      match walkAll f r s m with
      | .error e => .error e
      | .ok (ys, s, m) => .ok (xs ++ ys, s, m)

/-- The lanes of an entry with the first records of their images. -/
def laneBases (e : StepEnt) (base : Nat) : List (Nat × Nat × Nat) :=
  ((entLanes e).zipIdx.foldl (fun (acc : Nat × List (Nat × Nat × Nat)) x =>
    (acc.1 + imageLen e x.1, acc.2 ++ [(x.2, x.1, acc.1)])) (base, [])).2

/-- R275: the writes of a phase in order: entries, then riders; each by group. -/
def writeItems (ph : Phase) (s : Step) (m : Mach) : Walked :=
  match kvView m s.ctx with
  | none => .error (.denied, node16 m)
  | some v =>
    let gs := List.range v.p.geo.groups
    walkAll (fun i s m =>
      match rowsOf s i with
      | none => .ok ([], s, m)
      | some x =>
        if x.rows = 0 then .ok ([], s, m)
        else
          match x.ent with
          | some e =>
            if e.e.kind = 1 then
              walkAll (fun gr s m => walkAll (fun ln s m => laneItems ph i ln.1 ln.2.1 ln.2.2 gr s m)
                (laneBases e (imageBase s i)) s m) gs s m
            else walkAll (appendItems ph x) gs s m
          | none => walkAll (appendItems ph x) gs s m)
      (List.range (s.ents.length + s.riders.length)) s m

/-- R244, R275: the KV MOVEs of a phase, in the order they are dealt.  A reserved value makes the step INVALID (R67), with
the number of phase `p`. -/
def phaseItems (ph : Phase) (p : Nat) (s : Step) (m : Mach) : Walked :=
  match if ph.read then (kvView m s.ctx).bind fun v => readItems v s ph else some [] with
  | none => .error (.invalid, 2 ^ 8 * p)
  | some rd =>
    if let some src := (kvView m s.ctx).bind fun v => badReads m v s ph then .error (.poisoned, src)
    else if ph.write then
      match writeItems ph s m with
      | .error e => .error e
      | .ok (ws, s, m) => .ok (ws ++ rd, s, m)
    else .ok (rd, s, m)

/-! ### Units (R273 to R275) -/

/-- Every n-th member of a list from one on. -/
def everyNth {α : Type} (l : List α) (i n : Nat) : List α := (l.zipIdx.filter fun x => x.2 % n == i).map (·.1)

/-- R275: the MOVEs dealt to a unit, READs with their places in its staging area. -/
def dealt (tr : Nat) (ph : Phase) (j : Nat) (items : List KvItem) : List KvItem :=
  (items.foldl (fun (acc : Nat × List KvItem) x =>
    if x.read then
      (acc.1 + 1, acc.2 ++ [{ x with move := { x.move with dst := ph.stage + j * ph.stride + 512 + acc.1 * 64 * tr } }])
    else (acc.1, acc.2 ++ [x])) (0, [])).2

/-- Table 10.7: an access entry of a MOVE. -/
def accessRec (ph : Phase) (x : KvItem) : List Byte :=
  le 1 (bit (!x.read)) ++ le 1 x.group ++ le 2 ph.layer ++ le 2 x.stream ++ le 2 x.first ++ le 2 x.count ++
    le 4 (if x.read then x.move.dst else x.move.src) ++ zeros 2

/-- R275: two MOVEs of a unit that belong to one piece of one access and follow one another. -/
def sameAccess (tr : Nat) (a b : KvItem) : Bool :=
  a.read == b.read && a.group == b.group && a.stream == b.stream &&
    (if a.read then a.first + a.count == b.first && a.first / 31 == b.first / 31 && a.move.dst + a.count * 64 * tr == b.move.dst
     else a.move.src + a.count * tr == b.move.src)

/-- R275: the accesses that the MOVEs of a unit make up.  DEDUCED: dealing parts an access among units, so a unit's index names
the runs of it that the unit holds. -/
def accessRuns (tr : Nat) : List KvItem → List KvItem
  | a :: r =>
    match accessRuns tr r with
    | b :: bs => if sameAccess tr a b then { a with count := a.count + b.count } :: bs else a :: b :: bs
    | [] => [a]
  | [] => []

/-- R275: the index of a unit's staging area. -/
def stageIndex (ph : Phase) (q tr : Nat) (xs : List KvItem) : List Byte :=
  let as := accessRuns tr xs
  padTo 512 (le 2 as.length ++ le 2 q ++ zeros 12 ++ as.flatMap (accessRec ph))

/-- R273: the argument words of a RUN. -/
def runArgs (args : List Nat) (a b c : Nat) : List Nat := (args ++ List.replicate 7 0).take 7 ++ [a, b, c]

/-- Descriptors of one phase for pea j in pass q, without their header's LAST. -/
def phaseBodies (s : Step) (ph : Phase) (p q j : Nat) (xs : List KvItem) : List DescBody :=
  xs.map (fun x => .move x.move) ++ [.run ph.prog ph.entry (runArgs ph.args (p + 2 ^ 16 * q) s.blk.inSlice (j + 2 ^ 8 * ph.peas))]

/-- What a cut makes of one phase for each pea: descriptor bodies, indices of the KV MOVEs, and staging. -/
structure Cut where
  bodies : List (List DescBody)
  kv : List (List Nat)
  stage : List (Nat × List Byte)
  items : List KvItem
  passes : Nat
deriving DecidableEq, Repr

/-- R275: the units of a pass. -/
def cutPhase (s : Step) (ph : Phase) (p q tr : Nat) (passes : Nat) (items : List KvItem) : Cut :=
  let js := List.range ph.peas
  let per := js.map fun j => dealt tr ph j (everyNth items (q * ph.peas + j) (passes * ph.peas))
  { bodies := per.zipIdx.map fun x => phaseBodies s ph p q x.2 x.1
    kv := per.map fun xs => List.range xs.length
    stage := if ph.read || ph.write then per.zipIdx.map fun x => (ph.stage + x.2 * ph.stride, stageIndex ph q tr x.1) else []
    items := per.flatten, passes }

/-- R274: a phase joined behind its predecessor's units. -/
def joinCut (s : Step) (p peas : Nat) (a b : Cut) : Cut :=
  let bar := s.bars + 4 * p
  let link : List DescBody := [.post bar 1, .wait bar peas]
  { bodies := (a.bodies.zip b.bodies).map fun x => x.1 ++ link ++ x.2
    kv := (a.bodies.zip (a.kv.zip b.kv)).map fun x => x.2.1 ++ x.2.2.map (· + x.1.length + 2)
    stage := a.stage ++ b.stage, items := a.items ++ b.items, passes := 1 }

/-- A work unit of a step. -/
def stepUnit (m : Mach) (s : Step) (phase num : Nat) (kv : List Nat) (bodies : List DescBody) : WUnit :=
  let x := ctxOf m s.ctx
  { ctx := s.ctx, ten := x.ten, seq := s.seq, unit := num, phase
    descs := bodies.zipIdx.map fun b => { last := b.2 + 1 == bodies.length, ctx := s.ctx, unit := num, body := b.1 }
    layers := x.recipes, gen := x.cmpCurrent, cut := m.tick.count, touch := x.touch, stallMs := x.stallLimitMs, kvMoves := kv }

/-! ### Pods (R153, R411) -/

/-- R51: a pea still runs a unit that started at an earlier boundary. -/
def overran (m : Mach) (a : Pea) : Bool :=
  a.startTick < m.tick.count && a.st != .idle && a.st != .staged && a.st != .done

/-- R153: a pod that is idle at the next boundary: none of its peas holds a pending unit, and none runs past a boundary. -/
def podIdle (m : Mach) (p : Nat) : Bool :=
  (List.range 4).all fun i => let a := peaOf m (4 * p + i); a.pendUnit.isNone && !overran m a

/-- R301, R300: the expert units that a context's open layouts have ready. -/
def expertNeed (m : Mach) (c : Nat) : Nat :=
  ((ctxOf m c).layouts.map fun l =>
    ((localQueues m c l).map fun k => (bufOf k (k.expected % 2)).todo.length).sum).sum

/-- R273: the place in the plan once completed passes and phases are passed over. -/
def advance (m : Mach) (s : Step) (p : Prog) : Prog :=
  if phaseDone m s.ctx s.seq p then { phase := p.phase + 1 }
  else if passDone m s.ctx s.seq p then { p with pass := p.pass + 1, placed := 0 }
  else p

/-- R305: a step past its expert phase: its round is complete and its shared phases are done. -/
def passExpert (m : Mach) (s : Step) : Mach × Step :=
  match phaseAt m s s.main.phase with
  | none => (m, s)
  | some ph =>
    match expertOf m s.ctx ph with
    | none => (m, s)
    | some l =>
      let sh := advance m s s.shared
      let e := min (sharedEnd l s.main.phase) s.blk.phases
      if s.expCut && expertDue m s.ctx l.blk.layer && e ≤ sh.phase then
        (closeRound s.ctx l.blk.layer m, { s with main := { phase := e }, shared := {}, expCut := false })
      else (m, { s with shared := sh })

/-- A step brought up to date before anything of it is cut. -/
def catchUp (m : Mach) (s : Step) : Mach × Step := passExpert m { s with main := advance m s s.main }

/-- R153: the units that a step has ready for the next tick. -/
def unitNeed (m : Mach) (s : Step) : Nat :=
  if !s.areaDone || s.cutDone || s.fail.isSome then 0
  else
    let s := (catchUp m s).2
    match phaseAt m s s.main.phase with
    | none => 0
    | some ph =>
      match expertOf m s.ctx ph with
      | some l =>
        let early := if s.expCut then 0 else (localQueues m s.ctx l).length
        let sh := match phaseAt m s s.shared.phase with
          | some x => if s.expCut && unitsGone m s.ctx s.seq s.shared.phase then x.peas - s.shared.placed else 0
          | none => 0
        early + sh
      | none => if unitsGone m s.ctx s.seq s.main.phase then ph.peas - s.main.placed else 0

/-- R153: demand[c] in pods. -/
def demand (m : Mach) (c : Nat) : Nat :=
  let n := ((m.stp.steps.filter (·.ctx == c)).map (unitNeed m)).sum + expertNeed m c
  ceilDiv n 4

/-- R153: one pod given to a context by the weighted shares. -/
def assignPod (x : List (Nat × Nat × Int × Nat) × List (Nat × Nat)) (p : Nat) :
    List (Nat × Nat × Int × Nat) × List (Nat × Nat) :=
  let live := x.1.filter fun c => 0 < c.2.1
  if live.isEmpty then x
  else
    let w : Int := (live.map fun c => (c.2.2.2 : Int)).sum
    let cs := x.1.map fun c => if 0 < c.2.1 then (c.1, c.2.1, c.2.2.1 + (c.2.2.2 : Int), c.2.2.2) else c
    let best := (cs.filter fun c => 0 < c.2.1).foldl (fun (b : Option (Nat × Nat × Int × Nat)) c =>
      match b with
      | none => some c
      | some y => if y.2.2.1 < c.2.2.1 then some c else some y) none
    match best with
    | none => x
    | some b => (cs.map fun c => if c.1 = b.1 then (c.1, c.2.1 - 1, c.2.2.1 - w, c.2.2.2) else c, x.2 ++ [(p, b.1)])

/-- R153, R411: the idle pods of a tenancy assigned during a tick, and gated ones among them ungated. -/
def assignPods (t : Nat) (m : Mach) : Mach :=
  let x := tenOf m t
  let again := x.podTick == some m.tick.count
  let had := if again then x.podOf else []
  let cs := ((List.range 256).filter fun c => (ctxOf m c).isOpen && (ctxOf m c).ten == t).map fun c =>
    let d := demand m c - had.countP fun y => y.2 == c && podIdle m y.1
    (c, d, if d = 0 && !again then 0 else (ctxOf m c).cur, (ctxOf m c).share)
  let pods := (List.range 48).filter fun p =>
    m.ten.pods[p]? == some (.ten t) && podIdle m p && !had.any (·.1 == p)
  let r := pods.foldl assignPod (cs, [])
  let new := r.2.map (·.1)
  m |> forEach r.1 (fun c => modCtx c.1 fun y =>
        { y with cur := c.2.2.1
                 acct := { y.acct with podTicks := y.acct.podTicks + r.2.countP fun z => z.2 == c.1 } })
    |> modTen t (fun y => { y with podTick := some m.tick.count, podOf := had ++ r.2 })
    |> modPwr (fun y => { y with ungating := y.ungating ++ new.filter fun p => y.gated.contains p && !y.ungating.contains p })

/-- The peas that a context may fill this tick, ascending, without the pods of a mask. -/
def openPeas (m : Mach) (c notIn : Nat) : List Nat :=
  let t := (ctxOf m c).ten
  let ps := ((tenOf m t).podOf.filter fun y => y.2 == c && !notIn.testBit y.1).map (·.1)
  (List.range 192).filter fun p => ps.contains (p / 4) && (peaOf m p).pendUnit.isNone

/-! ### Cutting (R183, R273, R274) -/

/-- R183: the pages that a unit's MOVEs need made ready: those they promote, and the ZERO pages they write. -/
def aheadPages (fs : FlashState) (m : Mach) (t : Nat) (touch : Bool) (items : List KvItem) : List Nat :=
  (items.flatMap fun x =>
    let b := x.move
    (pagesOf (if x.read then b.src else b.dst) b.rowBytes).filter fun n =>
      moveNow fs m touch false t n (!x.read) == .wait || (!x.read && (findPage m t n).any (·.tier == .zero))).dedup

/-- R49: the guard time in force for a context's units, at most the period of their tick less 5 µs. -/
def guardApplied (m : Mach) (c : Nat) : Nat :=
  let x := ctxOf m c
  min (if x.expert && x.guardUs != 0 then x.guardUs else m.tick.guardUs) (m.tick.next1 - 5)

/-- R49, R183: a predicted end leaves the guard time before the next boundary. -/
def fitsTick (m : Mach) (c endUs : Nat) : Bool := endUs + guardApplied m c ≤ m.tick.next1

/-- R183: promotions and zero fills asked for ahead of the cut. -/
def askAhead (t : Nat) (ns : List Nat) (m : Mach) : Mach := forEach ns (askNeeded t) m

/-- R275: the staging indices of the units of peas `lo` to `hi`. -/
def writeStages (t : Nat) : List (Nat × List Byte) → Mach → Except (Status × Nat) Mach
  | [], m => .ok m
  | x :: r, m =>
    match slWrite t x.1 x.2 m with
    | .error e => .error (.denied, e)
    | .ok m => writeStages t r m

/-- A step's cut failed: the next boundary finalises it. -/
def failCut (s : Step) (st : Status) (d : Nat) (m : Mach) : Mach :=
  m |> onlyIf (st == .poisoned) (countPoison (.poison d))
    |> modStep s.ctx s.seq fun s => { s with fail := some (st, d), cutDone := true }

/-- R273: the checks of a phase record. -/
def phaseBad (m : Mach) (s : Step) (ph : Phase) : Bool :=
  match kvView m s.ctx with
  | none => false
  | some v => ph.bad || ((ph.read || ph.write) && v.p.geo.layers ≤ ph.layer) || (ph.read && readCap v.p.geo ph == 0)

/-- A phase walked and cut into the units of one pass. -/
def cutPass (s : Step) (ph : Phase) (p q : Nat) (m : Mach) : Except (Status × Nat) (Cut × Step × Mach) :=
  match kvView m s.ctx with
  | none => .error (.denied, node16 m)
  | some v =>
    if phaseBad m s ph then .error (.invalid, 2 ^ 8 * p)
    else
      match phaseItems ph p s m with
      | .error e => .error e
      | .ok (items, s, m) =>
        let n := passesFor v.p.geo ph items.length (items.countP (·.read))
        .ok (cutPhase s ph p q (tokenRec v.p.geo) n items, s, m)

/-- R245: a stream that a phase appends to has an APPEND of another step unfinalised, so the phase is held. -/
def appendHeld (m : Mach) (s : Step) (ph : Phase) : Bool :=
  let rows := ((List.range (s.ents.length + s.riders.length)).filterMap (rowsOf s)).filter (·.rows != 0)
  ph.write && m.stp.steps.any fun o =>
    o.ctx == s.ctx && o.seq != s.seq && o.appended.any fun w => rows.any (·.stream == w.stream)

/-- R274: the phases after `p`, below `lim`, that can share the units of a single-pass cut. -/
def joinPhases (peas lim : Nat) : Nat → Nat → List Nat → Cut → Step → Mach → Nat × Cut × Step × Mach
  | 0, p, _, c, s, m => (p, c, s, m)
  | fuel + 1, p, layers, c, s, m =>
    match phaseAt m s (p + 1) with
    | none => (p, c, s, m)
    | some ph =>
      let names := if ph.layer = 0xFFFF then layers else insRising ph.layer layers
      if lim ≤ p + 1 || !ph.join || ph.peas ≠ peas || (expertOf m s.ctx ph).isSome || 8 < names.length || phaseBad m s ph || appendHeld m s ph then (p, c, s, m)
      else
        match cutPass s ph (p + 1) 0 m with
        | .error _ => (p, c, s, m)
        | .ok (d, s', m') =>
          let j := joinCut s' p peas c d
          if d.passes ≠ 1 || j.bodies.any (32 < ·.length) then (p, c, s, m)
          else joinPhases peas lim fuel (p + 1) names j s' m'

/-- Units put into the pending halves of peas. -/
def placeUnits (us : List (Nat × WUnit)) (m : Mach) : Mach := forEach us (fun x => issueUnit x.1 x.2) m

/-- R49, R183, R273: units of the pass in progress of a phase cut for the peas at hand.  The end predicted for a unit whose
pages are asked for is a free value; where it does not fit the tick, the unit is put off. -/
def cutUnitsOf (fs : FlashState) (notIn lim : Nat) (main : Bool) (s : Step) (ph : Phase) (m : Mach) : Mach :=
  let g := if main then s.main else s.shared
  let t := (ctxOf m s.ctx).ten
  let ps := openPeas m s.ctx notIn
  if ps.isEmpty || appendHeld m s ph then m
  else
    match cutPass s ph g.phase g.pass m with
    | .error (st, d) => failCut s st d m
    | .ok (c, s', m') =>
      let x := ctxOf m s.ctx
      let n := m.stp.choices
      let next := modStp (fun y => { y with choices := y.choices + 1 })
      let j := if g.pass = 0 && g.placed = 0 && c.passes = 1 && ph.peas ≤ ps.length then
          joinPhases ph.peas lim 32 g.phase (if ph.layer = 0xFFFF then [] else [ph.layer]) c s' m'
        else (g.phase, c, s', m')
      let c := j.2.1
      let ask := if x.ahead then aheadPages fs j.2.2.2 t x.touch c.items else []
      if !ask.isEmpty && !fitsTick m s.ctx (Config.predictedEnd n) then
        m |> askAhead t ask |> next |> modStep s.ctx s.seq (fun s => { s with deferred := true })
      else
        let m := j.2.2.2 |> askAhead t ask |> next
        let k := min ps.length (ph.peas - g.placed)
        let todo := ((c.bodies.zip c.kv).drop g.placed).take k
        let us := (ps.zip todo).zipIdx.map fun y => (y.1.1, stepUnit m j.2.2.1 j.1 ((m.stp.unitNo + 1 + y.2) % 2 ^ 24) y.1.2.2 y.1.2.1)
        let g' : Prog := { phase := j.1, pass := g.pass, passes := c.passes, peas := ph.peas, placed := g.placed + k }
        match writeStages t ((c.stage.zipIdx.filter fun y => let i := y.2 % ph.peas; g.placed ≤ i && i < g.placed + k).map (·.1)) m with
        | .error (st, d) => failCut s st d m
        | .ok m =>
          let s := { j.2.2.1 with deferred := false }
          m |> placeUnits us |> modStp (fun y => { y with unitNo := (y.unitNo + k) % 2 ^ 24 })
            |> modStep s.ctx s.seq (fun _ => if main then { s with main := g' } else { s with shared := g' })

/-! ### Expert units (R300 to R302, R307) -/

/-- R302: a RUN of a queue. -/
def queueRun (k : Queue) (b u : Nat) : DescBody :=
  .run k.blk.prog k.blk.progEntry (runArgs k.blk.args (k.blk.expert + 2 ^ 16 * u) (u * k.blk.unitRows) b)

/-- R300, R301: an expert unit put on a pea: unit `u` of the queue's round, the early one where `early`. -/
def placeExpert (c seq phase : Nat) (k : Queue) (l : LayoutBlk) (b u : Nat) (early : Bool) (p : Nat) (m : Mach) : Mach :=
  let x := ctxOf m c
  let num := (m.stp.unitNo + 1) % 2 ^ 24
  let at_ := ctrlAt k l b
  let descs : List Desc :=
    if early then
      [{ ctx := c, unit := num, body := .wait at_ l.sources.length },
       { last := true, gated := true, ctx := c, unit := num, gateAddr := at_ + 4, body := queueRun k b u }]
    else [{ last := true, ctx := c, unit := num, body := queueRun k b u }]
  m |> issueUnit p { ctx := c, ten := x.ten, seq, unit := num, descs, layers := x.recipes, gen := x.cmpCurrent, phase
                     expertQ := some (k.num, b, early), cut := m.tick.count, touch := x.touch, stallMs := x.stallLimitMs }
    |> modStp (fun y => { y with unitNo := num, units := bump 32 1 y.units })

/-- R307: the pods that expert units of a layout leave alone. -/
def expertMask (m : Mach) (c : Nat) (l : Layout) (sharedDone : Bool) : Nat :=
  let own := (List.range 48).filter fun p => m.ten.pods[p]? == some (.ten (ctxOf m c).ten)
  if own.all l.podMask.testBit && sharedDone then 0 else l.podMask

/-- R300, R303, R308: the first pass of a layout's expert phase cut: an early unit for each local queue, as far as the pods
allow.  A queue left without one that has no token returns at once. -/
def cutEarly (fs : FlashState) (s : Step) (l : Layout) (mask : Nat) (m : Mach) : Mach :=
  if l.passCut then m
  else
    let t := (ctxOf m s.ctx).ten
    let b := l.openRound % 2
    let qs := (localQueues m s.ctx l).filter fun k => let x := bufOf k b; x.round == l.openRound && !x.acted && !x.faulted
    m |> modLayout s.ctx l.blk.layer (fun l => { l with startTick := m.tick.count + 1, passCut := true })
      |> forEach (qs.zip (openPeas m s.ctx mask)) (fun x m =>
          m |> placeExpert s.ctx s.seq s.main.phase x.1 l.blk b 0 true x.2
            |> modBuf t x.1.num b (fun y => { y with earlyCut := true }))
      |> forEach qs (fun k => settleQueue fs t k.num b)

/-- R301: follow-on units of a context's queues cut on the peas at hand. -/
def cutFollow (c : Nat) (l : Layout) (mask : Nat) (m : Mach) : Mach :=
  let seq := if l.isOpen then l.openSeq else 0
  let phase := ((findStep m c seq).map (·.main.phase)).getD 0
  let ks := (localQueues m c l).flatMap fun k => (bufOf k (k.expected % 2)).todo.map fun u => (k, u)
  forEach (ks.zip (openPeas m c mask)) (fun x m =>
    let b := x.1.1.expected % 2
    m |> placeExpert c seq phase x.1.1 l.blk b x.1.2 false x.2
      |> modBuf (ctxOf m c).ten x.1.1.num b (fun y => { y with todo := y.todo.filter (· != x.1.2) })) m

/-- R306: the shared phase of a step in progress. -/
def cutShared (fs : FlashState) (l : Layout) (c q : Nat) (m : Mach) : Mach :=
  match findStep m c q with
  | none => m
  | some s =>
    if !s.expCut || sharedEnd l s.main.phase ≤ s.shared.phase || (l.orderMode == 2 && !expertDue m c l.blk.layer) then m
    else
      let m := noteDev (ctxOf m c).ten (s.blk.plan + 64 * s.shared.phase) 64 m
      match phaseAt m s s.shared.phase with
      | none => m
      | some ph =>
        if (expertOf m c ph).isSome then failCut s .invalid (2 ^ 8 * s.shared.phase) m
        else if s.shared.placed < ph.peas && (s.shared.placed != 0 || unitsGone m c q s.shared.phase) then
          cutUnitsOf fs 0 (sharedEnd l s.main.phase) false s ph m
        else m

/-- R307: the shared phases of a step's expert phase have completed. -/
def sharedOver (s : Step) (l : Layout) : Bool := min (sharedEnd l s.main.phase) s.blk.phases ≤ s.shared.phase

/-- R301: the completion of a buffer's round acted on: its remaining units are those to cut. -/
def actRound (t : Nat) (k : Queue) (b : Nat) : Mach → Mach :=
  modBuf t k.num b fun x =>
    if !x.complete || x.acted || x.faulted then x
    else { x with acted := true, todo := (List.range (roundUnits k x)).filter fun u => !(u == 0 && x.earlyCut) }

/-- R183: a unit of a context was put off, and the context's later units stay behind it. -/
def hasDeferred (m : Mach) (c : Nat) : Bool := m.stp.steps.any fun s => s.ctx == c && s.deferred && !s.cutDone

/-- R301, R306: the rounds of a queue that have completed acted on, and the units left of the one in service cut on the pods at
hand, behind the shared phase where EXP_SHARED says so. -/
def followOn (fs : FlashState) (t q : Nat) (m : Mach) : Mach :=
  match findQueue m t q with
  | none => m
  | some k =>
    let b := k.expected % 2
    let m := m |> actRound t k 0 |> actRound t k 1 |> settleQueue fs t q b
    match queueLayout m k, findQueue m t q with
    | some l, some k =>
      if (bufOf k (k.expected % 2)).todo.isEmpty || hasDeferred m k.ctx then m
      else
        let sharedGone := ((findStep m k.ctx l.openSeq).map (sharedOver · l)).getD true
        m |> assignPods t |> onlyIf (l.isOpen && l.orderMode == 1) (cutShared fs l k.ctx l.openSeq)
          |> cutFollow k.ctx l (expertMask m k.ctx l sharedGone)
    | _, _ => m

/-- R183, R300, R306, R307: an expert phase's units, in the order of its schedule, behind one that was put off. -/
def cutExpert (fs : FlashState) (s : Step) (l : Layout) (m : Mach) : Mach :=
  if !l.isOpen then m
  else
    let mask := expertMask m s.ctx l (sharedOver s l)
    let mark := modStep s.ctx s.seq fun s =>
      if s.expCut then s else { s with expCut := true, shared := { phase := s.main.phase + 1 } }
    let routed := onlyIf (!s.deferred) fun m => m |> cutEarly fs s l mask |> cutFollow s.ctx l mask
    if l.orderMode = 1 then m |> mark |> cutShared fs l s.ctx s.seq |> routed
    else m |> mark |> routed |> cutShared fs l s.ctx s.seq

/-- R292: the phase that must not be an expert phase, if there is one. -/
def planFault (m : Mach) (s : Step) (l : Layout) : Option Nat :=
  if s.main.phase = 0 then some 0
  else ((List.range l.blk.sharedPhases).map (s.main.phase + 1 + ·)).find? fun p =>
    ((phaseAt m s p).bind (expertOf m s.ctx)).isSome

/-- R183: a unit of an earlier step of the context was put off, and the later ones stay behind it. -/
def behindDeferred (m : Mach) (c q : Nat) : Bool :=
  ((m.stp.steps.filter (·.ctx == c)).takeWhile (·.seq != q)).any fun s => s.deferred && !s.cutDone

/-- R48, R273: Turnip cuts what a step has ready for the next boundary; none in FAULT (R21). -/
def unitCut (c q : Nat) (fs : FlashState) (m : Mach) : Mach :=
  if !turnipRuns m || m.life.mode == .fault || behindDeferred m c q then m
  else
    match findStep m c q with
    | none => m
    | some s =>
      if s.cutDone && !s.expLeft.isEmpty then
        forEach ((ctxOf m c).layouts.filter fun l => l.isOpen && l.openSeq == q) (fun l m =>
          let mask := expertMask m c l true
          m |> assignPods (ctxOf m c).ten |> cutEarly fs s l mask |> cutFollow c l mask) m
      else if !s.areaDone || s.cutDone || s.fail.isSome then m
      else
        let m := assignPods (ctxOf m c).ten m
        let r := catchUp m s
        let s := r.2
        let m := modStep c q (fun _ => s) r.1
        if s.blk.phases ≤ s.main.phase then m
        else
          let m := noteDev (ctxOf m c).ten (s.blk.plan + 64 * s.main.phase) 64 m
          match planPhase m s s.main.phase with
          | .error (st, d) => failCut s st d m
          | .ok ph =>
            if ph.bad then failCut s .invalid (2 ^ 8 * s.main.phase) m
            else match expertOf m c ph with
            | some l =>
              match planFault m s l with
              | some p => failCut s .invalid (2 ^ 8 * p) m
              | none => cutExpert fs s l m
            | none =>
              if s.main.placed < ph.peas && (s.main.placed != 0 || unitsGone m c q s.main.phase) then
                cutUnitsOf fs 0 s.blk.phases true s ph m
              else m

/-! ### A step's end (R285, R305, R311) -/

/-- R285, R305: everything of a step has been cut and has completed. -/
def stepOver (m : Mach) (s : Step) : Bool :=
  let s := (catchUp m s).2
  s.areaDone && s.blk.phases ≤ s.main.phase

/-- R311: the round of an aborted step's expert phase starts, abandoned, where it has not started. -/
def abandonRound (fs : FlashState) (c q layer : Nat) (m : Mach) : Mach :=
  match findLayout m c layer with
  | none => m
  | some l => if l.isOpen then m else startRound fs c layer q true m

/-- R311: the layers of the expert phases of a step that are not complete. -/
def expertsLeft (m : Mach) (s : Step) : List Nat :=
  (List.range' s.main.phase (s.blk.phases - s.main.phase)).filterMap fun p =>
    ((phaseAt m s p).bind (expertOf m s.ctx)).map (·.blk.layer)

/-- R287, R311: a step stopped by an ABORT or a close. -/
def stopStep (fs : FlashState) (s : Step) (by_ : Nat) (m : Mach) : Mach :=
  let s := (catchUp m s).2
  let left := expertsLeft m s
  m |> withdrawUnits (fun _ u => u.ctx == s.ctx && u.seq == s.seq && u.expertQ.isNone)
    |> modStep s.ctx s.seq (fun _ => { s with cutDone := true, expLeft := left, stopBy := some by_ })
    |> forEach left.dedup (abandonRound fs s.ctx s.seq)

/-- R311: the expert rounds that an aborted step still owes, after those complete are passed. -/
def settleLeft (fs : FlashState) (s : Step) (m : Mach) : Mach :=
  let done := s.expLeft.dedup.filter (expertDone m s.ctx)
  let left := done.foldl (fun l d => l.erase d) s.expLeft
  m |> forEach done (closeRound s.ctx)
    |> modStep s.ctx s.seq (fun s => { s with expLeft := left })
    |> forEach left.dedup (abandonRound fs s.ctx s.seq)

/-- R273: UNIT_CUT. -/
def execUnitCut (ctx seq : Nat) (s : State) : Host.Outcome State Fault Refusal := onFab (unitCut ctx seq) s

end Sys2Proof.Machine
end

