-- ==== Sys2Proof/Machine/Compress.lean ====
section
/-! DEFINITION. Compression tables: banks, loads, holds and status (R224 to R230). -/

namespace Sys2Proof.Machine

/-- R224: a generation other than 0 that a bank of the context holds. -/
def bankHolds (x : Ctx) (g : Nat) : Bool := g != 0 && (x.bankA.gen == g || x.bankB.gen == g)

/-- R224: a previous bank. -/
def isPrevious (x : Ctx) (b : Bank) : Bool := b.gen != 0 && b.gen != x.cmpCurrent

/-- R226: the units cut with a generation and not finalised, those that have ended and are not acted on included. -/
def bankRefs (m : Mach) (c g : Nat) : Nat :=
  (cutUnits m).countP (fun u => u.ctx == c && u.gen == g) + m.lat.dones.countP fun d => d.ctx == c && d.gen == g

/-- R226: the count of a bank. -/
def bankCount (m : Mach) (c : Nat) (b : Bank) : Nat := bankRefs m c b.gen + b.holds

/-- Table 9.6: a previous bank with no reference freed. -/
def freeBank (c n : Nat) (m : Mach) : Mach :=
  let x := ctxOf m c
  let b := if n = 0 then x.bankA else x.bankB
  if isPrevious x b && bankCount m c b == 0 then
    { m with cmp := { m.cmp with freed := bump 16 1 m.cmp.freed } }
      |> modCtx c (fun x => if n = 0 then { x with bankA := {} } else { x with bankB := {} })
      |> emit c 0x38 c (le 1 b.gen ++ le 1 n ++ le 2 b.tcrc ++ le 1 x.cmpCurrent)
  else m

/-- R226: the previous banks of a context freed, after class 5. -/
def freeBanks (c : Nat) (m : Mach) : Mach := m |> freeBank c 0 |> freeBank c 1

/-- R228: a load that ends without installing anything; R233 counts those finalised NO_BANK. -/
def refuseLoad (c q : Nat) (st : Status) (d : Nat) (m : Mach) : Mach :=
  { m with cmp := { m.cmp with refused := if st == .noBank then bump 16 1 m.cmp.refused else m.cmp.refused } }
    |> modCtx c (fun x => { x with cmpPending := none }) |> finalise c q st d

/-- R228 step 4: a table put into the bank that is not current. -/
def installTable (g : Nat) (lens : List Nat) (x : Ctx) : Ctx :=
  let b : Bank := { gen := g, lens, tcrc := tableCrc lens }
  if x.bankA.gen = 0 || x.bankA.gen ≠ x.cmpCurrent then { x with bankA := b, cmpCurrent := g }
  else { x with bankB := b, cmpCurrent := g }

/-- R228: a load whose fetch has ended is resolved. -/
def resolveLoad (c : Nat) (m : Mach) : Mach :=
  let x := ctxOf m c
  match x.cmpPending with
  | none => m
  | some l =>
    if !l.done then m
    else
      match l.image with
      | none => refuseLoad c l.seq .poisoned 5 m
      | some img =>
        match imageLens img with
        | none => refuseLoad c l.seq .invalid 0 m
        | some lens =>
          if isPrevious x x.bankA || isPrevious x x.bankB then refuseLoad c l.seq .noBank x.cmpCurrent m
          else
            { m with cmp := { m.cmp with loads := bump 16 1 m.cmp.loads } }
              |> modCtx c (fun x => { installTable l.gen lens x with cmpPending := none }) |> finalise c l.seq .ok l.gen

/-- R227: CMP_TABLE_LOAD LOAD. -/
def pktCmpTableLoad (h : Hdr) (gen ptr : Nat) : Packet :=
  packet { op := 0x70, expert := true, tenant := true } h
    (fun m => let x := ctxOf m h.ctx
      1 ≤ gen && gen ≤ 15 && gen != x.cmpCurrent && !bankHolds x gen && x.cmpPending.isNone && ptr % 16 == 0)
    (fun _ m =>
      m |> modCtx h.ctx (fun x => { x with cmpPending := some { seq := h.seq, gen } }) |> askHost (.table h.ctx) ptr 144)

/-- R228: STANDARD.  DEDUCED (log 14): like a load, it is refused while a previous bank holds a table. -/
def pktCmpTableStandard (h : Hdr) : Packet :=
  packet { op := 0x70, expert := true, tenant := true } h (fun m => (ctxOf m h.ctx).cmpPending.isNone)
    (fun _ m =>
      let x := ctxOf m h.ctx
      if isPrevious x x.bankA || isPrevious x x.bankB then refuseLoad h.ctx h.seq .noBank x.cmpCurrent m
      else m |> modCtx h.ctx (fun x => { x with cmpCurrent := 0 }) |> reply h .ok 0)

/-- The holds of a generation's bank changed. -/
def holdBank (gen : Nat) (f : Nat → Nat) (x : Ctx) : Ctx :=
  if x.bankA.gen = gen then { x with bankA := { x.bankA with holds := f x.bankA.holds } }
  else { x with bankB := { x.bankB with holds := f x.bankB.holds } }

/-- The holds of a generation's bank. -/
def holdsOf (x : Ctx) (gen : Nat) : Nat := if x.bankA.gen = gen then x.bankA.holds else x.bankB.holds

/-- R228: HOLD. -/
def pktCmpTableHold (h : Hdr) (gen : Nat) : Packet :=
  packet { op := 0x70, expert := true, tenant := true } h
    (fun m => let x := ctxOf m h.ctx; h.ctx == 0 || (bankHolds x gen && holdsOf x gen < 255))
    (fun _ m => m |> modCtx h.ctx (holdBank gen (· + 1)) |> reply h .ok (holdsOf (ctxOf m h.ctx) gen + 1))

/-- R228: UNHOLD. -/
def pktCmpTableUnhold (h : Hdr) (gen : Nat) : Packet :=
  packet { op := 0x70, expert := true, tenant := true } h
    (fun m => let x := ctxOf m h.ctx; h.ctx == 0 || (bankHolds x gen && 1 ≤ holdsOf x gen))
    (fun _ m => m |> modCtx h.ctx (holdBank gen (· - 1)) |> reply h .ok (holdsOf (ctxOf m h.ctx) gen - 1))

/-- Table 9.5: a bank. -/
def bankBytes (m : Mach) (c : Nat) (b : Bank) : List Byte :=
  let x := ctxOf m c
  le 1 b.gen ++ le 1 (if b.gen = 0 then 0 else if b.gen = x.cmpCurrent then 1 else 2) ++ le 1 b.holds ++ zeros 1 ++
    le 4 (if b.gen = 0 then 0 else bankRefs m c b.gen)

/-- Table 9.5: CMP_TABLE_STATUS. -/
def pktCmpTableStatus (h : Hdr) (outPtr : Nat) : Packet :=
  packet { op := 0x71 } h (fun _ => outPtr % 32 == 0)
    (fun _ m =>
      let x := ctxOf m h.ctx
      m |> putHost outPtr (padTo 32 (le 1 x.cmpCurrent ++ zeros 3 ++ bankBytes m h.ctx x.bankA ++ bankBytes m h.ctx x.bankB ++
              le 2 x.bankA.tcrc ++ le 2 x.bankB.tcrc))
        |> reply h .ok x.cmpCurrent)

/-- R227: CMP_TABLE_LOAD LOAD. -/
def execCmpTableLoad (h : Hdr) (gen tablePtr : Nat) (s : State) : Host.Outcome State Fault Refusal :=
  runPacket (pktCmpTableLoad h gen tablePtr) s
/-- R228: CMP_TABLE_LOAD STANDARD. -/
def execCmpTableStandard (h : Hdr) (s : State) : Host.Outcome State Fault Refusal := runPacket (pktCmpTableStandard h) s
/-- R228: CMP_TABLE_LOAD HOLD. -/
def execCmpTableHold (h : Hdr) (gen : Nat) (s : State) : Host.Outcome State Fault Refusal := runPacket (pktCmpTableHold h gen) s
/-- R228: CMP_TABLE_LOAD UNHOLD. -/
def execCmpTableUnhold (h : Hdr) (gen : Nat) (s : State) : Host.Outcome State Fault Refusal := runPacket (pktCmpTableUnhold h gen) s
/-- Table 9.5: CMP_TABLE_STATUS. -/
def execCmpTableStatus (h : Hdr) (outPtr : Nat) (s : State) : Host.Outcome State Fault Refusal :=
  runPacket (pktCmpTableStatus h outPtr) s

end Sys2Proof.Machine
end

