-- ==== Sys2Proof/Machine/Links.lean ====
section
/-! DEFINITION. Link ports: flits and replay, training, identity, the rack plan, checking a port, lanes
(chapter 13, R35). -/

namespace Sys2Proof.Machine

/-! ### Flits and replay (R314 to R318) -/

/-- R322, R358: a port that was `x` has left ACTIVE: LINK_DOWN goes out on the others, and is evidence here too. -/
def leaveActive (p : Nat) (x : Port) (m : Mach) : Mach :=
  if x.state == .active then
    match x.peer with
    | none => m
    | some i => m |> ownNotice (.linkDown p i.node) |> noteDown i.node (selfNode m) p
  else m

/-- R322: a port goes DOWN, or FAILED; that is latched as class 3, except from DETECT. -/
def portGoes (p : Nat) (st : PortState) (m : Mach) : Mach :=
  let x := portOf m p
  let m := m |> modPort p (fun x =>
    { x with state := st, qcause := 0, width := 0, proto := 0, peer := none, accepted := false, selfPass := false
             relock := false, waiting := false, rxNext := 0, txNext := 0, nakking := false, replayBuf := [], txWait := []
             laneMap := [], txMap := [], spares := 0, laneErrs := []
             causes := x.causes ||| (if st == .failed then 64 else 2) ||| (if x.state == .quarantine then 32 else 0)
             changed := x.changed || x.state != st })
    |> leaveActive p x
  if x.state == .detect || x.state == st then m
  else m |> modLat (fun l => { l with portDown := l.portDown ++ [p] }) |> capture 0x0A 3 p (le 1 (portCode st))

/-- R316, R317: the unacknowledged flits resent, each one transmission more; one already sent 16 times takes the port
down. -/
def resendFrom (p : Nat) (m : Mach) : Mach :=
  let x := portOf m p
  match x.replayBuf with
  | [] => m
  | s :: _ =>
    if x.replayBuf.any (16 ≤ ·.2) then portGoes p .down m
    else
      m |> modPort p (fun x => { x with replayBuf := x.replayBuf.map fun f => (f.1, f.2 + 1)
                                        replayed := bump 32 x.replayBuf.length x.replayed })
        |> send (.linkResend p s.1)

/-- R316: flits acknowledged up to `ack` leave the replay buffer, and those held back take their room. -/
def ackFlits (p ack : Nat) (m : Mach) : Mach :=
  m |> modPort p (fun x =>
      if x.replayBuf.any (·.1 == ack) then { x with replayBuf := (x.replayBuf.dropWhile (·.1 != ack)).tail } else x)
    |> drainPort p

/-- R319: the flit kinds that a port carries in its state. -/
def carries (st : PortState) (kind : Nat) : Bool :=
  match st with
  | .active => kind ≤ 3
  | .identify | .check | .quarantine => kind == 0 || kind == 2
  | _ => false

/-! ### Lanes (R313, R333) -/

/-- The healthy physical lanes of a mask of failed ones. -/
def healthy (failed : Nat) : List Nat := (List.range 18).filter fun i => !failed.testBit i

/-- R313: the lanes of a freshly trained port: each logical lane on its own, or on the lowest healthy spare. -/
def trainMap (failed : Nat) : List Nat :=
  ((List.range 16).foldl (fun (a : List Nat × List Nat) i =>
    if failed.testBit i then (a.1 ++ [a.2.headD 17], a.2.tail) else (a.1 ++ [i], a.2))
    ([], [16, 17].filter fun i => !failed.testBit i)).1

/-- A change of lanes or width latched for the boundary's LINK_STATE, and recorded (Table 19.2). -/
def noteLanes (p cause : Nat) (m : Mach) : Mach :=
  m |> modLat (fun l => { l with portLanes := l.portLanes ++ [(p, cause)] }) |> capture 0x0A 5 p (le 1 (portOf m p).width ++ le 1 cause)

/-- R333: a port at width 8 with both directions on their lowest healthy lanes. -/
def narrow (x : Port) : Port :=
  { x with width := 8, laneMap := (healthy x.rxFailed).take 8, spares := (healthy x.rxFailed).length - 8
           txMap := (healthy x.txFailed).take 8 }

/-- R333: both directions drop to width 8, or the port goes DOWN where either has fewer than 8 healthy lanes; a
failure while the lanes re-lock is counted in the change (R336). -/
def dropWidth (p : Nat) (m : Mach) : Mach :=
  let x := portOf m p
  if (healthy x.rxFailed).length < 8 || (healthy x.txFailed).length < 8 then portGoes p .down m
  else if x.relock then modPort p narrow m
  else m |> modPort p (fun x => { narrow x with widthDrop := bump 8 1 x.widthDrop, relock := true }) |> noteLanes p 3

/-- R333: a receive lane fails: its logical lane moves to the lowest healthy spare, or the width drops and the partner
is told so. -/
def laneFails (p lane : Nat) (m : Mach) : Mach :=
  let x := portOf m p
  if x.width = 0 || 18 ≤ lane || x.rxFailed.testBit lane then m
  else
    let failed := x.rxFailed ||| 2 ^ lane
    let m := modPort p (fun x => { x with rxFailed := failed, spares := (healthy failed).length - x.width }) m
    match x.laneMap.findIdx? (· == lane) with
    | none => m
    | some i =>
      match (healthy failed).find? fun l => !x.laneMap.contains l with
      | some sp =>
        if x.relock then dropWidth p m
        else
          m |> modPort p (fun x => { x with laneMap := x.laneMap.set i sp, subst := bump 8 1 x.subst })
            |> linkSend p (.linkLane p i sp) |> noteLanes p 2
      | none => m |> onlyIf (!x.relock) (linkSend p (.linkNarrow p i)) |> dropWidth p

/-- R333: lane control from the partner: this transmitter moves a logical lane to the spare named, or, where its
partner has no spare left (18), drops with it to width 8. -/
def laneSubstitute (p logical spare : Nat) (m : Mach) : Mach :=
  let x := portOf m p
  match x.txMap[logical]? with
  | none => m
  | some old =>
    let m := modPort p (fun x => { x with txFailed := x.txFailed ||| 2 ^ old }) m
    if 18 ≤ spare then dropWidth p m
    else m |> modPort p (fun x => { x with txMap := x.txMap.set logical spare, subst := bump 8 1 x.subst }) |> noteLanes p 2

/-- R333: the lanes of a narrowed port have locked again: it resumes with replay, and the flits held back follow. -/
def relockDone (p : Nat) (m : Mach) : Mach :=
  if (portOf m p).relock then m |> modPort p (fun x => { x with relock := false }) |> resendFrom p |> drainPort p else m

/-- R333: the symbols corrected on each lane within any 1 ms, and the lanes that this takes past LANE_ERR_MAX. -/
def laneErrors (p us : Nat) (lanes : List Nat) (m : Mach) : Mach :=
  let m := modPort p (fun x =>
    { x with laneErrs := x.laneErrs.filter (fun e => us < e.1 + 1000) ++ lanes.map fun l => (us, l) }) m
  let past := (List.range 18).filter fun l => m.link.laneErrMax < (portOf m p).laneErrs.countP (·.2 == l)
  forEach past (laneFails p) m

/-! ### Flits received -/

/-- Table 13.1: a flit's sequence number. -/
def flitSeq (f : Flit) : Nat := field f.bytes 0 2 % 4096
/-- Table 13.1: KIND. -/
def flitKind (f : Flit) : Nat := field f.bytes 0 2 / 4096
/-- Table 13.1: the last sequence number that the partner received in order. -/
def flitAck (f : Flit) : Nat := field f.bytes 2 2 % 4096
/-- Table 13.1: NAK. -/
def flitNak (f : Flit) : Bool := (field f.bytes 2 2).testBit 12
/-- Table 13.1: CREDIT. -/
def flitCredit (f : Flit) : Nat := field f.bytes 4 2

/-- Table 13.1: the flit's CRC holds. -/
def flitCrcOk (f : Flit) : Bool := field f.bytes 248 8 == crc64 (f.bytes.take 248)

/-- R314: some codeword of the flit has more symbols in error than FEC corrects. -/
def flitUncorrectable (f : Flit) : Bool := f.damaged || f.codewords.any (15 < ·.length)

/-- R337: the codewords and the flit counted. -/
def countFlit (p : Nat) (f : Flit) : Mach → Mach :=
  modPort p fun x =>
    { x with fecCorr := bump 32 (f.codewords.countP fun c => 0 < c.length && c.length ≤ 15) x.fecCorr
             fecUncorr := bump 16 (f.codewords.countP (15 < ·.length)) x.fecUncorr
             crcFail := if !flitUncorrectable f && !flitCrcOk f then bump 16 1 x.crcFail else x.crcFail
             tickDrop := if (flitUncorrectable f || !flitCrcOk f) && flitKind f == 3 then bump 8 1 x.tickDrop else x.tickDrop }

/-- R316: NAK set, with the last sequence number delivered. -/
def nakFlits (p : Nat) (m : Mach) : Mach :=
  m |> modPort p (fun x => { x with nakking := true }) |> send (.linkAck p (wrap 12 ((portOf m p).rxNext + 4095)) true)

/-- R316, R318: a sound flit of a kind that the port carries: its acknowledgement taken, its payload delivered in
sequence. -/
def takeFlit (p : Nat) (f : Flit) (m : Mach) : Mach :=
  let m := m |> modPort p (fun x => { x with credit := sat 16 (x.credit + flitCredit f) }) |> ackFlits p (flitAck f)
    |> onlyIf (flitNak f) (resendFrom p)
  let hand := send (.flitPayload p (flitKind f) ((f.bytes.drop 6).take 242))
  if flitKind f = 0 then m
  else if flitKind f = 3 then hand m
  else if flitSeq f = (portOf m p).rxNext then
    m |> modPort p (fun x => { x with rxNext := wrap 12 (flitSeq f + 1), nakking := false }) |> hand |> send (.linkAck p (flitSeq f) false)
  else nakFlits p m

/-- R314, R316, R318, R333, R337: a flit received by a port whose lanes are locked. -/
def receiveFlit (p : Nat) (f : Flit) (m : Mach) : Mach :=
  if !carries (portOf m p).state 2 then m
  else
    let m := m |> countFlit p f
    let m := if flitUncorrectable f || !flitCrcOk f then nakFlits p m
      else if carries (portOf m p).state (flitKind f) then takeFlit p f m else m
    laneErrors p (m.tick.nowUs + f.atUs) (f.codewords.filter (·.length ≤ 15)).flatten m

/-! ### Training (R319 to R324) -/

/-- R320, R321: the part of an offset or a wait that the node number sets: 1 ms × (node number mod 8). -/
def nodeUs (m : Mach) : Nat := 1000 * (selfNode m % 8)

/-- A port enters DETECT. -/
def toDetect (m : Mach) (x : Port) : Port := { x with state := .detect, waiting := false, detectUs := m.tick.nowUs }

/-- R320: a port starts DETECT, once links are enabled and its offset has passed. -/
def detectStart (p : Nat) (m : Mach) : Mach :=
  if m.link.enabled && (portOf m p).state == .down && due m m.link.enabledUs (8000 * p + nodeUs m) then modPort p (toDetect m) m
  else m

/-- R319: a port that listens in DETECT detects a partner. -/
def partnerDetect (p : Nat) : Mach → Mach :=
  modPort p fun x => if x.state == .detect && !x.waiting then { x with state := .equalize } else x

/-- R321: an attempt fails; the wait before the next begins. -/
def attemptFails (p : Nat) (lock : Bool) (m : Mach) : Mach :=
  let x := portOf m p
  let lf := if lock then x.lockFails + 1 else 0
  let dead := 8 ≤ x.fails + 1 || 2 ≤ lf
  let m := modPort p (fun x => { x with fails := x.fails + 1, lockFails := lf, trainFail := bump 8 1 x.trainFail }) m
  if dead then portGoes p .failed m
  else modPort p (fun x => { toDetect m x with waiting := true, waitUs := m.tick.nowUs, width := 0, proto := 0
                                               laneMap := [], txMap := [] }) m

/-- R321: the wait of 50 ms + 1 ms × (node number mod 8) after a failed attempt ends. -/
def retryTimer (p : Nat) (m : Mach) : Mach :=
  let x := portOf m p
  if x.state == .detect && x.waiting && due m x.waitUs (50000 + nodeUs m) then modPort p (fun x => { x with waiting := false }) m
  else m

/-- This module's identity block (Table 13.4). -/
def ownIdent (m : Mach) (p : Nat) : Ident :=
  { node := selfNode m % 4096, port := p, planLoaded := m.link.plan.isSome, proto := m.life.proto, serial := Config.serial
    fwRev := m.life.fwRev, planId := (m.link.plan.map (·.id)).getD 0 }

/-- R5, Table 13.4: the 64 bytes of an identity block, each field little-endian. -/
def identBytes (i : Ident) : List Byte :=
  padTo 64 (le 1 0x10 ++ le 1 0x01 ++ le 2 i.node ++ le 1 i.port ++ le 1 (bit i.planLoaded) ++ le 2 i.proto ++
    le 8 i.serial ++ le 4 i.fwRev ++ zeros 4 ++ le 8 i.planId)

/-- R323, Table 13.4: an identity block read; none where its TYPE, FORMAT or PORT is reserved or a zero field is not
zero. -/
def identOf (b : List Byte) : Option Ident :=
  let i : Ident :=
    { node := field b 2 2 % 4096, port := field b 4 1, planLoaded := (field b 5 1).testBit 0, proto := field b 6 2
      serial := field b 8 8, fwRev := field b 16 4, planId := field b 24 8 }
  if b.length == 64 && i.port ≤ 5 && identBytes i == b then some i else none

/-- R319, R321: EQUALIZE ends with `lanes` lanes locked; a lane that failed before counts only after a PORT_RESET or a
module reset (R333). -/
def equalizeDone (p lanes failed : Nat) (m : Mach) : Mach :=
  let x := portOf m p
  let bad := x.rxFailed ||| failed % 2 ^ 18
  if x.state != .equalize then m
  else if lanes < 16 || (healthy bad).length < 16 then attemptFails p true m
  else
    m |> modPort p (fun x =>
          { x with state := .identify, width := 16, lockFails := 0, rxFailed := bad, spares := (healthy bad).length - 16
                   laneMap := trainMap bad, txMap := trainMap x.txFailed, gotIdent := false, echoed := false })
      |> linkSend p (.linkIdent p (identBytes (ownIdent m p)))

/-- R324: the version that two ends agree on; 0 for none. -/
def agreed (a b : Nat) : Nat := if a ≤ b + 2 && b ≤ a + 2 then min a b else 0

/-- R322: IDENTIFY is complete once the identity block has come and the echo measurement is made. -/
def identified (p : Nat) (m : Mach) : Mach :=
  let x := portOf m p
  match x.peer with
  | some i =>
    if x.state == .identify && x.gotIdent && x.echoed then
      m |> modPort p (fun x => { x with state := .check, fails := 0 })
        |> modLat (fun l => { l with portCheck := l.portCheck ++ [p] })
        |> capture 0x0A 5 p (le 2 i.node ++ le 1 i.port ++ le 8 i.serial ++ le 2 i.proto)
    else m
  | none => m

/-- The partner's identity block taken, with the version agreed. -/
def takeIdent (i : Ident) (m : Mach) (x : Port) : Port := { x with peer := some i, proto := agreed m.life.proto i.proto, gotIdent := true }

/-- R322, R323, R330: an identity block received. -/
def identityReceive (p : Nat) (block : List Byte) (m : Mach) : Mach :=
  let x := portOf m p
  match x.state, identOf block with
  | .identify, none => attemptFails p false m
  | .identify, some i => m |> modPort p (takeIdent i m) |> identified p
  | .check, some i | .active, some i | .quarantine, some i =>
    if x.peer == some i then m
    else
      m |> modPort p (takeIdent i m) |> modLat (fun l => { l with portCheck := l.portCheck ++ [p] })
        |> capture 0x0A 5 p (le 2 i.node ++ le 1 i.port ++ le 8 i.serial ++ le 2 i.proto)
  | _, _ => m

/-- R35: a port's one-way delay measured by an echo exchange, which completes IDENTIFY with the identity block. -/
def delayMeasure (p ns : Nat) (m : Mach) : Mach :=
  if carries (portOf m p).state 2 then m |> modPort p (fun x => { x with delayNs := sat 16 ns, echoed := true }) |> identified p
  else m

/-- R321: IDENTIFY did not complete in 1 ms. -/
def identifyTimeout (p : Nat) (m : Mach) : Mach := if (portOf m p).state == .identify then attemptFails p false m else m

/-! ### The rack plan (R325 to R327) -/

/-- A node entry with what its zero fields hold. -/
structure PlanRaw where
  n : PlanNode
  zero : Bool
deriving DecidableEq, Repr

/-- Table 13.6: a node entry. -/
def readNode (b : List Byte) : PlanRaw :=
  let peer := fun (p : Nat) => field b (16 + 2 * p) 2
  { n := { node := field b 0 2 % 4096, x := field b 2 2 % 16, y := field b 2 2 / 16 % 16, z := field b 2 2 / 256 % 16,
           tray := field b 4 2, serial := field b 8 8
           peers := (List.range 6).map fun p =>
             let v := peer p
             if v / 2 ^ 15 = 1 then some (v % 4096, v / 4096 % 8) else none }
    zero := field b 0 2 < 4096 && field b 2 2 < 4096 && field b 4 2 < 4096 && field b 6 2 == 0 && field b 28 4 == 0
      && (List.range 6).all fun p => let v := peer p; v / 2 ^ 15 == 1 || v == 0 }

/-- R325: the entry at an index is in order and agrees with the rest. -/
def nodeOk (ns : List PlanRaw) (dx dy dz i : Nat) : Bool :=
  match ns[i]? with
  | none => false
  | some r =>
    let earlier := ns.take i
    r.zero && r.n.x < dx && r.n.y < dy && r.n.z < dz
      && earlier.all (fun e => e.n.node < r.n.node && (e.n.x, e.n.y, e.n.z) != (r.n.x, r.n.y, r.n.z))
      && earlier.countP (fun e => e.n.tray == r.n.tray) < 8
      && r.n.peers.zipIdx.all fun p =>
          match p.1 with
          | none => true
          | some (node, port) => ns.any fun e => e.n.node == node && (e.n.peers[port]?).join == some (r.n.node, p.2)

/-- R325: a plan image checked for this module: the plan, or the index of the first failing entry. -/
def parsePlan (m : Mach) (img : List Byte) : Except Nat Plan :=
  let n := field img 8 2
  let dx := field img 10 1
  let dy := field img 11 1
  let dz := field img 12 1
  let dim := fun (d : Nat) => decide (1 ≤ d ∧ d ≤ 16)
  let ns := (chunksOf 32 n (img.drop 64)).map readNode
  let headOk := field img 0 1 == 1 && field img 1 3 == 0 && 1 ≤ n && n ≤ 4096 && img.length == 64 + 32 * n
    && dim dx && dim dy && dim dz && allZero ((img.drop 13).take 51)
    && (match m.fab.node with
        | some k => ns.any fun e => e.n.node == k
        | none => false)
  if !headOk then .error 0xFFFFFF
  else
    match (List.range n).find? fun i => !nodeOk ns dx dy dz i with
    | some i => .error i
    | none => .ok { rev := field img 4 4, dx, dy, dz, nodes := ns.map (·.n), id := unle ((sha256 img).take 8) }

/-! ### Checking a port (R328 to R332) -/

/-- R335: a port put into a state with a cause, its changes kept for its event. -/
def setPort (p : Nat) (st : PortState) (q : Nat) (m : Mach) : Mach :=
  let x := portOf m p
  let up := st == .active && x.state != .active
  let bits := (if up then 1 else 0) + (if st == .quarantine && x.state != .quarantine then 16 else 0) +
    (if x.state == .quarantine && st != .quarantine then 32 else 0)
  let m := modPort p (fun x => { x with state := st, qcause := q, causes := x.causes ||| BitVec.ofNat 8 bits
                                        changed := x.changed || x.state != st || x.qcause != q }) m
    |> onlyIf (st != .active) (leaveActive p x)
  if up && m.fab.ready then
    m |> linkSend p (.notice p { origin := selfNode m, number := m.fab.noticeNo, kind := .fabricReady m.fab.epoch })
      |> modFab (fun f => { f with noticeNo := wrap 16 (f.noticeNo + 1), seen := (selfNode m, f.noticeNo) :: f.seen })
  else m

/-- R328: what a port's partner should be: node, port and serial. -/
def expected (m : Mach) (p : Nat) : Option (Nat × Nat × Nat) :=
  match (m.link.overrides[p]?).join with
  | some o => some o
  | none =>
    ((planNode m (selfNode m)).bind fun n => (n.peers[p]?).join).bind fun q =>
      (planNode m q.1).map fun k => (q.1, q.2, k.serial)

/-- R329: a port put into QUARANTINE, with a withdraw notice as it enters. -/
def toQuarantine (p q : Nat) (m : Mach) : Mach :=
  m |> onlyIf ((portOf m p).state != .quarantine) (linkSend p (.linkWithdraw p)) |> setPort p .quarantine q

/-- R329: a port whose check failed is quarantined; an acceptance given before is withdrawn. -/
def quarantine (p q : Nat) (m : Mach) : Mach :=
  let x := portOf m p
  m |> onlyIf (x.state == .quarantine && x.selfPass) (linkSend p (.linkWithdraw p)) |> toQuarantine p q
    |> modPort p (fun x => { x with selfPass := false })

/-- R335: the one event of a port's check at a boundary, written after its LINK_STATE. -/
def portNote (p typ : Nat) (body : List Byte) : Mach → Mach := modPort p fun x => { x with notes := [(typ, body)] }

/-- R329: a port whose own check has passed goes to ACTIVE where the partner accepts, and otherwise to QUARANTINE; its
accept notice is the last that it sends. -/
def passPort (p : Nat) (m : Mach) : Mach :=
  (if (portOf m p).accepted then setPort p .active 0 m else toQuarantine p 5 m)
    |> linkSend p (.linkAccept p) |> modPort p (fun x => { x with selfPass := true })

/-- R328: a port's check acted on. -/
def checkPort (p : Nat) (m : Mach) : Mach :=
  let x := portOf m p
  match x.peer with
  | none => m
  | some i =>
    if !(x.state == .check || x.state == .active || x.state == .quarantine) then m
    else if x.proto = 0 then
      m |> quarantine p 4 |> portNote p 0x42 (le 1 p ++ le 2 m.life.proto ++ le 2 i.proto ++ le 2 i.node ++ le 4 i.fwRev)
    else if m.link.plan.isNone then quarantine p 1 m
    else
      match expected m p with
      | none =>
        m |> quarantine p 3 |> portNote p 0x41 (le 1 p ++ le 1 2 ++ le 2 0xFFFF ++ le 1 0xFF ++ le 1 0 ++ le 2 i.node ++ le 1 i.port ++ le 8 i.serial)
      | some (node, port, serial) =>
        let diff := bit (node != i.node) + 2 * bit (port != i.port) + 4 * bit (serial != i.serial)
        if diff ≠ 0 then
          m |> quarantine p 2
            |> portNote p 0x41 (le 1 p ++ le 1 1 ++ le 2 node ++ le 1 port ++ le 1 diff ++ le 2 i.node ++ le 1 i.port ++ le 8 i.serial)
        else
          passPort p m

/-- R329: the partner's notice acted on. -/
def actNotice (p : Nat) (accept : Bool) (m : Mach) : Mach :=
  let x := portOf m p
  if !(x.state == .check || x.state == .active || x.state == .quarantine) then m
  else
    let m := modPort p (fun x => { x with accepted := accept }) m
    if accept && x.selfPass && x.state == .quarantine then setPort p .active 0 m
    else if !accept && x.state == .active then passPort p m
    else m

/-- R331: every port checked again. -/
def recheck (m : Mach) : Mach := forEach (List.range 6) checkPort m

/-- The ports in a state, as a mask. -/
def portMask (m : Mach) (q : Port → Bool) : Nat := maskOf ((List.range 6).filter fun p => q (portOf m p))

/-- R326: a plan image resolved: the one in force replaced, or why not. -/
def resolvePlan (img : Option (List Byte)) (m : Mach) : Status × Nat × Mach :=
  match img with
  | none => (.poisoned, 5, m)
  | some bs =>
    match parsePlan m bs with
    | .error i => (.invalid, 2 ^ 8 * i, m)
    | .ok pl =>
      let m := recheck { m with link := { m.link with plan := some pl, overrides := List.replicate 6 none } }
      (.ok, portMask m (·.state == .active) + 2 ^ 8 * portMask m (·.state == .quarantine), m)

/-- R326: the loads whose fetches have ended resolved, in order. -/
def resolvePlans (m : Mach) : Mach :=
  let ds := m.link.planLoads.filter (·.done)
  forEach ds (fun l m =>
    let r := resolvePlan l.image m
    finalise 0 l.seq r.1 r.2.1 r.2.2)
    { m with link := { m.link with planLoads := m.link.planLoads.filter (!·.done) } }

/-- R326: PLAN_LOAD. -/
def pktPlanLoad (h : Hdr) (ptr len : Nat) : Packet :=
  packet { op := 0x03, mgmt := true, zeroOnly := true } h
    (fun _ => ptr % 64 == 0 && 96 ≤ len && len ≤ 64 + 32 * 4096 && len % 32 == 0)
    (fun _ m =>
      { m with link := { m.link with planLoads := m.link.planLoads ++ [{ seq := h.seq, len }] } } |> askHost (.plan h.seq) ptr len)

/-- R326: PLAN_LOAD with CLEAR. -/
def pktPlanClear (h : Hdr) : Packet :=
  packet { op := 0x03, mgmt := true, zeroOnly := true } h (fun _ => true)
    (fun _ m =>
      recheck { m with link := { m.link with plan := none, overrides := List.replicate 6 none } } |> reply h .ok 0)

/-- R334: PORT_RESET. -/
def pktPortReset (h : Hdr) (ports : Nat) : Packet :=
  packet { op := 0x83, zeroOnly := true } h (fun _ => 0 < ports && ports < 64)
    (fun _ m =>
      let ps := (List.range 6).filter ports.testBit
      let m := forEach ps (fun p m =>
        m |> portGoes p .down
          |> modPort p (fun x =>
              let x := { x with fails := 0, lockFails := 0, rxFailed := 0, txFailed := 0 }
              if m.link.enabled then toDetect m x else x)) m
      { m with link := { m.link with portResets := m.link.portResets ++ [(h.seq, ports)] } })

/-- R334: a port of a PORT_RESET has come to rest: ACTIVE, QUARANTINE, FAILED, or 200 ms in DETECT. -/
def portRests (m : Mach) (p : Nat) : Bool :=
  match (portOf m p).state with
  | .active | .quarantine | .failed => true
  | .detect => (portOf m p).detectUs + 200000 ≤ m.tick.nowUs
  | _ => false

/-- R334: a PORT_RESET whose ports have all come to rest replies. -/
def finishPortReset (seq : Nat) (m : Mach) : Mach :=
  let fin := m.link.portResets.filter fun r => r.1 == seq && ((List.range 6).filter r.2.testBit).all (portRests m)
  forEach fin (fun r m =>
    let k := fun (q : Port → Bool) => maskOf ((List.range 6).filter fun p => r.2.testBit p && q (portOf m p))
    finalise 0 r.1 .ok (k (·.state == .active) + 2 ^ 8 * k (·.state == .quarantine) +
      2 ^ 16 * k (fun x => x.state == .failed || x.state == .detect)) m)
    { m with link := { m.link with portResets := m.link.portResets.filter fun r => !fin.contains r } }

/-- R332: REMAP_ACCEPT. -/
def pktRemapAccept (h : Hdr) (port node peerPort serial : Nat) : Packet :=
  packet { op := 0x84, expert := true, zeroOnly := true } h (fun _ => port ≤ 5 && node ≤ 0xFFF && peerPort ≤ 5)
    (fun _ m =>
      let x := portOf m port
      let hit := (x.qcause == 2 || x.qcause == 3) &&
        (x.peer.map fun i => i.node == node && i.port == peerPort && i.serial == serial).getD false
      if hit then
        recheck { m with link := { m.link with overrides := m.link.overrides.set port (some (node, peerPort, serial)) } }
          |> reply h .ok port
      else reply h .denied ((x.peer.map (·.node)).getD 0xFFFF) m)

/-! ### At a boundary (R322, R335, R336, R440) -/

/-- R336: a port's down or its entry into FAILED, class 3: the class 5 reports of that port are not acted on. -/
def actPortDown (p : Nat) : Mach → Mach :=
  modLat fun l => { l with portLanes := l.portLanes.filter (·.1 != p), portCheck := l.portCheck.filter (· != p)
                           portNotice := l.portNotice.filter (·.1 != p) }

/-- R333: a lane or width change of a port that is not DOWN, class 5. -/
def actPortLanes (x : Nat × Nat) : Mach → Mach :=
  modPort x.1 fun y => if y.width = 0 then y else { y with changed := true, causes := y.causes ||| BitVec.ofNat 8 (2 ^ x.2) }

/-- R320, R440: links are enabled at the first boundary at which a node number is set. -/
def enableLinks (m : Mach) : Mach :=
  if m.fab.node.isSome && !m.link.enabled then { m with link := { m.link with enabled := true, enabledUs := m.tick.nowUs } } else m

/-- R316: a flit arrives. -/
def execLinkFlitReceive (port : Nat) (f : Flit) (s : State) : Host.Outcome State Fault Refusal := onUp (receiveFlit port f) s
/-- R316: the oldest unacknowledged flit has waited 2 µs. -/
def execLinkReplayTimeout (port : Nat) (s : State) : Host.Outcome State Fault Refusal := onUp (resendFrom port) s
/-- R320: a port starts DETECT. -/
def execLinkDetectStart (port : Nat) (s : State) : Host.Outcome State Fault Refusal := onUp (detectStart port) s
/-- R319: a port detects a partner. -/
def execLinkPartnerDetect (port : Nat) (s : State) : Host.Outcome State Fault Refusal :=
  onUp (partnerDetect port) s
/-- R319: EQUALIZE ends. -/
def execLinkEqualizeDone (port lanes failed : Nat) (s : State) : Host.Outcome State Fault Refusal :=
  onUp (equalizeDone port lanes failed) s
/-- R322: an identity block arrives. -/
def execLinkIdentityReceive (port : Nat) (block : List Byte) (s : State) : Host.Outcome State Fault Refusal :=
  onUp (identityReceive port block) s
/-- R321: IDENTIFY times out. -/
def execLinkIdentifyTimeout (port : Nat) (s : State) : Host.Outcome State Fault Refusal := onUp (identifyTimeout port) s
/-- R321: the wait before the next attempt ends. -/
def execLinkRetryTimer (port : Nat) (s : State) : Host.Outcome State Fault Refusal := onUp (retryTimer port) s
/-- R329: an accept or withdraw notice arrives. -/
def execLinkNoticeReceive (port : Nat) (accept : Bool) (s : State) : Host.Outcome State Fault Refusal :=
  onUp (fun m =>
    if carries (portOf m port).state 2 then
      m |> modLat (fun l => { l with portNotice := l.portNotice ++ [(port, accept)] }) |> capture 0x0A 5 port (le 1 (bit accept))
    else m) s
/-- R333: a receive lane fails. -/
def execLinkLaneFail (port lane : Nat) (s : State) : Host.Outcome State Fault Refusal := onUp (laneFails port lane) s
/-- R333: a transmit lane moves to a spare. -/
def execLinkLaneSubstitute (port logical spare : Nat) (s : State) : Host.Outcome State Fault Refusal :=
  onUp (laneSubstitute port logical spare) s
/-- R333: a narrowed port's lanes have locked. -/
def execLinkWidthRelockDone (port : Nat) (s : State) : Host.Outcome State Fault Refusal := onUp (relockDone port) s
/-- R322: a port loses lock. -/
def execLinkLockLoss (port : Nat) (s : State) : Host.Outcome State Fault Refusal :=
  onUp (fun m => match (portOf m port).state with
    | .down | .detect | .failed => m
    | _ => portGoes port .down m) s
/-- R35: a port's one-way delay measured. -/
def execPortDelayMeasure (port ns : Nat) (s : State) : Host.Outcome State Fault Refusal :=
  onUp (delayMeasure port ns) s
/-- R326: PLAN_LOAD. -/
def execPlanLoad (h : Hdr) (planPtr planLen : Nat) (s : State) : Host.Outcome State Fault Refusal :=
  runPacket (pktPlanLoad h planPtr planLen) s
/-- R326: PLAN_LOAD with CLEAR. -/
def execPlanClear (h : Hdr) (s : State) : Host.Outcome State Fault Refusal := runPacket (pktPlanClear h) s
/-- R334: PORT_RESET. -/
def execPortReset (h : Hdr) (ports : Nat) (s : State) : Host.Outcome State Fault Refusal := runPacket (pktPortReset h ports) s
/-- R332: REMAP_ACCEPT. -/
def execRemapAccept (h : Hdr) (port node peerPort serial : Nat) (s : State) : Host.Outcome State Fault Refusal :=
  runPacket (pktRemapAccept h port node peerPort serial) s

end Sys2Proof.Machine
end

