-- ==== Sys2Proof/Machine/Trans.lean ====
section
/-! DEFINITION. The vector unit's functions (R61): the true value, from fixed-point arithmetic of
160 bits, and a word within two units in the last place of it, a free choice. -/

namespace Sys2Proof.Machine

/-- One, in fixed point. -/
def fxOne : Nat := 2 ^ 160

/-- The natural logarithm of 2, in fixed point. -/
def fxLn2 : Nat := 1013035739299659071135698605846798551586536899366

/-- Two over the square root of pi, in fixed point. -/
def fxErf : Nat := 1649128000240172121335468122222580532118151184855

/-- The exponential of a fixed-point number below 1, by its series from term `n` on. -/
def fxExp (x : Nat) : Nat → Nat → Nat → Nat
  | 0, _, _ => 0
  | fuel + 1, n, term => term + fxExp x fuel (n + 1) (term * x / fxOne / n)

/-- A fixed-point number raised to the power `2 ^ k`. -/
def fxSquare : Nat → Nat → Nat
  | 0, x => x
  | k + 1, x => fxSquare k (x * x / fxOne)

/-- The magnitude `m · 2 ^ e` in fixed point, rounded down. -/
def fxOf (m : Nat) (e : Int) : Nat := if 0 ≤ e + 160 then m * 2 ^ (e + 160).toNat else m / 2 ^ (-(e + 160)).toNat

/-- exp2 of a finite number. -/
def exactExp2 (neg : Bool) (m : Nat) (e : Int) : Num :=
  if m = 0 then .fin false 1 0
  else if magGt m e 200 then .fin false 1 (if neg then -1000 else 1000)
  else
    let v : Int := if neg then -(fxOf m e : Int) - bit (decide (e + 160 < 0)) else fxOf m e
    let i := v / (fxOne : Int)
    let f := (v % (fxOne : Int)).toNat
    let g := fxExp (f * fxLn2 / fxOne) 60 1 fxOne
    .fin false (2 * g + bit (f != 0)) (i - 161)

/-- The first `n` bits of the binary logarithm of a number in [1, 2) given in 256-bit fixed point. -/
def logBits : Nat → Nat → Nat → Nat
  | 0, _, acc => acc
  | n + 1, y, acc =>
    let z := y * y / 2 ^ 256
    if 2 ^ 257 ≤ z then logBits n (z / 2) (2 * acc + 1) else logBits n z (2 * acc)

/-- log2 of a positive number. -/
def exactLog2 (m : Nat) (e : Int) : Num :=
  let l := bitLen m
  let f := logBits 120 (m * 2 ^ 256 / 2 ^ (l - 1)) 0
  let k : Int := (e + l - 1) * 2 ^ 120 + f
  .fin (decide (k < 0)) k.natAbs (-120)

/-- Just below 1: where a function's true value lies between its neighbours in FP32 and 1 (R61). -/
def almostOne (neg : Bool) : Num := .fin neg (2 ^ 100 - 1) (-100)

/-- The factor, in units of `2 ^ -200`, by which tanh x and erf x fall short of their slope at 0 times a small x: 1 - x² / 3. -/
def nearZero (m : Nat) (e : Int) : Nat :=
  2 ^ 200 - ((if 0 ≤ 2 * e + 200 then m * m * 2 ^ (2 * e + 200).toNat else m * m / 2 ^ (-(2 * e + 200)).toNat) / 3 + 1)

/-- tanh of a finite number. -/
def exactTanh (neg : Bool) (m : Nat) (e : Int) : Num :=
  if m = 0 then .fin neg 0 0
  else if !magGt m (e + 14) 0 || !magGt (m * 2 ^ 14) e 1 then .fin neg (m * nearZero m e) (e - 200)
  else if magGt m e 10 then almostOne neg
  else
    let x := fxSquare 5 (fxExp (fxOf m (e + 1 - 5)) 80 1 fxOne)
    numDivMag neg (x - fxOne) 0 (x + fxOne)

/-- The series of erf, without its factor, from term `n` on. -/
def erfSeries (x2 : Nat) : Nat → Nat → Int → Int
  | 0, _, _ => 0
  | fuel + 1, n, term => term / (2 * n + 1 : Nat) + erfSeries x2 fuel (n + 1) (-(term * x2 / fxOne / (n + 1 : Nat)))

/-- erf of a finite number. -/
def exactErf (neg : Bool) (m : Nat) (e : Int) : Num :=
  if m = 0 then .fin neg 0 0
  else if !magGt (m * 2 ^ 14) e 1 then .fin neg (m * fxErf * nearZero m e) (e - 360)
  else if magGt m e 4 then almostOne neg
  else
    let x := fxOf m e
    let s := (erfSeries (x * x / fxOne) 150 0 (x : Int)).toNat
    .fin neg (s * fxErf) (-320)

/-- R61: the exact result of a function, to its guard bits, for a finite input in its domain; none for another input. -/
def exactVec (op : VecOp) (x : Word32) : Option Num :=
  match op, fpNum x with
  | .exp2, .fin s m e => some (exactExp2 s m e)
  | .log2, .fin s m e => if m = 0 || s then none else some (exactLog2 m e)
  | .tanh, .fin s m e => some (exactTanh s m e)
  | .erf, .fin s m e => some (exactErf s m e)
  | .recip, .fin s m e => if m = 0 then none else some (numRecip s m e)
  | .rsqrt, .fin s m e => if m = 0 || s then none else some (numRsqrt m e)
  | _, _ => none

/-- R61: a function's result: a word within 2 units in the last place of the exact value, a free choice (log 81), for a
finite input in the domain.  R92: a NaN gives the canonical NaN.  R255: exp2 of minus infinity is 0.
Elsewhere the manual states no result and it is a free value (log 92), a NaN among them canonical. -/
def vecFun (op : VecOp) (x : Word32) : Word32 :=
  if fpIsNan x then 0x7FC00000
  else if op = .exp2 && x == 0xFF800000 then 0
  else
    match exactVec op x with
    | some y => fpNear (Config.ulpOffset op x) y
    | none => fpCanon (Config.vecOutside op x)

end Sys2Proof.Machine
end

