-- ==== Sys2Proof/Machine/Matrix.lean ====
section
/-! DEFINITION. Number formats of weights and activations, QUANT's group and the matrix instruction's
sums, as functions on bytes (chapter 4). -/

namespace Sys2Proof.Machine

/-! ### Formats (Tables 4.2 and 4.5) -/

/-- Weights of one block. -/
def blockLen (wfmt : Nat) : Nat := if wfmt = 8 || wfmt = 9 then 64 else if 5 ≤ wfmt then 32 else 1

/-- C and P of Table 4.2; element formats have no parameter plane. -/
def blockBytes (wfmt : Nat) : Nat × Nat :=
  match wfmt with
  | 5 => (16, 1) | 6 => (16, 1) | 7 => (8, 1) | 8 => (13, 1) | 9 => (8, 4)
  | 4 => (2, 0) | _ => (1, 0)

/-- R102: elements of a chunk. -/
def chunkLen (wfmt : Nat) : Nat := if wfmt = 8 || wfmt = 9 then 64 else 32

/-- The element format of a weight or activation format number. -/
def elemOf (fmt : Nat) : Elem :=
  match fmt with
  | 1 => .e4m3 | 2 => .e5m2 | 3 => .int8 | 4 => .bf16 | 5 => .int4 | _ => .e2m1

/-- R93: the exponent of a scale byte, or `none` for 255. -/
def scaleExp (e : Nat) : Option Int := if e = 255 then none else some ((e : Int) - 127)

/-- R95: digit `m` of a ZQT byte. -/
def trit (b m : Nat) : Nat := b / 3 ^ m % 3

/-- R96: a block's code bytes or parameters hold a reserved encoding. -/
def blockReserved (wfmt : Nat) (code param : List Byte) : Bool :=
  match wfmt with
  | 8 => code.any (fun b => 242 < b.toNat) || 80 < (code.getD 12 0).toNat
  | 9 => !numFinite (elemNum .bf16 (field param 0 2)) || !numFinite (elemNum .bf16 (field param 2 2))
  | _ => false

/-- R95, R104: weight `i` of a block as an integer with an exponent, for the formats that are integers. -/
def weightInt (wfmt : Nat) (code param : List Byte) (i : Nat) : Option (Int × Int) :=
  let e := scaleExp (field param 0 1)
  match wfmt with
  | 3 => some ((BitVec.ofNat 8 (field code 0 1)).toInt, 0)
  | 5 => e.map fun e => ((BitVec.ofNat 4 ((field code (i / 2) 1) / 16 ^ (i % 2))).toInt, e)
  | 7 => e.map fun e => (2 * (bitsOf (field code (i / 4) 1) (2 * (i % 4) + 1) (2 * (i % 4)) : Int) - 3, e - 1)
  | 8 => e.map fun e => ((trit (field code (i / 5) 1) (i % 5) : Int) - 1, e)
  | _ => none

/-- A whole number times a power of two. -/
def dyadic (k : Int) (e : Int) : Num := .fin (decide (k < 0)) k.natAbs e

/-- R95: the exact value of weight `i` of a block. -/
def weightNum (wfmt : Nat) (code param : List Byte) (i : Nat) : Num :=
  if blockReserved wfmt code param then .nan
  else
    match wfmt with
    | 1 | 2 | 4 => elemNum (elemOf wfmt) (field code 0 2 % 2 ^ elemBits (elemOf wfmt))
    | 6 =>
      match scaleExp (field param 0 1) with
      | none => .nan
      | some e => numScale e (elemNum .e2m1 (field code (i / 2) 1 / 16 ^ (i % 2) % 16))
    | 9 =>
      let s := elemNum .bf16 (field param 0 2)
      let o := elemNum .bf16 (field param 2 2)
      numAdd (if (field code (i / 8) 1).testBit (i % 8) then s else numNeg s) o
    | _ =>
      match weightInt wfmt code param i with
      | none => .nan
      | some (v, e) => dyadic v e

/-! ### Activation side records (R97 to R99) -/

/-- A slot or spill entry: INDEX and VALUE. -/
abbrev OutEnt := Nat × Nat

/-- Entries of four bytes. -/
def outEnts (bs : List Byte) (n : Nat) : List OutEnt :=
  (List.range n).map fun i => (field bs (4 * i) 1, field bs (4 * i + 2) 2)

/-- Indices strictly ascending. -/
def ascending : List Nat → Bool
  | a :: b :: r => a < b && ascending (b :: r)
  | _ => true

/-- R99: a side record with its spill area is malformed.  A nonzero byte in a slot above COUNT, which R98 has zero and R99
does not name, makes it so too (DESIGN CHOICE, log 136). -/
def sideBad (side spill : List Byte) : Bool :=
  let cnt := field side 1 1
  let sc := field side 2 1
  let fl := field side 3 1
  let slots := outEnts (side.drop 4) cnt
  let sp := outEnts spill sc
  8 < cnt || 248 < sc || (sc != 0 && fl % 2 == 0) || 7 < fl
    || !ascending (slots.map (·.1)) || !ascending (sp.map (·.1))
    || slots.any (fun a => sp.any fun b => a.1 == b.1)
    || (List.range cnt).any (fun i => field side (5 + 4 * i) 1 != 0)
    || (List.range sc).any (fun i => field spill (4 * i + 1) 1 != 0)
    || !allZero (side.drop (4 + 4 * cnt))

/-! ### QUANT (R100, R101) -/

/-- Insertion by magnitude, largest first, then by lower index. -/
def insMag (x : Num × Nat) : List (Num × Nat) → List (Num × Nat)
  | [] => [x]
  | y :: r => if numLt y.1 x.1 then x :: y :: r else y :: insMag x r

/-- The largest magnitude. -/
def maxMag (xs : List Num) : Num := xs.foldl (fun a x => if numLt a (numAbs x) then numAbs x else a) (.fin false 0 0)

/-- R100: the root mean square, squares and sum each rounded to FP32, in ascending index order. -/
def rms (xs : List Word32) : Num :=
  let sum := xs.foldl (fun a x => fpAdd a (fpMul x x)) 0
  fpNum (fpSqrt (numFp (numScale (-8) (fpNum sum))))

/-- What QUANT writes and counts for one group. -/
structure Group where
  elems : List Byte
  side : List Byte
  spill : List Byte
  counts : Trouble
deriving DecidableEq, Repr

/-- An entry of a slot or of the spill area. -/
def entBytes (i code : Nat) : List Byte := le 1 i ++ le 1 0 ++ le 2 code

/-- R91: what a list of conversions counts. -/
def convCounts (cs : List Conv) : Trouble :=
  { sat := cs.countP (·.sat), ufl := cs.countP (·.ufl), invalid := cs.countP (·.invalid) }

/-- R97, R100, R101: 256 FP32 values as one activation group under a recipe.  With OUT_BUDGET below 8 and squares that
underflow it can write more than 248 spill entries, which R99 calls malformed although no record the module writes is: the
record is written as R101 forms it, and a later read of it finds it malformed (DEDUCED, log 103).  Two points the spec leaves
open (DESIGN CHOICE, log 135): BF16 groups, which have no scale and no side record, are converted under R91 with no invalid
count and count as a group; and OUT_RATIO × r is compared exactly, not rounded to FP32 first. -/
def quantGroup (r : Recipe) (xs : List Word32) : Group :=
  let f := elemOf r.afmt
  let ns := xs.map fpNum
  let nonzero := ns.countP (fun n => !numIsZero n)
  if f == .bf16 then
    let cs := ns.map (toElem .bf16)
    { elems := cs.flatMap (fun c => le 2 c.code), side := [], spill := []
      counts := addTrouble { elements := 256, groups := 1, nonzero } (convCounts cs) }
  else if !ns.all numFinite then
    { elems := zeros 256, side := padTo 36 [255], spill := [], counts := { invalid := 1, groups := 1 } }
  else
    let thr := numMul (.fin false r.outRatio 0) (rms xs)
    let cand := (ns.zipIdx).filter fun x => 0 < r.outBudget && numLt thr (numAbs x.1)
    let ranked := cand.foldl (fun l x => insMag (numAbs x.1, x.2) l) []
    let slotIx := (ranked.take r.outBudget).map (·.2)
    let excess := (ranked.drop r.outBudget).map (·.2)
    let spillIx := if r.ovfClamp then [] else excess
    let candIx := cand.map (·.2)
    let rest := (ns.zipIdx).filter fun x => !candIx.contains x.2
    let e := if r.fixed then r.fixedE else maxAbsScale f (maxMag (rest.map (·.1)))
    let conv (x : Num × Nat) : Conv :=
      if slotIx.contains x.2 || spillIx.contains x.2 then { code := 0 }
      else toElem f (numScale (127 - e) x.1)
    let cs := (ns.zipIdx).map conv
    let outs (ix : List Nat) : List (Nat × Conv) :=
      ((ns.zipIdx).filter fun x => ix.contains x.2).map fun x => (x.2, toElem .bf16 x.1)
    let slots := outs slotIx
    let spills := outs spillIx
    let k := addTrouble (convCounts ((slots ++ spills).map (·.2))) (convCounts cs)
    let excessive := !excess.isEmpty
    let flags := bit (!spillIx.isEmpty) + 2 * bit (excessive && r.ovfClamp) + 4 * bit (0 < k.sat)
    { elems := cs.map fun c => BitVec.ofNat 8 c.code
      side := padTo 36 (le 1 e ++ le 1 slots.length ++ le 1 spills.length ++ le 1 flags ++
        slots.flatMap (fun s => entBytes s.1 s.2.code))
      spill := spills.flatMap (fun s => entBytes s.1 s.2.code)
      counts := addTrouble { ovf := bit excessive, elements := 256, groups := 1, nonzero } k }

/-! ### The matrix instruction (R102 to R107) -/

/-- Code and parameter bytes of the block that holds weight `k` of column `n`. -/
def blockOf (r : Recipe) (w : Mem) (o : MatOp) (n k : Nat) : List Byte × List Byte :=
  let j := o.blk0 + n * o.blkCol + k / blockLen r.wfmt * o.blkK
  let (c, p) := blockBytes r.wfmt
  (memRead w (o.codeBase + j * c) c, memRead w (o.paramBase + j * p) p)

/-- The weight of column `n` at `k`. -/
def weightAt (r : Recipe) (w : Mem) (o : MatOp) (n k : Nat) : Num :=
  let b := blockOf r w o n k
  weightNum r.wfmt b.1 b.2 (k % blockLen r.wfmt)

/-- The index of the group of row `i` that holds element `k`. -/
def groupIx (o : MatOp) (i k : Nat) : Nat := o.grp0 + i * o.grpRow + k / 256

/-- The side record and spill area of a group. -/
def sideOf (a : Mem) (o : MatOp) (g : Nat) : List Byte × List Byte :=
  let side := memRead a (o.sideBase + 36 * g) 36
  (side, memRead a (o.spillBase + 1024 * g) (4 * min 256 (field side 2 1)))

/-- R98: the value of an activation: that of its slot or spill entry, or the scaled element. -/
def actAt (r : Recipe) (a : Mem) (o : MatOp) (i k : Nat) : Num :=
  let g := groupIx o i k
  let f := elemOf r.afmt
  if f == .bf16 then elemNum .bf16 (unle (memRead a (o.elemBase + 2 * (256 * g + k % 256)) 2))
  else
    let (side, spill) := sideOf a o g
    let slots := outEnts (side.drop 4) (field side 1 1)
    let sp := outEnts spill (field side 2 1)
    match alGet (k % 256) (slots ++ sp) with
    | some v => elemNum .bf16 v
    | none =>
      match scaleExp (field side 0 1) with
      | none => .nan
      | some e => numScale e (elemNum f (unle (memRead a (o.elemBase + 256 * g + k % 256) 1)))

/-- R105: element `k` of a row stands in its group's spill area and waits for the wide pass. -/
def isSpilled (r : Recipe) (a : Mem) (o : MatOp) (i k : Nat) : Bool :=
  elemOf r.afmt != .bf16 &&
    let s := sideOf a o (groupIx o i k)
    (outEnts s.2 (field s.1 2 1)).any (·.1 == k % 256)

/-- R103: one chunk added with one rounding; the spilled positions are no part of it (R105). -/
def chunkAdd (r : Recipe) (w a : Mem) (o : MatOp) (i n k : Nat) (acc : Word32) : Word32 :=
  let s := ((List.range' k (chunkLen r.wfmt)).filter fun k => !isSpilled r a o i k).foldl
    (fun s k => numAdd s (numMul (weightAt r w o n k) (actAt r a o i k))) (.fin false 0 0)
  numFp (numAdd (fpNum acc) s)

/-- The K positions of the chunks. -/
def chunkStarts (r : Recipe) (o : MatOp) : List Nat :=
  (List.range ((o.k1 - o.k0) / chunkLen r.wfmt)).map fun j => o.k0 + j * chunkLen r.wfmt

/-- The groups of a row that the K range meets. -/
def rowGroups (o : MatOp) (i : Nat) : List Nat :=
  (List.range' (o.k0 / 256) ((o.k1 + 255) / 256 - o.k0 / 256)).map fun g => groupIx o i (256 * g)

/-- The spill entries of a row within the K range, as (k, VALUE), in ascending K order. -/
def rowSpills (r : Recipe) (a : Mem) (o : MatOp) (i : Nat) : List (Nat × Nat) :=
  if elemOf r.afmt == .bf16 then []
  else
    (List.range' (o.k0 / 256) ((o.k1 + 255) / 256 - o.k0 / 256)).flatMap fun g =>
      let (side, spill) := sideOf a o (groupIx o i (256 * g))
      (outEnts spill (field side 2 1)).filterMap fun e =>
        if 256 * g + e.1 < o.k1 then some (256 * g + e.1, e.2) else none

/-- R103, R105, R107: one FP32 output.  Two points the spec leaves open (DESIGN CHOICE, log 137): outside the reference rate
a ZQ1 weight enters the sums and the wide pass exactly, not rounded to FP32 first; at it, a weight or activation whose exact
value passes FP32's range is an infinity. -/
def matFp (r : Recipe) (w a : Mem) (o : MatOp) (i n : Nat) (init : Word32) : Word32 :=
  if r.ref then
    (List.range' o.k0 (o.k1 - o.k0)).foldl
      (fun acc k => fpFma (numFp (weightAt r w o n k)) (numFp (actAt r a o i k)) acc) init
  else
    let acc := (chunkStarts r o).foldl (fun acc k => chunkAdd r w a o i n k acc) init
    (rowSpills r a o i).foldl
      (fun acc e => numFp (numAdd (numMul (elemNum .bf16 e.2) (weightAt r w o n e.1)) (fpNum acc))) acc

/-- R104: the invalid marker. -/
def intMarker : Word32 := 0x80000000

/-- R104: a signed value rounded to the nearest integer, ties to even. -/
def rneInt (s : Int) (e : Int) : Int :=
  let k : Int := (rneAt 0 s.natAbs e : Nat)
  if s < 0 then -k else k

/-- R93: the scale byte of a weight block is 255. -/
def scale255 (wfmt : Nat) (b : List Byte × List Byte) : Bool := 5 ≤ wfmt && wfmt ≤ 8 && field b.2 0 1 == 255

/-- R104: the addend of a chunk before scaling: the exact sum of its integer products. -/
def chunkSum (r : Recipe) (w a : Mem) (o : MatOp) (i n k : Nat) : Int :=
  (List.range' k (chunkLen r.wfmt)).foldl (fun (s : Int) k =>
    let b := blockOf r w o n k
    let v := ((weightInt r.wfmt b.1 b.2 (k % blockLen r.wfmt)).map (·.1)).getD 0
    s + v * (BitVec.ofNat 8 (unle (memRead a (o.elemBase + 256 * groupIx o i k + k % 256) 1))).toInt) 0

/-- R98: a chunk holds an element that an outlier slot or spill entry of its group stands for. -/
def chunkOutlier (wfmt : Nat) (side : List Byte × List Byte) (k : Nat) : Bool :=
  (outEnts (side.1.drop 4) (field side.1 1 1) ++ outEnts side.2 (field side.1 2 1)).any fun e =>
    k % 256 ≤ e.1 && e.1 < k % 256 + chunkLen wfmt

/-- R104: what a chunk adds to its entry, and whether a nonzero sum rounds to 0.  Where an outlier entry stands in the chunk,
which the manual gives no INT32 result, the addend is a free value of the chunk's own inputs (log 52). -/
def chunkAddend (r : Recipe) (w a : Mem) (o : MatOp) (i n k : Nat) (e : Int) : Int × Bool :=
  let side := sideOf a o (groupIx o i k)
  if chunkOutlier r.wfmt side k then
    (Config.int32Outlier ((List.range' k (chunkLen r.wfmt)).flatMap fun k => let b := blockOf r w o n k; b.1 ++ b.2)
      (side.1 ++ side.2) (memRead a (o.elemBase + 256 * groupIx o i k + k % 256) (chunkLen r.wfmt)) k, false)
  else
    let s := chunkSum r w a o i n k
    let d := rneInt s e
    (d, decide (s ≠ 0 ∧ d = 0))

/-- R93, R104: one chunk of an INT32 sum; what it counts stands beside the entry.  A chunk counts each scale byte of 255
that it meets, its weights' and its activations'; a reserved block, counted once by the instruction (R96), makes its weights
NaN and the entry the marker all the same (log 102). -/
def chunkInt (r : Recipe) (w a : Mem) (o : MatOp) (i n k : Nat) (x : Word32 × Trouble) : Word32 × Trouble :=
  let b := blockOf r w o n k
  let ea := scaleExp (field (sideOf a o (groupIx o i k)).1 0 1)
  let ew := if blockReserved r.wfmt b.1 b.2 then none else (weightInt r.wfmt b.1 b.2 0).map (·.2)
  let t := addTrouble { invalid := bit (ea == none) + bit (scale255 r.wfmt b) } x.2
  match ea, ew with
  | some ea, some ew =>
    let d := chunkAddend r w a o i n k (ew + ea - ((r.baseE : Int) - 127))
    let t := addTrouble { ufl := bit d.2 } t
    if x.1 = intMarker then (x.1, t)
    else
      let v := x.1.toInt + d.1
      let lim : Int := 2 ^ 31 - 1
      (BitVec.ofInt 32 (max (-lim) (min lim v)), addTrouble { sat := bit (decide (lim < v || v < -lim)) } t)
  | _, _ => (intMarker, t)

/-- The result of a matrix instruction: entries by index, and counts. -/
structure MatOut where
  accs : List (Nat × Word32)
  counts : Trouble
deriving DecidableEq, Repr

/-- The weight blocks that the instruction reads. -/
def blocksRead (r : Recipe) (w : Mem) (o : MatOp) : List (List Byte × List Byte) :=
  let bl := blockLen r.wfmt
  (List.range o.cols).flatMap fun n =>
    (List.range' (o.k0 / bl) ((o.k1 + bl - 1) / bl - o.k0 / bl)).map fun b => blockOf r w o n (b * bl)

/-- R96: the blocks read that hold a reserved encoding. -/
def reservedBlocks (r : Recipe) (w : Mem) (o : MatOp) : Nat := (blocksRead r w o).countP fun b => blockReserved r.wfmt b.1 b.2

/-- R93: the scale bytes of 255 read, of weight blocks and of activation groups. -/
def badScales (r : Recipe) (w a : Mem) (o : MatOp) : Nat :=
  (blocksRead r w o).countP (scale255 r.wfmt) +
    if elemOf r.afmt == .bf16 then 0
    else ((List.range o.rowsM).flatMap (rowGroups o)).countP fun g => field (sideOf a o g).1 0 1 == 255

/-- R102 to R107: every output of the instruction.  The spec does not say whether R105's wide pass, made of FP32 operations,
runs in INT32 accumulation: it does not, and counts no cycle (DESIGN CHOICE, log 52). -/
def matRun (r : Recipe) (w a : Mem) (acc : SMap 32) (o : MatOp) : MatOut :=
  let cells := (List.range o.rowsM).flatMap fun i => (List.range o.cols).map fun n => (i, n)
  let ix (c : Nat × Nat) := o.accBase + c.1 * o.cols + c.2
  let init (c : Nat × Nat) : Word32 := if o.fromZero then 0 else smGet (ix c) acc
  if r.accInt32 then
    let rs := cells.map fun c =>
      (ix c, (chunkStarts r o).foldl (fun x k => chunkInt r w a o c.1 c.2 k x) (init c, {}))
    { accs := rs.map fun x => (x.1, x.2.1)
      counts := rs.foldl (fun t x => addTrouble x.2.2 t) { invalid := reservedBlocks r w o } }
  else
    let spill := if r.ref then 0 else
      (List.range o.rowsM).foldl (fun s i => s + (rowSpills r a o i).length) 0 * ((o.cols + 15) / 16)
    { accs := cells.map fun c => (ix c, matFp r w a o c.1 c.2 (init c))
      counts := { invalid := reservedBlocks r w o + badScales r w a o, spill } }

/-- R60, R99, R102: the instruction is malformed. -/
def matBad (r : Recipe) (a : Mem) (o : MatOp) : Bool :=
  !([1, 2, 4, 8, 16].contains o.rowsM) || o.k0 % 256 != 0 || o.k1 < o.k0 || (o.k1 - o.k0) % chunkLen r.wfmt != 0 ||
  (elemOf r.afmt != .bf16 && (List.range o.rowsM).any fun i =>
    (rowGroups o i).any fun g => let s := sideOf a o g; sideBad s.1 s.2)

end Sys2Proof.Machine
end

