-- ==== Sys2Proof/Machine/Collectives.lean ====
section
/-! DEFINITION. Collectives: set-up, the wire formats, the stages of a round, completion and faults
(R116, R117, R370 to R378). -/

namespace Sys2Proof.Machine

/-- A collective of a context. -/
def findColl (m : Mach) (c id : Nat) : Option Coll := (ctxOf m c).colls.find? (·.blk.collId == id)

/-- One collective changed. -/
def modColl (c id : Nat) (f : Coll → Coll) : Mach → Mach :=
  modCtx c fun x => { x with colls := x.colls.map fun k => if k.blk.collId == id then f k else k }

/-! ### Set-up (R370, R371) -/

/-- Table 15.3: the fields of a SETUP lie in their ranges. -/
def collFields (b : CollBlk) : Bool :=
  let n := b.nodes.length
  1 ≤ b.kind && b.kind ≤ 4 && 1 ≤ b.wire && b.wire ≤ 4 && 2 ≤ n && n ≤ 128 && (b.kind != 4 || n == 2) && b.rank < n
    && 1 ≤ b.order && b.order ≤ 7 && b.waitTicks ≤ 255 && 1 ≤ b.collId && b.collId < 2 ^ 32 && b.queue ≤ 1023
    && b.layer ≤ 1023 && b.maxCount % 256 == 0 && 256 ≤ b.maxCount && b.maxCount ≤ 16776960 && b.recv % 64 == 0
    && b.recv < 2 ^ 32 && b.nodes.all (· ≤ 0xFFF)

/-- R370, R371: a SETUP's checks against the module; context 0 holds no collective and no queue. -/
def collOk (m : Mach) (h : Hdr) (b : CollBlk) : Bool :=
  (h.ctx == 0 || (findColl m h.ctx b.collId).isNone
      && (m.ctxs.all fun x => !(x.isOpen && x.ten == hTen m h && x.colls.any (·.blk.queue == b.queue))))
    && b.nodes.Nodup && b.nodes[b.rank]? == some (selfNode m) && b.nodes.all (m.tick.members.contains ·)

/-- R370: COLL_SETUP SETUP. -/
def pktCollSetup (h : Hdr) (b : CollBlk) : Packet :=
  packet { op := 0x82, tenant := true } h (fun m => collFields b && collOk m h b)
    (fun _ m =>
      if 64 ≤ (ctxOf m h.ctx).colls.length then reply h .noSpace 0x40 m
      else m |> modCtx h.ctx (fun x => { x with colls := x.colls ++ [{ blk := b }] }) |> reply h .ok 0)

/-- R370: COLL_SETUP REMOVE. -/
def pktCollRemove (h : Hdr) (id : Nat) : Packet :=
  packet { op := 0x82, tenant := true } h
    (fun m => 1 ≤ id && id < 2 ^ 32 && (h.ctx == 0 || (match findColl m h.ctx id with
      | none => false
      | some k => !k.isOpen)))
    (fun _ m => m |> modCtx h.ctx (fun x => { x with colls := x.colls.filter (·.blk.collId != id) }) |> reply h .ok 0)

/-! ### Wire formats (R116, R117) -/

/-- Elements of one wire group or block. -/
def wireLen (wire : Nat) : Nat := if wire ≤ 2 then 256 else 32

/-- The element format of a wire format. -/
def wireElem (wire : Nat) : Elem :=
  match wire with
  | 1 => .e4m3 | 2 => .e5m2 | 3 => .int4 | _ => .e2m1

/-- R116: the scale of a group or block.  DEDUCED: one that holds a NaN or an infinity gets 255, as QUANT
gives it (R100), since 255 alone decodes as NaN (R117). -/
def wireScale (wire : Nat) (ns : List Num) : Nat :=
  if !ns.all numFinite then 255
  else if wire ≤ 2 then maxAbsScale (wireElem wire) (maxMag ns)
  else
    match maxMag ns with
    | .fin _ m e => scaleFor (wireElem wire) m e 254 0
    | _ => 254

/-- Two codes to a byte, the even one low (R95). -/
def nibbles : List Nat → List Byte
  | a :: b :: r => BitVec.ofNat 8 (a % 16 + 16 * (b % 16)) :: nibbles r
  | _ => []

/-- R112, R116: one group or block encoded, with what its conversions count. -/
def wireGroup (wire : Nat) (xs : List Word32) : List Byte × Trouble :=
  let ns := xs.map fpNum
  let e := wireScale wire ns
  let cs := if e = 255 then ns.map fun _ => ({ code := 0 } : Conv) else ns.map fun x => toElem (wireElem wire) (numScale (127 - e) x)
  let k : Trouble := if e = 255 then { invalid := 1 }
    else { sat := cs.countP (·.sat), ufl := cs.countP (·.ufl), elements := xs.length, nonzero := ns.countP (!numIsZero ·) }
  if wire ≤ 2 then (le 1 e ++ le 1 wire ++ [0, 0] ++ cs.flatMap fun c => le 1 c.code, k)
  else (nibbles (cs.map (·.code)) ++ le 1 e, k)

/-- R116: elements encoded for the wire. -/
def wireEncode (wire : Nat) (xs : List Word32) : List Byte × Trouble :=
  (chunksOf (wireLen wire) xs.length xs).foldl (fun r g =>
    let y := wireGroup wire g
    (r.1 ++ y.1, addTrouble y.2 r.2)) ([], {})

/-- R117: one group or block decoded exactly, with the invalid code that scale 255 counts. -/
def wireUngroup (wire : Nat) (bs : List Byte) : List Word32 × Nat :=
  let e := if wire ≤ 2 then field bs 0 1 else field bs 16 1
  let codes := if wire ≤ 2 then (bs.drop 4).map (·.toNat)
    else (bs.take 16).flatMap fun b => [b.toNat % 16, b.toNat / 16]
  match scaleExp e with
  | none => (codes.map fun _ => numFp .nan, 1)
  | some s => (codes.map fun c => numFp (numScale s (elemNum (wireElem wire) c)), 0)

/-- R117: wire bytes decoded. -/
def wireDecode (wire : Nat) (bs : List Byte) : List Word32 × Nat :=
  (chunksOf (if wire ≤ 2 then 260 else 17) bs.length bs).foldl (fun r g =>
    let y := wireUngroup wire g
    (r.1 ++ y.1, r.2 + y.2)) ([], 0)

/-! ### Segments and stages (R372 to R374) -/

/-- R372: where a segment of the open round begins, and its elements. -/
def segSpan (k : Coll) (s : Nat) : Nat × Nat :=
  let q := segLen k k.count
  (s * q, min k.count ((s + 1) * q) - s * q)

/-- Table 15.4: the segment that rank `r` sends at stage `t`. -/
def segSent (k : Coll) (r t : Nat) : Nat :=
  let n := k.n
  match k.blk.kind with
  | 1 => if t < n - 1 then (r + 2 * n - 1 - t) % n else (r + 2 * n - (t + 1 - n)) % n
  | 2 => (r + 2 * n - 1 - t) % n
  | 3 => (r + 2 * n - t) % n
  | _ => 0

/-- The rank before and the rank after. -/
def prevRank (k : Coll) : Nat := (k.blk.rank + k.n - 1) % k.n
/-- The rank after. -/
def nextRank (k : Coll) : Nat := (k.blk.rank + 1) % k.n

/-- The stages this rank sends in a round, and those it receives. -/
def owedSends (k : Coll) : List Nat := if k.blk.kind = 4 && k.blk.rank != 0 then [] else List.range (collStages k)
/-- The stages it receives. -/
def owedHeaders (k : Coll) : List Nat := if k.blk.kind = 4 && k.blk.rank = 0 then [] else List.range (collStages k)

/-- Table 15.5: a collective header's bytes. -/
def collHdrBytes (h : CollHdr) : List Byte :=
  le 4 h.collId ++ le 4 h.round ++ le 2 h.stage ++ le 1 h.sender ++ le 1 (bit h.abandoned + 2 * bit h.fault) ++
    le 3 h.count ++ [0x03]

/-- R112: what the wire conversions of a collective count. -/
def wireCounts (c : Nat) (k : Coll) (t : Trouble) : Mach → Mach := addCounts c k.blk.layer t

/-- The tenancy a collective belongs to. -/
def collTen (m : Mach) (c : Nat) : Nat := (ctxOf m c).ten

/-- R376: a stage's header sent to the successor, its count zero counted. -/
def sendCollHdr (fs : FlashState) (c t count : Nat) (fault : Bool) (k : Coll) (m : Mach) : Mach :=
  let h : CollHdr := { collId := k.blk.collId, round := k.round, stage := t, sender := k.blk.rank, fault, count }
  m |> modFab (fun f => if count = 0 then { f with collZero := bump 16 1 f.collZero } else f)
    |> modColl c k.blk.collId (fun k => { k with sent := k.sent ++ [t] })
    |> sendMsg fs (.coll c k.blk.collId k.round) (collTen m c) c k.seq (k.blk.nodes.getD (nextRank k) 0) (4096 + k.blk.queue)
        (hdrOff k (slotNo k k.round t)) k.blk.order (collHdrBytes h) true

/-- R376: a stage sent: its segment's wire data, then its header. -/
def sendStage (fs : FlashState) (c t : Nat) (xs : List Word32) (k : Coll) (m : Mach) : Mach :=
  let w := wireEncode k.blk.wire xs
  let m := if xs.isEmpty then m
    else
      m |> wireCounts c k w.2
        |> sendMsg fs (.coll c k.blk.collId k.round) (collTen m c) c k.seq (k.blk.nodes.getD (nextRank k) 0) (4096 + k.blk.queue)
            (dataOff k (slotNo k k.round t)) k.blk.order w.1 false
  sendCollHdr fs c t xs.length false k m

/-! ### Completion and faults (R377, R378) -/

/-- R161, R202: what an access of the exchange unit that fails comes to for the request it serves: a class 3 input. -/
def collTrouble (c q : Nat) (r : Rd) : Mach → Mach :=
  match r with
  | .poison _ => modLat fun l => { l with exchFaults := l.exchFaults ++ [(c, q, .poisoned, 4)] }
  | .denied n => modLat fun l => { l with exchFaults := l.exchFaults ++ [(c, q, .denied, n)] }
  | .ok _ => id

/-- R161: bytes the exchange unit writes for a request. -/
def exchPut (c q a : Nat) (bs : List Byte) (m : Mach) : Mach :=
  match slWrite (collTen m c) a bs m with
  | .error _ => collTrouble c q (.denied (node16 m)) m
  | .ok m => m

/-- Bytes the exchange unit writes for a round. -/
def collPut (c a : Nat) (bs : List Byte) (k : Coll) : Mach → Mach := exchPut c k.seq a bs

/-- R375, R377: the completion record written and the counter advanced.  DEDUCED: a counter that reads poisoned
or denied stays as it is (R203). -/
def settleRecord (c : Nat) (k : Coll) (st : Status) (d : Nat) (m : Mach) : Mach :=
  let m := collPut c k.recAddr (le 4 k.round ++ le 1 (statusCode st) ++ [1] ++ zeros 2 ++ le 4 d ++ zeros 4) k m
  let rd := slTake (collTen m c) k.counterAddr 4 m
  match rd.1 with
  | .ok bs => collPut c k.counterAddr (le 4 ((unle bs + 1) % 2 ^ 32)) k rd.2
  | r => collTrouble c k.seq r rd.2

/-- A round over: its buffer is empty and the next round has the next number. -/
def endRound (c : Nat) (k : Coll) : Mach → Mach :=
  modColl c k.blk.collId fun x =>
    { x with isOpen := false, round := wrap 32 (x.round + 1), sent := []
             arrived := x.arrived.filter fun a => a.1 / collStages x != x.round % 2 }

/-- R375: the elements that OUT receives at this rank. -/
def outLen (k : Coll) : Nat :=
  match k.blk.kind with
  | 2 => (segSpan k k.blk.rank).2
  | 4 => if k.blk.rank = 0 then 0 else k.count
  | _ => k.count

/-- R378: OUT holds no defined value after a fault: free values. -/
def scrambleOut (ten : Nat) (k : Coll) (m : Mach) : Mach :=
  let i := m.stp.choices
  let n := 4 * outLen k
  m |> slPut ten k.outAddr ((List.range n).map fun j => Config.undefinedByte (i + j))
    |> modStp (fun x => { x with choices := i + n })

/-- R378: the slots of a faulting round whose messages come late.  None do once a header of a later round has come, which the
predecessor sends behind them in the same class. -/
def lateSlots (k : Coll) : List Nat :=
  if k.arrived.any fun a => a.1 / collStages k != k.round % 2 then []
  else ((owedHeaders k).map (slotNo k k.round)).filter fun s => (alGet s k.arrived).isNone

/-- R378: an open round faults and ends. -/
def faultColl (fs : FlashState) (c id : Nat) (st : Status) (d : Nat) (m : Mach) : Mach :=
  match findColl m c id with
  | none => m
  | some k =>
    if !k.isOpen then m
    else
      let m := forEach ((owedSends k).filter fun t => !k.sent.contains t) (fun t => sendCollHdr fs c t 0 true k) m
      m |> scrambleOut (collTen m c) k |> settleRecord c k st d |> modColl c id (fun x => { x with late := x.late ++ lateSlots k })
        |> endRound c k
        |> modFab (fun f => { f with faulted := bump 16 1 f.faulted })
        |> modLat (fun l => { l with exchFaults := l.exchFaults ++ [(c, k.seq, st, d)] })

/-- R377: a round is complete once every header is accepted, every stage sent and every message OK. -/
def checkColl (c id : Nat) (m : Mach) : Mach :=
  match findColl m c id with
  | none => m
  | some k =>
    let w := Waiter.coll c id k.round
    if k.isOpen && ((owedHeaders k).all fun t => (alGet (slotNo k k.round t) k.arrived).isSome)
        && ((owedSends k).all fun t => k.sent.contains t)
        && !(m.fab.out.any (·.own == w)) && !(m.lat.msgs.any (·.1 == w)) then
      m |> settleRecord c k .ok 0 |> endRound c k
        |> modFab (fun f => { f with rounds := bump 32 1 f.rounds })
    else m

/-- R377, R378: the message completions that rounds wait for, one by one. -/
def settleMsgs (fs : FlashState) : Nat → Mach → Mach
  | 0, m => m
  | fuel + 1, m =>
    match m.lat.msgs with
    | [] => m
    | (w, st, node) :: r =>
      let m := modLat (fun l => { l with msgs := r }) m
      let m := match w with
        | .coll c id round =>
          if ((findColl m c id).map fun k => k.isOpen && k.round == round) != some true then m
          else
            match st with
            | .ok => checkColl c id m
            | .targetLost | .denied | .outOfReach => faultColl fs c id st node m
            | _ => faultColl fs c id .poisoned 4 m
        | .shard t slot shard =>
          if st == .ok then m
          else modTen t (fun x => { x with shards := x.shards.map fun s =>
            if s.blk.slot == slot && s.blk.shard == shard then { s with fwdFail := true } else s }) m
        | _ => m
      settleMsgs fs fuel m

/-- The completions of messages acted on, whatever they set going. -/
def settleAll (fs : FlashState) (m : Mach) : Mach := settleMsgs fs (2 * (m.lat.msgs.length + m.fab.out.length) + 4096) m

/-! ### Acting on a stage (R373, R377) -/

/-- The FP32 words of this rank's input for a segment of the open round, as they are read. -/
def ownInput (c : Nat) (k : Coll) (s : Nat) (m : Mach) : Rd × Mach :=
  let x := segSpan k s
  if x.2 = 0 then (.ok [], m) else slTake (collTen m c) (k.inAddr + (if k.blk.kind = 3 then 0 else 4 * x.1)) (4 * x.2) m

/-- A segment of the output written; under REDUCE_SCATTER it stands at the start of OUT. -/
def putOut (c : Nat) (k : Coll) (s : Nat) (xs : List Word32) (m : Mach) : Mach :=
  if xs.isEmpty then m else collPut c (k.outAddr + (if k.blk.kind = 2 then 0 else 4 * (segSpan k s).1)) (bytes4 xs) k m

/-- R373: a value as its wire encoding carries it. -/
def asCarried (k : Coll) (xs : List Word32) : List Word32 := (wireDecode k.blk.wire (wireEncode k.blk.wire xs).1).1

/-- R373: a received partial with this rank's input added, sent on or kept as the result. -/
def reduceStage (fs : FlashState) (c t s : Nat) (k : Coll) (ys : List Word32) (m : Mach) : Mach :=
  let rd := ownInput c k s m
  let m := rd.2
  match rd.1 with
  | .ok xs =>
    let acc := (ys.zip (words4 xs)).map fun z => fpAdd z.1 z.2
    if t + 2 < k.n then sendStage fs c (t + 1) acc k m
    else
      let m := putOut c k s (asCarried k acc) m
      if k.blk.kind = 1 then sendStage fs c (t + 1) acc k m else wireCounts c k (wireEncode k.blk.wire acc).2 m
  | _ => faultColl fs c k.blk.collId .poisoned 4 m

/-- R377: an accepted stage acted on. -/
def actStage (fs : FlashState) (c id t : Nat) (m : Mach) : Mach :=
  match findColl m c id with
  | none => m
  | some k =>
    match alGet (slotNo k k.round t) k.arrived with
    | none => m
    | some h =>
      let s := segSent k (prevRank k) t
      let n := (segSpan k s).2
      if h.fault || h.count != n then faultColl fs c id .poisoned 4 m
      else
        let rd := if n = 0 then (Rd.ok [], m)
          else slTake (collTen m c) (k.blk.recv + dataOff k (slotNo k k.round t)) (wireBytes k.blk.wire n) m
        let m := rd.2
        match rd.1 with
        | .ok bs =>
          let ys := wireDecode k.blk.wire bs
          let m := if ys.2 = 0 then m else wireCounts c k { invalid := ys.2 } m
          if k.blk.kind = 2 || (k.blk.kind = 1 && t + 1 < k.n) then reduceStage fs c t s k ys.1 m
          else
            let m := putOut c k s ys.1 m
            if k.blk.kind != 4 && t + 1 < collStages k then sendStage fs c (t + 1) ys.1 k m else m
        | _ => faultColl fs c id .poisoned 4 m

/-- An accepted header of the round in progress. -/
def actHeader (fs : FlashState) (c id round t : Nat) (m : Mach) : Mach :=
  if ((findColl m c id).map fun k => k.isOpen && k.round == round) == some true then
    m |> actStage fs c id t |> checkColl c id |> settleAll fs
  else m

/-- R376, R378: a header received; one of a faulted round is rejected, and what comes for its stage after it is not late. -/
def collHeader (c : Nat) (h : CollHdr) (fs : FlashState) (m : Mach) : Mach :=
  let bad := modFab (fun f => { f with collBad := bump 16 1 f.collBad }) m
  match findColl m c h.collId with
  | none => bad
  | some k =>
    let slot := slotNo k h.round h.stage
    let expect := if h.round % 2 = k.round % 2 then k.round else wrap 32 (k.round + 1)
    if h.round != expect || !(owedHeaders k).contains h.stage || h.sender != prevRank k || (alGet slot k.arrived).isSome then
      modColl c h.collId (fun k => { k with late := k.late.filter (· != slot) }) bad
    else
      m |> slPut (collTen m c) (k.blk.recv + hdrOff k slot) (collHdrBytes h)
        |> modColl c h.collId (fun k => { k with arrived := alSet slot h k.arrived, late := [] })
        |> actHeader fs c h.collId h.round h.stage

/-! ### Starting a round (R375) -/

/-- R375: the first stage of a round, then the stages whose headers came early. -/
def beginRound (fs : FlashState) (c id : Nat) (m : Mach) : Mach :=
  match findColl m c id with
  | none => m
  | some k =>
    let s := segSent k k.blk.rank 0
    let m := if !(owedSends k).contains 0 then m
      else
        let rd := ownInput c k s m
        let m := rd.2
        match rd.1 with
        | .ok bs =>
          let xs := words4 bs
          let m := if k.blk.kind = 3 then putOut c k s (asCarried k xs) m else m
          sendStage fs c 0 xs k m
        | _ => faultColl fs c id .poisoned 4 m
    m |> forEach ((owedHeaders k).filter fun t => (alGet (slotNo k k.round t) k.arrived).isSome) (actHeader fs c id k.round)
      |> checkColl c id |> settleAll fs

/-- R53: the peas that wait already on the counter of a round that opens wait on messages from other modules. -/
def waitsRemote (t counter : Nat) (m : Mach) : Mach :=
  { m with peas := m.peas.map fun a =>
    match a.st == .waiting && a.active.any (·.ten == t), (curDesc a).map Desc.body with
    | true, some (.wait addr _) => if addr = counter then { a with hadFabric := true } else a
    | _, _ => a }

/-- R375: COLLECT. -/
def collect (p id inA outA count recA counter : Nat) (fs : FlashState) (m : Mach) : Mach :=
  match (peaOf m p).active with
  | none => m
  | some u =>
    let refuse (round : Nat) : Mach :=
      m |> modFab (fun f => { f with collRefused := bump 16 1 f.collRefused })
        |> exchPut u.ctx u.seq recA (le 4 round ++ le 1 (statusCode .invalid) ++ [1] ++ zeros 10)
    match findColl m u.ctx id with
    | none => refuse 0
    | some k =>
      if k.isOpen || k.blk.maxCount < count || count % 256 != 0 || !(k.blk.nodes.all (m.tick.members.contains ·)) then
        refuse k.round
      else
        m |> modColl u.ctx id (fun k =>
              { k with isOpen := true, seq := u.seq, pea := p, count, inAddr := inA, outAddr := outA, recAddr := recA
                       counterAddr := counter, startTick := m.tick.count, sent := [] })
          |> waitsRemote u.ten counter |> beginRound fs u.ctx id

/-! ### Deadlines and losses (R378) -/

/-- R378: the deadline of an open round. -/
def collDeadline (c id : Nat) (fs : FlashState) (m : Mach) : Mach :=
  match findColl m c id with
  | none => m
  | some k =>
    let wait := if k.blk.waitTicks = 0 then 8 else k.blk.waitTicks
    if !k.isOpen || m.tick.count < k.startTick + wait then m else m |> faultColl fs c id .poisoned 4 |> settleAll fs

/-- R378: the open rounds whose deadlines a boundary is. -/
def collDeadlines (fs : FlashState) (m : Mach) : Mach :=
  forEach (List.range 256) (fun c m => forEach ((ctxOf m c).colls.filter (·.isOpen)) (fun k => collDeadline c k.blk.collId fs) m) m

/-- The open rounds of the module that satisfy `q`, faulted. -/
def faultColls (fs : FlashState) (q : Coll → Bool) (st : Status) (d : Nat) (m : Mach) : Mach :=
  settleAll fs (forEach (List.range 256) (fun c m =>
    forEach ((ctxOf m c).colls.filter fun k => k.isOpen && q k) (fun k => faultColl fs c k.blk.collId st d) m) m)

/-- R375: a round started by a unit of the request is open. -/
def collOpen (m : Mach) (c q : Nat) : Bool := (ctxOf m c).colls.any fun k => k.isOpen && k.seq == q

/-- R375: COLLECT. -/
def execCollect (pea collId inAddr outAddr count rec counter : Nat) (s : State) : Host.Outcome State Fault Refusal :=
  onFab (fun fs m => if peaRuns m pea then collect pea collId inAddr outAddr count rec counter fs m else m) s
/-- R376: a collective header arrives. -/
def execCollHeaderReceive (ctx : Nat) (h : CollHdr) (s : State) : Host.Outcome State Fault Refusal :=
  onFab (collHeader ctx h) s
/-- R378: a round's deadline. -/
def execCollRoundDeadline (ctx collId : Nat) (s : State) : Host.Outcome State Fault Refusal :=
  atBoundary (collDeadline ctx collId) s
/-- R370: COLL_SETUP SETUP. -/
def execCollSetup (h : Hdr) (b : CollBlk) (s : State) : Host.Outcome State Fault Refusal := runPacket (pktCollSetup h b) s
/-- R370: COLL_SETUP REMOVE. -/
def execCollRemove (h : Hdr) (collId : Nat) (s : State) : Host.Outcome State Fault Refusal :=
  runPacket (pktCollRemove h collId) s

end Sys2Proof.Machine
end

