-- ==== Sys2Proof/Machine/Completions.lean ====
section
/-! DEFINITION. The commands of the fabric (chapter 14), each with what the completions it brings do for
the collectives and shards that wait for them (R377, R378, R384). -/

namespace Sys2Proof.Machine

/-- A happening on the fabric, and the message completions it brings acted on. -/
def onFabric (f : FlashState → Mach → Mach) : State → Host.Outcome State Fault Refusal :=
  onFab fun fs m => settleAll fs (f fs m)

/-- R340: FABRIC_REQUEST_ISSUE. -/
def execFabricRequestIssue (r : FabReq) (s : State) : Host.Outcome State Fault Refusal := onFabric (issueCmd r) s
/-- R346: a packet in transit. -/
def execFabricPacketForward (p : FabPkt) (s : State) : Host.Outcome State Fault Refusal := onUp (routePacket p) s
/-- R29: a request arrives. -/
def execFabricRequestReceive (p : FabPkt) (s : State) : Host.Outcome State Fault Refusal := onFabric (receiveReq p) s
/-- R350: a completion arrives. -/
def execFabricCompletionReceive (p : FabPkt) (s : State) : Host.Outcome State Fault Refusal :=
  onFabric (receiveCompletion p) s
/-- R350: a request times out. -/
def execFabricTimeout (reqId : Nat) (s : State) : Host.Outcome State Fault Refusal := onFabric (timeoutReq reqId) s
/-- R351: a HOLD is sent. -/
def execFabricHoldSend (src reqId : Nat) (s : State) : Host.Outcome State Fault Refusal := onUp (holdSend src reqId) s
/-- R351: a HOLD arrives. -/
def execFabricHoldReceive (reqId : Nat) (s : State) : Host.Outcome State Fault Refusal := onUp (holdReceive reqId) s
/-- R357: a NOT_READY request is sent again. -/
def execFabricNotReadyRetry (reqId : Nat) (s : State) : Host.Outcome State Fault Refusal := onFabric (notReadyRetry reqId) s
/-- R357: a NOT_READY request gives up. -/
def execFabricNotReadyExpiry (reqId : Nat) (s : State) : Host.Outcome State Fault Refusal :=
  onFabric (notReadyExpiry reqId) s
/-- R354: a replay-table entry ages. -/
def execReplayEntryAge (src tag : Nat) (s : State) : Host.Outcome State Fault Refusal :=
  onUp (ageReplay src tag) s
/-- R358: a notice arrives. -/
def execNoticeReceive (port : Nat) (n : Notice) (s : State) : Host.Outcome State Fault Refusal :=
  onFabric (receiveNotice port n) s
/-- R352: FATOM. -/
def execFatom (pea aop size cls : Nat) (handle a b : Word64) (rec : Nat) (s : State) : Host.Outcome State Fault Refusal :=
  onFabric (fun fs m => if peaRuns m pea then fatomOp pea aop size cls handle a b rec fs m else m) s

end Sys2Proof.Machine
end

