-- ==== Sys2Proof/Machine/Protect.lean ====
section
/-! DEFINITION. Errors in stored data and on datapaths: scrubbing, repair, poison, parity, and the
halting of Turnip cores (R15, R19, R20, R193 to R212). -/

namespace Sys2Proof.Machine

/-! ### Halting a core (R19, R20) -/

/-- R484: an in-band interrupt, while the port responds and they are enabled. -/
def raiseIbi (cause : Nat) (m : Mach) : Mach :=
  if m.i3c.portUp && m.i3c.events then send (.ibi cause) m else m

/-- R20: a core halts: the tray is told at once, and the error is latched.  A watchdog that expires on a core already halted
does nothing more: the spec does not say whether it escalates again (DESIGN CHOICE, log 107). -/
def haltCore (core cause : Nat) (m : Mach) : Mach :=
  if 8 ≤ core || m.life.halted.contains core then m
  else
    m |> modLife (fun l => { l with halted := l.halted ++ [core], haltLatched := l.haltLatched ++ [(core, cause)] })
      |> captureAt [0, core] 0x08 3 core [BitVec.ofNat 8 cause] |> raiseIbi 1

/-! ### Candidates and remaps (R208) -/

/-- The number of a store in the repair log. -/
def storeNo : Store → Nat
  | .slice => 0 | .hbm => 1 | .lpddr => 2 | .flash => 3 | .datapath => 6

/-- R208: the row of a unit begins to be copied to a spare, while its controller has one. -/
def startRemap (row : Nat) (m : Mach) : Mach :=
  let c := hbmCtl (4 * row)
  if m.ecc.remaps.contains row || m.ecc.remapping.contains (c, row)
      || 1024 ≤ m.ecc.remaps.countP (fun r => hbmCtl (4 * r) == c) + m.ecc.remapping.countP (·.1 == c) then m
  else modEcc (fun e => { e with remapping := e.remapping ++ [(c, row)] }) m

/-- R208: a location entered in the repair log: a line of a slice, or a row of HBM3E. -/
def candidate (s : Store) (loc : Nat) (nv : Nv) (m : Mach) : Nv × Mach :=
  let m := if s == .hbm then startRemap loc m else m
  if nv.candidates.contains (storeNo s, loc) then (nv, m)
  else
    ({ nv with candidates := nv.candidates ++ [(storeNo s, loc)] },
      modEcc (fun e => { e with tickCandidates := bump 16 1 e.tickCandidates }) m)

/-- Candidates of a list. -/
def candidates (s : Store) (locs : List Nat) (nv : Nv) (m : Mach) : Nv × Mach :=
  locs.foldl (fun r l => candidate s l r.1 r.2) (nv, m)

/-! ### Latched errors and their events (R44, R202, R211) -/

/-- An uncorrectable error latched as class 3. -/
def latchErr (e : ErrIn) (m : Mach) : Mach :=
  m |> modLat (fun l => { l with errs := l.errs ++ [e] }) |> captureAt [2, e.ctx, e.seq.getD 0, storeNo e.store, e.loc] 0x08 3 (storeNo e.store) (le 8 e.loc)

/-- R211: one ECC_UNCORRECTABLE record of a ring, at most 16 in a boundary. -/
def eccRecord (c : Nat) (e : ErrIn) (loc seq : Nat) (m : Mach) : Mach :=
  let f := fnOf m c
  if 16 ≤ f.eccWritten then modFn c (fun f => { f with eccSuppressed := bump 16 1 f.eccSuppressed }) m
  else
    m |> emit c 0x11 c (le 1 (storeNo e.store) ++ le 1 e.foundBy ++ le 8 loc ++ le 4 seq ++ le 2 f.eccSuppressed)
      |> modFn c (fun f => { f with eccWritten := f.eccWritten + 1, eccSuppressed := 0 })

/-- R211: a latched error reported, with the request it finalised where it hit one. -/
def reportErr (hit : Bool) (e : ErrIn) (m : Mach) : Mach :=
  if e.marked then m
  else
    let seq := if hit then e.seq.getD 0 else 0
    let m := if e.quiet then m else eccRecord 0 e e.loc seq m
    if e.ctx = 0 || e.foundBy = 1 then m else eccRecord e.ctx e e.view seq m

/-- R211: the ECC_CORRECTED record of a boundary, where corrections were counted in the tick, and the tick's counts begun again. -/
def eccCorrected (m : Mach) : Mach :=
  let e := m.ecc
  let m' := modEcc (fun e => { e with tickSram := 0, tickHbm := 0, tickLp := 0, tickReplays := 0, tickCandidates := 0 }) m
  if e.tickSram + e.tickHbm + e.tickLp = 0 then m'
  else
    emit 0 0x10 0 (le 4 e.tickSram ++ le 4 e.tickHbm ++ le 2 e.tickLp ++ le 2 e.tickReplays ++
      le 2 e.tickCandidates) m'

/-! ### Uncorrectable reads (R202, Table 8.3) -/

/-- Table 5.6: the source number of a store. -/
def storeSource : Store → Nat
  | .slice => 0 | .hbm => 1 | .lpddr => 2 | .flash => 3 | .datapath => 6

/-- The context and, where there is one, the sequence number of the request that a reader works for. -/
def readerReq (m : Mach) : Reader → Nat × Option Nat
  | .pea p | .moveDesc p => (peaCtx m p, (peaOf m p).active.map (·.seq))
  | .turnipFor c q => (c, some q)
  | _ => (0, none)

/-- The tenancy of a reader. -/
def readerTen (m : Mach) (w : Reader) : Nat :=
  match w with
  | .pea p | .moveDesc p => peaTen m p
  | .fabricSource p => (enters m p).1
  | _ => (ctxOf m (readerReq m w).1).ten

/-- R192, R212: an uncorrectable detection counted. -/
def countUncorr (s : Store) (nv : Nv) (m : Mach) : Nv × Mach :=
  match s with
  | .slice => (nv, modEcc (fun e => { e with sramUncorr := bump 16 1 e.sramUncorr }) m)
  | .hbm => (nv, modEcc (fun e => { e with hbmUncorr := bump 16 1 e.hbmUncorr }) m)
  | .flash => ({ nv with flash := { nv.flash with uncorrectable := bump 16 1 nv.flash.uncorrectable } }, m)
  | .lpddr => (nv, m)
  | .datapath => (nv, modEcc (fun e => { e with parityFailed := bump 16 1 e.parityFailed }) m)

/-- Table 8.3: the destination bytes of the source bytes `a` to `a + n` of a MOVE: of a plain one byte for byte, of a
fixed-rate one by whole blocks, of a stream by the block or, encoding, all that it may write. -/
def moveTarget (m : Mach) (t : Nat) (b : MoveBody) (a n : Nat) : Option (Nat × Nat) :=
  if cmpVar b then
    if cmpEncode b then some (b.dst, vrRoom b)
    else
      match vrIndex (readSide m t (srcSide b.op)) b with
      | .error _ => some (b.dst, vrBlock (cmpBsize b))
      | .ok ix =>
        let j := (ix.tail.findIdx? fun i => a < b.src + 8 * i).getD 0
        some (b.dst + j * vrBlock (cmpBsize b), vrBlock (cmpBsize b))
  else
    let fixed := b.cmp != 0
    let sb := if !fixed then 1 else if cmpEncode b then 16 else frBytes (cmpFmt b)
    let db := if !fixed then 1 else if cmpEncode b then frBytes (cmpFmt b) else 16
    let len := rowLen b (fixed && !cmpEncode b)
    (List.range b.rows).findSome? fun r =>
      let s := b.src + r * b.srcStride
      if s < a + n && a < s + len then
        let lo := (max s a - s) / sb
        let hi := (min (a + n) (s + len) - s + sb - 1) / sb
        some (b.dst + r * b.dstStride + lo * db, (hi - lo) * db)
      else none

/-- R201, R211: the bytes an error is known for: the 64 KiB block of a flash read, the unit or line elsewhere. -/
def errSpan (source : Nat) : Nat := if source = 3 then 65536 else 64

/-- R202, Table 8.3: a MOVE in progress that reads poison: what it has not moved yet it moves as far as the poison; of a store
to a handle, which is sent already, the poison goes where it can. -/
def poisonMove (p source view : Nat) (fs : FlashState) (m : Mach) : Mach :=
  match curMove m p with
  | none => m
  | some b =>
    let n := errSpan source
    let lo := view / n * n
    let stalled := match (peaOf m p).st with
      | .stalled _ _ => true
      | _ => false
    let m := endStalls p (2 ^ 24) false m
    if (stalled || (peaOf m p).mvTodo) && srcSide b.op == (if source = 0 then .slice else .dev) then
      movePoisoned fs p lo (lo + n) source m
    else
      m |> (match moveTarget m (peaTen m p) b lo n with
            | some (a, k) => poisonSide (peaTen m p) (dstSide b.op) a k
            | none => id)
        |> endUnit p .poisoned source

/-- Table 8.3: who receives the poison. -/
def givePoison (w : Reader) (source view : Nat) (fs : FlashState) (m : Mach) : Mach :=
  match w with
  | .pea p => endUnit p .poisoned source m
  | .moveDesc p => poisonMove p source view fs m
  | .turnipOwn core => haltCore core 3 m
  | .turnipFor c q =>
    modLat (fun l => { l with errs := l.errs ++
      [{ store := .slice, foundBy := 0, ctx := c, seq := some q, source, loc := 0, view := 0, marked := true }] }) m
  | .fabricSource p => settleFab fs (enterStream fs p (enters m p).1 .poisoned m)
  | .host => send (.cxlPoisoned view) m
  | .scrubber => m

/-- R179, R187: the source of a page's migration cannot be read: the migration is abandoned and its waiters get POISONED. -/
def abandonSource (t view : Nat) (fs : FlashState) (m : Mach) : Mach :=
  let n := view / pageSize
  if (findPage m t n).any (·.mig.isSome) then sourceBad fs t n m else m

/-- R211, Table 8.4: FOUND_BY of an uncorrectable read: a scrub's, that of a page's promotion, or a demand read's. -/
def foundBy (m : Mach) (s : Store) (w : Reader) (view : Nat) : Nat :=
  if w == .scrubber then 1
  else if (s == .lpddr || s == .flash) && (findPage m (readerTen m w) (view / pageSize)).any (·.mig.isSome) then 2
  else 0

/-- R202, R211: an uncorrectable detection: counted, latched for its request, given to its reader. -/
def detected (s : Store) (w : Reader) (loc view : Nat) (nv : Nv) (m : Mach) : Nv × Mach :=
  let rq := readerReq m w
  let r := countUncorr s nv m
  (r.1, r.2 |> latchErr { store := s, foundBy := foundBy m s w view, ctx := rq.1, seq := rq.2,
                          source := storeSource s, loc, view }
          |> givePoison w (storeSource s) view nv.flash.state)

/-- R193: the bytes of a line that an array read cannot decode. -/
def lineBad (m : Mach) (line : Nat) : List Nat :=
  (List.range' (64 * line) 64).filter fun a => (storedByte m a (smGet a m.mem.sliceMem)).isNone

/-- R203: bytes of slices marked as poison. -/
def markBytes (as : List Nat) : Mach → Mach :=
  modMem fun x => { x with slicePoison := as.foldl (fun l a => insRising a l) x.slicePoison
                           sliceErr := x.sliceErr.filter fun e => !as.contains e.1 }

/-- Wrong bits of slice bytes, over those that stand already. -/
def flipBytes (fs : List (Nat × Nat)) : Mach → Mach :=
  modMem fun x => { x with sliceErr := fs.foldl (fun l f =>
    smSet f.1 (smGet f.1 l ^^^ BitVec.ofNat 13 f.2) l) x.sliceErr }

/-- R82, R194, R202: an array read of a line that meets wrong bits: corrected, counted and queued for repair, or
uncorrectable for every reader of the line. -/
def sliceRead (w : Reader) (loc view : Nat) (e : ErrPat) (nv : Nv) (m : Mach) : Nv × Mach :=
  let line := loc / 64
  let key := (line / 32768, line % 32768)
  let joins := w != .scrubber
  let enter := onlyIf joins (openMerge key.1 key.2)
  if pieceBad m (64 * line, 64) then
    if joins && m.mem.mergeBad.contains key then (nv, m |> attachRead |> givePoison w 0 view nv.flash.state)
    else (nv, m |> enter |> countPoison (.poison 0) |> markMerges [line] |> givePoison w 0 view nv.flash.state)
  else
    let m := flipBytes (e.flips.map fun f => (64 * line + f.1 % 64, f.2)) m
    let bad := lineBad m line
    if joins && m.mem.merges.contains key then (nv, attachRead m)
    else if bad.isEmpty then (nv, m |> enter |> arrayRead line)
    else
      let m := m |> enter |> markBytes bad |> markMerges [line]
      let r := detected .slice w loc view nv m
      candidate .slice line r.1 r.2

/-- R203: a unit of a range marked as poison. -/
def markUnit (k : Nat) : Mach → Mach :=
  modMem fun x => { x with devPoison := insRising k x.devPoison, devErr := smClear (128 * k) (128 * k + 128) x.devErr
                           hbmRepair := x.hbmRepair.filter (·.2 != k) }

/-- Wrong bytes of a unit, over those that stand already, and where it stands. -/
def flipUnit (k phys : Nat) (fs : List (Nat × Nat)) : Mach → Mach :=
  modMem fun x => { x with
    devErr := fs.foldl (fun l f => smSet (128 * k + f.1 % 72) (smGet (128 * k + f.1 % 72) l ^^^ BitVec.ofNat 8 f.2) l) x.devErr
    errPlace := if fs.isEmpty then x.errPlace else alSet k phys x.errPlace }

/-- Table 8.2: the stack's report counted, beside the module code's verdict. -/
def countStack (stack : Nat) (v : UnitVerdict) : Mach → Mach :=
  modEcc fun e => { e with
    ondie := if stack = 1 && v == .clean then bump 32 1 e.ondie else e.ondie
    ondieUe := if stack = 2 && v != .uncorrectable then bump 16 1 e.ondieUe else e.ondieUe }

/-- R196, R212: HBM3E corrections counted. -/
def countHbm (n : Nat) : Mach → Mach :=
  modEcc fun e => { e with hbmCorrected := bump 32 n e.hbmCorrected, tickHbm := bump 32 n e.tickHbm }

/-- R196, R197, R202: a read of an HBM3E unit that meets errors: Table 8.2's verdict and what follows from it. -/
def hbmRead (w : Reader) (loc view : Nat) (e : ErrPat) (nv : Nv) (m : Mach) : Nv × Mach :=
  let t := readerTen m w
  let k := unitKey t view
  let fs := nv.flash.state
  if m.mem.devPoison.contains k then (nv, m |> countPoison (.poison 1) |> givePoison w 1 view fs)
  else
    let m := flipUnit k (loc / 64) e.flips m
    let v := unitVerdict e.elsewhere (unitErrs m k)
    let m := countStack e.stack v m
    match v with
    | .clean => (nv, m)
    | .corrects => (nv, m |> countHbm 1 |> captureCorr 1 loc |> queueRepair (loc / 64) k)
    | .uncorrectable =>
      let r := detected .hbm w loc view nv (markUnit k m)
      candidate .hbm (loc / 256) r.1 (abandonSource t view fs r.2)

/-- R189, R201: an uncorrectable flash read: read again under read retry, rebuilt from parity in vain, it poisons the
promotion of its page; the valid data of its block moves, and the block is retired. -/
def flashFails (w : Reader) (loc view : Nat) (nv : Nv) (m : Mach) : Nv × Mach :=
  let t := readerTen m w
  let ch := view % pageSize / 262144
  let nv := { nv with flash := { nv.flash with retried := bump 32 1 nv.flash.retried } }
  let m := { m with chan := { m.chan with retries := m.chan.retries.modify ch (· + 1) } }
  let r := detected .flash w loc view nv m
  let m := abandonSource t view nv.flash.state r.2
  let block := Config.blockOf loc
  if nv.flash.retiredBlocks.contains block then (r.1, m) else retire [block] { r.1 with flash := relocate r.1.flash } m

/-- R202, R208, R211: a read that meets errors in stored data; LOCATION is `loc` for context 0 and `view` for the
requester.  An error that the code corrects is counted and left for repair, one it cannot correct is poison. -/
def uncorrRead (s : Store) (w : Reader) (loc view : Nat) (e : ErrPat) (nv : Nv) (m : Mach) : Nv × Mach :=
  match s with
  | .slice => sliceRead w loc view e nv m
  | .hbm => hbmRead w loc view e nv m
  | .flash => flashFails w loc view nv m
  | .lpddr =>
    if e.stack = 1 then
      (nv, m |> modEcc (fun x => { x with lpLinkCorrected := bump 32 1 x.lpLinkCorrected, tickLp := bump 16 1 x.tickLp }) |> captureCorr 2 loc)
    else
      let r := detected .lpddr w loc view nv m
      (r.1, abandonSource (readerTen m w) view nv.flash.state r.2)
  | .datapath => detected .datapath w 0 0 nv m

/-! ### Scrubbing and repair (R204 to R208) -/

/-- R208: the locations corrected at this pass and at the one before. -/
def twice (m : Mach) (store : Nat) (locs : List Nat) : List Nat :=
  locs.filter fun l => m.ecc.lastCorrected.contains (store, l)

/-- The corrected locations of a pass kept for the next. -/
def keepCorrected (store : Nat) (locs : List Nat) : Mach → Mach :=
  modEcc fun e => { e with lastCorrected := e.lastCorrected.filter (·.1 != store) ++ locs.map fun l => (store, l) }

/-- R204: a pass over the slices, which meets the wrong bits that stand and those of `flips`: lines with bytes to correct are
rewritten clean, bytes beyond correction as poison. -/
def sramScrub (flips : List (Nat × Nat)) (nv : Nv) (m : Mach) : Nv × Mach :=
  let m := flipBytes (flips.filter fun f => !m.mem.slicePoison.contains f.1) m
  let bad (e : Nat × Word13) : Bool := (storedByte m e.1 (smGet e.1 m.mem.sliceMem)).isNone
  let fresh := (m.mem.sliceErr.filter bad).map (·.1)
  let corr := ((m.mem.sliceErr.filter fun e => !bad e).map (·.1 / 64)).dedup
  let again := twice m 0 corr
  let m := m |> keepCorrected 0 corr
    |> modEcc (fun e => { e with sramCorrected := bump 32 corr.length e.sramCorrected
                                 tickSram := bump 32 corr.length e.tickSram
                                 sramUncorr := bump 16 fresh.length e.sramUncorr
                                 sramPasses := bump 16 1 e.sramPasses })
    |> forEach corr (fun l => captureCorr 0 (64 * l)) |> forEach (m.mem.sliceErr.map (·.1)) (fun a => modMem (closeMerges a (a + 1)))
    |> markBytes fresh |> modMem (fun x => { x with sliceErr := [], sliceRepair := [] })
    |> forEach fresh (fun a m =>
          latchErr { store := .slice, foundBy := 1, ctx := 0, seq := none, source := 0, loc := a, view := 0 } m)
  let r := candidates .slice again nv m
  candidates .slice (fresh.map (· / 64)) r.1 r.2

/-- R204: every unit with errors that a pass over HBM3E meets: those named, and those whose errors stand in the state. -/
def scrubHits (hits : List HbmHit) (m : Mach) : List HbmHit :=
  let key (h : HbmHit) : Option Nat := h.owner.map fun o => o.1 * 2 ^ 39 + o.2
  let known := hits.filterMap key
  hits ++ (((m.mem.devErr.map fun e => e.1 / 128).dedup).filter fun k => !known.contains k).map fun k =>
    { phys := (alGet k m.mem.errPlace).getD k, owner := some (k / 2 ^ 39, k % 2 ^ 39) }

/-- R203: a unit that a scrub finds holds poison already. -/
def hitMarked (m : Mach) (h : HbmHit) : Bool :=
  match h.owner with
  | some o => m.mem.devPoison.contains (o.1 * 2 ^ 39 + o.2)
  | none => m.mem.framePoison.contains h.phys

/-- R195, R196: the verdict on a unit that a scrub reads. -/
def hitVerdict (m : Mach) (h : HbmHit) : UnitVerdict :=
  let m := match h.owner with
    | some o => flipUnit (o.1 * 2 ^ 39 + o.2) h.phys h.err.flips m
    | none => m
  unitVerdict h.err.elsewhere (match h.owner with
    | some o => unitErrs m (o.1 * 2 ^ 39 + o.2)
    | none => h.err.flips.map fun f => (f.1, BitVec.ofNat 8 f.2))

/-- R204, R206: a scrubbed unit rewritten: clean, or as poison unless a write has reached it since the scrub's read. -/
def rewriteHit (h : HbmHit) (poison : Bool) (m : Mach) : Mach :=
  match h.owner with
  | some o =>
    let k := o.1 * 2 ^ 39 + o.2
    if poison && !h.written then markUnit k m
    else modMem (fun x => { x with devErr := smClear (128 * k) (128 * k + 128) x.devErr, hbmRepair := x.hbmRepair.filter (·.2 != k) }) m
  | none => onlyIf (poison && !h.written) (modMem fun x => { x with framePoison := insRising h.phys x.framePoison }) m

/-- The units that a pass finds with errors, and which of them a write has reached since (R206). -/
def hitsOf (units : List (Nat × Option (Nat × Nat))) (errs : List ErrPat) (written : List Nat) : List HbmHit :=
  (units.zip errs).map fun x => { phys := x.1.1, owner := x.1.2, err := x.2, written := written.contains x.1.1 }

/-- R204, R206: a pass over HBM3E, every frame, allocated or free. -/
def hbmScrub (hits : List HbmHit) (nv : Nv) (m : Mach) : Nv × Mach :=
  let hs := ((scrubHits hits m).filter fun h => !hitMarked m h).map fun h => (h, hitVerdict m h)
  let corr := (hs.filter (·.2 == .corrects)).map (·.1)
  let fresh := (hs.filter (·.2 == .uncorrectable)).map (·.1)
  let again := twice m 1 (corr.map (·.phys))
  let m := m |> keepCorrected 1 (corr.map (·.phys)) |> countHbm corr.length
    |> forEach hs (fun x => countStack x.1.err.stack x.2)
    |> modEcc (fun e => { e with hbmUncorr := bump 16 fresh.length e.hbmUncorr, hbmPasses := bump 16 1 e.hbmPasses })
    |> forEach corr (fun h m => m |> captureCorr 1 (64 * h.phys) |> rewriteHit h false)
    |> forEach fresh (fun h m => m |> rewriteHit h true |>
          latchErr { store := .hbm, foundBy := 1, ctx := 0, seq := none, source := 1, loc := 64 * h.phys, view := 0 })
  let r := candidates .hbm (again.map (· / 4)) nv m
  candidates .hbm (fresh.map (·.phys / 4)) r.1 r.2

/-- R194, R197, R205: a queued line or unit is rewritten clean in an idle slot: the bytes that its code corrects.  Its
correction was counted when it was read. -/
def repairRewrite (hbm : Bool) (unit : Nat) (m : Mach) : Mach :=
  if hbm then
    forEach ((m.mem.hbmRepair.filter (·.1 == unit)).map (·.2)) (fun k m =>
      if unitVerdict false (unitErrs m k) == .uncorrectable then m
      else modMem (fun x => { x with devErr := smClear (128 * k) (128 * k + 128) x.devErr }) m)
      (modMem (fun x => { x with hbmRepair := x.hbmRepair.filter (·.1 != unit) }) m)
  else if m.mem.sliceRepair.contains unit then
    modMem (fun x => { closeMerges (64 * unit) (64 * unit + 64) x with
      sliceErr := x.sliceErr.filter fun e => e.1 / 64 != unit || (storedByte m e.1 (smGet e.1 x.sliceMem)).isNone
      sliceRepair := x.sliceRepair.filter (· != unit) }) m
  else m

/-- R208: the units with errors of a row are copied to its spare: clean where the code corrects, else as poison. -/
def copyRow (row : Nat) (m : Mach) : Mach :=
  forEach ((m.mem.errPlace.filter fun e => e.2 / 4 == row).map (·.1)) (fun k m =>
    if unitVerdict false (unitErrs m k) == .uncorrectable then markUnit k m
    else modMem (fun x => { x with devErr := smClear (128 * k) (128 * k + 128) x.devErr }) m) m

/-- R208: the copy of a row ends and its remap is installed. -/
def remapDone (c : Nat) (nv : Nv) (m : Mach) : Nv × Mach :=
  let rows := (m.ecc.remapping.filter (·.1 == c)).map (·.2)
  ({ nv with remapRows := nv.remapRows ++ rows },
   m |> forEach rows copyRow
     |> modEcc (fun e => { e with remaps := e.remaps ++ rows, remapping := e.remapping.filter (·.1 != c) }))

/-- R199: the verify pass of LPDDR5X, which reads every page's blocks; `errs` are the wrong bytes that it meets, by tenancy,
page and place.  A block that does not match its CRC is marked, and a promotion of its page is abandoned. -/
def lpVerify (errs : List (Nat × Nat × Nat × Nat)) (fs : FlashState) (m : Mach) : Mach :=
  forEach ((errs.map fun e => (e.1, e.2.1)).dedup) (fun x m =>
    match findPage m x.1 x.2 with
    | none => m
    | some g =>
      if g.tier != .lp then m
      else
        let es := (errs.filter fun e => e.1 == x.1 && e.2.1 == x.2).map fun e =>
          (e.2.2.1 / crcBlock * 2 ^ 17 + e.2.2.1 % crcBlock, e.2.2.2)
        let bad := (List.range 32).filter fun b => !g.crcBad.contains b && blockFails m x.1 g es b
        m |> markBlocks x.1 x.2 3 bad
          |> onlyIf (!bad.isEmpty && g.mig.any (·.dest == .hbm)) (sourceBad fs x.1 x.2)) m

/-! ### Retries and replays (R15, R19, R201, R210) -/

/-- R201: a link-ECC retry of an LPDDR5X read; the fourth failure of a read poisons that read only. -/
def lpRetry (w : Reader) (read loc view : Nat) (ok : Bool) (fs : FlashState) (m : Mach) : Mach :=
  let run := (alGet read m.ecc.lpRun).getD 0
  let ends := ok || 2 ≤ run
  let m := modEcc (fun e => { e with lpLinkRetry := bump 16 1 e.lpLinkRetry
                                     lpRun := if ends then alDel read e.lpRun else alSet read (run + 1) e.lpRun }) m
  if ok || run < 2 then m
  else
    let rq := readerReq m w
    let t := readerTen m w
    m |> latchErr { store := .lpddr, foundBy := foundBy m .lpddr w view, ctx := rq.1, seq := rq.2, source := 2, loc, view }
      |> givePoison w 2 view fs |> abandonSource t view fs

/-- R15, R202: an HBM3E command reissued after a parity error; the fourth failure of a command is an uncorrectable error of
the unit that it names, for whoever asked for it (log 106). -/
def caReissue (w : Reader) (cmd loc view : Nat) (ok : Bool) (nv : Nv) (m : Mach) : Nv × Mach :=
  let run := (alGet cmd m.ecc.caRun).getD 0
  let ends := ok || 2 ≤ run
  let m := modEcc (fun e => { e with caRetry := bump 16 1 e.caRetry
                                     caRun := if ends then alDel cmd e.caRun else alSet cmd (run + 1) e.caRun }) m
  if ok || run < 2 then (nv, m)
  else
    let r := detected .hbm w loc view nv m
    candidate .hbm (loc / 256) r.1 (abandonSource (readerTen m w) view nv.flash.state r.2)

/-- R210: a beat replayed; the fourth failure of a beat is an uncorrectable error of its data, whose store `source` names. -/
def parityReplay (w : Reader) (beat source view : Nat) (ok : Bool) (fs : FlashState) (m : Mach) : Mach :=
  let run := (alGet beat m.ecc.parityRun).getD 0
  let ends := ok || 2 ≤ run
  let m := modEcc (fun e => { e with xbarReplay := bump 32 1 e.xbarReplay, tickReplays := bump 16 1 e.tickReplays
                                     parityRun := if ends then alDel beat e.parityRun else alSet beat (run + 1) e.parityRun }) m
  if ok || run < 2 then m
  else
    let rq := readerReq m w
    m |> modEcc (fun e => { e with parityFailed := bump 16 1 e.parityFailed })
      |> latchErr { store := .datapath, foundBy := 0, ctx := rq.1, seq := rq.2, source, loc := 0, view := 0 }
      |> givePoison w source view fs

/-- R19: a Turnip instruction replayed; the fourth consecutive parity error halts its core. -/
def turnipReplay (core : Nat) (ok : Bool) (m : Mach) : Mach :=
  let run := (alGet core m.life.replays).getD 0
  let m := m |> modEcc (fun e => { e with turnipReplay := bump 16 1 e.turnipReplay })
    |> modLife (fun l => { l with replays := alSet core (if ok || 2 ≤ run then 0 else run + 1) l.replays })
  if ok || run < 2 then m else haltCore core 1 m

/-- R199: the verify pass of LPDDR5X. -/
def execLpVerifyPass (errs : List (Nat × Nat × Nat × Nat)) (s : State) : Host.Outcome State Fault Refusal := onFab (lpVerify errs) s
/-- R204: a scrub pass over the slices. -/
def execSramScrubPass (bytes bits : List Nat) (s : State) : Host.Outcome State Fault Refusal :=
  onNv (sramScrub (bytes.zip bits)) s
/-- R204: a scrub pass over HBM3E. -/
def execHbmScrubPass (units : List (Nat × Option (Nat × Nat))) (errs : List ErrPat) (written : List Nat) (s : State) :
    Host.Outcome State Fault Refusal := onNv (hbmScrub (hitsOf units errs written)) s
/-- R205: a due scrub read takes one of a slice's reads; nothing but its time changes. -/
def execScrubForcedGrant (_slice : Nat) (s : State) : Host.Outcome State Fault Refusal := onUp (modEcc id) s
/-- R197: a queued line or unit is rewritten. -/
def execRepairRewrite (hbm : Bool) (unit : Nat) (s : State) : Host.Outcome State Fault Refusal :=
  onUp (repairRewrite hbm unit) s
/-- R202: an uncorrectable read. -/
def execUncorrectableRead (store : Store) (who : Reader) (place : Place) (err : ErrPat) (s : State) :
    Host.Outcome State Fault Refusal := onNv (uncorrRead store who place.loc place.view err) s
/-- R201: an LPDDR5X link retry. -/
def execLpLinkRetry (read : Repeated) (ok : Bool) (s : State) : Host.Outcome State Fault Refusal :=
  onFab (lpRetry read.who read.num read.place.loc read.place.view ok) s
/-- R15: an HBM3E command reissue. -/
def execHbmCaParityReissue (cmd : Repeated) (ok : Bool) (s : State) : Host.Outcome State Fault Refusal :=
  onNv (caReissue cmd.who cmd.num cmd.place.loc cmd.place.view ok) s
/-- R210: a beat replayed. -/
def execDatapathParityReplay (beat : Repeated) (source : Nat) (ok : Bool) (s : State) : Host.Outcome State Fault Refusal :=
  onFab (parityReplay beat.who beat.num source beat.place.view ok) s
/-- R19: a Turnip replay. -/
def execTurnipParityReplay (core : Nat) (ok : Bool) (s : State) : Host.Outcome State Fault Refusal :=
  onUp (turnipReplay core ok) s
/-- R20: a watchdog expires. -/
def execTurnipWatchdogExpiry (core : Nat) (s : State) : Host.Outcome State Fault Refusal := onUp (haltCore core 2) s
/-- R208: a row's copy ends. -/
def execRowRemapCopyDone (controller : Nat) (s : State) : Host.Outcome State Fault Refusal := onNv (remapDone controller) s

end Sys2Proof.Machine
end

