-- ==== Sys2Proof/Machine/Power.lean ====
section
/-! DEFINITION. Measurement, limits, clock steps, clamps, thermal control, gating and energy accounts
(chapter 16), and the supply faults of R480. -/

namespace Sys2Proof.Machine

/-! ### Samples and clamps (R390, R401, R402, R407) -/

/-- A clamp's condition on a sample (R401). -/
def clampShows (x : Sample) : Clamp → Bool
  | .supply => x.milliVolt < 33000
  | .thermal => 100 ≤ x.tj
  | .fast => 1650 * 100000 < x.milliVolt * x.current10mA || 5200 < x.current10mA

/-- R402: a clamp's condition counts as absent on a sample. -/
def clampAbsent (x : Sample) (k : Clamp) : Bool :=
  !clampShows x k && (k != .supply || 34000 ≤ x.milliVolt)

/-- R402: a sample meets a clamp that holds: its condition voids a latched end, and absence adds up. -/
def ageClamp (x : Sample) (c : ClampSt) : ClampSt :=
  if clampShows x c.kind then { c with clearUs := 0, ended := false }
  else if clampAbsent x c.kind then { c with clearUs := c.clearUs + 10 }
  else { c with clearUs := 0 }

/-- Table 19.2: the beginning or end of a clamp recorded, with the µs passed in the tick by the samples taken (log 26). -/
def captureClamp (k : Clamp) (begins : Bool) (m : Mach) : Mach :=
  let c : Nat × Nat := match k with
    | .supply => (1, 0)
    | .thermal => (4, 1)
    | .fast => (4, 2)
  captureAt [4, c.2] 0x06 c.1 c.2 (le 1 (bit begins) ++ zeros 1 ++ le 2 (10 * m.pwr.samples)) m

/-- R401: a clamp begins: step 19 and PACE 15 at once. -/
def beginClamp (k : Clamp) (m : Mach) : Mach :=
  m |> captureClamp k true |> modPwr fun p =>
    { p with clamps := p.clamps ++ [{ kind := k }], nClamps := bump 16 1 p.nClamps, localStep := 19, pace := 15, ran19 := true }

/-- Consecutive samples that meet a condition. -/
def runOf (b : Bool) (n : Nat) : Nat := if b then n + 1 else 0

/-- R390, R407: a 10 µs sample. -/
def takeSample (x : Sample) (m : Mach) : Mach :=
  let e := x.milliVolt * x.current10mA
  let m := modPwr (fun p =>
    { p with samples := p.samples + 1, voltMv := sat 16 x.milliVolt, current := sat 16 x.current10mA, powerW := sat 16 (e / 100000)
             window := (e :: p.window).take 2000, energy := p.energy + e
             tj := x.tj, tjSite := x.tjSite, th := x.th, thStack := x.thStack
             clamps := p.clamps.map (ageClamp x)
             uvSamples := runOf (x.milliVolt < 32000) p.uvSamples
             ovSamples := runOf (41000 < x.milliVolt) p.ovSamples
             ocSamples := runOf (6500 < x.current10mA) p.ocSamples }) m
  let new := [Clamp.supply, .thermal, .fast].filter fun k => clampShows x k && !(m.pwr.clamps.any (·.kind == k))
  if isUp m then forEach new beginClamp m else m

/-- R402: the ends of the clamps whose conditions have been absent for 10 ms are latched. -/
def latchClampEnds (m : Mach) : Mach :=
  m |> forEach (m.pwr.clamps.filter fun c => !c.ended && 10000 ≤ c.clearUs) (fun c => captureClamp c.kind false)
    |> modPwr fun p => { p with clamps := p.clamps.map fun c => if 10000 ≤ c.clearUs then { c with ended := true } else c }

/-! ### The walk (R405, R406) -/

/-- R53: a slower clock asked for than is in force, or in force than the group's. -/
def slowClock (x : PwrSt) : Bool := x.groupStep < x.reqStep || x.groupStep < x.localStep || clamped x

/-- R53: the units that run while the clock is slow. -/
def markSlow (m : Mach) : Mach :=
  if slowClock m.pwr then { m with peas := m.peas.map fun a => if a.active.isSome then { a with hadClock := true } else a } else m

/-- R405: the earliest time at which the next index of a walk may come: 30 µs after the last one, 5 µs after a refusal. -/
def walkAt (m : Mach) : Nat := max m.pwr.walkUs m.tick.nowUs

/-- R405: one index of a walk that is due within the tick, where the governor admits it; a refusal is counted. -/
def walkIndex (m : Mach) : Mach :=
  let m := markSlow m
  let x := m.pwr
  let at_ := walkAt m
  if clamped x || x.localStep ≤ x.groupStep || m.tick.nowUs + m.tick.inForce ≤ at_ then m
  else
    let ok := governorAdmits m
    m |> modStp (fun y => { y with choices := y.choices + 1 })
      |> modPwr (fun y => if ok then { y with localStep := y.localStep - 1, walkUs := at_ + 30 }
                          else { y with deferred := bump 16 1 y.deferred, walkUs := at_ + 5 })

/-- R405: the index that a rise takes at its boundary, unless another came less than 30 µs before it. -/
def walkStart (m : Mach) : Mach := if walkAt m = m.tick.nowUs then walkIndex m else markSlow m

/-- The group step of the tick that opens, with what it does to the module's own clock (R405). -/
def enterStep (step node : Nat) (m : Mach) : Mach :=
  let old := m.pwr.groupStep
  let m := modPwr (fun x => { x with groupStep := step, limitNode := node }) m
  let m := if step = old then m
    else m |> notePower 0 |> modPwr (fun x => { x with stepChanges := bump 16 1 x.stepChanges })
  if clamped m.pwr then m
  else if m.pwr.localStep ≤ step then modPwr (fun x => { x with localStep := step }) m
  else if step < old then walkStart m else m

/-! ### Boundary work (R392 to R408) -/

/-- R401: the clamp inputs acted on: the supply emergency in class 1, the others in class 4. -/
def actClamps (q : Clamp → Bool) (m : Mach) : Mach :=
  forEach (m.pwr.clamps.filter fun c => !c.acted && q c.kind) (fun c m =>
    let m := modPwr (fun p => { p with clamps := p.clamps.map fun d => if d.kind == c.kind then { d with acted := true } else d }) m
    match c.kind with
    | .supply => m |> notePower 4 |> modPwr (fun p => { p with nSupply := bump 16 1 p.nSupply })
    | .thermal => noteThermal 1 m
    | .fast => notePower 6 m) m

/-- R402: the latched ends acted on; without a clamp the clock begins its walk. -/
def actClampEnds (m : Mach) : Mach :=
  let ends := m.pwr.clamps.filter fun c => c.acted && c.ended
  if ends.isEmpty then m
  else
    let m := forEach ends (fun c m =>
      match c.kind with
      | .supply => notePower 5 m
      | .thermal => noteThermal 2 m
      | .fast => m) m
    let m := modPwr (fun p => { p with clamps := p.clamps.filter fun c => !(c.acted && c.ended) }) m
    if clamped m.pwr then m else m |> modPwr (fun p => { p with pace := max p.capPace p.hbmPace }) |> walkStart

/-- R407: the thermal step of a junction temperature. -/
def thermalStepOf (tj : Nat) : Nat := if tj < 92 then 0 else if tj < 100 then 2 * (tj - 91) else 19

/-- R408: the HBM pace of a stack temperature. -/
def hbmPaceOf (th : Nat) : Nat := if th < 90 then 0 else min 15 (4 * (th - 89))

/-- R407, R408: the thermal step latched at the last boundary acted on, this boundary's latched (R42, log 29), and the HBM
pace of the boundary. -/
def actThermal (m : Mach) : Mach :=
  let t := m.pwr.thermalLatched
  let h := hbmPaceOf m.pwr.th
  let m := if t = m.pwr.thermalStep then m else m |> noteThermal 0 |> modPwr (fun p => { p with thermalStep := t })
  let m := if h = m.pwr.hbmPace then m else m |> noteThermal 5 |> modPwr (fun p => { p with hbmPace := h })
  modPwr (fun p => { p with thermalLatched := thermalStepOf p.tj }) m

/-- R399: the step of the cap limiter, firmware's prediction under R503: a free value. -/
def capStepOf (m : Mach) : Nat := Config.capStep m.stp.choices % 20

/-- R399, R401: REQ_STEP and CAUSE. -/
def request (capStep : Nat) (x : PwrSt) : Nat × BitVec 4 :=
  let holds (k : Clamp) : Bool := x.clamps.any fun c => c.kind == k && c.acted
  let lims := [capStep, x.thermalStep, if holds .supply then 19 else 0, x.stepLimit]
  let req := if x.clamps.any (·.acted) then 19 else lims.foldl max 0
  let cause := (lims.zipIdx.map fun y => if y.1 == req && y.1 != 0 then 2 ^ y.2 else 0).sum
  (req, BitVec.ofNat 4 cause ||| BitVec.ofNat 4 (bit (holds .fast) + 2 * bit (holds .thermal) + 4 * bit (holds .supply)))

/-- R399: the request of the boundary. -/
def makeRequest (m : Mach) : Mach :=
  let r := request (capStepOf m) m.pwr
  m |> modStp (fun x => { x with choices := x.choices + 1 }) |> modPwr (fun p => { p with reqStep := r.1, reqCause := r.2 })

/-- R397: the cap pace and the PACE of the next tick. -/
def makePace (ran19 : Bool) (m : Mach) : Mach :=
  let mean := Config.predictedMeanW m.stp.choices
  let lim := limitW m.pwr
  let m := modStp (fun x => { x with choices := x.choices + 1 }) m
  let m := modPwr (fun p =>
    { p with capPace := if ran19 && lim < mean then min 15 (p.capPace + 1)
                        else if mean + 50 < lim then p.capPace - 1 else p.capPace }) m
  let next := if clamped m.pwr then 15 else max m.pwr.capPace m.pwr.hbmPace
  let m := if next = m.pwr.nextPace then m else notePower 8 m
  modPwr (fun p => { p with nextPace := next }) m

/-- The PACE and the clock of the tick that opens (R397). -/
def openPace : Mach → Mach :=
  modPwr fun p => { p with pace := if clamped p then 15 else p.nextPace, ran19 := p.localStep == 19 }

/-- R392: a lease is newer than the last applied. -/
def leaseNewer (last : Option Nat) (q : Nat) : Bool :=
  match last with
  | none => true
  | some l => let d := (q + 65536 - l % 65536) % 65536; 1 ≤ d && d ≤ 32767

/-- R392: CEILING_W is in range. -/
def ceilingOk (w : Nat) : Bool := 600 ≤ w && w ≤ 1600 && w % 5 == 0

/-- R392: the leases latched in one tick, as message number, ceiling and LEASE_SEQ, acted on together. -/
def actLeases (ls : List (Nat × Nat × Nat)) (m : Mach) : Mach :=
  let last := m.pwr.lastLeaseSeq
  let good := ls.filter fun l => ceilingOk l.2.1 && leaseNewer last l.2.2
  let m := forEach ls (fun l m =>
    let st := if !ceilingOk l.2.1 then Status.invalid else if leaseNewer last l.2.2 then .ok else .tooLate
    let m := { m with i3c := { m.i3c with lastSeq := l.1, lastResult := st } }
    if st == .ok then modPwr (fun p => { p with leases := bump 16 1 p.leases }) m
    else m |> notePower 3 |> modPwr (fun p => { p with refused := bump 8 1 p.refused })) m
  match good with
  | [] => m
  | g :: r =>
    let low := r.foldl (fun w l => min w l.2.1) g.2.1
    let top := r.foldl (fun q l => if leaseNewer (some q) l.2.2 then l.2.2 else q) g.2.2
    m |> notePower 1
      |> changeLimit (fun p =>
          { p with ceilingW := low, leased := true, leaseEndUs := m.tick.nowUs + 10000000, lastLeaseSeq := some top })

/-- R393: an expired lease. -/
def leaseExpires (m : Mach) : Mach :=
  if m.pwr.leased && m.pwr.leaseEndUs ≤ m.tick.nowUs then
    m |> notePower 2
      |> changeLimit (fun p => { p with leased := false, ceilingW := 900, lastLeaseSeq := none, expired := bump 8 1 p.expired })
      |> raiseIbi 6
  else m

/-- R409: the coolant-flow alarm raised or cleared. -/
def actAlarm (on : Bool) (m : Mach) : Mach :=
  if on == m.pwr.alarm then m
  else m |> noteThermal (if on then 3 else 4) |> changeLimit (fun p => { p with alarm := on })

/-! ### Shutdowns (R410, R480) -/

/-- R358: LEAVING on every ACTIVE port. -/
def sayLeaving (m : Mach) : Mach :=
  ownNotice .leaving m

/-- R410: hardware stops the clocks and memory, and latches the shutdown. -/
def thermalShutdown (m : Mach) : Mach :=
  if isUp m && (105 ≤ m.pwr.tj || 100 ≤ m.pwr.th) then
    m |> modPwr (fun p => { p with shutLatched := true }) |> raiseIbi 2
  else m

/-- R410: the boundary at which the shutdown is acted on. -/
def actShutdown (m : Mach) : Mach :=
  m |> noteThermal 6 |> powerEvents |> flushEvents |> sayLeaving
    |> modLife (fun x => { x with run := .shutdown })
    |> modPwr (fun p => { p with shutLatched := false })

/-- Table 20.2: a supply fault holds: 1 undervoltage, 2 overvoltage, 3 overcurrent. -/
def supplyFault (x : PwrSt) (cause : Nat) : Bool :=
  match cause with
  | 1 => 500 ≤ x.uvSamples || (x.voltMv < 28000 && !x.window.isEmpty)
  | 2 => 100 ≤ x.ovSamples
  | 3 => 2 ≤ x.ocSamples || 8000 < x.current
  | _ => false

/-- R480, R481, R487: a supply shutdown; one with the reset input asserted is only counted. -/
def supplyShutdown (cause : Nat) (nv : Nv) (m : Mach) : Nv × Mach :=
  if !supplyFault m.pwr cause || m.life.removal || !(isUp m || m.life.run == .held || m.life.run == .warmOff) then (nv, m)
  else
    let nv := match cause with
      | 1 => { nv with uvShut := bump 8 1 nv.uvShut }
      | 2 => { nv with ovShut := bump 8 1 nv.ovShut }
      | _ => { nv with ocTrip := bump 8 1 nv.ocTrip }
    if !isUp m then (nv, m)
    else
      ({ nv with lastShut := cause },
       m |> sayLeaving |> raiseIbi 4
         |> modLife (fun x => { x with run := .shutdown, switchOn := x.switchOn && cause != 3 }))

/-! ### Gating (R411) -/

/-- A pod with a unit issued, running or waiting. -/
def podHasUnit (m : Mach) (pod : Nat) : Bool :=
  (List.range 4).any fun i => let a := peaOf m (4 * pod + i); a.active.isSome || a.ready

/-- R411: the boundaries at which each pod had no unit. -/
def countIdle (m : Mach) : Mach :=
  modPwr (fun x => { x with idleTicks := x.idleTicks.mapIdx fun p n => if podHasUnit m p then 0 else bump 10 1 n }) m

/-- R411: a pod is gated at the boundary after GATE_TICKS without a unit. -/
def gatePod (pod : Nat) (m : Mach) : Mach :=
  if pod < 48 && m.pwr.gateTicks != 0 && m.pwr.gateTicks < m.pwr.idleTicks.getD pod 0 && !m.pwr.gated.contains pod
      && !podHasUnit m pod then
    modPwr (fun x => { x with gated := insRising pod x.gated }) m
  else m

/-- R411: a pod's ungating completes. -/
def ungatePod (pod : Nat) : Mach → Mach :=
  modPwr fun x =>
    if x.ungating.contains pod then
      { x with gated := x.gated.filter (· != pod), ungating := x.ungating.filter (· != pod) }
    else x

/-! ### Energy (R412 to R414) -/

/-- R413: `x` shared out over the parts of a total so that the shares sum to it. -/
def shareOut (x total : Nat) : Nat → List (Nat × Nat) → List (Nat × Nat)
  | _, [] => []
  | before, (c, e) :: r =>
    (c, x * (before + e) / max 1 total - x * before / max 1 total) :: shareOut x total (before + e) r

/-- The account of a tenancy: its own, and its open contexts' (R413). -/
def tenAccount (m : Mach) (t : Nat) : Account :=
  ((List.range 256).filter fun c => (ctxOf m c).isOpen && (ctxOf m c).ten == t).foldl
    (fun a c => foldAcct (ctxOf m c).acct a) (tenOf m t).acct

/-- R412, R413: a context's modelled energy from its counts of Table 16.2. -/
def modelled (c i : Nat) (a : Account) : Nat :=
  Config.modelledEnergy c i a.macs [a.vecOps, a.sliceBytes, a.tierBytes, a.fabTx, a.podTicks]

/-- R413: the contexts of an interval, with their tenancies and counts: the open ones and those closed in it, marked. -/
def calParts (m : Mach) : List (Bool × Nat × Nat × Account) :=
  (((List.range 256).filter fun c => (ctxOf m c).isOpen).map fun c => (true, c, (ctxOf m c).ten, (ctxOf m c).acct)) ++
    m.pwr.calClosed.map fun x => (false, x)

/-- R168, R413: a share of the measured energy charged to a context, or to the tenancy of one that has closed, unless its account
is frozen. -/
def chargeShare (x : Bool × Nat × Nat × Account) (mj : Nat) : Mach → Mach :=
  let add (a : Account) : Account := { a with energyMj := a.energyMj + mj }
  if x.1 then modCtx x.2.1 fun y => { y with acct := add y.acct } else modTen x.2.2.1 fun y => if y.acct.frozen then y else { y with acct := add y.acct }

/-- R413: the calibration of the boundary. -/
def calibrate (m : Mach) : Mach :=
  let now := m.tick.nowUs
  if now < m.pwr.lastCalUs + 1000000 then m
  else
    let i := m.pwr.calNo
    let em := m.pwr.energy / 10000000 - m.pwr.lastCal / 10000000
    let ex := Config.modelledModuleEnergy i
    let cs := calParts m
    let parts := cs.map fun x => (x.2.1, modelled x.2.1 i x.2.2.2)
    let total := (parts.map (·.2)).sum
    let pay := if total = 0 then 0 else em - ex
    let shares := shareOut pay total 0 parts
    let m := forEach (cs.zip shares) (fun s => chargeShare s.1 s.2.2) m
    modPwr (fun p =>
      { p with moduleMj := p.moduleMj + (em - pay), lastCalUs := now, lastCalTick := m.tick.count, lastCal := p.energy, calClosed := []
               factor := if em < ex then 0 else Config.calibrationFactor (em - ex) total, calNo := p.calNo + 1
               calCtx := (List.range 256).map fun c => (c, (ctxOf m c).acct)
               calTen := (List.range 48).map fun t => (t, tenAccount m t) }) m

/-- Table 16.3: the output of ENERGY_READ. -/
def energyOut (p : PwrSt) (scope target : Nat) : List Byte :=
  let a : Account := match scope with
    | 0 => (alGet target p.calCtx).getD {}
    | 1 => (alGet target p.calTen).getD {}
    | _ => { energyMj := p.moduleMj }
  le 8 p.lastCalTick ++ le 8 a.energyMj ++ le 8 a.podTicks ++ le 4 (sat 32 a.ovrClock) ++ le 4 (sat 32 a.ovrStall) ++
    le 4 (sat 32 a.ovrFabric) ++ le 4 (sat 32 a.ovrEstimate) ++ le 8 a.fabTx ++ le 8 a.fabRx ++ le 4 (sat 32 a.deniedIn) ++
    le 4 p.factor.toNat

/-- R414: ENERGY_READ. -/
def pktEnergyRead (h : Hdr) (scope target out : Nat) : Packet :=
  packet { op := 0xA2 } h
    (fun m => scope ≤ 2 && out % 32 == 0 && (match scope with
      | 0 => target ≤ 255 && (h.ctx == 0 || target == h.ctx)
      | 1 => target ≤ 47 && (h.ctx == 0 || target == hTen m h)
      | _ => target == 0 && h.ctx == 0))
    (fun _ m => m |> putHost out (energyOut m.pwr scope target) |> reply h .ok 64)

/-- R394: CAP_SET. -/
def pktCapSet (h : Hdr) (w : Nat) : Packet :=
  packet { op := 0xA0, zeroOnly := true } h (fun _ => ceilingOk w)
    (fun _ m => let m := changeLimit (fun p => { p with capW := w }) m; reply h .ok (limitW m.pwr) m)

/-- R400: STEP_LIMIT. -/
def pktStepLimit (h : Hdr) (step : Nat) : Packet :=
  packet { op := 0xA1, zeroOnly := true, expert := true } h (fun _ => step ≤ 19)
    (fun _ m => m |> modPwr (fun p => { p with stepLimit := step }) |> reply h .ok step)

/-- R390: TELEMETRY_SAMPLE. -/
def execTelemetrySample (x : Sample) (s : State) : Host.Outcome State Fault Refusal :=
  onM (fun m => if m.life.run == .removed then m else takeSample x m) s
/-- R402: CLAMP_END. -/
def execClampEnd (s : State) : Host.Outcome State Fault Refusal := onUp latchClampEnds s
/-- R405: STEP_WALK_INDEX. -/
def execStepWalkIndex (s : State) : Host.Outcome State Fault Refusal := onUp walkIndex s
/-- R410: THERMAL_SHUTDOWN. -/
def execThermalShutdown (s : State) : Host.Outcome State Fault Refusal := onUp thermalShutdown s
/-- R480: SUPPLY_SHUTDOWN. -/
def execSupplyShutdown (cause : Nat) (s : State) : Host.Outcome State Fault Refusal :=
  let r := supplyShutdown cause s.nv s.m
  .next { s with nv := r.1, m := r.2 }
/-- R393: LEASE_EXPIRY. -/
def execLeaseExpiry (s : State) : Host.Outcome State Fault Refusal := atBoundary (fun _ => leaseExpires) s
/-- R413: ENERGY_CALIBRATION. -/
def execEnergyCalibration (s : State) : Host.Outcome State Fault Refusal := atBoundary (fun _ => calibrate) s
/-- R411: POD_GATE. -/
def execPodGate (pod : Nat) (s : State) : Host.Outcome State Fault Refusal := atBoundary (fun _ => gatePod pod) s
/-- R411: POD_UNGATE_DONE. -/
def execPodUngateDone (pod : Nat) (s : State) : Host.Outcome State Fault Refusal := onUp (ungatePod pod) s
/-- R394: CAP_SET. -/
def execCapSet (h : Hdr) (capW : Nat) (s : State) : Host.Outcome State Fault Refusal := runPacket (pktCapSet h capW) s
/-- R400: STEP_LIMIT. -/
def execStepLimit (h : Hdr) (step : Nat) (s : State) : Host.Outcome State Fault Refusal := runPacket (pktStepLimit h step) s
/-- R414: ENERGY_READ. -/
def execEnergyRead (h : Hdr) (scope target outPtr : Nat) (s : State) : Host.Outcome State Fault Refusal :=
  runPacket (pktEnergyRead h scope target outPtr) s

end Sys2Proof.Machine
end

