-- ==== Sys2Proof/Machine/TickSync.lean ====
section
/-! DEFINITION. Tick synchronisation and job groups: the tree, TSYNC and TREQ, the grant, misses and loss,
joining and leaving (R31 to R41, R56, R362 to R368, R403, R404). -/

namespace Sys2Proof.Machine

/-! ### The tree (R364) -/

/-- R364: the port of the first hop from a node to the root, in dimension order 0. -/
def firstHop (pl : Plan) (a b : PlanNode) : Option Nat :=
  ([0, 1, 2].map fun d => dimStep pl a b 0 d).find? (·.1 != 0) |>.map (·.2)

/-- An entry of a plan. -/
def planEnt (pl : Plan) (n : Nat) : Option PlanNode := pl.nodes.find? (·.node == n)

/-- The plan neighbour of a node's port. -/
def planPeer (a : PlanNode) (p : Nat) : Option Nat := (a.peers[p]?.getD none).map (·.1)

/-- R364: the nodes of a tree path after its first. -/
def treePath (pl : Plan) (root : PlanNode) : Nat → PlanNode → List Nat
  | 0, _ => []
  | fuel + 1, a =>
    match (firstHop pl a root).bind (planPeer a) with
    | none => []
    | some n =>
      match planEnt pl n with
      | none => [n]
      | some b => n :: treePath pl root fuel b

/-- R364: every node on every member's tree path is a member. -/
def routeClosed (pl : Plan) (root : PlanNode) (members : List Nat) : Bool :=
  members.all fun n =>
    match planEnt pl n with
    | none => false
    | some a => (treePath pl root 24 a).all (members.contains ·)

/-- R364: the ports whose plan neighbour is a member whose own first hop leads here. -/
def downPorts (pl : Plan) (self root : PlanNode) (members : List Nat) : List Nat :=
  (List.range 6).filter fun p =>
    match planPeer self p with
    | none => false
    | some n => members.contains n && n != root.node &&
      (match planEnt pl n with
       | none => false
       | some b => ((firstHop pl b root).bind (planPeer b)) == some self.node)

/-! ### Sync state -/

/-- R365: a member, other than the root, that has passed its join boundary and is not leaving. -/
def isMember (m : Mach) : Bool := !m.tick.root && m.tick.group != 0 && m.tick.join.isNone && m.tick.leaves.isEmpty

/-- A member that fires from its group's TSYNCs. -/
def follows (m : Mach) : Bool := isMember m && !m.tick.lost

/-- R55: back to the group of one, the tick count going on. -/
def groupOfOne : Mach → Mach :=
  modTick fun t =>
    { t with root := true, upstream := 0, downstream := 0, group := 0, members := [], rootNode := 0, join := none
             formed := false, leaves := [], gone := [], freeRun := false, missed := false, missRun := 0, lost := false
             lossLatched := false, tsync := none, treqs := [], launched := none, next1 := t.periodUs, next2 := t.periodUs }

/-- R363: a GROUP_JOIN's checks. -/
def joinOk (m : Mach) (group root planId : Nat) (members : List Nat) : Bool :=
  1 ≤ group && group ≤ 4095 && root ≤ 0xFFF &&
    match m.link.plan with
    | none => false
    | some pl =>
      pl.id == planId && 2 ≤ members.length && members.Nodup && members.all (fun n => (planEnt pl n).isSome)
        && members.contains (selfNode m) && members.contains root
        && (match planEnt pl root with
            | none => false
            | some r => routeClosed pl r members)
        && (m.tick.group == 0 || m.tick.lost)

/-- R365: a GROUP_JOIN acted on. -/
def startJoin (h : Hdr) (group root : Nat) (members : List Nat) (m : Mach) : Mach :=
  match m.link.plan with
  | none => m
  | some pl =>
    match planEnt pl (selfNode m), planEnt pl root with
    | some a, some r =>
      let here := root = selfNode m
      modTick (fun t =>
        { t with
          root := here, group, rootNode := root, members := sortBy (fun a b => a ≤ b) members, formed := false, gone := []
          upstream := if here then 0 else (firstHop pl a r).getD 0
          downstream := maskOf (downPorts pl a r members), treqs := [], tsync := none
          lost := if here then false else t.lost, lossLatched := if here then false else t.lossLatched
          missRun := if here then 0 else t.missRun, launched := if here then none else t.launched
          join := some { seq := h.seq, group, root, members, startUs := t.nowUs } }) m
    | _, _ => m

/-- A join not replied to ends with a packet that takes its place. -/
def cancelJoin (h : Hdr) (m : Mach) : Mach :=
  match m.tick.join with
  | some j => m |> modTick (fun t => { t with join := none }) |> finalise 0 j.seq .cancelled h.seq
  | none => m

/-- R362: GROUP_JOIN.  DESIGN CHOICE: a join from LOST under way ends CANCELLED where another GROUP_JOIN is acted on, as R367
ends it where the module leaves (log 144). -/
def pktGroupJoin (h : Hdr) (group root planId : Nat) (members : List Nat) : Packet :=
  packet { op := 0x80, zeroOnly := true } h (fun m => joinOk m group root planId members)
    (fun _ m => m |> cancelJoin h |> startJoin h group root members)

/-- R367: GROUP_LEAVE. -/
def pktGroupLeave (h : Hdr) : Packet :=
  packet { op := 0x81, zeroOnly := true } h (fun _ => true)
    (fun fs m =>
      m |> cancelJoin h |> modTick (fun t => { t with leaves := t.leaves ++ [(h.seq, t.count)] }) |> faultColls fs (fun _ => true) .poisoned 4)

/-! ### The grant (R40, R403, R404) -/

/-- R404: what the ramp limit makes of a wanted step. -/
def rampLimit (period wait cur want : Nat) : Nat :=
  if cur ≤ want then want
  else if 30 ≤ period then max want (cur - max 1 (period / 30))
  else if wait = 0 then cur - 1 else cur

/-- The nodes whose requests enter the grant, with the TREQ each has given (R40, R366, R368). -/
def grantRequests (m : Mach) : List (Nat × Nat × Bool) :=
  let own := (selfNode m, m.pwr.reqStep, m.pwr.reqCause.getLsbD 2)
  if m.tick.group = 0 || !m.tick.root then [own]
  else
    (m.tick.members.filter fun n => !m.tick.gone.contains n).map fun n =>
      if n = selfNode m then own
      else
        match m.tick.treqs.find? (·.node == n) with
        | none => (n, m.pwr.groupStep, false)
        | some t => (n, t.reqStep, t.tick == m.tick.count && t.cause.testBit 2)

/-- R32, R40: the grant and the period of the tick after the next are fixed. -/
def makeGrant (m : Mach) : Mach :=
  let rs := grantRequests m
  let want := (rs.map (·.2.1)).foldl max 0
  let floor := m.tick.group != 0 && rs.any (·.2.2)
  let cur := m.pwr.nextStep
  let ramp := rampLimit m.tick.inForce m.pwr.riseTicks cur want
  let step := if floor then 19 else ramp
  let node := if step = want then ((rs.filter (·.2.1 == step)).map (·.1)).foldl min 0xFFFF else 0xFFFF
  m |> modPwr (fun p =>
        { p with grantStep := step, grantNode := node, floor
                 riseTicks := if step < cur then (29 + m.tick.inForce) / m.tick.inForce - 1 else p.riseTicks - 1 })
    |> modTick (fun t => { t with next2 := t.periodUs, launched := some (t.count + 1) })

/-- R34: the TSYNC for the next boundary, as the root fills it. -/
def rootTsync (m : Mach) : Tsync :=
  { group := m.tick.group, tick := m.tick.count + 1, periodUs := m.tick.next1, step := m.pwr.nextStep
    nextStep := m.pwr.grantStep, nextPeriodUs := m.tick.next2, pathDelayNs := 0, hops := 0, floor := m.pwr.floor
    rootNode := selfNode m }

/-- The DOWNSTREAM ports that can carry a TICK flit (R319). -/
def treePorts (m : Mach) : List Nat :=
  (List.range 6).filter fun p => m.tick.downstream.testBit p && (portOf m p).state == .active

/-- R33: the protocol version of a port, as a tick message carries it. -/
def portVersion (m : Mach) (p : Nat) : Nat := (portOf m p).proto % 256

/-- R34: ROOT_TSYNC_LAUNCH.  In a group of one, and by a root that leaves its group, the grant is made and nothing is sent
(R55, R367). -/
def launchTsync (m : Mach) : Mach :=
  if !m.tick.root || !m.tick.started || m.tick.launched == some (m.tick.count + 1) then m
  else
    let m := makeGrant m
    if m.tick.group = 0 || !m.tick.leaves.isEmpty then m
    else forEach (treePorts m) (fun p m => send (.linkTsync p { rootTsync m with version := portVersion m p }) m) m

/-- R34: a tick message on a port the tree does not assign. -/
def dropTick (p : Nat) : Mach → Mach := modPort p fun x => { x with tickDrop := bump 8 1 x.tickDrop }

/-- R37: the fields of a TSYNC that apply to a boundary already fired. -/
def lateTsync (t : Tsync) (m : Mach) : Mach :=
  m |> enterStep t.step 0xFFFF |> modPwr (fun p => { p with nextStep := t.nextStep })
    |> modTick (fun x => { x with next1 := t.nextPeriodUs })

/-- Table 2.3: a TSYNC's bytes. -/
def tsyncBytes (t : Tsync) : List Byte :=
  padTo 32 (le 1 1 ++ le 1 t.version ++ le 2 t.group ++ le 8 t.tick ++ le 2 t.periodUs ++ le 1 t.step ++ le 1 t.nextStep ++
    le 2 t.nextPeriodUs ++ le 2 t.pathDelayNs ++ le 1 t.hops ++ le 1 (bit t.floor) ++ le 2 t.rootNode)

/-- R39: a TREQ's bytes. -/
def treqBytes (t : Treq) : List Byte :=
  le 1 2 ++ le 1 t.version ++ le 2 t.group ++ le 8 t.tick ++ le 2 t.node ++ le 1 t.reqStep ++ le 1 t.cause

/-- Table 19.2: a tick message as received, with its arrival offset (a free value, log 26). -/
def captureTick (port : Nat) (bs : List Byte) (m : Mach) : Mach :=
  captureAt [0, port] 0x09 4 port (bs ++ le 4 (Config.arrivalNs port m.tick.count m.cap.current.length)) m

/-- R34, R35: TSYNC_RECEIVE.  DESIGN CHOICE: a TSYNC that comes on the assigned port but names another GROUP is discarded and
counted as one on another port is, and so is one that comes after the module's GROUP_LEAVE was acted on; the spec gives no rule
for either (log 109). -/
def receiveTsync (port : Nat) (t : Tsync) (m : Mach) : Mach :=
  let x := m.tick
  if x.root || x.group = 0 || !x.leaves.isEmpty || port != x.upstream || t.group != x.group
      || (portOf m port).state != .active then dropTick port m
  else
    let pd := t.pathDelayNs + (portOf m port).delayNs
    let m := captureTick port (tsyncBytes t) m
    let t := { t with pathDelayNs := pd, hops := t.hops + 1 }
    let m := forEach (treePorts m) (fun p m => send (.linkTsync p { t with version := portVersion m p }) m) m
    let m := m |> modTick (fun x => { x with pathDelayNs := sat 16 pd, hops := sat 8 t.hops })
    if 3500 < pd || 24 < t.hops then m
    else
      let m := m |> modPwr (fun p => { p with floor := t.floor }) |> modTick (fun x => { x with lastTsync := t.tick })
      if x.join.isSome || (!x.lost && t.tick = x.count + 1) then modTick (fun x => { x with tsync := some t }) m
      else if !x.lost && t.tick = x.count then lateTsync t m
      else m

/-- R37: the TSYNC of the next boundary is missed. -/
def missTsync (m : Mach) : Mach :=
  if follows m && m.tick.tsync.isNone && !m.tick.missed then
    modTick (fun t => { t with missed := true, missRun := min 3 (t.missRun + 1), missTotal := bump 16 1 t.missTotal }) m
  else m

/-- R38: three misses in a row latch a tick-sync loss. -/
def loseSync (m : Mach) : Mach :=
  if m.tick.missRun = 3 && follows m && !m.tick.lossLatched then modTick (fun t => { t with lossLatched := true }) m else m

/-- R38: the tick-sync loss acted on. -/
def actSyncLoss (m : Mach) : Mach :=
  if !m.tick.lossLatched then m
  else
    m |> modTick (fun t =>
          { t with lossLatched := false, lost := true, lostSeen := true, next1 := t.inForce, next2 := t.inForce })
      |> modPwr (fun p => { p with nextStep := p.groupStep, grantStep := p.groupStep })
      |> emitAll 0x06 0 (le 2 m.tick.group ++ le 6 m.tick.lastTsync)
      |> forEach (evtRings m) (fun c => setEvt c 0)

/-- R40: the latest TREQ of a member kept. -/
def keepTreq (t : Treq) (l : List Treq) : List Treq :=
  if l.any fun x => x.node == t.node && t.tick < x.tick then l else t :: l.filter (·.node != t.node)


/-- R366, R368: the members whose first TREQ the root still expects. -/
def silentMembers (m : Mach) : List Nat :=
  m.tick.members.filter fun n => n != selfNode m && !m.tick.gone.contains n && !(m.tick.treqs.any (·.node == n))

/-- R365: the root's group is formed once a TREQ of every member it expects has come. -/
def noteFormed (m : Mach) : Mach := modTick (fun x => { x with formed := x.formed || (silentMembers m).isEmpty }) m

/-- R368: the root expects no TREQ of a lost member. -/
def memberLost (node : Nat) (m : Mach) : Mach :=
  if m.tick.root && m.tick.members.contains node then
    noteFormed (modTick (fun t => { t with gone := insRising node t.gone }) m)
  else m

/-- R39, R41: TREQ_RECEIVE.  DESIGN CHOICE: a TREQ of another GROUP is discarded and counted as one on an unassigned port is
(log 109). -/
def receiveTreq (port : Nat) (t : Treq) (m : Mach) : Mach :=
  let x := m.tick
  if x.group = 0 || !x.leaves.isEmpty || !x.downstream.testBit port || t.group != x.group
      || (portOf m port).state != .active then dropTick port m
  else if !x.root then
    let m := captureTick port (treqBytes t) m
    if (portOf m x.upstream).state == .active then
      send (.linkTreq x.upstream { t with version := portVersion m x.upstream }) m
    else m
  else
    let late := x.launched.any fun l => t.tick < l
    m |> captureTick port (treqBytes t)
      |> modTick (fun x => { x with lateReq := if late then bump 8 1 x.lateReq else x.lateReq, treqs := keepTreq t x.treqs })
      |> noteFormed

/-- R38, R39: the TREQ of the tick that opens, which a member sends in every tick, one that lost its sync included. -/
def sendTreq (m : Mach) : Mach :=
  let x := m.tick
  if isMember m && (portOf m x.upstream).state == .active then
    send (.linkTreq x.upstream { version := portVersion m x.upstream, group := x.group, tick := x.count, node := selfNode m,
                                 reqStep := m.pwr.reqStep, cause := m.pwr.reqCause.toNat }) m
  else m

/-- R366: GROUP_JOIN_TIMEOUT. -/
def joinTimeout (m : Mach) : Mach :=
  match m.tick.join with
  | none => m
  | some j =>
    if m.tick.nowUs < j.startUs + 1000000 then m
    else
      let d := if m.tick.root then (silentMembers m).foldl min 0xFFFF else j.root
      m |> finalise 0 j.seq .targetLost d |> groupOfOne

/-! ### The boundary fires (R37, R48, R56) -/

/-- The new tick's number and time. -/
def countTick (n period next : Nat) : Mach → Mach :=
  modTick fun t => { t with count := n, nowUs := t.nowUs + t.inForce, inForce := period, next1 := next, tsync := none
                            missed := false, goDone := false }

/-- R56: the boundary from which a member counts with its group. -/
def joinBoundary (j : Join) (t : Tsync) (m : Mach) : Mach :=
  m |> countTick t.tick t.periodUs t.nextPeriodUs
    |> enterStep t.step 0xFFFF
    |> modPwr (fun p => { p with nextStep := t.nextStep, nextNode := 0xFFFF })
    |> modTick (fun x => { x with join := none, lost := false, lossLatched := false, missRun := 0, freeRun := false })
    |> finalise 0 j.seq .ok (t.hops + 2 ^ 16 * t.pathDelayNs)

/-- A boundary from the group's TSYNC, or from the local estimate where it was missed (R37, R48). -/
def followBoundary (m : Mach) : Mach :=
  let m := missTsync m
  let missed := m.tick.missed
  match m.tick.tsync with
  | some t =>
    m |> countTick (m.tick.count + 1) t.periodUs t.nextPeriodUs |> enterStep t.step 0xFFFF
      |> modPwr (fun p => { p with nextStep := t.nextStep, nextNode := 0xFFFF })
      |> modTick (fun x => { x with freeRun := missed, missRun := if missed then x.missRun else 0 })
  | none =>
    let p := m.tick.next1
    let s := m.pwr.nextStep
    m |> countTick (m.tick.count + 1) p p |> enterStep s 0xFFFF |> modTick (fun x => { x with freeRun := true })

/-- A boundary from the module's own timer. -/
def ownBoundary (m : Mach) : Mach :=
  let m := if m.tick.launched == some (m.tick.count + 1) || m.tick.lost then m else makeGrant m
  let (s, n) := (m.pwr.nextStep, m.pwr.nextNode)
  m |> countTick (m.tick.count + 1) m.tick.next1 m.tick.next2 |> enterStep s n
    |> modPwr (fun p => { p with nextStep := p.grantStep, nextNode := p.grantNode })
    |> modTick (fun x => { x with freeRun := x.freeRun && x.lost })

/-- R48 step 1: the boundary fires and the tick count advances. -/
def fireTick (m : Mach) : Mach :=
  if follows m then followBoundary m
  else
    match m.tick.join, m.tick.tsync with
    | some j, some t => joinBoundary j t m
    | _, _ => ownBoundary m

/-- R365, R367: a join or a leave that is complete at the boundary replies. -/
def finishJoin (seq : Nat) (m : Mach) : Mach :=
  let m := match m.tick.join with
    | some j => if j.seq == seq && m.tick.root && m.tick.formed then
        m |> modTick (fun t => { t with join := none }) |> finalise 0 j.seq .ok m.tick.members.length
      else m
    | none => m
  if m.tick.leaves.any fun l => l.1 == seq && l.2 < m.tick.count then
    m |> groupOfOne |> modTick (fun t => { t with leaves := m.tick.leaves.filter (·.1 != seq) }) |> finalise 0 seq .ok 0
  else m

/-- R34: ROOT_TSYNC_LAUNCH. -/
def execRootTsyncLaunch (s : State) : Host.Outcome State Fault Refusal := onUp launchTsync s
/-- R34: TSYNC_RECEIVE. -/
def execTsyncReceive (port : Nat) (m : Tsync) (s : State) : Host.Outcome State Fault Refusal := onUp (receiveTsync port m) s
/-- R37: TSYNC_MISS. -/
def execTsyncMiss (s : State) : Host.Outcome State Fault Refusal := onUp missTsync s
/-- R38: TICK_SYNC_LOSS. -/
def execTickSyncLoss (s : State) : Host.Outcome State Fault Refusal := onUp loseSync s
/-- R39: TREQ_RECEIVE. -/
def execTreqReceive (port : Nat) (m : Treq) (s : State) : Host.Outcome State Fault Refusal := onUp (receiveTreq port m) s
/-- R366: GROUP_JOIN_TIMEOUT. -/
def execGroupJoinTimeout (s : State) : Host.Outcome State Fault Refusal := atBoundary (fun _ => joinTimeout) s
/-- R362: GROUP_JOIN. -/
def execGroupJoin (h : Hdr) (group rootNode planId : Nat) (members : List Nat) (s : State) :
    Host.Outcome State Fault Refusal := runPacket (pktGroupJoin h group rootNode planId members) s
/-- R367: GROUP_LEAVE. -/
def execGroupLeave (h : Hdr) (s : State) : Host.Outcome State Fault Refusal := runPacket (pktGroupLeave h) s

end Sys2Proof.Machine
end

