-- ==== Sys2Proof/Machine/Shards.lean ====
section
/-! DEFINITION. Manifests, shard installs and the checks of installed shards (R379 to R388). -/

namespace Sys2Proof.Machine

/-! ### Manifests (R380, R381) -/

/-- A manifest of a tenancy, stored or being loaded. -/
def findManifest (m : Mach) (t slot : Nat) : Option Manifest := (tenOf m t).manifests.find? (·.slot == slot)

/-- One manifest changed. -/
def modManifest (t slot : Nat) (f : Manifest → Manifest) : Mach → Mach :=
  modTen t fun x => { x with manifests := x.manifests.map fun k => if k.slot == slot then f k else k }

/-- A manifest slot emptied. -/
def dropManifest (t slot : Nat) : Mach → Mach :=
  modTen t fun x => { x with manifests := x.manifests.filter (·.slot != slot) }

/-- R380: MANIFEST_LOAD LOAD. -/
def pktManifestLoad (h : Hdr) (slot ptr len : Nat) (key : List Byte) : Packet :=
  packet { op := 0x90, tenant := true } h
    (fun m => slot ≤ 15 && ptr % 8 == 0 && key.length == 32 && (h.ctx == 0 || (findManifest m (hTen m h) slot).isNone))
    (fun _ m =>
      m |> modTen (hTen m h) (fun x =>
            { x with manifests := x.manifests ++ [{ slot, ctx := h.ctx, seq := h.seq, len, keyDigest := key }] })
        |> askHost (.manifest (hTen m h) slot) ptr len)

/-- R380: MANIFEST_LOAD UNLOAD. -/
def pktManifestUnload (h : Hdr) (slot : Nat) : Packet :=
  packet { op := 0x90, tenant := true } h
    (fun m => slot ≤ 15 && (h.ctx == 0 ||
      (!((findManifest m (hTen m h) slot).any (!·.loaded)) && !((tenOf m (hTen m h)).shards.any (·.blk.slot == slot)))))
    (fun _ m => m |> dropManifest (hTen m h) slot |> reply h .ok 0)

/-- R381: the image of a load arrives, or its fetch fails. -/
def manifestArrives (t slot : Nat) (data : Option (List Byte)) : Mach → Mach :=
  modManifest t slot fun k => { k with done := true, image := data }

/-- R381: the check of a fetched image ends. -/
def manifestChecked (t slot : Nat) : Mach → Mach :=
  modManifest t slot fun k => if k.done && !k.loaded then { k with checked := true } else k

/-- Table 15.7: an entry of a manifest image is well formed. -/
def manEntryOk (i : Nat) (e : List Byte) : Bool :=
  field e 0 4 == i && 1 ≤ field e 4 5 && allZero ((e.drop 9).take 23)

/-- R381: what becomes of a checked load: its code, its DETAIL and its entries. -/
def manifestVerdict (k : Manifest) : Status × Nat × List (Nat × List Byte) :=
  match k.image with
  | none => (.poisoned, 5, [])
  | some img =>
    let n := field img 16 2
    let sig := field img 20 4
    let ents := chunksOf 64 n ((img.drop 64).take (64 * n))
    let headOk := field img 0 1 == 1 && field img 1 3 == 0 && 1 ≤ n && field img 18 2 == 0 && allZero ((img.drop 24).take 40)
      && [1776, 3604, 5432].contains sig && k.len == 124 + 64 * n + sig && img.length == k.len
    if !headOk then (.invalid, 0xFFFFFF00, [])
    else
      match (ents.zipIdx.find? fun e => !manEntryOk e.2 e.1).map (·.2) with
      | some i => (.invalid, 256 * i, [])
      | none =>
        let body := img.take (64 + 64 * n)
        let pub := (img.drop body.length).take 60
        if sha256 pub == k.keyDigest && hssVerify pub body (img.drop (body.length + 60)) then
          (.ok, n, ents.map fun e => (field e 4 5, e.drop 32))
        else (.sigFail, 0, [])

/-- R381: the checked loads of a context resolved, at the start of its class 7. -/
def resolveManifests (c : Nat) (m : Mach) : Mach :=
  forEach (List.range 48) (fun t m =>
    forEach ((tenOf m t).manifests.filter fun k => k.checked && !k.loaded && k.ctx == c) (fun k m =>
      let v := manifestVerdict k
      let m := match v.1 with
        | .ok => modManifest t k.slot (fun k =>
            { k with loaded := true, modelId := ((k.image.getD []).drop 4).take 8, image := none, shards := v.2.2 }) m
        | _ => dropManifest t k.slot m
      finalise k.ctx k.seq v.1 v.2.1 m) m) m

/-! ### Shards (R382 to R386) -/

/-- A shard of a tenancy by manifest slot and index. -/
def findShard (m : Mach) (t slot shard : Nat) : Option Shard :=
  (tenOf m t).shards.find? fun s => s.blk.slot == slot && s.blk.shard == shard

/-- One shard changed. -/
def modShard (t slot shard : Nat) (f : Shard → Shard) : Mach → Mach :=
  modTen t fun x => { x with shards := x.shards.map fun s => if s.blk.slot == slot && s.blk.shard == shard then f s else s }

/-- A shard's record deleted. -/
def dropShard (t slot shard : Nat) : Mach → Mach :=
  modTen t fun x => { x with shards := x.shards.filter fun s => !(s.blk.slot == slot && s.blk.shard == shard) }

/-- R389: an install finalised other than OK. -/
def countInstallFail : Mach → Mach := modFab fun f => { f with shInstallFail := bump 16 1 f.shInstallFail }

/-- Length and digest of the entry an install names. -/
def shardEntry (m : Mach) (t slot shard : Nat) : Option (Nat × List Byte) :=
  (findManifest m t slot).bind fun k => if k.loaded then k.shards[shard]? else none

/-- Table 15.8: the fields of an INSTALL lie in their ranges. -/
def shardFields (b : ShardBlk) : Bool :=
  b.slot ≤ 15 && b.basePage < 2 ^ 24 && b.upNode ≤ 0xFFF && b.queue ≤ 1023 && b.downNode ≤ 0xFFF && b.downQueue ≤ 1023
    && 1 ≤ b.order && b.order ≤ 7 && b.src % 64 == 0 && b.src < 2 ^ 45
    && (if b.upstream then b.src == 0 else b.upNode == 0 && b.queue == 0) && (!b.downNone || b.downQueue == 0)

/-- R382: an INSTALL's checks against the tenancy. -/
def shardOk (m : Mach) (h : Hdr) (b : ShardBlk) : Bool :=
  let t := hTen m h
  match shardEntry m t b.slot b.shard with
  | none => false
  | some (len, _) =>
    let n := (len + pageSize - 1) / pageSize
    (findShard m t b.slot b.shard).isNone && b.basePage + n ≤ 2 ^ 24
      && (List.range' b.basePage n).all (fun i => (findPage m t i).isNone && !reserved m t i)
      && !(b.upstream && (tenOf m t).shards.any fun s => (s.st == .installing || s.st == .hashed) && s.blk.upstream && s.blk.queue == b.queue)

/-- R184, R382: pages pinned in HBM, those of installs under way included. -/
def pinnedHbm (m : Mach) : Nat := pinned m 1 + (((installs m).filter (·.blk.pinHbm)).map shardPages).sum

/-- R382: SHARD_INSTALL INSTALL. -/
def pktShardInstall (h : Hdr) (b : ShardBlk) : Packet :=
  packet { op := 0x91, tenant := true } h (fun m => shardFields b && (h.ctx == 0 || shardOk m h b))
    (fun fs m =>
      let t := hTen m h
      let len := ((shardEntry m t b.slot b.shard).map (·.1)).getD 0
      let n := (len + pageSize - 1) / pageSize
      if claimable fs m < claims m + n then m |> countInstallFail |> reply h .noSpace 1
      else if b.pinHbm && pinLimit 1 < pinnedHbm m + n then m |> countInstallFail |> reply h .noSpace 2
      else if 4096 ≤ (tenOf m t).shards.length then m |> countInstallFail |> reply h .noSpace 0x50
      else
        modTen t (fun x => { x with shards := x.shards ++
          [{ blk := b, ctx := h.ctx, seq := h.seq, key := (ctxOf m h.ctx).key, length := len, lastHdrUs := m.tick.nowUs
             hours := (ctxOf m h.ctx).verifyHours }] }) m)

/-- R383: a chunk header's bytes. -/
def chunkHdr (c len : Nat) (abandoned : Bool) : List Byte := le 4 c ++ le 4 len ++ le 1 (bit abandoned) ++ zeros 7

/-- R383: a chunk header sent to the downstream node. -/
def sendChunkHdr (fs : FlashState) (t : Nat) (s : Shard) (len : Nat) (abandoned : Bool) : Mach → Mach :=
  sendMsg fs (.shard t s.blk.slot s.blk.shard) t s.ctx s.seq s.blk.downNode (8192 + s.blk.downQueue) (2 ^ 44 + 16 * s.next)
    s.blk.order (chunkHdr s.next len abandoned) true

/-- R385: an install ends unfinished: its frames go, and the downstream node is told. -/
def stopInstall (fs : FlashState) (t : Nat) (s : Shard) (st : Status) (d : Nat) (m : Mach) : Mach :=
  m |> dropShard t s.blk.slot s.blk.shard
    |> onlyIf (!s.blk.downNone) (sendChunkHdr fs t s 0 true)
    |> countInstallFail |> finalise s.ctx s.seq st d

/-- R383: the tier in which the next frame of an install is filled. -/
def placeFrame (m : Mach) (s : Shard) : Tier :=
  if s.blk.pinHbm || m.mem.hbmHigh < freeFrames m .hbm then .hbm
  else if m.mem.lpHigh < freeFrames m .lp then .lp
  else .flash

/-- R383: a chunk taken in: its frame, its bytes, and its way downstream. -/
def takeChunk (t : Nat) (s : Shard) (bs : List Byte) (nv : Nv) (m : Mach) : Nv × Mach :=
  let fs := nv.flash.state
  let p := 65536 * s.next / pageSize
  let tier := s.tiers.getD p (placeFrame m s)
  let fresh := s.tiers.length ≤ p
  let nv := if fresh && tier == .flash then { nv with flash := flashWrite nv.flash } else nv
  let m := if s.blk.downNone || s.fwdFail then m
    else
      m |> sendMsg fs (.shard t s.blk.slot s.blk.shard) t s.ctx s.seq s.blk.downNode (8192 + s.blk.downQueue) (65536 * s.next)
            s.blk.order bs false
        |> sendChunkHdr fs t s bs.length false
        |> modFab (fun f => { f with shFwdBytes := f.shFwdBytes + bs.length })
  (nv, modShard t s.blk.slot s.blk.shard (fun s =>
    { s with tiers := if fresh then s.tiers ++ [tier] else s.tiers, bytes := s.bytes ++ bs, next := s.next + 1
             lastHdrUs := m.tick.nowUs, st := if s.length ≤ 65536 * (s.next + 1) then .hashed else s.st }) m)

/-- R383, R385: SHARD_CHUNK_PROCESS.  A local source is read in place; what comes from upstream is `data`. -/
def processChunk (t slot shard : Nat) (data : List Byte) (abandoned readFailed : Bool) (nv : Nv) (m : Mach) : Nv × Mach :=
  let fs := nv.flash.state
  match findShard m t slot shard with
  | none => (nv, m)
  | some s =>
    if s.st != .installing then (nv, m)
    else
      let n := min 65536 (s.length - 65536 * s.next)
      let off := s.blk.src + 65536 * s.next
      let stop (st : Status) (d : Nat) : Nv × Mach := (nv, stopInstall fs t s st d m)
      if s.blk.upstream then
        if abandoned then stop .poisoned 4 else if data.length = n then takeChunk t s data nv m else (nv, m)
      else
        let tiers := (pagesOf off n).map fun i => ((findPage m t i).map (·.tier)).getD .zero
        if readFailed then stop .poisoned ((tiers.map tierSource).headD 1)
        else if fs == .offline && tiers.contains .flash then
          stop .tierFail ((((pagesOf off n).zip tiers).find? (·.2 == .flash)).map (·.1) |>.getD 0)
        else
          match devRead m t off n with
          | .ok bs => takeChunk t s bs nv (noteDev t off n m)
          | .poison src => (nv, m |> countPoison (.poison src) |> stopInstall fs t s .poisoned src)
          | .denied d => stop .denied d

/-- A day's hours in µs. -/
def hoursUs (h : Nat) : Nat := h * 3600000000

/-- R384: SHARD_INSTALL_FINALIZE. -/
def finishInstall (t slot shard : Nat) (m : Mach) : Mach :=
  match findShard m t slot shard with
  | none => m
  | some s =>
    if s.st != .hashed then m
    else if (shardEntry m t slot shard).map (·.2) != some (sha256 s.bytes) then
      m |> dropShard t slot shard |> countInstallFail |> finalise s.ctx s.seq .digestMismatch shard
    else
      let n := shardPages s
      let m := devPut t (s.blk.basePage * pageSize) s.bytes m
      let page (i : Nat) : Page :=
        let tier := s.tiers.getD i .hbm
        { ten := t, num := s.blk.basePage + i, key := s.key, ctx := s.ctx, tier, pin := bit s.blk.pinHbm, lastTouch := m.tick.count
          claim := 4, owner := 65536 * slot + shard
          crcs := if tier == .hbm then [] else pageCrcs m t (s.blk.basePage + i) }
      let pages := (List.range n).map page
      m |> modShard t slot shard (fun s =>
            { s with st := .installed, bytes := [], lastGood := m.tick.count, dueUs := m.tick.nowUs + hoursUs s.hours })
        |> modMem (fun x => { x with pages := x.pages ++ pages })
        |> forEach (pages.filter (·.tier == .flash)) (fun g => countImage t g.num)
        |> finalise s.ctx s.seq .ok (n % 2 ^ 24 + 2 ^ 31 * bit s.fwdFail)

/-- R385: SHARD_UPSTREAM_TIMEOUT. -/
def upstreamTimeout (t slot shard : Nat) (fs : FlashState) (m : Mach) : Mach :=
  match findShard m t slot shard with
  | none => m
  | some s =>
    if s.st == .installing && s.blk.upstream && s.lastHdrUs + 1000000 ≤ m.tick.nowUs then
      stopInstall fs t s .targetLost s.blk.upNode m
    else m

/-- R384, R385: what has become of the installs of a request by a boundary. -/
def settleInstalls (fs : FlashState) (c q : Nat) (m : Mach) : Mach :=
  forEach (List.range 48) (fun t m =>
    forEach ((tenOf m t).shards.filter fun s => (s.st == .installing || s.st == .hashed) && s.ctx == c && s.seq == q) (fun s m =>
      m |> finishInstall t s.blk.slot s.blk.shard |> upstreamTimeout t s.blk.slot s.blk.shard fs) m) m

/-- The installs of the module that satisfy `q`, stopped. -/
def stopInstalls (fs : FlashState) (q : Nat → Shard → Option (Status × Nat)) (m : Mach) : Mach :=
  forEach (List.range 48) (fun t m =>
    forEach ((tenOf m t).shards.filter fun s => s.st == .installing || s.st == .hashed) (fun s m =>
      match q t s with
      | some x => stopInstall fs t s x.1 x.2 m
      | none => m) m) m

/-- R385: a lost node stops the installs that receive from it. -/
def shardNodeLost (fs : FlashState) (node : Nat) : Mach → Mach :=
  stopInstalls fs fun _ s => if s.blk.upstream && s.blk.upNode == node then some (.targetLost, node) else none

/-- R385: an install stopped by an ABORT or a close at an earlier boundary is finalised. -/
def finishStopped (fs : FlashState) (c q : Nat) : Mach → Mach :=
  stopInstalls fs fun _ s => if s.ctx == c && s.seq == q then s.stop.map fun by_ => (.cancelled, by_) else none

/-- Table 15.10: a frozen key index ends the installs bound to it and the records of its shards. -/
def dropFrozenShards (fs : FlashState) (m : Mach) : Mach :=
  let seqOf (t k : Nat) : Nat := ((m.ten.rebinds.find? fun r => r.src == t && r.keys.testBit k).map (·.seq)).getD 0
  m |> stopInstalls fs (fun t s => if keyFrozen m t s.key then some (.cancelled, seqOf t s.key) else none)
    |> forEach (List.range 48) (fun t m =>
        modTen t (fun x => { x with shards := x.shards.filter fun s => !keyFrozen m t s.key }) m)

/-- R386: SHARD_INSTALL REMOVE. -/
def pktShardRemove (h : Hdr) (slot shard : Nat) : Packet :=
  packet { op := 0x91, tenant := true } h
    (fun m => slot ≤ 15 && (h.ctx == 0 || (findShard m (hTen m h) slot shard).any fun s => s.st == .installed || s.st == .failed))
    (fun _ m =>
      let t := hTen m h
      match findShard m t slot shard with
      | none => m
      | some s =>
        m |> forEach s.verifies (fun v => finalise v.1 v.2 .cancelled h.seq)
          |> dropShard t slot shard
          |> modMem (fun x => { x with pages := x.pages.map fun g =>
                if g.ten == t && s.blk.basePage ≤ g.num && g.num < s.blk.basePage + shardPages s then
                  { g with claim := 0, owner := 0 }
                else g })
          |> reply h .ok (shardPages s))

/-! ### Checks (R387, R388) -/

/-- R387: VERIFY_INTERVAL. -/
def pktVerifyInterval (h : Hdr) (hours : Nat) : Packet :=
  packet { op := 0x93, expert := true } h (fun _ => hours ≤ 168)
    (fun _ m =>
      let n := if hours = 0 then 24 else hours
      m |> modCtx h.ctx (fun x => { x with verifyHours := n })
        |> modTen (hTen m h) (fun x => { x with shards := x.shards.map fun s =>
              if s.ctx == h.ctx then { s with hours := n, dueUs := s.dueUs + hoursUs n - hoursUs s.hours } else s })
        |> reply h .ok 0)

/-- R387: SHARD_VERIFY; a shard marked FAILED is not checked again (R388). -/
def pktShardVerify (h : Hdr) (slot shard : Nat) : Packet :=
  packet { op := 0x92, tenant := true } h
    (fun m => slot ≤ 15 && (h.ctx == 0 || (findShard m (hTen m h) slot shard).any fun s => s.st == .installed || s.st == .failed))
    (fun _ m =>
      match findShard m (hTen m h) slot shard with
      | none => m
      | some s =>
        if s.st == .failed then reply h .digestMismatch shard m
        else modShard (hTen m h) slot shard (fun s => { s with verifies := s.verifies ++ [(h.ctx, h.seq)] }) m)

/-- R388: a failed check. -/
def checkFails (t : Nat) (s : Shard) (cause : Nat) (m : Mach) : Mach :=
  let model := ((findManifest m t s.blk.slot).map (·.modelId)).getD []
  let body := le 1 s.blk.slot ++ le 2 s.blk.shard ++ le 3 s.blk.basePage ++ le 1 cause ++ le 1 (bit !s.verifies.isEmpty) ++
    padTo 8 model ++ le 6 s.lastGood
  m |> modShard t s.blk.slot s.blk.shard (fun s => { s with st := .failed, verifies := [] })
    |> modFab (fun f => { f with shVerifyFail := bump 16 1 f.shVerifyFail })
    |> onlyIf (s.ctx != 0 && (ctxOf m s.ctx).isOpen) (emit s.ctx 0x50 s.ctx body) |> emit 0 0x50 s.ctx body

/-- R387: one shard read in place and its digest checked. -/
def checkShard (t : Nat) (s : Shard) (m : Mach) : Mach :=
  let m := m |> modFab (fun f => { f with shVerBytes := f.shVerBytes + s.length }) |> noteDev t (s.blk.basePage * pageSize) s.length
  let poisoned (src : Nat) : Mach :=
    m |> countPoison (.poison src) |> checkFails t s 1 |> forEach s.verifies (fun v => finalise v.1 v.2 .poisoned src)
  match devRead m t (s.blk.basePage * pageSize) s.length with
  | .poison src => poisoned src
  | .denied _ => m
  | .ok bs =>
    if (shardEntry m t s.blk.slot s.blk.shard).map (·.2) == some (sha256 bs) then
      m |> modShard t s.blk.slot s.blk.shard (fun s =>
            { s with lastGood := m.tick.count, dueUs := m.tick.nowUs + hoursUs s.hours, verifies := [] })
        |> modFab (fun f => { f with shVerified := bump 16 1 f.shVerified })
        |> forEach s.verifies (fun v => finalise v.1 v.2 .ok 0)
    else
      m |> checkFails t s 0 |> forEach s.verifies (fun v => finalise v.1 v.2 .digestMismatch s.blk.shard)

/-- R387: the shard whose turn it is: one a SHARD_VERIFY names, or the one due earliest. -/
def nextCheck (m : Mach) : Option (Nat × Shard) :=
  let all := (List.range 48).flatMap fun t => ((tenOf m t).shards.filter (·.st == .installed)).map fun s => (t, s)
  match all.find? fun x => !x.2.verifies.isEmpty with
  | some x => some x
  | none => all.foldl (fun (b : Option (Nat × Shard)) x =>
      match b with
      | none => some x
      | some y => if x.2.dueUs < y.2.dueUs then some x else some y) none

/-- R387: SHARD_BACKGROUND_VERIFY. -/
def backgroundVerify (m : Mach) : Mach :=
  match nextCheck m with
  | none => m
  | some x => checkShard x.1 x.2 m

/-- R380: MANIFEST_LOAD LOAD. -/
def execManifestLoad (h : Hdr) (slot manPtr manLen : Nat) (keyDigest : List Byte) (s : State) :
    Host.Outcome State Fault Refusal := runPacket (pktManifestLoad h slot manPtr manLen keyDigest) s
/-- R381: MANIFEST_CHECK_DONE. -/
def execManifestCheckDone (ten slot : Nat) (s : State) : Host.Outcome State Fault Refusal := onUp (manifestChecked ten slot) s
/-- R380: MANIFEST_LOAD UNLOAD. -/
def execManifestUnload (h : Hdr) (slot : Nat) (s : State) : Host.Outcome State Fault Refusal :=
  runPacket (pktManifestUnload h slot) s
/-- R382: SHARD_INSTALL INSTALL. -/
def execShardInstall (h : Hdr) (b : ShardBlk) (s : State) : Host.Outcome State Fault Refusal := runPacket (pktShardInstall h b) s
/-- R386: SHARD_INSTALL REMOVE. -/
def execShardRemove (h : Hdr) (slot shard : Nat) (s : State) : Host.Outcome State Fault Refusal :=
  runPacket (pktShardRemove h slot shard) s
/-- R387: SHARD_VERIFY. -/
def execShardVerify (h : Hdr) (slot shard : Nat) (s : State) : Host.Outcome State Fault Refusal :=
  runPacket (pktShardVerify h slot shard) s
/-- R387: VERIFY_INTERVAL. -/
def execVerifyInterval (h : Hdr) (hours : Nat) (s : State) : Host.Outcome State Fault Refusal :=
  runPacket (pktVerifyInterval h hours) s
/-- R383: SHARD_CHUNK_PROCESS. -/
def execShardChunkProcess (ten slot shard : Nat) (data : List Byte) (abandoned readFailed : Bool) (s : State) :
    Host.Outcome State Fault Refusal :=
  onNv (fun nv m =>
    let r := processChunk ten slot shard data abandoned readFailed nv m
    (r.1, settleAll r.1.flash.state r.2)) s
/-- R384: SHARD_INSTALL_FINALIZE. -/
def execShardInstallFinalize (ten slot shard : Nat) (s : State) : Host.Outcome State Fault Refusal :=
  atBoundary (fun _ => finishInstall ten slot shard) s
/-- R385: SHARD_UPSTREAM_TIMEOUT. -/
def execShardUpstreamTimeout (ten slot shard : Nat) (s : State) : Host.Outcome State Fault Refusal :=
  atBoundary (upstreamTimeout ten slot shard) s
/-- R387: SHARD_BACKGROUND_VERIFY. -/
def execShardBackgroundVerify (s : State) : Host.Outcome State Fault Refusal := atBoundary (fun _ => backgroundVerify) s

end Sys2Proof.Machine
end

