-- ==== Sys2Proof/Machine/Firmware.lean ====
section
/-! DEFINITION. Firmware banks, the update from the host and from the tray controller, verification,
the recovery image and attestation (R441, R448 to R455). -/

namespace Sys2Proof.Machine

/-- One firmware bank changed. -/
def modBank (b : Nat) (f : FwBank → FwBank) (nv : Nv) : Nv :=
  if b = 0 then { nv with bankA := f nv.bankA } else { nv with bankB := f nv.bankB }

/-- R453, Table 18.8: a FW_UPDATE event. -/
def fwEvent (nv : Nv) (cause b : Nat) (st : BankState) (m : Mach) : Mach :=
  let k := bankOf nv b
  emit 0 0x68 0 (le 1 cause ++ le 1 b ++ le 1 (bankCode st) ++ le 1 (bit k.tray) ++ le 4 k.fwRev ++
    le 4 (sat 32 k.image.length)) m

/-! ### Verification (R441, R450) -/

/-- Table 18.6: header, body, key and signature fill the image exactly, and the header is well formed. -/
def imageFormed (img : List Byte) : Bool :=
  let n := field img 12 4
  field img 0 1 == 1 && field img 1 3 == 0 && allZero ((img.drop 16).take 48) && 64 ≤ img.length &&
    [1776, 3604, 5432].any fun s => img.length == 124 + n + s

/-- R441: the key's digest, the signature and the security version. -/
def imageSigned (img : List Byte) : Bool :=
  let body := img.take (64 + field img 12 4)
  let pub := (img.drop body.length).take 60
  sha256 pub == Config.fwKeyDigest && hssVerify pub body (img.drop (body.length + 60)) &&
    Config.minSecVersion ≤ field img 8 2

/-- R441: a bank's image is valid.  PRESUMED (log 6): the image written at manufacture is. -/
def validImage (k : FwBank) : Bool := k.factory || (imageFormed k.image && imageSigned k.image)

/-- R455: the SHA-256 of a bank's image. -/
def imageDigest (k : FwBank) : List Byte := if k.factory then Config.factoryDigest else sha256 k.image

/-- R450: a bank after its image's header facts are known. -/
def withHeader (k : FwBank) : FwBank :=
  { k with fwRev := field k.image 4 4, secVersion := field k.image 8 2, proto := field k.image 10 2 }

/-- R450: the outcome of the commit check.  DEDUCED (log 17): a zero PROTO is a malformed header. -/
def commitVerdict (k : FwBank) : Status :=
  if !imageFormed k.image || field k.image 10 2 == 0 then .invalid
  else if imageSigned k.image then .ok else .sigFail

/-- R450: a bank committed: STAGED and NEXT on success, INCOMPLETE otherwise. -/
def commitBank (b : Nat) (nv : Nv) : Nv :=
  match commitVerdict (bankOf nv b) with
  | .ok => { modBank b (fun k => { withHeader k with st := .staged }) nv with nextBank := b }
  | .sigFail => modBank b (fun k => { withHeader k with st := .incomplete }) nv
  | _ => modBank b (fun k => { k with st := .incomplete }) nv

/-! ### The update (R449, R452) -/

/-- R449: the bank an update would write.  DESIGN CHOICE (log 18): during a trial boot there is none. -/
def updTarget (nv : Nv) (m : Mach) : Option Nat :=
  [0, 1].find? fun b => b != m.life.bank && (bankOf nv b).st != .active && (bankOf nv b).st != .trial

/-- R449: LENGTH is in range. -/
def lengthOk (n : Nat) : Bool := 4096 ≤ n && n ≤ 268435456

/-- R452: an update of this source is open and takes more. -/
def updIs (tray : Bool) (m : Mach) : Bool :=
  m.life.updOpen && m.life.updTray == tray && m.life.commitPending.isNone

/-- R449: a BEGIN. -/
def beginUpdate (tray : Bool) (length b : Nat) (nv : Nv) (m : Mach) : Nv × Mach :=
  let nv := modBank b (fun _ => { st := .writing, tray }) nv
  (nv, m |> modLife (fun l => { l with updOpen := true, updTray := tray, updLen := length, written := 0, updBank := b })
         |> fwEvent nv 1 b .writing)

/-- R449: a DATA may begin. -/
def dataOk (tray : Bool) (off len : Nat) (m : Mach) : Bool :=
  updIs tray m && off == m.life.written && 1 ≤ len && off + len ≤ m.life.updLen && m.life.dataPending.isNone

/-- R449: an ABANDON, or an ABORT of a DATA. -/
def abandonUpdate (nv : Nv) (m : Mach) : Nv × Mach :=
  let b := m.life.updBank
  let nv := modBank b (fun k => { k with st := .incomplete }) nv
  (nv, m |> modLife (fun l => { l with updOpen := false, dataPending := l.dataPending.map fun d => { d with live := false } })
         |> fwEvent nv 3 b .incomplete)

/-- R450: a commit may begin. -/
def commitOk (tray : Bool) (m : Mach) : Bool :=
  updIs tray m && m.life.written == m.life.updLen && m.life.dataPending.isNone

/-- R449: bytes programmed into the bank being written. -/
def programBytes (bs : List Byte) (nv : Nv) (m : Mach) : Nv × Mach :=
  (modBank m.life.updBank (fun k => { k with image := k.image ++ bs }) nv,
   modLife (fun l => { l with written := l.written + bs.length }) m)

/-- R486: the result of the last message acted on. -/
def setResult (seq : Nat) (st : Status) (m : Mach) : Mach :=
  { m with i3c := { m.i3c with lastSeq := seq, lastResult := st } }

/-- R452, R459: a tray request refused. -/
def countRefused : Mach → Mach := modLife fun l => { l with refused := bump 16 1 l.refused }

/-- R449: BEGIN.  DEDUCED (log 18): one with no bank to write when it is acted on is INVALID. -/
def pktFwBankBegin (h : Hdr) (length : Nat) : Packet :=
  { info := { op := 0x04, mgmt := true, zeroOnly := true }, hdr := h
    ok := fun nv m => lengthOk length && !m.life.updOpen && (updTarget nv m).isSome
    eff := fun nv m =>
      match updTarget nv m with
      | none => (nv, reply h .invalid 0 m)
      | some b => let r := beginUpdate false length b nv m; (r.1, reply h .ok b r.2) }

/-- R449: DATA. -/
def pktFwBankData (h : Hdr) (len ptr off : Nat) : Packet :=
  packet { op := 0x04, mgmt := true, zeroOnly := true } h
    (fun m => len ≤ 1048576 && ptr % 4096 == 0 && dataOk false off len m)
    (fun _ m => m |> modLife (fun l => { l with dataPending := some { seq := some h.seq, len } }) |> askHost .fwData ptr len)

/-- R449: ABANDON. -/
def pktFwBankAbandon (h : Hdr) : Packet :=
  { info := { op := 0x04, mgmt := true, zeroOnly := true }, hdr := h, ok := fun _ m => updIs false m
    eff := fun nv m => let r := abandonUpdate nv m; (r.1, reply h .ok 0 r.2) }

/-- R450: FW_BANK_COMMIT. -/
def pktFwBankCommit (h : Hdr) : Packet :=
  packet { op := 0x05, mgmt := true, zeroOnly := true } h (fun m => commitOk false m)
    (fun _ m => modLife (fun l => { l with commitPending := some (some h.seq) }) m)

/-- R449: the fetch of a DATA ends. -/
def fwDataArrives (data : Option (List Byte)) : Mach → Mach :=
  modLife fun l => { l with dataPending := l.dataPending.map fun d => { d with done := true, bytes := data } }

/-- R449: a DATA whose fetch failed is finalised at the next boundary. -/
def failFwData (seq : Nat) (m : Mach) : Mach :=
  match m.life.dataPending with
  | some { seq := some q, done := true, bytes := none, .. } =>
    if q = seq then m |> modLife (fun l => { l with dataPending := none }) |> finalise 0 q .poisoned 5 else m
  | _ => m

/-- R449: the bytes of a DATA have been programmed and read back. -/
def fwDataProgrammed (nv : Nv) (m : Mach) : Nv × Mach :=
  match m.life.dataPending with
  | some { seq := q, done := true, bytes := some bs, live := lv, .. } =>
    let m := modLife (fun l => { l with dataPending := none }) m
    let r := if lv then programBytes bs nv m else (nv, m)
    match q with
    | some q => (r.1, finalise 0 q .ok r.2.life.written r.2)
    | none => r
  | _ => (nv, m)

/-- R450: the commit check ends. -/
def fwCommitDone (nv : Nv) (m : Mach) : Nv × Mach :=
  match m.life.commitPending with
  | none => (nv, m)
  | some q =>
    let b := m.life.updBank
    let st := commitVerdict (bankOf nv b)
    let nv := commitBank b nv
    let k := bankOf nv b
    let m := m |> modLife (fun l => { l with updOpen := false, commitPending := none })
      |> fwEvent nv (if st == .ok then 2 else 4) b k.st
    match q with
    | some q => (nv, finalise 0 q st (if st == .ok then k.fwRev else 0) m)
    | none => (nv, { m with i3c := { m.i3c with lastResult := st } })

/-! ### From the tray controller (R452, Table 20.7) -/

/-- R452: a FW_BLOCK acted on.  DESIGN CHOICE (log 19): one that R449 or R450 puts out of range has the
result INVALID. -/
def actFwBlock (seq op arg : Nat) (data : List Byte) (nv : Nv) (m : Mach) : Nv × Mach :=
  let bad := (nv, setResult seq .invalid m)
  match op with
  | 0 =>
    match updTarget nv m with
    | none => bad
    | some b =>
      if m.life.updOpen then (nv, m |> onlyIf (!m.life.updTray) countRefused |> setResult seq .invalid)
      else if lengthOk arg then let r := beginUpdate true arg b nv m; (r.1, setResult seq .ok r.2)
      else bad
  | 1 =>
    if dataOk true arg data.length m then
      (nv, m |> modLife (fun l => { l with dataPending := some { seq := none, len := data.length, done := true, bytes := some data } })
             |> setResult seq .ok)
    else bad
  | 2 => if updIs true m then let r := abandonUpdate nv m; (r.1, setResult seq .ok r.2) else bad
  | _ =>
    if commitOk true m then (nv, m |> modLife (fun l => { l with commitPending := some none }) |> setResult seq .ok)
    else bad

/-! ### Recovery (R443) -/

/-- R443: a RECOVERY message, which the boot engine acts on while no bank boots: the image goes into
bank A, and a valid one boots as STAGED. -/
def actRecovery (seq op arg : Nat) (data : List Byte) (nv : Nv) (m : Mach) : Nv × Mach :=
  let bad := (nv, setResult seq .invalid m)
  match op with
  | 0 =>
    if lengthOk arg && !m.life.updOpen then
      (modBank 0 (fun _ => { st := .writing, tray := true }) nv,
       m |> modLife (fun l => { l with updOpen := true, updTray := true, updLen := arg, written := 0, updBank := 0 })
         |> setResult seq .ok)
    else bad
  | 1 =>
    if dataOk true arg data.length m then let r := programBytes data nv m; (r.1, setResult seq .ok r.2) else bad
  | 2 =>
    if updIs true m then
      (modBank 0 (fun k => { k with st := .incomplete }) nv, m |> modLife (fun l => { l with updOpen := false }) |> setResult seq .ok)
    else bad
  | _ =>
    if !commitOk true m then bad
    else
      let st := commitVerdict nv.bankA
      let nv := commitBank 0 nv
      let m := m |> modLife (fun l => { l with updOpen := false }) |> setResult seq st
      if st == .ok then
        (modBank 0 (fun k => { k with st := .trial }) nv,
         modLife (fun l => { l with fail := 0, stage := 3, bank := 0, fwRev := nv.bankA.fwRev, proto := nv.bankA.proto,
                                    fwEvents := l.fwEvents ++ [(5, 0, 4)] }) m)
      else (nv, m)

/-! ### Attestation (R455) -/

/-- Table 18.10: the report. -/
def attestReport (nv : Nv) (m : Mach) (c : Nat) (nonce : List Byte) (leaf : Nat) : List Byte :=
  let k := bankOf nv m.life.bank
  padTo 128 (le 1 1 ++ le 1 c ++ le 2 (node16 m) ++ le 8 Config.serial ++ padTo 32 nonce ++ padTo 32 (imageDigest k) ++
    le 4 m.life.fwRev ++ le 2 k.secVersion ++ le 1 (m.life.bank + 2 * bit (k.st == .trial)) ++ le 1 (bit m.fab.inForce) ++
    le 8 ((m.link.plan.map (·.id)).getD 0) ++ le 8 m.tick.count ++ le 8 leaf)

/-- R455: the signatures of the last second. -/
def recentSigns (m : Mach) : List Nat := m.life.attestUs.filter fun t => m.tick.nowUs < t + 1000000

/-- R455: the ticks until a signature is free. -/
def signHint (m : Mach) : Nat :=
  let free := ((recentSigns m).getLast?.getD 0) + 1000000
  max 1 ((free - m.tick.nowUs + m.tick.inForce - 1) / m.tick.inForce)

/-- R455: ATTEST acted on: a new leaf, its block recorded in flash before any leaf of it is used. -/
def startAttest (h : Hdr) (nonce : List Byte) (out : Nat) (nv : Nv) (m : Mach) : Nv × Mach :=
  let m := modLife (fun l => { l with attestUs := recentSigns m }) m
  if m.life.leavesLeft = 0 && 2 ^ 40 ≤ nv.leaves then (nv, reply h .noSpace 0x60 m)
  else if 256 ≤ m.life.attestUs.length then (nv, reply h .notReady (signHint m) m)
  else
    let nv := if m.life.leavesLeft = 0 then { nv with leaves := nv.leaves + 1024 } else nv
    let left := if m.life.leavesLeft = 0 then 1024 else m.life.leavesLeft
    let leaf := nv.leaves - left
    (nv, modLife (fun l =>
      { l with leavesLeft := left - 1, attestUs := m.tick.nowUs :: l.attestUs
               attests := l.attests ++ [(h.ctx, h.seq, attestReport nv m h.ctx nonce leaf, out)] }) m)

/-- R455: ATTEST. -/
def pktAttest (h : Hdr) (nonce : List Byte) (out : Nat) : Packet :=
  { info := { op := 0x06, mgmt := true }, hdr := h, ok := fun _ _ => out % 64 == 0, eff := startAttest h nonce out }

/-- R455: the oldest report has been signed: it is written with its signature, and the command replies. -/
def attestSigned (m : Mach) : Mach :=
  match m.life.attests with
  | [] => m
  | (c, q, rep, out) :: r =>
    let m := modLife (fun l => { l with attests := r }) m
    match findReq m c false q with
    | none => m
    | some x =>
      m |> onlyIf (!x.preFlr) (putHost out (rep ++ padTo 3604 (Config.identitySign (field rep 100 5) rep)))
        |> finalise c q .ok 3732

/-- A happening of a boundary that may change what no reset clears. -/
def nvBoundary (f : Nv → Mach → Nv × Mach) : State → Host.Outcome State Fault Refusal :=
  onNv fun nv m => let r := f nv m; (r.1, endWrites r.2)

/-- R449: FW_BANK_WRITE BEGIN. -/
def execFwBankBegin (h : Hdr) (length : Nat) (s : State) : Host.Outcome State Fault Refusal := runPacket (pktFwBankBegin h length) s
/-- R449: FW_BANK_WRITE DATA. -/
def execFwBankData (h : Hdr) (len dataPtr offset : Nat) (s : State) : Host.Outcome State Fault Refusal :=
  runPacket (pktFwBankData h len dataPtr offset) s
/-- R449: the bytes of a DATA are programmed and read back, at the boundary last fired. -/
def execFwDataProgrammed (s : State) : Host.Outcome State Fault Refusal := nvBoundary fwDataProgrammed s
/-- R449: FW_BANK_WRITE ABANDON. -/
def execFwBankAbandon (h : Hdr) (s : State) : Host.Outcome State Fault Refusal := runPacket (pktFwBankAbandon h) s
/-- R450: FW_BANK_COMMIT. -/
def execFwBankCommit (h : Hdr) (s : State) : Host.Outcome State Fault Refusal := runPacket (pktFwBankCommit h) s
/-- R450: the commit check ends, at the boundary last fired. -/
def execFwCommitCheckDone (s : State) : Host.Outcome State Fault Refusal := nvBoundary fwCommitDone s
/-- R455: ATTEST. -/
def execAttest (h : Hdr) (nonce : List Byte) (outPtr : Nat) (s : State) : Host.Outcome State Fault Refusal :=
  runPacket (pktAttest h nonce outPtr) s
/-- R455: signing ends, at the boundary last fired. -/
def execAttestSignDone (s : State) : Host.Outcome State Fault Refusal := atBoundary (fun _ => attestSigned) s

end Sys2Proof.Machine
end

