-- ==== Sys2Proof/Machine/Capture.lean ====
section
/-! DEFINITION. Capture: tick records, starting, triggering and ending a recording, and export
(R461 to R470, R476). -/

namespace Sys2Proof.Machine

/-! ### Records (R463, R464) -/

/-- R463: an entry as stored. -/
def entryBytes (e : CapEntry) : List Byte :=
  le 1 e.kind ++ le 1 e.cls ++ le 2 e.body.length ++ le 4 e.source ++ padTo ((e.body.length + 7) / 8 * 8) e.body

/-- Table 19.1 PAYLOAD_GAP: the entry's payload was not stored. -/
def entryGap (e : CapEntry) : Bool :=
  (e.kind == 0x0B || e.kind == 0x0C) && (e.body.drop (e.body.length - 8)).all (· == 0xFF)

/-- Table 19.1: a tick record. -/
def recordBytes (r : TickRec) : List Byte :=
  let es := (r.entries.map entryBytes).flatten
  le 8 r.tick ++ le 4 es.length ++ le 2 (sat 16 r.entries.length) ++
    le 1 (bit r.pre + 2 * bit (r.entries.any entryGap) + 4 * bit r.last) ++ zeros 1 ++ le 4 (crc32c es) ++ zeros 12 ++ es

/-- R462: the bytes of the tick area. -/
def tickArea (x : CapSt) : Nat := 64000884736 - 4096 - x.linkGb * 2 ^ 30

/-- R465: the oldest records dropped until the rest fit. -/
def dropOldest (area : Nat) : Nat → List TickRec → Nat × List TickRec
  | used, [] => (used, [])
  | used, r :: rs => if used ≤ area then (used, r :: rs) else dropOldest area (used - (recordBytes r).length) rs

/-- The last record marked LAST. -/
def markLast (rs : List TickRec) : List TickRec := modAt (rs.length - 1) (fun r => { r with last := true }) rs

/-- R467: the recording ends; the CAPTURE_STOPs that waited for it reply. -/
def endRecording (cause : Nat) (m : Mach) : Mach :=
  let qs := m.cap.stops
  { m with cap := { m.cap with state := 3, endCause := cause, records := markLast m.cap.records, current := [], stops := [] } }
    |> forEach qs (fun q => finalise 0 q.1 .ok (wrap 32 m.cap.lastTick))

/-- R467: a recording that ends at a boundary, with its event. -/
def endAtBoundary (cause : Nat) (m : Mach) : Mach :=
  m |> endRecording cause |> captureEvent 3 m.cap.lastTick

/-- R467: a recording that a reset ends: its last record is written, and the end is reported at READY. -/
def endByReset (m : Mach) : Mach :=
  if m.cap.state == 1 || m.cap.state == 2 then
    let m := endRecording 4 m
    { m with cap := { m.cap with events := m.cap.events ++ [(3, m.cap.lastTick)] } }
  else m

/-- R464: class by class, and in each as its inputs are acted on. -/
def entryLe (a b : CapEntry) : Bool := decide (a.cls :: a.ord ≤ b.cls :: b.ord)

/-- R464: the record of tick `n` as the recording stands. -/
def tickRecord (x : CapSt) (n : Nat) : TickRec :=
  { tick := n, entries := sortBy entryLe x.current, pre := x.bootOrigin && x.records.isEmpty && !x.wrapped }

/-- R462, R464 to R467: the record of tick `n` is written, and the recording ends where it must. -/
def closeRecord (n : Nat) (m : Mach) : Mach :=
  let x := m.cap
  if x.state != 1 && x.state != 2 then m
  else
    let r := tickRecord x n
    let used := x.used + (recordBytes r).length
    if tickArea x < used && (x.fill || x.state == 2) then endAtBoundary 1 m
    else
      let d := dropOldest (tickArea x) used (x.records ++ [r])
      let m := { m with cap := { x with records := d.2, used := d.1, current := [], lastTick := n
                                        wrapped := x.wrapped || d.1 != used, firstTick := (d.2.head?.map (·.tick)).getD n
                                        postLeft := x.postLeft - 1 } }
      if x.state == 2 && x.postLeft ≤ 1 then endAtBoundary 2 m
      else if x.stops.any fun q => q.2 ≤ n then endAtBoundary 3 m
      else m

/-! ### Starting and stopping (R465, R467) -/

/-- R465: a new recording, the earlier one discarded. -/
def startRecording (fill boot : Bool) (linkGb triggers post first : Nat) (x : CapSt) : CapSt :=
  { x with state := 1, fill, bootOrigin := boot, wrapped := false, endCause := 0, linkGb, triggers, postTicks := post,
           postLeft := 0, triggerTick := 0, triggerBit := 0, fired := 0, records := [], ring := [], current := []
           firstTick := first, lastTick := first, used := 0, ringWritten := 0, stops := [] }

/-- R465: CAPTURE_START. -/
def pktCaptureStart (h : Hdr) (fill boot : Bool) (linkGb triggers post : Nat) : Packet :=
  { info := { op := 0xB0, zeroOnly := true }, hdr := h
    ok := fun _ m => linkGb ≤ 48 && triggers < 2 ^ 11 && post ≤ 16777215 && m.cap.state != 1 && m.cap.state != 2
    eff := fun nv m =>
      (if boot then { nv with capArmed := some (fill, linkGb, triggers, post) } else nv,
       { m with cap := startRecording fill false linkGb triggers post m.tick.count m.cap }
         |> captureEvent 1 m.tick.count |> reply h .ok 0) }

/-- R467: CAPTURE_STOP.  DEDUCED (log 20): one that finds no recording running replies at once. -/
def pktCaptureStop (h : Hdr) (disarm atFlag : Bool) (atTick : Nat) : Packet :=
  { info := { op := 0xB1, zeroOnly := true }, hdr := h
    ok := fun _ _ => atFlag || atTick == 0
    eff := fun nv m =>
      (if disarm then { nv with capArmed := none } else nv,
       if m.cap.state != 1 && m.cap.state != 2 then reply h .ok (wrap 32 m.cap.lastTick) m
       else
         let m := { m with cap := { m.cap with stops := m.cap.stops ++ [(h.seq, atTick)] } }
         if atFlag && m.tick.count ≤ atTick then m else endAtBoundary 3 m) }

/-! ### Export (R469, R470) -/

/-- Table 19.6: the header. -/
def exportHeader (nv : Nv) (m : Mach) : List Byte :=
  let x := m.cap
  padTo 4096 (le 1 1 ++ le 1 (bit x.bootOrigin + 2 * bit x.wrapped + 4 * bit (x.triggerTick != 0)) ++ le 1 x.endCause ++
    le 1 x.triggerBit ++ le 4 m.life.fwRev ++ le 8 Config.serial ++ le 8 x.firstTick ++ le 8 x.lastTick ++ le 8 x.triggerTick ++
    le 8 x.used ++ le 8 x.ring.length ++ le 8 x.ringWritten ++ padTo 32 (imageDigest (bankOf nv m.life.bank)))

/-- R470: the export image: header, records and ring, padded to whole 4 KiB. -/
def exportImage (nv : Nv) (m : Mach) : List Byte :=
  let bs := exportHeader nv m ++ (m.cap.records.map recordBytes).flatten ++ m.cap.ring
  padTo ((bs.length + 4095) / 4096 * 4096) bs

/-- R469: CAPTURE_EXPORT: the range is written, and the command replies at the first boundary after it. -/
def pktCaptureExport (h : Hdr) (out off len : Nat) : Packet :=
  { info := { op := 0xB2, zeroOnly := true, mgmt := true }, hdr := h
    ok := fun nv m => out % 4096 == 0 && off % 4096 == 0 && len % 4096 == 0 && 4096 ≤ len && len ≤ 2 ^ 30 &&
      m.cap.state != 1 && m.cap.state != 2 && off + len ≤ (exportImage nv m).length
    eff := fun nv m =>
      (nv, { m with cap := { m.cap with exports := m.cap.exports ++ [(h.seq, out, off, len)] } }
             |> putHost out (((exportImage nv m).drop off).take len)) }

/-- R469: an export whose range has been written replies. -/
def finishExport (seq : Nat) (m : Mach) : Mach :=
  forEach (m.cap.exports.filter (·.1 == seq)) (fun e => finalise 0 e.1 .ok (e.2.2.2 / 4096))
    { m with cap := { m.cap with exports := m.cap.exports.filter (·.1 != seq) } }

/-- R465: CAPTURE_START. -/
def execCaptureStart (h : Hdr) (fill boot : Bool) (linkGb triggers postTicks : Nat) (s : State) : Host.Outcome State Fault Refusal :=
  runPacket (pktCaptureStart h fill boot linkGb triggers postTicks) s
/-- R467: CAPTURE_STOP. -/
def execCaptureStop (h : Hdr) (disarm atFlag : Bool) (atTick : Nat) (s : State) : Host.Outcome State Fault Refusal :=
  runPacket (pktCaptureStop h disarm atFlag atTick) s
/-- R469: CAPTURE_EXPORT. -/
def execCaptureExport (h : Hdr) (outPtr offset length : Nat) (s : State) : Host.Outcome State Fault Refusal :=
  runPacket (pktCaptureExport h outPtr offset length) s

end Sys2Proof.Machine
end

