-- ==== Sys2Proof/Machine/Lifecycle.lean ====
section
/-! DEFINITION. Reset kinds, power-up, readiness, hot removal and the hot-swap controller (R435 to R447,
R451, R457, R479, R481). -/

namespace Sys2Proof.Machine

/-! ### What each reset keeps (Table 18.2, R497) -/

/-- The pins and the hot-swap controller, which no reset of the module changes. -/
def keepPins (a b : LifeSt) : LifeSt :=
  { b with present := a.present, removal := a.removal, isolated := a.isolated, bulk := a.bulk, switchOn := a.switchOn
           qualifying := a.qualifying, rstLow := a.rstLow, rstShort := a.rstShort }

/-- A cold reset, up to the release of the reset input: everything but flash, fuses and pins is lost. -/
def coldReset (m : Mach) : Mach :=
  { ({} : Mach) with life := keepPins m.life { run := .held }, chan := { inPlace := m.chan.inPlace }, out := m.out }

/-- Table 18.2: a context through a warm reset.  Its replies still due are lost (R121), and its windows count their ticks from
the tick count that restarts (R113). -/
def warmCtx (x : Ctx) : Ctx :=
  { x with openTick := 0, layers := x.layers.map fun a => { a with wOpened := 0 }
           slots := x.slots.map fun b => { b with drains := [] }
           prefills := [], cmpCurrent := 0, bankA := {}, bankB := {}, cmpPending := none, layouts := [], colls := []
           genDropTick := [], stallTick := [] }

/-- Table 18.2: a tenancy through a warm reset. -/
def warmTen (t : Ten) : Ten :=
  { t with aligns := [], queues := [], podTick := none, podOf := []
           pools := t.pools.map fun p => { p with quarantine := [] }
           manifests := t.manifests.filter (·.loaded)
           shards := (t.shards.filter fun s => s.st == .installed || s.st == .failed).map fun s =>
             { s with verifies := [], stop := none } }

/-- R165: a rebind that a warm reset finds pending is completed before READY. -/
def warmRebind (r : Rebind) : Rebind := { r with acrossReset := true, startTick := 0, hit := [] }

/-- Table 18.2: the memory block through a warm reset: pages kept, uncommitted migrations abandoned, slices
without power. -/
def warmMem (x : MemSt) : MemSt :=
  { x with sliceMem := [], slicePoison := [], sliceErr := [], asks := [], moves := [], merges := [], mergeBad := []
           sliceRepair := [], hbmRepair := []
           pages := x.pages.map fun g =>
             { g with mig := none, oldFrames := [], asked := false, prefetch := false, claim := if g.claim = 5 then 0 else g.claim } }

/-- Table 18.2: the protection block through a warm reset. -/
def warmEcc (e : EccSt) : EccSt :=
  { e with remapping := [], tickSram := 0, tickHbm := 0, tickLp := 0, tickReplays := 0, tickCandidates := 0, parityRun := []
           caRun := [], lpRun := [] }

/-- R497: a port through a warm reset: its counters. -/
def warmPort (x : Port) : Port :=
  { fecCorr := x.fecCorr, fecUncorr := x.fecUncorr, crcFail := x.crcFail, replayed := x.replayed, trainFail := x.trainFail
    subst := x.subst, widthDrop := x.widthDrop, tickDrop := x.tickDrop }

/-- R497: the tick block through a warm reset. -/
def warmTick (t : TickSt) : TickSt :=
  { nowUs := t.nowUs, periodUs := t.periodUs, inForce := t.periodUs, next1 := t.periodUs, next2 := t.periodUs
    guardUs := t.guardUs, lostSeen := t.lostSeen, missTotal := t.missTotal, lateReq := t.lateReq, ovrTotal := t.ovrTotal
    ovrClock := t.ovrClock, ovrStall := t.ovrStall, ovrFabric := t.ovrFabric, ovrEstimate := t.ovrEstimate }

/-- R497: the fabric block through a warm reset. -/
def warmFab (f : FabSt) : FabSt :=
  { f with inForce := false, traySet := [], trayNodes := 1, ready := false, epoch := 0, out := [], nextId := 0
           refused := [], admitted := [], srcStreams := [], dstStreams := [], replays := [], tags := [], peerEpochs := [], srcEpochs := [], seen := []
           downSeen := [], lostNodes := [], lossLatched := [], readyLatched := [], waitPage := [], localQ := [] }

/-- R9, R497: the power block through a warm reset: the step limit stands until its context changes it. -/
def warmPwr (p : PwrSt) : PwrSt :=
  { energy := p.energy, capW := p.capW, stepLimit := p.stepLimit, leases := p.leases, expired := p.expired, refused := p.refused
    gateTicks := p.gateTicks, gated := p.gated, nClamps := p.nClamps, nSupply := p.nSupply, deferred := p.deferred
    stepChanges := p.stepChanges, lastCalUs := p.lastCalUs, lastCalTick := p.lastCalTick, lastCal := p.lastCal
    calCtx := p.calCtx, calTen := p.calTen, calClosed := p.calClosed, factor := p.factor, moduleMj := p.moduleMj, calNo := p.calNo }

/-- Table 18.2: the lifecycle block through a warm reset. -/
def warmLife (l : LifeSt) : LifeSt :=
  keepPins l { run := .warmOff, warm := true, last := l.last, warmCount := l.warmCount, updTray := l.updTray
               written := l.written, refused := l.refused, updBank := l.updBank, updLen := l.updLen }

/-- R437 step 4: a warm reset, up to the end of its 10 ms off. -/
def warmReset (m : Mach) : Mach :=
  let m := forEach m.stp.steps releaseStep (endByReset m)
  { ({} : Mach) with
    tick := warmTick m.tick
    ctxs := m.ctxs.map warmCtx
    ten := { m.ten with tens := m.ten.tens.map warmTen, rebinds := m.ten.rebinds.map warmRebind }
    mem := warmMem m.mem
    ecc := warmEcc m.ecc
    chan := { inPlace := m.chan.inPlace }
    cmp := m.cmp
    stp := { m.stp with steps := [], discarded := bump 16 ((m.ctxs.map (·.prefills.length)).sum) m.stp.discarded }
    link := { ports := m.link.ports.map warmPort, laneErrMax := m.link.laneErrMax, plan := m.link.plan, overrides := m.link.overrides }
    fab := warmFab m.fab
    pwr := warmPwr m.pwr
    i3c := { nack := m.i3c.nack, bad := m.i3c.bad }
    life := warmLife m.life
    cap := { m.cap with exports := [] }
    host := { badMmio := m.host.badMmio, readFail := m.host.readFail, flr := m.host.flr, dropped := m.host.dropped }
    out := m.out }

/-! ### Starting power-up (R436, R440, R465) -/

/-- R440: power-up starts at stage 1; a boot arming starts a recording (R465). -/
def coldPowerUp (nv : Nv) (m : Mach) : Mach :=
  let m := modLife (fun l => { l with run := .up, stage := 1 }) m
  match nv.capArmed with
  | none => m
  | some (fill, gb, trig, post) => captureEvent 1 0 { m with cap := startRecording fill true gb trig post 0 m.cap }

/-- R436, R479: power-up starts once the reset input is released, its 1 ms has passed and the switch
conducts. -/
def tryPowerUp (nv : Nv) (m : Mach) : Mach :=
  let l := m.life
  if l.run == .held && !l.rstLow && !l.rstShort && l.switchOn && !l.removal then coldPowerUp nv m else m

/-- R436, R437: the reset input asserted for `ns`: under 1 µs has no effect. -/
def assertReset (ns : Nat) (m : Mach) : Mach :=
  if ns < 1000 then m
  else
    let last := if m.life.switchOn then 1 else m.life.last
    m |> coldReset |> modLife (fun l => { l with rstLow := true, rstShort := ns < 1000000, last })

/-- R436: the reset input released. -/
def releaseReset (nv : Nv) (m : Mach) : Mach := m |> modLife (fun l => { l with rstLow := false }) |> tryPowerUp nv

/-- R436: 1 ms has passed since the reset began. -/
def holdEnds (nv : Nv) (m : Mach) : Mach := m |> modLife (fun l => { l with rstShort := false }) |> tryPowerUp nv

/-- R437, R457, R459: a RESET message acted on; whether the module was reset.  A cold request is acted on as
an assertion of the reset input while a warm reset runs. -/
def actReset (seq : Nat) (cold replay : Bool) (m : Mach) : Mach × Bool :=
  let again := m.life.warm && m.life.mode == .mgmt
  if again && !cold then (m |> countRefused |> setResult seq .invalid, false)
  else
    let m := onlyIf (!again) sayLeaving m
    let m := if cold then
        m |> coldReset |> modLife (fun l => { l with rstShort := true, last := 2, replay := replay })
      else m |> warmReset |> modLife (fun l => { l with last := 3, replay := m.life.replay })
    (setResult seq .ok m, true)

/-- R437: the 10 ms off are over: power-up starts at stage 2, with the management port answering. -/
def warmResume (m : Mach) : Mach :=
  if m.life.run == .warmOff then
    m |> modLife (fun l => { l with run := .up, stage := 2, warmCount := bump 16 1 l.warmCount })
      |> (fun m => { m with i3c := { m.i3c with portUp := true } })
      |> send .hotJoin
  else m

/-! ### The stages (R440 to R443) -/

/-- R443: a boot failure. -/
def bootFails (code : Nat) (m : Mach) : Mach :=
  m |> modLife (fun l => { l with fail := code, stage := 15, mode := .boot }) |> raiseIbi 3

/-- Stage 1 ends (R440, R484). -/
def railsDone (m : Mach) : Mach :=
  if m.life.run == .up && m.life.stage == 1 && m.life.switchOn && m.life.bulk == .full then
    m |> modLife (fun l => { l with stage := 2 }) |> (fun m => { m with i3c := { m.i3c with portUp := true } })
      |> onlyIf (m.i3c.dynAddr.isNone && m.i3c.hotJoin) (send .hotJoin)
  else m

/-- R207: the fuse map withholds slices, `turnip` of them among 184 to 191; every slice is clear. -/
def applyFuses (turnip : Nat) (ws : List Nat) (m : Mach) : Mach :=
  let slices := m.ten.slices.mapIdx fun i o => if ws.contains i && o == .free then .withheld else o
  { m with ten := { m.ten with slices } }
    |> modMem (fun x => { x with sliceMem := [], slicePoison := [], sliceErr := [] })
    |> modEcc (fun e => { e with withheld := sat 8 (ws.length + turnip) })

/-- R442: work that a reset interrupted. -/
def interrupted (b : Nat) (x : Nv × List (Nat × Nat × Nat)) : Nv × List (Nat × Nat × Nat) :=
  let st := (bankOf x.1 b).st
  if st == .writing || st == .trial then
    (modBank b (fun k => { k with st := .incomplete }) x.1, x.2 ++ [(7, b, 2)])
  else x

/-- R442: a bank tried: whether it boots. -/
def tryBank (b : Nat) (x : Nv × List (Nat × Nat × Nat)) : Bool × Nv × List (Nat × Nat × Nat) :=
  let k := bankOf x.1 b
  if k.st != .staged && k.st != .active && k.st != .valid then (false, x)
  else if !validImage k then
    (false, modBank b (fun k => { k with st := .incomplete }) x.1, x.2 ++ [(8, b, 2)])
  else if k.st == .staged then (true, modBank b (fun k => { k with st := .trial }) x.1, x.2 ++ [(5, b, 4)])
  else (true, x)

/-- R442: the bank that boots, if any, and what became of the others. -/
def chooseBank (nv : Nv) : Option Nat × Nv × List (Nat × Nat × Nat) :=
  let x := interrupted 1 (interrupted 0 (nv, []))
  let a := tryBank nv.nextBank x
  if a.1 then (some nv.nextBank, a.2)
  else
    let b := tryBank (1 - nv.nextBank) a.2
    if b.1 then (some (1 - nv.nextBank), b.2) else (none, b.2)

/-- R188: a flash channel's interface trained. -/
def trained (p : Nat → Bool) (m : Mach) : Mach :=
  { m with chan := { m.chan with nvLpddr4 := m.chan.nvLpddr4.mapIdx fun i x => x || p i } }

/-- Stage 2: the fuse map, the slices, flash channel 0 and the choice of a bank. -/
def bootBankSelect (turnip : Nat) (ws : List Nat) (nv : Nv) (m : Mach) : Nv × Mach :=
  if m.life.run != .up || m.life.stage != 2 then (nv, m)
  else
    let m := m |> applyFuses turnip ws |> trained (· == 0)
    if turnip != 0 then (nv, bootFails 2 m)
    else
      let x := chooseBank nv
      let m := modLife (fun l => { l with fwEvents := x.2.2 }) m
      match x.1 with
      | none => (x.2.1, bootFails 1 m)
      | some b =>
        let k := bankOf x.2.1 b
        (x.2.1, modLife (fun l => { l with bank := b, fwRev := k.fwRev, proto := k.proto, stage := 3 }) m)

/-- Stage 3: the cores run, and the tick starts as a group of one. -/
def turnipRelease (m : Mach) : Mach :=
  if m.life.run == .up && m.life.stage == 3 then
    m |> modLife (fun l => { l with stage := 4, stage3Us := m.tick.nowUs }) |> modTick (fun t => { t with started := true })
  else m

/-- R207, R209: a line of a slice fused to one of the slice's 8 spare rows, or then to one of its 8 spare columns, while one
remains. -/
def fuseLine (line : Nat) (nv : Nv) : Nv :=
  let s := line / 32768
  let used (k : Nat) : Nat := (alGet k nv.sramSpares).getD 0
  let take (k : Nat) : Nv :=
    { nv with sramSpares := alSet k (used k + 1) nv.sramSpares, fused := bump 16 1 nv.fused
              candidates := nv.candidates.filter (· != (storeNo .slice, line)) }
  if used (2 * s) < 8 then take (2 * s) else if used (2 * s + 1) < 8 then take (2 * s + 1) else nv

/-- R209: a row of HBM3E made permanent with hard repair, where it holds under soft repair and its bank has a spare row left;
its run-time remap is freed, and elsewhere kept. -/
def repairRow (row : Nat) (nv : Nv) : Nv :=
  let b := Config.bankOfRow row
  if Config.softRepairHolds row && nv.hardRows.countP (Config.bankOfRow · == b) < Config.bankSpareRows b then
    { nv with hardRows := nv.hardRows ++ [row], candidates := nv.candidates.filter (· != (storeNo .hbm, row))
              remapRows := nv.remapRows.filter (· != row) }
  else nv

/-- The locations of a store in the repair log, in the order they were entered. -/
def loggedOf (s : Store) (nv : Nv) : List Nat := (nv.candidates.filter (·.1 == storeNo s)).map (·.2)

/-- R209: the repair log at a cold power-up, and the rows of LPDDR5X that the memory test finds failing. -/
def applyRepairs (lpFail : List Nat) (nv : Nv) (m : Mach) : Nv × Mach :=
  let rows := loggedOf .hbm nv
  let nv := (loggedOf .slice nv).foldl (fun nv l => fuseLine l nv) nv
  let nv := rows.foldl (fun nv r => repairRow r nv) nv
  ({ nv with lpRows := (nv.lpRows ++ lpFail).dedup },
   modEcc (fun e => { e with remaps := nv.remapRows }) m)

/-- Stage 4: the memories are up; a cold power-up has zeroed and repaired them. -/
def memoryInitDone (ok : Bool) (lpFail : List Nat) (nv : Nv) (m : Mach) : Nv × Mach :=
  if m.life.run != .up || m.life.stage != 4 then (nv, m)
  else if !ok then (nv, bootFails 3 m)
  else
    let r := if m.life.warm then (nv, m) else applyRepairs lpFail nv m
    (r.1, modLife (fun l => { l with stage := 5 }) r.2)

/-- Stage 5: the other flash channels are trained and the flash translation layer is mounted. -/
def ftlMountDone (ok : Bool) (m : Mach) : Mach :=
  if m.life.run != .up || m.life.stage != 5 then m
  else if ok then m |> trained (fun _ => true) |> modLife (fun l => { l with stage := 7 }) else bootFails 4 m

/-- R451: the running bank at READY.  DEDUCED (log 21): a fallback that ran as VALID becomes ACTIVE. -/
def passTrial (b : Nat) (nv : Nv) : Nv :=
  let nv := modBank (1 - b) (fun k => if k.st == .active then { k with st := .valid } else k) nv
  { modBank b (fun k => { k with st := .active }) nv with nextBank := b }

/-- Table 5.9: the READY body. -/
def readyBody (m : Mach) : List Byte :=
  le 4 m.life.fwRev ++ le 2 m.life.proto ++ le 2 (node16 m) ++ le 1 (48 - m.ten.pods.count .withheld) ++ le 1 (bit m.fab.ready)

/-- R266: the drains that a warm reset found pending end before READY, without a reply. -/
def endDrains (m : Mach) : Mach :=
  forEach (List.range 256) (fun c m => forEach (ctxOf m c).slots (fun b => slotDrain c b.slot) m) m

/-- R445, R451, R453: READY is written. -/
def moduleReady (nv : Nv) (m : Mach) : Nv × Mach :=
  if m.life.run != .up || m.life.stage != 7 || m.life.mode != .mgmt || m.ten.rebinds.any (·.acrossReset) then (nv, m)
  else
    let b := m.life.bank
    let evs := m.life.fwEvents ++ (if (bankOf nv b).st == .trial then [(6, b, 5)] else [])
    let nv := passTrial b nv
    let ms := preTickMs m + (m.tick.nowUs - m.life.stage3Us) / 1000
    let stOf : Nat → BankState := fun c => if c = 2 then .incomplete else if c = 4 then .trial else .active
    let m := m |> endDrains |> modLife (fun l => { l with mode := .ready, bootMs := sat 16 ms, warm := false, fwEvents := [] })
      |> emit 0 0x01 0 (readyBody m) |> forEach (List.range 256) (fun c => setEvt c 5) |> raiseIbi 5
      |> forEach m.ten.warmDone (fun r => tenancyDone (if r.destroy then 3 else 2) r.seq r.src r.dst r.pods 0xFFFF r.reclaim)
      |> forEach evs (fun e => fwEvent nv e.1 e.2.1 (stOf e.2.2))
      |> forEach m.cap.events (fun e => captureEvent e.1 e.2)
    (nv, { m with ten := { m.ten with warmDone := [] }, cap := { m.cap with events := [] } })

/-! ### Removal and the hot-swap controller (R457, R479, R481, R483) -/

/-- R457, R481, R483: the presence pin breaks for `ns`: under 200 ns is ignored. -/
def presenceLoss (ns : Nat) (m : Mach) : Mach :=
  if ns < 200 || m.life.removal || m.life.isolated then m
  else
    m |> capture 0x0D 2 0 [0] |> onlyIf (isUp m) sayLeaving
      |> modLife (fun l => { l with present := false, qualifying := false, removal := true, presenceLatched := l.run == .up })

/-- R481: the bulk is isolated from the connector; nothing further goes to the host (R433). -/
def hotswapIsolate (m : Mach) : Mach :=
  if m.life.removal && !m.life.isolated then
    { m with host := { m.host with stopped := true } }
      |> modLife (fun l => { l with isolated := true, switchOn := false, run := if l.run == .held then .held else .removed })
  else m

/-- R481: the bulk is bled; the removal sequence is over. -/
def hotswapBleedDone (m : Mach) : Mach :=
  if m.life.removal && m.life.isolated then modLife (fun l => { l with bulk := .bled, removal := false }) m else m

/-- R479, R483: the presence pin makes. -/
def presenceMake (m : Mach) : Mach :=
  m |> capture 0x0D 2 0 [1] |> modLife (fun l => { l with present := true, qualifying := true })

/-- R479: presence has held for 100 ms: the switch closes and charges the bulk. -/
def chargeStart (nv : Nv) (m : Mach) : Mach :=
  if m.life.present && !m.life.switchOn && !m.life.removal then
    m |> modLife (fun l => { l with switchOn := true, qualifying := false, isolated := false, last := 0
                                    bulk := if l.bulk == .full then .full else .charging })
      |> tryPowerUp nv
  else m

/-- R479: the bulk has reached 30 V. -/
def bulkCharged (m : Mach) : Mach :=
  if m.life.switchOn then modLife (fun l => { l with bulk := .full }) m else m

/-- A happening outside every clock. -/
def onPins (f : Nv → Mach → Mach) (s : State) : Host.Outcome State Fault Refusal := .next { s with m := f s.nv s.m }

/-- A happening outside every clock that may write flash metadata. -/
def onBoot (f : Nv → Mach → Nv × Mach) (s : State) : Host.Outcome State Fault Refusal :=
  let r := f s.nv s.m
  .next { s with nv := r.1, m := r.2 }

/-- R436: RESET_INPUT_ASSERT. -/
def execResetInputAssert (ns : Nat) (s : State) : Host.Outcome State Fault Refusal := onPins (fun _ => assertReset ns) s
/-- R436: RESET_INPUT_RELEASE. -/
def execResetInputRelease (s : State) : Host.Outcome State Fault Refusal := onPins releaseReset s
/-- R436: RESET_HOLD_END. -/
def execResetHoldEnd (s : State) : Host.Outcome State Fault Refusal := onPins holdEnds s
/-- R437: WARM_RESET_RESUME. -/
def execWarmResetResume (s : State) : Host.Outcome State Fault Refusal := onPins (fun _ => warmResume) s
/-- R440: POWERUP_RAILS_DONE. -/
def execPowerupRailsDone (s : State) : Host.Outcome State Fault Refusal := onPins (fun _ => railsDone) s
/-- R442: BOOT_BANK_SELECT. -/
def execBootBankSelect (turnipWithheld : Nat) (withheld : List Nat) (s : State) : Host.Outcome State Fault Refusal :=
  onBoot (bootBankSelect turnipWithheld withheld) s
/-- R440: TURNIP_RELEASE. -/
def execTurnipRelease (s : State) : Host.Outcome State Fault Refusal := onPins (fun _ => turnipRelease) s
/-- R440: MEMORY_INIT_DONE. -/
def execMemoryInitDone (test : MemTest) (s : State) : Host.Outcome State Fault Refusal :=
  onBoot (memoryInitDone test.ok test.lpFail) s
/-- R440: FTL_MOUNT_DONE. -/
def execFtlMountDone (ok : Bool) (s : State) : Host.Outcome State Fault Refusal := onPins (fun _ => ftlMountDone ok) s
/-- R445: MODULE_READY, at the boundary last fired. -/
def execModuleReady (s : State) : Host.Outcome State Fault Refusal := nvBoundary moduleReady s
/-- R457, R483: PRESENCE_LOSS. -/
def execPresenceLoss (ns : Nat) (s : State) : Host.Outcome State Fault Refusal := onPins (fun _ => presenceLoss ns) s
/-- R481: HOTSWAP_ISOLATE. -/
def execHotswapIsolate (s : State) : Host.Outcome State Fault Refusal := onPins (fun _ => hotswapIsolate) s
/-- R481: HOTSWAP_BLEED_DONE. -/
def execHotswapBleedDone (s : State) : Host.Outcome State Fault Refusal := onPins (fun _ => hotswapBleedDone) s
/-- R479: PRESENCE_MAKE. -/
def execPresenceMake (s : State) : Host.Outcome State Fault Refusal := onPins (fun _ => presenceMake) s
/-- R479: HOTSWAP_CHARGE_START. -/
def execHotswapChargeStart (s : State) : Host.Outcome State Fault Refusal := onPins chargeStart s
/-- R479: HOTSWAP_BULK_CHARGED. -/
def execHotswapBulkCharged (s : State) : Host.Outcome State Fault Refusal := onPins (fun _ => bulkCharged) s

end Sys2Proof.Machine
end

