-- ==== Sys2Proof/Machine/I3c.lean ====
section
/-! DEFINITION. The I3C management port: messages received and checked, the status block, and the common
command codes (R484 to R486, Tables 20.5 to 20.8). -/

namespace Sys2Proof.Machine

/-- R484, R22: the port responds from the end of stage 1 while the module is powered up. -/
def portResponds (m : Mach) : Bool := m.life.run == .up && m.i3c.portUp

/-- A change of the port. -/
def modI3c (f : I3cSt → I3cSt) (m : Mach) : Mach := { m with i3c := f m.i3c }

/-! ### Messages (R485, Table 20.7) -/

/-- R43: the class of a message. -/
def trayClass : TrayMsg → Nat
  | .lease .. => 4 | .reset .. => 1 | .node .. => 7 | .coolant .. => 5 | .alarm .. => 4
  | .planBlock .. => 7 | .fwBlock .. => 7 | .recovery .. => 7

/-- MSG_SEQ of a message. -/
def traySeq : TrayMsg → Nat
  | .lease q .. => q | .reset q .. => q | .node q .. => q | .coolant q .. => q | .alarm q .. => q
  | .planBlock q .. => q | .fwBlock q .. => q | .recovery q .. => q

/-- R43, R45: messages of one class in an order that their arrival has no part in: by MSG_SEQ (log 131). -/
def traySorted (l : List TrayMsg) : List TrayMsg := sortBy (fun a b => traySeq a ≤ traySeq b) l

/-- The payload of FW_BLOCK and RECOVERY. -/
def blockPayload (op arg : Nat) (data : List Byte) : List Byte := le 1 op ++ zeros 3 ++ le 4 arg ++ data

/-- Table 20.7: TYPE and payload of a message. -/
def trayPayload : TrayMsg → Nat × List Byte
  | .lease _ w q => (1, le 2 w ++ le 2 q)
  | .reset _ k r => (2, le 1 k ++ le 1 (bit r))
  | .node _ n => (3, le 2 n)
  | .coolant _ t f => (4, le 2 (t % 65536).toNat ++ le 2 f)
  | .alarm _ s => (5, le 1 s)
  | .planBlock _ o l d => (6, le 4 o ++ le 1 (bit l) ++ zeros 3 ++ d)
  | .fwBlock _ op a d => (7, blockPayload op a d)
  | .recovery _ op a d => (8, blockPayload op a d)

/-- R485: the private write that carries a message. -/
def trayBytes (t : TrayMsg) : List Byte :=
  let p := trayPayload t
  le 1 p.1 ++ zeros 1 ++ le 2 p.2.length ++ le 4 (traySeq t) ++ p.2

/-- Table 20.7: the operands of FW_BLOCK and RECOVERY. -/
def blockOk (op arg : Nat) (data : List Byte) : Bool :=
  op ≤ 3 && data.length ≤ 1024 && (op == 1 || data.isEmpty) && (op ≤ 1 || arg == 0)

/-- R485: a message passes the check against its type. -/
def trayOk (m : Mach) : TrayMsg → Bool
  | .lease .. => true
  | .reset _ k r => k == 0 || (k == 1 && !r)
  | .node _ n => n < 4096
  | .coolant .. => true
  | .alarm _ s => s ≤ 1
  | .planBlock _ o _ d => d.length ≤ 1024 && o + d.length ≤ 64 + 32 * 4096
  | .fwBlock _ op a d => blockOk op a d
  | .recovery _ op a d => blockOk op a d && m.life.fail == 1

/-- R472: a module in replay mode accepts no message but RESET. -/
def replayTakes (m : Mach) : TrayMsg → Bool
  | .reset .. => true
  | _ => !m.life.replay

/-- R45, R464: a message's place in its class: those of class 7 first and as they came, those of others by number, a lease
before an alarm, and a coolant reading behind the ports. -/
def trayOrd (t : TrayMsg) : List Nat :=
  match t with
  | .reset q .. => [0, q]
  | .lease q .. => [1, q]
  | .alarm q .. => [2, q]
  | .coolant q .. => [2, q]
  | _ => [0]

/-- R485, R443: a private write arrives.  It is NACKed while the port does not respond or its queue is full,
and the latter counted.  The boot engine acts on RECOVERY at once, as no boundary comes. -/
def receiveMsg (t : TrayMsg) (nv : Nv) (m : Mach) : Nv × Mach :=
  if !portResponds m || !replayTakes m t then (nv, send .i3cNack m)
  else if 16 ≤ m.i3c.queue.length then
    (nv, m |> modI3c (fun x => { x with nack := bump 16 1 x.nack }) |> send .i3cNack)
  else
    let m := captureAt (trayOrd t) 0x04 (trayClass t) 0 (trayBytes t) m
    match t, trayOk m t with
    | .recovery q op a d, true => actRecovery q op a d nv m
    | _, ok =>
      (nv, m |> modI3c (fun x => { x with queue := x.queue ++ [t] })
             |> onlyIf (!ok) (modI3c fun x => { x with bad := bump 16 1 x.bad }))

/-- R444: a NODE message acted on. -/
def actNode (seq n : Nat) (m : Mach) : Mach :=
  if m.fab.node.isSome then setResult seq .invalid m
  else m |> modFab (fun f => { f with node := some n }) |> setResult seq .ok

/-- R409: a COOLANT message acted on. -/
def actCoolant (seq : Nat) (t : Int) (flow : Nat) (m : Mach) : Mach :=
  m |> modPwr (fun p => { p with coolantTenths := t, flow }) |> setResult seq .ok

/-- R409: an ALARM message acted on. -/
def actAlarmMsg (seq st : Nat) (m : Mach) : Mach := m |> actAlarm (st == 1) |> setResult seq .ok

/-- R327: a PLAN_BLOCK acted on: its bytes go into the image, and the last one resolves it. -/
def actPlanBlock (seq off : Nat) (last : Bool) (data : List Byte) (m : Mach) : Mach :=
  let img := m.link.trayPlan
  let img := padTo (max img.length (off + data.length)) (img.take off ++ zeros (off - img.length) ++ data ++ img.drop (off + data.length))
  if last then
    let r := resolvePlan (some img) m
    { r.2.2 with link := { r.2.2.link with trayPlan := [] } } |> setResult seq r.1
  else { m with link := { m.link with trayPlan := img } } |> setResult seq .ok

/-! ### Status block (R486, Table 20.8) -/

/-- Table 5.2: the code of CMD_STATE. -/
def stateCode : ModState → Nat
  | .boot => 0 | .mgmt => 1 | .ready => 2 | .fault => 3

/-- Table 20.8 with the given TICK. -/
def statusBlock (tick : Nat) (m : Mach) : List Byte :=
  padTo 32 (le 1 (stateCode m.life.mode) ++ le 1 (m.life.stage + 16 * m.life.fail) ++ le 2 (node16 m) ++
    le 4 m.i3c.lastSeq ++ le 1 (statusCode m.i3c.lastResult) ++ le 1 m.pwr.tj ++ le 2 (sat 16 (avgW m.pwr)) ++
    le 2 (limitW m.pwr) ++ le 4 (leaseLeft m) ++ le 6 tick)

/-- R486: the block of the boundary that fired. -/
def keepStatusBlock (m : Mach) : Mach := modI3c (fun x => { x with block := statusBlock m.tick.count m }) m

/-- R486: what a private read returns. -/
def readBlock (m : Mach) : List Byte := if m.i3c.block.isEmpty then statusBlock 0 m else m.i3c.block

/-! ### Common command codes (Table 20.5) -/

/-- A transfer the port answers, or does not acknowledge. -/
def onPort (f : Mach → Mach) : State → Host.Outcome State Fault Refusal :=
  onM fun m => if portResponds m then f m else send .i3cNack m

/-- A transfer acknowledged only while a condition holds. -/
def ackIf (q : Mach → Bool) (f : I3cSt → I3cSt) : State → Host.Outcome State Fault Refusal :=
  onPort fun m => if q m then modI3c f m else send .i3cNack m

/-- R484: events enabled or disabled: bit 0 in-band interrupts, bit 3 Hot-Join (log 12). -/
def setEvents (mask : Nat) (on : Bool) (x : I3cSt) : I3cSt :=
  { x with events := if mask.testBit 0 then on else x.events, hotJoin := if mask.testBit 3 then on else x.hotJoin }

/-- R484: the port logic alone reset: its address, its event enables and its queue (log 22). -/
def resetPort (x : I3cSt) : I3cSt := { x with queue := [], dynAddr := none, events := true, hotJoin := true }

/-- A message's row. -/
def onMsg (t : TrayMsg) (s : State) : Host.Outcome State Fault Refusal :=
  let r := receiveMsg t s.nv s.m
  .next { s with nv := r.1, m := r.2 }

/-- R392: I3C_LEASE. -/
def execI3cLease (q w l : Nat) (s : State) : Host.Outcome State Fault Refusal := onMsg (.lease q w l) s
/-- R437: I3C_RESET_COLD. -/
def execI3cResetCold (q : Nat) (replay : Bool) (s : State) : Host.Outcome State Fault Refusal := onMsg (.reset q 0 replay) s
/-- R437: I3C_RESET_WARM. -/
def execI3cResetWarm (q : Nat) (s : State) : Host.Outcome State Fault Refusal := onMsg (.reset q 1 false) s
/-- R444: I3C_NODE. -/
def execI3cNode (q n : Nat) (s : State) : Host.Outcome State Fault Refusal := onMsg (.node q n) s
/-- R409: I3C_COOLANT. -/
def execI3cCoolant (q : Nat) (t : Int) (flow : Nat) (s : State) : Host.Outcome State Fault Refusal := onMsg (.coolant q t flow) s
/-- R409: I3C_ALARM. -/
def execI3cAlarm (q st : Nat) (s : State) : Host.Outcome State Fault Refusal := onMsg (.alarm q st) s
/-- R327: I3C_PLAN_BLOCK. -/
def execI3cPlanBlock (q off : Nat) (last : Bool) (data : List Byte) (s : State) : Host.Outcome State Fault Refusal :=
  onMsg (.planBlock q off last data) s
/-- R452: I3C_FW_BLOCK_BEGIN. -/
def execI3cFwBlockBegin (q len : Nat) (s : State) : Host.Outcome State Fault Refusal := onMsg (.fwBlock q 0 len []) s
/-- R452: I3C_FW_BLOCK_DATA. -/
def execI3cFwBlockData (q off : Nat) (data : List Byte) (s : State) : Host.Outcome State Fault Refusal := onMsg (.fwBlock q 1 off data) s
/-- R452: I3C_FW_BLOCK_ABANDON. -/
def execI3cFwBlockAbandon (q : Nat) (s : State) : Host.Outcome State Fault Refusal := onMsg (.fwBlock q 2 0 []) s
/-- R452: I3C_FW_BLOCK_COMMIT. -/
def execI3cFwBlockCommit (q : Nat) (s : State) : Host.Outcome State Fault Refusal := onMsg (.fwBlock q 3 0 []) s
/-- R443: I3C_RECOVERY. -/
def execI3cRecovery (q op arg : Nat) (data : List Byte) (s : State) : Host.Outcome State Fault Refusal := onMsg (.recovery q op arg data) s
/-- R486: I3C_STATUS_READ. -/
def execI3cStatusRead (s : State) : Host.Outcome State Fault Refusal := onPort (fun m => send (.i3cRead (readBlock m)) m) s
/-- R484: ENEC. -/
def execI3cEnec (events : Nat) (s : State) : Host.Outcome State Fault Refusal := ackIf (fun _ => true) (setEvents events true) s
/-- R484: DISEC. -/
def execI3cDisec (events : Nat) (s : State) : Host.Outcome State Fault Refusal := ackIf (fun _ => true) (setEvents events false) s
/-- R484: RSTDAA. -/
def execI3cRstdaa (s : State) : Host.Outcome State Fault Refusal := ackIf (fun _ => true) (fun x => { x with dynAddr := none }) s
/-- R484: ENTDAA, in which a target without a dynamic address takes part. -/
def execI3cEntdaa (addr : Nat) (s : State) : Host.Outcome State Fault Refusal :=
  ackIf (fun m => m.i3c.dynAddr.isNone) (fun x => { x with dynAddr := some addr }) s
/-- R484: SETDASA, to the static address 0x3A of a target without a dynamic address. -/
def execI3cSetdasa (addr : Nat) (s : State) : Host.Outcome State Fault Refusal :=
  ackIf (fun m => m.i3c.dynAddr.isNone) (fun x => { x with dynAddr := some addr }) s
/-- R484: SETNEWDA, which a target with a dynamic address takes. -/
def execI3cSetnewda (addr : Nat) (s : State) : Host.Outcome State Fault Refusal :=
  ackIf (fun m => m.i3c.dynAddr.isSome) (fun x => { x with dynAddr := some addr }) s
/-- R484: SETMWL is accepted and cannot raise the maximum write length. -/
def execI3cSetmwl (_len : Nat) (s : State) : Host.Outcome State Fault Refusal := ackIf (fun _ => true) (fun x => x) s
/-- R484: SETMRL is accepted and cannot raise the maximum read length. -/
def execI3cSetmrl (_len : Nat) (s : State) : Host.Outcome State Fault Refusal := ackIf (fun _ => true) (fun x => x) s
/-- R484: GETMWL returns 1,040, most significant byte first (log 23). -/
def execI3cGetmwl (s : State) : Host.Outcome State Fault Refusal := onPort (send (.i3cRead [0x04, 0x10])) s
/-- R484: GETMRL returns 64, most significant byte first (log 23). -/
def execI3cGetmrl (s : State) : Host.Outcome State Fault Refusal := onPort (send (.i3cRead ([0x00, 0x40] ++ Config.i3cMrlTail))) s
/-- R484: GETPID. -/
def execI3cGetpid (s : State) : Host.Outcome State Fault Refusal := onPort (send (.i3cRead (padTo 6 Config.i3cPid))) s
/-- R484: BCR reads 0x06. -/
def execI3cGetbcr (s : State) : Host.Outcome State Fault Refusal := onPort (send (.i3cRead [0x06])) s
/-- R484: DCR reads 0x00. -/
def execI3cGetdcr (s : State) : Host.Outcome State Fault Refusal := onPort (send (.i3cRead [0x00])) s
/-- R484: GETSTATUS, whose two bytes the manual does not give: the next free value (log 9). -/
def execI3cGetstatus (s : State) : Host.Outcome State Fault Refusal :=
  onPort (fun m => m |> send (.i3cRead (padTo 2 (Config.i3cStatusBytes m.stp.choices)))
                     |> modStp (fun x => { x with choices := x.choices + 1 })) s
/-- R484: GETMXDS. -/
def execI3cGetmxds (s : State) : Host.Outcome State Fault Refusal := onPort (send (.i3cRead Config.i3cMxds)) s
/-- R484: RSTACT accepts the defining bytes 0x00 and 0x01; 0x01 resets the port logic alone. -/
def execI3cRstact (defining : Nat) (s : State) : Host.Outcome State Fault Refusal :=
  ackIf (fun _ => defining ≤ 1) (fun x => if defining = 1 then resetPort x else x) s

end Sys2Proof.Machine
end

