-- ==== Sys2Proof/Machine/HostPort.lean ====
section
/-! DEFINITION. The CXL port: training, host reads, function level reset, MSI-X and the transactions it
turns away (R421 to R424, R426, R429 to R432), and the fabric-ready announcement (R26, R27, R446). -/

namespace Sys2Proof.Machine

/-- R22, R432: the CXL port answers while the module is powered up. -/
def hostLinkUp (m : Mach) : Bool := m.life.run == .up

/-- R423: a function the host can reach. -/
def reachable (m : Mach) (fn : Nat) : Bool :=
  hostLinkUp m && (fn == 0 || m.host.vfEnable && fn ≤ m.host.numVfs)

/-- A change of the host port. -/
def modHost (f : HostSt → HostSt) (m : Mach) : Mach := { m with host := f m.host }

/-! ### Host reads (R429) -/

/-- The parameters of a PTR packet arrive, or their fetch fails (R124). -/
def paramsArrive (c q : Nat) (data : Option (List Byte)) : Mach → Mach :=
  modReq c false q fun r => match r.st with
    | .fetching _ _ => { r with st := .fetched data }
    | _ => r

/-- R326: a plan image arrives, or its fetch fails. -/
def planArrives (q : Nat) (data : Option (List Byte)) (m : Mach) : Mach :=
  { m with link := { m.link with planLoads := m.link.planLoads.map fun l =>
      if l.seq == q && !l.done then { l with done := true, image := data } else l } }

/-- R228: a table image arrives, or its fetch fails. -/
def tableArrives (c : Nat) (data : Option (List Byte)) : Mach → Mach :=
  modCtx c fun x => { x with cmpPending := x.cmpPending.map fun l => { l with done := true, image := data } }

/-- What a read was for, delivered. -/
def deliverRead (w : ReadFor) (data : Option (List Byte)) : Mach → Mach :=
  match w with
  | .params c q => paramsArrive c q data
  | .plan q => planArrives q data
  | .table c => tableArrives c data
  | .fwData => fwDataArrives data
  | .manifest t s => manifestArrives t s data
  | .tree c q i => treeArrives c q i data
  | .prompt c q i => promptArrives c q i data
  | .gone => id

/-- R429: a read of host memory ends, with data or as a failed fetch. -/
def endRead (id : Nat) (data : Option (List Byte)) (m : Mach) : Mach :=
  match m.host.reads.find? (·.1 == id) with
  | none => m
  | some (_, addr, w) =>
    m |> modHost (fun h => { h with reads := h.reads.filter (·.1 != id), readUs := alDel id h.readUs
                                    readFail := if data.isNone then bump 16 1 h.readFail else h.readFail })
      |> capture 0x03 0 0 (le 8 addr ++ le 1 (bit data.isNone) ++ data.getD [])
      |> deliverRead w data

/-- R429: a read that has had no completion for 50 ms by the end of the tick has failed. -/
def timeoutRead (id : Nat) (m : Mach) : Mach :=
  match alGet id m.host.readUs with
  | none => m
  | some t => if due m t 50000 then endRead id none m else m

/-! ### Function level reset (R430) -/

/-- R430: one function's BAR0 reads its reset values, its requests are cut off, and the FLR is latched; BAR2 keeps its contents and
the writes latched for them. -/
def resetFn (c : Nat) (m : Mach) : Mach :=
  { m with reqs := m.reqs.map fun r => if r.ctx == c then { r with preFlr := true } else r }
    |> modHost (fun h => { h with
          writes := h.writes.filter fun w => !(w.fn == c && w.bar == 0), held := h.held.filter fun w => !(w.fn == c && w.bar == 0) })
    |> modFn c (fun _ => { flrLatched := true })

/-- R430: an FLR received; the physical function's is one of every function. -/
def flr (c : Nat) (m : Mach) : Mach :=
  if !reachable m c then m
  else
    m |> modHost (fun h => { h with flr := bump 16 1 h.flr })
      |> forEach (if c = 0 then List.range 256 else [c]) resetFn

/-- R423: VF Enable cleared. -/
def clearVfEnable (m : Mach) : Mach :=
  if hostLinkUp m then
    m |> modHost (fun h => { h with vfEnable := false }) |> forEach ((List.range 256).filter (0 < ·)) resetFn
  else m

/-- R423, R431, R434: the port trains, and configuration sets its SR-IOV capability; VF Enable cleared by it is cleared as
VF_ENABLE_CLEAR clears it. -/
def trainLink (speed width : Nat) (flit256 cacheEn vfEnable : Bool) (numVfs : Nat) (m : Mach) : Mach :=
  if hostLinkUp m then
    m |> onlyIf (m.host.vfEnable && !vfEnable) clearVfEnable
      |> modHost (fun h => { h with speed, width, flit256, cacheEn, vfEnable, numVfs })
  else m

/-! ### MSI-X, atomics and snoops (R422, R424, R426) -/

/-- R424: a vector unmasked sends one message where its pending bit is set. -/
def unmask (c : Nat) (m : Mach) : Mach :=
  if !reachable m c then m
  else
    let due := (fnOf m c).msixMasked && (fnOf m c).msixPending
    m |> modFn c (fun f => { f with msixMasked := false, msixPending := f.msixPending && !due })
      |> onlyIf due (sendIrq c)

/-! ### Fabric-ready (R26, R27, R355, R446) -/

/-- R446: the announcement is due. -/
def readyDue (m : Mach) : Bool :=
  !m.fab.ready && m.fab.node.isSome && 5 ≤ m.life.stage && m.life.stage ≤ 7 && m.tick.started &&
    (m.link.plan.isSome || m.life.stage3Us + 2000000 ≤ m.tick.nowUs)

/-- R27: the nodes the plan places in this module's tray. -/
def trayOf (m : Mach) : List Nat :=
  match m.link.plan, planNode m (selfNode m) with
  | some pl, some me => (pl.nodes.filter (·.tray == me.tray)).map (·.node)
  | _, _ => [selfNode m]

/-- R446: fabric-ready announced at the boundary last fired. -/
def announceReady (nv : Nv) (m : Mach) : Nv × Mach :=
  if readyDue m then
    let e := 1 + Config.randomEpoch nv.epochDraws % 65535
    ({ nv with epochDraws := nv.epochDraws + 1 },
     m |> modFab (fun f => { f with inForce := f.mode, traySet := trayOf m, trayNodes := (trayOf m).length
                                    epoch := e, ready := true })
       |> capture 0x0E 0 0 (le 2 e)
       |> ownNotice (.fabricReady e))
  else (nv, m)

/-- R431: CXL_LINK_TRAIN. -/
def execCxlLinkTrain (speed width : Nat) (flit256 cacheEn vfEnable : Bool) (numVfs : Nat) (s : State) :
    Host.Outcome State Fault Refusal := onM (trainLink speed width flit256 cacheEn vfEnable numVfs) s
/-- R430: FUNCTION_LEVEL_RESET. -/
def execFunctionLevelReset (fn : Nat) (s : State) : Host.Outcome State Fault Refusal := onM (flr fn) s
/-- R423: VF_ENABLE_CLEAR. -/
def execVfEnableClear (s : State) : Host.Outcome State Fault Refusal := onM clearVfEnable s
/-- R424: MSIX_UNMASK. -/
def execMsixUnmask (fn : Nat) (s : State) : Host.Outcome State Fault Refusal := onM (unmask fn) s
/-- R426: CXL_ATOMIC_OP. -/
def execCxlAtomicOp (fn : Nat) (s : State) : Host.Outcome State Fault Refusal :=
  onM (fun m => if reachable m fn then send (.cxlUnsupported fn) m else m) s
/-- R422: CXL_SNOOP. -/
def execCxlSnoop (line : Nat) (s : State) : Host.Outcome State Fault Refusal :=
  onM (fun m => if hostLinkUp m then send (.snoopMiss line) m else m) s
/-- R429: HOST_READ_COMPLETE. -/
def execHostReadComplete (id : Nat) (data : Option (List Byte)) (s : State) : Host.Outcome State Fault Refusal :=
  onM (fun m => if hostLinkUp m then endRead id data m else m) s
/-- R429: HOST_READ_TIMEOUT. -/
def execHostReadTimeout (id : Nat) (s : State) : Host.Outcome State Fault Refusal :=
  onM (fun m => if hostLinkUp m then timeoutRead id m else m) s
/-- R446: FABRIC_READY_ANNOUNCE. -/
def execFabricReadyAnnounce (s : State) : Host.Outcome State Fault Refusal := nvBoundary announceReady s

end Sys2Proof.Machine
end

