-- ==== Sys2Proof/Machine/Aborts.lean ====
section
/-! DEFINITION. Stopping requests: ABORT (R135, R287, R311), CTX_CLOSE (R156) and the class 6 part of a
function level reset (R430). -/

namespace Sys2Proof.Machine

/-- Table 5.4, R135: the opcodes whose acted-on requests an ABORT stops. -/
def abortable (op : Nat) : Bool := [0x04, 0x30, 0x54, 0x91, 0x92, 0xB2].contains op

/-- A request's parameters are being fetched, or are in and not acted on. -/
def notActed (r : Req) : Bool :=
  match r.st with
  | .fetching _ _ => true
  | .fetched _ => true
  | _ => false

/-! ### Steps that have been stopped (R287, R311) -/

/-- A unit of the step is running, or its completion is latched. -/
def stepBusy (m : Mach) (s : Step) : Bool :=
  m.peas.any (fun a => a.active.any fun u => u.ctx == s.ctx && u.seq == s.seq && u.expertQ.isNone) ||
    m.lat.dones.any fun d => d.ctx == s.ctx && d.seq == s.seq && d.expertQ.isNone

/-- R133: the code of a step that ends other than OK, ranked with what its expert rounds came to and with CANCELLED where it
was stopped. -/
def stepCode (s : Step) (st : Status) (d : Nat) : Status × Nat :=
  (s.late.toList ++ (s.stopBy.map fun q => (Status.cancelled, q)).toList).foldl worse (st, d)

/-- R287, R311: a stopped step with nothing running and no expert round or collective round (R377) open is
finalised CANCELLED, or with a code that R133 ranks before it. -/
def endStopped (s : Step) (m : Mach) : Mach :=
  if s.cutDone && s.fail.isNone && s.expLeft.isEmpty && !stepBusy m s && !collOpen m s.ctx s.seq then
    let x := stepCode s .cancelled (s.stopBy.getD 0)
    failStep s x.1 x.2 m
  else m

/-- R287: the stopped steps that can end, end. -/
def endStoppedSteps (m : Mach) : Mach := forEach m.stp.steps endStopped m

/-- R287: the ABORTs of steps whose target has been finalised reply OK. -/
def settleAborts (m : Mach) : Mach :=
  let ds := m.reqs.filter fun r => r.op == 0xC0 && r.urgent && (findReq m r.ctx false r.arg).isNone
  forEach ds (fun r => finaliseReq r.ctx true r.seq .ok 0) m

/-! ### Stopping one request -/

/-- The shards changed. -/
def mapShards (f : Shard → Shard) (m : Mach) : Mach :=
  { m with ten := { m.ten with tens := m.ten.tens.map fun t => { t with shards := t.shards.map f } } }

/-- R135: an acted-on request stopped as its owning chapter states, by the packet `by_`. -/
def stopRequest (r : Req) (by_ : Nat) (nv : Nv) (m : Mach) : Nv × Mach :=
  let c := r.ctx
  let q := r.seq
  let m := modReq c r.urgent q (fun r => { r with abortBy := some by_ }) m
  let cancel := finaliseReq c r.urgent q .cancelled by_
  match r.op with
  | 0x30 =>
    match findStep m c q with
    | some s => (nv, m |> stopStep nv.flash.state s by_ |> endStoppedSteps)
    | none => (nv, cancel m)
  | 0x54 => (nv, m |> stopPrefetch c q by_ |> finishMove c q)
  | 0x91 => (nv, mapShards (fun s => if s.ctx == c && s.seq == q && s.st == .installing then { s with stop := some by_ } else s) m)
  | 0x92 => (nv, m |> mapShards (fun s => { s with verifies := s.verifies.filter (· != (c, q)) }) |> cancel)
  | 0x04 => let x := abandonUpdate nv m; (x.1, cancel x.2)
  | 0xB2 => (nv, { m with cap := { m.cap with exports := m.cap.exports.filter (·.1 != q) } } |> cancel)
  | _ => (nv, m)

/-- R156, R430: every request of a context stopped: what is abortable stops (step 2), then what is not acted on is
finalised CANCELLED (step 3); the rest runs on. -/
def stopAll (c by_ : Nat) (q : Req → Bool) (nv : Nv) (m : Mach) : Nv × Mach :=
  let rs := m.reqs.filter fun r => r.ctx == c && q r
  let x := (rs.filter fun r => !notActed r && abortable r.op && r.abortBy.isNone).foldl
    (fun x r => stopRequest r by_ x.1 x.2) (nv, m)
  (x.1, forEach (rs.filter notActed) (fun r => finaliseReq c r.urgent r.seq .cancelled by_) x.2)

/-! ### ABORT (R135) -/

/-- Packet `i` of a function's command ring, counted from its head. -/
def queuedBytes (f : Fn) (i : Nat) : List Byte := memRead f.cmdSlots (64 * ((f.head + i) % 256)) 64

/-- R135: the place of a queued packet that passed its checks and carries a sequence number. -/
def queuedAt (f : Fn) (q : Nat) : Option (Nat × Verdict) :=
  (f.checked.zipIdx.find? fun v => v.1 != .ignored && field (queuedBytes f v.2) 4 4 == q).map fun v => (v.2, v.1)

/-- R135: a queued target replies CANCELLED without running. -/
def answerQueued (c i by_ : Nat) (m : Mach) : Mach :=
  let bs := queuedBytes (fnOf m c) i
  let q := field bs 4 4
  m |> modFn c (fun f => { f with checked := f.checked.set i .answered })
    |> addReq { ctx := c, seq := q, op := field bs 0 1, irq := (field bs 3 1).testBit 2 }
    |> finalise c q .cancelled by_

/-- R135: an ABORT acted on.  Its reply goes ahead of its target's, as in the chapter's example (log 31). -/
def actAbort (h : Hdr) (target : Nat) (nv : Nv) (m : Mach) : Nv × Mach :=
  let c := h.ctx
  let f := fnOf m c
  let say (st : Status) (d : Nat) : Mach → Mach := finaliseReq c true h.seq st d
  match queuedAt f target with
  | some (_, .answered) => (nv, say .tooLate (((f.finals.find? (·.seq == target)).map (·.tick)).getD 0) m)
  | some (i, _) => (nv, m |> say .ok 0 |> answerQueued c i h.seq)
  | none =>
    match findReq m c false target with
    | some r =>
      if r.abortBy.isSome then (nv, say .ok 0 m)
      else if notActed r then (nv, m |> say .ok 0 |> finalise c target .cancelled h.seq)
      else if !abortable r.op then (nv, say .tooLate 0 m)
      else
        let x := stopRequest r h.seq nv m
        if r.op = 0x30 && (findReq x.2 c false target).isSome then (x.1, modReq c true h.seq (fun r => { r with arg := target }) x.2)
        else stopRequest r h.seq nv (say .ok 0 m)
    | none =>
      if dist target f.nextSeq < 2 ^ 31 then (nv, say .noTarget 0 m)
      else (nv, say .tooLate (((f.finals.find? (·.seq == target)).map (·.tick)).getD 0) m)

/-- R135: ABORT. -/
def pktAbort (h : Hdr) (target : Nat) : Packet where
  info := { op := 0xC0, mgmt := true, urgent := true }
  hdr := h
  ok := fun _ _ => true
  eff := actAbort h target
  extra := fun m => match queuedAt (fnOf m h.ctx) target with
    | some (_, .passed) => 1
    | _ => 0

/-! ### CTX_CLOSE (R156) and FLR (R430) -/

/-- R156: CTX_CLOSE. -/
def pktCtxClose (h : Hdr) (c : Nat) : Packet where
  info := { op := 0x14, zeroOnly := true }
  hdr := h
  ok := fun _ m => ctxLive m c
  eff := fun nv m => stopAll c h.seq (fun _ => true) nv (modCtx c (fun x => { x with closing := some h.seq }) m)

/-- R430: a latched FLR acted on, class 6. -/
def actFlr (c : Nat) (nv : Nv) (m : Mach) : Nv × Mach :=
  if (fnOf m c).flrLatched then stopAll c 0 (·.preFlr) nv (modFn c (fun f => { f with flrLatched := false }) m) else (nv, m)

/-- R135: ABORT. -/
def execAbort (h : Hdr) (target : Nat) (s : State) : Host.Outcome State Fault Refusal := runPacket (pktAbort h target) s
/-- R156: CTX_CLOSE. -/
def execCtxClose (h : Hdr) (c : Nat) (s : State) : Host.Outcome State Fault Refusal := runPacket (pktCtxClose h c) s

end Sys2Proof.Machine
end

