-- ==== Sys2Proof/Machine/Operands.lean ====
section
/-! DEFINITION. The operands of command packets: the header and parameters that the bytes of a ring slot, and of a
parameter block in host memory, spell (Table 5.3, R499, and the parameter table of each opcode). -/

namespace Sys2Proof.Machine

/-- Where a condition fails, the bytes spell nothing. -/
def when (b : Bool) (i : Instr) : Option Instr := if b then some i else none

/-- Every byte from `lo` on is zero but those of the named ranges (first byte, length). -/
def onlyNamed (lo : Nat) (keep : List (Nat × Nat)) (bs : List Byte) : Bool :=
  bs.zipIdx.all fun x => x.2 < lo || x.1 == 0 || keep.any fun k => k.1 ≤ x.2 && x.2 < k.1 + k.2

/-- The bytes `lo` to `lo + n - 1`. -/
def slice (bs : List Byte) (lo n : Nat) : List Byte := (bs.drop lo).take n

/-- A flag of a byte. -/
def flagAt (bs : List Byte) (i b : Nat) : Bool := (field bs i 1).testBit b

/-- Table 5.3: the header of a packet of ring `c`. -/
def hdrOf (c : Nat) (bs : List Byte) : Hdr :=
  { ctx := c, seq := field bs 4 4, fence := flagAt bs 3 1, irq := flagAt bs 3 2 }

/-- R499: the opcodes that always carry PTR. -/
def ptrOp (op : Nat) : Bool := [0x20, 0x23, 0x24, 0x30, 0x40, 0x41, 0x80, 0x82, 0x90].contains op

/-- R499: PARAM_LEN where the owning chapter states it. -/
def fixedLen (op : Nat) : Option Nat :=
  match op with
  | 0x20 => some 64 | 0x41 => some 112 | 0x80 => some 576 | 0x90 => some 64
  | _ => none

/-- A length rounded up to a multiple of 8. -/
def round8 (n : Nat) : Nat := (n + 7) / 8 * 8

/-- Words of 4 bytes. -/
def u32s (n : Nat) (bs : List Byte) : List Nat := (List.range n).map fun i => field bs (4 * i) 4

/-! ### Descriptors in a queue entry -/

/-- Table 3.3: the KIND of a descriptor; 0 stands for the reserved values. -/
def descKind : DescBody → Nat
  | .run .. => 1 | .move _ => 2 | .wait .. => 3 | .post .. => 4 | .reserved => 0

/-- Tables 3.4 and 7.5: bytes 16 to 63 of a descriptor. -/
def bodyBytes : DescBody → List Byte
  | .run prog entry args => le 4 prog ++ le 4 entry ++ ((args ++ List.replicate 10 0).take 10).flatMap (le 4)
  | .move b =>
    le 1 b.op ++ le 1 (bit b.bypass + 2 * bit b.release) ++ le 1 b.order ++ le 1 b.cmp ++ le 2 b.rows ++ zeros 2 ++
      le 4 b.rowBytes ++ le 8 b.src ++ le 8 b.dst ++ le 4 b.srcStride ++ le 4 b.dstStride
  | .wait addr target => le 4 addr ++ le 4 target
  | .post addr inc => le 4 addr ++ le 4 inc
  | .reserved => []

/-- R5, R65, Tables 3.3, 3.4 and 7.5: the 64 bytes of a queue entry that holds a descriptor, each field little-endian. -/
def descBytes (d : Desc) : List Byte :=
  padTo 64 (le 1 (descKind d.body) ++ le 1 (bit d.last + 2 * bit d.gated) ++ le 2 d.ctx ++ le 4 d.unit ++
    le 4 d.gateAddr ++ zeros 4 ++ bodyBytes d.body)

/-! ### Parameters carried in the packet -/

/-- Chapters 5, 13, 18: general and firmware opcodes. -/
def generalOperands (h : Hdr) (op : Nat) (b : List Byte) : Option Instr :=
  let z := fun k => onlyNamed 8 k b
  match op with
  | 0x00 => when (z []) (.nop h)
  | 0x01 => when (z [(8, 8)]) (.identify h (field b 8 8))
  | 0x02 => when (z [(8, 6), (16, 8)]) (.countersRead h (field b 8 1) (field b 9 1) (field b 10 2) (field b 12 2) (field b 16 8))
  | 0x03 =>
    if field b 20 1 = 1 then when (z [(20, 1)]) (.planClear h)
    else when (z [(8, 12)]) (.planLoad h (field b 8 8) (field b 16 4))
  | 0x04 =>
    match field b 8 1 with
    | 0 => when (z [(12, 4)]) (.fwBankBegin h (field b 12 4))
    | 1 => when (z [(8, 1), (16, 16)]) (.fwBankData h (field b 16 4) (field b 20 8) (field b 28 4))
    | 2 => when (z [(8, 1)]) (.fwBankAbandon h)
    | _ => none
  | 0x05 => when (z []) (.fwBankCommit h)
  | 0x06 => when (z [(8, 40)]) (.attest h (slice b 8 32) (field b 40 8))
  | 0x08 => when (z [(8, 1)]) (.setGuard h (field b 8 1))
  | _ => none

/-- Tables 6.2, 6.4: administration opcodes. -/
def tenancyOperands (h : Hdr) (op : Nat) (b : List Byte) : Option Instr :=
  let z := fun k => onlyNamed 8 k b
  match op with
  | 0x10 => when (z [(8, 4)]) (.tenCreate h (field b 8 1) (field b 9 1) (field b 10 2))
  | 0x11 => when (z [(8, 39)]) (.tenRebind h (field b 8 1) (field b 9 1) (field b 10 6) (field b 16 8) (field b 24 23))
  | 0x12 => when (z [(8, 1)]) (.tenDestroy h (field b 8 1))
  | 0x13 => when (z [(8, 4)] && field b 10 1 ≤ 1) (.ctxOpen h (field b 8 1) (field b 9 1) (flagAt b 10 0) (field b 11 1))
  | 0x14 => when (z [(8, 1)]) (.ctxClose h (field b 8 1))
  | 0x15 => when (z [(8, 15)] && field b 10 1 ≤ 1)
      (.grantSet h { entry := field b 8 2, valid := flagAt b 10 0, localTen := field b 11 1, srcNode := field b 12 2,
                     srcFtid := field b 14 2, basePage := field b 16 3, pages := field b 19 3, rights := field b 22 1 })
  | 0x16 => when (z [(8, 2)]) (.ctxSched h (field b 8 1) (field b 9 1))
  | _ => none

/-- Tables 10.8, 10.9, 11.1: KV and batch-slot opcodes. -/
def servingOperands (h : Hdr) (op : Nat) (b : List Byte) : Option Instr :=
  let z := fun k => onlyNamed 8 k b
  match op with
  | 0x21 =>
    let go := fun (f : Hdr → Nat → Nat → Nat → Nat → Nat → Instr) =>
      when (z [(8, 1), (10, 10)]) (f h (field b 10 2) (field b 12 2) (field b 14 2) (field b 16 2) (field b 18 2))
    if field b 8 1 = 0 then go .kvMapCopy else if field b 8 1 = 1 then go .kvMapMove else none
  | 0x22 => when (z [(8, 6)]) (.kvUnmap h (field b 8 2) (field b 10 4))
  | 0x25 => when (z [(8, 1), (16, 16)] && field b 8 1 ≤ 1) (.prefixDrop h (flagAt b 8 0) (slice b 16 16))
  | 0x26 => when (z [(8, 7)] && field b 14 1 ≤ 1) (.kvPin h (field b 8 2) (field b 10 2) (field b 12 2) (flagAt b 14 0))
  | 0x31 => when (z [(8, 4)]) (.slotAlloc h (field b 8 2) (field b 10 2))
  | 0x32 => when (z [(8, 5)] && field b 12 1 ≤ 1) (.slotRelease h (field b 8 2) (field b 10 2) (flagAt b 12 0))
  | 0x33 =>
    if field b 14 1 = 1 then when (z [(8, 7)]) (.prefillRatio h (field b 8 2) (field b 10 1) (field b 12 2) true)
    else when (z [(8, 3), (12, 2)]) (.prefillRatio h (field b 8 2) (field b 10 1) (field b 12 2) false)
  | 0x42 =>
    if field b 11 1 = 1 then when (z [(8, 10)]) (.expShared h (field b 8 2) (field b 10 1) true (field b 12 6))
    else when (z [(8, 3), (12, 6)]) (.expShared h (field b 8 2) (field b 10 1) false (field b 12 6))
  | 0xC1 => when (z [(8, 5)] && field b 12 1 ≤ 1) (.cancel h (field b 8 2) (field b 10 2) (flagAt b 12 0))
  | _ => none

/-- Table 7.3: tier opcodes. -/
def tierOperands (h : Hdr) (op : Nat) (b : List Byte) : Option Instr :=
  let z := fun k => onlyNamed 8 k b
  let (p, n, x) := (field b 8 3, field b 11 3, field b 14 1)
  match op with
  | 0x50 => when (z [(8, 7)]) (.memAlloc h p n x)
  | 0x51 => when (z [(8, 6)]) (.memFree h p n)
  | 0x52 => when (z [(8, 7)]) (.memPin h p n x)
  | 0x53 => when (z [(8, 7)]) (.memDemote h p n x)
  | 0x54 => when (z [(8, 6)]) (.memPrefetch h p n)
  | 0x55 =>
    if field b 12 1 = 1 then when (z [(8, 5)]) (.migratePolicy h (flagAt b 8 0) (flagAt b 9 0) (field b 10 2) true)
    else when (z [(8, 4)] && field b 8 1 ≤ 1 && field b 9 1 ≤ 1)
      (.migratePolicy h (flagAt b 8 0) (flagAt b 9 0) (field b 10 2) false)
  | _ => none

/-- Table 4.5: a recipe. -/
def readRecipe (b : List Byte) : Option Recipe :=
  if field b 2 1 < 8 && field b 5 1 ≤ 1 && field b 15 1 == 0 then
    some { wfmt := field b 0 1, afmt := field b 1 1, accInt32 := flagAt b 2 0, ref := flagAt b 2 1, ovfClamp := flagAt b 2 2
           outBudget := field b 3 1, outRatio := field b 4 1, fixed := flagAt b 5 0, fixedE := field b 6 1, baseE := field b 7 1
           satPpm := field b 8 2, ovfPpm := field b 10 2, uflPpm := field b 12 2, windowLog2 := field b 14 1 }
  else none

/-- Tables 5.11, 9.4: recipe and table opcodes. -/
def formatOperands (h : Hdr) (op : Nat) (b : List Byte) : Option Instr :=
  let z := fun k => onlyNamed 8 k b
  match op with
  | 0x60 =>
    match readRecipe (slice b 16 16) with
    | some r => when (z [(8, 3), (16, 16)] && field b 10 1 ≤ 1) (.recipeSet h (field b 8 2) (flagAt b 10 0) r)
    | none => none
  | 0x61 => when (z [(8, 2), (16, 8)]) (.recipeGet h (field b 8 2) (field b 16 8))
  | 0x70 =>
    match field b 8 1 with
    | 0 => when (z [(9, 1), (16, 8)]) (.cmpTableLoad h (field b 9 1) (field b 16 8))
    | 1 => when (z [(8, 1)]) (.cmpTableStandard h)
    | 2 => when (z [(8, 2)]) (.cmpTableHold h (field b 9 1))
    | 3 => when (z [(8, 2)]) (.cmpTableUnhold h (field b 9 1))
    | _ => none
  | 0x71 => when (z [(16, 8)]) (.cmpTableStatus h (field b 16 8))
  | _ => none

/-- Table 15.8: SHARD_INSTALL. -/
def shardOperands (h : Hdr) (b : List Byte) : Option Instr :=
  let down := field b 20 2
  if field b 8 1 = 1 then when (onlyNamed 8 [(8, 4)] b) (.shardRemove h (field b 9 1) (field b 10 2))
  else when (onlyNamed 8 [(9, 16), (32, 8)] b && field b 15 1 < 4 && (down == 0xFFFF || down < 4096))
    (.shardInstall h { slot := field b 9 1, shard := field b 10 2, basePage := field b 12 3, upstream := flagAt b 15 0
                       pinHbm := flagAt b 15 1, upNode := field b 16 2, queue := field b 18 2
                       downNode := if down = 0xFFFF then 0xFFF else down, downNone := down == 0xFFFF, downQueue := field b 22 2
                       order := field b 24 1, src := field b 32 8 })

/-- Chapters 13, 15, 16, 19: group, port, shard, power and capture opcodes. -/
def moduleOperands (h : Hdr) (op : Nat) (b : List Byte) : Option Instr :=
  let z := fun k => onlyNamed 8 k b
  match op with
  | 0x81 => when (z []) (.groupLeave h)
  | 0x83 => when (z [(8, 1)]) (.portReset h (field b 8 1))
  | 0x84 => when (z [(8, 1), (10, 3), (16, 8)]) (.remapAccept h (field b 8 1) (field b 10 2) (field b 12 1) (field b 16 8))
  | 0x91 => shardOperands h b
  | 0x92 => when (z [(8, 1), (10, 2)]) (.shardVerify h (field b 8 1) (field b 10 2))
  | 0x93 => when (z [(8, 2)]) (.verifyInterval h (field b 8 2))
  | 0xA0 => when (z [(8, 2)]) (.capSet h (field b 8 2))
  | 0xA1 => when (z [(8, 1)]) (.stepLimit h (field b 8 1))
  | 0xA2 => when (z [(8, 2), (16, 8)]) (.energyRead h (field b 8 1) (field b 9 1) (field b 16 8))
  | 0xB0 => when (z [(8, 3), (12, 2), (16, 4)] && field b 8 1 ≤ 1 && field b 9 1 ≤ 1)
      (.captureStart h (flagAt b 8 0) (flagAt b 9 0) (field b 10 1) (field b 12 2) (field b 16 4))
  | 0xB1 => when (z [(8, 1), (16, 8)] && field b 8 1 < 4) (.captureStop h (flagAt b 8 0) (flagAt b 8 1) (field b 16 8))
  | 0xB2 => when (z [(8, 24)]) (.captureExport h (field b 8 8) (field b 16 8) (field b 24 8))
  | 0xC0 => when (z [(8, 4)]) (.abort h (field b 8 4))
  | _ => none

/-- The command that a 64-byte packet without PTR spells. -/
def packetOperands (h : Hdr) (b : List Byte) : Option Instr :=
  let op := field b 0 1
  generalOperands h op b <|> tenancyOperands h op b <|> servingOperands h op b <|> tierOperands h op b <|>
    formatOperands h op b <|> moduleOperands h op b

/-! ### Parameter blocks in host memory -/

/-- Table 10.5: KV_TABLE_SETUP. -/
def kvOperands (h : Hdr) (b : List Byte) : Option Instr :=
  match field b 0 1 with
  | 0 => when (onlyNamed 0 [(0, 14), (16, 40)] b)
      (.kvTableAttach h
        { pool := field b 1 1, kfmt := field b 2 1, h := field b 3 1, d := field b 4 2, groups := field b 6 2, layers := field b 8 2
          streams := field b 10 2, maxBlocks := field b 12 2, tableBase := field b 16 3, tablePages := field b 19 3
          poolBase := field b 22 3, poolPages := field b 25 3, recBase := field b 28 3, recPages := field b 31 3
          hbmPages := field b 34 3, lpPages := field b 37 3, root := slice b 40 16 })
  | 1 => when (onlyNamed 0 [(0, 1)] b) (.kvTableDetach h)
  | 2 => when (onlyNamed 0 [(0, 1), (56, 8)] b) (.kvTableStatus h (field b 56 8))
  | _ => none

/-- Table 10.9: PREFIX_INSERT and PREFIX_LOOKUP. -/
def prefixOperands (h : Hdr) (lookup : Bool) (b : List Byte) : Option Instr :=
  let n := field b 6 1
  let blk : PrefixBlk := { map := flagAt b 0 0, stream := field b 2 2, firstBlock := field b 4 2, blocks := n, parent := slice b 16 16
                           outPtr := field b 32 8, tokens := b.drop 64 }
  when (b.length == 64 + 256 * n && onlyNamed 0 [(0, 1), (2, 5), (16, 24), (64, 256 * n)] b && field b 0 1 ≤ 1)
    (if lookup then .prefixLookup h blk else .prefixInsert h blk)

/-- Table 11.4: a batch entry. -/
def readEntry (b : List Byte) : Entry :=
  { slot := field b 0 2, gen := field b 2 2, kind := field b 4 1, nodes := field b 6 2, token := field b 8 4, promptLen := field b 12 4
    dataPtr := field b 16 8 }

/-- Table 11.3: STEP_SUBMIT. -/
def stepOperands (h : Hdr) (b : List Byte) : Option Instr :=
  let n := field b 2 2
  let es := (List.range n).map fun i => slice b (64 + 32 * i) 32
  when (b.length == 64 + 32 * n && field b 0 1 ≤ 1 && field b 28 4 == 0 && es.all (onlyNamed 0 [(0, 5), (6, 18)]))
    (.stepSubmit h
      { ride := flagAt b 0 0, riders := field b 1 1, phases := field b 4 2, resultBytes := field b 6 2, plan := field b 8 8
        inSlice := field b 16 4, inBytes := field b 20 4, resSlice := field b 24 4, outPtr := field b 32 8, args := slice b 40 24
        entries := es.map readEntry })

/-- Table 12.1: EXP_LAYOUT. -/
def layoutOperands (h : Hdr) (b : List Byte) : Option Instr :=
  if field b 0 1 = 1 then when (b.length == 64 && onlyNamed 0 [(0, 1), (2, 2)] b) (.expLayoutRemove h (field b 2 2))
  else
    let (ne, ns) := (field b 4 2, field b 6 1)
    let (src, ex) := (u32s ns (b.drop 64), u32s ne (b.drop (64 + 4 * ns)))
    when (field b 0 1 == 0 && b.length == round8 (64 + 4 * ns + 4 * ne) && onlyNamed 0 [(1, 20), (24, 4), (64, 4 * ns + 4 * ne)] b
        && src.all (· < 4096) && ex.all fun w => wrap 16 w < 4096 && w / 2 ^ 16 < 1024)
      (.expLayoutInstall h
        { topk := field b 1 1, layer := field b 2 2, self := field b 7 1, layoutId := field b 8 4, srcCap := field b 12 2
          rowUnits := field b 14 2, ansUnits := field b 16 2, order := field b 18 1, hdrWait := field b 19 1, sharedPhases := field b 20 1
          xrec := field b 24 4, sources := src, experts := ex.map fun w => (wrap 16 w, w / 2 ^ 16) })

/-- Table 12.5: EXP_QUEUE_POST. -/
def queueOperands (h : Hdr) (b : List Byte) : Option Instr :=
  if field b 0 1 = 1 then when (onlyNamed 0 [(0, 1), (2, 2)] b) (.expQueueUnpost h (field b 2 2))
  else when (field b 0 1 == 0 && onlyNamed 0 [(2, 23), (64, 36)] b && field b 24 1 ≤ 1)
    (.expQueuePost h
      { queue := field b 2 2, layoutId := field b 4 4, expert := field b 8 2, unitRows := field b 10 2, ctrl := field b 12 4
        data := field b 16 8, dataSlice := flagAt b 24 0, prog := field b 64 4, progEntry := field b 68 4, args := u32s 7 (b.drop 72) })

/-- Table 15.1: GROUP_JOIN. -/
def joinOperands (h : Hdr) (b : List Byte) : Option Instr :=
  when (onlyNamed 0 [(0, 12), (64, 512)] b && field b 0 2 < 4096 && field b 2 2 < 4096)
    (.groupJoin h (field b 0 2) (field b 2 2) (field b 4 8) ((List.range 4096).filter fun k => flagAt b (64 + k / 8) (k % 8)))

/-- Table 15.3: COLL_SETUP. -/
def collOperands (h : Hdr) (b : List Byte) : Option Instr :=
  if field b 0 1 = 1 then when (b.length == 64 && onlyNamed 0 [(0, 1), (8, 4)] b) (.collRemove h (field b 8 4))
  else
    let n := field b 3 1
    let ns := u32s n (b.drop 64)
    when (field b 0 1 == 0 && b.length == round8 (64 + 4 * n) && onlyNamed 0 [(1, 6), (8, 16), (64, 4 * n)] b && ns.all (· < 4096))
      (.collSetup h
        { kind := field b 1 1, wire := field b 2 1, rank := field b 4 1, order := field b 5 1, waitTicks := field b 6 1
          collId := field b 8 4, queue := field b 12 2, layer := field b 14 2, maxCount := field b 16 4, recv := field b 20 4, nodes := ns })

/-- R380: MANIFEST_LOAD. -/
def manifestOperands (h : Hdr) (b : List Byte) : Option Instr :=
  match field b 0 1 with
  | 0 => when (onlyNamed 0 [(1, 1), (8, 12), (32, 32)] b) (.manifestLoad h (field b 1 1) (field b 8 8) (field b 16 4) (slice b 32 32))
  | 1 => when (onlyNamed 0 [(0, 2)] b) (.manifestUnload h (field b 1 1))
  | _ => none

/-- The command that an opcode with PTR and its parameter block spell. -/
def blockOperands (h : Hdr) (op : Nat) (b : List Byte) : Option Instr :=
  match op with
  | 0x20 => kvOperands h b | 0x23 => prefixOperands h false b | 0x24 => prefixOperands h true b | 0x30 => stepOperands h b
  | 0x40 => layoutOperands h b | 0x41 => queueOperands h b | 0x80 => joinOperands h b | 0x82 => collOperands h b
  | 0x90 => manifestOperands h b
  | _ => none

/-- R124, R499: the pointer fields of a packet with PTR. -/
def ptrOk (op : Nat) (bs : List Byte) : Bool :=
  let n := field bs 16 2
  onlyNamed 8 [(8, 10)] bs && field bs 8 8 % 8 == 0 && 8 ≤ n && n ≤ 8192 && n % 8 == 0 &&
    (match fixedLen op with | some k => n == k | none => true)

end Sys2Proof.Machine
end

