-- ==== Sys2Proof/Machine/Flags.lean ====
section
/-! DEFINITION. Fields and flags of registers: how a register is put together from them (R4, R10), the flags of
EVT_STATUS (Table 5.2), and what a W1C write clears (R11). -/

namespace Sys2Proof.Machine

/-- A register as it reads: its width in bits, its value, and whether it holds an RW, W1C or WO field. -/
structure Reg where
  width : Nat
  value : Nat
  writable : Bool := false
deriving DecidableEq, Repr

/-- Fields put together: each as its lowest bit, its width and its value. -/
def pack : List (Nat × Nat × Nat) → Nat
  | [] => 0
  | f :: r => wrap f.2.1 f.2.2 * 2 ^ f.1 + pack r

/-- A 64-bit register that only the module writes. -/
def ro64 (fs : List (Nat × Nat × Nat)) : Option Reg := some { width := 64, value := pack fs }
/-- A 32-bit register that only the module writes. -/
def ro32 (fs : List (Nat × Nat × Nat)) : Option Reg := some { width := 32, value := pack fs }
/-- A 64-bit register with a writable field. -/
def rw64 (fs : List (Nat × Nat × Nat)) : Option Reg := some { width := 64, value := pack fs, writable := true }
/-- A 32-bit register with a writable field. -/
def rw32 (fs : List (Nat × Nat × Nat)) : Option Reg := some { width := 32, value := pack fs, writable := true }

/-- Table 5.2: the flags of EVT_STATUS. -/
def evtFlags : Nat := 0x7F

/-- R10, R11: a W1C write clears the flags written as 1 and leaves the others. -/
def w1c (bits : BitVec 32) (v : BitVec 32) : BitVec 32 := v &&& ~~~(bits &&& BitVec.ofNat 32 evtFlags)

/-- The bits `[hi : lo]` of a written value. -/
def wbits (v lo n : Nat) : Nat := bitsOf v (lo + n - 1) lo

end Sys2Proof.Machine
end

