-- ==== Sys2Proof/Machine/Registers.lean ====
section
/-! DEFINITION. What the registers read: BAR2 (Tables 21.1 and 21.2 with the field maps they name), the ring
registers of BAR0 (Tables 5.2 and 17.4), and what BAR2 reads while the module powers up (R496, R497). -/

namespace Sys2Proof.Machine

/-! ### BAR2 by block (slot number within the region) -/

/-- Tables 2.1, 2.2, 2.7, 15.11; R47, R49: TIK_. -/
def tikReg (m : Mach) (i : Nat) : Option Reg :=
  let t := m.tick
  match i with
  | 0 => rw32 [(0, 10, t.periodUs), (16, 10, t.inForce)]
  | 1 => ro32 [(0, 1, bit t.root), (1, 3, t.upstream), (4, 6, t.downstream), (16, 12, t.group)]
  | 2 => ro32 [(0, 32, t.count)]
  | 3 => ro32 [(0, 32, t.countHi)]
  | 4 => rw32 [(0, 6, t.guardUs)]
  | 5 => rw64 [(0, 1, bit t.freeRun), (1, 2, t.missRun), (3, 1, bit t.lost), (4, 1, bit t.lostSeen), (8, 16, t.missTotal),
      (24, 8, t.lateReq), (32, 16, t.pathDelayNs), (48, 8, t.hops)]
  | 6 => ro32 [(0, 32, t.ovrTotal)]
  | 7 => ro64 [(0, 16, t.ovrClock), (16, 16, t.ovrStall), (32, 16, t.ovrFabric), (48, 16, t.ovrEstimate)]
  | 8 => ro64 [(0, 13, max 1 t.members.length),
      (16, 12, if t.members.length ≤ 1 then m.fab.node.getD 0 else t.rootNode),
      (32, 1, bit t.join.isSome), (33, 1, bit (t.root && t.formed))]
  | _ => none

/-- Tables 11.9, 12.10: CMD_. -/
def cmdReg (m : Mach) (i : Nat) : Option Reg :=
  let x := m.stp
  match i with
  | 0 => ro64 [(0, 32, x.nSteps), (32, 16, x.genDrop), (48, 16, x.aborted)]
  | 1 => ro64 [(0, 32, x.treeNodes), (32, 32, x.accepted)]
  | 2 => ro64 [(0, 32, x.tokens), (32, 16, x.prefillDone), (48, 16, x.discarded)]
  | 4 => ro64 [(0, 32, x.expSent), (32, 16, x.expDropped), (48, 16, x.expInvalid)]
  | 5 => ro64 [(0, 32, x.zeroHdr), (32, 16, x.missing), (48, 16, x.badHdr)]
  | 6 => ro64 [(0, 32, x.answers), (32, 16, x.gGenDrop), (48, 16, x.stale)]
  | 7 => ro64 [(0, 32, x.units), (32, 16, x.skipped), (48, 16, x.lost)]
  | _ => none

/-- Tables 1.6, 14.6, 15.11: FAB_. -/
def fabReg (m : Mach) (i : Nat) : Option Reg :=
  let f := m.fab
  match i with
  | 0 => rw32 [(0, 1, bit f.mode), (8, 4, f.trayNodes), (16, 1, bit f.inForce)]
  | 1 => rw64 [(0, 13, f.timeoutUs), (16, 4, f.attempts), (24, 8, f.retainMs), (32, 14, f.notReadyMs)]
  | 2 => ro64 [(0, 1, bit f.ready), (16, 16, f.epoch), (32, 12, f.node.getD 0)]
  | 3 => ro64 [(0, 32, f.sent), (32, 16, f.resent), (48, 16, f.nrRetry)]
  | 4 => ro64 [(0, 32, f.applied), (32, 16, f.replayHit), (48, 16, f.indeterminate)]
  | 5 => ro64 [(0, 32, f.detoured), (32, 16, f.noRoute), (48, 16, f.reorderDrop)]
  | 6 => ro64 [(0, 32, f.flags), (32, 16, f.withheld), (48, 16, f.lineHold)]
  | 7 => ro64 [(0, 32, f.targetLost), (32, 12, f.lastNode), (48, 16, f.nodesLost)]
  | 8 => ro64 [(0, 32, f.rounds), (32, 16, f.faulted), (48, 16, f.collZero)]
  | 9 => ro64 [(0, 16, f.collBad), (16, 16, f.collRefused)]
  | _ => none

/-- Table 13.12: the registers of one port. -/
def portReg (m : Mach) (p i : Nat) : Option Reg :=
  let x := portOf m p
  match i with
  | 0 => ro64 [(0, 4, portCode x.state), (4, 4, x.qcause), (8, 5, x.width), (16, 16, x.proto), (32, 12, (x.peer.map (·.node)).getD 0),
      (44, 3, (x.peer.map (·.port)).getD 0), (47, 1, bit x.peer.isSome), (48, 16, x.delayNs)]
  | 1 => ro64 [(0, 64, (x.peer.map (·.serial)).getD 0)]
  | 2 => ro64 [(0, 18, x.rxFailed), (18, 18, x.txFailed), (36, 4, x.spares)]
  | 3 => ro64 [(0, 32, x.fecCorr), (32, 16, x.fecUncorr), (48, 16, x.crcFail)]
  | 4 => ro64 [(0, 32, x.replayed), (32, 8, x.trainFail), (40, 8, x.subst), (48, 8, x.widthDrop), (56, 8, x.tickDrop)]
  | _ => none

/-- Table 13.12: LNK_. -/
def lnkReg (m : Mach) (i : Nat) : Option Reg :=
  let l := m.link
  match i with
  | 0 => rw32 [(0, 16, l.laneErrMax)]
  | 1 => ro64 [(0, 1, bit l.plan.isSome), (1, 6, maskOf ((List.range 6).filter fun p => (l.overrides[p]?.getD none).isSome)),
      (32, 32, (l.plan.map (·.rev)).getD 0)]
  | 2 => ro64 [(0, 64, (l.plan.map (·.id)).getD 0)]
  | _ => if 32 ≤ i && i < 80 then portReg m ((i - 32) / 8) ((i - 32) % 8) else none

/-- Tables 16.9, 20.12: PWR_. -/
def pwrReg (nv : Nv) (m : Mach) (i : Nat) : Option Reg :=
  let p := m.pwr
  match i with
  | 0 => ro64 [(0, 16, p.voltMv), (16, 16, p.current), (32, 16, p.powerW), (48, 16, sat 16 (avgW p))]
  | 1 => ro64 [(0, 64, p.energy / 10000000)]
  | 2 => ro64 [(0, 11, p.capW), (16, 11, p.ceilingW), (32, 11, limitW p), (48, 1, bit p.leased), (49, 1, bit p.alarm)]
  | 3 => ro64 [(0, 32, leaseLeft m), (32, 16, p.leases), (48, 8, p.expired), (56, 8, p.refused)]
  | 4 => ro64 [(0, 5, p.localStep), (8, 5, p.groupStep), (16, 5, p.reqStep), (24, 4, p.reqCause.toNat), (28, 1, bit (clamped p)),
      (29, 1, bit p.floor), (32, 4, p.pace), (40, 5, p.stepLimit)]
  | 5 => ro64 [(0, 8, p.tj), (8, 8, p.th), (16, 8, coolantC p), (24, 16, p.flow), (40, 5, p.thermalStep), (48, 4, p.hbmPace)]
  | 6 => rw64 [(0, 10, p.gateTicks), (16, 48, maskOf p.gated)]
  | 7 => ro64 [(0, 16, p.nClamps), (16, 16, p.nSupply), (32, 16, p.deferred), (48, 16, p.stepChanges)]
  | 8 => ro64 [(0, 1, bit m.life.present), (1, 3, nv.lastShut), (8, 8, nv.uvShut), (16, 8, nv.ovShut), (24, 8, nv.ocTrip),
      (32, 16, m.i3c.nack), (48, 16, m.i3c.bad)]
  | _ => none

/-- Every pool of the module. -/
def allPools (m : Mach) : List Pool := m.ten.tens.flatMap (·.pools)

/-- Table 7.11: the code of the flash state. -/
def flashCode : FlashState → Nat
  | .normal => 0 | .warn => 1 | .readOnly => 2 | .offline => 3

/-- Tables 3.7, 4.7, 7.12, 10.10: MEM_. -/
def memReg (nv : Nv) (m : Mach) (i : Nat) : Option Reg :=
  let x := m.mem
  let f := nv.flash
  match i with
  | 0 => ro64 [(0, 64, x.merged)]
  | 1 => ro64 [(0, 16, x.mergeFull), (16, 16, x.denied), (32, 16, x.alignFail), (48, 16, x.pendReject)]
  | 2 => ro64 [(0, 16, x.precSat), (16, 16, x.precOvf), (32, 16, x.precUfl), (48, 8, x.precInvalid), (56, 8, x.precFlags)]
  | 8 => ro64 [(0, 20, tierFrames .hbm), (20, 20, tierFrames .lp), (40, 24, claimFlash f.state m)]
  | 9 => ro64 [(0, 20, freeFrames m .hbm), (20, 20, freeFrames m .lp), (40, 24, freeFrames m .flash)]
  | 10 => rw64 [(0, 16, x.hbmLow), (16, 16, x.hbmHigh), (32, 16, x.lpLow), (48, 16, x.lpHigh)]
  | 11 => ro64 [(0, 32, x.stalls), (32, 16, x.stallFailed), (48, 16, x.stallRemote)]
  | 12 => ro64 [(0, 32, x.promoted), (32, 32, x.demoted)]
  | 13 => ro64 [(0, 2, flashCode f.state), (8, 8, f.lifePct), (16, 16, f.sparePermille), (32, 16, sat 16 f.retired), (48, 16, f.eraseSpread)]
  | 14 => let w := flashView nv m; ro64 [(0, 32, w.framesWritten), (32, 32, w.nandWritten)]
  | 15 => ro64 [(0, 32, f.disturb), (32, 32, f.retention)]
  | 16 => ro64 [(0, 32, f.retried), (32, 16, f.rebuilt), (48, 16, f.uncorrectable)]
  | 24 => ro64 [(0, 32, ((allPools m).map fun p => p.refs.countP (·.2 != 0)).sum), (32, 32, ((allPools m).map (·.quarantine.length)).sum)]
  | 25 => ro64 [(0, 32, x.kvToLp), (32, 32, x.kvToFlash)]
  | 26 => ro64 [(0, 32, x.kvPrefetched), (32, 16, x.kvLate), (48, 16, x.kvOvercommit)]
  | 27 => ro64 [(0, 32, x.kvHit), (32, 16, x.kvEvicted), (48, 16, x.kvDup)]
  | _ => none

/-- Table 6.5: the byte of a pod's owner. -/
def podByte : Owner → Nat
  | .free => 0xFF | .ten t => t | .rebinding => 0xFE | .withheld => 0xFE

/-- Table 6.5: TEN_. -/
def tenReg (m : Mach) (i : Nat) : Option Reg :=
  let x := m.ten
  match i with
  | 0 => ro64 [(0, 6, x.tens.countP (·.live)), (8, 6, x.pods.count .free), (16, 8, x.slices.count .free),
      (24, 9, x.keySlots.countP (· == .free)), (40, 1, bit !x.rebinds.isEmpty)]
  | 7 => ro64 [(0, 16, x.lastUs), (16, 16, x.maxUs)]
  | 8 => ro64 [(0, 32, m.mem.reclaimQ.length), (32, 32, x.reclaimed)]
  | _ =>
    if 1 ≤ i && i < 7 then
      ro64 ((List.range 8).map fun b => (8 * b, 8, podByte (x.pods[8 * (i - 1) + b]?.getD .free)))
    else none

/-- Table 9.7: CMP_. -/
def cmpReg (m : Mach) (i : Nat) : Option Reg :=
  let x := m.cmp
  match i with
  | 0 => ro64 [(0, 32, x.frBlocks), (32, 16, x.frSat), (48, 16, x.frUfl)]
  | 1 => ro64 [(0, 32, x.vrBlocks), (32, 16, x.vrStored), (48, 16, x.vrSat)]
  | 2 => ro64 [(0, 16, x.dmgIndex), (16, 16, x.dmgHeader), (32, 16, x.dmgCrc), (48, 16, x.dmgCode)]
  | 3 => ro64 [(0, 16, x.loads), (16, 16, x.refused), (32, 16, x.freed), (48, 16, x.frInvalid)]
  | _ => none

/-- Table 8.5: ECC_. -/
def eccReg (nv : Nv) (m : Mach) (i : Nat) : Option Reg :=
  let x := m.ecc
  match i with
  | 0 => rw64 [(0, 6, x.sramS), (8, 8, x.hbmH), (16, 8, x.lpH), (32, 16, x.sramPasses), (48, 16, x.hbmPasses)]
  | 1 => ro64 [(0, 32, x.sramCorrected), (32, 16, x.sramUncorr), (48, 16, x.sramPoisonRead)]
  | 2 => ro64 [(0, 32, x.hbmCorrected), (32, 16, x.hbmUncorr), (48, 16, x.hbmPoisonRead)]
  | 3 => ro64 [(0, 32, x.ondie), (32, 16, x.ondieUe), (48, 16, x.caRetry)]
  | 4 => ro64 [(0, 32, x.lpLinkCorrected), (32, 16, x.lpLinkRetry), (48, 16, x.lpCrcFail)]
  | 5 => ro64 [(0, 32, x.xbarReplay), (32, 16, x.turnipReplay), (48, 16, x.parityFailed)]
  | 6 => ro64 [(0, 16, x.remaps.length), (16, 16, sat 16 nv.candidates.length), (32, 8, x.withheld), (48, 16, nv.fused)]
  | _ => none

/-- Table 19.7: CAP_. -/
def capReg (nv : Nv) (m : Mach) (i : Nat) : Option Reg :=
  let x := m.cap
  match i with
  | 0 => ro64 [(0, 2, x.state), (2, 1, bit x.fill), (3, 1, bit nv.capArmed.isSome), (4, 1, bit x.bootOrigin), (5, 1, bit x.wrapped),
      (6, 1, bit m.life.replay), (8, 3, x.endCause), (32, 32, sat 32 x.records.length)]
  | 1 => ro64 [(0, 64, x.firstTick)]
  | 2 => ro64 [(0, 64, x.lastTick)]
  | 3 => ro64 [(0, 64, x.triggerTick)]
  | 4 => ro64 [(0, 64, x.used)]
  | 5 => rw64 [(12, 52, x.replayBase)]
  | 6 => rw64 [(12, 52, x.replayOut)]
  | 7 => ro64 [(0, 48, x.replayTick), (48, 3, x.diverge)]
  | _ => none

/-- Table 18.15: a firmware bank's register. -/
def bankReg (nv : Nv) (b : Nat) : Option Reg :=
  let k := bankOf nv b
  ro64 [(0, 3, bankCode k.st), (3, 1, bit (nv.nextBank == b)), (16, 16, k.secVersion), (32, 32, k.fwRev)]

/-- Tables 18.15, 15.11: SEC_. -/
def secReg (nv : Nv) (m : Mach) (i : Nat) : Option Reg :=
  let l := m.life
  match i with
  | 0 => ro64 [(0, 4, l.stage), (4, 4, l.fail), (8, 1, l.bank), (9, 1, bit ((bankOf nv l.bank).st == .trial)),
      (10, 1, bit m.fab.node.isSome), (16, 16, l.bootMs)]
  | 1 => bankReg nv 0
  | 2 => bankReg nv 1
  | 3 => ro64 [(0, 32, l.written), (32, 1, bit l.updOpen), (33, 1, bit l.updTray), (48, 16, l.refused)]
  | 4 => ro64 [(0, 64, Config.serial)]
  | 5 => ro64 [(0, 64, field Config.fwKeyDigest 0 8)]
  | 6 => ro64 [(0, 3, l.last), (8, 16, l.warmCount)]
  | 7 => ro64 [(0, 40, nv.leaves)]
  | 8 => ro64 [(0, 16, (m.ten.tens.map fun t => t.shards.countP fun s => s.st == .installed || s.st == .failed).sum), (16, 16, m.fab.shInstallFail),
      (32, 16, m.fab.shVerified), (48, 16, m.fab.shVerifyFail)]
  | 9 => ro64 [(0, 32, m.fab.shFwdBytes / 2 ^ 20), (32, 32, m.fab.shVerBytes / 2 ^ 20)]
  | _ => none

/-- Tables 21.1, 21.2: the BAR2 register whose 8-byte slot starts at an offset. -/
def bar2Reg (nv : Nv) (m : Mach) (off : Nat) : Option Reg :=
  if off % 8 ≠ 0 then none
  else
    let i := off % 65536 / 8
    match off / 65536 with
    | 0 => tikReg m i | 1 => cmdReg m i | 3 => fabReg m i | 4 => lnkReg m i | 5 => pwrReg nv m i | 6 => memReg nv m i
    | 7 => tenReg m i | 8 => cmpReg m i | 9 => eccReg nv m i | 10 => capReg nv m i | 11 => secReg nv m i
    | _ => none

/-! ### While the module powers up (R496, R497) -/

/-- Table 21.2: the cold reset value of a register that a power-up stage makes live. -/
def coldValue (off : Nat) : Nat :=
  match off with
  | 0xB0000 => 0 | 0xB0008 => 0 | 0xB0010 => 0 | 0xB0020 => 0 | 0xB0028 => 0 | 0xB0038 => 0
  | off => ((bar2Reg {} {} off).map (·.value)).getD 0

/-- R440: the last power-up stage that has ended. -/
def stagesEnded (l : LifeSt) : Nat :=
  if l.stage = 15 then (match l.fail with | 3 => 3 | 4 => 4 | _ => 1) else l.stage - 1

/-- R496: the stage from whose end a register reads its live value. -/
def liveFrom (off : Nat) : Nat :=
  match off with
  | 0xB0000 => 1 | 0xB0020 => 1 | 0xB0028 => 1 | 0x50000 => 1 | 0x50008 => 1
  | 0xB0008 => 2 | 0xB0010 => 2 | 0xB0038 => 2
  | 0x60068 => 5 | 0x60070 => 5 | 0x60078 => 5 | 0x60080 => 5
  | _ => 3

/-- R492, R496, R497: what a BAR2 register reads. -/
def bar2Read (nv : Nv) (m : Mach) (off : Nat) : Option Nat :=
  (bar2Reg nv m off).map fun r =>
    if m.life.warm || liveFrom off ≤ stagesEnded m.life then r.value
    else if off = 0x50040 then pack [(0, 1, bit m.life.present)]
    else coldValue off

/-! ### BAR0 (Tables 5.2, 17.2 to 17.4) -/

/-- Table 17.4: CMD_HOST_LINK and CMD_HOST_ERR. -/
def hostReg (m : Mach) (off : Nat) : Option Reg :=
  let h := m.host
  if off = 0x100 then
    ro64 [(0, 4, h.speed), (4, 4, h.width), (8, 1, bit h.flit256), (9, 1, bit h.cacheEn), (10, 1, bit h.vfEnable), (16, 8, h.numVfs)]
  else ro64 [(0, 16, h.badMmio), (16, 16, h.readFail), (32, 16, h.flr), (48, 16, h.dropped)]

/-- Tables 5.2, 17.3: the BAR0 register of a function that starts at an offset. -/
def bar0Reg (m : Mach) (c off : Nat) : Option Reg :=
  let f := fnOf m c
  match off with
  | 0x000 => ro32 [(0, 2, stateCode m.life.mode)]
  | 0x008 => rw32 [(0, 1, bit f.cmdEnable), (1, 1, bit f.cmdEnabled), (8, 5, f.statusLog2)]
  | 0x010 => rw64 [(12, 52, f.statusBase)]
  | 0x018 => rw32 []
  | 0x01C => rw32 []
  | 0x020 => ro64 [(0, 32, f.head), (32, 32, f.urgHead)]
  | 0x028 => ro64 [(0, 32, f.nextSeq), (32, 32, f.urgNextSeq)]
  | 0x030 => rw32 [(0, 32, f.statusHead)]
  | 0x038 => ro64 [(0, 32, f.ignoredTotal), (32, 4, f.ignoredLast)]
  | 0x040 => rw32 [(0, 1, bit f.evtEnable), (1, 1, bit f.evtEnabled), (8, 5, f.evtLog2)]
  | 0x048 => rw64 [(12, 52, f.evtBase)]
  | 0x050 => rw32 [(0, 32, f.evtHead)]
  | 0x054 => ro32 [(0, 32, f.evtTail)]
  | 0x058 => ro32 [(0, 32, f.evtLost)]
  | 0x05C => rw32 [(0, 32, f.evtStatus.toNat)]
  | 0x100 => if c = 0 then hostReg m off else none
  | 0x108 => if c = 0 then hostReg m off else none
  | _ => none

/-- R47: a read of TIK_COUNT_LO copies the high half into TIK_COUNT_HI. -/
def readCountLo (nv : Nv) (m : Mach) : Mach :=
  m |> send (.regRead ((bar2Read nv m 0x10).getD 0)) |> modTick (fun t => { t with countHi := t.count / 2 ^ 32 % 2 ^ 32 })

/-- R47: TIK_COUNT_LO_READ. -/
def execTikCountLoRead (s : State) : Host.Outcome State Fault Refusal :=
  onM (fun m => if hostLinkUp m then readCountLo s.nv m else m) s

end Sys2Proof.Machine
end

