-- ==== Sys2Proof/Machine/Writes.lean ====
section
/-! DEFINITION. Writes to the BARs: ring slots, doorbells, the ring registers, the module registers, and the
writes that are refused (R119 to R123, R134, R426, R431, R490 to R494). -/

namespace Sys2Proof.Machine

/-! ### Refusals -/

/-- R426, R434: an access that BAR rules ignore, counted with reason REGISTER. -/
def badAccess (c : Nat) (m : Mach) : Mach :=
  m |> modHost (fun h => { h with badMmio := bump 16 1 h.badMmio }) |> ignoreWrite c .register

/-- R463: the capture entry of a register write. -/
def captureWrite (cls : Nat) (w : RegWrite) : Mach → Mach :=
  captureAt (if cls = 0 then [] else if cls = 4 then [3] else [1]) 0x01 cls w.fn (le 1 w.bar ++ le 3 w.off ++ le 4 w.width ++ le 8 w.value)

/-! ### Ring slots and doorbells (R122, R123) -/

/-- R123: slot `i` of a ring of `n` entries is protected. -/
def guarded (n head tail i : Nat) : Bool := (i + n - head % n) % n < dist tail head

/-- R123, R426: a write to a ring slot. -/
def writeSlot (c off : Nat) (bs : List Byte) (m : Mach) : Mach :=
  let f := fnOf m c
  let i := off % 64
  if bs.length < 4 || 64 < i + bs.length then badAccess c m
  else if off < 0x8000 then
    let a := off - 0x4000
    if guarded 256 f.head f.tail (a / 64) then ignoreWrite c .slotWrite m
    else modFn c (fun f => { f with cmdSlots := memWrite a bs f.cmdSlots }) m
  else
    let a := off - 0x8000
    if guarded 16 f.urgHead f.urgTail (a / 64) then ignoreWrite c .slotWrite m
    else modFn c (fun f => { f with urgSlots := memWrite a bs f.urgSlots }) m

/-- R122: a doorbell write accepted or refused. -/
def ringDoorbell (c : Nat) (urgent : Bool) (t : Nat) (m : Mach) : Mach :=
  let f := fnOf m c
  let n := if urgent then 16 else 256
  let ok := f.cmdEnabled &&
    (if urgent then dist t f.urgHead ≤ n && dist t f.urgTail ≤ n else dist t f.head ≤ n && dist t f.tail ≤ n)
  if ok then modFn c (fun f => if urgent then { f with urgTail := t } else { f with tail := t }) m
  else ignoreWrite c .doorbell m

/-! ### Ring registers (R120, R134) -/

/-- R430: an ENABLE is refused while a request accepted before an FLR is unfinalised. -/
def flrHolds (m : Mach) (c : Nat) : Bool := m.reqs.any fun r => r.ctx == c && r.preFlr

/-- R152: the rings of a context that was not open at the start of the boundary cannot be enabled. -/
def ctxShut (m : Mach) (c : Nat) : Bool := c != 0 && !m.host.openAtStart.contains c

/-- R120: ENABLE of the command rings going to 1. -/
def enableCmd (size : Nat) (f : Fn) : Fn :=
  { f with cmdEnable := true, cmdEnabled := true, statusLog2 := size, head := 0, urgHead := 0, tail := 0, urgTail := 0, nextSeq := 0
           urgNextSeq := 0, statusWritten := 0, statusHead := 0, ignoredTotal := 0, checked := [], urgChecked := [], finals := [] }

/-- R120: ENABLE of the event ring going to 1. -/
def enableEvt (size : Nat) (f : Fn) : Fn :=
  { f with evtEnable := true, evtEnabled := true, evtLog2 := size, evtTail := 0, evtHead := 0, evtLost := 0, lostSince := 0, lostFirstTick := 0 }

/-- R120: CMD_CTRL acted on. -/
def actCmdCtrl (c v : Nat) (m : Mach) : Mach :=
  let f := fnOf m c
  let size := wbits v 8 5
  let on := v.testBit 0
  if size < 9 || 16 < size then ignoreWrite c .range m
  else if on && ctxShut m c then ignoreWrite c .register m
  else if f.cmdEnabled then
    if size ≠ f.statusLog2 then ignoreWrite c .register m
    else if on then m
    else if f.head ≠ f.tail || f.urgHead ≠ f.urgTail || m.reqs.any (·.ctx == c) then ignoreWrite c .register m
    else modFn c (fun f => { f with cmdEnable := false, cmdEnabled := false }) m
  else if on then if flrHolds m c then ignoreWrite c .register m else modFn c (enableCmd size) m
  else modFn c (fun f => { f with statusLog2 := size }) m

/-- R120: EVT_CTRL acted on. -/
def actEvtCtrl (c v : Nat) (m : Mach) : Mach :=
  let f := fnOf m c
  let size := wbits v 8 5
  let on := v.testBit 0
  if size < 7 || 16 < size then ignoreWrite c .range m
  else if on && ctxShut m c then ignoreWrite c .register m
  else if f.evtEnabled then
    if size ≠ f.evtLog2 then ignoreWrite c .register m
    else if on then m else modFn c (fun f => { f with evtEnable := false, evtEnabled := false }) m
  else if on then if flrHolds m c then ignoreWrite c .register m else modFn c (enableEvt size) m
  else modFn c (fun f => { f with evtLog2 := size }) m

/-- R120: CMD_STATUS_BASE or EVT_RING_BASE acted on. -/
def actBase (c v : Nat) (evt : Bool) (m : Mach) : Mach :=
  let f := fnOf m c
  let b := wbits v 12 52
  if (if evt then f.evtEnabled else f.cmdEnabled) then
    if b = (if evt then f.evtBase else f.statusBase) then m else ignoreWrite c .register m
  else modFn c (fun f => if evt then { f with evtBase := b } else { f with statusBase := b }) m

/-- R134: a head write moves neither backward nor beyond what has been written. -/
def headOk (v head written : Nat) : Bool := dist v head ≤ dist written head

/-- R134: CMD_STATUS_HEAD acted on. -/
def actStatusHead (c v : Nat) (m : Mach) : Mach :=
  let f := fnOf m c
  if headOk v f.statusHead f.statusWritten then modFn c (fun f => { f with statusHead := v }) m else ignoreWrite c .pointer m

/-- R134: EVT_HEAD acted on. -/
def actEvtHead (c v : Nat) (m : Mach) : Mach :=
  let f := fnOf m c
  if headOk v f.evtHead f.evtTail then modFn c (fun f => { f with evtHead := v }) m else ignoreWrite c .pointer m

/-! ### Module registers (Table 21.3) -/

/-- A write refused for its range, or applied. -/
def inRange (ok : Bool) (f : Mach → Mach) (m : Mach) : Mach := if ok then f m else ignoreWrite 0 .range m

/-- R32: PERIOD_US, acted on only by the tick root. -/
def actPeriod (v : Nat) (m : Mach) : Mach :=
  let p := wbits v 0 10
  if !(10 ≤ p && p ≤ 1000) then ignoreWrite 0 .range m
  else if !m.tick.root then ignoreWrite 0 .register m
  else modTick (fun t => { t with periodUs := p }) m

/-- R49: GUARD_US. -/
def actGuard (v : Nat) : Mach → Mach :=
  let g := wbits v 0 6
  inRange (1 ≤ g && g ≤ 50) (modTick fun t => { t with guardUs := g })

/-- R26: MODE, only before fabric-ready. -/
def actReach (v : Nat) (m : Mach) : Mach :=
  if m.fab.ready then ignoreWrite 0 .register m else modFab (fun f => { f with mode := v.testBit 0 }) m

/-- R361: FAB_CTRL. -/
def actFabCtrl (v : Nat) : Mach → Mach :=
  let (t, a, r, n) := (wbits v 0 13, wbits v 16 4, wbits v 24 8, wbits v 32 14)
  inRange (50 ≤ t && t ≤ 5000 && 1 ≤ a && a ≤ 15 && 10 ≤ r && r ≤ 255 && 1 ≤ n && n ≤ 10000)
    (modFab fun f => { f with timeoutUs := t, attempts := a, retainMs := r, notReadyMs := n })

/-- R333: LANE_ERR_MAX. -/
def actLaneMax (v : Nat) : Mach → Mach :=
  let x := wbits v 0 16
  inRange (1 ≤ x) fun m => { m with link := { m.link with laneErrMax := x } }

/-- R182: MEM_WATERMARK. -/
def actWatermark (v : Nat) : Mach → Mach :=
  let (a, b, c, d) := (wbits v 0 16, wbits v 16 16, wbits v 32 16, wbits v 48 16)
  inRange (a < b && c < d) (modMem fun x => { x with hbmLow := a, hbmHigh := b, lpLow := c, lpHigh := d })

/-- R212: ECC_SCRUB. -/
def actScrub (v : Nat) : Mach → Mach :=
  let (s, h, l) := (wbits v 0 6, wbits v 8 8, wbits v 16 8)
  inRange (1 ≤ s && s ≤ 60 && 1 ≤ h && h ≤ 168 && 24 ≤ l) (modEcc fun x => { x with sramS := s, hbmH := h, lpH := l })

/-- R411: GATE_TICKS. -/
def actGate (v : Nat) : Mach → Mach :=
  let g := wbits v 0 10
  inRange (g ≤ 1000) (modPwr fun p => { p with gateTicks := g })

/-- R477: CAP_REPLAY_BASE and CAP_REPLAY_OUT, in replay mode only. -/
def actReplayAddr (out : Bool) (v : Nat) (m : Mach) : Mach :=
  let b := wbits v 12 52
  if !m.life.replay then ignoreWrite 0 .register m
  else { m with cap := if out then { m.cap with replayOut := b } else { m.cap with replayBase := b } }

/-! ### A latched write acted on -/

/-- Table 21.3: the writable registers of BAR2 that are acted on at a boundary. -/
def bar2Act (off v : Nat) : Option (Mach → Mach) :=
  match off with
  | 0x00000 => some (actPeriod v) | 0x00020 => some (actGuard v) | 0x30000 => some (actReach v)
  | 0x30008 => some (actFabCtrl v) | 0x40000 => some (actLaneMax v) | 0x50030 => some (actGate v)
  | 0x60050 => some (actWatermark v) | 0x90000 => some (actScrub v) | 0xA0028 => some (actReplayAddr false v)
  | 0xA0030 => some (actReplayAddr true v)
  | _ => none

/-- R120: the ring registers of BAR0 that are acted on at a boundary. -/
def bar0Act (c off v : Nat) : Option (Mach → Mach) :=
  match off with
  | 0x008 => some (actCmdCtrl c v) | 0x010 => some (actBase c v false) | 0x018 => some (ringDoorbell c false v)
  | 0x01C => some (ringDoorbell c true v) | 0x030 => some (actStatusHead c v) | 0x040 => some (actEvtCtrl c v)
  | 0x048 => some (actBase c v true) | 0x050 => some (actEvtHead c v)
  | _ => none

/-- The start of the register that an offset lies in, and the register. -/
def regAt (q : Nat → Option Reg) (off : Nat) : Option (Nat × Reg) :=
  match q off with
  | some r => some (off, r)
  | none => if off % 8 = 4 then (q (off - 4)).bind fun r => if r.width = 64 then some (off - 4, r) else none else none

/-- R494: the whole value after a write to all of a register or to one half, the other half as it stands. -/
def merged (r : Reg) (base : Nat) (w : RegWrite) : Nat :=
  if w.width = 8 || r.width = 32 then w.value
  else if w.off = base then r.value / 2 ^ 32 * 2 ^ 32 + w.value else w.value * 2 ^ 32 + r.value % 2 ^ 32

/-- The register that a write names. -/
def written (nv : Nv) (m : Mach) (w : RegWrite) : Option (Nat × Reg) :=
  regAt (if w.bar = 2 then bar2Reg nv m else bar0Reg m w.fn) w.off

/-- R120, R494: a latched write acted on. -/
def actWrite (w : RegWrite) (nv : Nv) (m : Mach) : Mach :=
  match written nv m w with
  | none => m
  | some (base, r) =>
    let v := merged r base w
    match (if w.bar = 2 then bar2Act base v else bar0Act w.fn base v) with
    | some f => f m
    | none => m

/-- R140: a latched write acted on at its boundary: what it has refused takes its place by the write's arrival. -/
def actLatched (w : RegWrite) (nv : Nv) (m : Mach) : Mach :=
  let n := (fnOf m w.fn).arrivals
  m |> modFn w.fn (fun f => { f with arrivals := w.ord }) |> actWrite w nv |> modFn w.fn (fun f => { f with arrivals := n })

/-- A write joined to those of its function that wait for the boundary. -/
def latchWrite (w : RegWrite) (m : Mach) : Mach :=
  m |> modHost (fun h => { h with writes := h.writes ++ [{ w with ord := (fnOf m w.fn).arrivals }] })
    |> modFn w.fn (fun f => { f with arrivals := f.arrivals + 1 })

/-- R43: the class of a latched write. -/
def writeClass (w : RegWrite) : Nat := if w.bar = 2 && w.off = 0 then 4 else 7

/-! ### A write arriving (R426, R431, R493, R494) -/

/-- R431: a write held while the module is in BOOT, up to 64 for each function. -/
def holdWrite (w : RegWrite) (m : Mach) : Mach :=
  if 64 ≤ m.host.held.countP (·.fn == w.fn) then ignoreWrite w.fn .register m
  else modHost (fun h => { h with held := h.held ++ [w] }) m

/-- R426: the MSI-X table entry written: address, data and mask bit. -/
def writeMsix (c off width v : Nat) (m : Mach) : Mach :=
  let m := if off < 0x1008 then
      modFn c (fun f => { f with msixAddr :=
        if width = 8 then v else if off = 0x1000 then f.msixAddr / 2 ^ 32 * 2 ^ 32 + v else v * 2 ^ 32 + f.msixAddr % 2 ^ 32 }) m
    else if off = 0x1008 then modFn c (fun f => { f with msixData := v % 2 ^ 32 }) m
    else m
  let ctl := if off = 0x100C then some v else if off = 0x1008 && width = 8 then some (v / 2 ^ 32) else none
  match ctl with
  | none => m
  | some v => if v.testBit 0 then modFn c (fun f => { f with msixMasked := true }) m else unmask c m

/-- R11: EVT_STATUS or LOST_SEEN written, acting on receipt. -/
def clearFlags (w : RegWrite) (m : Mach) : Mach :=
  let m := captureWrite 0 w m
  if w.bar = 2 then if w.off = 0x28 && w.value.testBit 4 then modTick (fun t => { t with lostSeen := false }) m else m
  else modFn w.fn (fun f => { f with evtStatus := w1c (BitVec.ofNat 32 w.value) f.evtStatus }) m

/-- R426: an aligned access of 4 bytes, or of 8 to a 64-bit register. -/
def sizeOk (r : Reg) (base : Nat) (w : RegWrite) : Bool :=
  w.off % w.width == 0 && (w.width == 4 || (w.width == 8 && r.width == 64)) && (r.width == 64 || w.off == base)

/-- A BAR write received: a ring slot, the MSI-X table, a doorbell, a W1C flag, or a write latched for the next
boundary; any other is ignored and counted. -/
def receiveWrite (w : RegWrite) (nv : Nv) (m : Mach) : Mach :=
  let c := w.fn
  if !reachable m c || !(w.bar == 0 || w.bar == 2 && c == 0) then m
  else if w.bar = 0 && 0x4000 ≤ w.off && w.off < 0x8400 then
    if 0x8400 < w.off + w.width then badAccess c m else writeSlot c w.off (le w.width w.value) m
  else if w.bar = 0 && 0x1000 ≤ w.off && w.off < 0x1010 then
    if (w.width == 4 || w.width == 8) && w.off % w.width == 0 then writeMsix c w.off w.width w.value m else badAccess c m
  else
    match written nv m w with
    | none => badAccess c m
    | some (base, r) =>
      if !r.writable || !sizeOk r base w then badAccess c m
      else if (w.bar == 0 && base == 0x5C) || (w.bar == 2 && base == 0x28) then clearFlags w m
      else if m.life.mode == .boot then m |> captureWrite (writeClass w) w |> holdWrite w
      else
        let m := captureWrite (writeClass w) w m
        if w.bar == 0 && (base == 0x18 || base == 0x1C) then ringDoorbell c (base == 0x1C) w.value m
        else latchWrite w m

/-- The row of a register: its write is acted on at the boundary last fired, or held in BOOT. -/
def onWrite (w : RegWrite) (s : State) : Host.Outcome State Fault Refusal :=
  onM (fun m =>
    if !reachable m w.fn then m
    else if m.life.mode == .boot then m |> captureWrite (writeClass w) w |> holdWrite w
    else if isUp m then m |> captureWrite (writeClass w) w |> actWrite w s.nv |> endWrites
    else m) s

/-- R120: CMD_RING_ENABLE. -/
def execCmdRingEnable (fn log2 : Nat) (s : State) : Host.Outcome State Fault Refusal :=
  onWrite { fn, bar := 0, off := 0x008, width := 4, value := pack [(0, 1, 1), (8, 5, log2)] } s
/-- R120: CMD_RING_DISABLE, the size left at the value in force. -/
def execCmdRingDisable (fn : Nat) (s : State) : Host.Outcome State Fault Refusal :=
  onWrite { fn, bar := 0, off := 0x008, width := 4, value := pack [(8, 5, (fnOf s.m fn).statusLog2)] } s
/-- R120: EVT_RING_ENABLE. -/
def execEvtRingEnable (fn log2 : Nat) (s : State) : Host.Outcome State Fault Refusal :=
  onWrite { fn, bar := 0, off := 0x040, width := 4, value := pack [(0, 1, 1), (8, 5, log2)] } s
/-- R120: EVT_RING_DISABLE, the size left at the value in force. -/
def execEvtRingDisable (fn : Nat) (s : State) : Host.Outcome State Fault Refusal :=
  onWrite { fn, bar := 0, off := 0x040, width := 4, value := pack [(8, 5, (fnOf s.m fn).evtLog2)] } s
/-- R122: CMD_DOORBELL. -/
def execCmdDoorbell (fn tail : Nat) (s : State) : Host.Outcome State Fault Refusal :=
  onM (receiveWrite { fn, bar := 0, off := 0x018, width := 4, value := tail } s.nv) s
/-- R122: CMD_URG_DOORBELL. -/
def execCmdUrgDoorbell (fn tail : Nat) (s : State) : Host.Outcome State Fault Refusal :=
  onM (receiveWrite { fn, bar := 0, off := 0x01C, width := 4, value := tail } s.nv) s
/-- R134: CMD_STATUS_HEAD_WRITE. -/
def execCmdStatusHeadWrite (fn head : Nat) (s : State) : Host.Outcome State Fault Refusal :=
  onWrite { fn, bar := 0, off := 0x030, width := 4, value := head } s
/-- R134: EVT_HEAD_WRITE. -/
def execEvtHeadWrite (fn head : Nat) (s : State) : Host.Outcome State Fault Refusal :=
  onWrite { fn, bar := 0, off := 0x050, width := 4, value := head } s
/-- R11: EVT_STATUS_CLEAR. -/
def execEvtStatusClear (fn : Nat) (bits : Word32) (s : State) : Host.Outcome State Fault Refusal :=
  onM (receiveWrite { fn, bar := 0, off := 0x05C, width := 4, value := bits.toNat } s.nv) s
/-- R123: RING_SLOT_WRITE, at an offset of BAR0. -/
def execRingSlotWrite (fn off : Nat) (data : List Byte) (s : State) : Host.Outcome State Fault Refusal :=
  onM (fun m =>
    if !reachable m fn then m
    else if 0x4000 ≤ off && off + data.length ≤ 0x8400 then writeSlot fn off data m else badAccess fn m) s
/-- R32: TIK_PERIOD_WRITE. -/
def execTikPeriodWrite (periodUs : Nat) (s : State) : Host.Outcome State Fault Refusal :=
  onWrite { fn := 0, bar := 2, off := 0x00000, width := 4, value := periodUs } s
/-- R49: TIK_GUARD_WRITE. -/
def execTikGuardWrite (guardUs : Nat) (s : State) : Host.Outcome State Fault Refusal :=
  onWrite { fn := 0, bar := 2, off := 0x00020, width := 4, value := guardUs } s
/-- R38: TIK_SYNC_LOST_SEEN_CLEAR. -/
def execTikSyncLostSeenClear (s : State) : Host.Outcome State Fault Refusal :=
  onM (receiveWrite { fn := 0, bar := 2, off := 0x00028, width := 8, value := 16 } s.nv) s
/-- R26: FAB_REACH_WRITE. -/
def execFabReachWrite (mode : Bool) (s : State) : Host.Outcome State Fault Refusal :=
  onWrite { fn := 0, bar := 2, off := 0x30000, width := 4, value := bit mode } s
/-- R361: FAB_CTRL_WRITE. -/
def execFabCtrlWrite (timeoutUs attempts retainMs notReadyMs : Nat) (s : State) : Host.Outcome State Fault Refusal :=
  onWrite { fn := 0, bar := 2, off := 0x30008, width := 8,
            value := pack [(0, 13, timeoutUs), (16, 4, attempts), (24, 8, retainMs), (32, 14, notReadyMs)] } s
/-- R333: LNK_CTRL_WRITE. -/
def execLnkCtrlWrite (laneErrMax : Nat) (s : State) : Host.Outcome State Fault Refusal :=
  onWrite { fn := 0, bar := 2, off := 0x40000, width := 4, value := laneErrMax } s
/-- R182: MEM_WATERMARK_WRITE. -/
def execMemWatermarkWrite (hbmLow hbmHigh lpLow lpHigh : Nat) (s : State) : Host.Outcome State Fault Refusal :=
  onWrite { fn := 0, bar := 2, off := 0x60050, width := 8,
            value := pack [(0, 16, hbmLow), (16, 16, hbmHigh), (32, 16, lpLow), (48, 16, lpHigh)] } s
/-- R212: ECC_SCRUB_WRITE. -/
def execEccScrubWrite (sramS hbmH lpH : Nat) (s : State) : Host.Outcome State Fault Refusal :=
  onWrite { fn := 0, bar := 2, off := 0x90000, width := 8, value := pack [(0, 6, sramS), (8, 8, hbmH), (16, 8, lpH)] } s
/-- R411: PWR_GATE_WRITE. -/
def execPwrGateWrite (gateTicks : Nat) (s : State) : Host.Outcome State Fault Refusal :=
  onWrite { fn := 0, bar := 2, off := 0x50030, width := 8, value := gateTicks } s
/-- R477: CAP_REPLAY_ADDR_WRITE. -/
def execCapReplayAddrWrite (out : Bool) (base : Nat) (s : State) : Host.Outcome State Fault Refusal :=
  onWrite { fn := 0, bar := 2, off := if out then 0xA0030 else 0xA0028, width := 8, value := base * 4096 } s
/-- R493: REGISTER_WRITE. -/
def execRegisterWrite (fn bar off width value : Nat) (s : State) : Host.Outcome State Fault Refusal :=
  onM (receiveWrite { fn, bar, off, width, value } s.nv) s

end Sys2Proof.Machine
end

