-- ==== Sys2Proof/Machine/Packets.lean ====
section
/-! DEFINITION. Command packets in their rings: the meaning of each, the checks of Table 5.10 at the boundary after
the doorbell, and consuming and acting on them (R122 to R132, R139, R140, R157, R174, R265). -/

namespace Sys2Proof.Machine

/-! ### What a packet is -/

/-- Table 5.4: the opcodes. -/
def opcodes : List Nat :=
  [0x00, 0x01, 0x02, 0x03, 0x04, 0x05, 0x06, 0x08, 0x10, 0x11, 0x12, 0x13, 0x14, 0x15, 0x16, 0x20, 0x21, 0x22, 0x23, 0x24, 0x25,
   0x26, 0x30, 0x31, 0x32, 0x33, 0x40, 0x41, 0x42, 0x50, 0x51, 0x52, 0x53, 0x54, 0x55, 0x60, 0x61, 0x70, 0x71, 0x80, 0x81, 0x82,
   0x83, 0x84, 0x90, 0x91, 0x92, 0x93, 0xA0, 0xA1, 0xA2, 0xB0, 0xB1, 0xB2, 0xC0, 0xC1]

/-- Table 5.4: the opcodes that only context 0 may issue. -/
def zeroOps : List Nat :=
  [0x03, 0x04, 0x05, 0x10, 0x11, 0x12, 0x13, 0x14, 0x15, 0x16, 0x80, 0x81, 0x83, 0x84, 0xA0, 0xA1, 0xB0, 0xB1, 0xB2]

/-- Table 5.4: the opcodes of the expert level. -/
def expertOps : List Nat := [0x08, 0x16, 0x26, 0x33, 0x42, 0x52, 0x53, 0x54, 0x55, 0x70, 0x84, 0x93, 0xA1]

/-- Table 5.4: who may send a packet; a RECIPE_SET selects its level in byte 10 (Table 5.11). -/
def packetInfo (op : Nat) (bs : List Byte) : OpInfo :=
  { op, zeroOnly := zeroOps.contains op, expert := expertOps.contains op || (op == 0x60 && flagAt bs 10 0) }

/-- The meaning of each host opcode. -/
def packetOf : Instr → Option Packet
  | .nop h => some (pktNop h)
  | .identify h outPtr => some (pktIdentify h outPtr)
  | .countersRead h set target firstLayer layers outPtr => some (pktCountersRead h set target firstLayer layers outPtr)
  | .planLoad h planPtr planLen => some (pktPlanLoad h planPtr planLen)
  | .planClear h => some (pktPlanClear h)
  | .fwBankBegin h length => some (pktFwBankBegin h length)
  | .fwBankData h len dataPtr offset => some (pktFwBankData h len dataPtr offset)
  | .fwBankAbandon h => some (pktFwBankAbandon h)
  | .fwBankCommit h => some (pktFwBankCommit h)
  | .attest h nonce outPtr => some (pktAttest h nonce outPtr)
  | .setGuard h guardUs => some (pktSetGuard h guardUs)
  | .tenCreate h ten keys ftid => some (pktTenCreate h ten keys ftid)
  | .tenRebind h src dst pods keys slices => some (pktTenRebind h src dst pods keys slices)
  | .tenDestroy h ten => some (pktTenDestroy h ten)
  | .ctxOpen h c ten expert key => some (pktCtxOpen h c ten expert key)
  | .ctxClose h c => some (pktCtxClose h c)
  | .grantSet h g => some (pktGrantSet h g)
  | .ctxSched h c share => some (pktCtxSched h c share)
  | .kvTableAttach h a => some (pktKvTableAttach h a)
  | .kvTableDetach h => some (pktKvTableDetach h)
  | .kvTableStatus h outPtr => some (pktKvTableStatus h outPtr)
  | .kvMapCopy h srcStream srcBlock dstStream dstBlock blocks => some (pktKvMapCopy h srcStream srcBlock dstStream dstBlock blocks)
  | .kvMapMove h srcStream srcBlock dstStream dstBlock blocks => some (pktKvMapMove h srcStream srcBlock dstStream dstBlock blocks)
  | .kvUnmap h stream length => some (pktKvUnmap h stream length)
  | .prefixInsert h b => some (pktPrefixInsert h b)
  | .prefixLookup h b => some (pktPrefixLookup h b)
  | .prefixDrop h all hash => some (pktPrefixDrop h all hash)
  | .kvPin h stream firstBlock blocks pin => some (pktKvPin h stream firstBlock blocks pin)
  | .stepSubmit h b => some (pktStepSubmit h b)
  | .slotAlloc h slot stream => some (pktSlotAlloc h slot stream)
  | .slotRelease h slot gen keep => some (pktSlotRelease h slot gen keep)
  | .prefillRatio h chunk ratio floor basic => some (pktPrefillRatio h chunk ratio floor basic)
  | .expLayoutInstall h b => some (pktExpLayoutInstall h b)
  | .expLayoutRemove h layer => some (pktExpLayoutRemove h layer)
  | .expQueuePost h b => some (pktExpQueuePost h b)
  | .expQueueUnpost h queue => some (pktExpQueueUnpost h queue)
  | .expShared h layer order basic podMask => some (pktExpShared h layer order basic podMask)
  | .memAlloc h base pages key => some (pktMemAlloc h base pages key)
  | .memFree h base pages => some (pktMemFree h base pages)
  | .memPin h base pages tier => some (pktMemPin h base pages tier)
  | .memDemote h base pages tier => some (pktMemDemote h base pages tier)
  | .memPrefetch h base pages => some (pktMemPrefetch h base pages)
  | .migratePolicy h ahead touch stallLimitMs basic => some (pktMigratePolicy h ahead touch stallLimitMs basic)
  | .recipeSet h layer expert r => some (pktRecipeSet h layer expert r)
  | .recipeGet h layer outPtr => some (pktRecipeGet h layer outPtr)
  | .cmpTableLoad h gen tablePtr => some (pktCmpTableLoad h gen tablePtr)
  | .cmpTableStandard h => some (pktCmpTableStandard h)
  | .cmpTableHold h gen => some (pktCmpTableHold h gen)
  | .cmpTableUnhold h gen => some (pktCmpTableUnhold h gen)
  | .cmpTableStatus h outPtr => some (pktCmpTableStatus h outPtr)
  | .groupJoin h group rootNode planId members => some (pktGroupJoin h group rootNode planId members)
  | .groupLeave h => some (pktGroupLeave h)
  | .collSetup h b => some (pktCollSetup h b)
  | .collRemove h collId => some (pktCollRemove h collId)
  | .portReset h ports => some (pktPortReset h ports)
  | .remapAccept h port node peerPort serial => some (pktRemapAccept h port node peerPort serial)
  | .manifestLoad h slot manPtr manLen keyDigest => some (pktManifestLoad h slot manPtr manLen keyDigest)
  | .manifestUnload h slot => some (pktManifestUnload h slot)
  | .shardInstall h b => some (pktShardInstall h b)
  | .shardRemove h slot shard => some (pktShardRemove h slot shard)
  | .shardVerify h slot shard => some (pktShardVerify h slot shard)
  | .verifyInterval h hours => some (pktVerifyInterval h hours)
  | .capSet h capW => some (pktCapSet h capW)
  | .stepLimit h step => some (pktStepLimit h step)
  | .energyRead h scope target outPtr => some (pktEnergyRead h scope target outPtr)
  | .captureStart h fill boot linkGb triggers postTicks => some (pktCaptureStart h fill boot linkGb triggers postTicks)
  | .captureStop h disarm atFlag atTick => some (pktCaptureStop h disarm atFlag atTick)
  | .captureExport h outPtr offset length => some (pktCaptureExport h outPtr offset length)
  | .abort h target => some (pktAbort h target)
  | .cancel h slot gen keep => some (pktCancel h slot gen keep)
  | _ => none

/-- The command and the meaning that the 64 bytes of a packet without PTR spell. -/
def spelt (c : Nat) (bs : List Byte) : Option (Instr × Packet) :=
  (packetOperands (hdrOf c bs) bs).bind fun i => (packetOf i).map fun p => (i, p)

/-! ### Checking (R139) -/

/-- Table 5.10 RANGE: the flags, and the parameters or the pointer to them. -/
def paramsOk (nv : Nv) (m : Mach) (c : Nat) (bs : List Byte) : Bool :=
  let op := field bs 0 1
  let ptr := flagAt bs 3 0
  field bs 3 1 < 8 && ptr == ptrOp op && (if ptr then ptrOk op bs else (spelt c bs).any fun x => x.2.ok nv m)

/-- R139: the first check of Table 5.10 that a packet of a ring fails, where `next` is the number expected. -/
def packetFail (nv : Nv) (m : Mach) (c : Nat) (urgent : Bool) (next : Nat) (bs : List Byte) : Option Reason :=
  let op := field bs 0 1
  if urgent != (op == 0xC0 || op == 0xC1) then some .ring
  else if !opcodes.contains op then some .opcode
  else if field bs 1 1 != op / 16 then some .cls
  else if field bs 2 1 != c then some .context
  else if field bs 4 4 != next then some .sequence
  else if !permitted m (packetInfo op bs) c then some .permission
  else if !paramsOk nv m c bs then some .range
  else none

/-- R157, R174, R265: the opcodes whose effects later packets of their ring are checked against. -/
def carriesOver (op : Nat) : Bool := (0x10 ≤ op && op ≤ 0x16) || (0x50 ≤ op && op ≤ 0x54) || (0x31 ≤ op && op ≤ 0x33) || op == 0xC1

/-- R139: what an earlier packet is taken to bring into being. -/
def takenAs : Instr → Mach → Mach
  | .tenCreate _ t keys ftid => fun m =>
    if (tenOf m t).live then m else modTen t (fun _ => { live := true, ftid, keys := List.replicate keys { slot := 0 } }) m
  | .ctxOpen _ c t expert key => fun m =>
    if (ctxOf m c).isOpen then m else modCtx c (fun x => { x with isOpen := true, ten := t, expert, key }) m
  | .memAlloc h base n key => fun m =>
    if h.ctx = 0 || allExist m (hTen m h) base n then m
    else modMem (fun x => { x with pages := x.pages ++ (List.range n).map fun i =>
      ({ ten := hTen m h, num := base + i, key, ctx := h.ctx } : Page) }) m
  | _ => id

/-- The machine that later packets of a ring are checked against, after a packet that passed. -/
def checkedAs (c : Nat) (bs : List Byte) (x : Nv × Mach) : Nv × Mach :=
  match spelt c bs with
  | none => x
  | some (i, p) =>
    if carriesOver p.info.op then
      let r := actOn p x.1 (accept p x.2)
      (r.1, takenAs i r.2)
    else x

/-- The verdict on a packet joined to its ring's. -/
def addVerdict (c : Nat) (urgent : Bool) (v : Verdict) : Mach → Mach :=
  modFn c fun f => if urgent then { f with urgChecked := f.urgChecked ++ [v] } else { f with checked := f.checked ++ [v] }

/-- R139: a packet that passed advances its ring's expected number. -/
def advanceSeq (c : Nat) (urgent : Bool) : Mach → Mach :=
  modFn c fun f => if urgent then { f with urgNextSeq := wrap 32 (f.urgNextSeq + 1) } else { f with nextSeq := wrap 32 (f.nextSeq + 1) }

/-- R119: packet `i` of a ring, counted from its head. -/
def ringBytes (f : Fn) (urgent : Bool) (i : Nat) : List Byte :=
  if urgent then memRead f.urgSlots (64 * ((f.urgHead + i) % 16)) 64 else queuedBytes f i

/-- One packet checked: the machine, and what later packets are checked against. -/
def scanPacket (c : Nat) (urgent : Bool) (i : Nat) (x : Mach × Nv × Mach) : Mach × Nv × Mach :=
  let f := fnOf x.1 c
  let bs := ringBytes f urgent i
  let m := captureAt (if urgent then [c] else [2, (c + 255 - x.1.host.lastServed) % 256]) 0x02 (if urgent then 6 else 7) c (le 1 (bit urgent) ++ bs) x.1
  match packetFail x.2.1 x.2.2 c urgent (if urgent then f.urgNextSeq else f.nextSeq) bs with
  | some r => (m |> addVerdict c urgent .ignored |> ignoreItem c r (field bs 4 4) (field bs 0 1) true, x.2)
  | none => (m |> addVerdict c urgent .passed |> advanceSeq c urgent, checkedAs c bs x.2)

/-- R139: the packets of a ring that its doorbell notified since the last boundary, checked in queue order.  An opcode
that the module's mode turns away is taken as having its effect. -/
def scanRing (c : Nat) (urgent : Bool) (nv : Nv) (m : Mach) : Mach :=
  let f := fnOf m c
  let done := if urgent then f.urgChecked.length else f.checked.length
  let n := if urgent then dist f.urgTail f.urgHead else dist f.tail f.head
  let m := if done = 0 && !urgent then modFn c (fun f => { f with finals := f.finals.map fun x => { x with unmade := .nothing } }) m else m
  ((List.range' done (n - done)).foldl (fun x i => scanPacket c urgent i x) (m, nv, modLife (fun l => { l with mode := .ready }) m)).1

/-- R139: every ring in service checked; none while no core runs (R129). -/
def scanRings (nv : Nv) (m : Mach) : Mach :=
  if m.life.mode == .boot || !turnipRuns m then m
  else
    forEach (List.range 256) (fun c m =>
      if served m c then m |> scanRing c true nv |> scanRing c false nv else m) m

/-! ### Acting (R139, R140) -/

/-- What a packet was to bring into being. -/
def madeBy : Instr → Made
  | .tenCreate _ t _ _ => .tenancy t
  | .tenDestroy _ t => .tenancy t
  | .tenRebind _ src dst pods _ slices => .parts src dst pods slices
  | .ctxOpen _ c _ _ _ => .context c
  | .ctxClose _ c => .context c
  | .memAlloc _ base n _ => .pages base n
  | .memFree _ base n => .pages base n
  | .slotAlloc _ slot stream => .slot slot stream
  | .slotRelease _ slot _ _ => .slot slot 0x10000
  | .kvTableAttach .. => .table
  | .kvTableDetach .. => .table
  | _ => .nothing

/-- A packet names something that an earlier one was to bring into being. -/
def names (i : Instr) : Made → Bool
  | .nothing => false
  | .tenancy t =>
    match i with
    | .tenCreate _ x _ _ => x == t
    | .tenRebind _ src dst _ _ _ => src == t || dst == t
    | .tenDestroy _ x => x == t
    | .ctxOpen _ _ x _ _ => x == t
    | .grantSet _ g => g.localTen == t
    | _ => false
  | .parts s d p k =>
    match i with
    | .tenRebind _ src dst pods _ slices => src == s || dst == d || pods &&& p != 0 || slices &&& k != 0
    | .tenDestroy _ x => x == s || x == d
    | _ => false
  | .slot s t =>
    match i with
    | .slotAlloc _ slot stream => slot == s || stream == t || s == 0xFFFF
    | .slotRelease _ slot _ _ => slot == s || s == 0xFFFF
    | .cancel _ slot _ _ => slot == s || s == 0xFFFF
    | _ => false
  | .table =>
    match i with
    | .slotAlloc .. => true
    | .kvTableAttach .. => true
    | .kvTableDetach .. => true
    | _ => false
  | .context c =>
    match i with
    | .ctxOpen _ x _ _ _ => x == c
    | .ctxClose _ x => x == c
    | .ctxSched _ x _ => x == c
    | _ => false
  | .pages b n =>
    let meets (base k : Nat) : Bool := base < b + n && b < base + k
    match i with
    | .memAlloc _ base k _ => meets base k
    | .memFree _ base k => meets base k
    | .memPin _ base k _ => meets base k
    | .memDemote _ base k _ => meets base k
    | .memPrefetch _ base k => meets base k
    | _ => false

/-- R139: a packet finalised other than OK did not bring into being what it was to. -/
def noteUnmade (c q : Nat) (i : Instr) : Mach → Mach :=
  modFn c fun f => { f with finals := f.finals.map fun x => if x.seq == q && x.st != .ok then { x with unmade := madeBy i } else x }

/-- R140: an accepted packet whose parameters prove out of range frees its credit without a reply. -/
def dropPacket (c q op : Nat) (urgent : Bool) (m : Mach) : Mach :=
  ignoreItem c .range q op true { m with reqs := m.reqs.filter fun r => !isReq c urgent q r }

/-- A packet acted on, its request owed.  One that no longer passes its range check carries the code of the earlier
packet it rested on (R139); without one, fetched parameters are ignored (R140), and a packet that was checked before it was
accepted changes nothing and replies INVALID, DETAIL 0 (DESIGN CHOICE, log 25). -/
def actPacket (i : Instr) (p : Packet) (fetched : Bool) (x : Nv × Mach) : Nv × Mach :=
  let c := p.hdr.ctx
  let q := p.hdr.seq
  let m := x.2
  if (turnedAway m p).isSome || p.ok x.1 m then
    let r := actOn p x.1 m
    (r.1, if p.info.urgent then r.2 else noteUnmade c q i r.2)
  else
    match (fnOf m c).finals.find? fun f => names i f.unmade with
    | some f => (x.1, m |> finaliseReq c p.info.urgent q f.st f.detail |> noteUnmade c q i)
    | none => (x.1, if fetched then dropPacket c q p.info.op p.info.urgent m else finaliseReq c p.info.urgent q .invalid 0 m)

/-! ### Serving the rings (R44, R45, R124, R125, R132) -/

/-- A packet consumed: its ring's head passes it. -/
def consume (c : Nat) (urgent : Bool) : Mach → Mach :=
  modFn c fun f =>
    if urgent then { f with urgHead := wrap 32 (f.urgHead + 1), urgChecked := f.urgChecked.tail }
    else { f with head := wrap 32 (f.head + 1), checked := f.checked.tail }


/-- R124, R429: the parameters of a packet with PTR asked for; in MGMT and FAULT it is finalised at once (R129). -/
def startFetch (c : Nat) (bs : List Byte) (m : Mach) : Mach :=
  let q := field bs 4 4
  match m.life.mode with
  | .mgmt => finalise c q .notReady (readyHint m) m
  | .fault => finalise c q .moduleFault (m.life.halted.headD 0) m
  | _ =>
    m |> modReq c false q (fun r => { r with st := .fetching m.host.nextRead (field bs 16 2) })
      |> askHost (.params c q) (field bs 8 8) (field bs 16 2)

/-- A checked packet consumed and acted on. -/
def takeChecked (c : Nat) (urgent : Bool) (bs : List Byte) (x : Nv × Mach) : Nv × Mach :=
  let m := x.2 |> consume c urgent
    |> addReq { ctx := c, seq := field bs 4 4, op := field bs 0 1, urgent, irq := flagAt bs 3 2 }
  if flagAt bs 3 0 then (x.1, startFetch c bs m)
  else
    match spelt c bs with
    | none => (x.1, m)
    | some (i, p) => actPacket i p false (x.1, m)

/-- Packets of a ring served in queue order, at most `k` of them acted on. -/
def serveRing (c : Nat) (urgent : Bool) : Nat → Nat → Nv × Mach → Nv × Mach
  | 0, _, x => x
  | fuel + 1, k, x =>
    let m := x.2
    let f := fnOf m c
    match (if urgent then f.urgChecked else f.checked) with
    | [] => x
    | v :: _ =>
      let bs := ringBytes f urgent 0
      if !served m c then x
      else if !hasRoom m c urgent (((spelt c bs).map fun y => y.2.extra m).getD 0) then (x.1, holdRing c m)
      else if v != .passed then serveRing c urgent fuel k (x.1, consume c urgent m)
      else if k = 0 || fenceHolds m (hdrOf c bs) urgent then x
      else
        let y := takeChecked c urgent bs x
        if flagAt bs 3 0 then y else serveRing c urgent fuel (k - 1) y

/-- R124: a packet whose parameters have been fetched, acted on ahead of its ring. -/
def serveFetched (c : Nat) (x : Nv × Mach) : Nv × Mach :=
  match x.2.reqs.find? (fun r => r.ctx == c && !r.urgent && !r.preFlr && match r.st with | .fetched _ => true | _ => false) with
  | none => x
  | some r =>
    let m := modReq c false r.seq (fun r => { r with st := .running }) x.2
    match r.st with
    | .fetched none => (x.1, finalise c r.seq .poisoned 5 m)
    | .fetched (some b) =>
      match (blockOperands { ctx := c, seq := r.seq, irq := r.irq } r.op b).bind fun i => (packetOf i).map fun p => (i, p) with
      | some (i, p) => actPacket i p true (x.1, m)
      | none => (x.1, dropPacket c r.seq r.op false m)
    | _ => x

/-- R124: a ring waits for the parameters of its packet. -/
def ringWaits (m : Mach) (c : Nat) : Bool :=
  m.reqs.any fun r => r.ctx == c && !r.urgent && !r.preFlr && notActed r

/-- Class 7 of a context: what resolves at its start (R229, R381), then its ring. -/
def serveCtx (c : Nat) (x : Nv × Mach) : Nv × Mach :=
  let m := x.2 |> resolveLoad c |> resolveManifests c
  if !served m c then (x.1, m)
  else
    let x := serveFetched c (x.1, m)
    if ringWaits x.2 c || (fnOf x.2 c).checked.isEmpty then x
    else
      let n := Config.packetsPerRing x.2.stp.choices
      serveRing c false 257 (n + 1) (x.1, modStp (fun y => { y with choices := y.choices + 1 }) x.2)

/-- R45: the order of the rings at a boundary. -/
def ringOrder (m : Mach) : List Nat := (List.range 256).map fun i => (m.host.lastServed + 1 + i) % 256

/-- R45: every ring served, and the one served first noted. -/
def serveRings (x : Nv × Mach) : Nv × Mach :=
  let cs := ringOrder x.2
  let y := cs.foldl (fun x c => serveCtx c x) x
  let moved (c : Nat) : Bool := (fnOf x.2 c).head != (fnOf y.2 c).head
  (y.1, modHost (fun h => { h with lastServed := (cs.find? moved).getD h.lastServed }) y.2)

end Sys2Proof.Machine
end

