-- ==== Sys2Proof/Machine/Boundary.lean ====
section
/-! DEFINITION. The tick boundary: the inputs latched in the tick that ends, acted on class by class, and what the
module does at every boundary (R42 to R56, Tables 2.5 and 2.8), and the replayed boundary (R472 to R474). -/

namespace Sys2Proof.Machine

/-! ### Finalising a request that failed (R44, R377, R501) -/

/-- Table 2.8, R501: a request finalised other than OK.  A step first sees to the expert rounds it leaves behind (R309);
one with a collective round open waits for it (R377).  R133 ranks the code with what its expert rounds came to. -/
def failReq (fs : FlashState) (c q : Nat) (st : Status) (d : Nat) (m : Mach) : Mach :=
  match findStep m c q with
  | none => finalise c q st d m
  | some s =>
    if collOpen m c q then
      modStep c q (fun s => { s with cutDone := true
                                     fail := some (match s.fail with | none => (st, d) | some x => worse x (st, d)) }) m
    else
      let x := stepCode s st d
      m |> forEach (expertsLeft m (catchUp m s).2).dedup (abandonRound fs c q) |> failStep s x.1 x.2

/-! ### Firing (R37, R48, R53, R464) -/

/-- R391: the values of the boundary recorded (log 27). -/
def captureSample (m : Mach) : Mach :=
  let p := m.pwr
  capture 0x05 5 0 (le 2 p.voltMv ++ le 2 p.current ++ le 1 p.tj ++ le 1 p.tjSite ++ le 1 p.th ++ le 1 p.thStack ++
    le 2 (p.coolantTenths % 65536).toNat ++ le 2 p.flow) m

/-- R440, R431: at the first boundary Turnip takes up its work, beginning with the writes held in BOOT. -/
def startService (nv : Nv) (m : Mach) : Mach :=
  if m.life.mode == .boot && 4 ≤ m.life.stage && m.life.stage ≤ 7 then
    m |> modLife (fun l => { l with mode := .mgmt }) |> forEach m.host.held (fun w => actLatched w nv)
      |> modHost (fun h => { h with held := [] })
  else m

/-- R152: the contexts that are open, and not closing, as a boundary begins. -/
def openNow (m : Mach) : List Nat := (List.range' 1 255).filter fun c => (ctxOf m c).isOpen && (ctxOf m c).closing.isNone

/-- R153: the tick that ends found no pod to assign to a context of a tenancy without demand. -/
def restPods (t : Nat) (m : Mach) : Mach :=
  if (tenOf m t).podTick == some m.tick.count then m
  else
    let cs := (List.range 256).filter fun c => (ctxOf m c).isOpen && (ctxOf m c).ten == t && (ctxOf m c).cur != 0 && demand m c == 0
    forEach cs (fun c => modCtx c fun x => { x with cur := 0 }) m

/-- R48 step 1, with what is settled of the tick that ends: the packets notified in it are checked, its record is closed. -/
def fireBoundary (nv : Nv) (m : Mach) : Mach :=
  let old := m.tick.count
  let m := m |> forEach (List.range 48) restPods |> modHost (fun h => { h with openAtStart := openNow m }) |> startService nv |> scanRings nv |> captureSample |> markSlow |> modPwr (fun p => { p with samples := 0 })
  { m with fns := m.fns.map fun f => { f with eccWritten := 0, arrivals := 0 } } |> fireTick |> closeRecord old

/-! ### Classes 1 and 2 -/

/-- Tray messages of a class: those of class 7 as they came (R45), those of others by their numbers. -/
def trayMsgs (m : Mach) (k : Nat) : List TrayMsg :=
  let l := m.i3c.queue.filter fun t => trayClass t == k
  if k = 7 then l else traySorted l

/-- R437, R457, R459: the reset requests; true once one is acted on. -/
def actResets (m : Mach) : Mach × Bool :=
  (trayMsgs m 1).foldl (fun x t =>
    match x.2, t with
    | false, .reset q k r =>
      if !trayOk x.1 t then (setResult q .invalid x.1, false)
      else if x.1.life.removal && !x.1.life.presenceLatched then (x.1 |> countRefused |> setResult q .invalid, false)
      else actReset q (k == 0) r x.1
    | _, _ => x) (m, false)

/-- Class 1; true where every lower input is discarded. -/
def classOne (m : Mach) : Mach × Bool :=
  let x := actResets m
  if x.2 then x
  else if x.1.pwr.shutLatched then (actShutdown x.1, true)
  else (actClamps (· == .supply) x.1, false)

/-- Table 18.12: a context's packets accepted and not finalised: those owed, and those in its rings that passed their
checks. -/
def accepted (m : Mach) (c : Nat) : Nat :=
  let f := fnOf m c
  m.reqs.countP (·.ctx == c) + (f.checked ++ f.urgChecked).countP (· == .passed)

/-- Class 2, R457: units cut for the boundary are withdrawn and REMOVAL is written. -/
def classTwo (m : Mach) : Mach :=
  if !m.life.presenceLatched then m
  else
    m |> modLife (fun l => { l with presenceLatched := false }) |> withdrawUnits (fun _ _ => true)
      |> forEach (evtRings m) (fun c m => emit c 0x69 0 (le 1 0 ++ le 2 (node16 m) ++ le 4 (accepted m c)) m)

/-! ### Class 3 -/

/-- R21, R129: halts acted on, in the order of the cores; units cut and not started do not start. -/
def actHalts (m : Mach) : Mach :=
  if m.life.haltLatched.isEmpty then m
  else
    m |> withdrawUnits (fun _ _ => true)
      |> forEach (sortBy (fun a b => a.1 ≤ b.1) m.life.haltLatched) (fun h => emitAll 0x02 0 (le 1 h.1 ++ le 1 h.2))
      |> forEach (List.range 256) (fun c => setEvt c 6)
      |> modLife (fun l => { l with mode := .fault, haltLatched := [] })

/-- R359: the NODE_LOST event of a context with requests outstanding to the node. -/
def nodeLostEvent (node cause : Nat) (outs : List Outreq) (c : Nat) (m : Mach) : Mach :=
  match (outs.filter fun o => o.req.ctx == c).map (·.req.seq) with
  | [] => m
  | q :: r => emit c 0x48 c (le 2 node ++ le 1 cause ++ le 4 (r.length + 1) ++ le 4 (r.foldl min q)) m

/-- R359, R368: a lost node. -/
def actNodeLoss (fs : FlashState) (x : Nat × Nat) (m : Mach) : Mach :=
  let node := x.1
  let outs := m.fab.out.filter fun o => o.req.node == node
  m |> modFab (fun f => { f with lostNodes := insRising node f.lostNodes, lastNode := node, nodesLost := bump 16 1 f.nodesLost })
    |> forEach outs (fun o => completeOut o .targetLost node []) |> settleAll fs
    |> expertNodeLost node |> faultColls fs (fun k => k.blk.nodes.contains node) .targetLost node |> shardNodeLost fs node
    |> forEach (List.range 256) (nodeLostEvent node x.2 outs)
    |> memberLost node

/-- R44, R211: a latched error hits the request for which its data was read. -/
def errHits (m : Mach) (e : ErrIn) : Bool := e.foundBy != 1 && e.seq.any fun q => (findReq m e.ctx false q).isSome

/-- R45: errors by context, then sequence number; of one request, by store and location (log 108). -/
def errLe (a b : ErrIn) : Bool :=
  let k (e : ErrIn) : List Nat := [e.ctx, e.seq.getD 0, storeNo e.store, e.loc]
  decide (k a ≤ k b)

/-- R44: the uncorrectable errors, by context and sequence number. -/
def actErrs (fs : FlashState) (m : Mach) : Mach :=
  let es := (sortBy errLe m.lat.errs).map
    fun e => (e, errHits m e)
  m |> modLat (fun l => { l with errs := [] })
    |> forEach es (fun x m =>
        m |> onlyIf x.2 (failReq fs x.1.ctx (x.1.seq.getD 0) .poisoned x.1.source) |> reportErr x.2 x.1)

/-- R297, R309: a failed exchange is kept for its step's usual boundary.  A header withheld behind a failed message of its
class (R344) adds nothing to what that failure brings. -/
def actExchFaults (m : Mach) : Mach :=
  let code (st : Status) (d : Nat) : Status × Nat := match st with
    | .denied | .outOfReach | .targetLost => (st, d)
    | _ => (.poisoned, 4)
  let xs := m.lat.exchFaults
  m |> modLat (fun l => { l with exchFaults := [] })
    |> forEach (xs.filter (·.2.2.1 != .flagWithheld)) (fun x => let y := code x.2.2.1 x.2.2.2; keepLate x.1 x.2.1 y.1 y.2)
    |> forEach (xs.filter (·.2.2.1 == .flagWithheld)) (fun x m =>
        if (findStep m x.1 x.2.1).any (·.late.isSome) then m else keepLate x.1 x.2.1 .poisoned 4 m)

/-- Class 3. -/
def classThree (fs : FlashState) (m : Mach) : Mach :=
  let m := m |> settleAll fs |> actHalts
  let m := m |> modLat (fun l => { l with portDown := [] }) |> forEach (sortBy (· ≤ ·) m.lat.portDown) actPortDown |> actSyncLoss
  let m := m |> modFab (fun f => { f with lossLatched := [] }) |> forEach (sortBy (fun a b => a.1 ≤ b.1) m.fab.lossLatched) (actNodeLoss fs)
  m |> actErrs fs |> collDeadlines fs |> actExchFaults |> expertDeadlines

/-! ### Class 4 -/

/-- R392: the leases of the tick: message number, ceiling and LEASE_SEQ. -/
def leaseMsgs (m : Mach) : List (Nat × Nat × Nat) :=
  (trayMsgs m 4).filterMap fun t => match t with
    | .lease q w l => some (q, w, l)
    | _ => none

/-- R409: an alarm message. -/
def actAlarmOf (t : TrayMsg) (m : Mach) : Mach :=
  match t with
  | .alarm q s => if trayOk m t then actAlarmMsg q s m else setResult q .invalid m
  | _ => m

/-- The register writes of a class acted on, in order. -/
def actWrites (nv : Nv) (k : Nat) (m : Mach) : Mach :=
  m |> modHost (fun h => { h with writes := h.writes.filter fun w => writeClass w != k })
    |> forEach (m.host.writes.filter fun w => writeClass w == k) (fun w => actLatched w nv)

/-- Class 4. -/
def classFour (nv : Nv) (m : Mach) : Mach :=
  m |> actLeases (leaseMsgs m) |> leaseExpires |> forEach (trayMsgs m 4) actAlarmOf |> actWrites nv 4
    |> actClamps (· != .supply) |> actClampEnds |> actThermal

/-! ### Class 5 -/

/-- R409: a coolant reading. -/
def actCoolantOf (t : TrayMsg) (m : Mach) : Mach :=
  match t with
  | .coolant q c f => if trayOk m t then actCoolant q c f m else setResult q .invalid m
  | _ => m

/-- The inputs of class 5 that belong to no context: links, tray and fabric. -/
def actLinks (m : Mach) : Mach :=
  let l := m.lat
  m |> modLat (fun l => { l with portLanes := [], portCheck := [], portNotice := [] })
    |> forEach (sortBy (fun a b => a.1 ≤ b.1) l.portLanes) actPortLanes
    |> forEach (sortBy (· ≤ ·) l.portCheck) checkPort
    |> forEach (sortBy (fun a b => a.1 ≤ b.1) l.portNotice) (fun x => actNotice x.1 x.2)
    |> modFab (fun f => { f with lostNodes := f.lostNodes.filter (!f.readyLatched.contains ·), readyLatched := [] })
    |> forEach (trayMsgs m 5) actCoolantOf

/-- R133: the code that a request's failed completions of one tick come to, where any failed. -/
def failedDone (ds : List DoneIn) (k : Nat × Nat) : Option (Status × Nat) :=
  match (ds.filter fun d => d.ctx == k.1 && d.seq == k.2 && d.status != .ok).map fun d => (d.status, d.detail) with
  | [] => none
  | x :: r => some (r.foldl worse x)

/-- R273, R286, R287, R309: a step whose work has come as far as the boundary finds it. -/
def settleStep (fs : FlashState) (c q : Nat) (m : Mach) : Mach :=
  match findStep m c q with
  | none => m
  | some s =>
    match s.fail with
    | some x => failReq fs c q x.1 x.2 m
    | none =>
      if s.cutDone then
        let m := settleLeft fs s m
        match findStep m c q with
        | some s => endStopped s m
        | none => m
      else
        let x := catchUp m s
        let m := modStep c q (fun _ => x.2) x.1
        if x.2.areaDone && x.2.blk.phases ≤ x.2.main.phase && !collOpen m c q then
          match x.2.late with
          | some y => failStep x.2 y.1 y.2 m
          | none => finishStep x.2 m
        else m

/-- R44 class 5: the ends of the commands of context 0 that take more than one boundary. -/
def endZero (q : Nat) (m : Mach) : Mach :=
  m |> failFwData q |> finishExport q |> finishJoin q |> onlyIf (m.tick.join.any (·.seq == q)) joinTimeout |> finishPortReset q |> assignDue q

/-- R44 class 5, R67: what the tick's completions come to for one context and sequence number. -/
def actDone (fs : FlashState) (ds : List DoneIn) (k : Nat × Nat) (m : Mach) : Mach :=
  let m := match failedDone ds k with
    | some x => failReq fs k.1 k.2 x.1 x.2 m
    | none => settleStep fs k.1 k.2 m
  m |> finishMove k.1 k.2 |> finishStopped fs k.1 k.2 |> settleInstalls fs k.1 k.2 |> onlyIf (k.1 == 0) (endZero k.2)

/-- R45: the contexts and sequence numbers that class 5 may end something of, in order. -/
def doneKeys (m : Mach) : List (Nat × Nat) :=
  (sortBy keyLe (m.lat.dones.map (fun d => (d.ctx, d.seq)) ++ m.stp.steps.map (fun s => (s.ctx, s.seq)) ++
    m.reqs.map (fun r => (r.ctx, r.seq)) ++ m.ten.rebinds.map fun r => (0, r.seq))).dedup

/-- R45, R301: the queues whose rounds completed, or that have units left to cut, by context and queue number. -/
def roundOrder (m : Mach) : List (Nat × Nat) :=
  let key (x : Nat × Nat) : Nat × Nat := (((findQueue m x.1 x.2).map (·.ctx)).getD 256, x.2)
  let left := (List.range 48).flatMap fun t => ((tenOf m t).queues.filter fun k => !(bufOf k (k.expected % 2)).todo.isEmpty).map
    fun k => (t, k.num)
  sortBy (fun a b => keyLe (key a) (key b)) (m.lat.roundsDone ++ left).dedup

/-- R44 class 5, R45, R130: the completions of the tick and the replies that they bring, by context and sequence number. -/
def actDones (fs : FlashState) (m : Mach) : Mach :=
  let ds := m.lat.dones
  m |> modLat (fun l => { l with dones := [], roundsDone := [], gathersDone := [] })
    |> forEach (roundOrder m) (fun x => followOn fs x.1 x.2)
    |> forEach m.lat.gathersDone actGather |> joinDue
    |> forEach (doneKeys m) (actDone fs ds) |> settleAborts

/-- R311: the expert rounds left open by a step that is gone close once they are served. -/
def closeLeft (m : Mach) : Mach :=
  forEach (List.range 256) (fun c m =>
    forEach ((ctxOf m c).layouts.filter fun l => l.isOpen && (findStep m c l.openSeq).isNone && expertDone m c l.blk.layer)
      (fun l => closeRound c l.blk.layer) m) m

/-! ### Overruns (R51 to R54) -/

/-- R53: the cause of an overrun. -/
def overrunCause (a : Pea) : Nat := if a.hadClock then 1 else if a.hadStall then 2 else if a.hadFabric then 3 else 4

/-- R51: the overruns of the boundary: context, cause and start tick. -/
def overruns (m : Mach) : List (Nat × Nat × Nat) :=
  m.peas.filterMap fun a => a.active.bind fun u => if overran m a then some (u.ctx, overrunCause a, a.startTick) else none

/-- R54: the cause with the most overruns, the first of equals. -/
def mainCause (n : Nat → Nat) : Nat := [2, 3, 4].foldl (fun b k => if n b < n k then k else b) 1

/-- R53, R54: the overruns of a context counted and reported. -/
def countOverruns (os : List (Nat × Nat × Nat)) (c : Nat) (m : Mach) : Mach :=
  match os.filter (·.1 == c) with
  | [] => m
  | o :: r =>
    let n (k : Nat) : Nat := (o :: r).countP (·.2.1 == k)
    m |> modCtx c (fun x =>
          { x with ovrClock := bump 32 (n 1) x.ovrClock, ovrStall := bump 32 (n 2) x.ovrStall
                   ovrFabric := bump 32 (n 3) x.ovrFabric, ovrEstimate := bump 32 (n 4) x.ovrEstimate
                   acct := { x.acct with ovrClock := x.acct.ovrClock + n 1, ovrStall := x.acct.ovrStall + n 2
                                         ovrFabric := x.acct.ovrFabric + n 3, ovrEstimate := x.acct.ovrEstimate + n 4 } })
      |> modTick (fun t =>
          { t with ovrTotal := bump 32 (r.length + 1) t.ovrTotal, ovrClock := bump 16 (n 1) t.ovrClock
                   ovrStall := bump 16 (n 2) t.ovrStall, ovrFabric := bump 16 (n 3) t.ovrFabric
                   ovrEstimate := bump 16 (n 4) t.ovrEstimate })
      |> emit c 0x05 c (le 2 (r.length + 1) ++ le 1 (mainCause n) ++ le 6 (r.foldl (fun s x => min s x.2.2) o.2.2) ++
          le 2 (n 1) ++ le 2 (n 2) ++ le 2 (n 3) ++ le 2 (n 4))

/-- R52 (log 28): a step waits: none of its units is waiting or running in its first tick, and one of them overran or its
expert round is not complete. -/
def stepWaits (m : Mach) (s : Step) : Bool :=
  let mine (u : WUnit) : Bool := u.ctx == s.ctx && u.seq == s.seq
  let runs := m.peas.filter fun a => a.active.any mine
  let l := (phaseAt m s s.main.phase).bind (expertOf m s.ctx)
  s.areaDone && !s.cutDone && s.main.phase < s.blk.phases && !(m.peas.any fun a => a.pendUnit.any mine) &&
    (runs.any (overran m) || (runs.isEmpty && s.expCut && l.any fun l => !expertDone m s.ctx l.blk.layer))

/-- R51 to R54. -/
def actOverruns (m : Mach) : Mach :=
  let os := overruns m
  let waits := (m.stp.steps.filter (stepWaits m)).map (·.ctx)
  m |> forEach (List.range 256) (countOverruns os)
    |> forEach waits.dedup (fun c => modCtx c fun x => { x with waitTicks := bump 32 1 x.waitTicks })

/-- Table 12.9: named slices, or pages under a frozen key index, hold some of a range of a tenancy. -/
def rangeTaken (m : Mach) (r : Rebind) (slice : Bool) (a n : Nat) : Bool :=
  if slice then
    (tenOf m r.src).sliceMap.any fun e => (bitsBelow 184 r.slices).contains e.phys && e.logical * sliceSize < a + n
      && a < (e.logical + 1) * sliceSize
  else (pagesOf a n).any fun g => (findPage m r.src g).any fun p => r.keys.testBit p.key

/-- Table 12.9: a rebind freezes slices or pages of a round of a layout: of its queue, or of its gather area. -/
def roundTaken (m : Mach) (r : Rebind) (l : Layout) (x : Missing × Option Queue) : Bool :=
  match x.2 with
  | some k => rangeTaken m r true k.blk.ctrl (2 * ctrlSize l.blk) || rangeTaken m r k.blk.dataSlice k.blk.data (2 * dataSize l.blk)
  | none => rangeTaken m r true l.gatherAddr (64 * ((l.rows * l.blk.topk + 3) / 4) + l.rows * l.blk.topk * ansBytes l.blk)

/-- Table 12.9: the open expert rounds whose areas a rebind freezes at its drain's end fault (R309). -/
def faultTaken (r : Rebind) (m : Mach) : Mach :=
  forEach ((List.range 256).filter fun c => (ctxOf m c).isOpen && (ctxOf m c).ten == r.src) (fun c m =>
    forEach (ctxOf m c).layouts (fun l m =>
      faultRounds c l ((openRounds m c l true).filter (roundTaken m r l)) 0 .poisoned 4 m) m) m

/-- R160: the rebinds one boundary old end their drains, the expert rounds in their way having faulted. -/
def frozenDrains (fs : FlashState) (m : Mach) : Mach :=
  m |> forEach (m.ten.rebinds.filter fun r => r.st == .drain && r.startTick < m.tick.count) faultTaken |> drainEnds fs

/-- Class 5. -/
def classFive (fs : FlashState) (m : Mach) : Mach :=
  m |> actLinks |> actDones fs |> closeLeft |> actOverruns |> frozenDrains fs |> dropFrozenShards fs
    |> forEach (List.range 256) freeBanks

/-! ### Classes 6 and 7 -/

/-- Class 6: function level resets and the urgent rings, by context. -/
def classSix (x : Nv × Mach) : Nv × Mach :=
  let y := (List.range 256).foldl (fun x c => serveRing c true 257 257 (actFlr c x.1 x.2)) x
  (y.1, ofClass 6 x.2.evq.length y.2)

/-- Class 7: a message of the tray controller. -/
def actTray (t : TrayMsg) (x : Nv × Mach) : Nv × Mach :=
  if !trayOk x.2 t then (x.1, setResult (traySeq t) .invalid x.2)
  else
    match t with
    | .node q n => (x.1, actNode q n x.2)
    | .planBlock q o l d => (x.1, actPlanBlock q o l d x.2)
    | .fwBlock q op a d => actFwBlock q op a d x.1 x.2
    | .recovery q .. => (x.1, setResult q .invalid x.2)
    | _ => x

/-- Class 7; nothing of it is consumed once removal has begun (Table 2.8). -/
def classSeven (x : Nv × Mach) : Nv × Mach :=
  if x.2.life.removal then x
  else
    let y := (trayMsgs x.2 7).foldl (fun x t => actTray t x) x
    let z := serveRings (y.1, y.2 |> resolvePlans |> actWrites y.1 7)
    (z.1, ofClass 7 x.2.evq.length z.2)

/-! ### What every boundary does -/

/-- R160, R269: a step whose request has been finalised by a rebind or a close goes with it. -/
def dropOrphan (s : Step) (m : Mach) : Mach :=
  if (findReq m s.ctx false s.seq).isSome then m
  else
    m |> forEach ((ctxOf m s.ctx).layouts.filter fun l => l.isOpen && l.openSeq == s.seq)
          (fun l m => faultRounds s.ctx l (openRounds m s.ctx l false) 0 .poisoned 4 m)
      |> modStp (fun x => { x with
            steps := x.steps.filter fun t => !(t.ctx == s.ctx && t.seq == s.seq)
            aborted := if ((fnOf m s.ctx).finals.find? (·.seq == s.seq)).any (·.st == .cancelled) then bump 16 1 x.aborted
              else x.aborted })
      |> withdrawUnits (fun _ u => u.ctx == s.ctx && u.seq == s.seq) |> releaseStep s

/-- R273, R274: the units that a pass of a step's plan comes to as the tables stand, the phases that join them included: the
pass that follows them, and their KV accesses.  The units of an expert phase have none. -/
def passAt (m : Mach) (s : Step) (p : Nat × Nat) : Option ((Nat × Nat) × List KvItem) :=
  (phaseAt m s p.1).bind fun ph =>
    if (expertOf m s.ctx ph).isSome then some ((p.1 + 1, 0), [])
    else ((cutPass s ph p.1 p.2 m).toOption).map fun c =>
      if c.1.passes = 1 then
        let j := joinPhases ph.peas s.blk.phases 32 p.1 (if ph.layer = 0xFFFF then [] else [ph.layer]) c.1 c.2.1 c.2.2
        ((j.1 + 1, 0), j.2.1.items)
      else (if p.2 + 1 < c.1.passes then (p.1, p.2 + 1) else (p.1 + 1, 0), c.1.items)

/-- R253: the accesses of the units to be cut in the tick after the one that opens: those of the pass after the one cut in it,
which itself follows the pass that has been cut whole. -/
def nextItems (m : Mach) (s : Step) : List KvItem :=
  let g := if s.expCut && s.main.phase < s.shared.phase then s.shared else s.main
  let now := if g.passes != 0 && g.placed == g.peas then
      (if g.pass + 1 < g.passes then (g.phase, g.pass + 1) else (g.phase + 1, 0)) else (g.phase, g.pass)
  match (passAt m s now).bind fun x => passAt m s x.1 with
  | some x => x.2
  | none => []

/-- R253: a page of the prefetch set; one of a pool that is in a lower tier is asked for. -/
def prefetchPage (t n : Nat) (m : Mach) : Mach :=
  match findPage m t n with
  | none => m
  | some g =>
    if g.claim != 1 then m
    else
      let m := modPage t n (fun g => { g with prefetch := true }) m
      if g.tier == .hbm || g.tier == .zero || g.asked then m
      else
        m |> modPage t n (fun g => { g with asked := true })
          |> modMem (fun x => { x with kvPrefetched := bump 32 1 x.kvPrefetched }) |> askMove t n .hbm

/-- R253: the prefetch set of the boundary. -/
def kvPrefetch (m : Mach) : Mach :=
  m |> modMem (fun x => { x with pages := x.pages.map fun g => { g with prefetch := false } })
    |> forEach (m.stp.steps.filter fun s => (ctxOf m s.ctx).ahead && s.opened.isSome && !s.cutDone) (fun s m =>
        let ns := (nextItems m s).flatMap fun x => pagesOf (if x.read then x.move.src else x.move.dst) x.move.rowBytes
        forEach ns.dedup (prefetchPage (ctxOf m s.ctx).ten) m)

/-- R180: the latency class of a stall. -/
def stallClass (us : Nat) (failed : Bool) : Nat :=
  if failed || 1000 ≤ us then 4 else if 100 ≤ us then 3 else if 10 ≤ us then 2 else 1

/-- R180: the TIER_STALL event of a context. -/
def tierStall (c : Nat) (m : Mach) : Mach :=
  match (ctxOf m c).stallTick with
  | [] => m
  | x :: r =>
    let l := x :: r
    let w := r.foldl (fun a b => if a.2.2.1 < b.2.2.1 then b else a) x
    let n (k : Nat) : List Byte := le 2 (sat 16 (l.countP fun y => stallClass y.2.2.1 y.2.2.2 == k))
    m |> emit c 0x18 c (le 2 (sat 16 l.length) ++ le 1 w.1 ++ le 1 (stallClass w.2.2.1 w.2.2.2) ++ le 3 w.2.1 ++
          le 4 (sat 32 w.2.2.1) ++ n 1 ++ n 2 ++ n 3 ++ n 4 ++ le 2 (sat 16 (l.countP (·.2.2.2))))
      |> modCtx c (fun x => { x with stallTick := [] })

/-- R191: the FLASH_HEALTH event. -/
def flashHealth (nv : Nv) (m : Mach) : Mach :=
  let f := m.flashTick
  let cause := bit f.changedTick + 2 * bit f.lifeTick + 4 * bit (f.retiredTick != 0)
  if cause = 0 then m
  else
    let x := nv.flash
    { emit 0 0x19 0 (le 1 (flashCode x.state) ++ le 1 cause ++ le 1 (min 255 x.lifePct) ++ le 2 x.sparePermille ++
        le 4 x.retired ++ le 2 f.retiredTick ++
        le 1 (if x.state == .offline then x.channel else 0xFF)) m with flashTick := {} }

/-- What follows the classes: links, memory, limits and events. -/
def closeBoundary (ran19 : Bool) (nv : Nv) (m : Mach) : Mach :=
  let fs := nv.flash.state
  let all := List.range 256
  let m := m |> enableLinks |> forEach all ctxCloseComplete |> forEach m.stp.steps dropOrphan |> drainSlots |> openSteps
  let m := m |> watermarks fs |> releaseQuarantine |> kvPrefetch |> countOvercommit |> forEach all closeWindows
  let m := m |> makeRequest |> sendTreq |> makePace ran19 |> openPace |> countIdle |> forEach (List.range 48) gatePod |> calibrate |> latchClampEnds
  m |> eccCorrected |> flashHealth nv |> forEach all tierStall |> keepStatusBlock

/-- Messages acted on leave the queue; those of class 7 wait while removal runs. -/
def clearTray (m : Mach) : Mach :=
  modI3c (fun x => { x with queue := if m.life.removal then trayMsgs m 7 else [] }) m

/-- A boundary at which Turnip still runs, after class 1.  READY comes once class 5 has completed the rebinds of a warm reset
(R165, R445), and fabric-ready after the writes and messages of class 7 (R446, R494). -/
def boundaryWork (ran19 : Bool) (nv : Nv) (m : Mach) : Nv × Mach :=
  let fs := nv.flash.state
  let m := m |> classTwo |> classThree fs
  if !turnipRuns m then (nv, m |> keepStatusBlock |> flushEvents)
  else
    let x := classSix (nv, m |> classFour nv |> classFive fs)
    let y := classSeven (moduleReady x.1 x.2)
    let z := announceReady y.1 (y.2 |> clearTray |> closeBoundary ran19 y.1)
    (z.1, endWrites z.2)

/-- R24, R39, R410: a boundary with every core halted: thermal shutdown and the supply's clamp, the halts, the TREQ and the
status block are hardware's; tray messages and host commands wait (log 37). -/
def haltedBoundary (m : Mach) : Mach :=
  let m := m |> modPwr (fun p => { p with samples := 0 }) |> fireTick |> closeRecord m.tick.count
  if m.pwr.shutLatched then actShutdown m
  else m |> actClamps (· == .supply) |> actHalts |> sendTreq |> keepStatusBlock |> flushEvents

/-- R48: a boundary. -/
def boundary (nv : Nv) (m : Mach) : Nv × Mach :=
  let ran19 := m.pwr.ran19
  if !turnipRuns m then foldFlash (nv, haltedBoundary m)
  else
    let x := classOne (fireBoundary nv m)
    foldFlash (if x.2 then (nv, x.1) else boundaryWork ran19 nv x.1)

/-- R440: the module is up and its tick runs. -/
def ticks (m : Mach) : Bool := m.life.run == .up && m.tick.started

/-- R48, R472: a boundary of a module that is not in replay mode. -/
def tickBoundary (nv : Nv) (m : Mach) : Nv × Mach := if ticks m && !m.life.replay then boundary nv m else (nv, m)

/-- R474: a divergence stops the replay. -/
def setDiverge (k : Nat) (m : Mach) : Mach :=
  { m with cap := { m.cap with diverge := k, replayTick := m.tick.count } }

/-- R473, R474: a boundary of a module in replay mode: it fires once its record is read and its completions have happened. -/
def replayBoundary (completionsDone recordBad : Bool) (diverge : Nat) (nv : Nv) (m : Mach) : Nv × Mach :=
  if !(ticks m && m.life.replay) || m.cap.diverge != 0 then (nv, m)
  else if recordBad then (nv, setDiverge 7 m)
  else if 1 ≤ diverge && diverge ≤ 6 then (nv, setDiverge diverge m)
  else if completionsDone then
    let r := boundary nv m
    (r.1, { r.2 with cap := { r.2.cap with replayTick := m.tick.count } })
  else (nv, m)

/-- R48: TICK_BOUNDARY. -/
def execTickBoundary (s : State) : Host.Outcome State Fault Refusal :=
  let r := tickBoundary s.nv s.m
  .next { s with nv := r.1, m := r.2 }
/-- R473: REPLAY_BOUNDARY. -/
def execReplayBoundary (completionsDone recordBad : Bool) (diverge : Nat) (s : State) : Host.Outcome State Fault Refusal :=
  let r := replayBoundary completionsDone recordBad diverge s.nv s.m
  .next { s with nv := r.1, m := r.2 }

end Sys2Proof.Machine
end

