-- ==== Sys2Proof/Machine/Numeric.lean ====
section
/-! DEFINITION. Commands of a pea's vector unit, matrix engine and precision recipes: QUANT,
MATRIX_INSTRUCTION, LAYER, TILE, VECTOR_OPERATION, TOPK, ASTAT, ANORM and ARECOMP. -/

namespace Sys2Proof.Machine

/-- R111: the recipe of the layer selected, as copied into the unit. -/
def curRecipe (a : Pea) : Option Recipe :=
  if a.layerSet then a.active.bind fun u => alGet a.layerSel u.layers else none

/-- R112: counts added to the tile in progress. -/
def tally (p : Nat) (k : Trouble) : Mach → Mach := modPea p fun a => { a with tile := addTrouble k a.tile }

/-- A vector register's 64 lanes. -/
def vreg (a : Pea) (r : Nat) : List Word32 := smRead a.vector (64 * r) 64

/-- A vector register written. -/
def setVreg (r : Nat) (ws : List Word32) (a : Pea) : Pea := { a with vector := smWrite (64 * r) ws a.vector }

/-- A scalar register written. -/
def setSreg (r : Nat) (w : Word64) (a : Pea) : Pea := { a with scalar := smSet r w a.scalar }

/-- R111: LAYER. -/
def selectLayer (p n : Nat) (m : Mach) : Mach :=
  match (peaOf m p).active with
  | none => m
  | some u =>
    let names := insRising n (peaOf m p).named
    if 8 < names.length || (alGet n u.layers).isNone then endInvalid p m
    else modPea p (fun a => { a with layerSel := n, layerSet := true, named := names }) m

/-- R100: QUANT on four vector registers, into the pea's activation buffer. -/
def quantOp (p vsrc elem side spill : Nat) (m : Mach) : Mach :=
  let a := peaOf m p
  match curRecipe a with
  | none => endInvalid p m
  | some r =>
    let g := quantGroup r (smRead a.vector (64 * vsrc) 256)
    m |> modPea p (fun a =>
            { a with acts := memWrite spill g.spill (memWrite side g.side (memWrite elem g.elems a.acts)) })
      |> tally p g.counts

/-- Table 3.2: MACs per cycle under a recipe. -/
def macRate (r : Recipe) : Nat :=
  if r.ref then 64 else if r.wfmt = 4 then 256 else if r.wfmt ≤ 3 then 512 else if r.wfmt ≤ 6 then 1024 else 2048

/-- R412: the MACs of an instruction, by rate class. -/
def countMacs (r : Recipe) (o : MatOp) (a : Account) : Account :=
  { a with macs := alSet (macRate r) ((alGet (macRate r) a.macs).getD 0 + o.rowsM * o.cols * (o.k1 - o.k0)) a.macs }

/-- R412: the results of a vector instruction. -/
def countVec (n : Nat) (a : Account) : Account := { a with vecOps := a.vecOps + n }

/-- R103: a matrix instruction; a cold engine waits for its slot (R85). -/
def matrixOp (p : Nat) (o : MatOp) (m : Mach) : Mach :=
  let a := peaOf m p
  match curRecipe a with
  | none => endInvalid p m
  | some r =>
    if matBad r a.acts o then endInvalid p m
    else if a.cold then m
    else
      let res := matRun r a.weights a.acts a.acc o
      m |> modPea p (fun a => { a with acc := res.accs.foldl (fun s x => smSet x.1 x.2 s) a.acc })
        |> tally p res.counts |> charge p (countMacs r o)

/-- R255: fmaxf, in which a NaN yields to a number. -/
def fpMax (a b : Word32) : Word32 :=
  if fpIsNan a then (if fpIsNan b then 0x7FC00000 else b)
  else if fpIsNan b then a else if fpLt a b then b else a

/-- R62: the largest lane and its index; the lower of equal lanes.  A NaN among the lanes leaves both a
free value (log 92). -/
def maxIndex (ws : List Word32) : Word32 × Nat :=
  if ws.any fpIsNan then (fpCanon (Config.nanMax ws), Config.nanMaxLane ws % ws.length)
  else ws.zipIdx.foldl (fun b x => if fpLt b.1 x.1 then x else b) (ws.headD 0, 0)

/-- R62: the sum of the lanes, which the manual gives no order: `n` times two of the values left are
replaced by their sum, the two a free choice (log 92). -/
def laneSum : Nat → List Word32 → Word32
  | 0, xs => xs.headD 0
  | n + 1, xs =>
    let q := Config.sumPick xs.length
    let i := q.1 % xs.length
    let r := xs.eraseIdx i
    let j := q.2 % r.length
    laneSum n (r.eraseIdx j ++ [fpAdd (xs.getD i 0) (r.getD j 0)])

/-- R62: the registers of a reduction, `ra` up to `rb`, or `ra` alone. -/
def redRegs (ra rb : Nat) : List Nat := List.range' ra (max 1 (rb + 1 - ra))

/-- R62: the lanes that a reduction takes, the lower register number first. -/
def redLanes (a : Pea) (ra rb : Nat) : List Word32 := (redRegs ra rb).flatMap (vreg a)

/-- A reduction: one result from the lanes of its registers. -/
def reduces : VecOp → Bool
  | .sum | .max | .maxIdx => true
  | _ => false

/-- R61, R62: a vector operation.  Maximum-with-index leaves the value in bits 31 to 0 and the index in bits 63 to 32 of one
scalar register (DESIGN CHOICE, log 104: the manual names no place). -/
def vectorOp (p : Nat) (op : VecOp) (rd ra rb rc : Nat) (m : Mach) : Mach :=
  charge p (countVec (if reduces op then 64 * (redRegs ra rb).length else 64)) <| modPea p (fun a =>
    let x := vreg a ra
    let l := redLanes a ra rb
    match op with
    | .fma => setVreg rd (List.zipWith (fun f c => f c) (List.zipWith fpFma x (vreg a rb)) (vreg a rc)) a
    | .sum => setSreg rd ((laneSum (l.length - 1) l).zeroExtend 64) a
    | .max => setSreg rd ((maxIndex l).1.zeroExtend 64) a
    | .maxIdx => let b := maxIndex l; setSreg rd (b.1.zeroExtend 64 ||| BitVec.ofNat 64 (b.2 * 2 ^ 32)) a
    | f => setVreg rd (x.map (vecFun f)) a) m

/-- R293: insertion in rank order: highest first, equal by lower index, NaN last. -/
def insRank (x : Word32 × Nat) : List (Word32 × Nat) → List (Word32 × Nat)
  | [] => [x]
  | y :: r =>
    if (fpIsNan y.1 && !fpIsNan x.1) || fpLt y.1 x.1 then x :: y :: r else y :: insRank x r

/-- R293: the `k` best scores with their indices, in rank order. -/
def topk (scores : List Word32) (k : Nat) : List (Word32 × Nat) :=
  (scores.zipIdx.foldl (fun l x => insRank x l) []).take k

/-- R293: TOPK from slice to slice. -/
def topkOp (p scores e k idxOut scoreOut : Nat) (m : Mach) : Mach :=
  peaRead p scores (4 * e) (fun bs m =>
    let ws := words4 bs
    let r := topk ws k
    peaWrite p idxOut (r.flatMap fun x => le 2 x.2)
      (peaWrite p scoreOut (bytes4 (r.map (·.1))) (tally p { invalid := ws.countP fpIsNan })) m) m

/-- The masked and scaled scores y of R255. -/
def maskedScores (mask : Word64) (c : Word32) (s : List Word32) : List Word32 :=
  s.zipIdx.map fun x => if mask.getLsbD x.2 then fpMul c x.1 else 0xFF800000

/-- R255: what ASTAT returns: the weights, the factor and the record's new M and L. -/
structure StatOut where
  p : List Word32
  alpha : Word32
  newM : Word32
  newL : Word32
deriving DecidableEq, Repr

/-- R255: ASTAT's loop. -/
def astat (oldM oldL : Word32) (s : List Word32) (mask : Word64) (c : Word32) : StatOut :=
  let y := maskedScores mask c s
  let mx := y.foldl fpMax oldM
  let none' := mx == 0xFF800000
  let alpha := if none' then 0x3F800000 else vecFun .exp2 (fpAdd oldM (fpNeg mx))
  let ps := y.map fun v => if none' then 0 else vecFun .exp2 (fpAdd v (fpNeg mx))
  { p := ps, alpha, newM := mx, newL := fpFma oldL alpha (ps.foldl fpAdd 0) }

/-- R255: ASTAT on a record in a slice, 64 scores in a vector register. -/
def astatOp (p rec vsrc : Nat) (mask : Word64) (c : Word32) (vdst sdst : Nat) (m : Mach) : Mach :=
  peaRead p rec 8 (fun bs m =>
    let ws := words4 bs
    let r := astat (ws.getD 0 0) (ws.getD 1 0) (vreg (peaOf m p) vsrc) mask c
    peaWrite p rec (bytes4 [r.newM, r.newL])
      (modPea p fun a => setSreg sdst (r.alpha.zeroExtend 64) (setVreg vdst r.p a)) m) m

/-- R255, R256: the reciprocal of L, or zero where L is 0. -/
def recipL (l : Word32) : Word32 := if numIsZero (fpNum l) then 0 else vecFun .recip l

/-- R255: ANORM; a row whose L is 0 gives zeros. -/
def anormOp (p rec vsrc vdst : Nat) (m : Mach) : Mach :=
  peaRead p rec 8 (fun bs => modPea p fun a =>
    let l := (words4 bs).getD 1 0
    setVreg vdst ((vreg a vsrc).map fun x => if numIsZero (fpNum l) then 0 else fpMul x (recipL l)) a) m

/-- R256: ARECOMP. -/
def arecompOp (p rec vsrc : Nat) (mask : Word64) (c : Word32) (vdst : Nat) (m : Mach) : Mach :=
  peaRead p rec 8 (fun bs => modPea p fun a =>
    let ws := words4 bs
    let rl := recipL (ws.getD 1 0)
    setVreg vdst ((maskedScores mask c (vreg a vsrc)).map fun y =>
      fpMul (vecFun .exp2 (fpAdd y (fpNeg (ws.getD 0 0)))) rl) a) m

/-- An instruction of a pea's running program. -/
def onPea (p : Nat) (f : Mach → Mach) : State → Host.Outcome State Fault Refusal :=
  onM fun m => if peaRuns m p then f m else m

/-- R100: QUANT. -/
def execQuant (pea vsrc elem side spill : Nat) (s : State) : Host.Outcome State Fault Refusal :=
  onPea pea (quantOp pea vsrc elem side spill) s
/-- R103: a matrix instruction. -/
def execMatrixInstruction (pea : Nat) (m : MatOp) (s : State) : Host.Outcome State Fault Refusal :=
  onPea pea (matrixOp pea m) s
/-- R111: LAYER n. -/
def execLayer (pea n : Nat) (s : State) : Host.Outcome State Fault Refusal := onPea pea (selectLayer pea n) s
/-- R112: TILE. -/
def execTile (pea : Nat) (s : State) : Host.Outcome State Fault Refusal := onPea pea (endTile pea) s
/-- R61, R62: a vector operation. -/
def execVectorOperation (pea : Nat) (op : VecOp) (rd ra rb rc : Nat) (s : State) :
    Host.Outcome State Fault Refusal := onPea pea (vectorOp pea op rd ra rb rc) s
/-- R293: TOPK. -/
def execTopk (pea scores e k idxOut scoreOut : Nat) (s : State) : Host.Outcome State Fault Refusal :=
  onPea pea (topkOp pea scores e k idxOut scoreOut) s
/-- R255: ASTAT. -/
def execAstat (pea rec vsrc : Nat) (mask : Word64) (c : Word32) (vdst sdst : Nat) (s : State) :
    Host.Outcome State Fault Refusal := onPea pea (astatOp pea rec vsrc mask c vdst sdst) s
/-- R255: ANORM. -/
def execAnorm (pea rec vsrc vdst : Nat) (s : State) : Host.Outcome State Fault Refusal :=
  onPea pea (anormOp pea rec vsrc vdst) s
/-- R256: ARECOMP. -/
def execArecomp (pea rec vsrc : Nat) (mask : Word64) (c : Word32) (vdst : Nat) (s : State) :
    Host.Outcome State Fault Refusal := onPea pea (arecompOp pea rec vsrc mask c vdst) s

end Sys2Proof.Machine
end

