-- ==== Sys2Proof/Machine/Dispatch.lean ====
section
/-! DEFINITION. One arm per command: the meaning it calls, or its rejection by name. -/

namespace Sys2Proof.Machine

/-- R42, R44: the effect of the command `i` on everything but the queue of waiting commands. -/
def exec (i : Instr) (s : State) : Host.Outcome State Fault Refusal :=
  match i with
  | .tickBoundary => Sys2Proof.Machine.execTickBoundary s
  | .stepOpen ctx seq => Sys2Proof.Machine.execStepOpen ctx seq s
  | .slotDrain ctx slot => Sys2Proof.Machine.execSlotDrain ctx slot s
  | .ctxCloseComplete ctx => Sys2Proof.Machine.execCtxCloseComplete ctx s
  | .unitCut ctx seq => Sys2Proof.Machine.execUnitCut ctx seq s
  | .turnipQueueWrite pea w => Sys2Proof.Machine.execTurnipQueueWrite pea w s
  | .go => Sys2Proof.Machine.execGo s
  | .peaStaggerStart pea => Sys2Proof.Machine.execPeaStaggerStart pea s
  | .engineColdStart pea => Sys2Proof.Machine.execEngineColdStart pea s
  | .workUnitComplete pea => Sys2Proof.Machine.execWorkUnitComplete pea s
  | .descRun pea => Sys2Proof.Machine.execDescRun pea s
  | .move pea => Sys2Proof.Machine.execMove pea s
  | .moveComplete pea => Sys2Proof.Machine.execMoveComplete pea s
  | .descWait pea => Sys2Proof.Machine.execDescWait pea s
  | .descWaitSatisfied pea => Sys2Proof.Machine.execDescWaitSatisfied pea s
  | .descPost pea => Sys2Proof.Machine.execDescPost pea s
  | .peaLoad pea addr len dst => Sys2Proof.Machine.execPeaLoad pea addr len dst s
  | .peaStore pea addr data => Sys2Proof.Machine.execPeaStore pea addr data s
  | .sliceAtomic pea addr wide op a b rd => Sys2Proof.Machine.execSliceAtomic pea addr wide op a b rd s
  | .fence pea => Sys2Proof.Machine.execFence pea s
  | .align pea g n => Sys2Proof.Machine.execAlign pea g n s
  | .alignFail ten g => Sys2Proof.Machine.execAlignFail ten g s
  | .quant pea vsrc elem side spill => Sys2Proof.Machine.execQuant pea vsrc elem side spill s
  | .matrixInstruction pea m => Sys2Proof.Machine.execMatrixInstruction pea m s
  | .layer pea n => Sys2Proof.Machine.execLayer pea n s
  | .tile pea => Sys2Proof.Machine.execTile pea s
  | .vectorOperation pea op rd ra rb rc => Sys2Proof.Machine.execVectorOperation pea op rd ra rb rc s
  | .topk pea scores e k idxOut scoreOut => Sys2Proof.Machine.execTopk pea scores e k idxOut scoreOut s
  | .astat pea rec vsrc mask c vdst sdst => Sys2Proof.Machine.execAstat pea rec vsrc mask c vdst sdst s
  | .anorm pea rec vsrc vdst => Sys2Proof.Machine.execAnorm pea rec vsrc vdst s
  | .arecomp pea rec vsrc mask c vdst => Sys2Proof.Machine.execArecomp pea rec vsrc mask c vdst s
  | .fatom pea aop size cls handle a b rec => Sys2Proof.Machine.execFatom pea aop size cls handle a b rec s
  | .collect pea collId inAddr outAddr count rec counter => Sys2Proof.Machine.execCollect pea collId inAddr outAddr count rec counter s
  | .returnAnswer pea ten queue tagAddr ansAddr => Sys2Proof.Machine.execReturnAnswer pea ten queue tagAddr ansAddr s
  | .exchangeRoundStart ctx layer => Sys2Proof.Machine.execExchangeRoundStart ctx layer s
  | .queueHeaderReceive ten queue h => Sys2Proof.Machine.execQueueHeaderReceive ten queue h s
  | .queueRowReceive ten queue layoutId pos t row => Sys2Proof.Machine.execQueueRowReceive ten queue layoutId pos t row s
  | .queueReturnHeaders ten queue => Sys2Proof.Machine.execQueueReturnHeaders ten queue s
  | .gatherAnswerReceive ctx layer t answer => Sys2Proof.Machine.execGatherAnswerReceive ctx layer t answer s
  | .gatherReturnHeader ctx layer h => Sys2Proof.Machine.execGatherReturnHeader ctx layer h s
  | .expertRoundDeadline ctx layer => Sys2Proof.Machine.execExpertRoundDeadline ctx layer s
  | .collHeaderReceive ctx h => Sys2Proof.Machine.execCollHeaderReceive ctx h s
  | .collRoundDeadline ctx collId => Sys2Proof.Machine.execCollRoundDeadline ctx collId s
  | .shardChunkProcess ten slot shard data abandoned readFailed => Sys2Proof.Machine.execShardChunkProcess ten slot shard data abandoned readFailed s
  | .shardInstallFinalize ten slot shard => Sys2Proof.Machine.execShardInstallFinalize ten slot shard s
  | .shardUpstreamTimeout ten slot shard => Sys2Proof.Machine.execShardUpstreamTimeout ten slot shard s
  | .shardBackgroundVerify => Sys2Proof.Machine.execShardBackgroundVerify s
  | .promotionStart ten page tier => Sys2Proof.Machine.execPromotionStart ten page tier s
  | .migrationCommit ten page errs => Sys2Proof.Machine.execMigrationCommit ten page errs s
  | .sourceFrameRelease ten page => Sys2Proof.Machine.execSourceFrameRelease ten page s
  | .stallLimitExpiry pea => Sys2Proof.Machine.execStallLimitExpiry pea s
  | .kvFlashDemote ten pool => Sys2Proof.Machine.execKvFlashDemote ten pool s
  | .pageReclaim => Sys2Proof.Machine.execPageReclaim s
  | .lpVerifyPass errs => Sys2Proof.Machine.execLpVerifyPass errs s
  | .sramScrubPass bytes bits => Sys2Proof.Machine.execSramScrubPass bytes bits s
  | .hbmScrubPass units errs written => Sys2Proof.Machine.execHbmScrubPass units errs written s
  | .scrubForcedGrant slice => Sys2Proof.Machine.execScrubForcedGrant slice s
  | .repairRewrite hbm unit => Sys2Proof.Machine.execRepairRewrite hbm unit s
  | .uncorrectableRead store who place err => Sys2Proof.Machine.execUncorrectableRead store who place err s
  | .lpLinkRetry read ok => Sys2Proof.Machine.execLpLinkRetry read ok s
  | .hbmCaParityReissue cmd ok => Sys2Proof.Machine.execHbmCaParityReissue cmd ok s
  | .datapathParityReplay beat source ok => Sys2Proof.Machine.execDatapathParityReplay beat source ok s
  | .turnipParityReplay core ok => Sys2Proof.Machine.execTurnipParityReplay core ok s
  | .turnipWatchdogExpiry core => Sys2Proof.Machine.execTurnipWatchdogExpiry core s
  | .flashRetentionScan block overLimit => Sys2Proof.Machine.execFlashRetentionScan block overLimit s
  | .flashReadDisturbRelocate block => Sys2Proof.Machine.execFlashReadDisturbRelocate block s
  | .flashFreeBlockCollect erase => Sys2Proof.Machine.execFlashFreeBlockCollect erase s
  | .flashProgramFail block => Sys2Proof.Machine.execFlashProgramFail block s
  | .flashStateChange dest channel => Sys2Proof.Machine.execFlashStateChange dest channel s
  | .rootTsyncLaunch => Sys2Proof.Machine.execRootTsyncLaunch s
  | .tsyncReceive port m => Sys2Proof.Machine.execTsyncReceive port m s
  | .tsyncMiss => Sys2Proof.Machine.execTsyncMiss s
  | .tickSyncLoss => Sys2Proof.Machine.execTickSyncLoss s
  | .treqReceive port m => Sys2Proof.Machine.execTreqReceive port m s
  | .portDelayMeasure port ns => Sys2Proof.Machine.execPortDelayMeasure port ns s
  | .groupJoinTimeout => Sys2Proof.Machine.execGroupJoinTimeout s
  | .nop h => Sys2Proof.Machine.execNop h s
  | .identify h outPtr => Sys2Proof.Machine.execIdentify h outPtr s
  | .countersRead h set target firstLayer layers outPtr => Sys2Proof.Machine.execCountersRead h set target firstLayer layers outPtr s
  | .planLoad h planPtr planLen => Sys2Proof.Machine.execPlanLoad h planPtr planLen s
  | .planClear h => Sys2Proof.Machine.execPlanClear h s
  | .fwBankBegin h length => Sys2Proof.Machine.execFwBankBegin h length s
  | .fwBankData h len dataPtr offset => Sys2Proof.Machine.execFwBankData h len dataPtr offset s
  | .fwDataProgrammed => Sys2Proof.Machine.execFwDataProgrammed s
  | .fwBankAbandon h => Sys2Proof.Machine.execFwBankAbandon h s
  | .fwBankCommit h => Sys2Proof.Machine.execFwBankCommit h s
  | .fwCommitCheckDone => Sys2Proof.Machine.execFwCommitCheckDone s
  | .attest h nonce outPtr => Sys2Proof.Machine.execAttest h nonce outPtr s
  | .attestSignDone => Sys2Proof.Machine.execAttestSignDone s
  | .setGuard h guardUs => Sys2Proof.Machine.execSetGuard h guardUs s
  | .tenCreate h ten keys ftid => Sys2Proof.Machine.execTenCreate h ten keys ftid s
  | .tenRebind h src dst pods keys slices => Sys2Proof.Machine.execTenRebind h src dst pods keys slices s
  | .rebindFlashClearDone seq => Sys2Proof.Machine.execRebindFlashClearDone seq s
  | .rebindCryptoEraseDone seq => Sys2Proof.Machine.execRebindCryptoEraseDone seq s
  | .rebindResetDone seq => Sys2Proof.Machine.execRebindResetDone seq s
  | .tenDestroy h ten => Sys2Proof.Machine.execTenDestroy h ten s
  | .ctxOpen h c ten expert key => Sys2Proof.Machine.execCtxOpen h c ten expert key s
  | .ctxClose h c => Sys2Proof.Machine.execCtxClose h c s
  | .grantSet h g => Sys2Proof.Machine.execGrantSet h g s
  | .ctxSched h c share => Sys2Proof.Machine.execCtxSched h c share s
  | .kvTableAttach h a => Sys2Proof.Machine.execKvTableAttach h a s
  | .kvTableDetach h => Sys2Proof.Machine.execKvTableDetach h s
  | .kvTableStatus h outPtr => Sys2Proof.Machine.execKvTableStatus h outPtr s
  | .kvMapCopy h srcStream srcBlock dstStream dstBlock blocks => Sys2Proof.Machine.execKvMapCopy h srcStream srcBlock dstStream dstBlock blocks s
  | .kvMapMove h srcStream srcBlock dstStream dstBlock blocks => Sys2Proof.Machine.execKvMapMove h srcStream srcBlock dstStream dstBlock blocks s
  | .kvUnmap h stream length => Sys2Proof.Machine.execKvUnmap h stream length s
  | .prefixInsert h b => Sys2Proof.Machine.execPrefixInsert h b s
  | .prefixLookup h b => Sys2Proof.Machine.execPrefixLookup h b s
  | .prefixDrop h all hash => Sys2Proof.Machine.execPrefixDrop h all hash s
  | .kvPin h stream firstBlock blocks pin => Sys2Proof.Machine.execKvPin h stream firstBlock blocks pin s
  | .stepSubmit h b => Sys2Proof.Machine.execStepSubmit h b s
  | .slotAlloc h slot stream => Sys2Proof.Machine.execSlotAlloc h slot stream s
  | .slotRelease h slot gen keep => Sys2Proof.Machine.execSlotRelease h slot gen keep s
  | .prefillRatio h chunk ratio floor basic => Sys2Proof.Machine.execPrefillRatio h chunk ratio floor basic s
  | .expLayoutInstall h b => Sys2Proof.Machine.execExpLayoutInstall h b s
  | .expLayoutRemove h layer => Sys2Proof.Machine.execExpLayoutRemove h layer s
  | .expQueuePost h b => Sys2Proof.Machine.execExpQueuePost h b s
  | .expQueueUnpost h queue => Sys2Proof.Machine.execExpQueueUnpost h queue s
  | .expShared h layer order basic podMask => Sys2Proof.Machine.execExpShared h layer order basic podMask s
  | .memAlloc h base pages key => Sys2Proof.Machine.execMemAlloc h base pages key s
  | .memFree h base pages => Sys2Proof.Machine.execMemFree h base pages s
  | .memPin h base pages tier => Sys2Proof.Machine.execMemPin h base pages tier s
  | .memDemote h base pages tier => Sys2Proof.Machine.execMemDemote h base pages tier s
  | .memPrefetch h base pages => Sys2Proof.Machine.execMemPrefetch h base pages s
  | .migratePolicy h ahead touch stallLimitMs basic => Sys2Proof.Machine.execMigratePolicy h ahead touch stallLimitMs basic s
  | .recipeSet h layer expert r => Sys2Proof.Machine.execRecipeSet h layer expert r s
  | .recipeGet h layer outPtr => Sys2Proof.Machine.execRecipeGet h layer outPtr s
  | .cmpTableLoad h gen tablePtr => Sys2Proof.Machine.execCmpTableLoad h gen tablePtr s
  | .cmpTableStandard h => Sys2Proof.Machine.execCmpTableStandard h s
  | .cmpTableHold h gen => Sys2Proof.Machine.execCmpTableHold h gen s
  | .cmpTableUnhold h gen => Sys2Proof.Machine.execCmpTableUnhold h gen s
  | .cmpTableStatus h outPtr => Sys2Proof.Machine.execCmpTableStatus h outPtr s
  | .groupJoin h group rootNode planId members => Sys2Proof.Machine.execGroupJoin h group rootNode planId members s
  | .groupLeave h => Sys2Proof.Machine.execGroupLeave h s
  | .collSetup h b => Sys2Proof.Machine.execCollSetup h b s
  | .collRemove h collId => Sys2Proof.Machine.execCollRemove h collId s
  | .portReset h ports => Sys2Proof.Machine.execPortReset h ports s
  | .remapAccept h port node peerPort serial => Sys2Proof.Machine.execRemapAccept h port node peerPort serial s
  | .manifestLoad h slot manPtr manLen keyDigest => Sys2Proof.Machine.execManifestLoad h slot manPtr manLen keyDigest s
  | .manifestCheckDone ten slot => Sys2Proof.Machine.execManifestCheckDone ten slot s
  | .manifestUnload h slot => Sys2Proof.Machine.execManifestUnload h slot s
  | .shardInstall h b => Sys2Proof.Machine.execShardInstall h b s
  | .shardRemove h slot shard => Sys2Proof.Machine.execShardRemove h slot shard s
  | .shardVerify h slot shard => Sys2Proof.Machine.execShardVerify h slot shard s
  | .verifyInterval h hours => Sys2Proof.Machine.execVerifyInterval h hours s
  | .capSet h capW => Sys2Proof.Machine.execCapSet h capW s
  | .stepLimit h step => Sys2Proof.Machine.execStepLimit h step s
  | .energyRead h scope target outPtr => Sys2Proof.Machine.execEnergyRead h scope target outPtr s
  | .captureStart h fill boot linkGb triggers postTicks => Sys2Proof.Machine.execCaptureStart h fill boot linkGb triggers postTicks s
  | .captureStop h disarm atFlag atTick => Sys2Proof.Machine.execCaptureStop h disarm atFlag atTick s
  | .captureExport h outPtr offset length => Sys2Proof.Machine.execCaptureExport h outPtr offset length s
  | .abort h target => Sys2Proof.Machine.execAbort h target s
  | .cancel h slot gen keep => Sys2Proof.Machine.execCancel h slot gen keep s
  | .replayBoundary completionsDone recordBad diverge => Sys2Proof.Machine.execReplayBoundary completionsDone recordBad diverge s
  | .fabricRequestIssue r => Sys2Proof.Machine.execFabricRequestIssue r s
  | .fabricPacketForward p => Sys2Proof.Machine.execFabricPacketForward p s
  | .fabricRequestReceive p => Sys2Proof.Machine.execFabricRequestReceive p s
  | .fabricCompletionReceive p => Sys2Proof.Machine.execFabricCompletionReceive p s
  | .fabricTimeout reqId => Sys2Proof.Machine.execFabricTimeout reqId s
  | .fabricHoldSend src reqId => Sys2Proof.Machine.execFabricHoldSend src reqId s
  | .fabricHoldReceive reqId => Sys2Proof.Machine.execFabricHoldReceive reqId s
  | .fabricNotReadyRetry reqId => Sys2Proof.Machine.execFabricNotReadyRetry reqId s
  | .fabricNotReadyExpiry reqId => Sys2Proof.Machine.execFabricNotReadyExpiry reqId s
  | .replayEntryAge src tag => Sys2Proof.Machine.execReplayEntryAge src tag s
  | .noticeReceive port n => Sys2Proof.Machine.execNoticeReceive port n s
  | .fabricReadyAnnounce => Sys2Proof.Machine.execFabricReadyAnnounce s
  | .linkFlitReceive port f => Sys2Proof.Machine.execLinkFlitReceive port f s
  | .linkReplayTimeout port => Sys2Proof.Machine.execLinkReplayTimeout port s
  | .linkDetectStart port => Sys2Proof.Machine.execLinkDetectStart port s
  | .linkPartnerDetect port => Sys2Proof.Machine.execLinkPartnerDetect port s
  | .linkEqualizeDone port lanes failed => Sys2Proof.Machine.execLinkEqualizeDone port lanes failed s
  | .linkIdentityReceive port ident => Sys2Proof.Machine.execLinkIdentityReceive port ident s
  | .linkIdentifyTimeout port => Sys2Proof.Machine.execLinkIdentifyTimeout port s
  | .linkRetryTimer port => Sys2Proof.Machine.execLinkRetryTimer port s
  | .linkNoticeReceive port accept => Sys2Proof.Machine.execLinkNoticeReceive port accept s
  | .linkLaneFail port lane => Sys2Proof.Machine.execLinkLaneFail port lane s
  | .linkLaneSubstitute port logical spare => Sys2Proof.Machine.execLinkLaneSubstitute port logical spare s
  | .linkWidthRelockDone port => Sys2Proof.Machine.execLinkWidthRelockDone port s
  | .linkLockLoss port => Sys2Proof.Machine.execLinkLockLoss port s
  | .telemetrySample x => Sys2Proof.Machine.execTelemetrySample x s
  | .clampEnd => Sys2Proof.Machine.execClampEnd s
  | .stepWalkIndex => Sys2Proof.Machine.execStepWalkIndex s
  | .thermalShutdown => Sys2Proof.Machine.execThermalShutdown s
  | .supplyShutdown cause => Sys2Proof.Machine.execSupplyShutdown cause s
  | .leaseExpiry => Sys2Proof.Machine.execLeaseExpiry s
  | .energyCalibration => Sys2Proof.Machine.execEnergyCalibration s
  | .podGate pod => Sys2Proof.Machine.execPodGate pod s
  | .i3cLease mseq ceilingW leaseSeq => Sys2Proof.Machine.execI3cLease mseq ceilingW leaseSeq s
  | .i3cResetCold mseq replay => Sys2Proof.Machine.execI3cResetCold mseq replay s
  | .i3cResetWarm mseq => Sys2Proof.Machine.execI3cResetWarm mseq s
  | .warmResetResume => Sys2Proof.Machine.execWarmResetResume s
  | .i3cNode mseq node => Sys2Proof.Machine.execI3cNode mseq node s
  | .i3cCoolant mseq tenthsC flow => Sys2Proof.Machine.execI3cCoolant mseq tenthsC flow s
  | .i3cAlarm mseq state => Sys2Proof.Machine.execI3cAlarm mseq state s
  | .i3cPlanBlock mseq offset last data => Sys2Proof.Machine.execI3cPlanBlock mseq offset last data s
  | .i3cFwBlockBegin mseq length => Sys2Proof.Machine.execI3cFwBlockBegin mseq length s
  | .i3cFwBlockData mseq offset data => Sys2Proof.Machine.execI3cFwBlockData mseq offset data s
  | .i3cFwBlockAbandon mseq => Sys2Proof.Machine.execI3cFwBlockAbandon mseq s
  | .i3cFwBlockCommit mseq => Sys2Proof.Machine.execI3cFwBlockCommit mseq s
  | .i3cRecovery mseq op arg data => Sys2Proof.Machine.execI3cRecovery mseq op arg data s
  | .i3cStatusRead => Sys2Proof.Machine.execI3cStatusRead s
  | .i3cEnec events => Sys2Proof.Machine.execI3cEnec events s
  | .i3cDisec events => Sys2Proof.Machine.execI3cDisec events s
  | .i3cRstdaa => Sys2Proof.Machine.execI3cRstdaa s
  | .i3cEntdaa addr => Sys2Proof.Machine.execI3cEntdaa addr s
  | .i3cSetdasa addr => Sys2Proof.Machine.execI3cSetdasa addr s
  | .i3cSetnewda addr => Sys2Proof.Machine.execI3cSetnewda addr s
  | .i3cSetmwl len => Sys2Proof.Machine.execI3cSetmwl len s
  | .i3cSetmrl len => Sys2Proof.Machine.execI3cSetmrl len s
  | .i3cGetmwl => Sys2Proof.Machine.execI3cGetmwl s
  | .i3cGetmrl => Sys2Proof.Machine.execI3cGetmrl s
  | .i3cGetpid => Sys2Proof.Machine.execI3cGetpid s
  | .i3cGetbcr => Sys2Proof.Machine.execI3cGetbcr s
  | .i3cGetdcr => Sys2Proof.Machine.execI3cGetdcr s
  | .i3cGetstatus => Sys2Proof.Machine.execI3cGetstatus s
  | .i3cGetmxds => Sys2Proof.Machine.execI3cGetmxds s
  | .i3cRstact defining => Sys2Proof.Machine.execI3cRstact defining s
  | .resetInputAssert ns => Sys2Proof.Machine.execResetInputAssert ns s
  | .resetInputRelease => Sys2Proof.Machine.execResetInputRelease s
  | .powerupRailsDone => Sys2Proof.Machine.execPowerupRailsDone s
  | .bootBankSelect turnipWithheld withheld => Sys2Proof.Machine.execBootBankSelect turnipWithheld withheld s
  | .turnipRelease => Sys2Proof.Machine.execTurnipRelease s
  | .memoryInitDone test => Sys2Proof.Machine.execMemoryInitDone test s
  | .ftlMountDone ok => Sys2Proof.Machine.execFtlMountDone ok s
  | .moduleReady => Sys2Proof.Machine.execModuleReady s
  | .presenceLoss ns => Sys2Proof.Machine.execPresenceLoss ns s
  | .hotswapIsolate => Sys2Proof.Machine.execHotswapIsolate s
  | .hotswapBleedDone => Sys2Proof.Machine.execHotswapBleedDone s
  | .presenceMake => Sys2Proof.Machine.execPresenceMake s
  | .hotswapChargeStart => Sys2Proof.Machine.execHotswapChargeStart s
  | .hotswapBulkCharged => Sys2Proof.Machine.execHotswapBulkCharged s
  | .cxlLinkTrain speed width flit256 cacheEn vfEnable numVfs => Sys2Proof.Machine.execCxlLinkTrain speed width flit256 cacheEn vfEnable numVfs s
  | .cmdRingEnable fn log2 => Sys2Proof.Machine.execCmdRingEnable fn log2 s
  | .cmdRingDisable fn => Sys2Proof.Machine.execCmdRingDisable fn s
  | .evtRingEnable fn log2 => Sys2Proof.Machine.execEvtRingEnable fn log2 s
  | .evtRingDisable fn => Sys2Proof.Machine.execEvtRingDisable fn s
  | .cmdDoorbell fn tail => Sys2Proof.Machine.execCmdDoorbell fn tail s
  | .cmdUrgDoorbell fn tail => Sys2Proof.Machine.execCmdUrgDoorbell fn tail s
  | .cmdStatusHeadWrite fn head => Sys2Proof.Machine.execCmdStatusHeadWrite fn head s
  | .evtHeadWrite fn head => Sys2Proof.Machine.execEvtHeadWrite fn head s
  | .evtStatusClear fn bits => Sys2Proof.Machine.execEvtStatusClear fn bits s
  | .ringSlotWrite fn off data => Sys2Proof.Machine.execRingSlotWrite fn off data s
  | .tikCountLoRead => Sys2Proof.Machine.execTikCountLoRead s
  | .tikPeriodWrite periodUs => Sys2Proof.Machine.execTikPeriodWrite periodUs s
  | .tikGuardWrite guardUs => Sys2Proof.Machine.execTikGuardWrite guardUs s
  | .tikSyncLostSeenClear => Sys2Proof.Machine.execTikSyncLostSeenClear s
  | .fabReachWrite mode => Sys2Proof.Machine.execFabReachWrite mode s
  | .fabCtrlWrite timeoutUs attempts retainMs notReadyMs => Sys2Proof.Machine.execFabCtrlWrite timeoutUs attempts retainMs notReadyMs s
  | .lnkCtrlWrite laneErrMax => Sys2Proof.Machine.execLnkCtrlWrite laneErrMax s
  | .memWatermarkWrite hbmLow hbmHigh lpLow lpHigh => Sys2Proof.Machine.execMemWatermarkWrite hbmLow hbmHigh lpLow lpHigh s
  | .eccScrubWrite sramS hbmH lpH => Sys2Proof.Machine.execEccScrubWrite sramS hbmH lpH s
  | .pwrGateWrite gateTicks => Sys2Proof.Machine.execPwrGateWrite gateTicks s
  | .capReplayAddrWrite out base => Sys2Proof.Machine.execCapReplayAddrWrite out base s
  | .registerWrite fn bar off width value => Sys2Proof.Machine.execRegisterWrite fn bar off width value s
  | .functionLevelReset fn => Sys2Proof.Machine.execFunctionLevelReset fn s
  | .vfEnableClear => Sys2Proof.Machine.execVfEnableClear s
  | .msixUnmask fn => Sys2Proof.Machine.execMsixUnmask fn s
  | .cxlAtomicOp fn => Sys2Proof.Machine.execCxlAtomicOp fn s
  | .cxlSnoop line => Sys2Proof.Machine.execCxlSnoop line s
  | .hostReadComplete id data => Sys2Proof.Machine.execHostReadComplete id data s
  | .hostReadTimeout id => Sys2Proof.Machine.execHostReadTimeout id s
  | .mergeEntryClose slice line => Sys2Proof.Machine.execMergeEntryClose slice line s
  | .matrixEngineCold pea => Sys2Proof.Machine.execMatrixEngineCold pea s
  | .resetHoldEnd => Sys2Proof.Machine.execResetHoldEnd s
  | .flashDieLoss channel blocks covered => Sys2Proof.Machine.execFlashDieLoss channel blocks covered s
  | .flashChannelRetrain channel => Sys2Proof.Machine.execFlashChannelRetrain channel s
  | .rowRemapCopyDone controller => Sys2Proof.Machine.execRowRemapCopyDone controller s
  | .podUngateDone pod => Sys2Proof.Machine.execPodUngateDone pod s

end Sys2Proof.Machine
end

