-- ==== Sys2Proof/Machine/Step.lean ====
section
/-! DEFINITION. One step of the block: the command at the front of the queue is taken and run. -/

namespace Sys2Proof.Machine

/-- Take the command at the front of the queue and run it with the queue's rest.  DESIGN CHOICE
(log 1): on an empty queue the block idles. -/
def step (s : State) : Host.Outcome State Fault Refusal :=
  match s.pending with
  | [] => .next s
  | c :: rest => exec c { s with pending := rest }

/-- The command `c` put at the front of the queue. -/
def State.push (s : State) (c : Option Instr) : State :=
  match c with
  | none => s
  | some c => { s with pending := c :: s.pending }

/-- The state with the command that a table word spells in front of its queue; no row of the table
has bits, so no word spells a command and the state is unchanged. -/
def State.withFetchWord (s : State) (nbits w : Nat) : State :=
  s.push (Sys2Proof.decodeTableWord nbits w)

end Sys2Proof.Machine
end

