-- ==== Sys2Proof/WellFormed.lean ====
section
/-! DEFINITION. Which commands the manual's formats can express: every operand fits the field, the
register number or the transfer that carries it.  A command that is not well formed is one that no
packet, message or pin can spell; range rules that a packet can break (R8) are not well-formedness,
they are checked when the command is acted on. -/

namespace Sys2Proof

/-! ### Fields and numbers -/

/-- `n` fits a field of `w` bits. -/
def fits (w n : Nat) : Bool := n < 2 ^ w

/-- Every number of a list fits a field of `w` bits. -/
def allFit (w : Nat) (ns : List Nat) : Bool := ns.all (fits w)

/-- The header of a packet (Table 5.3): CTX has 8 bits and SEQ 32. -/
def Hdr.wf (h : Hdr) : Bool := fits 8 h.ctx && fits 32 h.seq

/-- A pea number: 192 peas (R57). -/
def peaWf (p : Nat) : Bool := p < 192

/-- A pod number: 48 pods of four peas (R144). -/
def podWf (p : Nat) : Bool := p < 48

/-- A port number: six ports (R313). -/
def portWf (p : Nat) : Bool := p < 6

/-- A function number: the physical function and 255 virtual ones (R118). -/
def fnWf (f : Nat) : Bool := fits 8 f

/-- A Turnip core: eight of them (R19). -/
def coreWf (c : Nat) : Bool := c < 8

/-- A tenancy number: 48 tenancies (R144). -/
def tenWf (t : Nat) : Bool := t < 48

/-- A sequence number of a management message (R485). -/
def mseqWf (q : Nat) : Bool := fits 32 q

/-- An offset within a tenancy's device-local space (Table 7.5). -/
def devWf (a : Nat) : Bool := fits 45 a

/-! ### Operand blocks -/

/-- Table 4.5. -/
def Recipe.wf (r : Recipe) : Bool :=
  allFit 8 [r.wfmt, r.afmt, r.outBudget, r.outRatio, r.fixedE, r.baseE, r.windowLog2] && allFit 16 [r.satPpm, r.ovfPpm, r.uflPpm]

/-- Table 7.5. -/
def MoveBody.wf (m : MoveBody) : Bool :=
  allFit 8 [m.op, m.order, m.cmp] && fits 16 m.rows && allFit 32 [m.rowBytes, m.srcStride, m.dstStride] && allFit 64 [m.src, m.dst]

/-- Table 3.4: RUN has ten argument words. -/
def DescBody.wf : DescBody → Bool
  | .run prog entry args => fits 32 prog && fits 32 entry && args.length ≤ 10 && allFit 32 args
  | .move m => m.wf
  | .wait addr target => fits 32 addr && fits 32 target
  | .post addr inc => fits 32 addr && fits 32 inc
  | .reserved => true

/-- Table 3.3. -/
def Desc.wf (d : Desc) : Bool := fits 8 d.ctx && fits 32 d.unit && fits 32 d.gateAddr && d.body.wf

/-- R64, R65: a half has 32 entries. -/
def QueueWrite.wf : QueueWrite → Bool
  | .entry index d => index < 32 && d.wf
  | .ready => true
  | .withdraw => true

/-- Table 3.1: 32 scalar and 32 vector registers, the weight and activation buffers. -/
def PeaDst.wf : PeaDst → Bool
  | .scalar r => r < 32
  | .vector r => r < 32
  | .weights off => off < 65536
  | .acts off => off < 32768

/-- Table 4.3, R94: the shape of a matrix instruction. -/
def MatOp.wf (m : MatOp) : Bool := [1, 2, 4, 8, 16].contains m.rowsM && m.cols ≤ 16 && m.k0 < m.k1

/-- Table 2.3. -/
def Tsync.wf (m : Tsync) : Bool :=
  fits 8 m.version && fits 12 m.group && fits 64 m.tick && allFit 16 [m.periodUs, m.nextPeriodUs, m.pathDelayNs] &&
    allFit 8 [m.step, m.nextStep, m.hops] && fits 12 m.rootNode

/-- R39. -/
def Treq.wf (m : Treq) : Bool :=
  fits 8 m.version && fits 12 m.group && fits 64 m.tick && fits 16 m.node && fits 8 m.reqStep && fits 8 m.cause

/-- Table 14.1. -/
def FabPkt.wf (p : FabPkt) : Bool :=
  fits 8 p.type && fits 12 p.src && fits 12 p.dst && fits 16 p.ftid && fits 3 p.cls && fits 3 p.order && fits 2 p.detours &&
    allFit 16 [p.ssn, p.tag, p.len, p.srcEpoch, p.dstEpoch, p.lowTag, p.reqId] && devWf p.offset && fits 8 p.aop && fits 8 p.size

/-- R358. -/
def Notice.wf (n : Notice) : Bool :=
  fits 12 n.origin && fits 16 n.number && fits 8 n.hops &&
    (match n.kind with
     | .fabricReady epoch => fits 16 epoch
     | .leaving => true
     | .linkDown port peer => fits 8 port && fits 16 peer)

/-- Table 12.4. -/
def ExpHdr.wf (h : ExpHdr) : Bool :=
  fits 32 h.layoutId && fits 32 h.round && allFit 16 [h.index, h.count, h.dropped] && fits 8 h.type

/-- Table 12.3. -/
def RowTag.wf (t : RowTag) : Bool :=
  allFit 16 [t.slot, t.gen, t.row, t.source, t.expert] && fits 8 t.rank && fits 8 t.status && fits 32 t.round

/-- Table 15.5. -/
def CollHdr.wf (h : CollHdr) : Bool :=
  fits 32 h.collId && fits 32 h.round && fits 16 h.stage && fits 8 h.sender && fits 24 h.count

/-- Table 10.5. -/
def KvAttach.wf (a : KvAttach) : Bool :=
  allFit 8 [a.pool, a.kfmt, a.h] && allFit 16 [a.d, a.groups, a.layers, a.streams, a.maxBlocks] &&
    allFit 24 [a.tableBase, a.tablePages, a.poolBase, a.poolPages, a.recBase, a.recPages, a.hbmPages, a.lpPages] &&
    a.root.length == 16

/-- Table 10.9: BLOCKS full blocks of 64 tokens of 4 bytes. -/
def PrefixBlk.wf (b : PrefixBlk) : Bool :=
  fits 16 b.stream && fits 16 b.firstBlock && fits 8 b.blocks && b.parent.length == 16 && fits 64 b.outPtr &&
    b.tokens.length == 256 * b.blocks

/-- Table 11.4. -/
def Entry.wf (e : Entry) : Bool :=
  allFit 16 [e.slot, e.gen, e.nodes] && fits 8 e.kind && fits 32 e.token && fits 32 e.promptLen && fits 64 e.dataPtr

/-- Table 11.3. -/
def StepBlk.wf (b : StepBlk) : Bool :=
  fits 8 b.riders && allFit 16 [b.phases, b.resultBytes] && fits 64 b.plan && allFit 32 [b.inSlice, b.inBytes, b.resSlice] &&
    fits 64 b.outPtr && b.args.length ≤ 24 && fits 16 b.entries.length && b.entries.all Entry.wf

/-- Table 12.1. -/
def LayoutBlk.wf (b : LayoutBlk) : Bool :=
  allFit 8 [b.topk, b.self, b.order, b.hdrWait, b.sharedPhases] && allFit 16 [b.layer, b.srcCap, b.rowUnits, b.ansUnits] &&
    fits 32 b.layoutId && fits 32 b.xrec && fits 8 b.sources.length && fits 16 b.experts.length && allFit 12 b.sources &&
    b.experts.all fun e => fits 12 e.1 && fits 10 e.2

/-- Table 12.5. -/
def QueueBlk.wf (b : QueueBlk) : Bool :=
  allFit 16 [b.queue, b.expert, b.unitRows] && allFit 32 [b.layoutId, b.ctrl, b.prog, b.progEntry] && fits 64 b.data &&
    b.args.length ≤ 7 && allFit 32 b.args

/-- Table 15.3. -/
def CollBlk.wf (b : CollBlk) : Bool :=
  allFit 8 [b.kind, b.wire, b.rank, b.order, b.waitTicks] && allFit 32 [b.collId, b.maxCount, b.recv] && allFit 16 [b.queue, b.layer] &&
    fits 8 b.nodes.length && allFit 12 b.nodes

/-- Table 15.8. -/
def ShardBlk.wf (b : ShardBlk) : Bool :=
  fits 8 b.slot && allFit 16 [b.shard, b.upNode, b.queue, b.downQueue] && fits 24 b.basePage && fits 12 b.downNode && fits 8 b.order &&
    fits 64 b.src

/-- Table 6.4. -/
def GrantBlk.wf (g : GrantBlk) : Bool :=
  allFit 16 [g.entry, g.srcNode, g.srcFtid] && allFit 24 [g.basePage, g.pages] && allFit 8 [g.localTen, g.rights]

/-- R390, R407. -/
def Sample.wf (x : Sample) : Bool := allFit 16 [x.milliVolt, x.current10mA] && allFit 8 [x.tj, x.tjSite, x.th, x.thStack]

/-- R340: what a requester asks of the fabric. -/
def FabReq.wf (r : FabReq) : Bool :=
  tenWf r.ten && fits 8 r.ctx && fits 32 r.seq && fits 8 r.type && fits 12 r.node && devWf r.offset && fits 16 r.len && fits 3 r.cls &&
    fits 8 r.aop && fits 8 r.size && fits 16 r.tagQueue && r.payload.length ≤ 256 && r.record.all fun x => peaWf x.1 && fits 29 x.2

/-- A pattern of errors in a line or a unit. -/
def ErrPat.wf (e : ErrPat) : Bool := e.stack ≤ 2 && e.flips.all fun f => f.1 < 72 && fits 13 f.2

/-- Who reads: a pea, a core, or a context for a request. -/
def Reader.wf : Reader → Bool
  | .pea p => peaWf p
  | .moveDesc p => peaWf p
  | .turnipOwn core => coreWf core
  | .turnipFor ctx seq => fits 8 ctx && fits 32 seq
  | .fabricSource p => p.wf
  | .host => true
  | .scrubber => true

/-- R314, Table 13.1. -/
def Flit.wf (f : Flit) : Bool :=
  f.bytes.length = 256 && f.codewords.all (·.all (· < 18))

/-! ### Commands -/

/-- A scrubbed unit's page, where it is a page's: its tenancy and its unit in the range. -/
def ownerWf (u : Nat × Option (Nat × Nat)) : Bool := u.2.all fun o => tenWf o.1 && fits 39 o.2

/-- Chapters 2 and 3: ticks, units, pea instructions. -/
def Instr.wfPea : Instr → Bool
  | .stepOpen ctx seq => fits 8 ctx && fits 32 seq
  | .slotDrain ctx slot => fits 8 ctx && fits 12 slot
  | .ctxCloseComplete ctx => fits 8 ctx
  | .unitCut ctx seq => fits 8 ctx && fits 32 seq
  | .turnipQueueWrite pea w => peaWf pea && w.wf
  | .peaStaggerStart pea => peaWf pea
  | .engineColdStart pea => peaWf pea
  | .workUnitComplete pea => peaWf pea
  | .descRun pea => peaWf pea
  | .move pea => peaWf pea
  | .moveComplete pea => peaWf pea
  | .descWait pea => peaWf pea
  | .descWaitSatisfied pea => peaWf pea
  | .descPost pea => peaWf pea
  | .peaLoad pea addr _ dst => peaWf pea && fits 32 addr && dst.wf
  | .peaStore pea addr _ => peaWf pea && fits 32 addr
  | .sliceAtomic pea addr _ _ _ _ rd => peaWf pea && fits 32 addr && rd < 32
  | .fence pea => peaWf pea
  | .align pea g n => peaWf pea && g < 16 && fits 8 n
  | .alignFail ten g => tenWf ten && g < 16
  | .quant pea vsrc elem side spill => peaWf pea && vsrc < 32 && allFit 32 [elem, side, spill]
  | .matrixInstruction pea m => peaWf pea && m.wf
  | .layer pea n => peaWf pea && fits 10 n
  | .tile pea => peaWf pea
  | .vectorOperation pea _ rd ra rb rc => peaWf pea && [rd, ra, rb, rc].all (· < 32)
  | .topk pea scores e k idxOut scoreOut => peaWf pea && allFit 32 [scores, idxOut, scoreOut] && fits 16 e && fits 8 k
  | .astat pea rec vsrc _ _ vdst sdst => peaWf pea && fits 32 rec && [vsrc, vdst, sdst].all (· < 32)
  | .anorm pea rec vsrc vdst => peaWf pea && fits 32 rec && vsrc < 32 && vdst < 32
  | .arecomp pea rec vsrc _ _ vdst => peaWf pea && fits 32 rec && vsrc < 32 && vdst < 32
  | .fatom pea aop size cls _ _ _ rec => peaWf pea && fits 8 aop && fits 8 size && fits 8 cls && fits 32 rec
  | .collect pea collId inAddr outAddr count rec counter => peaWf pea && allFit 32 [collId, inAddr, outAddr, count, rec, counter]
  | .returnAnswer pea ten queue tagAddr ansAddr => peaWf pea && tenWf ten && fits 10 queue && fits 32 tagAddr && fits 32 ansAddr
  | _ => true

/-- Chapters 12 and 15: expert exchange, collectives, shards. -/
def Instr.wfExchange : Instr → Bool
  | .exchangeRoundStart ctx lay => fits 8 ctx && fits 10 lay
  | .queueHeaderReceive ten queue h => tenWf ten && fits 16 queue && h.wf
  | .queueRowReceive ten queue layoutId pos t _ => tenWf ten && fits 16 queue && fits 32 layoutId && fits 16 pos && t.wf
  | .queueReturnHeaders ten queue => tenWf ten && fits 16 queue
  | .gatherAnswerReceive ctx lay t _ => fits 8 ctx && fits 10 lay && t.wf
  | .gatherReturnHeader ctx lay h => fits 8 ctx && fits 10 lay && h.wf
  | .expertRoundDeadline ctx lay => fits 8 ctx && fits 10 lay
  | .collHeaderReceive ctx h => fits 8 ctx && h.wf
  | .collRoundDeadline ctx collId => fits 8 ctx && fits 32 collId
  | .shardChunkProcess ten slot shard _ _ _ => tenWf ten && slot < 16 && fits 16 shard
  | .shardInstallFinalize ten slot shard => tenWf ten && slot < 16 && fits 16 shard
  | .shardUpstreamTimeout ten slot shard => tenWf ten && slot < 16 && fits 16 shard
  | _ => true

/-- Chapters 7 and 8: tiers and protection. -/
def Instr.wfTiers : Instr → Bool
  | .promotionStart ten page tier => tenWf ten && fits 24 page && 1 ≤ tier && tier ≤ 3
  | .migrationCommit ten page errs => tenWf ten && fits 24 page && errs.all fun e => e.1 < 2 ^ 22 && fits 8 e.2
  | .lpVerifyPass errs => errs.all fun e => tenWf e.1 && fits 24 e.2.1 && fits 21 e.2.2.1 && fits 8 e.2.2.2
  | .sramScrubPass bytes bits => bytes.length == bits.length && bytes.all (· < 192 * 2 ^ 21) && allFit 13 bits
  | .hbmScrubPass units errs _ => units.length == errs.length && errs.all ErrPat.wf && units.all ownerWf
  | .sourceFrameRelease ten page => tenWf ten && fits 24 page
  | .stallLimitExpiry pea => pea ≤ 192
  | .kvFlashDemote ten pool => tenWf ten && pool < 8
  | .scrubForcedGrant slice => slice < 192
  | .lpLinkRetry read _ => read.who.wf
  | .hbmCaParityReissue cmd _ => cmd.who.wf
  | .turnipParityReplay core _ => coreWf core
  | .turnipWatchdogExpiry core => coreWf core
  | .uncorrectableRead _ who _ err => who.wf && err.wf
  | .datapathParityReplay beat source _ => beat.who.wf && source ≤ 6
  | .flashStateChange _ channel => fits 8 channel
  | .flashDieLoss channel _ _ => fits 8 channel
  | .flashChannelRetrain channel => fits 8 channel
  | .rowRemapCopyDone controller => controller < 24
  | .mergeEntryClose slice line => slice < 192 && line < 32768
  | .matrixEngineCold pea => peaWf pea
  | .podUngateDone pod => podWf pod
  | .podGate pod => podWf pod
  | _ => true

/-- Chapter 5 and the opcodes of chapters 4, 6, 18: general and administration opcodes. -/
def Instr.wfAdmin : Instr → Bool
  | .nop h => h.wf
  | .identify h outPtr => h.wf && fits 64 outPtr
  | .countersRead h set target first layers outPtr => h.wf && fits 8 set && fits 8 target && fits 16 first && fits 16 layers && fits 64 outPtr
  | .planLoad h planPtr planLen => h.wf && fits 64 planPtr && fits 32 planLen
  | .planClear h => h.wf
  | .fwBankBegin h length => h.wf && fits 32 length
  | .fwBankData h len dataPtr offset => h.wf && fits 32 len && fits 64 dataPtr && fits 32 offset
  | .fwBankAbandon h => h.wf
  | .fwBankCommit h => h.wf
  | .attest h nonce outPtr => h.wf && nonce.length == 32 && fits 64 outPtr
  | .setGuard h guardUs => h.wf && fits 8 guardUs
  | .tenCreate h ten keys ftid => h.wf && fits 8 ten && fits 8 keys && fits 16 ftid
  | .tenRebind h src dst pods keys slices => h.wf && fits 8 src && fits 8 dst && fits 48 pods && fits 64 keys && fits 184 slices
  | .rebindFlashClearDone seq => fits 32 seq
  | .rebindCryptoEraseDone seq => fits 32 seq
  | .rebindResetDone seq => fits 32 seq
  | .tenDestroy h ten => h.wf && fits 8 ten
  | .ctxOpen h c ten _ key => h.wf && fits 8 c && fits 8 ten && fits 8 key
  | .ctxClose h c => h.wf && fits 8 c
  | .grantSet h g => h.wf && g.wf
  | .ctxSched h c share => h.wf && fits 8 c && fits 8 share
  | .recipeSet h lay _ r => h.wf && fits 16 lay && r.wf
  | .recipeGet h lay outPtr => h.wf && fits 16 lay && fits 64 outPtr
  | .cmpTableLoad h gen tablePtr => h.wf && fits 8 gen && fits 64 tablePtr
  | .cmpTableStandard h => h.wf
  | .cmpTableHold h gen => h.wf && fits 8 gen
  | .cmpTableUnhold h gen => h.wf && fits 8 gen
  | .cmpTableStatus h outPtr => h.wf && fits 64 outPtr
  | .capSet h capW => h.wf && fits 16 capW
  | .stepLimit h step => h.wf && fits 8 step
  | .energyRead h scope target outPtr => h.wf && fits 8 scope && fits 8 target && fits 64 outPtr
  | .captureStart h _ _ linkGb triggers postTicks => h.wf && fits 8 linkGb && fits 16 triggers && fits 32 postTicks
  | .captureStop h _ _ atTick => h.wf && fits 64 atTick
  | .captureExport h outPtr offset length => h.wf && allFit 64 [outPtr, offset, length]
  | .abort h target => h.wf && fits 32 target
  | .cancel h slot gen _ => h.wf && fits 16 slot && fits 16 gen
  | _ => true

/-- Chapters 7, 10 to 12, 15: the opcodes of serving, tiers, groups and shards. -/
def Instr.wfServing : Instr → Bool
  | .kvTableAttach h a => h.wf && a.wf
  | .kvTableDetach h => h.wf
  | .kvTableStatus h outPtr => h.wf && fits 64 outPtr
  | .kvMapCopy h ss sb ds db n => h.wf && allFit 16 [ss, sb, ds, db, n]
  | .kvMapMove h ss sb ds db n => h.wf && allFit 16 [ss, sb, ds, db, n]
  | .kvUnmap h stream length => h.wf && fits 16 stream && fits 32 length
  | .prefixInsert h b => h.wf && b.wf
  | .prefixLookup h b => h.wf && b.wf
  | .prefixDrop h _ hash => h.wf && hash.length == 16
  | .kvPin h stream first blocks _ => h.wf && allFit 16 [stream, first, blocks]
  | .stepSubmit h b => h.wf && b.wf
  | .slotAlloc h slot stream => h.wf && fits 16 slot && fits 16 stream
  | .slotRelease h slot gen _ => h.wf && fits 16 slot && fits 16 gen
  | .prefillRatio h chunk ratio floor _ => h.wf && fits 16 chunk && fits 8 ratio && fits 16 floor
  | .expLayoutInstall h b => h.wf && b.wf
  | .expLayoutRemove h lay => h.wf && fits 16 lay
  | .expQueuePost h b => h.wf && b.wf
  | .expQueueUnpost h queue => h.wf && fits 16 queue
  | .expShared h lay order _ podMask => h.wf && fits 16 lay && fits 8 order && fits 48 podMask
  | .memAlloc h base pages key => h.wf && fits 24 base && fits 24 pages && fits 8 key
  | .memFree h base pages => h.wf && fits 24 base && fits 24 pages
  | .memPin h base pages tier => h.wf && fits 24 base && fits 24 pages && fits 8 tier
  | .memDemote h base pages tier => h.wf && fits 24 base && fits 24 pages && fits 8 tier
  | .memPrefetch h base pages => h.wf && fits 24 base && fits 24 pages
  | .migratePolicy h _ _ stallLimitMs _ => h.wf && fits 16 stallLimitMs
  | .groupJoin h group rootNode planId members => h.wf && fits 12 group && fits 12 rootNode && fits 64 planId && allFit 12 members
  | .groupLeave h => h.wf
  | .collSetup h b => h.wf && b.wf
  | .collRemove h collId => h.wf && fits 32 collId
  | .portReset h ports => h.wf && fits 8 ports
  | .remapAccept h port node peerPort serial => h.wf && fits 8 port && fits 16 node && fits 8 peerPort && fits 64 serial
  | .manifestLoad h slot manPtr manLen keyDigest => h.wf && fits 8 slot && fits 64 manPtr && fits 32 manLen && keyDigest.length == 32
  | .manifestCheckDone ten slot => tenWf ten && slot < 16
  | .manifestUnload h slot => h.wf && fits 8 slot
  | .shardInstall h b => h.wf && b.wf
  | .shardRemove h slot shard => h.wf && fits 8 slot && fits 16 shard
  | .shardVerify h slot shard => h.wf && fits 8 slot && fits 16 shard
  | .verifyInterval h hours => h.wf && fits 16 hours
  | .replayBoundary _ _ diverge => diverge ≤ 7
  | _ => true

/-- Chapters 2, 13, 14, 16: tick messages, fabric, links, power. -/
def Instr.wfFabric : Instr → Bool
  | .tsyncReceive port m => portWf port && m.wf
  | .treqReceive port m => portWf port && m.wf
  | .portDelayMeasure port ns => portWf port && fits 16 ns
  | .fabricRequestIssue r => r.wf
  | .fabricPacketForward p => p.wf
  | .fabricRequestReceive p => p.wf
  | .fabricCompletionReceive p => p.wf
  | .fabricTimeout reqId => fits 16 reqId
  | .fabricHoldSend src reqId => fits 12 src && fits 16 reqId
  | .fabricHoldReceive reqId => fits 16 reqId
  | .fabricNotReadyRetry reqId => fits 16 reqId
  | .fabricNotReadyExpiry reqId => fits 16 reqId
  | .replayEntryAge src tag => fits 12 src && fits 16 tag
  | .noticeReceive port n => portWf port && n.wf
  | .linkFlitReceive port f => portWf port && f.wf
  | .linkReplayTimeout port => portWf port
  | .linkDetectStart port => portWf port
  | .linkPartnerDetect port => portWf port
  | .linkEqualizeDone port lanes failed => portWf port && lanes ≤ 16 && fits 18 failed
  | .linkIdentityReceive port block => portWf port && block.length = 64
  | .linkIdentifyTimeout port => portWf port
  | .linkRetryTimer port => portWf port
  | .linkNoticeReceive port _ => portWf port
  | .linkLaneFail port lane => portWf port && lane < 18
  | .linkLaneSubstitute port logical spare => portWf port && logical < 16 && spare < 19
  | .linkWidthRelockDone port => portWf port
  | .linkLockLoss port => portWf port
  | .telemetrySample x => x.wf
  | .supplyShutdown cause => 1 ≤ cause && cause ≤ 3
  | _ => true

/-- Chapter 20: the management port. -/
def Instr.wfI3c : Instr → Bool
  | .i3cLease mseq ceilingW leaseSeq => mseqWf mseq && fits 16 ceilingW && fits 16 leaseSeq
  | .i3cResetCold mseq _ => mseqWf mseq
  | .i3cResetWarm mseq => mseqWf mseq
  | .i3cNode mseq node => mseqWf mseq && fits 16 node
  | .i3cCoolant mseq tenthsC flow => mseqWf mseq && decide (-32768 ≤ tenthsC ∧ tenthsC < 32768) && fits 16 flow
  | .i3cAlarm mseq state => mseqWf mseq && fits 8 state
  | .i3cPlanBlock mseq offset _ data => mseqWf mseq && fits 32 offset && data.length ≤ 1024
  | .i3cFwBlockBegin mseq length => mseqWf mseq && fits 32 length
  | .i3cFwBlockData mseq offset data => mseqWf mseq && fits 32 offset && data.length ≤ 1024
  | .i3cFwBlockAbandon mseq => mseqWf mseq
  | .i3cFwBlockCommit mseq => mseqWf mseq
  | .i3cRecovery mseq op arg data => mseqWf mseq && fits 8 op && fits 32 arg && data.length ≤ 1024
  | .i3cEnec events => fits 8 events
  | .i3cDisec events => fits 8 events
  | .i3cEntdaa addr => fits 7 addr
  | .i3cSetdasa addr => fits 7 addr
  | .i3cSetnewda addr => fits 7 addr
  | .i3cSetmwl len => fits 16 len
  | .i3cSetmrl len => fits 16 len
  | .i3cRstact defining => fits 8 defining
  | _ => true

/-- Chapters 5, 17, 18: registers, rings and the host port. -/
def Instr.wfHost : Instr → Bool
  | .bootBankSelect turnip withheld => turnip ≤ 8 && withheld.all peaWf
  | .cxlLinkTrain speed width _ _ _ numVfs => fits 4 speed && fits 4 width && fits 8 numVfs
  | .cmdRingEnable fn log2 => fnWf fn && fits 5 log2
  | .cmdRingDisable fn => fnWf fn
  | .evtRingEnable fn log2 => fnWf fn && fits 5 log2
  | .evtRingDisable fn => fnWf fn
  | .cmdDoorbell fn tail => fnWf fn && fits 32 tail
  | .cmdUrgDoorbell fn tail => fnWf fn && fits 32 tail
  | .cmdStatusHeadWrite fn head => fnWf fn && fits 32 head
  | .evtHeadWrite fn head => fnWf fn && fits 32 head
  | .evtStatusClear fn _ => fnWf fn
  | .ringSlotWrite fn off data => fnWf fn && 0x4000 ≤ off && off + data.length ≤ 0x8400
  | .tikPeriodWrite periodUs => fits 10 periodUs
  | .tikGuardWrite guardUs => fits 6 guardUs
  | .fabCtrlWrite timeoutUs attempts retainMs notReadyMs => fits 13 timeoutUs && fits 4 attempts && fits 8 retainMs && fits 14 notReadyMs
  | .lnkCtrlWrite laneErrMax => fits 16 laneErrMax
  | .memWatermarkWrite hbmLow hbmHigh lpLow lpHigh => allFit 16 [hbmLow, hbmHigh, lpLow, lpHigh]
  | .eccScrubWrite sramS hbmH lpH => allFit 8 [sramS, hbmH, lpH]
  | .pwrGateWrite gateTicks => fits 10 gateTicks
  | .capReplayAddrWrite _ base => fits 52 base
  | .registerWrite fn bar off width value => fnWf fn && bar < 6 && fits 48 off && width ≤ 64 && fits (8 * width) value
  | .functionLevelReset fn => fnWf fn
  | .msixUnmask fn => fnWf fn
  | .cxlAtomicOp fn => fnWf fn
  | .mergeEntryClose slice line => slice < 192 && line < 32768
  | _ => true

/-- A well-formed command: each of its operands fits what carries it.  Commands without operands, and
operands that the world outside gives without a format (times, located errors), are always well formed. -/
def Instr.wf (i : Instr) : Bool :=
  i.wfPea && i.wfExchange && i.wfTiers && i.wfAdmin && i.wfServing && i.wfFabric && i.wfI3c && i.wfHost

end Sys2Proof
end

