-- ==== Sys2Proof/Safety.lean ====
section
/-! DEFINITION. The terms in which claims about the machine are made: the canonical form of every memory, what no
command undoes, the parts of the state that writing to the host changes, and when a packet is acted on.  No command
faults, so a run is safe when it keeps these. -/

namespace Sys2Proof.Machine

/-! ### Memory -/

/-- The canonical form of the memories of a pea: keys strictly rising, no entry equal to what an unlisted key reads. -/
def peaMemWf (a : Pea) : Bool :=
  smWf a.scalar && smWf a.vector && smWf a.acc && smWf a.weights && smWf a.acts && smWf a.prog

/-- The canonical form of the ring slots of a function. -/
def fnMemWf (f : Fn) : Bool := smWf f.cmdSlots && smWf f.urgSlots

/-- Every memory of the machine is in its canonical form, so that equal memories are equal data. -/
def Memory.wf (m : Mach) : Bool :=
  smWf m.mem.sliceMem && smWf m.mem.sliceErr && smWf m.mem.dev && smWf m.mem.devErr && m.peas.all peaMemWf && m.fns.all fnMemWf

/-! ### What no command undoes -/

/-- From `a` to `b` nothing is undone: the flash tier is no better (R190), no block returned to service (R189), no
signature leaf given back (R455), no key or epoch drawn twice (R148, R355), and the module slot's keys stand. -/
structure Onward (a b : Nv) : Prop where
  flash : flashRank a.flash.state ≤ flashRank b.flash.state
  retired : ∀ k ∈ a.flash.retiredBlocks, k ∈ b.flash.retiredBlocks
  leaves : a.leaves ≤ b.leaves
  keys : a.keyDraws ≤ b.keyDraws
  epochs : a.epochDraws ≤ b.epochDraws
  slot : b.moduleSlot = a.moduleSlot

/-! ### What writing to the host changes -/

/-- A function apart from its replies, event records, ignored items and interrupts. -/
def quietFn (f : Fn) : Fn :=
  { f with statusWritten := 0, evtTail := 0, evtLost := 0, evtStatus := 0, lostSince := 0, lostFirstTick := 0, lostAt := none
           irqAt := none, sumAt := none, ignCount := 0, ignFirstSeq := 0, ignFirstReason := 0, ignFirstOpcode := 0
           ignReasons := 0, ignOrd := 0, msixPending := false, irqWant := false, finals := [] }

/-- A context apart from its lost and due records. -/
def quietCtx (x : Ctx) : Ctx := { x with evtLost := 0, genDropTick := [], discAt := none }

/-- A port apart from its due records. -/
def quietPort (x : Port) : Port := { x with causes := 0, changed := false, notes := [], shown := ({} : Port).shown }

/-- The machine apart from what the writing of replies, records and interrupts changes, a capture's trigger among
it: two machines equal here differ in nothing else. -/
def quiet (m : Mach) : Mach :=
  { m with
    fns := m.fns.map quietFn
    ctxs := m.ctxs.map quietCtx
    link := { m.link with ports := m.link.ports.map quietPort }
    mem := { m.mem with precFlags := 0 }
    pwr := { m.pwr with powerCause := 0, thermalCause := 0 }
    cap := { m.cap with state := 0, triggerTick := 0, triggerBit := 0, postLeft := 0, fired := 0 }
    host := { m.host with dropped := 0 }
    lat := { m.lat with missing := [] }
    evq := []
    out := [] }

/-! ### Packets -/

/-- The packet is served at once, passes every check of Table 5.10, is of the mode (R129, R145), and its reply reaches
the host: no removal (R433), no replay (R472), and no request of its number is still owed. -/
structure Acts (p : Packet) (s : State) : Prop where
  serve : canServe s.m p = true
  room : hasRoom s.m p.hdr.ctx p.info.urgent (p.extra s.m) = true
  checks : firstFail s.nv (passPacket p.hdr.ctx p.info.urgent s.m) p = none
  mode : turnedAway s.m p = none
  fresh : findReq s.m p.hdr.ctx p.info.urgent p.hdr.seq = none
  stays : s.m.life.removal = false
  live : s.m.life.replay = false
  port : s.m.host.stopped = false

/-- The machine in which a packet is acted on: its ring has passed it, the number it carried is the last accepted, and
its reply is owed. -/
def taken (p : Packet) (s : State) : Mach := accept p (passPacket p.hdr.ctx p.info.urgent s.m)

/-- The requests owed once the packet has been answered: those owed before it. -/
def owedAfter (p : Packet) (s : State) : List Req := s.m.reqs.filter fun r => !isReq p.hdr.ctx p.info.urgent p.hdr.seq r

/-- Table 5.5: the reply of a packet, in its place of the status ring. -/
def replyTo (p : Packet) (s : State) (st : Status) (detail : Nat) : Out :=
  let f := fnOf s.m p.hdr.ctx
  .hostWrite (f.statusBase * 4096 + 16 * (f.statusWritten % 2 ^ f.statusLog2))
    (le 4 p.hdr.seq ++ le 4 detail ++ le 6 s.m.tick.count ++ le 1 (statusCode st) ++
      le 1 (ownBit f.statusWritten (2 ^ f.statusLog2) + 2 * bit p.info.urgent))

/-- The module has sent the given results and then the packet's reply, before anything else. -/
def Replied (p : Packet) (s t : State) (st : Status) (detail : Nat) (results : List Out) : Prop :=
  ∃ post, t.m.out = s.m.out ++ results ++ replyTo p s st detail :: post

/-- A packet answered at once: a next state in which nothing has changed but by its effect `f` and by the writing of
replies, records and interrupts, with the given results and reply. -/
def Answers (p : Packet) (s : State) (o : Host.Outcome State Fault Refusal) (f : Mach → Mach) (st : Status) (detail : Nat)
    (results : List Out) : Prop :=
  ∃ t, o = .next t ∧ t.pending = s.pending ∧ t.nv = s.nv ∧ quiet t.m = quiet { f (taken p s) with reqs := owedAfter p s } ∧
    Replied p s t st detail results

/-- The state after a packet has been acted on: what no reset clears and the machine as its effect left them, and then
what is due written to the host. -/
def acted (s : State) (x : Nv × Mach) : State := { s with nv := x.1, m := endWrites x.2 }

/-- The state after a packet acted on with an effect and its reply at once. -/
def replied (p : Packet) (s : State) (st : Status) (detail : Nat) (x : Nv × Mach) : State :=
  acted s (x.1, finaliseReq p.hdr.ctx p.info.urgent p.hdr.seq st detail x.2)

/-- The state with its machine part changed: the waiting commands and what no reset clears are as they were. -/
abbrev withM (s : State) (m : Mach) : State := { s with m := m }

/-! ### Register writes -/

/-- R120, R423, R431, R494: a write of the function's registers lands: the host reaches the function, and the module
runs and is past BOOT. -/
structure Lands (fn : Nat) (s : State) : Prop where
  reach : reachable s.m fn = true
  up : isUp s.m = true
  mode : s.m.life.mode ≠ .boot

/-- The state after a write of class `cls` that landed has been acted on with the effect `f`. -/
def wrote (s : State) (cls : Nat) (w : RegWrite) (f : Mach → Mach) : State := withM s (endWrites (f (captureWrite cls w s.m)))

/-! ### A boundary with nothing to act on -/

/-- R42, R43: a running module of which a boundary finds nothing to act on: its tick runs, nothing is latched, no message,
write or packet waits, no request is owed, no unit runs, no step or rebind is under way, and no tier is short of frames. -/
structure Idle (m : Mach) : Prop where
  up : m.life.run = .up
  started : m.tick.started = true
  runs : turnipRuns m = true
  mode : m.life.mode ≠ .boot
  stays : m.life.removal = false
  seated : m.life.presenceLatched = false
  halts : m.life.haltLatched = []
  cap : m.cap.state = 0
  shut : m.pwr.shutLatched = false
  clamps : m.pwr.clamps = []
  join : m.tick.join = none
  sync : m.tick.lossLatched = false
  peas : ∀ a ∈ m.peas, a.active = none
  reqs : m.reqs = []
  steps : m.stp.steps = []
  ctxs : ∀ x ∈ m.ctxs, x.layouts = [] ∧ x.layers = [] ∧ x.cmpPending = none ∧ (∀ b ∈ x.slots, b.draining = false) ∧
    isPrevious x x.bankA = false ∧ isPrevious x x.bankB = false ∧ x.closing = none ∧ ∀ k ∈ x.colls, k.isOpen = false
  tens : ∀ x ∈ m.ten.tens, x.queues = [] ∧ x.shards = [] ∧ x.pools = [] ∧ x.manifests = []
  rebinds : m.ten.rebinds = []
  nodes : m.fab.lossLatched = []
  lat : m.lat = {}
  tray : m.i3c.queue = []
  writes : m.host.writes = []
  rings : ∀ f ∈ m.fns, f.head = f.tail ∧ f.urgHead = f.urgTail ∧ f.checked = [] ∧ f.urgChecked = [] ∧ f.flrLatched = false
  plans : m.link.planLoads = []
  ready : m.life.stage = 7 → m.life.mode ≠ .mgmt
  fabric : m.fab.node = none ∨ m.fab.ready = true
  hbm : m.mem.hbmLowering = false ∧ m.mem.hbmLow ≤ freeFrames m .hbm
  lp : m.mem.lpLowering = false ∧ m.mem.lpLow ≤ freeFrames m .lp
  flash : m.chan.inPlace = 0 ∧ m.chan.readsInPlace = 0

/-- R32, R37, R48: a boundary has fired and changed nothing else that a program meets: one tick more is counted, the period that
was in force has passed, and peas, tenancies, stored data and what no reset clears are as they were. -/
structure Passed (s t : State) : Prop where
  pending : t.pending = s.pending
  nv : t.nv = s.nv
  count : t.m.tick.count = s.m.tick.count + 1
  time : t.m.tick.nowUs = s.m.tick.nowUs + s.m.tick.inForce
  peas : t.m.peas = s.m.peas
  ten : t.m.ten = s.m.ten
  reqs : t.m.reqs = []
  dev : t.m.mem.dev = s.m.mem.dev ∧ t.m.mem.devErr = s.m.mem.devErr
  slices : t.m.mem.sliceMem = s.m.mem.sliceMem ∧ t.m.mem.sliceErr = s.m.mem.sliceErr

/-! ### Frames -/

/-- Two machines with the same rings, requests, contexts, tenancies and stored data. -/
structure SameWork (a b : Mach) : Prop where
  fns : b.fns = a.fns
  reqs : b.reqs = a.reqs
  ctxs : b.ctxs = a.ctxs
  ten : b.ten = a.ten
  mem : b.mem = a.mem

/-- Two machines with the same peas, steps, lifecycle and host port. -/
structure SameCore (a b : Mach) : Prop where
  peas : b.peas = a.peas
  stp : b.stp = a.stp
  life : b.life = a.life
  host : b.host = a.host

/-- Two machines with the same tick, links, fabric and management port. -/
structure SameNet (a b : Mach) : Prop where
  tick : b.tick = a.tick
  link : b.link = a.link
  fab : b.fab = a.fab
  i3c : b.i3c = a.i3c

/-- What a command of a unit leaves as it was in the other units. -/
def KeepsApart (c : Instr) (s t : State) : Prop :=
  match c with
  | .telemetrySample _ | .clampEnd | .stepWalkIndex | .podUngateDone _ =>
    t.nv = s.nv ∧ SameWork s.m t.m ∧ SameNet s.m t.m ∧ t.m.life = s.m.life ∧ t.m.host = s.m.host ∧ t.m.lat = s.m.lat ∧
      t.m.ecc = s.m.ecc ∧ t.m.out = s.m.out
  | .thermalShutdown => t.nv = s.nv ∧ SameWork s.m t.m ∧ SameNet s.m t.m ∧ SameCore s.m t.m ∧ t.m.lat = s.m.lat
  | .linkDetectStart p | .linkPartnerDetect p | .linkIdentityReceive p _ | .linkIdentifyTimeout p | .linkRetryTimer p
  | .linkLaneFail p _ | .linkLaneSubstitute p _ _ | .linkWidthRelockDone p | .linkLockLoss p =>
    t.nv = s.nv ∧ SameWork s.m t.m ∧ SameCore s.m t.m ∧ t.m.tick = s.m.tick ∧ t.m.i3c = s.m.i3c ∧ t.m.pwr = s.m.pwr ∧
      ∀ q, q ≠ p → (portOf t.m q).state = (portOf s.m q).state ∧ (portOf t.m q).peer = (portOf s.m q).peer ∧
        (portOf t.m q).rxNext = (portOf s.m q).rxNext
  | .rootTsyncLaunch | .tsyncReceive _ _ | .treqReceive _ _ =>
    t.nv = s.nv ∧ SameWork s.m t.m ∧ t.m.life = s.m.life ∧ t.m.host = s.m.host ∧ t.m.lat = s.m.lat ∧ t.m.ecc = s.m.ecc ∧
      t.m.i3c = s.m.i3c
  | .flashFreeBlockCollect _ | .flashProgramFail _ | .flashReadDisturbRelocate _ | .flashRetentionScan _ _ =>
    t.nv = { s.nv with flash := t.nv.flash } ∧ t.m = { s.m with flashTick := t.m.flashTick }
  | .flashChannelRetrain _ => t.nv = s.nv ∧ t.m = { s.m with chan := t.m.chan }
  | .vectorOperation p _ _ _ _ _ | .matrixInstruction p _ | .quant p _ _ _ _ =>
    t.nv = s.nv ∧ SameNet s.m t.m ∧ t.m.fns = s.m.fns ∧ t.m.reqs = s.m.reqs ∧ t.m.ten = s.m.ten ∧ t.m.life = s.m.life ∧
      t.m.host = s.m.host ∧ t.m.out = s.m.out ∧ t.m.mem.sliceMem = s.m.mem.sliceMem ∧ t.m.mem.dev = s.m.mem.dev ∧
      ∀ q, q ≠ p → peaOf t.m q = peaOf s.m q
  | .functionLevelReset _ | .vfEnableClear | .cxlLinkTrain .. =>
    t.nv = s.nv ∧ SameNet s.m t.m ∧ t.m.ctxs = s.m.ctxs ∧ t.m.ten = s.m.ten ∧ t.m.mem = s.m.mem ∧ t.m.peas = s.m.peas ∧
      t.m.stp = s.m.stp ∧ t.m.pwr = s.m.pwr ∧ t.m.life = s.m.life ∧ t.m.cap = s.m.cap ∧ t.m.lat = s.m.lat ∧ t.m.out = s.m.out
  | .resetInputRelease | .resetHoldEnd | .warmResetResume | .powerupRailsDone | .turnipRelease | .presenceMake | .hotswapIsolate
  | .hotswapBleedDone | .hotswapChargeStart | .hotswapBulkCharged | .ftlMountDone _ =>
    t.nv = s.nv ∧ SameWork s.m t.m ∧ t.m.peas = s.m.peas ∧ t.m.stp = s.m.stp ∧ t.m.link = s.m.link ∧ t.m.fab = s.m.fab ∧
      t.m.pwr = s.m.pwr ∧ t.m.ecc = s.m.ecc
  | .memoryInitDone _ => SameWork s.m t.m ∧ SameNet s.m t.m ∧ t.m.peas = s.m.peas ∧ t.m.stp = s.m.stp
  | .align .. | .alignFail .. | .workUnitComplete _ | .peaLoad .. =>
    t.nv = s.nv ∧ t.m.fns = s.m.fns ∧ t.m.reqs = s.m.reqs ∧ t.m.tick = s.m.tick ∧ t.m.life = s.m.life ∧ t.m.host = s.m.host ∧
      t.m.i3c = s.m.i3c ∧ t.m.pwr = s.m.pwr
  | .turnipWatchdogExpiry _ | .turnipParityReplay _ _ =>
    t.nv = s.nv ∧ SameWork s.m t.m ∧ SameNet s.m t.m ∧ t.m.peas = s.m.peas ∧ t.m.stp = s.m.stp ∧ t.m.pwr = s.m.pwr
  | .sramScrubPass _ _ | .hbmScrubPass _ _ _ =>
    t.m.fns = s.m.fns ∧ t.m.reqs = s.m.reqs ∧ t.m.ctxs = s.m.ctxs ∧ t.m.ten = s.m.ten ∧ SameCore s.m t.m ∧ SameNet s.m t.m ∧
      t.m.pwr = s.m.pwr ∧ t.nv.flash = s.nv.flash ∧ t.m.mem.sliceMem = s.m.mem.sliceMem ∧ t.m.mem.dev = s.m.mem.dev
  | _ => True

/-! ### What commands bring into being -/

/-- R238: the table that an ATTACH names, empty. -/
def attachedTable (a : KvAttach) : KvTable :=
  { pool := a.pool, streams := a.streams, maxBlocks := a.maxBlocks, base := a.tableBase, pages := a.tablePages }

end Sys2Proof.Machine
end

