-- ==== Sys2Proof/Certificates/Slice0/Obligations.lean ====
section
/-! DEFINITION. The statements for the provers, each a proposition about the machine for the rules it names. -/

open Sys2Proof Sys2Proof.Machine

/-! ### Host opcodes -/

/-- R49, R109, R110, R114, R141, R142, R454: the general opcodes, acted on: each changes what its table names and nothing
else, writes its block where the packet says, and replies OK.
A row stands for a packet acted on at the boundary last fired (log 33). -/
def Obligations.GeneralOpcodesAnswer : Prop :=
  (∀ s h, Acts (pktNop h) s → Answers (pktNop h) s (exec (.nop h) s) id .ok 0 []) ∧
  (∀ s h out, Acts (pktIdentify h out) s →
    Answers (pktIdentify h out) s (exec (.identify h out) s) id .ok 128 [.hostWrite out (identityRecord s.nv s.m)]) ∧
  (∀ s h target out, Acts (pktCountersRead h 0 target 0 0 out) s →
    Answers (pktCountersRead h 0 target 0 0 out) s (exec (.countersRead h 0 target 0 0 out) s) id .ok 64
      [.hostWrite out (ctxBlock s.m target)]) ∧
  (∀ s h target first layers out, Acts (pktCountersRead h 1 target first layers out) s →
    Answers (pktCountersRead h 1 target first layers out) s (exec (.countersRead h 1 target first layers out) s) id .ok (32 * layers)
      [.hostWrite out ((List.range layers).flatMap fun i => layerBlock (ctxOf s.m target) (first + i))]) ∧
  (∀ s h g, Acts (pktSetGuard h g) s →
    Answers (pktSetGuard h g) s (exec (.setGuard h g) s) (modCtx h.ctx fun x => { x with guardUs := g }) .ok 0 []) ∧
  (∀ s h layer expert r, Acts (pktRecipeSet h layer expert r) s →
    Answers (pktRecipeSet h layer expert r) s (exec (.recipeSet h layer expert r) s)
      (fun m => modCtx h.ctx (fun x =>
        { x with recipes := alSet layer (if expert then r else { wfmt := r.wfmt, afmt := r.afmt, ref := r.ref }) x.recipes })
        (closeWindow h.ctx layer m)) .ok 0 []) ∧
  (∀ s h layer out r, Acts (pktRecipeGet h layer out) s → alGet layer (ctxOf s.m h.ctx).recipes = some r →
    Answers (pktRecipeGet h layer out) s (exec (.recipeGet h layer out) s) id .ok 1 [.hostWrite out (recipeBytes r)]) ∧
  (∀ s h layer out, Acts (pktRecipeGet h layer out) s → alGet layer (ctxOf s.m h.ctx).recipes = none →
    Answers (pktRecipeGet h layer out) s (exec (.recipeGet h layer out) s) id .ok 0 [.hostWrite out (zeros 16)])

/-- R394, R395, R400, R414: the power opcodes, acted on: the cap or the step limit takes the value given, a change of
what bounds the module is noted for the next POWER event, and the reply carries the limit in force or the step.
A row stands for a packet acted on at the boundary last fired (log 33). -/
def Obligations.PowerOpcodesAnswer : Prop :=
  (∀ s h w, Acts (pktCapSet h w) s →
    Answers (pktCapSet h w) s (exec (.capSet h w) s) (modPwr fun p => { p with capW := w }) .ok
      (limitW { s.m.pwr with capW := w }) []) ∧
  (∀ s h step, Acts (pktStepLimit h step) s →
    Answers (pktStepLimit h step) s (exec (.stepLimit h step) s) (modPwr fun p => { p with stepLimit := step }) .ok step []) ∧
  (∀ s h scope target out, Acts (pktEnergyRead h scope target out) s →
    Answers (pktEnergyRead h scope target out) s (exec (.energyRead h scope target out) s) id .ok 64
      [.hostWrite out (energyOut s.m.pwr scope target)])

/-- R155, R159, R166: creating tenancies, opening contexts, their shares and the grants.
A row stands for a packet acted on at the boundary last fired (log 33); keys are draws (log 8). -/
def Obligations.TenancyOpcodesAnswer : Prop :=
  (∀ s h t keys ftid, Acts (pktTenCreate h t keys ftid) s → keys ≤ (freeKeySlots s.m).length →
    exec (.tenCreate h t keys ftid) s = .next (replied (pktTenCreate h t keys ftid) s .ok 0
      (let slots := (freeKeySlots s.m).take keys
       let r := drawKeys slots s.nv (taken (pktTenCreate h t keys ftid) s)
       (r.1, tenancyDone 1 h.seq t 0xFF 0 0 0
         (modPwr (fun x => { x with calTen := alDel t x.calTen
                                    calClosed := x.calClosed.map fun y => if y.2.1 = t then (y.1, 48, y.2.2) else y })
           (modTen t (fun _ => { live := true, ftid, keys := slots.map fun i => { slot := i } }) r.2)))))) ∧
  (∀ s h t keys ftid, Acts (pktTenCreate h t keys ftid) s → (freeKeySlots s.m).length < keys →
    Answers (pktTenCreate h t keys ftid) s (exec (.tenCreate h t keys ftid) s) id .noSpace 1 []) ∧
  (∀ s h c t expert key, Acts (pktCtxOpen h c t expert key) s →
    Answers (pktCtxOpen h c t expert key) s (exec (.ctxOpen h c t expert key) s)
      (fun m => modCtx c (fun _ => { isOpen := true, ten := t, expert, key, openTick := s.m.tick.count })
        (modPwr (fun x => { x with calCtx := alDel c x.calCtx }) m)) .ok 0 []) ∧
  (∀ s h c share, Acts (pktCtxSched h c share) s →
    Answers (pktCtxSched h c share) s (exec (.ctxSched h c share) s)
      (modCtx c fun x => { x with share := if share = 0 then 16 else share }) .ok 0 []) ∧
  (∀ s h g, Acts (pktGrantSet h g) s →
    Answers (pktGrantSet h g) s (exec (.grantSet h g) s)
      (fun m => { m with ten := { m.ten with grants :=
        (if g.valid then [g] else []) ++ m.ten.grants.filter fun x => x.entry != g.entry } }) .ok 0 [])

/-- R158, R160, R164, R156: TEN_REBIND, TEN_DESTROY and CTX_CLOSE complete, acted on: the rebind joins the pending ones with its
pods and slices marked and the units cut for them withdrawn, those running and all stored data left alone; a destroyed tenancy gives
up all it has; or the context closes, its packets not yet acted on finalised CANCELLED; the reply is owed until they end.
A row stands for a packet acted on at the boundary last fired (log 33). -/
def Obligations.RebindAndCloseStart : Prop :=
  (∀ s h src dst pods keys slices, Acts (pktTenRebind h src dst pods keys slices) s →
    exec (.tenRebind h src dst pods keys slices) s = .next (acted s (s.nv,
      startRebind { seq := h.seq, src, dst, pods, slices, keys } (taken (pktTenRebind h src dst pods keys slices) s)))) ∧
  (∀ s h t, Acts (pktTenDestroy h t) s →
    exec (.tenDestroy h t) s = .next (acted s (s.nv,
      startRebind
        { seq := h.seq, src := t, dst := 0xFF, destroy := true, keys := 2 ^ (tenOf s.m t).keys.length - 1
          pods := maskOf ((List.range 48).filter fun p => s.m.ten.pods[p]? == some (.ten t))
          slices := maskOf ((List.range 184).filter fun n => s.m.ten.slices[n]? == some (.ten t)) }
        (modTen t (fun x => { x with destroying := true }) (taken (pktTenDestroy h t) s))))) ∧
  (∀ s h c, Acts (pktCtxClose h c) s →
    exec (.ctxClose h c) s = .next (acted s
      (stopAll c h.seq (fun _ => true) s.nv (modCtx c (fun x => { x with closing := some h.seq }) (taken (pktCtxClose h c) s))))) ∧
  (∀ s h src dst pods keys slices, Acts (pktTenRebind h src dst pods keys slices) s →
    ∃ t hit, exec (.tenRebind h src dst pods keys slices) s = .next t ∧ t.pending = s.pending ∧ t.nv = s.nv ∧
      t.m.ten.rebinds = s.m.ten.rebinds ++
        [{ seq := h.seq, src, dst, pods, slices, keys, startTick := s.m.tick.count, startUs := s.m.tick.nowUs, hit }] ∧
      t.m.ten.pods = s.m.ten.pods.mapIdx (fun i x => if (bitsBelow 48 pods).contains i then .rebinding else x) ∧
      t.m.ten.slices = s.m.ten.slices.mapIdx (fun i x => if (bitsBelow 184 slices).contains i then .rebinding else x) ∧
      (∀ i, i < 192 → pods.testBit (i / 4) = true → (peaOf t.m i).pendUnit = none) ∧
      (∀ i, pods.testBit (i / 4) = false → peaOf t.m i = peaOf s.m i) ∧
      (∀ i, (peaOf t.m i).active = (peaOf s.m i).active) ∧ t.m.mem.dev = s.m.mem.dev ∧ t.m.mem.sliceMem = s.m.mem.sliceMem ∧
      (findReq t.m h.ctx false h.seq).isSome = true) ∧
  (∀ s h n, Acts (pktTenDestroy h n) s →
    ∃ t hit pods slices, exec (.tenDestroy h n) s = .next t ∧ t.pending = s.pending ∧ t.nv = s.nv ∧
      t.m.ten.rebinds = s.m.ten.rebinds ++
        [{ seq := h.seq, src := n, dst := 0xFF, pods, slices, keys := 2 ^ (tenOf s.m n).keys.length - 1, destroy := true
           startTick := s.m.tick.count, startUs := s.m.tick.nowUs, hit }] ∧
      (∀ i, i < 48 → pods.testBit i = (s.m.ten.pods[i]? == some (.ten n)) ∧
        t.m.ten.pods[i]? = (s.m.ten.pods[i]?).map fun x => if x = .ten n then .rebinding else x) ∧
      (∀ i, i < 184 → slices.testBit i = (s.m.ten.slices[i]? == some (.ten n)) ∧
        t.m.ten.slices[i]? = (s.m.ten.slices[i]?).map fun x => if x = .ten n then .rebinding else x) ∧
      (tenOf t.m n).destroying = true ∧ t.m.mem.dev = s.m.mem.dev ∧ t.m.mem.sliceMem = s.m.mem.sliceMem ∧
      (findReq t.m h.ctx false h.seq).isSome = true) ∧
  (∀ s h c, Acts (pktCtxClose h c) s → (∀ r ∈ s.m.reqs, r.ctx ≠ c) →
    ∃ t, exec (.ctxClose h c) s = .next t ∧ t.pending = s.pending ∧ t.nv = s.nv ∧ (ctxOf t.m c).closing = some h.seq ∧
      (ctxOf t.m c).isOpen = true ∧ (∀ d, d ≠ c → (ctxOf t.m d).closing = (ctxOf s.m d).closing) ∧ t.m.ten = s.m.ten ∧
      t.m.peas = s.m.peas ∧ t.m.mem.dev = s.m.mem.dev ∧ t.m.mem.sliceMem = s.m.mem.sliceMem ∧
      (findReq t.m h.ctx false h.seq).isSome = true) ∧
  (∀ s h c, Acts (pktCtxClose h c) s → (∀ r ∈ s.m.reqs, r.ctx = c → notActed r = true) →
    exec (.ctxClose h c) s = .next (withM s (endWrites (forEach (s.m.reqs.filter (·.ctx == c))
      (fun r => finaliseReq c r.urgent r.seq .cancelled h.seq)
      (modCtx c (fun x => { x with closing := some h.seq }) (taken (pktCtxClose h c) s))))))

/-- R241 to R243, R248: attaching, detaching and reading a KV table, and mapping its entries: the shared operations on
tables, applied to the columns that the packet names, and the reply with the count; a table entry that reads poisoned ends its command
with POISONED (R203).
A row stands for a packet acted on at the boundary last fired (log 33). -/
def Obligations.KvTableOpcodesAnswer : Prop :=
  (∀ s h a, Acts (pktKvTableAttach h a) s → (findPool s.m (hTen s.m h) a.pool).isSome = true →
    exec (.kvTableAttach h a) s = .next (replied (pktKvTableAttach h a) s .ok (slotsPer a) (s.nv,
      modCtx h.ctx (fun c => { c with table := some (attachedTable a) })
        (forEach (List.range' a.tableBase a.tablePages) (zeroPage (hTen s.m h))
          (claimPages (hTen s.m h) a.tableBase a.tablePages 3 h.ctx
            (modPool (hTen s.m h) a.pool (fun p => { p with tables := p.tables + 1 }) (taken (pktKvTableAttach h a) s))))))) ∧
  (∀ s h a, Acts (pktKvTableAttach h a) s → (findPool s.m (hTen s.m h) a.pool).isNone = true →
    pinned s.m 1 + a.hbmPages ≤ pinLimit 1 →
    exec (.kvTableAttach h a) s = .next (replied (pktKvTableAttach h a) s .ok (slotsPer a) (s.nv,
      modCtx h.ctx (fun c => { c with table := some (attachedTable a) })
        (forEach (List.range' a.tableBase a.tablePages) (zeroPage (hTen s.m h))
          (claimPages (hTen s.m h) a.tableBase a.tablePages 3 h.ctx
            (modPool (hTen s.m h) a.pool (fun p => { p with tables := p.tables + 1 })
              (claimPages (hTen s.m h) a.recBase a.recPages 2 a.pool
                (claimPages (hTen s.m h) a.poolBase a.poolPages 1 a.pool
                  (modTen (hTen s.m h) (fun x => { x with pools := x.pools ++ [{ num := a.pool, geo := a }] })
                    (taken (pktKvTableAttach h a) s)))))))))) ∧
  (∀ s h v, Acts (pktKvTableDetach h) s → kvView s.m h.ctx = some v →
    exec (.kvTableDetach h) s = .next (replied (pktKvTableDetach h) s .ok 0 (s.nv, detachTable h.ctx (taken (pktKvTableDetach h) s)))) ∧
  (∀ s h out v, Acts (pktKvTableStatus h out) s → ((ctxOf s.m h.ctx).table.map (·.dead)).getD false = false →
    kvView s.m h.ctx = some v →
    Answers (pktKvTableStatus h out) s (exec (.kvTableStatus h out) s) id .ok 32 [.hostWrite out (kvStatus s.m v)]) ∧
  (∀ s h ss sb ds db n v, Acts (pktKvMapCopy h ss sb ds db n) s → kvView s.m h.ctx = some v →
    ∀ es, es = (((List.range n).flatMap fun i => (column v ss (sb + i)).zip (column v ds (db + i))).filterMap fun x =>
      (kvEntry v x.1).map fun e => (x.2, e)) → refsFit v.p (es.map (·.2)) = true →
    badEntry s.m v (((List.range n).flatMap fun i => (column v ss (sb + i)).zip (column v ds (db + i))).map (·.1) ++
      ((List.range n).flatMap fun i => (column v ss (sb + i)).zip (column v ds (db + i))).map (·.2)) = none →
    exec (.kvMapCopy h ss sb ds db n) s = .next (replied (pktKvMapCopy h ss sb ds db n) s .ok es.length (s.nv,
      forEach es (fun x => mapKve h.ctx x.1 x.2) (taken (pktKvMapCopy h ss sb ds db n) s)))) ∧
  (∀ s h ss sb ds db n v, Acts (pktKvMapMove h ss sb ds db n) s → kvView s.m h.ctx = some v →
    ∀ es, es = (((List.range n).flatMap fun i => (column v ss (sb + i)).zip (column v ds (db + i))).filterMap fun x =>
      (kvEntry v x.1).map fun e => (x.1, x.2, e)) →
    badEntry s.m v (((List.range n).flatMap fun i => (column v ss (sb + i)).zip (column v ds (db + i))).map (·.1) ++
      ((List.range n).flatMap fun i => (column v ss (sb + i)).zip (column v ds (db + i))).map (·.2)) = none →
    exec (.kvMapMove h ss sb ds db n) s = .next (replied (pktKvMapMove h ss sb ds db n) s .ok es.length (s.nv,
      forEach es (fun x m => moveTaken h.ctx x.1 x.2.1 (modPool v.t v.tb.pool (movePin (kvKey h.ctx x.1) (kvKey h.ctx x.2.1))
        (zeroKve h.ctx x.1 (putKve h.ctx x.2.1 x.2.2 m)))) (taken (pktKvMapMove h ss sb ds db n) s)))) ∧
  (∀ s h stream length v m, Acts (pktKvUnmap h stream length) s → kvView s.m h.ctx = some v →
    badEntry s.m v (entriesFrom v stream (length / 64)) = none →
    m = truncStream h.ctx stream length (taken (pktKvUnmap h stream length) s) →
    exec (.kvUnmap h stream length) s = .next (replied (pktKvUnmap h stream length) s .ok (streamLen m h.ctx stream) (s.nv, m))) ∧
  (∀ s h stream length v src, Acts (pktKvUnmap h stream length) s → kvView s.m h.ctx = some v →
    badEntry s.m v (entriesFrom v stream (length / 64)) = some src →
    Answers (pktKvUnmap h stream length) s (exec (.kvUnmap h stream length) s) (countPoison (.poison src)) .poisoned src [])

/-- R250, R258 to R261: pins and the prefix index.
A row stands for a packet acted on at the boundary last fired (log 33). -/
def Obligations.PrefixOpcodesAnswer : Prop :=
  (∀ s h stream first blocks v xs, Acts (pktKvPin h stream first blocks false) s → kvView s.m h.ctx = some v →
    xs = (((List.range blocks).flatMap fun i => column v stream (first + i)).filterMap fun ix =>
      (kvEntry v ix).map fun e => (kvKey v.c ix, slotKey e.page e.slot)) →
    badEntry s.m v ((List.range blocks).flatMap fun i => column v stream (first + i)) = none →
    ∀ p : Pool, p = { v.p with pinned := v.p.pinned.filter fun x => !(xs.map (·.2)).contains x.2 } →
    exec (.kvPin h stream first blocks false) s = .next (replied (pktKvPin h stream first blocks false) s .ok
      (pinnedPages p).length (s.nv, modPool v.t v.p.num (fun _ => p) (taken (pktKvPin h stream first blocks false) s)))) ∧
  (∀ s h stream first blocks v xs, Acts (pktKvPin h stream first blocks true) s → kvView s.m h.ctx = some v →
    xs = (((List.range blocks).flatMap fun i => column v stream (first + i)).filterMap fun ix =>
      (kvEntry v ix).map fun e => (kvKey v.c ix, slotKey e.page e.slot)) →
    badEntry s.m v ((List.range blocks).flatMap fun i => column v stream (first + i)) = none →
    ∀ p : Pool, p = { v.p with pinned := (v.p.pinned ++ xs).dedup } → (pinnedPages p).length ≤ v.p.geo.hbmPages →
    exec (.kvPin h stream first blocks true) s = .next (replied (pktKvPin h stream first blocks true) s .ok (pinnedPages p).length (s.nv,
      forEach ((xs.map (·.2)).map (· / 128)).dedup (pinnedPageStays v.t)
        (modPool v.t v.p.num (fun _ => p) (taken (pktKvPin h stream first blocks true) s))))) ∧
  (∀ s h b v r, Acts (pktPrefixInsert h b) s → kvView s.m h.ctx = some v →
    r = insertBlocks v b.stream b.firstBlock (blkHashes v.p.geo b) (taken (pktPrefixInsert h b) s) → r.1.2.2 = 0 →
    badEntry s.m v ((List.range b.blocks).flatMap fun i => column v b.stream (b.firstBlock + i)) = none →
    exec (.prefixInsert h b) s = .next (replied (pktPrefixInsert h b) s .ok r.1.1 (s.nv,
      putHost b.outPtr (prefixOut (matched s.m v (blkHashes v.p.geo b)) r.1.1 (blkHashes v.p.geo b)) r.2))) ∧
  (∀ s h b v n plan, Acts (pktPrefixLookup h b) s → kvView s.m h.ctx = some v → n = matched s.m v (blkHashes v.p.geo b) →
    plan = (if b.map then
      mapPlan (taken (pktPrefixLookup h b) s) v b.stream b.firstBlock ((blkHashes v.p.geo b).take n) else []) →
    refsFit v.p (plan.map (·.2)) = true → badEntry s.m v (plan.map (·.1)) = none →
    (b.map = true → badRecords s.m v ((blkHashes v.p.geo b).take n) = none) →
    exec (.prefixLookup h b) s = .next (replied (pktPrefixLookup h b) s .ok n (s.nv,
      putHost b.outPtr (prefixOut n (plan.length / (v.p.geo.layers * v.p.geo.groups)) (blkHashes v.p.geo b))
        (modMem (fun x => { x with kvHit := bump 32 n x.kvHit })
          (forEach plan (fun x => mapKve h.ctx x.1 x.2)
            (modTen v.t (fun x => { x with prefixes := x.prefixes.map fun e =>
              if e.pool == v.p.num && ((blkHashes v.p.geo b).take n).contains e.hash then { e with lastUse := s.m.tick.count } else e })
              (taken (pktPrefixLookup h b) s))))))) ∧
  (∀ s h all hash v es, Acts (pktPrefixDrop h all hash) s → kvView s.m h.ctx = some v →
    es = ((tenOf s.m v.t).prefixes.filter fun e => e.pool == v.p.num && (all || e.hash == hash)) →
    exec (.prefixDrop h all hash) s = .next (replied (pktPrefixDrop h all hash) s .ok es.length (s.nv,
      forEach es (dropPrefix v.t) (taken (pktPrefixDrop h all hash) s))))

/-- R264, R266, R269, R283: submitting a step, the batch slots and the prefill ratio.  A slot's generation advances when it is
allocated and when its drain begins; a release or a cancel of the current generation is owed its reply until the drain ends, and
one of another generation is TOO_LATE.
A row stands for a packet acted on at the boundary last fired (log 33). -/
def Obligations.StepOpcodesAct : Prop :=
  (∀ s h b, Acts (pktStepSubmit h b) s →
    exec (.stepSubmit h b) s = .next (acted s (s.nv,
      modReq h.ctx false h.seq (fun r => { r with st := .waitStep })
        (modStp (fun x => { x with steps := x.steps ++ [{ ctx := h.ctx, seq := h.seq, blk := b }] })
          (taken (pktStepSubmit h b) s))))) ∧
  (∀ s h slot stream v, Acts (pktSlotAlloc h slot stream) s → kvView s.m h.ctx = some v → slot ≠ 0xFFFF →
    h.ctx < s.m.ctxs.length →
    Answers (pktSlotAlloc h slot stream) s (exec (.slotAlloc h slot stream) s)
      (modSlot h.ctx slot fun b => { b with allocated := true, stream, gen := nextGen b.gen }) .ok
      ((slotOf s.m h.ctx slot).slot + 2 ^ 16 * nextGen (slotOf s.m h.ctx slot).gen) []) ∧
  (∀ s h stream v n, Acts (pktSlotAlloc h 0xFFFF stream) s → kvView s.m h.ctx = some v → h.ctx < s.m.ctxs.length →
    ((List.range 4096).find? fun i => !(slotOf s.m h.ctx i).allocated && !(slotOf s.m h.ctx i).releasing) = some n →
    Answers (pktSlotAlloc h 0xFFFF stream) s (exec (.slotAlloc h 0xFFFF stream) s)
      (modSlot h.ctx n fun b => { b with allocated := true, stream, gen := nextGen b.gen }) .ok
      ((slotOf s.m h.ctx n).slot + 2 ^ 16 * nextGen (slotOf s.m h.ctx n).gen) []) ∧
  (∀ s h slot gen keep, Acts (pktSlotRelease h slot gen keep) s → (slotOf s.m h.ctx slot).gen = gen →
    exec (.slotRelease h slot gen keep) s = .next (acted s (s.nv,
      dropPrefill h.ctx slot (modSlot h.ctx slot (fun b =>
        { b with gen := nextGen b.gen, draining := true, keep := if b.draining then b.keep && keep else keep, releasing := true
                 drains := b.drains ++ [2 * h.seq] })
        (taken (pktSlotRelease h slot gen keep) s))))) ∧
  (∀ s h slot gen keep, Acts (pktSlotRelease h slot gen keep) s → (slotOf s.m h.ctx slot).gen ≠ gen →
    Answers (pktSlotRelease h slot gen keep) s (exec (.slotRelease h slot gen keep) s) id .tooLate 0 []) ∧
  (∀ s h slot gen keep, Acts (pktCancel h slot gen keep) s → (slotOf s.m h.ctx slot).gen = gen →
    exec (.cancel h slot gen keep) s = .next (acted s (s.nv,
      dropPrefill h.ctx slot (modSlot h.ctx slot (fun b =>
        { b with gen := nextGen b.gen, draining := true, keep := if b.draining then b.keep && keep else keep
                 drains := b.drains ++ [2 * h.seq + 1] })
        (taken (pktCancel h slot gen keep) s))))) ∧
  (∀ s h slot gen keep, Acts (pktCancel h slot gen keep) s → (slotOf s.m h.ctx slot).gen ≠ gen →
    Answers (pktCancel h slot gen keep) s (exec (.cancel h slot gen keep) s) id .tooLate 0 []) ∧
  (∀ s h chunk ratio floor, Acts (pktPrefillRatio h chunk ratio floor false) s →
    Answers (pktPrefillRatio h chunk ratio floor false) s (exec (.prefillRatio h chunk ratio floor false) s)
      (modCtx h.ctx fun x => { x with prefillExpert := true, chunk, ratio, floor }) .ok 0 []) ∧
  (∀ s h chunk ratio floor, Acts (pktPrefillRatio h chunk ratio floor true) s →
    Answers (pktPrefillRatio h chunk ratio floor true) s (exec (.prefillRatio h chunk ratio floor true) s)
      (modCtx h.ctx fun x => { x with prefillExpert := false, chunk := 2048, ratio := 0, floor := 0 }) .ok 0 [])

/-- R135: an ABORT of a request that has been taken and not acted on answers OK and finalises the target with CANCELLED and
the ABORT's number; of one that cannot be aborted, TOO_LATE; of a number never used, NO_TARGET; of one finalised before,
TOO_LATE with the tick it was finalised in.
A row stands for a packet acted on at the boundary last fired (log 33); the order of the two replies is log 31. -/
def Obligations.AbortAnswers : Prop :=
  (∀ s h q r, Acts (pktAbort h q) s → queuedAt (fnOf s.m h.ctx) q = none → findReq s.m h.ctx false q = some r →
    r.abortBy = none → notActed r = true →
    exec (.abort h q) s = .next (acted s (s.nv,
      finalise h.ctx q .cancelled h.seq (finaliseReq h.ctx true h.seq .ok 0 (taken (pktAbort h q) s))))) ∧
  (∀ s h q r, Acts (pktAbort h q) s → queuedAt (fnOf s.m h.ctx) q = none → findReq s.m h.ctx false q = some r →
    r.abortBy = none → notActed r = false → abortable r.op = false →
    Answers (pktAbort h q) s (exec (.abort h q) s) id .tooLate 0 []) ∧
  (∀ s h q, Acts (pktAbort h q) s → queuedAt (fnOf s.m h.ctx) q = none → findReq s.m h.ctx false q = none →
    Machine.dist q (fnOf s.m h.ctx).nextSeq < 2 ^ 31 →
    Answers (pktAbort h q) s (exec (.abort h q) s) id .noTarget 0 []) ∧
  (∀ s h q f, Acts (pktAbort h q) s → queuedAt (fnOf s.m h.ctx) q = none → findReq s.m h.ctx false q = none →
    2 ^ 31 ≤ Machine.dist q (fnOf s.m h.ctx).nextSeq → (fnOf s.m h.ctx).finals.find? (·.seq == q) = some f →
    Answers (pktAbort h q) s (exec (.abort h q) s) id .tooLate f.tick [])

/-- R172, R175, R182 to R185: the tier opcodes: pages come into being in ZERO under their key, are freed, pinned, or asked to
move, and a policy is kept.
A row stands for a packet acted on at the boundary last fired (log 33). -/
def Obligations.TierOpcodesAct : Prop :=
  (∀ s h base pages key k, Acts (pktMemAlloc h base pages key) s →
    k = (if key = 0xFF then (ctxOf s.m h.ctx).key else key) → keyFrozen s.m (hTen s.m h) k = false →
    claims s.m + pages ≤ claimable s.nv.flash.state s.m →
    Answers (pktMemAlloc h base pages key) s (exec (.memAlloc h base pages key) s)
      (modMem fun x => { x with pages := x.pages ++ (List.range pages).map fun i =>
        ({ ten := hTen s.m h, num := base + i, key := k, ctx := h.ctx } : Page) }) .ok 0 []) ∧
  (∀ s h base pages, Acts (pktMemFree h base pages) s →
    exec (.memFree h base pages) s = .next (replied (pktMemFree h base pages) s .ok pages (s.nv,
      freePages s.nv.flash.state (hTen s.m h) base pages (taken (pktMemFree h base pages) s)))) ∧
  (∀ s h base pages, Acts (pktMemPin h base pages 0) s →
    exec (.memPin h base pages 0) s = .next (replied (pktMemPin h base pages 0) s .ok 0 (s.nv,
      forEach (List.range' base pages) (fun i => modPage (hTen s.m h) i fun g => { g with pin := 0 })
        (taken (pktMemPin h base pages 0) s)))) ∧
  (∀ s h base pages tier go, Acts (pktMemPin h base pages tier) s → tier ≠ 0 →
    pinned s.m tier + (rangePages s.m (hTen s.m h) base pages (·.pin != tier)).length ≤ pinLimit tier →
    go = rangePages s.m (hTen s.m h) base pages (fun g => g.tier != .zero && g.tier != tierOf tier) →
    exec (.memPin h base pages tier) s = .next (acted s (s.nv,
      startMoves h 0x52 (tierOf tier) go 0 (forEach (List.range' base pages) (pageArrives s.nv.flash.state (hTen s.m h))
        (forEach (rangePages s.m (hTen s.m h) base pages (·.tier != .zero)) (pinMove (hTen s.m h) (tierOf tier))
          (forEach (List.range' base pages) (fun i => modPage (hTen s.m h) i fun g => { g with pin := tier })
            (taken (pktMemPin h base pages tier) s))))))) ∧
  (∀ s h base pages tier go, Acts (pktMemDemote h base pages tier) s →
    ¬ (tier = 3 ∧ (s.nv.flash.state = .readOnly ∨ s.nv.flash.state = .offline)) →
    go = rangePages s.m (hTen s.m h) base pages (fun g => g.pin == 0 && height (tierOf tier) < height g.tier) →
    exec (.memDemote h base pages tier) s = .next (acted s (s.nv,
      startMoves h 0x53 (tierOf tier) go (rangePages s.m (hTen s.m h) base pages (·.pin != 0)).length
        (forEach go (fun n => askMove (hTen s.m h) n (tierOf tier)) (taken (pktMemDemote h base pages tier) s))))) ∧
  (∀ s h base pages go, Acts (pktMemPrefetch h base pages) s →
    go = rangePages s.m (hTen s.m h) base pages (fun g => g.tier != .zero && g.tier != .hbm && g.pin != 2 && g.crcBad.isEmpty) →
    exec (.memPrefetch h base pages) s = .next (acted s (s.nv,
      startMoves h 0x54 .hbm go 0
        (forEach go (fun n => askMove (hTen s.m h) n .hbm) (taken (pktMemPrefetch h base pages) s))))) ∧
  (∀ s h ahead touch limit, Acts (pktMigratePolicy h ahead touch limit false) s →
    Answers (pktMigratePolicy h ahead touch limit false) s (exec (.migratePolicy h ahead touch limit false) s)
      (modCtx h.ctx fun c => { c with ahead, touch, stallLimitMs := if limit = 0 then 100 else limit }) .ok 0 []) ∧
  (∀ s h ahead touch limit, Acts (pktMigratePolicy h ahead touch limit true) s →
    Answers (pktMigratePolicy h ahead touch limit true) s (exec (.migratePolicy h ahead touch limit true) s)
      (modCtx h.ctx fun c => { c with ahead := true, touch := false, stallLimitMs := 100 }) .ok 0 [])

/-- R224 to R229: the compression opcodes: a load asks for its 144 bytes, STANDARD selects generation 0 unless it would free
a held bank, holds count up and down, and the status is written out.
A row stands for a packet acted on at the boundary last fired (log 33); STANDARD is refused like a load (log 14). -/
def Obligations.CompressionOpcodesAct : Prop :=
  (∀ s h gen ptr, Acts (pktCmpTableLoad h gen ptr) s →
    exec (.cmpTableLoad h gen ptr) s = .next (acted s (s.nv, askHost (.table h.ctx) ptr 144
      (modCtx h.ctx (fun x => { x with cmpPending := some { seq := h.seq, gen } }) (taken (pktCmpTableLoad h gen ptr) s))))) ∧
  (∀ s h, Acts (pktCmpTableStandard h) s → isPrevious (ctxOf s.m h.ctx) (ctxOf s.m h.ctx).bankA = false →
    isPrevious (ctxOf s.m h.ctx) (ctxOf s.m h.ctx).bankB = false →
    Answers (pktCmpTableStandard h) s (exec (.cmpTableStandard h) s) (modCtx h.ctx fun x => { x with cmpCurrent := 0 }) .ok 0 []) ∧
  (∀ s h gen, Acts (pktCmpTableHold h gen) s →
    Answers (pktCmpTableHold h gen) s (exec (.cmpTableHold h gen) s) (modCtx h.ctx (holdBank gen (· + 1))) .ok
      (holdsOf (ctxOf s.m h.ctx) gen + 1) []) ∧
  (∀ s h gen, Acts (pktCmpTableUnhold h gen) s →
    Answers (pktCmpTableUnhold h gen) s (exec (.cmpTableUnhold h gen) s) (modCtx h.ctx (holdBank gen (· - 1))) .ok
      (holdsOf (ctxOf s.m h.ctx) gen - 1) []) ∧
  (∀ s h out x, Acts (pktCmpTableStatus h out) s → x = ctxOf s.m h.ctx →
    Answers (pktCmpTableStatus h out) s (exec (.cmpTableStatus h out) s) id .ok x.cmpCurrent
      [.hostWrite out (padTo 32 (le 1 x.cmpCurrent ++ zeros 3 ++ bankBytes s.m h.ctx x.bankA ++ bankBytes s.m h.ctx x.bankB ++
        le 2 x.bankA.tcrc ++ le 2 x.bankB.tcrc))])

/-- R289, R298, R307, R370: expert layouts, queues and shared-expert order, and collectives: each joins or leaves its context
or tenancy, a queue with its control blocks cleared and its data pages claimed.
A row stands for a packet acted on at the boundary last fired (log 33). -/
def Obligations.ExpertAndCollectiveOpcodesAnswer : Prop :=
  (∀ s h b, Acts (pktExpLayoutInstall h b) s → (ctxOf s.m h.ctx).layouts.length < 128 →
    Answers (pktExpLayoutInstall h b) s (exec (.expLayoutInstall h b) s)
      (modCtx h.ctx fun x => { x with layouts := x.layouts ++ [{ blk := b }] }) .ok ((ctxOf s.m h.ctx).layouts.length + 1) []) ∧
  (∀ s h layer, Acts (pktExpLayoutRemove h layer) s →
    Answers (pktExpLayoutRemove h layer) s (exec (.expLayoutRemove h layer) s)
      (modCtx h.ctx fun x => { x with layouts := x.layouts.filter (·.blk.layer != layer) }) .ok
      ((ctxOf s.m h.ctx).layouts.length - 1) []) ∧
  (∀ s h b l t, Acts (pktExpQueuePost h b) s → t = hTen s.m h →
    (ctxOf s.m h.ctx).layouts.find? (·.blk.layoutId == b.layoutId) = some l →
    exec (.expQueuePost h b) s = .next (replied (pktExpQueuePost h b) s .ok 0 (s.nv,
      slPut t b.ctrl (padTo (ctrlSize l.blk) (le 8 0 ++ le 4 0) ++ padTo (ctrlSize l.blk) (le 8 0 ++ le 4 1))
        (forEach (queuePages b l.blk) (fun n => modPage t n fun g => { g with claim := 5, owner := b.queue })
          (modTen t (fun x => { x with queues := x.queues ++ [{ num := b.queue, ctx := h.ctx, blk := b }] })
            (taken (pktExpQueuePost h b) s)))))) ∧
  (∀ s h q, Acts (pktExpQueueUnpost h q) s →
    Answers (pktExpQueueUnpost h q) s (exec (.expQueueUnpost h q) s)
      (fun m => modTen (hTen s.m h) (fun x => { x with queues := x.queues.filter (·.num != q) })
        (modMem (fun x =>
          { x with pages := x.pages.map fun g =>
              if g.ten == hTen s.m h && g.claim == 5 && g.owner == q then { g with claim := 0, owner := 0 } else g }) m)) .ok 0 []) ∧
  (∀ s h layer order basic mask, Acts (pktExpShared h layer order basic mask) s →
    Answers (pktExpShared h layer order basic mask) s (exec (.expShared h layer order basic mask) s)
      (modLayout h.ctx layer fun l =>
        if basic then { l with orderMode := 0, podMask := 0 } else { l with orderMode := order, podMask := mask }) .ok 0 []) ∧
  (∀ s h b, Acts (pktCollSetup h b) s → (ctxOf s.m h.ctx).colls.length < 64 →
    Answers (pktCollSetup h b) s (exec (.collSetup h b) s)
      (modCtx h.ctx fun x => { x with colls := x.colls ++ [{ blk := b }] }) .ok 0 []) ∧
  (∀ s h id, Acts (pktCollRemove h id) s →
    Answers (pktCollRemove h id) s (exec (.collRemove h id) s)
      (modCtx h.ctx fun x => { x with colls := x.colls.filter (·.blk.collId != id) }) .ok 0 [])

/-- R326, R332, R334, R365, R367: the rack plan, the ports and the job group: a plan load asks for its image, a clear drops the
plan and every override and checks the ports again, a reset brings the named ports down, an accept of a port in quarantine
overrides the plan for it, a join and a leave are under way until their replies.
A row stands for a packet acted on at the boundary last fired (log 33); a join that another finds under way is log 144. -/
def Obligations.PlanPortAndGroupOpcodesAct : Prop :=
  (∀ s h ptr len, Acts (pktPlanLoad h ptr len) s →
    exec (.planLoad h ptr len) s = .next (acted s (s.nv, askHost (.plan h.seq) ptr len
      { taken (pktPlanLoad h ptr len) s with link := { s.m.link with planLoads := s.m.link.planLoads ++ [{ seq := h.seq, len }] } }))) ∧
  (∀ s h, Acts (pktPlanClear h) s →
    exec (.planClear h) s = .next (replied (pktPlanClear h) s .ok 0 (s.nv,
      recheck { taken (pktPlanClear h) s with link := { s.m.link with plan := none, overrides := List.replicate 6 none } }))) ∧
  (∀ s h ports, Acts (pktPortReset h ports) s → ∃ t, exec (.portReset h ports) s = .next t ∧
    t.m.link.portResets = s.m.link.portResets ++ [(h.seq, ports)] ∧
    ∀ p, p < s.m.link.ports.length → p < 6 → ports.testBit p = true →
      (portOf t.m p).state = (if s.m.link.enabled then .detect else .down)) ∧
  (∀ s h port node peer serial i, Acts (pktRemapAccept h port node peer serial) s →
    (portOf s.m port).qcause = 2 ∨ (portOf s.m port).qcause = 3 → (portOf s.m port).peer = some i →
    i.node = node → i.port = peer → i.serial = serial →
    exec (.remapAccept h port node peer serial) s = .next (replied (pktRemapAccept h port node peer serial) s .ok port (s.nv,
      recheck { taken (pktRemapAccept h port node peer serial) s with
        link := { s.m.link with overrides := s.m.link.overrides.set port (some (node, peer, serial)) } }))) ∧
  (∀ s h group root planId members, Acts (pktGroupJoin h group root planId members) s →
    exec (.groupJoin h group root planId members) s = .next (acted s (s.nv,
      startJoin h group root members (cancelJoin h (taken (pktGroupJoin h group root planId members) s))))) ∧
  (∀ s h, Acts (pktGroupLeave h) s → s.m.tick.join = none →
    exec (.groupLeave h) s = .next (acted s (s.nv,
      faultColls s.nv.flash.state (fun _ => true) .poisoned 4
        (modTick (fun t => { t with join := none, leaves := t.leaves ++ [(h.seq, t.count)] }) (taken (pktGroupLeave h) s)))))

/-- R380 to R388: manifests and shards: a load asks for its image, an unload drops it, an install within the limits is under way
until it is finalised, a remove ends the shard and the verifications waiting for it, a verification waits for its result.
A row stands for a packet acted on at the boundary last fired (log 33); an UNLOAD of an empty slot and what a REMOVE ends are log 76. -/
def Obligations.ShardOpcodesAct : Prop :=
  (∀ s h slot ptr len key, Acts (pktManifestLoad h slot ptr len key) s →
    exec (.manifestLoad h slot ptr len key) s = .next (acted s (s.nv, askHost (.manifest (hTen s.m h) slot) ptr len
      (modTen (hTen s.m h) (fun x =>
        { x with manifests := x.manifests ++ [{ slot, ctx := h.ctx, seq := h.seq, len, keyDigest := key }] })
        (taken (pktManifestLoad h slot ptr len key) s))))) ∧
  (∀ s h slot, Acts (pktManifestUnload h slot) s →
    Answers (pktManifestUnload h slot) s (exec (.manifestUnload h slot) s) (dropManifest (hTen s.m h) slot) .ok 0 []) ∧
  (∀ s h b t n len, Acts (pktShardInstall h b) s → t = hTen s.m h →
    len = ((shardEntry s.m t b.slot b.shard).map (·.1)).getD 0 → n = (len + pageSize - 1) / pageSize →
    (tenOf s.m t).shards.length < 4096 → claims s.m + n ≤ claimable s.nv.flash.state s.m →
    b.pinHbm = false ∨ pinnedHbm s.m + n ≤ pinLimit 1 →
    exec (.shardInstall h b) s = .next (acted s (s.nv,
      modTen t (fun x =>
        { x with shards := x.shards ++ [
            { blk := b, ctx := h.ctx, seq := h.seq, key := (ctxOf s.m h.ctx).key, length := len, lastHdrUs := s.m.tick.nowUs
              hours := (ctxOf s.m h.ctx).verifyHours }] }) (taken (pktShardInstall h b) s)))) ∧
  (∀ s h slot shard k t, Acts (pktShardRemove h slot shard) s → t = hTen s.m h → findShard s.m t slot shard = some k →
    exec (.shardRemove h slot shard) s = .next (replied (pktShardRemove h slot shard) s .ok (shardPages k) (s.nv,
      modMem (fun x =>
          { x with pages := x.pages.map fun g =>
              if g.ten == t && k.blk.basePage ≤ g.num && g.num < k.blk.basePage + shardPages k then
                { g with claim := 0, owner := 0 }
              else g })
        (dropShard t slot shard
          (forEach k.verifies (fun v => finalise v.1 v.2 .cancelled h.seq) (taken (pktShardRemove h slot shard) s)))))) ∧
  (∀ s h slot shard k, Acts (pktShardVerify h slot shard) s → findShard s.m (hTen s.m h) slot shard = some k → k.st = .failed →
    Answers (pktShardVerify h slot shard) s (exec (.shardVerify h slot shard) s) id .digestMismatch shard []) ∧
  (∀ s h slot shard k, Acts (pktShardVerify h slot shard) s → findShard s.m (hTen s.m h) slot shard = some k → k.st ≠ .failed →
    exec (.shardVerify h slot shard) s = .next (acted s (s.nv,
      modShard (hTen s.m h) slot shard (fun s => { s with verifies := s.verifies ++ [(h.ctx, h.seq)] })
        (taken (pktShardVerify h slot shard) s)))) ∧
  (∀ s h hours n, Acts (pktVerifyInterval h hours) s → n = (if hours = 0 then 24 else hours) →
    Answers (pktVerifyInterval h hours) s (exec (.verifyInterval h hours) s)
      (fun m => modTen (hTen s.m h) (fun x =>
          { x with shards := x.shards.map fun k =>
              if k.ctx == h.ctx then { k with hours := n, dueUs := k.dueUs + hoursUs n - hoursUs k.hours } else k })
        (modCtx h.ctx (fun x => { x with verifyHours := n }) m)) .ok 0 [])

/-- R449, R450, R455: the firmware update and attestation: BEGIN opens an update of the bank that does not run, DATA asks for
its bytes, ABANDON leaves the bank INCOMPLETE, COMMIT waits for the check, and ATTEST takes a leaf never used before.
A row stands for a packet acted on at the boundary last fired (log 33); the factory images are log 6. -/
def Obligations.FirmwareOpcodesAct : Prop :=
  (∀ s h length b, Acts (pktFwBankBegin h length) s → updTarget s.nv s.m = some b →
    exec (.fwBankBegin h length) s = .next (replied (pktFwBankBegin h length) s .ok b
      (modBank b (fun _ => { st := .writing }) s.nv,
       fwEvent (modBank b (fun _ => { st := .writing }) s.nv) 1 b .writing
         (modLife (fun l => { l with updOpen := true, updTray := false, updLen := length, written := 0, updBank := b })
           (taken (pktFwBankBegin h length) s))))) ∧
  (∀ s h len ptr off, Acts (pktFwBankData h len ptr off) s →
    exec (.fwBankData h len ptr off) s = .next (acted s (s.nv, askHost .fwData ptr len
      (modLife (fun l => { l with dataPending := some { seq := some h.seq, len } }) (taken (pktFwBankData h len ptr off) s))))) ∧
  (∀ s h b, Acts (pktFwBankAbandon h) s → b = s.m.life.updBank →
    exec (.fwBankAbandon h) s = .next (replied (pktFwBankAbandon h) s .ok 0
      (modBank b (fun k => { k with st := .incomplete }) s.nv,
       fwEvent (modBank b (fun k => { k with st := .incomplete }) s.nv) 3 b .incomplete
         (modLife (fun l => { l with updOpen := false, dataPending := l.dataPending.map fun d => { d with live := false } })
           (taken (pktFwBankAbandon h) s))))) ∧
  (∀ s h, Acts (pktFwBankCommit h) s →
    exec (.fwBankCommit h) s = .next (acted s (s.nv,
      modLife (fun l => { l with commitPending := some (some h.seq) }) (taken (pktFwBankCommit h) s)))) ∧
  (∀ s h nonce out, Acts (pktAttest h nonce out) s → s.m.life.leavesLeft ≠ 0 → (recentSigns s.m).length < 256 →
    exec (.attest h nonce out) s = .next (acted s (s.nv,
      modLife (fun l =>
        { l with leavesLeft := s.m.life.leavesLeft - 1, attestUs := s.m.tick.nowUs :: recentSigns s.m
                 attests := l.attests ++ [(h.ctx, h.seq, attestReport s.nv s.m h.ctx nonce (s.nv.leaves - s.m.life.leavesLeft), out)] })
        (taken (pktAttest h nonce out) s)))) ∧
  (∀ s h nonce out nv, Acts (pktAttest h nonce out) s → s.m.life.leavesLeft = 0 → s.nv.leaves < 2 ^ 40 →
    (recentSigns s.m).length < 256 → nv = { s.nv with leaves := s.nv.leaves + 1024 } →
    exec (.attest h nonce out) s = .next (acted s (nv,
      modLife (fun l =>
        { l with leavesLeft := 1023, attestUs := s.m.tick.nowUs :: recentSigns s.m
                 attests := l.attests ++ [(h.ctx, h.seq, attestReport nv s.m h.ctx nonce s.nv.leaves, out)] })
        (taken (pktAttest h nonce out) s))))

/-- R465 to R469: the capture opcodes: a recording starts from nothing, or is armed for the next boot too; a stop ends it at
this boundary or waits for its tick; an export writes the part of the image asked for.
A row stands for a packet acted on at the boundary last fired (log 33); a stop that finds nothing running is log 20. -/
def Obligations.CaptureOpcodesAct : Prop :=
  (∀ s h fill boot gb triggers post, Acts (pktCaptureStart h fill boot gb triggers post) s →
    exec (.captureStart h fill boot gb triggers post) s = .next (replied (pktCaptureStart h fill boot gb triggers post) s .ok 0
      (if boot then { s.nv with capArmed := some (fill, gb, triggers, post) } else s.nv,
       captureEvent 1 s.m.tick.count
         { taken (pktCaptureStart h fill boot gb triggers post) s with
           cap := startRecording fill false gb triggers post s.m.tick.count s.m.cap }))) ∧
  (∀ s h disarm at_ tick, Acts (pktCaptureStop h disarm at_ tick) s → s.m.cap.state ≠ 1 → s.m.cap.state ≠ 2 →
    exec (.captureStop h disarm at_ tick) s = .next (replied (pktCaptureStop h disarm at_ tick) s .ok (wrap 32 s.m.cap.lastTick)
      (if disarm then { s.nv with capArmed := none } else s.nv, taken (pktCaptureStop h disarm at_ tick) s))) ∧
  (∀ s h disarm tick, Acts (pktCaptureStop h disarm true tick) s → s.m.cap.state = 1 ∨ s.m.cap.state = 2 →
    s.m.tick.count ≤ tick →
    exec (.captureStop h disarm true tick) s = .next (acted s
      (if disarm then { s.nv with capArmed := none } else s.nv,
       { taken (pktCaptureStop h disarm true tick) s with cap := { s.m.cap with stops := s.m.cap.stops ++ [(h.seq, tick)] } }))) ∧
  (∀ s h out off len, Acts (pktCaptureExport h out off len) s →
    exec (.captureExport h out off len) s = .next (acted s (s.nv,
      putHost out (((exportImage s.nv (taken (pktCaptureExport h out off len) s)).drop off).take len)
        { taken (pktCaptureExport h out off len) s with cap := { s.m.cap with exports := s.m.cap.exports ++ [(h.seq, out, off, len)] } })))

/-! ### Work units and peas -/

/-- R48, R65, R66: Turnip fills the pending half of a queue, marks it READY once its LAST entry is there, and may withdraw it; a
write to a half that is marked is counted in PEND_REJECT and changes nothing else.  GO, once in each tick, gives every marked
unit cut in an earlier tick to its idle pea on a pod that runs, and leaves every other queue alone; in FAULT nothing starts
(R21). -/
def Obligations.QueuesAndGo : Prop :=
  (∀ s p i d, isUp s.m = true → (peaOf s.m p).ready = false →
    exec (.turnipQueueWrite p (.entry i d)) s = .next (withM s (modPea p (fun a => { a with pend := alSet i d a.pend }) s.m))) ∧
  (∀ s p, isUp s.m = true → (peaOf s.m p).ready = false → ((peaOf s.m p).pend.any fun x => x.2.last) = true →
    exec (.turnipQueueWrite p .ready) s = .next
      (withM s (modPea p (fun a => { a with ready := true, pendUnit := some (unitOf s.m a.pend) }) s.m))) ∧
  (∀ s p, isUp s.m = true →
    exec (.turnipQueueWrite p .withdraw) s = .next
      (withM s (modPea p (fun a => { a with pend := [], pendUnit := none, ready := false }) s.m))) ∧
  (∀ s p w, isUp s.m = true → (peaOf s.m p).ready = true → w ≠ .withdraw →
    exec (.turnipQueueWrite p w) s = .next (withM s (modMem (fun x => { x with pendReject := bump 16 1 x.pendReject }) s.m))) ∧
  (∀ s, isUp s.m = true → turnipRuns s.m = true → s.m.tick.goDone = false → s.m.life.mode ≠ .fault →
    ∃ ps, exec .go s = .next (withM s { s.m with peas := ps, tick := { s.m.tick with goDone := true } }) ∧
      ps.length = s.m.peas.length ∧
      (∀ p (a : Pea), s.m.peas[p]? = some a → a.ready = true → (∀ u, a.pendUnit = some u → groupCtx s.m u.ctx = true → s.m.tick.lost = false) →
        (∀ u, a.pendUnit = some u → u.cut < s.m.tick.count) → a.active = none → p / 4 ∉ s.m.pwr.gated → p / 4 ∉ s.m.pwr.ungating →
        ps[p]? = some { a with active := a.pendUnit, pend := [], pendUnit := none, ready := false, st := .staged, ix := 0
                               startTick := s.m.tick.count }) ∧
      (∀ p (a : Pea), s.m.peas[p]? = some a → a.ready = false ∨ a.active.isSome = true ∨ p / 4 ∈ s.m.pwr.gated ∨ p / 4 ∈ s.m.pwr.ungating ∨
          (∃ u, a.pendUnit = some u ∧ s.m.tick.count ≤ u.cut) →
        ps[p]? = some a)) ∧
  (∀ s, isUp s.m = true → s.m.tick.goDone = true ∨ s.m.life.mode = .fault → exec .go s = .next s)

/-- R84 to R86, R154, R406: a pea given a unit starts it with its registers at zero and its engine cold; the first MAC of a cold
engine starts it when the ramp governor admits one more start and is deferred and counted when it does not; an engine idle
outside warm hold is cold. -/
def Obligations.PeasStart : Prop :=
  (∀ s p a, isUp s.m = true → s.m.peas[p]? = some a → a.st = .staged → ∃ t b, exec (.peaStaggerStart p) s = .next t ∧
    t = withM s { s.m with peas := s.m.peas.set p b } ∧ b.st = .ready ∧ b.ix = 0 ∧ b.cold = true ∧ b.active = a.active ∧
    b.scalar = [] ∧ b.vector = [] ∧ b.weights = [] ∧ b.acts = [] ∧ b.acc = [] ∧ b.prog = [] ∧ b.layerSet = false) ∧
  (∀ s p, isUp s.m = true → (peaOf s.m p).st = .run → (peaOf s.m p).cold = true →
    exec (.engineColdStart p) s = .next (if Config.modelledPowerW s.m.stp.choices ≤ meanPower s.m + 150 then
        withM s (modPea p (fun a => { a with cold := false }) (modStp (fun x => { x with choices := x.choices + 1 }) s.m))
      else withM s (modPwr (fun x => { x with deferred := bump 16 1 x.deferred })
        (modPea p (fun a => { a with cold := true }) (modStp (fun x => { x with choices := x.choices + 1 }) s.m))))) ∧
  (∀ s p, isUp s.m = true →
    exec (.matrixEngineCold p) s = .next (withM s (modPea p (fun a => { a with cold := if a.warmHold then a.cold else true }) s.m)))

/-- R64: the descriptors of a unit in order.  RUN loads the program from its slice and runs it; WAIT goes on once its counter
has reached the target and otherwise waits; a waiting WAIT goes on when it has; POST adds to its counter, wrapping; after the
LAST descriptor the unit completes with OK: its completion waits for the next boundary and the pea is idle. -/
def Obligations.DescriptorsRun : Prop :=
  (∀ s p u d prog entry args q, isUp s.m = true → (peaOf s.m p).st = .ready → (peaOf s.m p).active = some u →
    u.descs[(peaOf s.m p).ix]? = some d → d.gated = false → d.body = .run prog entry args →
    slRange s.m u.ten false prog (min 32768 (sliceSize - prog % sliceSize)) = .ok [q] → pieceBad s.m q = false →
    exec (.descRun p) s = .next (withM s (modPea p (fun a => { a with st := .run, prog := smSlice q.1 q.2 s.m.mem.sliceMem })
      (chargeBytes p (min 32768 (sliceSize - prog % sliceSize))
        (noteRead u.ten prog (min 32768 (sliceSize - prog % sliceSize)) true s.m))))) ∧
  (∀ s p u d addr target bs, isUp s.m = true → (peaOf s.m p).st = .ready → (peaOf s.m p).active = some u →
    u.descs[(peaOf s.m p).ix]? = some d → d.gated = false → d.body = .wait addr target → slRead s.m u.ten addr 4 = .ok bs →
    unle bs < target →
    exec (.descWait p) s = .next (withM s
      (modPea p (fun a => { a with st := .waiting, hadFabric := a.hadFabric || remoteCounter s.m u.ten addr })
        (chargeBytes p 4 (noteRead u.ten addr 4 true s.m))))) ∧
  (∀ s p u d addr target bs, isUp s.m = true → p < s.m.peas.length → (peaOf s.m p).st = .ready → (peaOf s.m p).active = some u →
    u.descs[(peaOf s.m p).ix]? = some d → d.gated = false → d.body = .wait addr target → slRead s.m u.ten addr 4 = .ok bs →
    target ≤ unle bs →
    exec (.descWait p) s = .next (withM s (modPea p (fun a =>
      if d.last then { a with st := .done } else { a with st := .ready, ix := a.ix + 1 })
        (chargeBytes p 4 (noteRead u.ten addr 4 true s.m))))) ∧
  (∀ s p u d addr target bs, isUp s.m = true → p < s.m.peas.length → (peaOf s.m p).st = .waiting → (peaOf s.m p).active = some u →
    u.descs[(peaOf s.m p).ix]? = some d → d.body = .wait addr target → d.last = true → slRead s.m u.ten addr 4 = .ok bs →
    target ≤ unle bs →
    exec (.descWaitSatisfied p) s = .next (withM s (modPea p (fun a => { a with st := .done })
      (chargeBytes p 4 (noteRead u.ten addr 4 true s.m))))) ∧
  (∀ s p u d addr inc bs m, isUp s.m = true → p < s.m.peas.length → (peaOf s.m p).st = .ready → (peaOf s.m p).active = some u →
    u.descs[(peaOf s.m p).ix]? = some d → d.gated = false → d.body = .post addr inc → d.last = true →
    slRead s.m u.ten addr 4 = .ok bs →
    slWrite u.ten addr (le 4 ((unle bs + inc) % 2 ^ 32)) (chargeBytes p 4 (noteRead u.ten addr 4 false s.m)) = .ok m →
    exec (.descPost p) s = .next (withM s (modPea p (fun a => { a with st := .done }) (chargeBytes p 4 m)))) ∧
  (∀ s p u, isUp s.m = true → p < s.m.peas.length → (peaOf s.m p).st = .done → (peaOf s.m p).active = some u →
    ∃ t, exec (.workUnitComplete p) s = .next t ∧ t.pending = s.pending ∧ t.nv = s.nv ∧
      (peaOf t.m p).active = none ∧ (peaOf t.m p).st = .idle ∧ (∀ r, r ≠ p → peaOf t.m r = peaOf s.m r) ∧
      t.m.lat = { s.m.lat with dones := s.m.lat.dones ++
        [{ ctx := u.ctx, seq := u.seq, status := .ok, detail := 0, unit := u.unit, phase := u.phase, expertQ := u.expertQ }] })

/-- R63, R68, R69, R72, R75, R79: the accesses of a running pea to its tenancy's slices: a read fills registers, merges line by line (R79) and leaves every
byte of memory as it was, a write and an atomic change the bytes they name, a denied access ends the unit with DENIED and is
counted, an atomic on a word not naturally aligned does nothing, and FENCE changes nothing.
That a misaligned atomic does nothing is the model's choice (log 53). -/
def Obligations.SliceAccesses : Prop :=
  (∀ s p a n dst bs, isUp s.m = true → (peaOf s.m p).st = .run → slRead s.m (peaTen s.m p) a n = .ok bs →
    ∃ t, exec (.peaLoad p a n dst) s = .next t ∧
      t.m = modPea p (fillPea dst bs) (chargeBytes p n (noteRead (peaTen s.m p) a n true s.m)) ∧ t.m.mem.sliceMem = s.m.mem.sliceMem ∧
      t.m.mem.dev = s.m.mem.dev ∧ t.pending = s.pending ∧ t.nv = s.nv) ∧
  (∀ s p a bs m, isUp s.m = true → (peaOf s.m p).st = .run → slWrite (peaTen s.m p) a bs s.m = .ok m →
    exec (.peaStore p a bs) s = .next (withM s (chargeBytes p bs.length m))) ∧
  (∀ s p a bs x u, isUp s.m = true → p < s.m.peas.length → (peaOf s.m p).st = .run → (peaOf s.m p).active = some u →
    slRange s.m u.ten true a bs.length = .error x → ∃ t, exec (.peaStore p a bs) s = .next t ∧
      t.m.mem.sliceMem = s.m.mem.sliceMem ∧ t.m.mem.denied = bump 16 1 s.m.mem.denied ∧ (peaOf t.m p).active = none ∧
      t.m.lat.dones = s.m.lat.dones ++
        [{ ctx := u.ctx, seq := u.seq, status := .denied, detail := x, unit := u.unit, phase := u.phase, expertQ := u.expertQ }]) ∧
  (∀ s p a wide op x y rd bs m, isUp s.m = true → (peaOf s.m p).st = .run → a % atomicSize wide = 0 →
    slRead s.m (peaTen s.m p) a (atomicSize wide) = .ok bs →
    slWrite (peaTen s.m p) a (le (atomicSize wide) (atomicNat wide op (unle bs) x.toNat y.toNat)) 
      (chargeBytes p (atomicSize wide) (noteRead (peaTen s.m p) a (atomicSize wide) false s.m)) = .ok m →
    exec (.sliceAtomic p a wide op x y rd) s = .next
      (withM s (modPea p (fun q => { q with scalar := smSet rd (BitVec.ofNat 64 (unle bs)) q.scalar }) (chargeBytes p (atomicSize wide) m)))) ∧
  (∀ s p a wide op x y rd, a % atomicSize wide ≠ 0 → exec (.sliceAtomic p a wide op x y rd) s = .next s) ∧
  (∀ s p, exec (.fence p) s = .next s) ∧
  (∀ s slice line, isUp s.m = true →
    exec (.mergeEntryClose slice line) s = .next (withM s (modMem (fun x =>
      { x with merges := x.merges.filter (· != (slice, line)), mergeBad := x.mergeBad.filter (· != (slice, line)) }) s.m)))

/-- R86, R87: an align group.  The first pea to arrive opens the round and waits in warm hold; the last of N releases every one
together; a pea that names another N fails the round, and so does its time limit: every pea of it goes on, and the failure is
counted once for the module.
That each context of the round is charged is log 54. -/
def Obligations.AlignGroups : Prop :=
  (∀ s p g n, isUp s.m = true → (peaOf s.m p).st = .run → (tenOf s.m (peaTen s.m p)).aligns.find? (·.group == g) = none →
    exec (.align p g n) s = .next
      (withM s (modTen (peaTen s.m p) (fun x => { x with aligns := { group := g, n, peas := [p] } :: x.aligns })
          (modPea p (fun a => { a with st := .aligned, warmHold := true }) s.m)))) ∧
  (∀ s p g r, isUp s.m = true → (peaOf s.m p).st = .run → (tenOf s.m (peaTen s.m p)).aligns.find? (·.group == g) = some r →
    r.peas.length + 1 = r.n → ∃ t, exec (.align p g r.n) s = .next t ∧
      (∀ q, q < s.m.peas.length → q ∈ r.peas ∨ q = p → (peaOf t.m q).st = .run ∧ (peaOf t.m q).warmHold = false ∧ (peaOf t.m q).alignFailed = false) ∧
      (∀ q, q ∉ r.peas → q ≠ p → peaOf t.m q = peaOf s.m q) ∧ t.m.mem = s.m.mem) ∧
  (∀ s p g n r, isUp s.m = true → (peaOf s.m p).st = .run → (tenOf s.m (peaTen s.m p)).aligns.find? (·.group == g) = some r →
    n ≠ r.n → ∃ t, exec (.align p g n) s = .next t ∧
      (∀ q, q < s.m.peas.length → q ∈ r.peas ∨ q = p → (peaOf t.m q).st = .run ∧ (peaOf t.m q).alignFailed = true) ∧
      (∀ q, q ∉ r.peas → q ≠ p → peaOf t.m q = peaOf s.m q) ∧ t.m.mem.alignFail = bump 16 1 s.m.mem.alignFail) ∧
  (∀ s ten g r, isUp s.m = true → (tenOf s.m ten).aligns.find? (·.group == g) = some r → ∃ t, exec (.alignFail ten g) s = .next t ∧
      (∀ q, q < s.m.peas.length → q ∈ r.peas → (peaOf t.m q).st = .run ∧ (peaOf t.m q).alignFailed = true) ∧
      (∀ q, q ∉ r.peas → peaOf t.m q = peaOf s.m q) ∧ t.m.mem.alignFail = bump 16 1 s.m.mem.alignFail ∧
      t.m.mem.sliceMem = s.m.mem.sliceMem)

/-- R61, R62, R100, R103, R111, R112, R412: the numeric instructions of a running pea.  LAYER selects a recipe of the unit; QUANT
writes the elements, side record and spill area of four registers' lanes; a matrix instruction of a warm engine writes its
outputs into the accumulators and counts its MACs, and one of a cold engine waits; TILE adds the tile's counts to its layer; a
vector operation writes the register that it names.
Results that the manual does not state are free values (logs 52, 81, 86, 92); where maximum-with-index puts its two results is the
model's choice (log 104). -/
def Obligations.NumericInstructions : Prop :=
  (∀ s p n u, isUp s.m = true → (peaOf s.m p).st = .run → (peaOf s.m p).active = some u →
    (insRising n (peaOf s.m p).named).length ≤ 8 → (alGet n u.layers).isSome = true →
    exec (.layer p n) s = .next (withM s (modPea p (fun a =>
      { a with layerSel := n, layerSet := true, named := insRising n (peaOf s.m p).named }) s.m))) ∧
  (∀ s p vsrc elem side spill r g, isUp s.m = true → (peaOf s.m p).st = .run → curRecipe (peaOf s.m p) = some r →
    g = quantGroup r (smRead (peaOf s.m p).vector (64 * vsrc) 256) →
    exec (.quant p vsrc elem side spill) s = .next (withM s (modPea p (fun a =>
      { a with acts := memWrite spill g.spill (memWrite side g.side (memWrite elem g.elems a.acts)), tile := addTrouble g.counts a.tile }) s.m))) ∧
  (∀ s p o r, isUp s.m = true → (peaOf s.m p).st = .run → curRecipe (peaOf s.m p) = some r →
    matBad r (peaOf s.m p).acts o = false → (peaOf s.m p).cold = false → p < s.m.peas.length → ∃ t,
    exec (.matrixInstruction p o) s = .next t ∧ t.pending = s.pending ∧ t.nv = s.nv ∧
    (∀ w, w = (matRun r (peaOf s.m p).weights (peaOf s.m p).acts (peaOf s.m p).acc o) →
      (peaOf t.m p).acc = w.accs.foldl (fun z x => smSet x.1 x.2 z) (peaOf s.m p).acc ∧
      (peaOf t.m p).tile = addTrouble w.counts (peaOf s.m p).tile) ∧
    (peaOf t.m p).weights = (peaOf s.m p).weights ∧ (peaOf t.m p).acts = (peaOf s.m p).acts ∧
    (∀ q, q ≠ p → peaOf t.m q = peaOf s.m q) ∧ t.m.mem = s.m.mem ∧ t.m.out = s.m.out) ∧
  (∀ s p o r, isUp s.m = true → (peaOf s.m p).st = .run → curRecipe (peaOf s.m p) = some r →
    matBad r (peaOf s.m p).acts o = false → (peaOf s.m p).cold = true → exec (.matrixInstruction p o) s = .next s) ∧
  (∀ s p u, isUp s.m = true → (peaOf s.m p).st = .run → (peaOf s.m p).active = some u → (peaOf s.m p).layerSet = true →
    exec (.tile p) s = .next (withM s (addCounts u.ctx (peaOf s.m p).layerSel (peaOf s.m p).tile
      (modPea p (fun a => { a with lastTile := a.tile, tile := {} }) s.m)))) ∧
  (∀ s p op rd ra rb rc, isUp s.m = true → p < s.m.peas.length → (peaOf s.m p).st = .run → ∃ t,
    exec (.vectorOperation p op rd ra rb rc) s = .next t ∧
    ((op = .exp2 ∨ op = .log2 ∨ op = .recip ∨ op = .rsqrt ∨ op = .tanh ∨ op = .erf) →
      peaOf t.m p = setVreg rd ((vreg (peaOf s.m p) ra).map (vecFun op)) (peaOf s.m p)) ∧
    (op = .fma → peaOf t.m p = setVreg rd (List.zipWith (fun f c => f c) (List.zipWith fpFma (vreg (peaOf s.m p) ra)
      (vreg (peaOf s.m p) rb)) (vreg (peaOf s.m p) rc)) (peaOf s.m p)) ∧
    (∀ l, l = redLanes (peaOf s.m p) ra rb →
      (op = .sum → peaOf t.m p = setSreg rd ((laneSum (l.length - 1) l).zeroExtend 64) (peaOf s.m p)) ∧
      (op = .max → peaOf t.m p = setSreg rd ((maxIndex l).1.zeroExtend 64) (peaOf s.m p)) ∧
      (op = .maxIdx → peaOf t.m p = setSreg rd ((maxIndex l).1.zeroExtend 64 ||| BitVec.ofNat 64 ((maxIndex l).2 * 2 ^ 32))
        (peaOf s.m p))) ∧
    (∀ q, q ≠ p → peaOf t.m q = peaOf s.m q) ∧ t.m.mem = s.m.mem)

/-- R255, R256, R293: TOPK, ASTAT, ANORM and ARECOMP, each reading and writing the slices it names through its tenancy's map.
exp2 and the reciprocal are the vector unit's (logs 81, 92). -/
def Obligations.AttentionInstructions : Prop :=
  (∀ s p scores e k ix out bs m m', isUp s.m = true → (peaOf s.m p).st = .run → slRead s.m (peaTen s.m p) scores (4 * e) = .ok bs →
    slWrite (peaTen s.m p) ix ((topk (words4 bs) k).flatMap fun x => le 2 x.2) 
      (chargeBytes p (4 * e) (noteRead (peaTen s.m p) scores (4 * e) true s.m)) = .ok m →
    slWrite (peaTen s.m p) out (bytes4 ((topk (words4 bs) k).map (·.1)))
      (chargeBytes p ((topk (words4 bs) k).flatMap fun x => le 2 x.2).length m) = .ok m' →
    exec (.topk p scores e k ix out) s = .next (withM s (modPea p (fun a =>
        { a with tile := addTrouble { invalid := (words4 bs).countP fpIsNan } a.tile })
      (chargeBytes p (bytes4 ((topk (words4 bs) k).map (·.1))).length m')))) ∧
  (∀ s p rec vsrc mask c vdst sdst bs r m, isUp s.m = true → (peaOf s.m p).st = .run → slRead s.m (peaTen s.m p) rec 8 = .ok bs →
    r = astat ((words4 bs).getD 0 0) ((words4 bs).getD 1 0) (vreg (peaOf s.m p) vsrc) mask c →
    slWrite (peaTen s.m p) rec (bytes4 [r.newM, r.newL]) (chargeBytes p 8 (noteRead (peaTen s.m p) rec 8 true s.m)) = .ok m →
    exec (.astat p rec vsrc mask c vdst sdst) s = .next (withM s
      (modPea p (fun a => setSreg sdst (r.alpha.zeroExtend 64) (setVreg vdst r.p a)) (chargeBytes p 8 m)))) ∧
  (∀ s p rec vsrc vdst bs l, isUp s.m = true → (peaOf s.m p).st = .run → slRead s.m (peaTen s.m p) rec 8 = .ok bs →
    l = (words4 bs).getD 1 0 →
    exec (.anorm p rec vsrc vdst) s = .next (withM s (modPea p (fun a =>
      setVreg vdst ((vreg a vsrc).map fun x => if numIsZero (fpNum l) then 0 else fpMul x (recipL l)) a)
      (chargeBytes p 8 (noteRead (peaTen s.m p) rec 8 true s.m))))) ∧
  (∀ s p rec vsrc mask c vdst bs, isUp s.m = true → (peaOf s.m p).st = .run → slRead s.m (peaTen s.m p) rec 8 = .ok bs →
    exec (.arecomp p rec vsrc mask c vdst) s = .next (withM s (modPea p (fun a =>
      setVreg vdst ((maskedScores mask c (vreg a vsrc)).map fun y =>
        fpMul (vecFun .exp2 (fpAdd y (fpNeg ((words4 bs).getD 0 0)))) (recipL ((words4 bs).getD 1 0))) a)
      (chargeBytes p 8 (noteRead (peaTen s.m p) rec 8 true s.m)))))

/-- R176, R177, R179: a plain MOVE between slices starts without touching a byte; when it completes, the bytes of its row are at
their destination and, after the LAST descriptor, the unit is done; a MOVE whose bytes have gone completes its descriptor; a stall
that has lasted its context's limit ends the unit with TIER_FAIL naming the page, and is counted.
That the bytes move when the MOVE completes is log 55. -/
def Obligations.MovesAndStalls : Prop :=
  (∀ s p u d b, isUp s.m = true → p < s.m.peas.length → (peaOf s.m p).st = .ready → (peaOf s.m p).active = some u →
    u.descs[(peaOf s.m p).ix]? = some d → d.gated = false → d.body = .move b → moveValid b = true → b.op = 0 → s.m.life.removal = false →
    ∃ t, exec (.move p) s = .next t ∧ t.pending = s.pending ∧ t.nv = s.nv ∧ (peaOf t.m p).st = .moving ∧ (peaOf t.m p).mvTodo = true ∧
      (peaOf t.m p).active = some u ∧ (∀ q, q ≠ p → peaOf t.m q = peaOf s.m q) ∧ t.m.mem = s.m.mem ∧ t.m.lat = s.m.lat) ∧
  (∀ s p u d b bs m, isUp s.m = true → p < s.m.peas.length → (peaOf s.m p).st = .moving → (peaOf s.m p).pkts = [] →
    (peaOf s.m p).mvStatus = .ok → (peaOf s.m p).mvTodo = true → (peaOf s.m p).active = some u →
    u.descs[(peaOf s.m p).ix]? = some d → d.body = .move b → d.last = true → b.op = 0 → b.cmp = 0 → b.rows = 1 →
    slRead s.m u.ten b.src b.rowBytes = .ok bs →
    slWrite u.ten b.dst bs (noteRead u.ten b.src b.rowBytes true s.m) = .ok m →
    ∃ t, exec (.moveComplete p) s = .next t ∧ t.pending = s.pending ∧ t.nv = s.nv ∧ (peaOf t.m p).st = .done ∧
      (peaOf t.m p).active = some u ∧ (∀ q, q ≠ p → peaOf t.m q = peaOf s.m q) ∧ t.m.mem = m.mem ∧ t.m.lat = s.m.lat) ∧
  (∀ s p u d b, isUp s.m = true → p < s.m.peas.length → (peaOf s.m p).st = .moving → (peaOf s.m p).pkts = [] →
    (peaOf s.m p).mvStatus = .ok → (peaOf s.m p).mvTodo = false → (peaOf s.m p).mvPhase = 0 → (peaOf s.m p).active = some u →
    u.descs[(peaOf s.m p).ix]? = some d → d.body = .move b → d.last = true →
    exec (.moveComplete p) s = .next (withM s (modPea p (fun a => { a with st := .done }) s.m))) ∧
  (∀ s p t tier n us u, isUp s.m = true → p < 192 → p < s.m.peas.length → (peaOf s.m p).st = .stalled t [(n, tier, us)] →
    (peaOf s.m p).active = some u → due s.m us (u.stallMs * 1000) = true →
    ∃ x, exec (.stallLimitExpiry p) s = .next x ∧ (peaOf x.m p).active = none ∧
      x.m.mem.stalls = bump 32 1 s.m.mem.stalls ∧ x.m.mem.stallFailed = bump 16 1 s.m.mem.stallFailed ∧
      x.m.lat.dones = s.m.lat.dones ++
        [{ ctx := u.ctx, seq := u.seq, status := .tierFail, detail := n % 2 ^ 24, unit := u.unit, phase := u.phase, expertQ := u.expertQ }])

/-! ### Exchanges, collectives and shards -/

/-- R294, R299, R303 to R305, R308, R309: the expert exchange.  Each of its commands answers a next state, given here whole,
from conditions on the state and the operands alone.  EXCHANGE_ROUND_START: the round of a layer starts once its step's router
phase is done (R294).  QUEUE_HEADER_RECEIVE: a queue takes in the header of a source that it awaits, the last one completing the
round, and any other is rejected and counted (R299).  QUEUE_ROW_RECEIVE: a row of the round in progress and its tag are written
(R299).  QUEUE_RETURN_HEADERS: the return headers of a served round go (R303).  GATHER_ANSWER_RECEIVE: an answer that passes R304's
checks lands in the gather area, its tag set to OK, and one of no open round is stale.  GATHER_RETURN_HEADER: a return header lets
the rows held back for its expert go (R297, R305).  EXPERT_ROUND_DEADLINE: a round still open at its deadline is faulted at the
boundary (R308, R309).  RETURN: the answer to a row of this module goes to its gather area and is counted (R303).
The row of a deadline is acted on at the boundary last fired (log 35). -/
def Obligations.ExchangeHappenings : Prop :=
  (∀ s c layer q ph x l, isUp s.m = true → q ∈ s.m.stp.steps → (∀ y ∈ s.m.stp.steps, y.ctx = c → y = q) → q.ctx = c →
    q.areaDone = true → q.cutDone = false → ph < q.blk.phases → routerDone s.m q ph = true → (phaseAt s.m q ph).bind (expertOf s.m c) = some x →
    x.blk.layer = layer → findLayout s.m c layer = some l → l.isOpen = false →
    exec (.exchangeRoundStart c layer) s = .next (withM s (startRound s.nv.flash.state c layer q.seq false s.m))) ∧
  (∀ s t q h k l b x, isUp s.m = true → findQueue s.m t q = some k → queueLayout s.m k = some l → b = h.round % 2 → x = bufOf k b →
    h.type = 1 → h.layoutId = k.blk.layoutId → h.round = x.round → h.index < l.blk.sources.length → x.faulted = false →
    (x.hdrs.any fun y => y.1 == h.index) = false → h.fault = false → x.hdrs.length + 1 ≠ l.blk.sources.length →
    exec (.queueHeaderReceive t q h) s = .next (withM s
      (slPut t (ctrlAt k l.blk b) (le 4 (x.hdrs.length + 1)) (slPut t (ctrlAt k l.blk b + 4) (le 4 (bufTotal x + h.count))
        (slPut t (ctrlAt k l.blk b + 16 + 16 * h.index) (hdrBytes h) (modBuf t q b (fun x => { x with hdrs := x.hdrs ++ [(h.index, h)] }) s.m)))))) ∧
  (∀ s t q h k l b x, isUp s.m = true → findQueue s.m t q = some k → queueLayout s.m k = some l → b = h.round % 2 → x = bufOf k b →
    h.type = 1 → h.layoutId = k.blk.layoutId → h.round = x.round → h.index < l.blk.sources.length → x.faulted = false →
    (x.hdrs.any fun y => y.1 == h.index) = false → h.fault = false → x.hdrs.length + 1 = l.blk.sources.length →
    exec (.queueHeaderReceive t q h) s = .next (withM s (settleQueue s.nv.flash.state t q b (completeRound t q b
      (slPut t (ctrlAt k l.blk b) (le 4 (x.hdrs.length + 1)) (slPut t (ctrlAt k l.blk b + 4) (le 4 (bufTotal x + h.count))
        (slPut t (ctrlAt k l.blk b + 16 + 16 * h.index) (hdrBytes h) (modBuf t q b (fun x => { x with hdrs := x.hdrs ++ [(h.index, h)] }) s.m)))))))) ∧
  (∀ s t q h, isUp s.m = true → findQueue s.m t q = none ∨ h.type ≠ 1 →
    exec (.queueHeaderReceive t q h) s = .next (withM s (modStp (fun x => { x with badHdr := bump 16 1 x.badHdr }) s.m))) ∧
  (∀ s t q pos g row k l b x m, isUp s.m = true → findQueue s.m t q = some k → queueLayout s.m k = some l → b = g.round % 2 →
    x = bufOf k b → g.round = x.round → x.faulted = false → g.source < l.blk.sources.length → pos < l.blk.srcCap →
    m = modBuf t q b (fun x => { x with rowsIn := true }) s.m →
    dataBad m t k (tagOff l.blk b g.source pos) 16 = false → dataBad m t k (rowOff l.blk b g.source pos) (rowBytes l.blk) = false →
    exec (.queueRowReceive t q k.blk.layoutId pos g row) s = .next (withM s
      (putData t k (rowOff l.blk b g.source pos) (padTo (rowBytes l.blk) row)
        (putData t k (tagOff l.blk b g.source pos) (tagBytes { g with status := 0 }) m)))) ∧
  (∀ s t q k l x, isUp s.m = true → findQueue s.m t q = some k → queueLayout s.m k = some l → x = bufOf k (k.expected % 2) →
    x.complete = true → x.acted = true → x.todo = [] → queueUnitsGone s.m t q (k.expected % 2) = true →
    exec (.queueReturnHeaders t q) s = .next (withM s (returnHeaders s.nv.flash.state t q s.m))) ∧
  (∀ s c layer g ans l bs ten m, isUp s.m = true → findLayout s.m c layer = some l → ten = (ctxOf s.m c).ten → l.isOpen = true →
    g.round = l.openRound → (slotOf s.m c g.slot).gen = g.gen → g.row < l.rows → g.rank < l.blk.topk →
    slRead s.m ten (gatherTag l g.row g.rank) 16 = .ok bs → (readTag bs).status = 0 → (readTag bs).slot = g.slot →
    (readTag bs).gen = g.gen → (readTag bs).expert = g.expert → m = noteRead ten (gatherTag l g.row g.rank) 16 true s.m →
    exec (.gatherAnswerReceive c layer g ans) s = .next (withM s (modStp (fun x => { x with answers := bump 32 1 x.answers })
      (slPut ten (gatherTag l g.row g.rank + 7) [1] (slPut ten (gatherAnswer l g.row g.rank) (padTo (ansBytes l.blk) ans) m))))) ∧
  (∀ s c layer g ans l, isUp s.m = true → findLayout s.m c layer = some l → l.isOpen = false ∨ g.round ≠ l.openRound →
    exec (.gatherAnswerReceive c layer g ans) s = .next (withM s (modStp (fun x => { x with stale := bump 16 1 x.stale }) s.m))) ∧
  (∀ s c layer h l, isUp s.m = true → findLayout s.m c layer = some l → h.type = 2 → h.layoutId = l.blk.layoutId →
    h.index < l.blk.experts.length → alGet h.index l.lastReturn = none → l.isOpen = false →
    exec (.gatherReturnHeader c layer h) s = .next (withM s (sendWaiting s.nv.flash.state c layer
      (modLayout c layer (fun l => { l with lastReturn := alSet h.index h.round l.lastReturn }) s.m)))) ∧
  (∀ s c layer l, isUp s.m = true → findLayout s.m c layer = some l → l.isOpen = true → l.passCut = true →
    l.startTick + (if l.blk.hdrWait = 0 then 8 else l.blk.hdrWait) ≤ s.m.tick.count →
    exec (.expertRoundDeadline c layer) s = .next (withM s (endWrites (faultRounds c l (openRounds s.m c l false) 0 .poisoned 4 s.m)))) ∧
  (∀ s p t q ta aa k l bs ans node m, isUp s.m = true → (peaOf s.m p).st = .run → peaTen s.m p = t → findQueue s.m t q = some k →
    queueLayout s.m k = some l → k.blk.dataSlice = true → slRead s.m t ta 16 = .ok bs →
    m = chargeBytes p 16 (noteRead t ta 16 true s.m) → slRead m t aa (ansBytes l.blk) = .ok ans →
    l.blk.sources[(readTag bs).source]? = some node → node = selfNode s.m →
    exec (.returnAnswer p t q ta aa) s = .next (withM s (gatherReceive k.ctx l.blk.layer (readTag bs) ans
      (modBuf t q ((readTag bs).round % 2) (fun x =>
        { x with answers := alSet (readTag bs).source ((alGet (readTag bs).source x.answers).getD 0 + 1) x.answers })
        (chargeBytes p (ansBytes l.blk) (noteRead t aa (ansBytes l.blk) true m))))))

/-- R375 to R378: a collective.  Each of its commands answers a next state, given here whole, from conditions on the state and the
operands alone.  COLLECT opens the round of a collective whose members are all present, and is refused with a record and a count
where a round is open or the count is wrong (R375).  COLL_HEADER_RECEIVE: a header in its turn is written to the receive area and
acted on, and any other is rejected and counted (R376, R377).  COLL_ROUND_DEADLINE: a round open past its time faults with POISONED
and DETAIL 4 (R378).
The corners of a refused COLLECT and of wire data are logs 73 and 74; OUT after a fault is free (log 75). -/
def Obligations.CollectiveHappenings : Prop :=
  (∀ s p id inA outA count recA counter u k, isUp s.m = true → (peaOf s.m p).st = .run → (peaOf s.m p).active = some u →
    findColl s.m u.ctx id = some k → k.isOpen = false → count ≤ k.blk.maxCount → count % 256 = 0 →
    k.blk.nodes.all (s.m.tick.members.contains ·) = true →
    exec (.collect p id inA outA count recA counter) s = .next (withM s (beginRound s.nv.flash.state u.ctx id
      (waitsRemote u.ten counter (modColl u.ctx id (fun k =>
        { k with isOpen := true, seq := u.seq, pea := p, count, inAddr := inA, outAddr := outA, recAddr := recA
                 counterAddr := counter, startTick := s.m.tick.count, sent := [] }) s.m))))) ∧
  (∀ s p id inA outA count recA counter u k, isUp s.m = true → (peaOf s.m p).st = .run → (peaOf s.m p).active = some u →
    findColl s.m u.ctx id = some k → k.isOpen = true ∨ k.blk.maxCount < count ∨ count % 256 ≠ 0 →
    exec (.collect p id inA outA count recA counter) s = .next (withM s
      (exchPut u.ctx u.seq recA (le 4 k.round ++ le 1 2 ++ [1] ++ zeros 10)
        (modFab (fun f => { f with collRefused := bump 16 1 f.collRefused }) s.m)))) ∧
  (∀ s c h k slot, isUp s.m = true → findColl s.m c h.collId = some k → slot = slotNo k h.round h.stage →
    h.round = (if h.round % 2 = k.round % 2 then k.round else wrap 32 (k.round + 1)) → h.stage ∈ owedHeaders k → h.sender = prevRank k →
    alGet slot k.arrived = none →
    exec (.collHeaderReceive c h) s = .next (withM s (actHeader s.nv.flash.state c h.collId h.round h.stage
      (modColl c h.collId (fun k => { k with arrived := alSet slot h k.arrived, late := [] })
        (slPut (collTen s.m c) (k.blk.recv + hdrOff k slot) (collHdrBytes h) s.m))))) ∧
  (∀ s c h, isUp s.m = true → findColl s.m c h.collId = none →
    exec (.collHeaderReceive c h) s = .next (withM s (modFab (fun f => { f with collBad := bump 16 1 f.collBad }) s.m))) ∧
  (∀ s c h k, isUp s.m = true → findColl s.m c h.collId = some k → h.sender ≠ prevRank k →
    exec (.collHeaderReceive c h) s = .next (withM s (modColl c h.collId (fun k => { k with late := k.late.filter (· != slotNo k h.round h.stage) })
      (modFab (fun f => { f with collBad := bump 16 1 f.collBad }) s.m)))) ∧
  (∀ s c id k, isUp s.m = true → findColl s.m c id = some k → k.isOpen = true →
    k.startTick + (if k.blk.waitTicks = 0 then 8 else k.blk.waitTicks) ≤ s.m.tick.count →
    exec (.collRoundDeadline c id) s = .next (withM s
      (endWrites (settleAll s.nv.flash.state (faultColl s.nv.flash.state c id .poisoned 4 s.m)))))

/-- R383 to R388: shards.  A chunk read from its source or received in its size is taken in; the install whose bytes are all in
and whose digest is that of the manifest becomes pages of its tenancy and answers OK with their number, and otherwise its record
goes and it answers DIGEST_MISMATCH; an install whose upstream is silent for a second ends with TARGET_LOST naming it; a shard
whose turn it is to be verified is checked; a manifest's check is done.
The corners of installs and checks are log 76. -/
def Obligations.ShardHappenings : Prop :=
  (∀ s t slot shard data k, isUp s.m = true → findShard s.m t slot shard = some k → k.st = .installing → k.blk.upstream = true →
    data.length = min 65536 (k.length - 65536 * k.next) → ∀ r, r = takeChunk t k data s.nv s.m →
    exec (.shardChunkProcess t slot shard data false false) s = .next { s with nv := r.1, m := settleAll r.1.flash.state r.2 }) ∧
  (∀ s t slot shard data k bs off n, isUp s.m = true → findShard s.m t slot shard = some k → k.st = .installing → k.blk.upstream = false →
    n = min 65536 (k.length - 65536 * k.next) → off = k.blk.src + 65536 * k.next → s.nv.flash.state ≠ .offline →
    devRead s.m t off n = .ok bs → ∀ r, r = takeChunk t k bs s.nv (noteDev t off n s.m) →
    exec (.shardChunkProcess t slot shard data false false) s = .next { s with nv := r.1, m := settleAll r.1.flash.state r.2 }) ∧
  (∀ s t slot shard k, isUp s.m = true → findShard s.m t slot shard = some k → k.st = .hashed →
    (shardEntry s.m t slot shard).map (·.2) = some (sha256 k.bytes) →
    ∀ (m : Mach) (pages : List Page), m = devPut t (k.blk.basePage * pageSize) k.bytes s.m →
    pages = (List.range (shardPages k)).map (fun i =>
      ({ ten := t, num := k.blk.basePage + i, key := k.key, tier := k.tiers.getD i .hbm, pin := bit k.blk.pinHbm
         lastTouch := s.m.tick.count, ctx := k.ctx, claim := 4, owner := 65536 * slot + shard
         crcs := if k.tiers.getD i .hbm == .hbm then [] else pageCrcs m t (k.blk.basePage + i) } : Page)) →
    exec (.shardInstallFinalize t slot shard) s = .next (withM s (endWrites
      (finalise k.ctx k.seq .ok (shardPages k % 2 ^ 24 + 2 ^ 31 * bit k.fwdFail)
        (forEach (pages.filter (·.tier == .flash)) (fun g => countImage t g.num)
          (modMem (fun x => { x with pages := x.pages ++ pages })
            (modShard t slot shard (fun z =>
              { z with st := .installed, bytes := [], lastGood := s.m.tick.count, dueUs := s.m.tick.nowUs + hoursUs z.hours }) m))))))) ∧
  (∀ s t slot shard k, isUp s.m = true → findShard s.m t slot shard = some k → k.st = .hashed →
    (shardEntry s.m t slot shard).map (·.2) ≠ some (sha256 k.bytes) →
    exec (.shardInstallFinalize t slot shard) s = .next (withM s (endWrites
      (finalise k.ctx k.seq .digestMismatch shard (countInstallFail (dropShard t slot shard s.m)))))) ∧
  (∀ s t slot shard k, isUp s.m = true → findShard s.m t slot shard = some k → k.st = .installing → k.blk.upstream = true →
    k.lastHdrUs + 1000000 ≤ s.m.tick.nowUs →
    exec (.shardUpstreamTimeout t slot shard) s = .next (withM s (endWrites (stopInstall s.nv.flash.state t k .targetLost k.blk.upNode s.m)))) ∧
  (∀ s t k bs m, isUp s.m = true → nextCheck s.m = some (t, k) →
    m = noteDev t (k.blk.basePage * pageSize) k.length (modFab (fun f => { f with shVerBytes := f.shVerBytes + k.length }) s.m) →
    devRead m t (k.blk.basePage * pageSize) k.length = .ok bs →
    (shardEntry m t k.blk.slot k.blk.shard).map (·.2) = some (sha256 bs) →
    exec .shardBackgroundVerify s = .next (withM s (endWrites
      (forEach k.verifies (fun v => finalise v.1 v.2 .ok 0)
        (modFab (fun f => { f with shVerified := bump 16 1 f.shVerified })
          (modShard t k.blk.slot k.blk.shard (fun z =>
            { z with lastGood := m.tick.count, dueUs := m.tick.nowUs + hoursUs z.hours, verifies := [] }) m)))))) ∧
  (∀ s t k bs m, isUp s.m = true → nextCheck s.m = some (t, k) →
    m = noteDev t (k.blk.basePage * pageSize) k.length (modFab (fun f => { f with shVerBytes := f.shVerBytes + k.length }) s.m) →
    devRead m t (k.blk.basePage * pageSize) k.length = .ok bs →
    (shardEntry m t k.blk.slot k.blk.shard).map (·.2) ≠ some (sha256 bs) →
    exec .shardBackgroundVerify s = .next (withM s (endWrites
      (forEach k.verifies (fun v => finalise v.1 v.2 .digestMismatch k.blk.shard) (checkFails t k 0 m)))) ) ∧
  (∀ s t slot, isUp s.m = true → exec (.manifestCheckDone t slot) s = .next (withM s
    (modManifest t slot (fun k => if k.done && !k.loaded then { k with checked := true } else k) s.m)))

/-! ### Tiers, flash and protection -/

/-- R186, R199, R163, R252: migrations.  One that was asked for starts once its page may move and a frame is free, and holds
that frame; its commit gives the page its new home with the CRCs that it is to carry (R198), keeps the old frame until it is freed,
counts the direction and lets everything that waits go on, unless a block of the source does not match its CRC, when the page stays
where it is and its waiters get POISONED; a source frame is freed; a reclaimed page leaves the queue; a pool past its LPDDR5X
limit asks for its oldest page to go to flash. -/
def Obligations.MigrationHappenings : Prop :=
  (∀ s t n tier dest g a, isUp s.m = true → s.m.life.removal = false → dest = tierOf tier →
    s.m.mem.asks.find? (fun a => a.ten == t && a.page == n && a.dest == dest) = some a → findPage s.m t n = some g →
    g.claim ≠ 1 ∨ dest ≠ .hbm ∨ (∃ p, findPool s.m t g.owner = some p ∧ poolRoom s.m t p = true) →
    g.mig = none → g.tier ≠ dest → keyFrozen s.m t g.key = false → ¬ (dest = .hbm ∧ g.tier ≠ .zero ∧ g.crcBad ≠ []) →
    (a.victim = true → stillVictim s.m t g = true) → (isSpill a g = false → pinHolds g dest = false) →
    ¬ (dest = .flash ∧ (s.nv.flash.state = .readOnly ∨ s.nv.flash.state = .offline)) →
    ¬ (g.tier = .flash ∧ s.nv.flash.state = .offline) → freeFrames s.m dest ≠ 0 →
    (height g.tier < height dest → ∀ b ∈ s.m.mem.asks.takeWhile (fun a => !(a.ten == t && a.page == n && a.dest == dest)),
      isPromotion s.m b = true → askNow s.nv.flash.state s.m b ≠ .start) →
    exec (.promotionStart t n tier) s = .next (withM s (modPage t n (fun g =>
      { g with mig := some { dest, kv := a.kv }, pin := if isSpill a g then 0 else g.pin })
      (modMem (fun x => { x with asks := x.asks.filter fun a => !(a.ten == t && a.page == n && a.dest == dest) }) s.m)))) ∧
  (∀ s t n tier dest g a, isUp s.m = true → dest = tierOf tier →
    s.m.mem.asks.find? (fun a => a.ten == t && a.page == n && a.dest == dest) = some a → findPage s.m t n = some g →
    g.tier ≠ dest → g.mig = none → keyFrozen s.m t g.key = false → ¬ (dest = .hbm ∧ g.tier ≠ .zero ∧ g.crcBad ≠ []) →
    (a.victim = true → stillVictim s.m t g = true) → (isSpill a g = false → pinHolds g dest = false) →
    ¬ (dest = .flash ∧ (s.nv.flash.state = .readOnly ∨ s.nv.flash.state = .offline)) →
    ¬ (g.tier = .flash ∧ s.nv.flash.state = .offline) → freeFrames s.m dest = 0 → exec (.promotionStart t n tier) s = .next s) ∧
  (∀ s t n tier, s.m.life.removal = true → exec (.promotionStart t n tier) s = .next s) ∧
  (∀ s t n g mg errs x, isUp s.m = true → findPage s.m t n = some g → g.mig = some mg → g.tier ≠ .zero → pagePoisoned s.m t n = false →
    ¬ (mg.dest = .hbm ∧ g.crcBad ≠ []) →
    ¬ (mg.dest = .flash ∧ (s.nv.flash.state = .readOnly ∨ s.nv.flash.state = .offline)) →
    (g.tier = .flash ∨ (g.tier = .lp ∧ mg.dest = .hbm) → ∀ b, b < 32 → blockFails s.m t g errs b = false) →
    x = readSource t g errs (countDecoded t g errs s.m) →
    ∀ m, m = countMove t g mg (landPage t n g mg.dest x) →
      findPage m t n = some { g with tier := mg.dest, mig := none, oldFrames := g.oldFrames ++ [g.tier], asked := g.asked && mg.dest != .hbm
                                     crcs := if mg.dest == .hbm then [] else if g.tier == .hbm then pageCrcs x t n else g.crcs } ∧
      m.mem.promoted = (if height g.tier < height mg.dest then bump 32 1 s.m.mem.promoted else s.m.mem.promoted) ∧
      m.mem.demoted = (if height g.tier < height mg.dest then s.m.mem.demoted else bump 32 1 s.m.mem.demoted) ∧
      m.mem.dev = x.mem.dev ∧ (g.tier ≠ .hbm → errs = [] → m.mem.dev = s.m.mem.dev) ∧
      exec (.migrationCommit t n errs) s = .next
        { s with
            nv := { s.nv with flash := flashPart g mg.dest s.nv.flash }
            m := pageArrives s.nv.flash.state t n (captureAt [3, t, n] 0x07 5 t (le 4 n) (settlePage t n (some mg.dest)
              (pinPoolPage t n (onlyIf (g.tier == .flash) (chanRetries s.nv.flash) (chargeMigration g m))))) }) ∧
  (∀ s t n g mg errs bad, isUp s.m = true → findPage s.m t n = some g → g.mig = some mg →
    g.tier = .flash ∨ (g.tier = .lp ∧ mg.dest = .hbm) → bad = (List.range 32).filter (blockFails s.m t g errs) → bad ≠ [] →
    exec (.migrationCommit t n errs) s = .next (withM s (sourceBad s.nv.flash.state t n (markBlocks t n 2 bad (countDecoded t g errs s.m))))) ∧
  (∀ s t n, isUp s.m = true → (∀ x ∈ s.m.mem.lingering, x.1 ≠ t ∨ x.2.1 ≠ n) →
    exec (.sourceFrameRelease t n) s = .next (withM s (modPage t n (fun g => { g with oldFrames := g.oldFrames.tail }) s.m))) ∧
  (∀ s t n d r, isUp s.m = true → s.m.mem.lingering = (t, n, d) :: r →
    exec (.sourceFrameRelease t n) s = .next (withM s (modMem (fun x => { x with lingering := r }) s.m))) ∧
  (∀ s x r, isUp s.m = true → s.m.mem.reclaimQ = x :: r →
    exec .pageReclaim s = .next (withM s { s.m with mem := { s.m.mem with reclaimQ := r }
                                                    ten := { s.m.ten with reclaimed := bump 32 1 s.m.ten.reclaimed } })) ∧
  (∀ s t k p g, isUp s.m = true → findPool s.m t k = some p → p.geo.lpPages < ((poolPages s.m t k).filter (·.tier == .lp)).length →
    s.nv.flash.state ≠ .readOnly → s.nv.flash.state ≠ .offline →
    (sortBy victimLe (((poolPages s.m t k).filter (·.tier == .lp)).filter fun g => !leaving s.m g)).head? = some g →
    exec (.kvFlashDemote t k) s = .next (withM s (askKv t g.num .flash s.m)))

/-- R188 to R191: the flash tier's own work.  A block is relocated for retention or read disturb and counted, an erase
advances the life used and WARN is entered at 90 %, a failed program or erase retires its block, a lost die is rebuilt while parity
covers it and takes the tier OFFLINE otherwise, a channel trains again, and the state moves only downward and where Table 7.10's
condition holds: any other change of it changes nothing.
The block numbers that a lost die retires are log 60. -/
def Obligations.FlashHappenings : Prop :=
  (∀ s b, isUp s.m = true → b ∉ s.nv.flash.retiredBlocks →
    exec (.flashRetentionScan b true) s = .next
      { s with nv := { s.nv with flash := relocate { s.nv.flash with retention := bump 32 1 s.nv.flash.retention } } }) ∧
  (∀ s b, isUp s.m = true → exec (.flashRetentionScan b false) s = .next s) ∧
  (∀ s b, isUp s.m = true → b ∉ s.nv.flash.retiredBlocks →
    exec (.flashReadDisturbRelocate b) s = .next
      { s with nv := { s.nv with flash := relocate { s.nv.flash with disturb := bump 32 1 s.nv.flash.disturb } } }) ∧
  (∀ s b, isUp s.m = true → b ∉ s.nv.flash.retiredBlocks → ∃ t, exec (.flashFreeBlockCollect { block := b, fails := false }) s = .next t ∧
    t.nv.flash.lifePct = max s.nv.flash.lifePct (min 255 (Config.meanEraseCount s.nv.flash.choices * 100 / 3000)) ∧
    t.nv.flash.eraseSpread = min 200 (Config.eraseSpread s.nv.flash.choices) ∧
    flashRank s.nv.flash.state ≤ flashRank t.nv.flash.state ∧
    (250 ≤ s.nv.flash.sparePermille → t.nv.flash.lifePct < 90 → t.nv.flash.state = s.nv.flash.state) ∧
    (s.nv.flash.state = .normal → 50 ≤ s.nv.flash.sparePermille → 90 ≤ t.nv.flash.lifePct → t.nv.flash.state = .warn) ∧
    (t.m.flashTick.lifeTick = true ↔ s.m.flashTick.lifeTick = true ∨ t.nv.flash.lifePct / 10 ≠ s.nv.flash.lifePct / 10)) ∧
  (∀ s b c, isUp s.m = true → b ∉ s.nv.flash.retiredBlocks → c = Instr.flashProgramFail b ∨ c = Instr.flashFreeBlockCollect { block := b, fails := true } →
    ∃ t, exec c s = .next t ∧
    t.nv.flash.retiredBlocks = b :: s.nv.flash.retiredBlocks ∧ t.nv.flash.retired = bump 32 1 s.nv.flash.retired ∧
    t.nv.flash.sparePermille ≤ s.nv.flash.sparePermille ∧ t.m.flashTick.retiredTick = bump 16 1 s.m.flashTick.retiredTick ∧
    t.m.mem = s.m.mem) ∧
  (∀ s dest ch, isUp s.m = true → flashRank s.nv.flash.state < flashRank dest → dest ≠ .offline → flashDue s.nv.flash dest = true →
    exec (.flashStateChange dest ch) s = .next
      { s with nv := { s.nv with flash := { s.nv.flash with state := dest } }
               m := { s.m with flashTick := { s.m.flashTick with changedTick := true } } }) ∧
  (∀ s dest ch, isUp s.m = true → flashRank dest ≤ flashRank s.nv.flash.state ∨ flashDue s.nv.flash dest = false →
    exec (.flashStateChange dest ch) s = .next s) ∧
  (∀ s ch blocks covered, isUp s.m = true → ∃ t, exec (.flashDieLoss ch blocks covered) s = .next t ∧
    (covered = true → t.nv.flash.rebuilt = bump 16 (Config.rebuiltChunks s.nv.flash.choices) s.nv.flash.rebuilt ∧
      t.nv.flash.retired = bump 32 blocks s.nv.flash.retired ∧ t.m.mem = s.m.mem) ∧
    (covered = false → t.nv.flash.state = .offline)) ∧
  (∀ s ch, isUp s.m = true → exec (.flashChannelRetrain ch) s = .next (withM s
    { s.m with chan := { s.m.chan with nvLpddr4 := s.m.chan.nvLpddr4.set ch true, retries := s.m.chan.retries.set ch 0 } }))

/-- R15, R19, R20, R193, R199, R201, R204, R208, R210: scrubbing, repair and retries.  A scrub of the slices corrects a byte with
one wrong bit and counts it, and marks one with two as poison, counted and latched; a verify pass marks a block that does not match
its CRC; a queued repair rewrites what its code corrects; a retry or a replay is counted, and the fourth failure in a row is
uncorrectable or, for a Turnip core, halts it; a copied row's remap is installed.
What counts as one HBM3E row is log 59; what the fourth reissue of a command reports is the model's choice (log 106). -/
def Obligations.ScrubbingAndRetries : Prop :=
  (∀ s a i, isUp s.m = true → s.m.mem.sliceErr = [] → a ∉ s.m.mem.slicePoison → i < 13 →
    ∃ t, exec (.sramScrubPass [a] [2 ^ i]) s = .next t ∧
    t.m.ecc.sramCorrected = bump 32 1 s.m.ecc.sramCorrected ∧ t.m.ecc.sramPasses = bump 16 1 s.m.ecc.sramPasses ∧
    t.m.ecc.sramUncorr = bump 16 0 s.m.ecc.sramUncorr ∧ t.m.lat = s.m.lat ∧ t.m.mem.sliceMem = s.m.mem.sliceMem ∧
    t.m.mem.sliceErr = [] ∧ t.m.mem.slicePoison = s.m.mem.slicePoison) ∧
  (∀ s a i j, isUp s.m = true → s.m.mem.sliceErr = [] → a ∉ s.m.mem.slicePoison → i < j → j < 13 →
    ∃ t, exec (.sramScrubPass [a] [2 ^ i + 2 ^ j]) s = .next t ∧
    t.m.ecc.sramCorrected = bump 32 0 s.m.ecc.sramCorrected ∧ t.m.ecc.sramPasses = bump 16 1 s.m.ecc.sramPasses ∧
    t.m.ecc.sramUncorr = bump 16 1 s.m.ecc.sramUncorr ∧ (0, a / 64) ∈ t.nv.candidates ∧
    t.m.lat.errs = s.m.lat.errs ++ [{ store := .slice, foundBy := 1, ctx := 0, seq := none, source := 0, loc := a, view := 0 }] ∧
    t.m.mem.slicePoison = insRising a s.m.mem.slicePoison) ∧
  (∀ s ws, isUp s.m = true → s.m.mem.devErr = [] → ∃ t, exec (.hbmScrubPass [] [] ws) s = .next t ∧
    t.m.ecc.hbmCorrected = bump 32 0 s.m.ecc.hbmCorrected ∧ t.m.ecc.hbmPasses = bump 16 1 s.m.ecc.hbmPasses ∧
    t.m.ecc.hbmUncorr = bump 16 0 s.m.ecc.hbmUncorr ∧ t.m.lat = s.m.lat ∧ t.m.mem = s.m.mem) ∧
  (∀ s t n g place v b, isUp s.m = true → findPage s.m t n = some g → g.tier = .lp → b = place / crcBlock → b < 32 → b ∉ g.crcBad →
    (∀ c, c < 32 → c ∉ g.crcBad → (blockFails s.m t g [(b * 2 ^ 17 + place % crcBlock, v)] c = true ↔ c = b)) →
    exec (.lpVerifyPass [(t, n, place, v)]) s = .next (withM s
      (onlyIf (g.mig.any (·.dest == .hbm)) (sourceBad s.nv.flash.state t n) (markBlocks t n 3 [b] s.m)))) ∧
  (∀ s slice, exec (.scrubForcedGrant slice) s = .next s) ∧
  (∀ s u k, isUp s.m = true → s.m.mem.hbmRepair.filter (·.1 == u) = [(u, k)] → unitVerdict false (unitErrs s.m k) ≠ .uncorrectable →
    exec (.repairRewrite true u) s = .next (withM s
      (modMem (fun x => { x with devErr := smClear (128 * k) (128 * k + 128) x.devErr })
        (modMem (fun x => { x with hbmRepair := x.hbmRepair.filter (·.1 != u) }) s.m)))) ∧
  (∀ s u, isUp s.m = true → u ∈ s.m.mem.sliceRepair → exec (.repairRewrite false u) s = .next (withM s
    (modMem (fun x => { closeMerges (64 * u) (64 * u + 64) x with
      sliceErr := x.sliceErr.filter fun e => e.1 / 64 != u || (storedByte s.m e.1 (smGet e.1 x.sliceMem)).isNone
      sliceRepair := x.sliceRepair.filter (· != u) }) s.m))) ∧
  (∀ s w r place ok n, isUp s.m = true → n = (alGet r s.m.ecc.lpRun).getD 0 → ok = true ∨ n < 2 →
    exec (.lpLinkRetry { who := w, num := r, place } ok) s = .next (withM s (modEcc (fun e =>
      { e with lpLinkRetry := bump 16 1 e.lpLinkRetry, lpRun := if ok then alDel r e.lpRun else alSet r (n + 1) e.lpRun }) s.m))) ∧
  (∀ s p r loc view u, isUp s.m = true → p < s.m.peas.length → (peaOf s.m p).active = some u → 2 ≤ (alGet r s.m.ecc.lpRun).getD 0 →
    (findPage s.m u.ten (view / pageSize)).any (·.mig.isSome) = false →
    ∃ t, exec (.lpLinkRetry { who := .pea p, num := r, place := { loc, view } } false) s = .next t ∧ (peaOf t.m p).active = none ∧
      t.m.lat.errs = s.m.lat.errs ++
        [{ store := .lpddr, foundBy := 0, ctx := u.ctx, seq := some u.seq, source := 2, loc, view }] ∧
      t.m.lat.dones = s.m.lat.dones ++
        [{ ctx := u.ctx, seq := u.seq, status := .poisoned, detail := 2, unit := u.unit, phase := u.phase, expertQ := u.expertQ }]) ∧
  (∀ s w c place ok n, isUp s.m = true → n = (alGet c s.m.ecc.caRun).getD 0 → ok = true ∨ n < 2 →
    exec (.hbmCaParityReissue { who := w, num := c, place } ok) s = .next (withM s (modEcc (fun e =>
      { e with caRetry := bump 16 1 e.caRetry, caRun := if ok then alDel c e.caRun else alSet c (n + 1) e.caRun }) s.m))) ∧
  (∀ s p c loc view u, isUp s.m = true → p < s.m.peas.length → (peaOf s.m p).active = some u → 2 ≤ (alGet c s.m.ecc.caRun).getD 0 →
    (findPage s.m u.ten (view / pageSize)).any (·.mig.isSome) = false →
    ∃ t, exec (.hbmCaParityReissue { who := .pea p, num := c, place := { loc, view } } false) s = .next t ∧ (peaOf t.m p).active = none ∧
      t.m.ecc.caRetry = bump 16 1 s.m.ecc.caRetry ∧ t.m.ecc.hbmUncorr = bump 16 1 s.m.ecc.hbmUncorr ∧ (1, loc / 256) ∈ t.nv.candidates ∧
      t.m.lat.errs = s.m.lat.errs ++
        [{ store := .hbm, foundBy := 0, ctx := u.ctx, seq := some u.seq, source := 1, loc, view }] ∧
      t.m.lat.dones = s.m.lat.dones ++
        [{ ctx := u.ctx, seq := u.seq, status := .poisoned, detail := 1, unit := u.unit, phase := u.phase, expertQ := u.expertQ }]) ∧
  (∀ s w beat src place ok n, isUp s.m = true → n = (alGet beat s.m.ecc.parityRun).getD 0 → ok = true ∨ n < 2 →
    exec (.datapathParityReplay { who := w, num := beat, place } src ok) s = .next (withM s (modEcc (fun e =>
      { e with xbarReplay := bump 32 1 e.xbarReplay, tickReplays := bump 16 1 e.tickReplays
               parityRun := if ok then alDel beat e.parityRun else alSet beat (n + 1) e.parityRun }) s.m))) ∧
  (∀ s c ok n, isUp s.m = true → n = (alGet c s.m.life.replays).getD 0 → ok = true ∨ n < 2 →
    exec (.turnipParityReplay c ok) s = .next (withM s (modLife (fun l => { l with replays := alSet c (if ok then 0 else n + 1) l.replays })
      (modEcc (fun e => { e with turnipReplay := bump 16 1 e.turnipReplay }) s.m)))) ∧
  (∀ s c n, isUp s.m = true → n = (alGet c s.m.life.replays).getD 0 → 2 ≤ n → c < 8 → c ∉ s.m.life.halted →
    ∃ t, exec (.turnipParityReplay c false) s = .next t ∧ t.m.life.halted = s.m.life.halted ++ [c] ∧
      t.m.life.haltLatched = s.m.life.haltLatched ++ [(c, 1)]) ∧
  (∀ s c, isUp s.m = true → c < 8 → c ∉ s.m.life.halted →
    ∃ t, exec (.turnipWatchdogExpiry c) s = .next t ∧ t.m.life.halted = s.m.life.halted ++ [c] ∧
      t.m.life.haltLatched = s.m.life.haltLatched ++ [(c, 2)] ∧ t.nv = s.nv ∧
      (s.m.i3c.portUp = true → s.m.i3c.events = true → .ibi 1 ∈ t.m.out)) ∧
  (∀ s c rows, isUp s.m = true → rows = (s.m.ecc.remapping.filter (·.1 == c)).map (·.2) →
    exec (.rowRemapCopyDone c) s = .next { s with
      nv := { s.nv with remapRows := s.nv.remapRows ++ rows }
      m := modEcc (fun e => { e with remaps := e.remaps ++ rows, remapping := e.remapping.filter (·.1 != c) }) (forEach rows copyRow s.m) })

/-- R193, R194, R202, R203, R208, R211: a pea's read that meets wrong bits.  One wrong bit of a slice byte is corrected, counted
and queued for repair; two mark the byte, are counted, latched for the next boundary and entered in the repair log, and end the unit
with POISONED and the store's number; a line already marked is neither latched nor entered again, but the read is counted, once for the reads that share it; one that joins
an open entry is no array read of its own; and so for
an HBM3E unit that its code cannot correct. -/
def Obligations.UncorrectableReads : Prop :=
  (∀ s p loc view k i, isUp s.m = true → s.m.mem.sliceErr = [] → pieceBad s.m (64 * (loc / 64), 64) = false → k < 64 → i < 13 →
    (loc / 64 / 32768, loc / 64 % 32768) ∉ s.m.mem.merges →
    ∃ t, exec (.uncorrectableRead .slice (.pea p) { loc, view } { flips := [(k, 2 ^ i)] }) s = .next t ∧ t.nv = s.nv ∧
      t.m.lat = s.m.lat ∧ t.m.peas = s.m.peas ∧ t.m.ecc.sramCorrected = bump 32 1 s.m.ecc.sramCorrected ∧
      loc / 64 ∈ t.m.mem.sliceRepair ∧ t.m.mem.slicePoison = s.m.mem.slicePoison ∧ t.m.mem.sliceMem = s.m.mem.sliceMem) ∧
  (∀ s p loc view k i j u, isUp s.m = true → p < s.m.peas.length → (peaOf s.m p).active = some u → s.m.mem.sliceErr = [] →
    pieceBad s.m (64 * (loc / 64), 64) = false → k < 64 → i < j → j < 13 → (loc / 64 / 32768, loc / 64 % 32768) ∉ s.m.mem.merges →
    ∃ t, exec (.uncorrectableRead .slice (.pea p) { loc, view } { flips := [(k, 2 ^ i + 2 ^ j)] }) s = .next t ∧
      t.m.mem.slicePoison = insRising (64 * (loc / 64) + k) s.m.mem.slicePoison ∧ t.m.ecc.sramUncorr = bump 16 1 s.m.ecc.sramUncorr ∧
      (0, loc / 64) ∈ t.nv.candidates ∧ (peaOf t.m p).active = none ∧
      t.m.lat.errs = s.m.lat.errs ++ [{ store := .slice, foundBy := 0, ctx := u.ctx, seq := some u.seq, source := 0, loc, view }] ∧
      t.m.lat.dones = s.m.lat.dones ++
        [{ ctx := u.ctx, seq := u.seq, status := .poisoned, detail := 0, unit := u.unit, phase := u.phase, expertQ := u.expertQ }]) ∧
  (∀ s p loc view e u, isUp s.m = true → p < s.m.peas.length → (peaOf s.m p).active = some u →
    pieceBad s.m (64 * (loc / 64), 64) = true →
    ∃ t, exec (.uncorrectableRead .slice (.pea p) { loc, view } e) s = .next t ∧ t.nv = s.nv ∧ t.m.lat.errs = s.m.lat.errs ∧
      ((loc / 64 / 32768, loc / 64 % 32768) ∉ s.m.mem.mergeBad → t.m.ecc.sramPoisonRead = bump 16 1 s.m.ecc.sramPoisonRead) ∧
      ((loc / 64 / 32768, loc / 64 % 32768) ∈ s.m.mem.mergeBad → t.m.ecc.sramPoisonRead = s.m.ecc.sramPoisonRead ∧
        t.m.mem.merged = sat 64 (s.m.mem.merged + 1)) ∧ t.m.ecc.sramUncorr = s.m.ecc.sramUncorr ∧
      (peaOf t.m p).active = none) ∧
  (∀ s p loc view e, isUp s.m = true → pieceBad s.m (64 * (loc / 64), 64) = false →
    (loc / 64 / 32768, loc / 64 % 32768) ∈ s.m.mem.merges →
    ∃ t, exec (.uncorrectableRead .slice (.pea p) { loc, view } e) s = .next t ∧ t.nv = s.nv ∧ t.m.lat = s.m.lat ∧ t.m.peas = s.m.peas ∧
      t.m.ecc.sramCorrected = s.m.ecc.sramCorrected ∧ t.m.mem.merged = sat 64 (s.m.mem.merged + 1)) ∧
  (∀ s p loc view e k u, isUp s.m = true → p < s.m.peas.length → (peaOf s.m p).active = some u → k = unitKey u.ten view →
    k ∉ s.m.mem.devPoison → unitVerdict e.elsewhere (unitErrs (flipUnit k (loc / 64) e.flips s.m) k) = .uncorrectable →
    (findPage s.m u.ten (view / pageSize)).any (·.mig.isSome) = false →
    ∃ t, exec (.uncorrectableRead .hbm (.pea p) { loc, view } e) s = .next t ∧ k ∈ t.m.mem.devPoison ∧
      t.m.ecc.hbmUncorr = bump 16 1 s.m.ecc.hbmUncorr ∧ (1, loc / 256) ∈ t.nv.candidates ∧ (peaOf t.m p).active = none ∧
      t.m.lat.errs = s.m.lat.errs ++ [{ store := .hbm, foundBy := 0, ctx := u.ctx, seq := some u.seq, source := 1, loc, view }])

/-! ### Fabric, links and tick sync -/

/-- R340, R350 to R352, R354, R357, R358: requests at their source.  An issue and a FATOM enter the outstanding requests under
the next identifier and set the fabric going, and a FATOM with 32 outstanding stalls its sequencer; a completion of a request that
was sent to its sender completes it; a timeout resends it on the next dimension order and counts that, or completes it with
TARGET_LOST after the last attempt; a HOLD restarts its timeout; NOT_READY waits out its hint, is sent again, and expires; and a
replay entry ages once its retention has passed.
What becomes of a withdrawn flag's number is log 61. -/
def Obligations.FabricSourceHappenings : Prop :=
  (∀ s r fs, isUp s.m = true → fs = s.nv.flash.state → r.record = none → (r.type = 3 → atomicFits r.aop r.size r.offset = true) →
    exec (.fabricRequestIssue r) s = .next (withM s (settleAll fs (settleFab fs (issueReq r .none s.m))))) ∧
  (∀ (s : State) r w, ∃ o : Outreq, (issueReq r w s.m).fab.nextId = wrap 16 (s.m.fab.nextId + 1) ∧ o.req = r ∧ o.id = s.m.fab.nextId ∧ o.sends = 0 ∧
    (r.node = selfNode s.m ∨ r.type = 4 ∨ inReach s.m r.node = true → r.node ∉ s.m.fab.lostNodes →
      (issueReq r w s.m).fab.out = s.m.fab.out ++ [o])) ∧
  (∀ s p aop size cls h a b rec ps fs r, isUp s.m = true → fs = s.nv.flash.state → (peaOf s.m p).st = .run →
    h.toNat < 2 ^ 57 → cls ≤ 7 → atomicValid aop size = true → h.toNat % size = 0 → slRange s.m (peaTen s.m p) true rec 16 = .ok ps →
    r = { ten := peaTen s.m p, ctx := peaCtx s.m p, seq := ((peaOf s.m p).active.map (·.seq)).getD 0, type := 3, node := h.toNat / 2 ^ 45
          offset := h.toNat % 2 ^ 45, cls, aop, size, payload := le size a.toNat ++ le size b.toNat } →
    ∀ m, m = modPea p (fun x => { x with hadFabric := x.hadFabric || h.toNat / 2 ^ 45 != selfNode s.m }) s.m →
    ((peaOf s.m p).fatoms < 32 →
      exec (.fatom p aop size cls h a b rec) s = .next (withM s (settleAll fs (settleFab fs (issueReq r (.atom p rec) m))))) ∧
    (32 ≤ (peaOf s.m p).fatoms → exec (.fatom p aop size cls h a b rec) s =
      .next (withM s (settleAll fs (modPea p (fun x => { x with st := .held, fatomHeld := some (r, rec) }) m))))) ∧
  (∀ s p o fs, isUp s.m = true → fs = s.nv.flash.state → p.srcEpoch = 0 → findOut s.m p.reqId = some o → 0 < o.sends →
    o.req.node = p.src → statusOf p.aop ≠ .notReady →
    exec (.fabricCompletionReceive p) s = .next (withM s (settleAll fs (settleFab fs
      (completeOut o (statusOf p.aop) (field p.payload 0 4) (p.payload.drop 4) s.m))))) ∧
  (∀ s id o fs, isUp s.m = true → fs = s.nv.flash.state → findOut s.m id = some o → 0 < o.sends → o.req.node ≠ selfNode s.m →
    o.waitUs = none → due s.m o.sinceUs s.m.fab.timeoutUs = true → o.attempts ≤ o.sends →
    exec (.fabricTimeout id) s = .next (withM s (settleAll fs (settleFab fs (completeOut o .targetLost o.req.node [] s.m))))) ∧
  (∀ s id o fs, isUp s.m = true → fs = s.nv.flash.state → findOut s.m id = some o → 0 < o.sends → o.req.node ≠ selfNode s.m →
    o.waitUs = none → due s.m o.sinceUs s.m.fab.timeoutUs = true → o.sends < o.attempts →
    exec (.fabricTimeout id) s = .next (withM s (settleAll fs (sendOut fs id (modOut id (fun o => { o with order := (o.order + 1) % 6 })
      (modFab (fun f => { f with resent := bump 16 1 f.resent }) s.m)))))) ∧
  (∀ s id, isUp s.m = true →
    exec (.fabricHoldReceive id) s = .next (withM s (modOut id (fun o => { o with sinceUs := s.m.tick.nowUs }) s.m))) ∧
  (∀ s id o us fs, isUp s.m = true → fs = s.nv.flash.state → findOut s.m id = some o → o.waitUs = some us →
    due s.m us (if o.hint = 0 then s.m.fab.timeoutUs else o.hint) = true →
    exec (.fabricNotReadyRetry id) s = .next (withM s (settleAll fs (modOut id (fun o => { o with sends := o.sends - 1, waitUs := none })
      (sendOut fs id (modOut id (fun o => { o with order := (o.order + 1) % 6 })
        (modFab (fun f => { f with nrRetry := bump 16 1 f.nrRetry }) s.m))))))) ∧
  (∀ s id o us fs, isUp s.m = true → fs = s.nv.flash.state → findOut s.m id = some o → o.nrSinceUs = some us →
    due s.m us (s.m.fab.notReadyMs * 1000) = true →
    exec (.fabricNotReadyExpiry id) s = .next (withM s (settleAll fs (settleFab fs
      (completeOut o .notReady ((o.hint + s.m.tick.inForce - 1) / s.m.tick.inForce) [] s.m))))) ∧
  (∀ s src tag, isUp s.m = true → exec (.replayEntryAge src tag) s = .next (withM s (modFab (fun f =>
    { f with replays := f.replays.map fun r =>
        if r.src == src && r.tag == tag && due s.m r.atUs (r.retainMs * 1000) then { r with aged := true, old := 0 } else r }) s.m)))

/-- R29, R346, R351, R355, R358, R359: packets and notices from elsewhere.  A packet in transit goes out on its next hop or is
dropped and counted; a request for another epoch completes with TARGET_LOST or INDETERMINATE and is not applied; an admitted one
enters its stream; a HOLD goes out for a request that waits; and a notice is taken once and sent on while it has hops left.
LEN of a completion is log 30. -/
def Obligations.FabricPacketHappenings : Prop :=
  (∀ s p q det extra, isUp s.m = true → nextHop s.m p.dst p.order p.detours = .port q det extra →
    exec (.fabricPacketForward p) s = .next (withM s (linkSend q (.fabric q { p with detoured := p.detoured || det, detours := p.detours + extra })
      (modFab (fun f => if det || extra != 0 then { f with detoured := bump 32 1 f.detoured } else f) s.m)))) ∧
  (∀ s p, isUp s.m = true → nextHop s.m p.dst p.order p.detours = .drop →
    exec (.fabricPacketForward p) s = .next (withM s (modFab (fun f => { f with noRoute := bump 16 1 f.noRoute }) s.m))) ∧
  (∀ s p a fs, isUp s.m = true → fs = s.nv.flash.state → s.m.life.removal = false → s.m.cap.state = 0 → 1 ≤ p.type → p.type ≤ 4 →
    p.dst = selfNode s.m → s.m.fab.ready = true → s.m.life.mode ≠ .fault → p.dstEpoch = 0 ∨ p.dstEpoch = s.m.fab.epoch →
    (p.type = 3 → atomicFits p.aop p.size p.offset = true) →
    alGet p.src s.m.fab.srcEpochs = some p.srcEpoch → a = enters s.m p → a.2 = .ok →
    ∀ m, m = modTen a.1 (fun x => { x with acct := { x.acct with fabRx := x.acct.fabRx + p.payload.length } })
        (modFab (fun f => { f with srcEpochs := alSet p.src p.srcEpoch f.srcEpochs }) s.m) →
    exec (.fabricRequestReceive p) s = .next (withM s (settleAll fs (settleFab fs (enterStream fs p a.1 .ok
      ((if p.type = 4 then queueCtx m a.1 p.tag else none).elim m fun c =>
        modCtx c (fun x => { x with acct := { x.acct with fabRx := x.acct.fabRx + p.payload.length } }) m))))) ) ∧
  (∀ s p fs, isUp s.m = true → fs = s.nv.flash.state → s.m.life.removal = false → s.m.cap.state = 0 → 1 ≤ p.type → p.type ≤ 4 →
    p.type ≠ 3 → p.dst = selfNode s.m → s.m.fab.ready = true → s.m.life.mode ≠ .fault → p.dstEpoch ≠ 0 → p.dstEpoch ≠ s.m.fab.epoch →
    p.type = 4 ∨ inReach s.m p.src = true →
    exec (.fabricRequestReceive p) s = .next (withM s (settleAll fs (answerPkt p .targetLost (node16 s.m) [] s.m)))) ∧
  (∀ s src id p, isUp s.m = true → ((s.m.fab.waitPage.map (·.1) ++ s.m.fab.dstStreams.flatMap fun x => x.held.map (·.1)).find? fun p =>
      p.src == src && p.reqId == id) = some p →
    exec (.fabricHoldSend src id) s = .next (withM s
      (routePacket { completionOf s.m p .ok 0 [] with type := 0x0A, payload := [], len := 0, aop := 0 } s.m))) ∧
  (∀ s port n, isUp s.m = true → (n.origin, n.number) ∈ s.m.fab.seen →
    exec (.noticeReceive port n) s = .next (withM s (settleAll s.nv.flash.state s.m))) ∧
  (∀ s port n fs, isUp s.m = true → fs = s.nv.flash.state → (n.origin, n.number) ∉ s.m.fab.seen → s.m.cap.state = 0 → n.kind = .leaving →
    n.hops < 24 → exec (.noticeReceive port n) s = .next (withM s (settleAll fs (latchLoss n.origin 0
      (spread { n with hops := n.hops + 1 } port (modFab (fun f => { f with seen := (n.origin, n.number) :: f.seen }) s.m))))))

/-- R314, R316 to R323, R329, R333, R335: a link port.  A good flit in sequence is acknowledged and advances the receive number, a
bad one is counted and answered with a NAK, and any other sequenced one with a NAK; training takes a port from DOWN through
DETECT, EQUALIZE and IDENTIFY to CHECK, a failed attempt returns it to DETECT and the eighth fails it; a lost lane moves to a spare
or the port narrows; a port that loses lock goes DOWN. -/
def Obligations.LinkHappenings : Prop :=
  (∀ s p f, isUp s.m = true → carries (portOf s.m p).state (flitKind f) = true → flitUncorrectable f = false → flitCrcOk f = true →
    exec (.linkFlitReceive p f) s = .next (withM s (laneErrors p (s.m.tick.nowUs + f.atUs) (f.codewords.filter (·.length ≤ 15)).flatten
      (takeFlit p f (countFlit p f s.m))))) ∧
  (∀ s p f, isUp s.m = true → carries (portOf s.m p).state 2 = true → flitUncorrectable f = true ∨ flitCrcOk f = false →
    exec (.linkFlitReceive p f) s = .next (withM s (laneErrors p (s.m.tick.nowUs + f.atUs) (f.codewords.filter (·.length ≤ 15)).flatten
      (nakFlits p (countFlit p f s.m))))) ∧
  (∀ s p f, isUp s.m = true → carries (portOf s.m p).state 2 = false → exec (.linkFlitReceive p f) s = .next s) ∧
  (∀ (m : Mach) p f, p < m.link.ports.length → flitKind f = 1 ∨ flitKind f = 2 → flitNak f = false → flitSeq f = (portOf m p).rxNext →
    (portOf (takeFlit p f m) p).rxNext = wrap 12 (flitSeq f + 1) ∧ (portOf (takeFlit p f m) p).state = (portOf m p).state ∧
    ∃ held, (takeFlit p f m).out =
      m.out ++ held ++ [.flitPayload p (flitKind f) ((f.bytes.drop 6).take 242), .linkAck p (flitSeq f) false]) ∧
  (∀ (m : Mach) p f, p < m.link.ports.length → flitKind f = 1 ∨ flitKind f = 2 → flitNak f = false → flitSeq f ≠ (portOf m p).rxNext →
    (portOf (takeFlit p f m) p).rxNext = (portOf m p).rxNext ∧ (portOf (takeFlit p f m) p).nakking = true ∧
    ∃ held, (takeFlit p f m).out = m.out ++ held ++ [.linkAck p (wrap 12 ((portOf m p).rxNext + 4095)) true]) ∧
  (∀ (m : Mach) p f, p < m.link.ports.length → (portOf (nakFlits p m) p).rxNext = (portOf m p).rxNext ∧
    (portOf (nakFlits p m) p).nakking = true ∧ (nakFlits p m).out = m.out ++ [.linkAck p (wrap 12 ((portOf m p).rxNext + 4095)) true] ∧
    (portOf (countFlit p f m) p).fecCorr = bump 32 (f.codewords.countP fun c => 0 < c.length && c.length ≤ 15) (portOf m p).fecCorr ∧
    (portOf (countFlit p f m) p).fecUncorr = bump 16 (f.codewords.countP (15 < ·.length)) (portOf m p).fecUncorr) ∧
  (∀ s p x r, isUp s.m = true → (portOf s.m p).replayBuf = x :: r → (∀ y ∈ x :: r, y.2 < 16) →
    exec (.linkReplayTimeout p) s = .next (withM s (send (.linkResend p x.1) (modPort p (fun y =>
      { y with replayBuf := y.replayBuf.map fun f => (f.1, f.2 + 1), replayed := bump 32 y.replayBuf.length y.replayed }) s.m)))) ∧
  (∀ s p, isUp s.m = true → p < s.m.link.ports.length → (∃ y ∈ (portOf s.m p).replayBuf, 16 ≤ y.2) →
    ∃ t, exec (.linkReplayTimeout p) s = .next t ∧ (portOf t.m p).state = .down ∧ (portOf t.m p).replayBuf = []) ∧
  (∀ s p, isUp s.m = true → s.m.link.enabled = true → (portOf s.m p).state = .down → p < s.m.link.ports.length →
    s.m.link.enabledUs + (8000 * p + 1000 * (selfNode s.m % 8)) < s.m.tick.nowUs + s.m.tick.inForce →
    ∃ t, exec (.linkDetectStart p) s = .next t ∧ (portOf t.m p).state = .detect ∧ (∀ q, q ≠ p → portOf t.m q = portOf s.m q)) ∧
  (∀ s p, isUp s.m = true → (portOf s.m p).state = .detect → (portOf s.m p).waiting = false → p < s.m.link.ports.length →
    ∃ t, exec (.linkPartnerDetect p) s = .next t ∧ (portOf t.m p).state = .equalize ∧ (∀ q, q ≠ p → portOf t.m q = portOf s.m q)) ∧
  (∀ s p lanes failed bad, isUp s.m = true → (portOf s.m p).state = .equalize → 16 ≤ lanes →
    bad = (portOf s.m p).rxFailed ||| failed % 2 ^ 18 → 16 ≤ (healthy bad).length →
    exec (.linkEqualizeDone p lanes failed) s = .next (withM s (linkSend p (.linkIdent p (identBytes (ownIdent s.m p))) (modPort p (fun x =>
      { x with state := .identify, width := 16, lockFails := 0, rxFailed := bad, spares := (healthy bad).length - 16
               laneMap := trainMap bad, txMap := trainMap x.txFailed, gotIdent := false, echoed := false }) s.m)))) ∧
  (∀ s p b i, isUp s.m = true → (portOf s.m p).state = .identify → identOf b = some i → p < s.m.link.ports.length →
    ∃ t, exec (.linkIdentityReceive p b) s = .next t ∧ (portOf t.m p).peer = some i ∧
      (portOf t.m p).proto = agreed s.m.life.proto i.proto ∧
      ((portOf s.m p).echoed = true → (portOf t.m p).state = .check ∧ t.m.lat.portCheck = s.m.lat.portCheck ++ [p]) ∧
      ((portOf s.m p).echoed = false → (portOf t.m p).state = .identify ∧ (portOf t.m p).gotIdent = true)) ∧
  (∀ s p b, isUp s.m = true → (portOf s.m p).state = .identify → identOf b = none → p < s.m.link.ports.length →
    (portOf s.m p).fails + 1 < 8 → ∃ t, exec (.linkIdentityReceive p b) s = .next t ∧ (portOf t.m p).state = .detect ∧
      (portOf t.m p).waiting = true) ∧
  (∀ s p ns i, isUp s.m = true → (portOf s.m p).state = .identify → (portOf s.m p).gotIdent = true → (portOf s.m p).peer = some i →
    p < s.m.link.ports.length → ∃ t, exec (.portDelayMeasure p ns) s = .next t ∧ (portOf t.m p).state = .check ∧
      (portOf t.m p).delayNs = sat 16 ns ∧ t.m.lat.portCheck = s.m.lat.portCheck ++ [p]) ∧
  (∀ s p, isUp s.m = true → (portOf s.m p).state = .identify → (portOf s.m p).fails + 1 < 8 → p < s.m.link.ports.length →
    ∃ t, exec (.linkIdentifyTimeout p) s = .next t ∧ (portOf t.m p).state = .detect ∧ (portOf t.m p).waiting = true ∧
      (portOf t.m p).fails = (portOf s.m p).fails + 1 ∧ (portOf t.m p).trainFail = bump 8 1 (portOf s.m p).trainFail) ∧
  (∀ s p, isUp s.m = true → (portOf s.m p).state = .identify → 8 ≤ (portOf s.m p).fails + 1 → p < s.m.link.ports.length →
    ∃ t, exec (.linkIdentifyTimeout p) s = .next t ∧ (portOf t.m p).state = .failed ∧ t.m.lat.portDown = s.m.lat.portDown ++ [p]) ∧
  (∀ s p, isUp s.m = true → (portOf s.m p).state = .detect → (portOf s.m p).waiting = true → p < s.m.link.ports.length →
    (portOf s.m p).waitUs + (50000 + 1000 * (selfNode s.m % 8)) < s.m.tick.nowUs + s.m.tick.inForce →
    ∃ t, exec (.linkRetryTimer p) s = .next t ∧ (portOf t.m p).waiting = false ∧ (portOf t.m p).state = .detect) ∧
  (∀ s p, isUp s.m = true → s.m.tick.nowUs + s.m.tick.inForce ≤ (portOf s.m p).waitUs + 50000 →
    exec (.linkRetryTimer p) s = .next s) ∧
  (∀ s p accept, isUp s.m = true → carries (portOf s.m p).state 2 = true → exec (.linkNoticeReceive p accept) s = .next (withM s
    (capture 0x0A 5 p (le 1 (bit accept)) (modLat (fun l => { l with portNotice := l.portNotice ++ [(p, accept)] }) s.m)))) ∧
  (∀ s p lane i sp, isUp s.m = true → (portOf s.m p).width ≠ 0 → lane < 18 → (portOf s.m p).rxFailed.testBit lane = false →
    (portOf s.m p).laneMap.findIdx? (· == lane) = some i →
    ((healthy ((portOf s.m p).rxFailed ||| 2 ^ lane)).find? fun l => !(portOf s.m p).laneMap.contains l) = some sp →
    (portOf s.m p).relock = false → p < s.m.link.ports.length → ∃ t, exec (.linkLaneFail p lane) s = .next t ∧
      (portOf t.m p).laneMap = (portOf s.m p).laneMap.set i sp ∧ (portOf t.m p).width = (portOf s.m p).width ∧
      (portOf t.m p).state = (portOf s.m p).state ∧ t.m.lat.portLanes = s.m.lat.portLanes ++ [(p, 2)]) ∧
  (∀ s p lane i failed, isUp s.m = true → (portOf s.m p).width ≠ 0 → lane < 18 → (portOf s.m p).rxFailed.testBit lane = false →
    (portOf s.m p).laneMap.findIdx? (· == lane) = some i → failed = (portOf s.m p).rxFailed ||| 2 ^ lane →
    ((healthy failed).find? fun l => !(portOf s.m p).laneMap.contains l) = none → (portOf s.m p).relock = false →
    8 ≤ (healthy failed).length → 8 ≤ (healthy (portOf s.m p).txFailed).length → p < s.m.link.ports.length →
    ∃ t, exec (.linkLaneFail p lane) s = .next t ∧ (portOf t.m p).width = 8 ∧ (portOf t.m p).laneMap = (healthy failed).take 8 ∧
      (portOf t.m p).txMap = (healthy (portOf s.m p).txFailed).take 8 ∧ (portOf t.m p).relock = true ∧
      (portOf t.m p).widthDrop = bump 8 1 (portOf s.m p).widthDrop ∧ t.m.lat.portLanes = s.m.lat.portLanes ++ [(p, 3)]) ∧
  (∀ s p logical spare old, isUp s.m = true → (portOf s.m p).txMap[logical]? = some old → spare < 18 →
    exec (.linkLaneSubstitute p logical spare) s = .next (withM s (noteLanes p 2 (modPort p (fun x =>
      { x with txMap := x.txMap.set logical spare, subst := bump 8 1 x.subst })
      (modPort p (fun x => { x with txFailed := x.txFailed ||| 2 ^ old }) s.m))))) ∧
  (∀ s p logical spare old, isUp s.m = true → (portOf s.m p).txMap[logical]? = some old → 18 ≤ spare →
    exec (.linkLaneSubstitute p logical spare) s = .next (withM s (dropWidth p
      (modPort p (fun x => { x with txFailed := x.txFailed ||| 2 ^ old }) s.m)))) ∧
  (∀ s p, isUp s.m = true → (portOf s.m p).relock = true →
    exec (.linkWidthRelockDone p) s = .next (withM s (drainPort p (resendFrom p (modPort p (fun x => { x with relock := false }) s.m))))) ∧
  (∀ s p, isUp s.m = true → (portOf s.m p).state ≠ .down → (portOf s.m p).state ≠ .detect → (portOf s.m p).state ≠ .failed →
    p < s.m.link.ports.length → ∃ t, exec (.linkLockLoss p) s = .next t ∧ (portOf t.m p).state = .down ∧ (portOf t.m p).width = 0 ∧
      t.m.lat.portDown = s.m.lat.portDown ++ [p])

/-- R33 to R35, R37 to R41, R366: tick sync.  The root launches the TSYNC of the next boundary once, with its grant; a member keeps
the one for its next boundary; a boundary without one is a miss, counted, and three in a row latch a loss; the root keeps a
member's latest request; a tick message on a port that the tree does not assign is counted and dropped; and a join that is not
complete after a second ends with TARGET_LOST.
A lost member's period is log 71; that a message of another GROUP is dropped too is the model's choice (log 109). -/
def Obligations.TickSyncHappenings : Prop :=
  (∀ s, isUp s.m = true → s.m.tick.root = true → s.m.tick.started = true → s.m.tick.launched ≠ some (s.m.tick.count + 1) →
    ∃ t, exec .rootTsyncLaunch s = .next t ∧ t.m.tick.launched = some (s.m.tick.count + 1) ∧ t.m.tick.count = s.m.tick.count ∧
      t.m.tick.next2 = s.m.tick.periodUs ∧ t.m.pwr.nextStep = s.m.pwr.nextStep ∧
      (s.m.tick.group = 0 → t.m.out = s.m.out)) ∧
  (∀ s, isUp s.m = true → s.m.tick.root = true → s.m.tick.launched = some (s.m.tick.count + 1) → exec .rootTsyncLaunch s = .next s) ∧
  (∀ s port x, isUp s.m = true → s.m.tick.root = false → s.m.tick.group ≠ 0 → s.m.tick.leaves = [] → port = s.m.tick.upstream →
    x.group = s.m.tick.group → (portOf s.m port).state = .active → x.pathDelayNs + (portOf s.m port).delayNs ≤ 3500 → x.hops < 24 →
    s.m.tick.join = none → s.m.tick.lost = false → x.tick = s.m.tick.count + 1 →
    ∃ t, exec (.tsyncReceive port x) s = .next t ∧ t.m.tick.lastTsync = x.tick ∧ t.m.tick.count = s.m.tick.count ∧
      t.m.tick.tsync = some { x with pathDelayNs := x.pathDelayNs + (portOf s.m port).delayNs, hops := x.hops + 1 } ∧
      t.m.pwr.floor = x.floor) ∧
  (∀ s port x, isUp s.m = true → s.m.tick.root = true ∨ s.m.tick.group = 0 ∨ x.group ≠ s.m.tick.group ∨ port ≠ s.m.tick.upstream →
    exec (.tsyncReceive port x) s = .next (withM s (modPort port (fun y => { y with tickDrop := bump 8 1 y.tickDrop }) s.m))) ∧
  (∀ s, isUp s.m = true → follows s.m = true → s.m.tick.tsync = none → s.m.tick.missed = false →
    exec .tsyncMiss s = .next (withM s (modTick (fun t =>
      { t with missed := true, missRun := min 3 (t.missRun + 1), missTotal := bump 16 1 t.missTotal }) s.m))) ∧
  (∀ s, isUp s.m = true → s.m.tick.tsync.isSome = true → exec .tsyncMiss s = .next s) ∧
  (∀ s, isUp s.m = true → follows s.m = true → s.m.tick.missRun = 3 → s.m.tick.lossLatched = false →
    exec .tickSyncLoss s = .next (withM s (modTick (fun t => { t with lossLatched := true }) s.m))) ∧
  (∀ s port x, isUp s.m = true → s.m.tick.group ≠ 0 → s.m.tick.leaves = [] → s.m.tick.downstream.testBit port = true →
    x.group = s.m.tick.group → (portOf s.m port).state = .active → s.m.tick.root = true →
    ∃ t, exec (.treqReceive port x) s = .next t ∧ t.m.tick.treqs = keepTreq x s.m.tick.treqs ∧ t.m.out = s.m.out) ∧
  (∀ s port ns, isUp s.m = true → carries (portOf s.m port).state 2 = true → (portOf s.m port).state ≠ .identify →
    exec (.portDelayMeasure port ns) s = .next (withM s (modPort port (fun x => { x with delayNs := sat 16 ns, echoed := true }) s.m))) ∧
  (∀ s port ns, isUp s.m = true → carries (portOf s.m port).state 2 = false → exec (.portDelayMeasure port ns) s = .next s) ∧
  (∀ s j, isUp s.m = true → s.m.tick.join = some j → j.startUs + 1000000 ≤ s.m.tick.nowUs → s.m.tick.root = false →
    exec .groupJoinTimeout s = .next (withM s (endWrites (groupOfOne (finalise 0 j.seq .targetLost j.root s.m)))))

/-! ### Boundaries, steps, tenancies and firmware -/

/-- R32, R37, R48, R472 to R474: a boundary.  While the module runs and its tick has started, TICK_BOUNDARY is the boundary's work, one
after another: the boundary fires, a module on its own timer or without a TSYNC counting one tick and the period in force, then
what was latched is acted on class by class, and one that finds nothing to act on passes with nothing else changed that a program
meets; a module that does not run, or replays, ignores it; in replay mode the boundary waits for its record and its completions, and
a divergence is kept and stops it.
That a happening whose condition fails changes nothing is log 3; the order inside a class is log 36. -/
def Obligations.BoundariesFire : Prop :=
  (∀ s, s.m.life.run = .up → s.m.tick.started = true → s.m.life.replay = false →
    exec .tickBoundary s = .next { s with nv := (boundary s.nv s.m).1, m := (boundary s.nv s.m).2 }) ∧
  (∀ s, s.m.life.run ≠ .up ∨ s.m.tick.started = false ∨ s.m.life.replay = true → exec .tickBoundary s = .next s) ∧
  (∀ m, follows m = false → m.tick.join = none → m.tick.launched = some (m.tick.count + 1) ∨ m.tick.lost = true → ∀ t, t = (fireTick m).tick → t.count = m.tick.count + 1 ∧
    t.nowUs = m.tick.nowUs + m.tick.inForce ∧ t.inForce = m.tick.next1 ∧ t.next1 = m.tick.next2 ∧ t.goDone = false ∧ t.missed = false) ∧
  (∀ m, follows m = true → ∀ t, t = (fireTick m).tick → t.count = m.tick.count + 1 ∧ t.nowUs = m.tick.nowUs + m.tick.inForce ∧
    t.freeRun = (m.tick.tsync.isNone || m.tick.missed)) ∧
  (∀ s, s.m.life.run = .up → s.m.tick.started = true → s.m.life.replay = true → s.m.cap.diverge = 0 → ∀ r, r = boundary s.nv s.m →
    exec (.replayBoundary true false 0) s = .next { s with nv := r.1, m := { r.2 with cap := { r.2.cap with replayTick := s.m.tick.count } } }) ∧
  (∀ s k, s.m.life.run = .up → s.m.tick.started = true → s.m.life.replay = true → s.m.cap.diverge = 0 → 1 ≤ k → k ≤ 6 →
    exec (.replayBoundary true false k) s = .next (withM s
      { s.m with cap := { s.m.cap with diverge := k, replayTick := s.m.tick.count } })) ∧
  (∀ s, s.m.life.run = .up → s.m.tick.started = true → s.m.life.replay = true → s.m.cap.diverge = 0 →
    exec (.replayBoundary true true 0) s = .next (withM s { s.m with cap := { s.m.cap with diverge := 7, replayTick := s.m.tick.count } })) ∧
  (∀ s a b k, s.m.life.replay = true → s.m.cap.diverge ≠ 0 → exec (.replayBoundary a b k) s = .next s) ∧
  (∀ s m x fs, s.m.life.run = .up → s.m.tick.started = true → s.m.life.replay = false → turnipRuns s.m = true → fs = s.nv.flash.state →
    classOne (fireBoundary s.nv s.m) = (m, false) → x = classThree fs (classTwo m) → turnipRuns x = true →
    ∀ w y z, w = classSix (s.nv, classFive fs (classFour s.nv x)) → y = classSeven (moduleReady w.1 w.2) →
    z = announceReady y.1 (closeBoundary s.m.pwr.ran19 y.1 (clearTray y.2)) → ∀ r, r = foldFlash (z.1, endWrites z.2) →
    exec .tickBoundary s = .next { s with nv := r.1, m := r.2 }) ∧
  (∀ s, Idle s.m → s.m.tick.nowUs + s.m.tick.inForce < s.m.pwr.lastCalUs + 1000000 → s.m.life.replay = false → ∃ t, exec .tickBoundary s = .next t ∧ Passed s t) ∧
  (∀ s, Idle s.m → s.m.tick.nowUs + s.m.tick.inForce < s.m.pwr.lastCalUs + 1000000 → s.m.life.replay = true → s.m.cap.diverge = 0 →
    ∃ t, exec (.replayBoundary true false 0) s = .next t ∧ Passed s t ∧ t.m.cap.replayTick = s.m.tick.count)

/-- R48, R264 to R266, R270, R273: a step's own happenings.  A step that nothing holds back opens, with its entries opened, its
riders chosen and what it needs asked for, and writes its area; one that may not read its plan fails with DENIED; a slot drains
once no step holds it, its stream gone unless it is kept; and units are cut, or the step fails with INVALID for a bad phase record, only for a step whose area is written, outside FAULT and
behind no put-off unit of the context (R21, R183).
Rows of their own are acted on at the boundary last fired (log 35); the prefill budget is free (log 90). -/
def Obligations.StepHappenings : Prop :=
  (∀ s c q x r, isUp s.m = true → findStep s.m c q = some x → x.opened = none → blocked s.m x = false → x.cutDone = false →
    (kvView s.m c).isSome = true → (pagesOf x.blk.plan (64 * x.blk.phases)).all (pageUsable s.m (ctxOf s.m c).ten) = true →
    r = openEntries x x.blk.entries s.m → ∀ m, m = modStp (fun z => { z with choices := z.choices + 1 }) r.2 →
    ∀ y, y = { x with opened := some m.tick.count, ents := r.1, riders := chooseRiders m x r.1
                      pool := (kvView m c).map fun v => (v.t, v.tb.pool) } →
    exec (.stepOpen c q) s = .next (withM s (endWrites (writeArea c q (askParts y (modStep c q (fun _ => y) m)))))) ∧
  (∀ s c q x, isUp s.m = true → findStep s.m c q = some x → x.opened = none → blocked s.m x = false → x.cutDone = false →
    kvView s.m c = none → exec (.stepOpen c q) s = .next (withM s (endWrites (failStep x .denied (node16 s.m) s.m)))) ∧
  (∀ s c n b, isUp s.m = true → b = slotOf s.m c n → b.draining = true → slotHeld s.m c n = false → b.keep = true → c < s.m.ctxs.length →
    exec (.slotDrain c n) s = .next (withM s (endWrites
      (forEach b.drains (fun q => finaliseReq c (q % 2 == 1) (q / 2) .ok (n + 2 ^ 16 * b.gen))
        (modSlot c n (fun b => { b with draining := false, drains := [], keep := false
                                        allocated := b.allocated && !b.releasing, releasing := false }) s.m))))) ∧
  (∀ s c q x ph l, isUp s.m = true → turnipRuns s.m = true → findStep s.m c q = some x → x.areaDone = true → x.cutDone = false →
    x.fail = none → s.m.life.mode ≠ .fault → behindDeferred s.m c q = false →
    ∀ r m1 m, r = catchUp (assignPods (ctxOf s.m c).ten s.m) x → r.2.main.phase < r.2.blk.phases → m1 = modStep c q (fun _ => r.2) r.1 →
    m = noteDev (ctxOf m1 c).ten (r.2.blk.plan + 64 * r.2.main.phase) 64 m1 → planPhase m r.2 r.2.main.phase = .ok ph → ph.bad = false →
    expertOf m c ph = some l → planFault m r.2 l = none →
    exec (.unitCut c q) s = .next (withM s (cutExpert s.nv.flash.state r.2 l m))) ∧
  (∀ s c q x ph, isUp s.m = true → turnipRuns s.m = true → findStep s.m c q = some x → x.areaDone = true → x.cutDone = false →
    x.fail = none → s.m.life.mode ≠ .fault → behindDeferred s.m c q = false →
    ∀ r m1 m, r = catchUp (assignPods (ctxOf s.m c).ten s.m) x → r.2.main.phase < r.2.blk.phases → m1 = modStep c q (fun _ => r.2) r.1 →
    m = noteDev (ctxOf m1 c).ten (r.2.blk.plan + 64 * r.2.main.phase) 64 m1 → planPhase m r.2 r.2.main.phase = .ok ph →
    (ph.bad = true → exec (.unitCut c q) s = .next (withM s (failCut r.2 .invalid (2 ^ 8 * r.2.main.phase) m))) ∧
    (ph.bad = false → expertOf m c ph = none →
      r.2.main.placed < ph.peas → r.2.main.placed ≠ 0 ∨ unitsGone m c q r.2.main.phase = true →
      exec (.unitCut c q) s = .next (withM s (cutUnitsOf s.nv.flash.state 0 r.2.blk.phases true r.2 ph m)))) ∧
  (∀ s c q x, isUp s.m = true → findStep s.m c q = some x → x.areaDone = false → x.expLeft = [] → exec (.unitCut c q) s = .next s)

/-- R156, R162, R163: the steps of a rebind on the module, and the end of a close.  Flash-clear zeroes the slices and the peas of
the pods; crypto-erase draws new keys, or zeroises them where the tenancy ends, advances the epochs and queues the pages; the
reset step's end makes the rebind ready to be assigned; a closing context without an unfinalised request is closed.
Keys are draws (log 8). -/
def Obligations.RebindSteps : Prop :=
  (∀ s q r, isUp s.m = true → findRebind s.m q .flashClear = some r →
    exec (.rebindFlashClearDone q) s = .next (withM s (modRebind q (fun r => { r with st := .cryptoErase })
      (forEach ((List.range 192).filter fun p => (bitsBelow 48 r.pods).contains (p / 4)) (fun p => modPea p fun a =>
          { clearPea a with active := none, pend := [], pendUnit := none, ready := false, st := .idle })
        (forEach (bitsBelow 184 r.slices) clearSlice s.m))))) ∧
  (∀ s q r n, isUp s.m = true → findRebind s.m q .cryptoErase = some r → r.destroy = true →
    n = ((bitsBelow 64 r.keys).map fun k => (pagesOfKey s.m r.src k).length).sum →
    exec (.rebindCryptoEraseDone q) s = .next (withM s (modRebind q (fun r => { r with st := .resetting, reclaim := n })
      (forEach (bitsBelow 64 r.keys) (reclaimKey r.src)
        (forEach ((bitsBelow 64 r.keys).filterMap fun k => ((tenOf s.m r.src).keys[k]?).map (·.slot)) (fun i => setKeySlot i .zero) s.m))))) ∧
  (∀ s q r n x, isUp s.m = true → findRebind s.m q .cryptoErase = some r → r.destroy = false →
    x = drawKeys ((bitsBelow 64 r.keys).filterMap fun k => ((tenOf s.m r.src).keys[k]?).map (·.slot)) s.nv s.m →
    n = ((bitsBelow 64 r.keys).map fun k => (pagesOfKey s.m r.src k).length).sum →
    exec (.rebindCryptoEraseDone q) s = .next { s with
      nv := x.1
      m := modRebind q (fun r => { r with st := .resetting, reclaim := n }) (forEach (bitsBelow 64 r.keys) (reclaimKey r.src) x.2) }) ∧
  (∀ s q r, isUp s.m = true → findRebind s.m q .resetting = some r →
    exec (.rebindResetDone q) s = .next (withM s (modRebind q (fun r => { r with st := .assign }) s.m))) ∧
  (∀ s c q, isUp s.m = true → (ctxOf s.m c).closing = some q → (∀ r ∈ s.m.reqs, r.ctx ≠ c) →
    exec (.ctxCloseComplete c) s = .next (withM s (endWrites (finalise 0 q .ok 0 (closeCtx c s.m)))))

/-- R449, R450, R455: the slow parts of an update and an attestation.  Bytes read back are programmed and the command answers
with how many are written; the check commits the bank or reports why not and closes the update; a signed report is written with
its signature and the command answers 3,732.
The signature is a free value (log 80). -/
def Obligations.FirmwareHappenings : Prop :=
  (∀ s d q bs r, isUp s.m = true → s.m.life.dataPending = some d → d.seq = some q → d.done = true → d.bytes = some bs → d.live = true →
    r = programBytes bs s.nv (modLife (fun l => { l with dataPending := none }) s.m) →
    exec .fwDataProgrammed s = .next { s with nv := r.1, m := endWrites (finalise 0 q .ok r.2.life.written r.2) }) ∧
  (∀ s q b nv v, isUp s.m = true → s.m.life.commitPending = some (some q) → b = s.m.life.updBank →
    v = commitVerdict (bankOf s.nv b) → nv = commitBank b s.nv →
    exec .fwCommitCheckDone s = .next { s with nv, m := endWrites (finalise 0 q v (if v = .ok then (bankOf nv b).fwRev else 0)
      (fwEvent nv (if v = .ok then 2 else 4) b (bankOf nv b).st
        (modLife (fun l => { l with updOpen := false, commitPending := none }) s.m))) }) ∧
  (∀ s c q rep out r x, isUp s.m = true → s.m.life.attests = (c, q, rep, out) :: r → findReq s.m c false q = some x → x.preFlr = false →
    exec .attestSignDone s = .next (withM s (endWrites (finalise c q .ok 3732
      (putHost out (rep ++ padTo 3604 (Config.identitySign (field rep 100 5) rep)) (modLife (fun l => { l with attests := r }) s.m))))))

/-! ### Power, management port and lifecycle -/

/-- R393, R397, R402, R405, R410, R411, R413, R480: power.  A sample is taken in whatever the module does short of removal; a lease
past its end gives way to 900 W and an in-band interrupt; the clock walks one index where the governor admits it and asks for the next
30 µs later, and after a refusal 5 µs later; a clamp's end is
latched; the thermal limit latches a shutdown, and a supply fault shuts the module down at once with its cause kept; an idle pod is
gated, and an ungated one runs again; and a calibration happens once a second.
Firmware's predictions are free values (logs 65, 91). -/
def Obligations.PowerHappenings : Prop :=
  (∀ s x, s.m.life.run ≠ .removed → ∃ t, exec (.telemetrySample x) s = .next t ∧ t.nv = s.nv ∧ t.m.pwr.voltMv = sat 16 x.milliVolt ∧
    t.m.pwr.current = sat 16 x.current10mA ∧ t.m.pwr.powerW = sat 16 (x.milliVolt * x.current10mA / 100000) ∧
    t.m.pwr.energy = s.m.pwr.energy + x.milliVolt * x.current10mA ∧ t.m.pwr.tj = x.tj ∧ t.m.pwr.th = x.th ∧
    t.m.pwr.window = (x.milliVolt * x.current10mA :: s.m.pwr.window).take 2000) ∧
  (∀ s, isUp s.m = true → s.m.cap.state = 0 → exec .clampEnd s = .next (withM s (modPwr (fun p =>
    { p with clamps := p.clamps.map fun c => if 10000 ≤ c.clearUs then { c with ended := true } else c }) s.m))) ∧
  (∀ s, isUp s.m = true → s.m.pwr.clamps = [] → s.m.pwr.groupStep < s.m.pwr.localStep → walkAt s.m < s.m.tick.nowUs + s.m.tick.inForce → ∃ t,
    exec .stepWalkIndex s = .next t ∧ t.m.pwr.groupStep = s.m.pwr.groupStep ∧
    (Config.modelledPowerW s.m.stp.choices ≤ meanPower s.m + 150 → t.m.pwr.walkUs = walkAt s.m + 30 ∧
      t.m.pwr.localStep = s.m.pwr.localStep - 1 ∧ t.m.pwr.deferred = s.m.pwr.deferred) ∧
    (¬ Config.modelledPowerW s.m.stp.choices ≤ meanPower s.m + 150 → t.m.pwr.walkUs = walkAt s.m + 5 ∧
      t.m.pwr.localStep = s.m.pwr.localStep ∧ t.m.pwr.deferred = bump 16 1 s.m.pwr.deferred)) ∧
  (∀ s, isUp s.m = true → 105 ≤ s.m.pwr.tj ∨ 100 ≤ s.m.pwr.th →
    exec .thermalShutdown s = .next (withM s (raiseIbi 2 (modPwr (fun p => { p with shutLatched := true }) s.m)))) ∧
  (∀ s, s.m.pwr.tj < 105 → s.m.pwr.th < 100 → exec .thermalShutdown s = .next s) ∧
  (∀ s c, isUp s.m = true → s.m.life.removal = false → supplyFault s.m.pwr c = true → ∃ t, exec (.supplyShutdown c) s = .next t ∧
    t.m.life.run = .shutdown ∧ t.nv.lastShut = c ∧ (c = 1 → t.nv.uvShut = bump 8 1 s.nv.uvShut) ∧
    (c = 2 → t.nv.ovShut = bump 8 1 s.nv.ovShut) ∧ (c = 3 → t.nv.ocTrip = bump 8 1 s.nv.ocTrip ∧ t.m.life.switchOn = false)) ∧
  (∀ s, isUp s.m = true → s.m.pwr.leased = true → s.m.pwr.leaseEndUs ≤ s.m.tick.nowUs →
    exec .leaseExpiry s = .next (withM s (endWrites (raiseIbi 6 (changeLimit (fun p =>
      { p with leased := false, ceilingW := 900, lastLeaseSeq := none, expired := bump 8 1 p.expired }) (notePower 2 s.m)))))) ∧
  (∀ s, isUp s.m = true → s.m.pwr.lastCalUs + 1000000 ≤ s.m.tick.nowUs → exec .energyCalibration s = .next (withM s (endWrites (calibrate s.m)))) ∧
  (∀ m : Mach, m.pwr.lastCalUs + 1000000 ≤ m.tick.nowUs → ∀ p, p = (calibrate m).pwr → p.lastCalUs = m.tick.nowUs ∧
    p.lastCalTick = m.tick.count ∧ p.lastCal = m.pwr.energy ∧ p.calNo = m.pwr.calNo + 1) ∧
  (∀ s pod, isUp s.m = true → pod < 48 → s.m.pwr.gateTicks ≠ 0 → s.m.pwr.gateTicks < s.m.pwr.idleTicks.getD pod 0 →
    pod ∉ s.m.pwr.gated → podHasUnit s.m pod = false →
    exec (.podGate pod) s = .next (withM s (endWrites (modPwr (fun x => { x with gated := insRising pod x.gated }) s.m)))) ∧
  (∀ s pod, isUp s.m = true → pod ∈ s.m.pwr.ungating →
    exec (.podUngateDone pod) s = .next (withM s (modPwr (fun x =>
      { x with gated := x.gated.filter (· != pod), ungating := x.ungating.filter (· != pod) }) s.m)))

/-- R485: the messages of the tray.  While the port answers, the module takes messages and the queue has room, each row's
message joins the queue as it came, counted where it fails its type's check; with 16 waiting it is not acknowledged and counted; a
module in replay mode takes only a RESET. -/
def Obligations.TrayMessagesQueue : Prop :=
  (∀ s c t, (∃ q w l, c = .i3cLease q w l ∧ t = .lease q w l) ∨ (∃ q r, c = .i3cResetCold q r ∧ t = .reset q 0 r) ∨
      (∃ q, c = .i3cResetWarm q ∧ t = .reset q 1 false) ∨ (∃ q n, c = .i3cNode q n ∧ t = .node q n) ∨
      (∃ q x f, c = .i3cCoolant q x f ∧ t = .coolant q x f) ∨ (∃ q x, c = .i3cAlarm q x ∧ t = .alarm q x) ∨
      (∃ q o l d, c = .i3cPlanBlock q o l d ∧ t = .planBlock q o l d) ∨ (∃ q n, c = .i3cFwBlockBegin q n ∧ t = .fwBlock q 0 n []) ∨
      (∃ q o d, c = .i3cFwBlockData q o d ∧ t = .fwBlock q 1 o d) ∨ (∃ q, c = .i3cFwBlockAbandon q ∧ t = .fwBlock q 2 0 []) ∨
      (∃ q, c = .i3cFwBlockCommit q ∧ t = .fwBlock q 3 0 []) →
    s.m.life.run = .up → s.m.i3c.portUp = true → s.m.life.replay = false → s.m.i3c.queue.length < 16 → trayOk s.m t = true →
    exec c s = .next (withM s (modI3c (fun x => { x with queue := x.queue ++ [t] }) (captureAt (trayOrd t) 0x04 (trayClass t) 0 (trayBytes t) s.m)))) ∧
  (∀ s q n, s.m.life.run = .up → s.m.i3c.portUp = true → s.m.life.replay = false → s.m.i3c.queue.length < 16 → s.m.cap.state = 0 →
    4096 ≤ n → exec (.i3cNode q n) s = .next (withM s (modI3c (fun x =>
      { x with queue := x.queue ++ [.node q n], bad := bump 16 1 x.bad }) s.m))) ∧
  (∀ s q w l, s.m.life.run = .up → s.m.i3c.portUp = true → s.m.life.replay = false → 16 ≤ s.m.i3c.queue.length →
    exec (.i3cLease q w l) s = .next (withM s (send .i3cNack (modI3c (fun x => { x with nack := bump 16 1 x.nack }) s.m)))) ∧
  (∀ s q w l, s.m.life.run ≠ .up ∨ s.m.i3c.portUp = false ∨ s.m.life.replay = true →
    exec (.i3cLease q w l) s = .next (withM s (send .i3cNack s.m))) ∧
  (∀ s q op arg data, s.m.life.run = .up → s.m.i3c.portUp = true → s.m.life.replay = false → s.m.i3c.queue.length < 16 →
    op ≤ 3 → data.length ≤ 1024 → op = 1 ∨ data = [] → op ≤ 1 ∨ arg = 0 → s.m.life.fail = 1 → ∀ r,
    r = actRecovery q op arg data s.nv (captureAt [0] 0x04 7 0 (trayBytes (.recovery q op arg data)) s.m) →
    exec (.i3cRecovery q op arg data) s = .next { s with nv := r.1, m := r.2 })

/-- R484, R486: the private read and the common command codes.  While the port answers, a read returns the 32-byte status block;
the GET codes return what the manual gives; ENEC and DISEC switch the events named; an address is assigned, changed and reset as
I3C has it; RSTACT takes 0x00 and 0x01; and while it does not answer, every one of them is not acknowledged.
The effect of RSTACT, byte orders and the address rules are the model's (logs 22, 23, 84). -/
def Obligations.CommonCommandCodes : Prop :=
  (∀ s, portResponds s.m = true → exec .i3cStatusRead s = .next (withM s (send (.i3cRead
    (if s.m.i3c.block = [] then statusBlock 0 s.m else s.m.i3c.block)) s.m))) ∧
  (∀ m : Mach, (statusBlock m.tick.count m).length = 32) ∧
  (∀ s e, portResponds s.m = true → exec (.i3cEnec e) s = .next (withM s (modI3c (fun x =>
    { x with events := x.events || e.testBit 0, hotJoin := x.hotJoin || e.testBit 3 }) s.m))) ∧
  (∀ s e, portResponds s.m = true → exec (.i3cDisec e) s = .next (withM s (modI3c (fun x =>
    { x with events := x.events && !e.testBit 0, hotJoin := x.hotJoin && !e.testBit 3 }) s.m))) ∧
  (∀ s, portResponds s.m = true → exec .i3cRstdaa s = .next (withM s (modI3c (fun x => { x with dynAddr := none }) s.m))) ∧
  (∀ s a, portResponds s.m = true → s.m.i3c.dynAddr = none →
    exec (.i3cEntdaa a) s = .next (withM s (modI3c (fun x => { x with dynAddr := some a }) s.m)) ∧
    exec (.i3cSetdasa a) s = .next (withM s (modI3c (fun x => { x with dynAddr := some a }) s.m)) ∧
    exec (.i3cSetnewda a) s = .next (withM s (send .i3cNack s.m))) ∧
  (∀ s a b, portResponds s.m = true → s.m.i3c.dynAddr = some b →
    exec (.i3cSetnewda a) s = .next (withM s (modI3c (fun x => { x with dynAddr := some a }) s.m)) ∧
    exec (.i3cEntdaa a) s = .next (withM s (send .i3cNack s.m))) ∧
  (∀ s n, portResponds s.m = true → exec (.i3cSetmwl n) s = .next s ∧ exec (.i3cSetmrl n) s = .next s) ∧
  (∀ s, portResponds s.m = true →
    exec .i3cGetmwl s = .next (withM s (send (.i3cRead [0x04, 0x10]) s.m)) ∧
    exec .i3cGetmrl s = .next (withM s (send (.i3cRead ([0x00, 0x40] ++ Config.i3cMrlTail)) s.m)) ∧
    exec .i3cGetpid s = .next (withM s (send (.i3cRead (padTo 6 Config.i3cPid)) s.m)) ∧
    exec .i3cGetbcr s = .next (withM s (send (.i3cRead [0x06]) s.m)) ∧
    exec .i3cGetdcr s = .next (withM s (send (.i3cRead [0x00]) s.m)) ∧
    exec .i3cGetmxds s = .next (withM s (send (.i3cRead Config.i3cMxds) s.m)) ∧
    exec .i3cGetstatus s = .next (withM s (modStp (fun x => { x with choices := x.choices + 1 })
      (send (.i3cRead (padTo 2 (Config.i3cStatusBytes s.m.stp.choices))) s.m)))) ∧
  (∀ s, portResponds s.m = true → exec (.i3cRstact 0) s = .next s ∧ exec (.i3cRstact 1) s = .next (withM s (modI3c (fun x =>
    { x with queue := [], dynAddr := none, events := true, hotJoin := true }) s.m))) ∧
  (∀ s d, portResponds s.m = true → 2 ≤ d → exec (.i3cRstact d) s = .next (withM s (send .i3cNack s.m))) ∧
  (∀ s c, portResponds s.m = false → c ∈ [Instr.i3cStatusRead, .i3cRstdaa, .i3cGetmwl, .i3cGetmrl, .i3cGetpid, .i3cGetbcr, .i3cGetdcr,
      .i3cGetstatus, .i3cGetmxds] → exec c s = .next (withM s (send .i3cNack s.m)))

/-- R436, R437, R440, R442, R443, R445: resets and power-up.  The reset input held for a microsecond resets everything but flash and pins,
and under one microsecond nothing; power-up begins once it is released, its millisecond is over and the switch conducts; each
stage ends in its turn; a bank that boots is chosen, and a stage that fails leaves the module in BOOT with its code.
What the factory banks hold is log 6; the charge at reset is log 11. -/
def Obligations.ResetsAndStages : Prop :=
  (∀ s ns, 1000 ≤ ns → ∃ t, exec (.resetInputAssert ns) s = .next t ∧ t.pending = s.pending ∧ t.nv = s.nv ∧ t.m.life.run = .held ∧
    t.m.life.rstLow = true ∧ t.m.life.rstShort = decide (ns < 1000000) ∧ t.m.ctxs = ({} : Mach).ctxs ∧ t.m.ten = ({} : Mach).ten ∧
    t.m.mem = ({} : Mach).mem ∧ t.m.tick = ({} : Mach).tick ∧ t.m.link = ({} : Mach).link ∧ t.m.fns = ({} : Mach).fns ∧
    t.m.life.present = s.m.life.present ∧ t.m.life.switchOn = s.m.life.switchOn) ∧
  (∀ s ns, ns < 1000 → exec (.resetInputAssert ns) s = .next s) ∧
  (∀ s, s.m.life.run = .held → s.m.life.rstShort = false → s.m.life.switchOn = true → s.m.life.removal = false → s.nv.capArmed = none →
    exec .resetInputRelease s = .next (withM s (modLife (fun l => { l with rstLow := false, run := .up, stage := 1 }) s.m))) ∧
  (∀ s, s.m.life.run = .held → s.m.life.rstLow = false → s.m.life.switchOn = true → s.m.life.removal = false → s.nv.capArmed = none →
    exec .resetHoldEnd s = .next (withM s (modLife (fun l => { l with rstShort := false, run := .up, stage := 1 }) s.m))) ∧
  (∀ s, s.m.life.run = .held → s.m.life.rstLow = true →
    exec .resetHoldEnd s = .next (withM s (modLife (fun l => { l with rstShort := false }) s.m))) ∧
  (∀ s, s.m.life.run = .warmOff → ∃ t, exec .warmResetResume s = .next t ∧ t.m.life.run = .up ∧ t.m.life.stage = 2 ∧
    t.m.life.warmCount = bump 16 1 s.m.life.warmCount ∧ t.m.i3c.portUp = true ∧ t.m.out = s.m.out ++ [.hotJoin]) ∧
  (∀ s, s.m.life.run = .up → s.m.life.stage = 1 → s.m.life.switchOn = true → s.m.life.bulk = .full → ∃ t,
    exec .powerupRailsDone s = .next t ∧ t.m.life.stage = 2 ∧ t.m.i3c.portUp = true ∧ t.m.mem = s.m.mem) ∧
  (∀ s ws x b, s.m.life.run = .up → s.m.life.stage = 2 → x = chooseBank s.nv → x.1 = some b → ∃ t,
    exec (.bootBankSelect 0 ws) s = .next t ∧ t.nv = x.2.1 ∧ t.m.life.stage = 3 ∧ t.m.life.bank = b ∧
    t.m.life.fwRev = (bankOf x.2.1 b).fwRev ∧ t.m.mem.sliceMem = [] ∧ t.m.life.mode = s.m.life.mode) ∧
  (∀ s ws x, s.m.life.run = .up → s.m.life.stage = 2 → x = chooseBank s.nv → x.1 = none → ∃ t,
    exec (.bootBankSelect 0 ws) s = .next t ∧ t.m.life.stage = 15 ∧ t.m.life.fail = 1 ∧ t.m.life.mode = .boot) ∧
  (∀ s, s.m.life.run = .up → s.m.life.stage = 3 → exec .turnipRelease s = .next (withM s
    (modTick (fun t => { t with started := true }) (modLife (fun l => { l with stage := 4, stage3Us := s.m.tick.nowUs }) s.m)))) ∧
  (∀ s lf, s.m.life.run = .up → s.m.life.stage = 4 → ∃ t, exec (.memoryInitDone { ok := true, lpFail := lf }) s = .next t ∧ t.m.life.stage = 5 ∧
    (s.m.life.warm = true → t.nv = s.nv)) ∧
  (∀ s lf, s.m.life.run = .up → s.m.life.stage = 4 → ∃ t, exec (.memoryInitDone { ok := false, lpFail := lf }) s = .next t ∧ t.m.life.stage = 15 ∧
    t.m.life.fail = 3 ∧ t.m.life.mode = .boot) ∧
  (∀ s, s.m.life.run = .up → s.m.life.stage = 5 → exec (.ftlMountDone true) s = .next (withM s (modLife (fun l => { l with stage := 7 })
    (trained (fun _ => true) s.m)))) ∧
  (∀ s, s.m.life.run = .up → s.m.life.stage = 5 → ∃ t, exec (.ftlMountDone false) s = .next t ∧ t.m.life.stage = 15 ∧
    t.m.life.fail = 4 ∧ t.m.life.mode = .boot)

/-- R445, R446, R451, R453, R457, R479, R481, R483: readiness, removal and hot swap.  READY makes the module ready, its running bank ACTIVE and next to boot, and sets
EVT_STATUS's READY bit; fabric-ready draws an epoch that is not zero, puts the reach and the tray's nodes in force, and goes out as a
notice.  A presence loss of 200 ns or more begins removal and one shorter nothing; the
controller isolates the bulk, stops the host port and, once it is bled, ends the removal; a make qualifies the pin, the charge closes
the switch, and the bulk is full at 30 V.
A fallback bank becoming ACTIVE is log 21; the epoch is a draw (log 8); removal and the switch are log 47. -/
def Obligations.ReadinessAndHotSwap : Prop :=
  (∀ s, isUp s.m = true → s.m.life.stage = 7 → s.m.life.mode = .mgmt → (∀ r ∈ s.m.ten.rebinds, r.acrossReset = false) →
    exec .moduleReady s = .next { s with nv := passTrial s.m.life.bank s.nv, m := endWrites (moduleReady s.nv s.m).2 } ∧
    (moduleReady s.nv s.m).2.life.mode = .ready ∧ (moduleReady s.nv s.m).2.life.warm = false) ∧
  (∀ nv b, b = 0 ∨ b = 1 → (bankOf (passTrial b nv) b).st = .active ∧ (passTrial b nv).nextBank = b ∧
    (bankOf (passTrial b nv) (1 - b)).st ≠ .active) ∧
  (∀ s, isUp s.m = true → s.m.life.mode ≠ .mgmt → exec .moduleReady s = .next (withM s (endWrites s.m))) ∧
  (∀ s e, isUp s.m = true → readyDue s.m = true → s.m.cap.state = 0 → e = 1 + Config.randomEpoch s.nv.epochDraws % 65535 →
    exec .fabricReadyAnnounce s = .next { s with
      nv := { s.nv with epochDraws := s.nv.epochDraws + 1 }
      m := endWrites (ownNotice (.fabricReady e) (modFab (fun f =>
        { f with inForce := f.mode, traySet := trayOf s.m, trayNodes := (trayOf s.m).length, epoch := e, ready := true }) s.m)) }) ∧
  (∀ s ns, 200 ≤ ns → s.m.life.removal = false → s.m.life.isolated = false → ∃ t, exec (.presenceLoss ns) s = .next t ∧
    t.m.life.present = false ∧ t.m.life.removal = true ∧ t.m.life.run = s.m.life.run ∧ t.nv = s.nv) ∧
  (∀ s ns, ns < 200 → exec (.presenceLoss ns) s = .next s) ∧
  (∀ s, s.m.life.removal = true → s.m.life.isolated = false → ∃ t, exec .hotswapIsolate s = .next t ∧ t.m.host.stopped = true ∧
    t.m.life.isolated = true ∧ t.m.life.switchOn = false ∧ (s.m.life.run ≠ .held → t.m.life.run = .removed) ∧ t.m.out = s.m.out) ∧
  (∀ s, s.m.life.removal = true → s.m.life.isolated = true →
    exec .hotswapBleedDone s = .next (withM s (modLife (fun l => { l with bulk := .bled, removal := false }) s.m))) ∧
  (∀ s, ∃ t, exec .presenceMake s = .next t ∧ t.m.life.present = true ∧ t.m.life.qualifying = true ∧ t.m.mem = s.m.mem) ∧
  (∀ s, s.m.life.present = true → s.m.life.switchOn = false → s.m.life.removal = false → ∃ t, exec .hotswapChargeStart s = .next t ∧
    t.m.life.switchOn = true ∧ t.m.life.isolated = false ∧ t.m.life.last = 0 ∧ t.m.life.bulk ≠ .bled) ∧
  (∀ s, s.m.life.switchOn = true → exec .hotswapBulkCharged s = .next (withM s (modLife (fun l => { l with bulk := .full }) s.m)))

/-! ### Host port and registers -/

/-- R120, R134, R152, R430: the ring registers of a function.  ENABLE going to 1 takes the size and zeroes every pointer and
number; the size's bounds, a ring that cannot be enabled and a pointer that cannot move are ignored items; ENABLE of the
command rings goes to 0 only with nothing left to serve.
What ENABLE zeroes beyond the manual's list is log 40. -/
def Obligations.RingRegisters : Prop :=
  (∀ s c n w, Lands c s → 9 ≤ n → n ≤ 16 → (fnOf s.m c).cmdEnabled = false → flrHolds s.m c = false → ctxShut s.m c = false →
    w = { fn := c, bar := 0, off := 0x008, width := 4, value := pack [(0, 1, 1), (8, 5, n)] } →
    exec (.cmdRingEnable c n) s = .next (wrote s 7 w (modFn c fun f =>
      { f with cmdEnable := true, cmdEnabled := true, statusLog2 := n, head := 0, urgHead := 0, tail := 0, urgTail := 0, nextSeq := 0
               urgNextSeq := 0, statusWritten := 0, statusHead := 0, ignoredTotal := 0, checked := [], urgChecked := [], finals := [] }))) ∧
  (∀ s c n w, Lands c s → n < 9 ∨ 16 < n ∧ n < 32 →
    w = { fn := c, bar := 0, off := 0x008, width := 4, value := pack [(0, 1, 1), (8, 5, n)] } →
    exec (.cmdRingEnable c n) s = .next (wrote s 7 w (ignoreWrite c .range))) ∧
  (∀ s c n w, Lands c s → 9 ≤ n → n ≤ 16 → ((fnOf s.m c).cmdEnabled = false ∧ flrHolds s.m c = true) ∨ ctxShut s.m c = true →
    w = { fn := c, bar := 0, off := 0x008, width := 4, value := pack [(0, 1, 1), (8, 5, n)] } →
    exec (.cmdRingEnable c n) s = .next (wrote s 7 w (ignoreWrite c .register))) ∧
  (∀ s c f w, Lands c s → f = fnOf s.m c → 9 ≤ f.statusLog2 → f.statusLog2 ≤ 16 → f.cmdEnabled = true → f.head = f.tail →
    f.urgHead = f.urgTail → (∀ r ∈ s.m.reqs, r.ctx ≠ c) →
    w = { fn := c, bar := 0, off := 0x008, width := 4, value := pack [(8, 5, f.statusLog2)] } →
    exec (.cmdRingDisable c) s = .next (wrote s 7 w (modFn c fun f => { f with cmdEnable := false, cmdEnabled := false }))) ∧
  (∀ s c f w, Lands c s → f = fnOf s.m c → 9 ≤ f.statusLog2 → f.statusLog2 ≤ 16 → f.cmdEnabled = true →
    f.head ≠ f.tail ∨ f.urgHead ≠ f.urgTail ∨ (∃ r ∈ s.m.reqs, r.ctx = c) →
    w = { fn := c, bar := 0, off := 0x008, width := 4, value := pack [(8, 5, f.statusLog2)] } →
    exec (.cmdRingDisable c) s = .next (wrote s 7 w (ignoreWrite c .register))) ∧
  (∀ s c n w, Lands c s → 7 ≤ n → n ≤ 16 → (fnOf s.m c).evtEnabled = false → flrHolds s.m c = false → ctxShut s.m c = false →
    w = { fn := c, bar := 0, off := 0x040, width := 4, value := pack [(0, 1, 1), (8, 5, n)] } →
    exec (.evtRingEnable c n) s = .next (wrote s 7 w (modFn c fun f =>
      { f with evtEnable := true, evtEnabled := true, evtLog2 := n, evtTail := 0, evtHead := 0, evtLost := 0, lostSince := 0
               lostFirstTick := 0 }))) ∧
  (∀ s c f w, Lands c s → f = fnOf s.m c → 7 ≤ f.evtLog2 → f.evtLog2 ≤ 16 → f.evtEnabled = true →
    w = { fn := c, bar := 0, off := 0x040, width := 4, value := pack [(8, 5, f.evtLog2)] } →
    exec (.evtRingDisable c) s = .next (wrote s 7 w (modFn c fun f => { f with evtEnable := false, evtEnabled := false }))) ∧
  (∀ s c h w, Lands c s → w = { fn := c, bar := 0, off := 0x030, width := 4, value := h } →
    (Machine.dist h (fnOf s.m c).statusHead ≤ Machine.dist (fnOf s.m c).statusWritten (fnOf s.m c).statusHead →
      exec (.cmdStatusHeadWrite c h) s = .next (wrote s 7 w (modFn c fun f => { f with statusHead := h }))) ∧
    (Machine.dist (fnOf s.m c).statusWritten (fnOf s.m c).statusHead < Machine.dist h (fnOf s.m c).statusHead →
      exec (.cmdStatusHeadWrite c h) s = .next (wrote s 7 w (ignoreWrite c .pointer)))) ∧
  (∀ s c h w, Lands c s → w = { fn := c, bar := 0, off := 0x050, width := 4, value := h } →
    (Machine.dist h (fnOf s.m c).evtHead ≤ Machine.dist (fnOf s.m c).evtTail (fnOf s.m c).evtHead →
      exec (.evtHeadWrite c h) s = .next (wrote s 7 w (modFn c fun f => { f with evtHead := h }))) ∧
    (Machine.dist (fnOf s.m c).evtTail (fnOf s.m c).evtHead < Machine.dist h (fnOf s.m c).evtHead →
      exec (.evtHeadWrite c h) s = .next (wrote s 7 w (ignoreWrite c .pointer))))

/-- R11, R122, R123, R424, R426: the writes that act as they arrive.  A doorbell moves its ring's tail while the ring is enabled and
the tail moves forward by no more than the ring holds, and is otherwise an ignored item; a slot not protected takes its bytes
and no other; a flag written with 1 is cleared; and unmasking a pending vector sends its message. -/
def Obligations.ImmediateWrites : Prop :=
  (∀ s c t f w, Lands c s → f = fnOf s.m c → w = { fn := c, bar := 0, off := 0x018, width := 4, value := t } →
    (f.cmdEnabled = true → Machine.dist t f.head ≤ 256 → Machine.dist t f.tail ≤ 256 →
      exec (.cmdDoorbell c t) s = .next (withM s (modFn c (fun f => { f with tail := t }) (captureWrite 7 w s.m)))) ∧
    (f.cmdEnabled = false ∨ 256 < Machine.dist t f.head ∨ 256 < Machine.dist t f.tail →
      exec (.cmdDoorbell c t) s = .next (withM s (ignoreWrite c .doorbell (captureWrite 7 w s.m))))) ∧
  (∀ s c t f w, Lands c s → f = fnOf s.m c → w = { fn := c, bar := 0, off := 0x01C, width := 4, value := t } →
    (f.cmdEnabled = true → Machine.dist t f.urgHead ≤ 16 → Machine.dist t f.urgTail ≤ 16 →
      exec (.cmdUrgDoorbell c t) s = .next (withM s (modFn c (fun f => { f with urgTail := t }) (captureWrite 7 w s.m)))) ∧
    (f.cmdEnabled = false ∨ 16 < Machine.dist t f.urgHead ∨ 16 < Machine.dist t f.urgTail →
      exec (.cmdUrgDoorbell c t) s = .next (withM s (ignoreWrite c .doorbell (captureWrite 7 w s.m))))) ∧
  (∀ s c i bs f, reachable s.m c = true → f = fnOf s.m c → i < 256 → bs.length = 64 → Machine.dist f.tail f.head ≤ (i + 256 - f.head % 256) % 256 →
    exec (.ringSlotWrite c (0x4000 + 64 * i) bs) s =
      .next (withM s (modFn c (fun f => { f with cmdSlots := memWrite (64 * i) bs f.cmdSlots }) s.m))) ∧
  (∀ s c i bs f, reachable s.m c = true → f = fnOf s.m c → i < 256 → bs.length = 64 → (i + 256 - f.head % 256) % 256 < Machine.dist f.tail f.head →
    exec (.ringSlotWrite c (0x4000 + 64 * i) bs) s = .next (withM s (ignoreWrite c .slotWrite s.m))) ∧
  (∀ s c i bs f, reachable s.m c = true → f = fnOf s.m c → i < 16 → bs.length = 64 →
    Machine.dist f.urgTail f.urgHead ≤ (i + 16 - f.urgHead % 16) % 16 →
    exec (.ringSlotWrite c (0x8000 + 64 * i) bs) s =
      .next (withM s (modFn c (fun f => { f with urgSlots := memWrite (64 * i) bs f.urgSlots }) s.m))) ∧
  (∀ s c off bs, reachable s.m c = true → off < 0x4000 ∨ 0x8400 < off + bs.length →
    exec (.ringSlotWrite c off bs) s = .next (withM s (badAccess c s.m))) ∧
  (∀ s c b w, reachable s.m c = true → w = { fn := c, bar := 0, off := 0x05C, width := 4, value := b.toNat } →
    exec (.evtStatusClear c b) s =
      .next (withM s (modFn c (fun f => { f with evtStatus := f.evtStatus &&& ~~~(b &&& BitVec.ofNat 32 evtFlags) }) (captureWrite 0 w s.m)))) ∧
  (∀ s w, reachable s.m 0 = true → w = { fn := 0, bar := 2, off := 0x00028, width := 8, value := 16 } →
    exec .tikSyncLostSeenClear s = .next (withM s (modTick (fun t => { t with lostSeen := false }) (captureWrite 0 w s.m)))) ∧
  (∀ s c, reachable s.m c = true → (fnOf s.m c).msixMasked = true → (fnOf s.m c).msixPending = true →
    exec (.msixUnmask c) s = .next (withM s (sendIrq c (modFn c (fun f => { f with msixMasked := false, msixPending := false }) s.m)))) ∧
  (∀ s c, reachable s.m c = true → (fnOf s.m c).msixPending = false →
    exec (.msixUnmask c) s = .next (withM s (modFn c (fun f => { f with msixMasked := false }) s.m)))

/-- R26, R32, R49, R182, R212, R333, R361, R411, R477, R493: the writable module registers.  A value in its range takes
force at the boundary and one outside it is an ignored item and changes nothing else; PERIOD_US moves only at the tick root, MODE only before
fabric-ready, and the replay addresses only in replay mode.
A register row is the write's act at the boundary last fired (log 34). -/
def Obligations.ModuleRegisters : Prop :=
  (∀ s p w, Lands 0 s → p < 1024 → w = { fn := 0, bar := 2, off := 0x00000, width := 4, value := p } →
    (10 ≤ p → p ≤ 1000 → s.m.tick.root = true →
      exec (.tikPeriodWrite p) s = .next (wrote s 4 w (modTick fun t => { t with periodUs := p }))) ∧
    (p < 10 ∨ 1000 < p → exec (.tikPeriodWrite p) s = .next (wrote s 4 w (ignoreWrite 0 .range))) ∧
    (10 ≤ p → p ≤ 1000 → s.m.tick.root = false → exec (.tikPeriodWrite p) s = .next (wrote s 4 w (ignoreWrite 0 .register)))) ∧
  (∀ s g w, Lands 0 s → g < 64 → w = { fn := 0, bar := 2, off := 0x00020, width := 4, value := g } →
    (1 ≤ g → g ≤ 50 → exec (.tikGuardWrite g) s = .next (wrote s 7 w (modTick fun t => { t with guardUs := g }))) ∧
    (g = 0 ∨ 50 < g → exec (.tikGuardWrite g) s = .next (wrote s 7 w (ignoreWrite 0 .range)))) ∧
  (∀ s b w, Lands 0 s → w = { fn := 0, bar := 2, off := 0x30000, width := 4, value := if b then 1 else 0 } →
    (s.m.fab.ready = false → exec (.fabReachWrite b) s = .next (wrote s 7 w (modFab fun f => { f with mode := b }))) ∧
    (s.m.fab.ready = true → exec (.fabReachWrite b) s = .next (wrote s 7 w (ignoreWrite 0 .register)))) ∧
  (∀ s t a r n w, Lands 0 s → t < 8192 → a < 16 → r < 256 → n < 16384 →
    w = { fn := 0, bar := 2, off := 0x30008, width := 8, value := t + 2 ^ 16 * a + 2 ^ 24 * r + 2 ^ 32 * n } →
    (50 ≤ t → t ≤ 5000 → 1 ≤ a → 10 ≤ r → r ≤ 255 → 1 ≤ n → n ≤ 10000 →
      exec (.fabCtrlWrite t a r n) s = .next (wrote s 7 w (modFab fun f =>
        { f with timeoutUs := t, attempts := a, retainMs := r, notReadyMs := n }))) ∧
    (t < 50 ∨ 5000 < t ∨ a = 0 ∨ r < 10 ∨ n = 0 ∨ 10000 < n →
      exec (.fabCtrlWrite t a r n) s = .next (wrote s 7 w (ignoreWrite 0 .range)))) ∧
  (∀ s x w, Lands 0 s → x < 65536 → w = { fn := 0, bar := 2, off := 0x40000, width := 4, value := x } →
    (1 ≤ x → exec (.lnkCtrlWrite x) s = .next (wrote s 7 w fun m => { m with link := { m.link with laneErrMax := x } })) ∧
    (x = 0 → exec (.lnkCtrlWrite x) s = .next (wrote s 7 w (ignoreWrite 0 .range)))) ∧
  (∀ s a b c d w, Lands 0 s → a < 65536 → b < 65536 → c < 65536 → d < 65536 →
    w = { fn := 0, bar := 2, off := 0x60050, width := 8, value := a + 2 ^ 16 * b + 2 ^ 32 * c + 2 ^ 48 * d } →
    (a < b → c < d → exec (.memWatermarkWrite a b c d) s = .next (wrote s 7 w (modMem fun x =>
      { x with hbmLow := a, hbmHigh := b, lpLow := c, lpHigh := d }))) ∧
    (b ≤ a ∨ d ≤ c → exec (.memWatermarkWrite a b c d) s = .next (wrote s 7 w (ignoreWrite 0 .range)))) ∧
  (∀ s x h l w, Lands 0 s → x < 64 → h < 256 → l < 256 →
    w = { fn := 0, bar := 2, off := 0x90000, width := 8, value := x + 2 ^ 8 * h + 2 ^ 16 * l } →
    (1 ≤ x → x ≤ 60 → 1 ≤ h → h ≤ 168 → 24 ≤ l →
      exec (.eccScrubWrite x h l) s = .next (wrote s 7 w (modEcc fun e => { e with sramS := x, hbmH := h, lpH := l }))) ∧
    (x = 0 ∨ 60 < x ∨ h = 0 ∨ 168 < h ∨ l < 24 → exec (.eccScrubWrite x h l) s = .next (wrote s 7 w (ignoreWrite 0 .range)))) ∧
  (∀ s g w, Lands 0 s → g < 1024 → w = { fn := 0, bar := 2, off := 0x50030, width := 8, value := g } →
    (g ≤ 1000 → exec (.pwrGateWrite g) s = .next (wrote s 7 w (modPwr fun p => { p with gateTicks := g }))) ∧
    (1000 < g → exec (.pwrGateWrite g) s = .next (wrote s 7 w (ignoreWrite 0 .range)))) ∧
  (∀ s b w, Lands 0 s → b < 2 ^ 52 → s.m.life.replay = true →
    (w = { fn := 0, bar := 2, off := 0xA0028, width := 8, value := b * 4096 } →
      exec (.capReplayAddrWrite false b) s = .next (wrote s 7 w fun m => { m with cap := { m.cap with replayBase := b } })) ∧
    (w = { fn := 0, bar := 2, off := 0xA0030, width := 8, value := b * 4096 } →
      exec (.capReplayAddrWrite true b) s = .next (wrote s 7 w fun m => { m with cap := { m.cap with replayOut := b } }))) ∧
  (∀ s o b w, Lands 0 s → s.m.life.replay = false →
    w = { fn := 0, bar := 2, off := if o then 0xA0030 else 0xA0028, width := 8, value := b * 4096 } →
    exec (.capReplayAddrWrite o b) s = .next (wrote s 7 w (ignoreWrite 0 .register)))

/-- R423, R426, R431, R490, R494: raw accesses.  A well-formed write of a writable register waits for the next boundary, in BOOT among at most
64 held for each function; one to a place that is no register, to a register that only reads, or of a wrong size or
alignment is counted and ignored; and an access to a function the host does not reach changes nothing. -/
def Obligations.RawRegisterWrites : Prop :=
  (∀ s w b r, Lands w.fn s → w.bar = 2 → w.fn = 0 → written s.nv s.m w = some (b, r) → r.writable = true → sizeOk r b w = true →
    b ≠ 0x28 → exec (.registerWrite w.fn w.bar w.off w.width w.value) s =
      .next (withM s (latchWrite w (captureWrite (writeClass w) w s.m)))) ∧
  (∀ w m, (latchWrite w m).host.writes = m.host.writes ++ [{ w with ord := (fnOf m w.fn).arrivals }]) ∧
  (∀ s w b r, reachable s.m 0 = true → s.m.life.mode = .boot → w.bar = 2 → w.fn = 0 → written s.nv s.m w = some (b, r) →
    r.writable = true → sizeOk r b w = true → b ≠ 0x28 → s.m.host.held.countP (·.fn == 0) < 64 →
    exec (.registerWrite w.fn w.bar w.off w.width w.value) s =
      .next (withM s (modHost (fun h => { h with held := h.held ++ [w] }) (captureWrite (writeClass w) w s.m)))) ∧
  (∀ s w, reachable s.m 0 = true → w.bar = 2 → w.fn = 0 → written s.nv s.m w = none →
    exec (.registerWrite w.fn w.bar w.off w.width w.value) s = .next (withM s (badAccess 0 s.m))) ∧
  (∀ s w b r, reachable s.m 0 = true → w.bar = 2 → w.fn = 0 → written s.nv s.m w = some (b, r) → r.writable = false ∨ sizeOk r b w = false →
    exec (.registerWrite w.fn w.bar w.off w.width w.value) s = .next (withM s (badAccess 0 s.m))) ∧
  (∀ s fn bar off width value, reachable s.m fn = false → exec (.registerWrite fn bar off width value) s = .next s) ∧
  (∀ s fn off width value, reachable s.m fn = true → fn ≠ 0 → exec (.registerWrite fn 2 off width value) s = .next s)

/-- R47, R422, R423, R424, R426, R429, R430, R431: the host port.  A read of the count takes its high half with it; training sets what the link
register shows, and clears VF Enable as the row of that name does; a function level reset gives a function its reset registers and cuts its requests off, and clearing VF Enable
does so to every virtual function; an atomic is turned away and a snoop misses; and a read of host memory ends once, with data or failing, and fails for want of a
completion only once 50 ms have passed.
How an FLR is counted is log 68; what it discards is log 32. -/
def Obligations.HostPortHappenings : Prop :=
  (∀ s, s.m.life.run = .up → s.m.life.replay = false → s.m.host.stopped = false → ∃ t, exec .tikCountLoRead s = .next t ∧
    t.nv = s.nv ∧ t.m.tick = { s.m.tick with countHi := s.m.tick.count / 2 ^ 32 % 2 ^ 32 } ∧
    t.m.out = s.m.out ++ [.regRead ((bar2Read s.nv s.m 0x10).getD 0)] ∧ t.m.fns = s.m.fns ∧ t.m.mem = s.m.mem) ∧
  (∀ s x y a b v n, s.m.life.run = .up → s.m.host.vfEnable = false ∨ v = true →
    exec (.cxlLinkTrain x y a b v n) s = .next (withM s (modHost (fun h =>
      { h with speed := x, width := y, flit256 := a, cacheEn := b, vfEnable := v, numVfs := n }) s.m))) ∧
  (∀ s x y a b n, s.m.life.run = .up → s.m.fns.length = 256 → s.m.host.vfEnable = true → ∃ t,
    exec (.cxlLinkTrain x y a b false n) s = .next t ∧ t.m.host.speed = x ∧ t.m.host.width = y ∧ t.m.host.vfEnable = false ∧
    t.m.host.numVfs = n ∧ t.m.fns = fnOf s.m 0 :: List.replicate 255 { flrLatched := true } ∧ t.m.host.flr = s.m.host.flr) ∧
  (∀ s c, reachable s.m c = true → 0 < c → c < s.m.fns.length → ∃ t, exec (.functionLevelReset c) s = .next t ∧
    t.m.fns = s.m.fns.set c { flrLatched := true } ∧ t.m.host.flr = bump 16 1 s.m.host.flr ∧
    t.m.reqs = s.m.reqs.map (fun r => if r.ctx == c then { r with preFlr := true } else r) ∧
    t.m.host.writes = s.m.host.writes.filter (fun w => !(w.fn == c && w.bar == 0)) ∧
    t.m.host.held = s.m.host.held.filter (fun w => !(w.fn == c && w.bar == 0)) ∧
    t.m.ctxs = s.m.ctxs ∧ t.m.ten = s.m.ten ∧ t.m.mem = s.m.mem ∧ t.m.out = s.m.out) ∧
  (∀ s, reachable s.m 0 = true → s.m.fns.length = 256 → ∃ t, exec (.functionLevelReset 0) s = .next t ∧
    t.m.fns = List.replicate 256 { flrLatched := true } ∧ t.m.host.flr = bump 16 1 s.m.host.flr ∧ t.m.ctxs = s.m.ctxs ∧ t.m.ten = s.m.ten) ∧
  (∀ s, s.m.life.run = .up → s.m.fns.length = 256 → ∃ t, exec .vfEnableClear s = .next t ∧ t.m.host.vfEnable = false ∧
    t.m.fns = fnOf s.m 0 :: List.replicate 255 { flrLatched := true } ∧ t.m.host.flr = s.m.host.flr ∧ t.m.ctxs = s.m.ctxs) ∧
  (∀ s c, reachable s.m c = true → exec (.cxlAtomicOp c) s = .next (withM s (send (.cxlUnsupported c) s.m))) ∧
  (∀ s l, s.m.life.run = .up → exec (.cxlSnoop l) s = .next (withM s (send (.snoopMiss l) s.m))) ∧
  (∀ s id addr x data, s.m.life.run = .up → s.m.cap.state = 0 → s.m.host.reads.find? (·.1 == id) = some (id, addr, x) →
    exec (.hostReadComplete id (some data)) s = .next (withM s (deliverRead x (some data) (modHost (fun h =>
      { h with reads := h.reads.filter (·.1 != id), readUs := alDel id h.readUs }) s.m))) ∧
    exec (.hostReadComplete id none) s = .next (withM s (deliverRead x none (modHost (fun h =>
      { h with reads := h.reads.filter (·.1 != id), readUs := alDel id h.readUs, readFail := bump 16 1 h.readFail }) s.m)))) ∧
  (∀ s id t, alGet id s.m.host.readUs = some t → due s.m t 50000 = true →
    exec (.hostReadTimeout id) s = exec (.hostReadComplete id none) s) ∧
  (∀ s id t, alGet id s.m.host.readUs = some t → due s.m t 50000 = false → exec (.hostReadTimeout id) s = .next s) ∧
  (∀ s id data, s.m.host.reads.find? (·.1 == id) = none → exec (.hostReadComplete id data) s = .next s ∧
    exec (.hostReadTimeout id) s = .next s)

/-! ### The machine as a whole -/

/-- R32, R44 (log 1): a step takes the command at the front of the queue and runs it with the queue's rest, and on an empty
queue the block idles.  The queue and the idle step are the model's own (log 1). -/
def Obligations.StepRunsTheFrontCommand : Prop :=
  (∀ s c rest, s.pending = c :: rest → step s = exec c { s with pending := rest }) ∧ (∀ s, s.pending = [] → step s = .next s)

/-- R2, R8, R22: every command, whatever its operands and whatever the state, answers a next state, and leaves the queue as it
was: no command stops the machine.
That a happening whose condition fails changes nothing is the model's convention (log 3). -/
def Obligations.EveryCommandAnswers : Prop :=
  ∀ c s, ∃ t, exec c s = .next t ∧ t.pending = s.pending

/-- R491, Table 21.2: what every BAR2 register reads after a cold reset, that no other place of BAR2 is a register, and that
the fused values are those of manufacture once stage 1 has ended. -/
def Obligations.RegistersAfterColdReset : Prop :=
  (∀ x ∈ [(0x00000, 0x00320032), (0x00008, 0x00000001), (0x00020, 0x00000002), (0x00040, 0x0000000000000001),
      (0x30000, 0x00000100), (0x30008, 0x000003E80A0801F4), (0x40000, 0x00001000), (0x50010, 0x0000038403840640),
      (0x50030, 0x00000000000000C8), (0x50040, 0x0000000000000001), (0x60040, 0x574FBD6D423DF047), (0x60048, 0x574FBD6D423DF047),
      (0x60050, 0x2000100040002000), (0x60068, 0x0000000003E80000), (0x70000, 0x0000000100B83000), (0x70008, 0xFFFFFFFFFFFFFFFF),
      (0x70010, 0xFFFFFFFFFFFFFFFF), (0x70018, 0xFFFFFFFFFFFFFFFF), (0x70020, 0xFFFFFFFFFFFFFFFF), (0x70028, 0xFFFFFFFFFFFFFFFF),
      (0x70030, 0xFFFFFFFFFFFFFFFF), (0x90000, 0x0000000000A8180A)],
    bar2Read State.reset.nv State.reset.m x.1 = some x.2) ∧
  (∀ off ∈ [0x00010, 0x00018, 0x00028, 0x00030, 0x00038, 0x10000, 0x10008, 0x10010, 0x10020, 0x10028, 0x10030, 0x10038,
      0x30010, 0x30018, 0x30020, 0x30028, 0x30030, 0x30038, 0x30040, 0x30048, 0x40008, 0x40010] ++
      ((List.range 6).flatMap fun n => (List.range 5).map fun i => 0x40100 + 0x40 * n + 8 * i) ++
      [0x50000, 0x50008, 0x50018, 0x50020, 0x50028, 0x50038, 0x60000, 0x60008, 0x60010, 0x60058, 0x60060, 0x60070, 0x60078, 0x60080,
       0x600C0, 0x600C8, 0x600D0, 0x600D8, 0x70038, 0x70040, 0x80000, 0x80008, 0x80010, 0x80018, 0x90008, 0x90010, 0x90018,
       0x90020, 0x90028, 0x90030, 0xA0000, 0xA0008, 0xA0010, 0xA0018, 0xA0020, 0xA0028, 0xA0030, 0xA0038, 0xB0000, 0xB0008,
       0xB0010, 0xB0018, 0xB0020, 0xB0028, 0xB0030, 0xB0038, 0xB0040, 0xB0048],
    bar2Read State.reset.nv State.reset.m off = some 0) ∧
  (∀ nv m off, 0xC0000 ≤ off ∨ 0x20000 ≤ off ∧ off < 0x30000 ∨ off % 8 ≠ 0 → bar2Read nv m off = none) ∧
  (∀ nv (m : Mach), 1 ≤ stagesEnded m.life → bar2Read nv m 0xB0020 = some (Config.serial % 2 ^ 64) ∧
    bar2Read nv m 0xB0028 = some (field Config.fwKeyDigest 0 8))

/-- R80, R123, R154 (log 1): every memory of the machine is in its canonical form after reset: nothing is listed. -/
def Obligations.MemoryStartsCanonical : Prop := Memory.wf State.reset.m = true

/-- R70, R74, R123, R154, R436: the commands that write memory keep its canonical form: a program's loads, stores, atomics, vector and
matrix instructions, a ring slot's write, the clearing of a pea that starts, and a reset. -/
def Obligations.MemoryStaysCanonical : Prop :=
  ∀ c s t, (∃ p a n d, c = .peaLoad p a n d) ∨ (∃ p a bs, c = .peaStore p a bs) ∨ (∃ p a w op x y rd, c = .sliceAtomic p a w op x y rd) ∨
      (∃ p op d a b e, c = .vectorOperation p op d a b e) ∨ (∃ p o, c = .matrixInstruction p o) ∨ (∃ p v e d l, c = .quant p v e d l) ∨
      (∃ f o bs, c = .ringSlotWrite f o bs) ∨ (∃ p, c = .peaStaggerStart p) ∨ (∃ ns, c = .resetInputAssert ns) ∨
      (∃ b ws, c = .bootBankSelect b ws) →
    Memory.wf s.m = true → exec c s = .next t → Memory.wf t.m = true

/-- R148, R189, R190, R355, R451, R455: no step, of any command, makes the flash tier better, returns a retired block to service, gives back a signature
leaf, repeats a draw of a key or an epoch, or changes the module slot's keys. -/
def Obligations.NothingIsUndone : Prop := ∀ s t, step s = .next t → Onward s.nv t.nv

/-- R190: the flash tier is in one of its four states, moves only downward whatever command is run, and a cold reset does not restore it. -/
def Obligations.FlashMovesDownward : Prop :=
  (∀ f : FlashState, f = .normal ∨ f = .warn ∨ f = .readOnly ∨ f = .offline) ∧
  (∀ c s t, exec c s = .next t → flashRank s.nv.flash.state ≤ flashRank t.nv.flash.state) ∧
  (∀ s ns, ∃ t, exec (.resetInputAssert ns) s = .next t ∧ t.nv.flash.state = s.nv.flash.state)

/-- R436: the reset input.  An assertion shorter than 1 µs has no effect and is not counted; one of 1 µs or longer is a cold reset at once: the module is
held, and everything but flash and the pins is lost.  Power-up starts when the input is released, and where that comes before 1 ms
has passed, once it has passed; so any such pulse gives exactly one cold reset. -/
def Obligations.ResetInputFiltered : Prop :=
  (∀ s ns, ns < 1000 → exec (.resetInputAssert ns) s = .next s) ∧
  (∀ s ns, 1000 ≤ ns → ∃ t, exec (.resetInputAssert ns) s = .next t ∧ t.pending = s.pending ∧ t.nv = s.nv ∧ isUp t.m = false ∧
    t.m = { ({} : Mach) with out := s.m.out, life := t.m.life, chan := { inPlace := s.m.chan.inPlace } } ∧
    t.m.life = { ({} : LifeSt) with
      run := .held, rstLow := true, rstShort := decide (ns < 1000000), present := s.m.life.present, removal := s.m.life.removal
      isolated := s.m.life.isolated, bulk := s.m.life.bulk, switchOn := s.m.life.switchOn, qualifying := s.m.life.qualifying
      last := t.m.life.last }) ∧
  (∀ s, s.m.life.run = .held → s.m.life.switchOn = true → s.m.life.removal = false → ∃ t, exec .resetInputRelease s = .next t ∧
    (s.m.life.rstShort = true → t.m.life.run = .held) ∧ (s.m.life.rstShort = false → t.m.life.run = .up ∧ t.m.life.stage = 1)) ∧
  (∀ s, s.m.life.run = .held → s.m.life.switchOn = true → s.m.life.removal = false → ∃ t, exec .resetHoldEnd s = .next t ∧
    (s.m.life.rstLow = true → t.m.life.run = .held) ∧ (s.m.life.rstLow = false → t.m.life.run = .up ∧ t.m.life.stage = 1)) ∧
  (∀ s ns, 1000 ≤ ns → ns < 1000000 → s.m.life.switchOn = true → s.m.life.removal = false → ∃ a b c,
    exec (.resetInputAssert ns) s = .next a ∧ exec .resetInputRelease a = .next b ∧ exec .resetHoldEnd b = .next c ∧
    a.m.life.run = .held ∧ b.m.life.run = .held ∧ c.m.life.run = .up ∧ c.m.life.stage = 1)

/-- R22, R410, R457, R480: while the module is held, shut down or removed, none of its own units does anything.
That such a happening changes nothing is the model's convention (log 3). -/
def Obligations.NothingWhileDown : Prop :=
  (∀ s, s.m.life.run ≠ .up → exec .tickBoundary s = .next s) ∧
  ∀ s c, isUp s.m = false → c ∈ [Instr.go, .stepWalkIndex, .clampEnd, .thermalShutdown, .leaseExpiry, .energyCalibration,
      .moduleReady, .fabricReadyAnnounce, .pageReclaim, .rootTsyncLaunch, .tsyncMiss, .tickSyncLoss, .groupJoinTimeout,
      .fwDataProgrammed, .fwCommitCheckDone, .attestSignDone] ∨
      (∃ p, c = .peaStaggerStart p ∨ c = .engineColdStart p ∨ c = .descRun p ∨ c = .descWait p ∨ c = .descPost p ∨ c = .workUnitComplete p ∨
        c = .move p ∨ c = .tile p ∨ c = .podGate p ∨ c = .podUngateDone p ∨ c = .linkDetectStart p ∨ c = .linkPartnerDetect p ∨
        c = .linkLockLoss p) ∨
      (∃ t q, c = .slotDrain t q ∨ c = .migrationCommit t q [] ∨ c = .kvFlashDemote t q) →
    exec c s = .next s

/-- R127, R129, R130, R132, R139, R145, Table 5.10: a packet of the host.  One whose ring is not served, is not empty before it, or is held by a fence
stays queued; one for which the status ring has no room stays queued, sets STALL and is counted once a boundary; the first check that fails makes it an ignored
item, consumed without a reply; in MGMT and FAULT it may be turned away with its one reply; and one of context 0 with an opcode that needs pods, slices or pages of
its own is DENIED, its DETAIL the module's node number, and has no other effect.
That the room rule holds for every packet consumed is log 41. -/
def Obligations.PacketsAreChecked : Prop :=
  (∀ i p s, packetOf i = some p → canServe s.m p = false → exec i s = .next s) ∧
  (∀ i p s, packetOf i = some p → canServe s.m p = true → hasRoom s.m p.hdr.ctx p.info.urgent (p.extra s.m) = false →
    exec i s = .next (withM s (flushEvents (modCtx p.hdr.ctx (fun x => if x.stallAt = some s.m.tick.count then x
      else { x with ringStall := bump 32 1 x.ringStall, stallAt := some s.m.tick.count }) (setEvt p.hdr.ctx 3 s.m))))) ∧
  (∀ i p s r, packetOf i = some p → canServe s.m p = true → hasRoom s.m p.hdr.ctx p.info.urgent (p.extra s.m) = true →
    firstFail s.nv (passPacket p.hdr.ctx p.info.urgent s.m) p = some r →
    exec i s = .next (withM s (endWrites (ignoreItem p.hdr.ctx r p.hdr.seq p.info.op true (passPacket p.hdr.ctx p.info.urgent s.m))))) ∧
  (∀ i p s, packetOf i = some p → canServe s.m p = true → hasRoom s.m p.hdr.ctx p.info.urgent (p.extra s.m) = true →
    firstFail s.nv (passPacket p.hdr.ctx p.info.urgent s.m) p = none →
    (s.m.life.mode = .mgmt → p.info.mgmt = false → exec i s = .next (replied p s .notReady (readyHint s.m) (s.nv, taken p s))) ∧
    (s.m.life.mode = .fault → p.info.mgmt = false →
      exec i s = .next (replied p s .moduleFault (s.m.life.halted.headD 0) (s.nv, taken p s))) ∧
    (s.m.life.mode = .ready → p.info.tenant = false ∨ p.hdr.ctx ≠ 0 → exec i s = .next (acted s (p.eff s.nv (taken p s))))) ∧
  (∀ (m : Mach), 1 ≤ readyHint m) ∧
  (∀ i p s, packetOf i = some p →
    p.info.op ∈ [0x20, 0x21, 0x22, 0x23, 0x24, 0x25, 0x26, 0x30, 0x31, 0x32, 0x33, 0x40, 0x41, 0x42, 0x50, 0x51, 0x52, 0x53, 0x54, 0x55, 0x70,
      0x82, 0x90, 0x91, 0x92] →
    p.hdr.ctx = 0 → canServe s.m p = true → hasRoom s.m 0 p.info.urgent (p.extra s.m) = true →
    firstFail s.nv (passPacket 0 p.info.urgent s.m) p = none → s.m.life.mode = .ready →
    exec i s = .next (replied p s .denied (s.m.fab.node.getD 0x8000) (s.nv, taken p s)))

/-- R131, Tables 5.5 and 5.7: each reply is one aligned write of 16 bytes and each event record one of 32, each at its own place of its ring, and OWN
is 1 in every entry of the first pass and flips on each later pass. -/
def Obligations.RingEntries : Prop :=
  (∀ (m : Mach) c q d st u irq f a, m.host.stopped = false → m.life.replay = false → f = fnOf m c →
    a = f.statusBase * 4096 + 16 * (f.statusWritten % 2 ^ f.statusLog2) → ∃ bs, (putReply c q d st u irq m).out = m.out ++ [.hostWrite a bs] ∧
      bs.length = 16 ∧ a % 16 = 0 ∧ bs.take 15 = le 4 q ++ le 4 d ++ le 6 m.tick.count ++ le 1 (statusCode st) ∧
      (field bs 15 1).testBit 0 = decide (f.statusWritten / 2 ^ f.statusLog2 % 2 = 0) ∧ (field bs 15 1).testBit 1 = u ∧
      field bs 15 1 < 4) ∧
  (∀ (m : Mach) c typ ctx tick body f a, m.host.stopped = false → m.life.replay = false → f = fnOf m c → body.length ≤ 23 →
    a = f.evtBase * 4096 + 32 * (f.evtTail % 2 ^ f.evtLog2) → ∃ bs, (putRecord c typ ctx tick body m).out = m.out ++ [.hostWrite a bs] ∧
      bs.length = 32 ∧ a % 32 = 0 ∧ bs.take 31 = le 1 typ ++ le 1 ctx ++ le 6 tick ++ padTo 23 body ∧
      (field bs 31 1).testBit 0 = decide (f.evtTail / 2 ^ f.evtLog2 % 2 = 0) ∧ field bs 31 1 < 2)

/-- What a command of one unit leaves as it was in the others, for every state and operands: the frames of the commands whose results
are stated field by field. -/
def Obligations.UnitsKeepApart : Prop := ∀ c s t, exec c s = .next t → KeepsApart c s t
end

