-- ==== Sys2Proof/Laws/State.lean ====
section
/-! SUPPORT. What each update of the machine's state does to each of its fields, so that no proof unfolds a
record update; and what one member of a list of many is after one of them has been changed. -/

namespace Sys2Proof.Machine

/-! ### One entry of a list changed -/

theorem modAt_getElem? {α : Type} (i : Nat) (f : α → α) (l : List α) (j : Nat) :
    (modAt i f l)[j]? = if i = j then l[j]?.map f else l[j]? := by
  simp only [modAt, List.getElem?_modify]
  split <;> simp

@[simp] theorem modAt_length {α : Type} (i : Nat) (f : α → α) (l : List α) : (modAt i f l).length = l.length := by
  simp [modAt]

/-- A member after one has been changed; beyond the end every member is the default. -/
theorem modAt_getD {α : Type} (i : Nat) (f : α → α) (l : List α) (j : Nat) (d : α) :
    (modAt i f l)[j]?.getD d = if i = j ∧ j < l.length then f (l[j]?.getD d) else l[j]?.getD d := by
  rw [modAt_getElem?]
  by_cases h : i = j
  · by_cases k : j < l.length
    · simp [h, k]
    · simp [h, k]
  · simp [h]

theorem modAt_modAt {α : Type} (i : Nat) (f g : α → α) (l : List α) : modAt i g (modAt i f l) = modAt i (g ∘ f) l := by
  apply List.ext_getElem?
  intro j
  simp only [modAt_getElem?]
  by_cases h : i = j <;> simp [h]

/-! ### modCtx -/

@[simp] theorem modCtx_tick (c : Nat) (f : Ctx → Ctx) (m : Mach) : (modCtx c f m).tick = m.tick := rfl
@[simp] theorem modCtx_fns (c : Nat) (f : Ctx → Ctx) (m : Mach) : (modCtx c f m).fns = m.fns := rfl
@[simp] theorem modCtx_reqs (c : Nat) (f : Ctx → Ctx) (m : Mach) : (modCtx c f m).reqs = m.reqs := rfl
@[simp] theorem modCtx_ctxs (c : Nat) (f : Ctx → Ctx) (m : Mach) : (modCtx c f m).ctxs = modAt c f m.ctxs := rfl
@[simp] theorem modCtx_ten (c : Nat) (f : Ctx → Ctx) (m : Mach) : (modCtx c f m).ten = m.ten := rfl
@[simp] theorem modCtx_mem (c : Nat) (f : Ctx → Ctx) (m : Mach) : (modCtx c f m).mem = m.mem := rfl
@[simp] theorem modCtx_flashTick (c : Nat) (f : Ctx → Ctx) (m : Mach) : (modCtx c f m).flashTick = m.flashTick := rfl
@[simp] theorem modCtx_ecc (c : Nat) (f : Ctx → Ctx) (m : Mach) : (modCtx c f m).ecc = m.ecc := rfl
@[simp] theorem modCtx_cmp (c : Nat) (f : Ctx → Ctx) (m : Mach) : (modCtx c f m).cmp = m.cmp := rfl
@[simp] theorem modCtx_peas (c : Nat) (f : Ctx → Ctx) (m : Mach) : (modCtx c f m).peas = m.peas := rfl
@[simp] theorem modCtx_stp (c : Nat) (f : Ctx → Ctx) (m : Mach) : (modCtx c f m).stp = m.stp := rfl
@[simp] theorem modCtx_link (c : Nat) (f : Ctx → Ctx) (m : Mach) : (modCtx c f m).link = m.link := rfl
@[simp] theorem modCtx_fab (c : Nat) (f : Ctx → Ctx) (m : Mach) : (modCtx c f m).fab = m.fab := rfl
@[simp] theorem modCtx_pwr (c : Nat) (f : Ctx → Ctx) (m : Mach) : (modCtx c f m).pwr = m.pwr := rfl
@[simp] theorem modCtx_i3c (c : Nat) (f : Ctx → Ctx) (m : Mach) : (modCtx c f m).i3c = m.i3c := rfl
@[simp] theorem modCtx_life (c : Nat) (f : Ctx → Ctx) (m : Mach) : (modCtx c f m).life = m.life := rfl
@[simp] theorem modCtx_cap (c : Nat) (f : Ctx → Ctx) (m : Mach) : (modCtx c f m).cap = m.cap := rfl
@[simp] theorem modCtx_host (c : Nat) (f : Ctx → Ctx) (m : Mach) : (modCtx c f m).host = m.host := rfl
@[simp] theorem modCtx_lat (c : Nat) (f : Ctx → Ctx) (m : Mach) : (modCtx c f m).lat = m.lat := rfl
@[simp] theorem modCtx_evq (c : Nat) (f : Ctx → Ctx) (m : Mach) : (modCtx c f m).evq = m.evq := rfl
@[simp] theorem modCtx_out (c : Nat) (f : Ctx → Ctx) (m : Mach) : (modCtx c f m).out = m.out := rfl
@[simp] theorem fnOf_modCtx (c : Nat) (f : Ctx → Ctx) (m : Mach) (j : Nat) : fnOf (modCtx c f m) j = fnOf m j := rfl
@[simp] theorem peaOf_modCtx (c : Nat) (f : Ctx → Ctx) (m : Mach) (j : Nat) : peaOf (modCtx c f m) j = peaOf m j := rfl
@[simp] theorem tenOf_modCtx (c : Nat) (f : Ctx → Ctx) (m : Mach) (j : Nat) : tenOf (modCtx c f m) j = tenOf m j := rfl
@[simp] theorem portOf_modCtx (c : Nat) (f : Ctx → Ctx) (m : Mach) (j : Nat) : portOf (modCtx c f m) j = portOf m j := rfl

theorem ctxOf_modCtx (c : Nat) (f : Ctx → Ctx) (m : Mach) (j : Nat) :
    ctxOf (modCtx c f m) j = if c = j ∧ j < m.ctxs.length then f (ctxOf m j) else ctxOf m j :=
  modAt_getD c f m.ctxs j {}

/-- What a change keeps of one member, it keeps of every member. -/
theorem ctxOf_keeps {α : Type} (π : Ctx → α) (c : Nat) (f : Ctx → Ctx) (m : Mach) (j : Nat) (h : ∀ x, π (f x) = π x) :
    π (ctxOf (modCtx c f m) j) = π (ctxOf m j) := by
  rw [ctxOf_modCtx]
  split
  · exact h _
  · rfl

/-! ### modFn -/

@[simp] theorem modFn_tick (c : Nat) (f : Fn → Fn) (m : Mach) : (modFn c f m).tick = m.tick := rfl
@[simp] theorem modFn_fns (c : Nat) (f : Fn → Fn) (m : Mach) : (modFn c f m).fns = modAt c f m.fns := rfl
@[simp] theorem modFn_reqs (c : Nat) (f : Fn → Fn) (m : Mach) : (modFn c f m).reqs = m.reqs := rfl
@[simp] theorem modFn_ctxs (c : Nat) (f : Fn → Fn) (m : Mach) : (modFn c f m).ctxs = m.ctxs := rfl
@[simp] theorem modFn_ten (c : Nat) (f : Fn → Fn) (m : Mach) : (modFn c f m).ten = m.ten := rfl
@[simp] theorem modFn_mem (c : Nat) (f : Fn → Fn) (m : Mach) : (modFn c f m).mem = m.mem := rfl
@[simp] theorem modFn_flashTick (c : Nat) (f : Fn → Fn) (m : Mach) : (modFn c f m).flashTick = m.flashTick := rfl
@[simp] theorem modFn_ecc (c : Nat) (f : Fn → Fn) (m : Mach) : (modFn c f m).ecc = m.ecc := rfl
@[simp] theorem modFn_cmp (c : Nat) (f : Fn → Fn) (m : Mach) : (modFn c f m).cmp = m.cmp := rfl
@[simp] theorem modFn_peas (c : Nat) (f : Fn → Fn) (m : Mach) : (modFn c f m).peas = m.peas := rfl
@[simp] theorem modFn_stp (c : Nat) (f : Fn → Fn) (m : Mach) : (modFn c f m).stp = m.stp := rfl
@[simp] theorem modFn_link (c : Nat) (f : Fn → Fn) (m : Mach) : (modFn c f m).link = m.link := rfl
@[simp] theorem modFn_fab (c : Nat) (f : Fn → Fn) (m : Mach) : (modFn c f m).fab = m.fab := rfl
@[simp] theorem modFn_pwr (c : Nat) (f : Fn → Fn) (m : Mach) : (modFn c f m).pwr = m.pwr := rfl
@[simp] theorem modFn_i3c (c : Nat) (f : Fn → Fn) (m : Mach) : (modFn c f m).i3c = m.i3c := rfl
@[simp] theorem modFn_life (c : Nat) (f : Fn → Fn) (m : Mach) : (modFn c f m).life = m.life := rfl
@[simp] theorem modFn_cap (c : Nat) (f : Fn → Fn) (m : Mach) : (modFn c f m).cap = m.cap := rfl
@[simp] theorem modFn_host (c : Nat) (f : Fn → Fn) (m : Mach) : (modFn c f m).host = m.host := rfl
@[simp] theorem modFn_lat (c : Nat) (f : Fn → Fn) (m : Mach) : (modFn c f m).lat = m.lat := rfl
@[simp] theorem modFn_evq (c : Nat) (f : Fn → Fn) (m : Mach) : (modFn c f m).evq = m.evq := rfl
@[simp] theorem modFn_out (c : Nat) (f : Fn → Fn) (m : Mach) : (modFn c f m).out = m.out := rfl
@[simp] theorem ctxOf_modFn (c : Nat) (f : Fn → Fn) (m : Mach) (j : Nat) : ctxOf (modFn c f m) j = ctxOf m j := rfl
@[simp] theorem peaOf_modFn (c : Nat) (f : Fn → Fn) (m : Mach) (j : Nat) : peaOf (modFn c f m) j = peaOf m j := rfl
@[simp] theorem tenOf_modFn (c : Nat) (f : Fn → Fn) (m : Mach) (j : Nat) : tenOf (modFn c f m) j = tenOf m j := rfl
@[simp] theorem portOf_modFn (c : Nat) (f : Fn → Fn) (m : Mach) (j : Nat) : portOf (modFn c f m) j = portOf m j := rfl

theorem fnOf_modFn (c : Nat) (f : Fn → Fn) (m : Mach) (j : Nat) :
    fnOf (modFn c f m) j = if c = j ∧ j < m.fns.length then f (fnOf m j) else fnOf m j :=
  modAt_getD c f m.fns j {}

/-- What a change keeps of one member, it keeps of every member. -/
theorem fnOf_keeps {α : Type} (π : Fn → α) (c : Nat) (f : Fn → Fn) (m : Mach) (j : Nat) (h : ∀ x, π (f x) = π x) :
    π (fnOf (modFn c f m) j) = π (fnOf m j) := by
  rw [fnOf_modFn]
  split
  · exact h _
  · rfl

/-! ### modPea -/

@[simp] theorem modPea_tick (p : Nat) (f : Pea → Pea) (m : Mach) : (modPea p f m).tick = m.tick := rfl
@[simp] theorem modPea_fns (p : Nat) (f : Pea → Pea) (m : Mach) : (modPea p f m).fns = m.fns := rfl
@[simp] theorem modPea_reqs (p : Nat) (f : Pea → Pea) (m : Mach) : (modPea p f m).reqs = m.reqs := rfl
@[simp] theorem modPea_ctxs (p : Nat) (f : Pea → Pea) (m : Mach) : (modPea p f m).ctxs = m.ctxs := rfl
@[simp] theorem modPea_ten (p : Nat) (f : Pea → Pea) (m : Mach) : (modPea p f m).ten = m.ten := rfl
@[simp] theorem modPea_mem (p : Nat) (f : Pea → Pea) (m : Mach) : (modPea p f m).mem = m.mem := rfl
@[simp] theorem modPea_flashTick (p : Nat) (f : Pea → Pea) (m : Mach) : (modPea p f m).flashTick = m.flashTick := rfl
@[simp] theorem modPea_ecc (p : Nat) (f : Pea → Pea) (m : Mach) : (modPea p f m).ecc = m.ecc := rfl
@[simp] theorem modPea_cmp (p : Nat) (f : Pea → Pea) (m : Mach) : (modPea p f m).cmp = m.cmp := rfl
@[simp] theorem modPea_peas (p : Nat) (f : Pea → Pea) (m : Mach) : (modPea p f m).peas = modAt p f m.peas := rfl
@[simp] theorem modPea_stp (p : Nat) (f : Pea → Pea) (m : Mach) : (modPea p f m).stp = m.stp := rfl
@[simp] theorem modPea_link (p : Nat) (f : Pea → Pea) (m : Mach) : (modPea p f m).link = m.link := rfl
@[simp] theorem modPea_fab (p : Nat) (f : Pea → Pea) (m : Mach) : (modPea p f m).fab = m.fab := rfl
@[simp] theorem modPea_pwr (p : Nat) (f : Pea → Pea) (m : Mach) : (modPea p f m).pwr = m.pwr := rfl
@[simp] theorem modPea_i3c (p : Nat) (f : Pea → Pea) (m : Mach) : (modPea p f m).i3c = m.i3c := rfl
@[simp] theorem modPea_life (p : Nat) (f : Pea → Pea) (m : Mach) : (modPea p f m).life = m.life := rfl
@[simp] theorem modPea_cap (p : Nat) (f : Pea → Pea) (m : Mach) : (modPea p f m).cap = m.cap := rfl
@[simp] theorem modPea_host (p : Nat) (f : Pea → Pea) (m : Mach) : (modPea p f m).host = m.host := rfl
@[simp] theorem modPea_lat (p : Nat) (f : Pea → Pea) (m : Mach) : (modPea p f m).lat = m.lat := rfl
@[simp] theorem modPea_evq (p : Nat) (f : Pea → Pea) (m : Mach) : (modPea p f m).evq = m.evq := rfl
@[simp] theorem modPea_out (p : Nat) (f : Pea → Pea) (m : Mach) : (modPea p f m).out = m.out := rfl
@[simp] theorem ctxOf_modPea (p : Nat) (f : Pea → Pea) (m : Mach) (j : Nat) : ctxOf (modPea p f m) j = ctxOf m j := rfl
@[simp] theorem fnOf_modPea (p : Nat) (f : Pea → Pea) (m : Mach) (j : Nat) : fnOf (modPea p f m) j = fnOf m j := rfl
@[simp] theorem tenOf_modPea (p : Nat) (f : Pea → Pea) (m : Mach) (j : Nat) : tenOf (modPea p f m) j = tenOf m j := rfl
@[simp] theorem portOf_modPea (p : Nat) (f : Pea → Pea) (m : Mach) (j : Nat) : portOf (modPea p f m) j = portOf m j := rfl

theorem peaOf_modPea (p : Nat) (f : Pea → Pea) (m : Mach) (j : Nat) :
    peaOf (modPea p f m) j = if p = j ∧ j < m.peas.length then f (peaOf m j) else peaOf m j :=
  modAt_getD p f m.peas j {}

/-- What a change keeps of one member, it keeps of every member. -/
theorem peaOf_keeps {α : Type} (π : Pea → α) (p : Nat) (f : Pea → Pea) (m : Mach) (j : Nat) (h : ∀ x, π (f x) = π x) :
    π (peaOf (modPea p f m) j) = π (peaOf m j) := by
  rw [peaOf_modPea]
  split
  · exact h _
  · rfl

/-! ### modTen -/

@[simp] theorem modTen_tick (t : Nat) (f : Ten → Ten) (m : Mach) : (modTen t f m).tick = m.tick := rfl
@[simp] theorem modTen_fns (t : Nat) (f : Ten → Ten) (m : Mach) : (modTen t f m).fns = m.fns := rfl
@[simp] theorem modTen_reqs (t : Nat) (f : Ten → Ten) (m : Mach) : (modTen t f m).reqs = m.reqs := rfl
@[simp] theorem modTen_ctxs (t : Nat) (f : Ten → Ten) (m : Mach) : (modTen t f m).ctxs = m.ctxs := rfl
@[simp] theorem modTen_ten (t : Nat) (f : Ten → Ten) (m : Mach) : (modTen t f m).ten = { m.ten with tens := modAt t f m.ten.tens } := rfl
@[simp] theorem modTen_mem (t : Nat) (f : Ten → Ten) (m : Mach) : (modTen t f m).mem = m.mem := rfl
@[simp] theorem modTen_flashTick (t : Nat) (f : Ten → Ten) (m : Mach) : (modTen t f m).flashTick = m.flashTick := rfl
@[simp] theorem modTen_ecc (t : Nat) (f : Ten → Ten) (m : Mach) : (modTen t f m).ecc = m.ecc := rfl
@[simp] theorem modTen_cmp (t : Nat) (f : Ten → Ten) (m : Mach) : (modTen t f m).cmp = m.cmp := rfl
@[simp] theorem modTen_peas (t : Nat) (f : Ten → Ten) (m : Mach) : (modTen t f m).peas = m.peas := rfl
@[simp] theorem modTen_stp (t : Nat) (f : Ten → Ten) (m : Mach) : (modTen t f m).stp = m.stp := rfl
@[simp] theorem modTen_link (t : Nat) (f : Ten → Ten) (m : Mach) : (modTen t f m).link = m.link := rfl
@[simp] theorem modTen_fab (t : Nat) (f : Ten → Ten) (m : Mach) : (modTen t f m).fab = m.fab := rfl
@[simp] theorem modTen_pwr (t : Nat) (f : Ten → Ten) (m : Mach) : (modTen t f m).pwr = m.pwr := rfl
@[simp] theorem modTen_i3c (t : Nat) (f : Ten → Ten) (m : Mach) : (modTen t f m).i3c = m.i3c := rfl
@[simp] theorem modTen_life (t : Nat) (f : Ten → Ten) (m : Mach) : (modTen t f m).life = m.life := rfl
@[simp] theorem modTen_cap (t : Nat) (f : Ten → Ten) (m : Mach) : (modTen t f m).cap = m.cap := rfl
@[simp] theorem modTen_host (t : Nat) (f : Ten → Ten) (m : Mach) : (modTen t f m).host = m.host := rfl
@[simp] theorem modTen_lat (t : Nat) (f : Ten → Ten) (m : Mach) : (modTen t f m).lat = m.lat := rfl
@[simp] theorem modTen_evq (t : Nat) (f : Ten → Ten) (m : Mach) : (modTen t f m).evq = m.evq := rfl
@[simp] theorem modTen_out (t : Nat) (f : Ten → Ten) (m : Mach) : (modTen t f m).out = m.out := rfl
@[simp] theorem ctxOf_modTen (t : Nat) (f : Ten → Ten) (m : Mach) (j : Nat) : ctxOf (modTen t f m) j = ctxOf m j := rfl
@[simp] theorem fnOf_modTen (t : Nat) (f : Ten → Ten) (m : Mach) (j : Nat) : fnOf (modTen t f m) j = fnOf m j := rfl
@[simp] theorem peaOf_modTen (t : Nat) (f : Ten → Ten) (m : Mach) (j : Nat) : peaOf (modTen t f m) j = peaOf m j := rfl
@[simp] theorem portOf_modTen (t : Nat) (f : Ten → Ten) (m : Mach) (j : Nat) : portOf (modTen t f m) j = portOf m j := rfl

theorem tenOf_modTen (t : Nat) (f : Ten → Ten) (m : Mach) (j : Nat) :
    tenOf (modTen t f m) j = if t = j ∧ j < m.ten.tens.length then f (tenOf m j) else tenOf m j :=
  modAt_getD t f m.ten.tens j {}

/-- What a change keeps of one member, it keeps of every member. -/
theorem tenOf_keeps {α : Type} (π : Ten → α) (t : Nat) (f : Ten → Ten) (m : Mach) (j : Nat) (h : ∀ x, π (f x) = π x) :
    π (tenOf (modTen t f m) j) = π (tenOf m j) := by
  rw [tenOf_modTen]
  split
  · exact h _
  · rfl

/-! ### modPort -/

@[simp] theorem modPort_tick (p : Nat) (f : Port → Port) (m : Mach) : (modPort p f m).tick = m.tick := rfl
@[simp] theorem modPort_fns (p : Nat) (f : Port → Port) (m : Mach) : (modPort p f m).fns = m.fns := rfl
@[simp] theorem modPort_reqs (p : Nat) (f : Port → Port) (m : Mach) : (modPort p f m).reqs = m.reqs := rfl
@[simp] theorem modPort_ctxs (p : Nat) (f : Port → Port) (m : Mach) : (modPort p f m).ctxs = m.ctxs := rfl
@[simp] theorem modPort_ten (p : Nat) (f : Port → Port) (m : Mach) : (modPort p f m).ten = m.ten := rfl
@[simp] theorem modPort_mem (p : Nat) (f : Port → Port) (m : Mach) : (modPort p f m).mem = m.mem := rfl
@[simp] theorem modPort_flashTick (p : Nat) (f : Port → Port) (m : Mach) : (modPort p f m).flashTick = m.flashTick := rfl
@[simp] theorem modPort_ecc (p : Nat) (f : Port → Port) (m : Mach) : (modPort p f m).ecc = m.ecc := rfl
@[simp] theorem modPort_cmp (p : Nat) (f : Port → Port) (m : Mach) : (modPort p f m).cmp = m.cmp := rfl
@[simp] theorem modPort_peas (p : Nat) (f : Port → Port) (m : Mach) : (modPort p f m).peas = m.peas := rfl
@[simp] theorem modPort_stp (p : Nat) (f : Port → Port) (m : Mach) : (modPort p f m).stp = m.stp := rfl
@[simp] theorem modPort_link (p : Nat) (f : Port → Port) (m : Mach) : (modPort p f m).link = { m.link with ports := modAt p f m.link.ports } := rfl
@[simp] theorem modPort_fab (p : Nat) (f : Port → Port) (m : Mach) : (modPort p f m).fab = m.fab := rfl
@[simp] theorem modPort_pwr (p : Nat) (f : Port → Port) (m : Mach) : (modPort p f m).pwr = m.pwr := rfl
@[simp] theorem modPort_i3c (p : Nat) (f : Port → Port) (m : Mach) : (modPort p f m).i3c = m.i3c := rfl
@[simp] theorem modPort_life (p : Nat) (f : Port → Port) (m : Mach) : (modPort p f m).life = m.life := rfl
@[simp] theorem modPort_cap (p : Nat) (f : Port → Port) (m : Mach) : (modPort p f m).cap = m.cap := rfl
@[simp] theorem modPort_host (p : Nat) (f : Port → Port) (m : Mach) : (modPort p f m).host = m.host := rfl
@[simp] theorem modPort_lat (p : Nat) (f : Port → Port) (m : Mach) : (modPort p f m).lat = m.lat := rfl
@[simp] theorem modPort_evq (p : Nat) (f : Port → Port) (m : Mach) : (modPort p f m).evq = m.evq := rfl
@[simp] theorem modPort_out (p : Nat) (f : Port → Port) (m : Mach) : (modPort p f m).out = m.out := rfl
@[simp] theorem ctxOf_modPort (p : Nat) (f : Port → Port) (m : Mach) (j : Nat) : ctxOf (modPort p f m) j = ctxOf m j := rfl
@[simp] theorem fnOf_modPort (p : Nat) (f : Port → Port) (m : Mach) (j : Nat) : fnOf (modPort p f m) j = fnOf m j := rfl
@[simp] theorem peaOf_modPort (p : Nat) (f : Port → Port) (m : Mach) (j : Nat) : peaOf (modPort p f m) j = peaOf m j := rfl
@[simp] theorem tenOf_modPort (p : Nat) (f : Port → Port) (m : Mach) (j : Nat) : tenOf (modPort p f m) j = tenOf m j := rfl

theorem portOf_modPort (p : Nat) (f : Port → Port) (m : Mach) (j : Nat) :
    portOf (modPort p f m) j = if p = j ∧ j < m.link.ports.length then f (portOf m j) else portOf m j :=
  modAt_getD p f m.link.ports j {}

/-- What a change keeps of one member, it keeps of every member. -/
theorem portOf_keeps {α : Type} (π : Port → α) (p : Nat) (f : Port → Port) (m : Mach) (j : Nat) (h : ∀ x, π (f x) = π x) :
    π (portOf (modPort p f m) j) = π (portOf m j) := by
  rw [portOf_modPort]
  split
  · exact h _
  · rfl

/-! ### modTick -/

@[simp] theorem modTick_tick (f : TickSt → TickSt) (m : Mach) : (modTick f m).tick = f m.tick := rfl
@[simp] theorem modTick_fns (f : TickSt → TickSt) (m : Mach) : (modTick f m).fns = m.fns := rfl
@[simp] theorem modTick_reqs (f : TickSt → TickSt) (m : Mach) : (modTick f m).reqs = m.reqs := rfl
@[simp] theorem modTick_ctxs (f : TickSt → TickSt) (m : Mach) : (modTick f m).ctxs = m.ctxs := rfl
@[simp] theorem modTick_ten (f : TickSt → TickSt) (m : Mach) : (modTick f m).ten = m.ten := rfl
@[simp] theorem modTick_mem (f : TickSt → TickSt) (m : Mach) : (modTick f m).mem = m.mem := rfl
@[simp] theorem modTick_flashTick (f : TickSt → TickSt) (m : Mach) : (modTick f m).flashTick = m.flashTick := rfl
@[simp] theorem modTick_ecc (f : TickSt → TickSt) (m : Mach) : (modTick f m).ecc = m.ecc := rfl
@[simp] theorem modTick_cmp (f : TickSt → TickSt) (m : Mach) : (modTick f m).cmp = m.cmp := rfl
@[simp] theorem modTick_peas (f : TickSt → TickSt) (m : Mach) : (modTick f m).peas = m.peas := rfl
@[simp] theorem modTick_stp (f : TickSt → TickSt) (m : Mach) : (modTick f m).stp = m.stp := rfl
@[simp] theorem modTick_link (f : TickSt → TickSt) (m : Mach) : (modTick f m).link = m.link := rfl
@[simp] theorem modTick_fab (f : TickSt → TickSt) (m : Mach) : (modTick f m).fab = m.fab := rfl
@[simp] theorem modTick_pwr (f : TickSt → TickSt) (m : Mach) : (modTick f m).pwr = m.pwr := rfl
@[simp] theorem modTick_i3c (f : TickSt → TickSt) (m : Mach) : (modTick f m).i3c = m.i3c := rfl
@[simp] theorem modTick_life (f : TickSt → TickSt) (m : Mach) : (modTick f m).life = m.life := rfl
@[simp] theorem modTick_cap (f : TickSt → TickSt) (m : Mach) : (modTick f m).cap = m.cap := rfl
@[simp] theorem modTick_host (f : TickSt → TickSt) (m : Mach) : (modTick f m).host = m.host := rfl
@[simp] theorem modTick_lat (f : TickSt → TickSt) (m : Mach) : (modTick f m).lat = m.lat := rfl
@[simp] theorem modTick_evq (f : TickSt → TickSt) (m : Mach) : (modTick f m).evq = m.evq := rfl
@[simp] theorem modTick_out (f : TickSt → TickSt) (m : Mach) : (modTick f m).out = m.out := rfl
@[simp] theorem ctxOf_modTick (f : TickSt → TickSt) (m : Mach) (j : Nat) : ctxOf (modTick f m) j = ctxOf m j := rfl
@[simp] theorem fnOf_modTick (f : TickSt → TickSt) (m : Mach) (j : Nat) : fnOf (modTick f m) j = fnOf m j := rfl
@[simp] theorem peaOf_modTick (f : TickSt → TickSt) (m : Mach) (j : Nat) : peaOf (modTick f m) j = peaOf m j := rfl
@[simp] theorem tenOf_modTick (f : TickSt → TickSt) (m : Mach) (j : Nat) : tenOf (modTick f m) j = tenOf m j := rfl
@[simp] theorem portOf_modTick (f : TickSt → TickSt) (m : Mach) (j : Nat) : portOf (modTick f m) j = portOf m j := rfl

/-! ### modMem -/

@[simp] theorem modMem_tick (f : MemSt → MemSt) (m : Mach) : (modMem f m).tick = m.tick := rfl
@[simp] theorem modMem_fns (f : MemSt → MemSt) (m : Mach) : (modMem f m).fns = m.fns := rfl
@[simp] theorem modMem_reqs (f : MemSt → MemSt) (m : Mach) : (modMem f m).reqs = m.reqs := rfl
@[simp] theorem modMem_ctxs (f : MemSt → MemSt) (m : Mach) : (modMem f m).ctxs = m.ctxs := rfl
@[simp] theorem modMem_ten (f : MemSt → MemSt) (m : Mach) : (modMem f m).ten = m.ten := rfl
@[simp] theorem modMem_mem (f : MemSt → MemSt) (m : Mach) : (modMem f m).mem = f m.mem := rfl
@[simp] theorem modMem_flashTick (f : MemSt → MemSt) (m : Mach) : (modMem f m).flashTick = m.flashTick := rfl
@[simp] theorem modMem_ecc (f : MemSt → MemSt) (m : Mach) : (modMem f m).ecc = m.ecc := rfl
@[simp] theorem modMem_cmp (f : MemSt → MemSt) (m : Mach) : (modMem f m).cmp = m.cmp := rfl
@[simp] theorem modMem_peas (f : MemSt → MemSt) (m : Mach) : (modMem f m).peas = m.peas := rfl
@[simp] theorem modMem_stp (f : MemSt → MemSt) (m : Mach) : (modMem f m).stp = m.stp := rfl
@[simp] theorem modMem_link (f : MemSt → MemSt) (m : Mach) : (modMem f m).link = m.link := rfl
@[simp] theorem modMem_fab (f : MemSt → MemSt) (m : Mach) : (modMem f m).fab = m.fab := rfl
@[simp] theorem modMem_pwr (f : MemSt → MemSt) (m : Mach) : (modMem f m).pwr = m.pwr := rfl
@[simp] theorem modMem_i3c (f : MemSt → MemSt) (m : Mach) : (modMem f m).i3c = m.i3c := rfl
@[simp] theorem modMem_life (f : MemSt → MemSt) (m : Mach) : (modMem f m).life = m.life := rfl
@[simp] theorem modMem_cap (f : MemSt → MemSt) (m : Mach) : (modMem f m).cap = m.cap := rfl
@[simp] theorem modMem_host (f : MemSt → MemSt) (m : Mach) : (modMem f m).host = m.host := rfl
@[simp] theorem modMem_lat (f : MemSt → MemSt) (m : Mach) : (modMem f m).lat = m.lat := rfl
@[simp] theorem modMem_evq (f : MemSt → MemSt) (m : Mach) : (modMem f m).evq = m.evq := rfl
@[simp] theorem modMem_out (f : MemSt → MemSt) (m : Mach) : (modMem f m).out = m.out := rfl
@[simp] theorem ctxOf_modMem (f : MemSt → MemSt) (m : Mach) (j : Nat) : ctxOf (modMem f m) j = ctxOf m j := rfl
@[simp] theorem fnOf_modMem (f : MemSt → MemSt) (m : Mach) (j : Nat) : fnOf (modMem f m) j = fnOf m j := rfl
@[simp] theorem peaOf_modMem (f : MemSt → MemSt) (m : Mach) (j : Nat) : peaOf (modMem f m) j = peaOf m j := rfl
@[simp] theorem tenOf_modMem (f : MemSt → MemSt) (m : Mach) (j : Nat) : tenOf (modMem f m) j = tenOf m j := rfl
@[simp] theorem portOf_modMem (f : MemSt → MemSt) (m : Mach) (j : Nat) : portOf (modMem f m) j = portOf m j := rfl

/-! ### modStp -/

@[simp] theorem modStp_tick (f : StepSt → StepSt) (m : Mach) : (modStp f m).tick = m.tick := rfl
@[simp] theorem modStp_fns (f : StepSt → StepSt) (m : Mach) : (modStp f m).fns = m.fns := rfl
@[simp] theorem modStp_reqs (f : StepSt → StepSt) (m : Mach) : (modStp f m).reqs = m.reqs := rfl
@[simp] theorem modStp_ctxs (f : StepSt → StepSt) (m : Mach) : (modStp f m).ctxs = m.ctxs := rfl
@[simp] theorem modStp_ten (f : StepSt → StepSt) (m : Mach) : (modStp f m).ten = m.ten := rfl
@[simp] theorem modStp_mem (f : StepSt → StepSt) (m : Mach) : (modStp f m).mem = m.mem := rfl
@[simp] theorem modStp_flashTick (f : StepSt → StepSt) (m : Mach) : (modStp f m).flashTick = m.flashTick := rfl
@[simp] theorem modStp_ecc (f : StepSt → StepSt) (m : Mach) : (modStp f m).ecc = m.ecc := rfl
@[simp] theorem modStp_cmp (f : StepSt → StepSt) (m : Mach) : (modStp f m).cmp = m.cmp := rfl
@[simp] theorem modStp_peas (f : StepSt → StepSt) (m : Mach) : (modStp f m).peas = m.peas := rfl
@[simp] theorem modStp_stp (f : StepSt → StepSt) (m : Mach) : (modStp f m).stp = f m.stp := rfl
@[simp] theorem modStp_link (f : StepSt → StepSt) (m : Mach) : (modStp f m).link = m.link := rfl
@[simp] theorem modStp_fab (f : StepSt → StepSt) (m : Mach) : (modStp f m).fab = m.fab := rfl
@[simp] theorem modStp_pwr (f : StepSt → StepSt) (m : Mach) : (modStp f m).pwr = m.pwr := rfl
@[simp] theorem modStp_i3c (f : StepSt → StepSt) (m : Mach) : (modStp f m).i3c = m.i3c := rfl
@[simp] theorem modStp_life (f : StepSt → StepSt) (m : Mach) : (modStp f m).life = m.life := rfl
@[simp] theorem modStp_cap (f : StepSt → StepSt) (m : Mach) : (modStp f m).cap = m.cap := rfl
@[simp] theorem modStp_host (f : StepSt → StepSt) (m : Mach) : (modStp f m).host = m.host := rfl
@[simp] theorem modStp_lat (f : StepSt → StepSt) (m : Mach) : (modStp f m).lat = m.lat := rfl
@[simp] theorem modStp_evq (f : StepSt → StepSt) (m : Mach) : (modStp f m).evq = m.evq := rfl
@[simp] theorem modStp_out (f : StepSt → StepSt) (m : Mach) : (modStp f m).out = m.out := rfl
@[simp] theorem ctxOf_modStp (f : StepSt → StepSt) (m : Mach) (j : Nat) : ctxOf (modStp f m) j = ctxOf m j := rfl
@[simp] theorem fnOf_modStp (f : StepSt → StepSt) (m : Mach) (j : Nat) : fnOf (modStp f m) j = fnOf m j := rfl
@[simp] theorem peaOf_modStp (f : StepSt → StepSt) (m : Mach) (j : Nat) : peaOf (modStp f m) j = peaOf m j := rfl
@[simp] theorem tenOf_modStp (f : StepSt → StepSt) (m : Mach) (j : Nat) : tenOf (modStp f m) j = tenOf m j := rfl
@[simp] theorem portOf_modStp (f : StepSt → StepSt) (m : Mach) (j : Nat) : portOf (modStp f m) j = portOf m j := rfl

/-! ### modFab -/

@[simp] theorem modFab_tick (f : FabSt → FabSt) (m : Mach) : (modFab f m).tick = m.tick := rfl
@[simp] theorem modFab_fns (f : FabSt → FabSt) (m : Mach) : (modFab f m).fns = m.fns := rfl
@[simp] theorem modFab_reqs (f : FabSt → FabSt) (m : Mach) : (modFab f m).reqs = m.reqs := rfl
@[simp] theorem modFab_ctxs (f : FabSt → FabSt) (m : Mach) : (modFab f m).ctxs = m.ctxs := rfl
@[simp] theorem modFab_ten (f : FabSt → FabSt) (m : Mach) : (modFab f m).ten = m.ten := rfl
@[simp] theorem modFab_mem (f : FabSt → FabSt) (m : Mach) : (modFab f m).mem = m.mem := rfl
@[simp] theorem modFab_flashTick (f : FabSt → FabSt) (m : Mach) : (modFab f m).flashTick = m.flashTick := rfl
@[simp] theorem modFab_ecc (f : FabSt → FabSt) (m : Mach) : (modFab f m).ecc = m.ecc := rfl
@[simp] theorem modFab_cmp (f : FabSt → FabSt) (m : Mach) : (modFab f m).cmp = m.cmp := rfl
@[simp] theorem modFab_peas (f : FabSt → FabSt) (m : Mach) : (modFab f m).peas = m.peas := rfl
@[simp] theorem modFab_stp (f : FabSt → FabSt) (m : Mach) : (modFab f m).stp = m.stp := rfl
@[simp] theorem modFab_link (f : FabSt → FabSt) (m : Mach) : (modFab f m).link = m.link := rfl
@[simp] theorem modFab_fab (f : FabSt → FabSt) (m : Mach) : (modFab f m).fab = f m.fab := rfl
@[simp] theorem modFab_pwr (f : FabSt → FabSt) (m : Mach) : (modFab f m).pwr = m.pwr := rfl
@[simp] theorem modFab_i3c (f : FabSt → FabSt) (m : Mach) : (modFab f m).i3c = m.i3c := rfl
@[simp] theorem modFab_life (f : FabSt → FabSt) (m : Mach) : (modFab f m).life = m.life := rfl
@[simp] theorem modFab_cap (f : FabSt → FabSt) (m : Mach) : (modFab f m).cap = m.cap := rfl
@[simp] theorem modFab_host (f : FabSt → FabSt) (m : Mach) : (modFab f m).host = m.host := rfl
@[simp] theorem modFab_lat (f : FabSt → FabSt) (m : Mach) : (modFab f m).lat = m.lat := rfl
@[simp] theorem modFab_evq (f : FabSt → FabSt) (m : Mach) : (modFab f m).evq = m.evq := rfl
@[simp] theorem modFab_out (f : FabSt → FabSt) (m : Mach) : (modFab f m).out = m.out := rfl
@[simp] theorem ctxOf_modFab (f : FabSt → FabSt) (m : Mach) (j : Nat) : ctxOf (modFab f m) j = ctxOf m j := rfl
@[simp] theorem fnOf_modFab (f : FabSt → FabSt) (m : Mach) (j : Nat) : fnOf (modFab f m) j = fnOf m j := rfl
@[simp] theorem peaOf_modFab (f : FabSt → FabSt) (m : Mach) (j : Nat) : peaOf (modFab f m) j = peaOf m j := rfl
@[simp] theorem tenOf_modFab (f : FabSt → FabSt) (m : Mach) (j : Nat) : tenOf (modFab f m) j = tenOf m j := rfl
@[simp] theorem portOf_modFab (f : FabSt → FabSt) (m : Mach) (j : Nat) : portOf (modFab f m) j = portOf m j := rfl

/-! ### modPwr -/

@[simp] theorem modPwr_tick (f : PwrSt → PwrSt) (m : Mach) : (modPwr f m).tick = m.tick := rfl
@[simp] theorem modPwr_fns (f : PwrSt → PwrSt) (m : Mach) : (modPwr f m).fns = m.fns := rfl
@[simp] theorem modPwr_reqs (f : PwrSt → PwrSt) (m : Mach) : (modPwr f m).reqs = m.reqs := rfl
@[simp] theorem modPwr_ctxs (f : PwrSt → PwrSt) (m : Mach) : (modPwr f m).ctxs = m.ctxs := rfl
@[simp] theorem modPwr_ten (f : PwrSt → PwrSt) (m : Mach) : (modPwr f m).ten = m.ten := rfl
@[simp] theorem modPwr_mem (f : PwrSt → PwrSt) (m : Mach) : (modPwr f m).mem = m.mem := rfl
@[simp] theorem modPwr_flashTick (f : PwrSt → PwrSt) (m : Mach) : (modPwr f m).flashTick = m.flashTick := rfl
@[simp] theorem modPwr_ecc (f : PwrSt → PwrSt) (m : Mach) : (modPwr f m).ecc = m.ecc := rfl
@[simp] theorem modPwr_cmp (f : PwrSt → PwrSt) (m : Mach) : (modPwr f m).cmp = m.cmp := rfl
@[simp] theorem modPwr_peas (f : PwrSt → PwrSt) (m : Mach) : (modPwr f m).peas = m.peas := rfl
@[simp] theorem modPwr_stp (f : PwrSt → PwrSt) (m : Mach) : (modPwr f m).stp = m.stp := rfl
@[simp] theorem modPwr_link (f : PwrSt → PwrSt) (m : Mach) : (modPwr f m).link = m.link := rfl
@[simp] theorem modPwr_fab (f : PwrSt → PwrSt) (m : Mach) : (modPwr f m).fab = m.fab := rfl
@[simp] theorem modPwr_pwr (f : PwrSt → PwrSt) (m : Mach) : (modPwr f m).pwr = f m.pwr := rfl
@[simp] theorem modPwr_i3c (f : PwrSt → PwrSt) (m : Mach) : (modPwr f m).i3c = m.i3c := rfl
@[simp] theorem modPwr_life (f : PwrSt → PwrSt) (m : Mach) : (modPwr f m).life = m.life := rfl
@[simp] theorem modPwr_cap (f : PwrSt → PwrSt) (m : Mach) : (modPwr f m).cap = m.cap := rfl
@[simp] theorem modPwr_host (f : PwrSt → PwrSt) (m : Mach) : (modPwr f m).host = m.host := rfl
@[simp] theorem modPwr_lat (f : PwrSt → PwrSt) (m : Mach) : (modPwr f m).lat = m.lat := rfl
@[simp] theorem modPwr_evq (f : PwrSt → PwrSt) (m : Mach) : (modPwr f m).evq = m.evq := rfl
@[simp] theorem modPwr_out (f : PwrSt → PwrSt) (m : Mach) : (modPwr f m).out = m.out := rfl
@[simp] theorem ctxOf_modPwr (f : PwrSt → PwrSt) (m : Mach) (j : Nat) : ctxOf (modPwr f m) j = ctxOf m j := rfl
@[simp] theorem fnOf_modPwr (f : PwrSt → PwrSt) (m : Mach) (j : Nat) : fnOf (modPwr f m) j = fnOf m j := rfl
@[simp] theorem peaOf_modPwr (f : PwrSt → PwrSt) (m : Mach) (j : Nat) : peaOf (modPwr f m) j = peaOf m j := rfl
@[simp] theorem tenOf_modPwr (f : PwrSt → PwrSt) (m : Mach) (j : Nat) : tenOf (modPwr f m) j = tenOf m j := rfl
@[simp] theorem portOf_modPwr (f : PwrSt → PwrSt) (m : Mach) (j : Nat) : portOf (modPwr f m) j = portOf m j := rfl

/-! ### modLife -/

@[simp] theorem modLife_tick (f : LifeSt → LifeSt) (m : Mach) : (modLife f m).tick = m.tick := rfl
@[simp] theorem modLife_fns (f : LifeSt → LifeSt) (m : Mach) : (modLife f m).fns = m.fns := rfl
@[simp] theorem modLife_reqs (f : LifeSt → LifeSt) (m : Mach) : (modLife f m).reqs = m.reqs := rfl
@[simp] theorem modLife_ctxs (f : LifeSt → LifeSt) (m : Mach) : (modLife f m).ctxs = m.ctxs := rfl
@[simp] theorem modLife_ten (f : LifeSt → LifeSt) (m : Mach) : (modLife f m).ten = m.ten := rfl
@[simp] theorem modLife_mem (f : LifeSt → LifeSt) (m : Mach) : (modLife f m).mem = m.mem := rfl
@[simp] theorem modLife_flashTick (f : LifeSt → LifeSt) (m : Mach) : (modLife f m).flashTick = m.flashTick := rfl
@[simp] theorem modLife_ecc (f : LifeSt → LifeSt) (m : Mach) : (modLife f m).ecc = m.ecc := rfl
@[simp] theorem modLife_cmp (f : LifeSt → LifeSt) (m : Mach) : (modLife f m).cmp = m.cmp := rfl
@[simp] theorem modLife_peas (f : LifeSt → LifeSt) (m : Mach) : (modLife f m).peas = m.peas := rfl
@[simp] theorem modLife_stp (f : LifeSt → LifeSt) (m : Mach) : (modLife f m).stp = m.stp := rfl
@[simp] theorem modLife_link (f : LifeSt → LifeSt) (m : Mach) : (modLife f m).link = m.link := rfl
@[simp] theorem modLife_fab (f : LifeSt → LifeSt) (m : Mach) : (modLife f m).fab = m.fab := rfl
@[simp] theorem modLife_pwr (f : LifeSt → LifeSt) (m : Mach) : (modLife f m).pwr = m.pwr := rfl
@[simp] theorem modLife_i3c (f : LifeSt → LifeSt) (m : Mach) : (modLife f m).i3c = m.i3c := rfl
@[simp] theorem modLife_life (f : LifeSt → LifeSt) (m : Mach) : (modLife f m).life = f m.life := rfl
@[simp] theorem modLife_cap (f : LifeSt → LifeSt) (m : Mach) : (modLife f m).cap = m.cap := rfl
@[simp] theorem modLife_host (f : LifeSt → LifeSt) (m : Mach) : (modLife f m).host = m.host := rfl
@[simp] theorem modLife_lat (f : LifeSt → LifeSt) (m : Mach) : (modLife f m).lat = m.lat := rfl
@[simp] theorem modLife_evq (f : LifeSt → LifeSt) (m : Mach) : (modLife f m).evq = m.evq := rfl
@[simp] theorem modLife_out (f : LifeSt → LifeSt) (m : Mach) : (modLife f m).out = m.out := rfl
@[simp] theorem ctxOf_modLife (f : LifeSt → LifeSt) (m : Mach) (j : Nat) : ctxOf (modLife f m) j = ctxOf m j := rfl
@[simp] theorem fnOf_modLife (f : LifeSt → LifeSt) (m : Mach) (j : Nat) : fnOf (modLife f m) j = fnOf m j := rfl
@[simp] theorem peaOf_modLife (f : LifeSt → LifeSt) (m : Mach) (j : Nat) : peaOf (modLife f m) j = peaOf m j := rfl
@[simp] theorem tenOf_modLife (f : LifeSt → LifeSt) (m : Mach) (j : Nat) : tenOf (modLife f m) j = tenOf m j := rfl
@[simp] theorem portOf_modLife (f : LifeSt → LifeSt) (m : Mach) (j : Nat) : portOf (modLife f m) j = portOf m j := rfl

/-! ### modLat -/

@[simp] theorem modLat_tick (f : Latched → Latched) (m : Mach) : (modLat f m).tick = m.tick := rfl
@[simp] theorem modLat_fns (f : Latched → Latched) (m : Mach) : (modLat f m).fns = m.fns := rfl
@[simp] theorem modLat_reqs (f : Latched → Latched) (m : Mach) : (modLat f m).reqs = m.reqs := rfl
@[simp] theorem modLat_ctxs (f : Latched → Latched) (m : Mach) : (modLat f m).ctxs = m.ctxs := rfl
@[simp] theorem modLat_ten (f : Latched → Latched) (m : Mach) : (modLat f m).ten = m.ten := rfl
@[simp] theorem modLat_mem (f : Latched → Latched) (m : Mach) : (modLat f m).mem = m.mem := rfl
@[simp] theorem modLat_flashTick (f : Latched → Latched) (m : Mach) : (modLat f m).flashTick = m.flashTick := rfl
@[simp] theorem modLat_ecc (f : Latched → Latched) (m : Mach) : (modLat f m).ecc = m.ecc := rfl
@[simp] theorem modLat_cmp (f : Latched → Latched) (m : Mach) : (modLat f m).cmp = m.cmp := rfl
@[simp] theorem modLat_peas (f : Latched → Latched) (m : Mach) : (modLat f m).peas = m.peas := rfl
@[simp] theorem modLat_stp (f : Latched → Latched) (m : Mach) : (modLat f m).stp = m.stp := rfl
@[simp] theorem modLat_link (f : Latched → Latched) (m : Mach) : (modLat f m).link = m.link := rfl
@[simp] theorem modLat_fab (f : Latched → Latched) (m : Mach) : (modLat f m).fab = m.fab := rfl
@[simp] theorem modLat_pwr (f : Latched → Latched) (m : Mach) : (modLat f m).pwr = m.pwr := rfl
@[simp] theorem modLat_i3c (f : Latched → Latched) (m : Mach) : (modLat f m).i3c = m.i3c := rfl
@[simp] theorem modLat_life (f : Latched → Latched) (m : Mach) : (modLat f m).life = m.life := rfl
@[simp] theorem modLat_cap (f : Latched → Latched) (m : Mach) : (modLat f m).cap = m.cap := rfl
@[simp] theorem modLat_host (f : Latched → Latched) (m : Mach) : (modLat f m).host = m.host := rfl
@[simp] theorem modLat_lat (f : Latched → Latched) (m : Mach) : (modLat f m).lat = f m.lat := rfl
@[simp] theorem modLat_evq (f : Latched → Latched) (m : Mach) : (modLat f m).evq = m.evq := rfl
@[simp] theorem modLat_out (f : Latched → Latched) (m : Mach) : (modLat f m).out = m.out := rfl
@[simp] theorem ctxOf_modLat (f : Latched → Latched) (m : Mach) (j : Nat) : ctxOf (modLat f m) j = ctxOf m j := rfl
@[simp] theorem fnOf_modLat (f : Latched → Latched) (m : Mach) (j : Nat) : fnOf (modLat f m) j = fnOf m j := rfl
@[simp] theorem peaOf_modLat (f : Latched → Latched) (m : Mach) (j : Nat) : peaOf (modLat f m) j = peaOf m j := rfl
@[simp] theorem tenOf_modLat (f : Latched → Latched) (m : Mach) (j : Nat) : tenOf (modLat f m) j = tenOf m j := rfl
@[simp] theorem portOf_modLat (f : Latched → Latched) (m : Mach) (j : Nat) : portOf (modLat f m) j = portOf m j := rfl

/-! ### modEcc -/

@[simp] theorem modEcc_tick (f : EccSt → EccSt) (m : Mach) : (modEcc f m).tick = m.tick := rfl
@[simp] theorem modEcc_fns (f : EccSt → EccSt) (m : Mach) : (modEcc f m).fns = m.fns := rfl
@[simp] theorem modEcc_reqs (f : EccSt → EccSt) (m : Mach) : (modEcc f m).reqs = m.reqs := rfl
@[simp] theorem modEcc_ctxs (f : EccSt → EccSt) (m : Mach) : (modEcc f m).ctxs = m.ctxs := rfl
@[simp] theorem modEcc_ten (f : EccSt → EccSt) (m : Mach) : (modEcc f m).ten = m.ten := rfl
@[simp] theorem modEcc_mem (f : EccSt → EccSt) (m : Mach) : (modEcc f m).mem = m.mem := rfl
@[simp] theorem modEcc_flashTick (f : EccSt → EccSt) (m : Mach) : (modEcc f m).flashTick = m.flashTick := rfl
@[simp] theorem modEcc_ecc (f : EccSt → EccSt) (m : Mach) : (modEcc f m).ecc = f m.ecc := rfl
@[simp] theorem modEcc_cmp (f : EccSt → EccSt) (m : Mach) : (modEcc f m).cmp = m.cmp := rfl
@[simp] theorem modEcc_peas (f : EccSt → EccSt) (m : Mach) : (modEcc f m).peas = m.peas := rfl
@[simp] theorem modEcc_stp (f : EccSt → EccSt) (m : Mach) : (modEcc f m).stp = m.stp := rfl
@[simp] theorem modEcc_link (f : EccSt → EccSt) (m : Mach) : (modEcc f m).link = m.link := rfl
@[simp] theorem modEcc_fab (f : EccSt → EccSt) (m : Mach) : (modEcc f m).fab = m.fab := rfl
@[simp] theorem modEcc_pwr (f : EccSt → EccSt) (m : Mach) : (modEcc f m).pwr = m.pwr := rfl
@[simp] theorem modEcc_i3c (f : EccSt → EccSt) (m : Mach) : (modEcc f m).i3c = m.i3c := rfl
@[simp] theorem modEcc_life (f : EccSt → EccSt) (m : Mach) : (modEcc f m).life = m.life := rfl
@[simp] theorem modEcc_cap (f : EccSt → EccSt) (m : Mach) : (modEcc f m).cap = m.cap := rfl
@[simp] theorem modEcc_host (f : EccSt → EccSt) (m : Mach) : (modEcc f m).host = m.host := rfl
@[simp] theorem modEcc_lat (f : EccSt → EccSt) (m : Mach) : (modEcc f m).lat = m.lat := rfl
@[simp] theorem modEcc_evq (f : EccSt → EccSt) (m : Mach) : (modEcc f m).evq = m.evq := rfl
@[simp] theorem modEcc_out (f : EccSt → EccSt) (m : Mach) : (modEcc f m).out = m.out := rfl
@[simp] theorem ctxOf_modEcc (f : EccSt → EccSt) (m : Mach) (j : Nat) : ctxOf (modEcc f m) j = ctxOf m j := rfl
@[simp] theorem fnOf_modEcc (f : EccSt → EccSt) (m : Mach) (j : Nat) : fnOf (modEcc f m) j = fnOf m j := rfl
@[simp] theorem peaOf_modEcc (f : EccSt → EccSt) (m : Mach) (j : Nat) : peaOf (modEcc f m) j = peaOf m j := rfl
@[simp] theorem tenOf_modEcc (f : EccSt → EccSt) (m : Mach) (j : Nat) : tenOf (modEcc f m) j = tenOf m j := rfl
@[simp] theorem portOf_modEcc (f : EccSt → EccSt) (m : Mach) (j : Nat) : portOf (modEcc f m) j = portOf m j := rfl

/-! ### modHost -/

@[simp] theorem modHost_tick (f : HostSt → HostSt) (m : Mach) : (modHost f m).tick = m.tick := rfl
@[simp] theorem modHost_fns (f : HostSt → HostSt) (m : Mach) : (modHost f m).fns = m.fns := rfl
@[simp] theorem modHost_reqs (f : HostSt → HostSt) (m : Mach) : (modHost f m).reqs = m.reqs := rfl
@[simp] theorem modHost_ctxs (f : HostSt → HostSt) (m : Mach) : (modHost f m).ctxs = m.ctxs := rfl
@[simp] theorem modHost_ten (f : HostSt → HostSt) (m : Mach) : (modHost f m).ten = m.ten := rfl
@[simp] theorem modHost_mem (f : HostSt → HostSt) (m : Mach) : (modHost f m).mem = m.mem := rfl
@[simp] theorem modHost_flashTick (f : HostSt → HostSt) (m : Mach) : (modHost f m).flashTick = m.flashTick := rfl
@[simp] theorem modHost_ecc (f : HostSt → HostSt) (m : Mach) : (modHost f m).ecc = m.ecc := rfl
@[simp] theorem modHost_cmp (f : HostSt → HostSt) (m : Mach) : (modHost f m).cmp = m.cmp := rfl
@[simp] theorem modHost_peas (f : HostSt → HostSt) (m : Mach) : (modHost f m).peas = m.peas := rfl
@[simp] theorem modHost_stp (f : HostSt → HostSt) (m : Mach) : (modHost f m).stp = m.stp := rfl
@[simp] theorem modHost_link (f : HostSt → HostSt) (m : Mach) : (modHost f m).link = m.link := rfl
@[simp] theorem modHost_fab (f : HostSt → HostSt) (m : Mach) : (modHost f m).fab = m.fab := rfl
@[simp] theorem modHost_pwr (f : HostSt → HostSt) (m : Mach) : (modHost f m).pwr = m.pwr := rfl
@[simp] theorem modHost_i3c (f : HostSt → HostSt) (m : Mach) : (modHost f m).i3c = m.i3c := rfl
@[simp] theorem modHost_life (f : HostSt → HostSt) (m : Mach) : (modHost f m).life = m.life := rfl
@[simp] theorem modHost_cap (f : HostSt → HostSt) (m : Mach) : (modHost f m).cap = m.cap := rfl
@[simp] theorem modHost_host (f : HostSt → HostSt) (m : Mach) : (modHost f m).host = f m.host := rfl
@[simp] theorem modHost_lat (f : HostSt → HostSt) (m : Mach) : (modHost f m).lat = m.lat := rfl
@[simp] theorem modHost_evq (f : HostSt → HostSt) (m : Mach) : (modHost f m).evq = m.evq := rfl
@[simp] theorem modHost_out (f : HostSt → HostSt) (m : Mach) : (modHost f m).out = m.out := rfl
@[simp] theorem ctxOf_modHost (f : HostSt → HostSt) (m : Mach) (j : Nat) : ctxOf (modHost f m) j = ctxOf m j := rfl
@[simp] theorem fnOf_modHost (f : HostSt → HostSt) (m : Mach) (j : Nat) : fnOf (modHost f m) j = fnOf m j := rfl
@[simp] theorem peaOf_modHost (f : HostSt → HostSt) (m : Mach) (j : Nat) : peaOf (modHost f m) j = peaOf m j := rfl
@[simp] theorem tenOf_modHost (f : HostSt → HostSt) (m : Mach) (j : Nat) : tenOf (modHost f m) j = tenOf m j := rfl
@[simp] theorem portOf_modHost (f : HostSt → HostSt) (m : Mach) (j : Nat) : portOf (modHost f m) j = portOf m j := rfl

/-! ### modI3c -/

@[simp] theorem modI3c_tick (f : I3cSt → I3cSt) (m : Mach) : (modI3c f m).tick = m.tick := rfl
@[simp] theorem modI3c_fns (f : I3cSt → I3cSt) (m : Mach) : (modI3c f m).fns = m.fns := rfl
@[simp] theorem modI3c_reqs (f : I3cSt → I3cSt) (m : Mach) : (modI3c f m).reqs = m.reqs := rfl
@[simp] theorem modI3c_ctxs (f : I3cSt → I3cSt) (m : Mach) : (modI3c f m).ctxs = m.ctxs := rfl
@[simp] theorem modI3c_ten (f : I3cSt → I3cSt) (m : Mach) : (modI3c f m).ten = m.ten := rfl
@[simp] theorem modI3c_mem (f : I3cSt → I3cSt) (m : Mach) : (modI3c f m).mem = m.mem := rfl
@[simp] theorem modI3c_flashTick (f : I3cSt → I3cSt) (m : Mach) : (modI3c f m).flashTick = m.flashTick := rfl
@[simp] theorem modI3c_ecc (f : I3cSt → I3cSt) (m : Mach) : (modI3c f m).ecc = m.ecc := rfl
@[simp] theorem modI3c_cmp (f : I3cSt → I3cSt) (m : Mach) : (modI3c f m).cmp = m.cmp := rfl
@[simp] theorem modI3c_peas (f : I3cSt → I3cSt) (m : Mach) : (modI3c f m).peas = m.peas := rfl
@[simp] theorem modI3c_stp (f : I3cSt → I3cSt) (m : Mach) : (modI3c f m).stp = m.stp := rfl
@[simp] theorem modI3c_link (f : I3cSt → I3cSt) (m : Mach) : (modI3c f m).link = m.link := rfl
@[simp] theorem modI3c_fab (f : I3cSt → I3cSt) (m : Mach) : (modI3c f m).fab = m.fab := rfl
@[simp] theorem modI3c_pwr (f : I3cSt → I3cSt) (m : Mach) : (modI3c f m).pwr = m.pwr := rfl
@[simp] theorem modI3c_i3c (f : I3cSt → I3cSt) (m : Mach) : (modI3c f m).i3c = f m.i3c := rfl
@[simp] theorem modI3c_life (f : I3cSt → I3cSt) (m : Mach) : (modI3c f m).life = m.life := rfl
@[simp] theorem modI3c_cap (f : I3cSt → I3cSt) (m : Mach) : (modI3c f m).cap = m.cap := rfl
@[simp] theorem modI3c_host (f : I3cSt → I3cSt) (m : Mach) : (modI3c f m).host = m.host := rfl
@[simp] theorem modI3c_lat (f : I3cSt → I3cSt) (m : Mach) : (modI3c f m).lat = m.lat := rfl
@[simp] theorem modI3c_evq (f : I3cSt → I3cSt) (m : Mach) : (modI3c f m).evq = m.evq := rfl
@[simp] theorem modI3c_out (f : I3cSt → I3cSt) (m : Mach) : (modI3c f m).out = m.out := rfl
@[simp] theorem ctxOf_modI3c (f : I3cSt → I3cSt) (m : Mach) (j : Nat) : ctxOf (modI3c f m) j = ctxOf m j := rfl
@[simp] theorem fnOf_modI3c (f : I3cSt → I3cSt) (m : Mach) (j : Nat) : fnOf (modI3c f m) j = fnOf m j := rfl
@[simp] theorem peaOf_modI3c (f : I3cSt → I3cSt) (m : Mach) (j : Nat) : peaOf (modI3c f m) j = peaOf m j := rfl
@[simp] theorem tenOf_modI3c (f : I3cSt → I3cSt) (m : Mach) (j : Nat) : tenOf (modI3c f m) j = tenOf m j := rfl
@[simp] theorem portOf_modI3c (f : I3cSt → I3cSt) (m : Mach) (j : Nat) : portOf (modI3c f m) j = portOf m j := rfl

end Sys2Proof.Machine
end

