-- ==== Sys2Proof/Laws/Act.lean ====
section
/-! SUPPORT. What the shared operations of replies, records and packets do: they write to the host and change nothing
else, and a packet that is acted on has the effect of its meaning. -/

namespace Sys2Proof.Machine

/-! ### Parts that writing does not touch -/

theorem map_modAt {α β : Type} (i : Nat) (f : α → α) (g : α → β) (l : List α) (h : ∀ x, g (f x) = g x) :
    (modAt i f l).map g = l.map g := by
  apply List.ext_getElem?
  intro j
  simp only [List.getElem?_map, modAt_getElem?]
  split
  · cases l[j]? <;> simp [h]
  · rfl

theorem quiet_modFn (c : Nat) (f : Fn → Fn) (m : Mach) (h : ∀ x, quietFn (f x) = quietFn x) : quiet (modFn c f m) = quiet m := by
  simp [quiet, modFn, map_modAt c f quietFn m.fns h]

theorem quiet_modCtx (c : Nat) (f : Ctx → Ctx) (m : Mach) (h : ∀ x, quietCtx (f x) = quietCtx x) :
    quiet (modCtx c f m) = quiet m := by
  simp [quiet, modCtx, map_modAt c f quietCtx m.ctxs h]

theorem quiet_modPort (p : Nat) (f : Port → Port) (m : Mach) (h : ∀ x, quietPort (f x) = quietPort x) :
    quiet (modPort p f m) = quiet m := by
  simp [quiet, modPort, map_modAt p f quietPort m.link.ports h]

theorem quiet_forEach {α : Type} (l : List α) (f : α → Mach → Mach) (h : ∀ a m, quiet (f a m) = quiet m) (m : Mach) :
    quiet (forEach l f m) = quiet m := by
  induction l generalizing m with
  | nil => rfl
  | cons a l ih => exact (ih (f a m)).trans (h a m)

theorem quiet_onlyIf (b : Bool) (f : Mach → Mach) (h : ∀ m, quiet (f m) = quiet m) (m : Mach) : quiet (onlyIf b f m) = quiet m := by
  cases b
  · rfl
  · exact h m

/-! ### Sending and recording -/

@[simp] theorem quiet_send (o : Out) (m : Mach) : quiet (send o m) = quiet m := by
  simp only [send]
  split
  · rfl
  · split <;> rfl

/-- Where nothing holds it back, what is sent goes out last. -/
theorem send_out (o : Out) (m : Mach) (h : m.host.stopped = false) (r : m.life.replay = false) :
    send o m = { m with out := m.out ++ [o] } := by
  simp [send, h, r]

@[simp] theorem quiet_trigger (typ : Nat) (body : List Byte) (m : Mach) : quiet (trigger typ body m) = quiet m := by
  simp only [trigger]
  split
  · split <;> rfl
  · rfl

@[simp] theorem quiet_emit (c typ ctx : Nat) (body : List Byte) (m : Mach) : quiet (emit c typ ctx body m) = quiet m := by
  have h := quiet_trigger typ body m
  simp only [emit]
  rw [← h]
  rfl

@[simp] theorem quiet_emitAll (typ ctx : Nat) (body : List Byte) (m : Mach) : quiet (emitAll typ ctx body m) = quiet m := by
  simp only [emitAll]
  rw [quiet_forEach _ _ fun _ _ => quiet_emit .., quiet_trigger]

@[simp] theorem quiet_setEvt (c b : Nat) (m : Mach) : quiet (setEvt c b m) = quiet m :=
  quiet_modFn _ _ _ fun x => by
    split
    · rfl
    · rfl

@[simp] theorem quiet_putRecord (c typ ctx tick : Nat) (body : List Byte) (m : Mach) :
    quiet (putRecord c typ ctx tick body m) = quiet m := by
  simp only [putRecord, quiet_setEvt]
  rw [quiet_modFn, quiet_send]
  exact fun _ => rfl

@[simp] theorem quiet_loseRecord (c tick : Nat) (m : Mach) : quiet (loseRecord c tick m) = quiet m := by
  simp only [loseRecord, quiet_setEvt]
  rw [quiet_modCtx, quiet_modFn]
  · exact fun _ => rfl
  · intro x
    split <;> rfl

@[simp] theorem quiet_countDropped (m : Mach) : quiet (countDropped m) = quiet m := rfl

@[simp] theorem quiet_countFlag (typ : Nat) (m : Mach) : quiet (countFlag typ m) = quiet m := by
  simp only [countFlag]
  split <;> rfl

@[simp] theorem countFlag_out (typ : Nat) (m : Mach) : (countFlag typ m).out = m.out := by
  simp only [countFlag]
  split <;> rfl

@[simp] theorem quiet_writeRecord (e : EvRec) (m : Mach) : quiet (writeRecord e m) = quiet m := by
  simp only [writeRecord]
  split
  · rw [quiet_countFlag, quiet_putRecord]
  · exact quiet_loseRecord ..

@[simp] theorem quiet_lostRecord (c : Nat) (m : Mach) : quiet (lostRecord c m) = quiet m := by
  simp only [lostRecord]
  split
  · rw [quiet_modFn, quiet_putRecord]
    exact fun _ => rfl
  · rfl

@[simp] theorem quiet_signal (c : Nat) (m : Mach) : quiet (signal c m) = quiet m := by
  simp only [signal, sendIrq]
  split
  · exact quiet_modFn _ _ _ fun _ => rfl
  · exact quiet_send ..

@[simp] theorem quiet_signalIfWanted (c : Nat) (m : Mach) : quiet (signalIfWanted c m) = quiet m := by
  simp only [signalIfWanted]
  split
  · rw [quiet_signal, quiet_modFn]
    exact fun _ => rfl
  · rfl

@[simp] theorem quiet_flushEvents (m : Mach) : quiet (flushEvents m) = quiet m := by
  simp only [flushEvents]
  rw [quiet_forEach _ _ fun _ _ => quiet_signalIfWanted .., quiet_forEach _ _ fun _ _ => quiet_writeRecord ..,
    quiet_onlyIf _ _ fun _ => quiet_forEach _ _ (fun _ _ => quiet_lostRecord ..) _]
  rfl

@[simp] theorem quiet_captureEvent (cause tick : Nat) (m : Mach) : quiet (captureEvent cause tick m) = quiet m := quiet_emit ..

@[simp] theorem quiet_actTrigger (m : Mach) : quiet (actTrigger m) = quiet m := by
  simp only [actTrigger]
  split
  · rw [quiet_captureEvent]
    rfl
  · rfl

@[simp] theorem quiet_ignoredSummary (c : Nat) (m : Mach) : quiet (ignoredSummary c m) = quiet m := by
  simp only [ignoredSummary]
  split
  · rfl
  · rw [quiet_modFn, quiet_emit]
    exact fun _ => rfl

@[simp] theorem quiet_genDiscard (c : Nat) (m : Mach) : quiet (genDiscard c m) = quiet m := by
  have h : ∀ b, quiet (modCtx c (fun x => { x with genDropTick := [] }) (onlyIf b countDropped m)) = quiet m := by
    intro b
    rw [quiet_modCtx, quiet_onlyIf] <;> exact fun _ => rfl
  simp only [genDiscard]
  split
  · rfl
  · split
    · exact h _
    · rw [quiet_emit, quiet_modCtx, h]
      exact fun _ => rfl

@[simp] theorem quiet_portEvents (p : Nat) (m : Mach) : quiet (portEvents p m) = quiet m := by
  simp only [portEvents]
  rw [quiet_modPort, quiet_forEach _ _ fun _ _ => quiet_emit ..]
  · split
    · exact quiet_emit ..
    · rfl
  · exact fun _ => rfl

@[simp] theorem quiet_powerEvents (m : Mach) : quiet (powerEvents m) = quiet m := by
  have h : ∀ x : Mach, quiet (modPwr (fun x => { x with powerCause := 0, thermalCause := 0 }) x) = quiet x := fun _ => rfl
  simp only [powerEvents]
  rw [h, quiet_onlyIf _ _ fun _ => quiet_emit .., quiet_onlyIf _ _ fun _ => quiet_emit ..]

@[simp] theorem quiet_missingEvent (c : Nat) (m : Mach) : quiet (missingEvent c m) = quiet m := by
  simp only [missingEvent]
  split
  · rfl
  · exact quiet_emit ..

/-- What is written at the end of a boundary changes nothing else. -/
@[simp] theorem quiet_endWrites (m : Mach) : quiet (endWrites m) = quiet m := by
  simp only [endWrites]
  rw [quiet_flushEvents, quiet_actTrigger, quiet_powerEvents, quiet_forEach _ _ fun _ _ => quiet_portEvents ..,
    quiet_forEach _ _ fun _ _ => quiet_missingEvent .., quiet_forEach _ _ fun _ _ => quiet_genDiscard .., quiet_forEach _ _ fun _ _ => quiet_ignoredSummary ..]

@[simp] theorem quiet_putReply (c seq detail : Nat) (st : Status) (urgent irq : Bool) (m : Mach) :
    quiet (putReply c seq detail st urgent irq m) = quiet m := by
  simp only [putReply, quiet_setEvt]
  rw [quiet_modFn, quiet_send]
  exact fun _ => rfl

/-- R130: finalising takes the request off the list of those owed, and writes. -/
@[simp] theorem quiet_finaliseReq (c : Nat) (u : Bool) (q : Nat) (st : Status) (d : Nat) (m : Mach) :
    quiet (finaliseReq c u q st d m) = quiet { m with reqs := m.reqs.filter fun r => !isReq c u q r } := by
  simp only [finaliseReq]
  split
  · rename_i h
    have : m.reqs.filter (fun r => !isReq c u q r) = m.reqs := by
      rw [List.filter_eq_self]
      intro r hr
      have := List.find?_eq_none.1 h r hr
      simpa using this
    rw [this]
  · have h := quiet_modFn c
      (fun f => { f with finals := if u then f.finals else { seq := q, tick := m.tick.count, st, detail := d } :: f.finals })
      { m with reqs := m.reqs.filter fun r => !isReq c u q r } fun _ => rfl
    rw [← h]
    generalize modFn c _ _ = x
    split
    · rfl
    · split
      · exact quiet_countDropped _
      · exact quiet_putReply ..

/-! ### What has been sent stays sent -/

/-- What goes out only grows. -/
def Grows (f : Mach → Mach) : Prop := ∀ m, m.out <+: (f m).out

theorem grows_same (f : Mach → Mach) (h : ∀ m, (f m).out = m.out) : Grows f := fun m => by rw [h m]

theorem Grows.then {f g : Mach → Mach} (hf : Grows f) (hg : Grows g) : Grows fun m => g (f m) :=
  fun m => (hf m).trans (hg (f m))

theorem grows_forEach {α : Type} (l : List α) (f : α → Mach → Mach) (h : ∀ a, Grows (f a)) : Grows (forEach l f) := by
  intro m
  induction l generalizing m with
  | nil => exact List.prefix_refl _
  | cons a l ih => exact (h a m).trans (ih (f a m))

theorem grows_onlyIf (b : Bool) (f : Mach → Mach) (h : Grows f) : Grows (onlyIf b f) := by
  intro m
  cases b
  · exact List.prefix_refl _
  · exact h m

theorem grows_send (o : Out) : Grows (send o) := by
  intro m
  simp only [send]
  split
  · exact List.prefix_refl _
  · split <;> exact List.prefix_append ..

@[simp] theorem trigger_out (typ : Nat) (body : List Byte) (m : Mach) : (trigger typ body m).out = m.out := by
  simp only [trigger]
  split
  · split <;> rfl
  · rfl

@[simp] theorem emit_out (c typ ctx : Nat) (body : List Byte) (m : Mach) : (emit c typ ctx body m).out = m.out :=
  trigger_out typ body m

@[simp] theorem setEvt_out (c b : Nat) (m : Mach) : (setEvt c b m).out = m.out := rfl

theorem grows_putRecord (c typ ctx tick : Nat) (body : List Byte) : Grows (putRecord c typ ctx tick body) :=
  fun m => grows_send _ m

theorem grows_writeRecord (e : EvRec) : Grows (writeRecord e) := by
  intro m
  simp only [writeRecord]
  split
  · rw [countFlag_out]
    exact grows_putRecord _ _ _ _ _ m
  · exact List.prefix_refl _

theorem grows_lostRecord (c : Nat) : Grows (lostRecord c) := by
  intro m
  simp only [lostRecord]
  split
  · exact grows_putRecord _ _ _ _ _ m
  · exact List.prefix_refl _

theorem grows_signalIfWanted (c : Nat) : Grows (signalIfWanted c) := by
  intro m
  simp only [signalIfWanted]
  split
  · simp only [signal, sendIrq]
    split
    · exact List.prefix_refl _
    · exact grows_send _ (modFn c _ m)
  · exact List.prefix_refl _

theorem grows_flushEvents : Grows flushEvents := by
  intro m
  simp only [flushEvents]
  refine List.IsPrefix.trans ?_ (grows_forEach _ _ (fun c => grows_signalIfWanted c) _)
  refine List.IsPrefix.trans ?_ (grows_forEach _ _ (fun e => grows_writeRecord e) _)
  exact grows_onlyIf _ _ (grows_forEach _ _ fun c => grows_lostRecord c) { m with evq := [] }

@[simp] theorem ignoredSummary_out (c : Nat) (m : Mach) : (ignoredSummary c m).out = m.out := by
  simp only [ignoredSummary]
  split
  · rfl
  · simp

@[simp] theorem genDiscard_out (c : Nat) (m : Mach) : (genDiscard c m).out = m.out := by
  simp only [genDiscard, onlyIf]
  split
  · rfl
  · split <;> split <;> simp [countDropped]

theorem forEach_out {α : Type} (l : List α) (f : α → Mach → Mach) (h : ∀ a m, (f a m).out = m.out) (m : Mach) :
    (forEach l f m).out = m.out := by
  induction l generalizing m with
  | nil => rfl
  | cons a l ih => exact (ih (f a m)).trans (h a m)

@[simp] theorem portEvents_out (p : Nat) (m : Mach) : (portEvents p m).out = m.out := by
  simp only [portEvents, modPort_out]
  rw [forEach_out _ _ fun _ _ => emit_out ..]
  split
  · exact emit_out ..
  · rfl

@[simp] theorem powerEvents_out (m : Mach) : (powerEvents m).out = m.out := by
  simp only [powerEvents, onlyIf, modPwr_out]
  split <;> split <;> simp

@[simp] theorem actTrigger_out (m : Mach) : (actTrigger m).out = m.out := by
  simp only [actTrigger]
  split
  · exact emit_out ..
  · rfl

@[simp] theorem missingEvent_out (c : Nat) (m : Mach) : (missingEvent c m).out = m.out := by
  simp only [missingEvent]
  split
  · rfl
  · exact emit_out ..

theorem grows_endWrites : Grows endWrites := by
  intro m
  refine List.IsPrefix.trans ?_ (grows_flushEvents _)
  rw [actTrigger_out, powerEvents_out, forEach_out _ _ fun _ _ => portEvents_out .., forEach_out _ _ fun _ _ => missingEvent_out ..,
    forEach_out _ _ fun _ _ => genDiscard_out ..,
    forEach_out _ _ fun _ _ => ignoredSummary_out ..]

/-! ### The machine in which a packet is acted on -/

@[simp] theorem taken_tick (p : Packet) (s : State) : (taken p s).tick = s.m.tick := rfl
@[simp] theorem taken_ctxs (p : Packet) (s : State) : (taken p s).ctxs = s.m.ctxs := rfl
@[simp] theorem taken_ten (p : Packet) (s : State) : (taken p s).ten = s.m.ten := rfl
@[simp] theorem taken_mem (p : Packet) (s : State) : (taken p s).mem = s.m.mem := rfl
@[simp] theorem taken_flashTick (p : Packet) (s : State) : (taken p s).flashTick = s.m.flashTick := rfl
@[simp] theorem taken_ecc (p : Packet) (s : State) : (taken p s).ecc = s.m.ecc := rfl
@[simp] theorem taken_cmp (p : Packet) (s : State) : (taken p s).cmp = s.m.cmp := rfl
@[simp] theorem taken_peas (p : Packet) (s : State) : (taken p s).peas = s.m.peas := rfl
@[simp] theorem taken_stp (p : Packet) (s : State) : (taken p s).stp = s.m.stp := rfl
@[simp] theorem taken_link (p : Packet) (s : State) : (taken p s).link = s.m.link := rfl
@[simp] theorem taken_fab (p : Packet) (s : State) : (taken p s).fab = s.m.fab := rfl
@[simp] theorem taken_pwr (p : Packet) (s : State) : (taken p s).pwr = s.m.pwr := rfl
@[simp] theorem taken_i3c (p : Packet) (s : State) : (taken p s).i3c = s.m.i3c := rfl
@[simp] theorem taken_life (p : Packet) (s : State) : (taken p s).life = s.m.life := rfl
@[simp] theorem taken_cap (p : Packet) (s : State) : (taken p s).cap = s.m.cap := rfl
@[simp] theorem taken_host (p : Packet) (s : State) : (taken p s).host = s.m.host := rfl
@[simp] theorem taken_lat (p : Packet) (s : State) : (taken p s).lat = s.m.lat := rfl
@[simp] theorem taken_evq (p : Packet) (s : State) : (taken p s).evq = s.m.evq := rfl
@[simp] theorem taken_out (p : Packet) (s : State) : (taken p s).out = s.m.out := rfl
@[simp] theorem ctxOf_taken (p : Packet) (s : State) (j : Nat) : ctxOf (taken p s) j = ctxOf s.m j := rfl
@[simp] theorem peaOf_taken (p : Packet) (s : State) (j : Nat) : peaOf (taken p s) j = peaOf s.m j := rfl
@[simp] theorem tenOf_taken (p : Packet) (s : State) (j : Nat) : tenOf (taken p s) j = tenOf s.m j := rfl
@[simp] theorem portOf_taken (p : Packet) (s : State) (j : Nat) : portOf (taken p s) j = portOf s.m j := rfl
@[simp] theorem hTen_taken (p : Packet) (s : State) (h : Hdr) : hTen (taken p s) h = hTen s.m h := rfl

/-! ### A packet acted on -/

/-- A packet whose effect changes no more than the checks read is turned away as before its acceptance. -/
theorem turnedAway_taken (p : Packet) (s : State) : turnedAway (taken p s) p = turnedAway s.m p := rfl

/-- A packet that is served, checked and of the mode has the effect of its meaning, and then what is due is written. -/
theorem runPacket_acts (p : Packet) (s : State) (h : Acts p s) : runPacket p s = .next (acted s (p.eff s.nv (taken p s))) := by
  have ht : turnedAway (taken p s) p = none := (turnedAway_taken p s).trans h.mode
  simp [runPacket, servePacket, h.serve, h.room, takePacket, h.checks, actOn]
  rw [show accept p (passPacket p.hdr.ctx p.info.urgent s.m) = taken p s from rfl, ht]
  rfl

/-- The same, with what the packet's effect comes to. -/
theorem runPacket_acted (p : Packet) (s : State) (h : Acts p s) (x : Nv × Mach) (e : p.eff s.nv (taken p s) = x) :
    runPacket p s = .next (acted s x) := by
  rw [runPacket_acts p s h, e]

/-- The same, where the packet's effect ends in its reply. -/
theorem runPacket_replied (p : Packet) (s : State) (h : Acts p s) (st : Status) (d : Nat) (x : Nv × Mach)
    (e : p.eff s.nv (taken p s) = (x.1, finaliseReq p.hdr.ctx p.info.urgent p.hdr.seq st d x.2)) :
    runPacket p s = .next (replied p s st d x) := by
  rw [runPacket_acts p s h, e]
  rfl

/-- R262: a command of a context whose KV table stands acts on that table. -/
theorem kvGuard_taken (h : Hdr) (f : KvView → Mach → Mach) (p : Packet) (s : State) (v : KvView)
    (e : kvView s.m h.ctx = some v) : kvGuard h f (taken p s) = f v (taken p s) := by
  have : kvView (taken p s) h.ctx = some v := e
  simp [kvGuard, this]

/-- The request of an accepted packet is the one found by its number, where no earlier one bears it. -/
theorem findReq_taken (p : Packet) (s : State) (h : Acts p s) :
    findReq (taken p s) p.hdr.ctx p.info.urgent p.hdr.seq =
      some { ctx := p.hdr.ctx, seq := p.hdr.seq, op := p.info.op, urgent := p.info.urgent, irq := p.hdr.irq } := by
  have e : (taken p s).reqs =
      s.m.reqs ++ [{ ctx := p.hdr.ctx, seq := p.hdr.seq, op := p.info.op, urgent := p.info.urgent, irq := p.hdr.irq }] := rfl
  have f := h.fresh
  simp only [findReq] at f ⊢
  rw [e, List.find?_append, f]
  simp [isReq]

/-- The requests owed once an accepted packet has been answered. -/
theorem reqs_taken (p : Packet) (s : State) :
    (taken p s).reqs.filter (fun r => !isReq p.hdr.ctx p.info.urgent p.hdr.seq r) =
      s.m.reqs.filter fun r => !isReq p.hdr.ctx p.info.urgent p.hdr.seq r := by
  have e : (taken p s).reqs =
      s.m.reqs ++ [{ ctx := p.hdr.ctx, seq := p.hdr.seq, op := p.info.op, urgent := p.info.urgent, irq := p.hdr.irq }] := rfl
  rw [e, List.filter_append]
  simp [isReq]

/-- R130, R131: a request whose rings are in service is finalised by one reply to the host. -/
theorem finaliseReq_out (c : Nat) (u : Bool) (q : Nat) (st : Status) (d : Nat) (m : Mach) (r : Req)
    (hr : findReq m c u q = some r) (pre : r.preFlr = false) (rem : m.life.removal = false) (run : turnipRuns m = true)
    (en : (fnOf m c).cmdEnabled = true) (stop : m.host.stopped = false) (rep : m.life.replay = false) :
    (finaliseReq c u q st d m).out = m.out ++
      [.hostWrite ((fnOf m c).statusBase * 4096 + 16 * ((fnOf m c).statusWritten % 2 ^ (fnOf m c).statusLog2))
        (le 4 q ++ le 4 d ++ le 6 m.tick.count ++ le 1 (statusCode st) ++
          le 1 (ownBit (fnOf m c).statusWritten (2 ^ (fnOf m c).statusLog2) + 2 * bit u))] := by
  have len : c < m.fns.length := by
    by_contra hc
    have : fnOf m c = {} := by simp [fnOf, List.getElem?_eq_none (Nat.le_of_not_lt hc)]
    rw [this] at en
    exact absurd en (by decide)
  simp only [finaliseReq, hr]
  obtain ⟨x, hx⟩ : ∃ x, x = modFn c
      (fun f => { f with finals := if u then f.finals else { seq := q, tick := m.tick.count, st, detail := d } :: f.finals })
      { m with reqs := m.reqs.filter fun r => !isReq c u q r } := ⟨_, rfl⟩
  have xf : fnOf x c =
      { fnOf m c with finals := if u then (fnOf m c).finals else { seq := q, tick := m.tick.count, st, detail := d } :: (fnOf m c).finals } := by
    rw [hx, fnOf_modFn, if_pos ⟨rfl, len⟩]
    rfl
  have xo : x.out = m.out := by rw [hx]; rfl
  have xl : x.life = m.life := by rw [hx]; rfl
  have xt : x.tick = m.tick := by rw [hx]; rfl
  have xh : x.host = m.host := by rw [hx]; rfl
  have xr : turnipRuns x = true := by rw [hx]; exact run
  rw [← hx]
  have no : (x.life.removal || !turnipRuns x || !(fnOf x c).cmdEnabled && !r.preFlr) = false := by
    rw [xl, xr, xf]
    simp [rem, en]
  rw [if_neg (by simp [no]), if_neg (by simp [pre])]
  simp only [putReply, setEvt_out, modFn_out]
  rw [send_out _ _ (by rw [xh]; exact stop) (by rw [xl]; exact rep), xf, xo, xt]

/-- A served packet's rings are in service. -/
theorem Acts.enabled {p : Packet} {s : State} (h : Acts p s) : (fnOf s.m p.hdr.ctx).cmdEnabled = true := by
  have := h.serve
  simp only [canServe, served, Bool.and_eq_true] at this
  exact this.1.1.1.2.1.2

/-- A packet is served only while a core runs. -/
theorem Acts.runs {p : Packet} {s : State} (h : Acts p s) : turnipRuns s.m = true := by
  have := h.serve
  simp only [canServe, Bool.and_eq_true] at this
  exact this.1.1.1.1.2

/-- Passing a packet changes no register that its reply is written by. -/
theorem taken_fn {α : Type} (π : Fn → α) (p : Packet) (s : State) (c : Nat)
    (h : ∀ (f : Fn) (t u n v a b : Nat), π { f with tail := t, urgTail := u, head := a, urgHead := b, nextSeq := n, urgNextSeq := v } = π f) :
    π (fnOf (taken p s) c) = π (fnOf s.m c) := by
  have e : fnOf (taken p s) c = fnOf (modFn p.hdr.ctx (fun f =>
      if p.info.urgent then { f with urgNextSeq := wrap 32 (f.urgNextSeq + 1) }
      else { f with nextSeq := wrap 32 (f.nextSeq + 1) }) (passPacket p.hdr.ctx p.info.urgent s.m)) c := rfl
  rw [e, fnOf_keeps π _ _ _ _ fun x => ?_, passPacket, fnOf_keeps π _ _ _ _ fun x => ?_]
  · split
    · exact h x x.tail (wrap 32 (x.urgTail + 1)) x.nextSeq x.urgNextSeq x.head (wrap 32 (x.urgHead + 1))
    · exact h x (wrap 32 (x.tail + 1)) x.urgTail x.nextSeq x.urgNextSeq (wrap 32 (x.head + 1)) x.urgHead
  · split
    · exact h x x.tail x.urgTail x.nextSeq (wrap 32 (x.urgNextSeq + 1)) x.head x.urgHead
    · exact h x x.tail x.urgTail (wrap 32 (x.nextSeq + 1)) x.urgNextSeq x.head x.urgHead

/-- A change that leaves alone what replies are written by: rings, requests, what has gone out, the lifecycle, the tick
and the host port. -/
structure SameDesk (a b : Mach) : Prop where
  fns : b.fns = a.fns
  reqs : b.reqs = a.reqs
  out : b.out = a.out
  life : b.life = a.life
  tick : b.tick = a.tick
  host : b.host = a.host

theorem SameDesk.refl (m : Mach) : SameDesk m m := ⟨rfl, rfl, rfl, rfl, rfl, rfl⟩

theorem SameDesk.trans {a b c : Mach} (h : SameDesk a b) (k : SameDesk b c) : SameDesk a c :=
  ⟨k.fns.trans h.fns, k.reqs.trans h.reqs, k.out.trans h.out, k.life.trans h.life, k.tick.trans h.tick, k.host.trans h.host⟩

theorem sameDesk_forEach {α : Type} (l : List α) (f : α → Mach → Mach) (h : ∀ a m, SameDesk m (f a m)) (m : Mach) :
    SameDesk m (forEach l f m) := by
  induction l generalizing m with
  | nil => exact .refl m
  | cons a l ih => exact (h a m).trans (ih (f a m))

/-- A packet whose effect ends in its own reply is answered: nothing changes but by what it did before, and the reply
follows the results it sent. -/
theorem answers_after (p : Packet) (s : State) (h : Acts p s) (f : Mach → Mach) (st : Status) (d : Nat) (results : List Out)
    (k : SameDesk (taken p s) (f (taken p s)))
    (e : p.eff s.nv (taken p s) = (s.nv, finaliseReq p.hdr.ctx p.info.urgent p.hdr.seq st d
      { f (taken p s) with out := (f (taken p s)).out ++ results })) :
    Answers p s (runPacket p s) f st d results := by
  refine ⟨_, runPacket_acts p s h, rfl, ?_, ?_, ?_⟩
  · simp [acted, e]
  · simp only [acted, e, quiet_endWrites, quiet_finaliseReq, k.reqs]
    rw [reqs_taken]
    rfl
  · have b := taken_fn (·.statusBase) p s p.hdr.ctx fun _ _ _ _ _ _ _ => rfl
    have l := taken_fn (·.statusLog2) p s p.hdr.ctx fun _ _ _ _ _ _ _ => rfl
    have w := taken_fn (·.statusWritten) p s p.hdr.ctx fun _ _ _ _ _ _ _ => rfl
    have en := taken_fn (·.cmdEnabled) p s p.hdr.ctx fun _ _ _ _ _ _ _ => rfl
    obtain ⟨x, hx⟩ : ∃ x, x = { f (taken p s) with out := (f (taken p s)).out ++ results } := ⟨_, rfl⟩
    have xl : x.life = s.m.life := by rw [hx]; exact k.life
    have xf : fnOf x p.hdr.ctx = fnOf (taken p s) p.hdr.ctx := by rw [hx]; simp only [fnOf, k.fns]
    have xt : x.tick = s.m.tick := by rw [hx]; exact k.tick
    have xh : x.host = s.m.host := by rw [hx]; exact k.host
    have xo : x.out = s.m.out ++ results := by rw [hx]; simp only [k.out]; rfl
    have fr : findReq x p.hdr.ctx p.info.urgent p.hdr.seq =
        some { ctx := p.hdr.ctx, seq := p.hdr.seq, op := p.info.op, urgent := p.info.urgent, irq := p.hdr.irq } := by
      rw [← findReq_taken p s h, hx]
      simp only [findReq, k.reqs]
    have o := finaliseReq_out p.hdr.ctx p.info.urgent p.hdr.seq st d x _ fr rfl (by rw [xl]; exact h.stays)
      (by simp only [turnipRuns, xl]; exact h.runs) (by rw [xf, en]; exact h.enabled) (by rw [xh]; exact h.port)
      (by rw [xl]; exact h.live)
    obtain ⟨post, hp⟩ := grows_endWrites (finaliseReq p.hdr.ctx p.info.urgent p.hdr.seq st d x)
    refine ⟨post, ?_⟩
    simp only [acted, e]
    rw [← hx, ← hp, o, xo, xf, b, l, w, xt]
    simp [replyTo]

/-- A packet whose effect is followed by its reply, with nothing sent before. -/
theorem answers (p : Packet) (s : State) (h : Acts p s) (f : Mach → Mach) (st : Status) (d : Nat)
    (k : SameDesk (taken p s) (f (taken p s)))
    (e : p.eff s.nv (taken p s) = (s.nv, finaliseReq p.hdr.ctx p.info.urgent p.hdr.seq st d (f (taken p s)))) :
    Answers p s (runPacket p s) f st d [] :=
  answers_after p s h f st d [] k (by simpa using e)

/-- A packet whose effect is followed by a result block in host memory and its reply (R126). -/
theorem answers_block (p : Packet) (s : State) (h : Acts p s) (f : Mach → Mach) (st : Status) (d addr : Nat) (bs : List Byte)
    (k : SameDesk (taken p s) (f (taken p s)))
    (e : p.eff s.nv (taken p s) =
      (s.nv, finaliseReq p.hdr.ctx p.info.urgent p.hdr.seq st d (putHost addr bs (f (taken p s))))) :
    Answers p s (runPacket p s) f st d [.hostWrite addr bs] := by
  refine answers_after p s h f st d _ k ?_
  rw [e, putHost, send_out _ _ (by rw [k.host]; exact h.port) (by rw [k.life]; exact h.live)]

end Sys2Proof.Machine
end

