-- ==== Sys2Proof/Laws/Bytes.lean ====
section
/-! SUPPORT. The sparse maps that hold every memory: reading after writing, what a write leaves alone, and that every
operation keeps the canonical form, in which equal contents are equal data. -/

namespace Sys2Proof.Machine

variable {w : Nat}

/-! ### The canonical form -/

/-- The form entry by entry: values not zero, and every later key larger. -/
theorem smWf_cons (j : Nat) (v : BitVec w) (r : SMap w) :
    smWf ((j, v) :: r) = true ↔ v ≠ 0 ∧ (∀ e ∈ r, j < e.1) ∧ smWf r = true := by
  induction r generalizing j v with
  | nil => simp [smWf]
  | cons e r ih =>
    obtain ⟨k, u⟩ := e
    have h : smWf ((j, v) :: (k, u) :: r) = true ↔ v ≠ 0 ∧ j < k ∧ smWf ((k, u) :: r) = true := by
      simp [smWf, and_assoc]
    rw [h]
    constructor
    · rintro ⟨a, b, c⟩
      refine ⟨a, ?_, c⟩
      intro e he
      rcases List.mem_cons.1 he with rfl | he
      · exact b
      · exact Nat.lt_trans b (((ih k u).1 c).2.1 e he)
    · rintro ⟨a, b, c⟩
      exact ⟨a, b (k, u) (by simp), c⟩

/-- A key below every listed one holds zero. -/
theorem smGet_below (k : Nat) (r : SMap w) (h : ∀ e ∈ r, k < e.1) : smGet k r = 0 := by
  induction r with
  | nil => rfl
  | cons e r ih =>
    obtain ⟨j, u⟩ := e
    have := h (j, u) (by simp)
    simp only [smGet, if_neg (Nat.ne_of_gt this)]
    exact ih fun e he => h e (by simp [he])

/-- The keys of a map after a write: the old ones and the one written. -/
theorem mem_smSet (k : Nat) (v : BitVec w) (r : SMap w) (e : Nat × BitVec w) (he : e ∈ smSet k v r) : e ∈ r ∨ e.1 = k := by
  induction r with
  | nil =>
    simp only [smSet] at he
    split at he
    · exact .inl he
    · rcases List.mem_singleton.1 he with rfl
      exact .inr rfl
  | cons x r ih =>
    obtain ⟨j, u⟩ := x
    simp only [smSet] at he
    split at he
    · rcases List.mem_cons.1 he with rfl | he
      · exact .inl (by simp)
      · rcases ih he with h | h
        · exact .inl (by simp [h])
        · exact .inr h
    · split at he
      · split at he
        · exact .inl (by simp [he])
        · rcases List.mem_cons.1 he with rfl | he
          · exact .inr rfl
          · exact .inl (by simp [he])
      · split at he
        · exact .inl he
        · rcases List.mem_cons.1 he with rfl | he
          · exact .inr rfl
          · exact .inl he

/-- A write keeps the canonical form. -/
theorem smWf_smSet (k : Nat) (v : BitVec w) (r : SMap w) (h : smWf r = true) : smWf (smSet k v r) = true := by
  induction r with
  | nil =>
    simp only [smSet]
    split
    · rfl
    · rename_i hv
      simpa [smWf] using hv
  | cons x r ih =>
    obtain ⟨j, u⟩ := x
    obtain ⟨hu, hj, hr⟩ := (smWf_cons j u r).1 h
    simp only [smSet]
    split
    · rename_i hlt
      refine (smWf_cons _ _ _).2 ⟨hu, ?_, ih hr⟩
      intro e he
      rcases mem_smSet k v r e he with h | h
      · exact hj e h
      · omega
    · split
      · rename_i hjk
        split
        · exact hr
        · rename_i hv
          exact (smWf_cons _ _ _).2 ⟨hv, hjk ▸ hj, hr⟩
      · split
        · exact h
        · rename_i h1 h2 hv
          refine (smWf_cons _ _ _).2 ⟨hv, ?_, h⟩
          intro e he
          rcases List.mem_cons.1 he with rfl | he
          · simp only
            omega
          · have := hj e he
            omega

/-- Any part of a canonical map is canonical. -/
theorem smWf_filter (p : Nat × BitVec w → Bool) (r : SMap w) (h : smWf r = true) : smWf (r.filter p) = true := by
  induction r with
  | nil => rfl
  | cons x r ih =>
    obtain ⟨j, u⟩ := x
    obtain ⟨hu, hj, hr⟩ := (smWf_cons j u r).1 h
    by_cases hp : p (j, u) = true
    · rw [List.filter_cons_of_pos hp]
      exact (smWf_cons _ _ _).2 ⟨hu, fun e he => hj e (List.mem_filter.1 he).1, ih hr⟩
    · rw [List.filter_cons_of_neg hp]
      exact ih hr

theorem smWf_smClear (lo hi : Nat) (r : SMap w) (h : smWf r = true) : smWf (smClear lo hi r) = true := smWf_filter _ r h

theorem smWf_smWrite (k : Nat) (vs : List (BitVec w)) (r : SMap w) (h : smWf r = true) : smWf (smWrite k vs r) = true := by
  induction vs generalizing k r with
  | nil => exact h
  | cons v vs ih => exact ih _ _ (smWf_smSet k v r h)

theorem smWf_memWrite (a : Nat) (bs : List Byte) (m : Mem) (h : smWf m = true) : smWf (memWrite a bs m) = true := by
  induction bs generalizing a m with
  | nil => exact h
  | cons b bs ih => exact ih _ _ (smWf_smSet a b m h)

/-! ### Reading after writing -/

/-- A write leaves every other key alone. -/
theorem smGet_smSet_of_ne (j k : Nat) (v : BitVec w) (r : SMap w) (h : j ≠ k) : smGet j (smSet k v r) = smGet j r := by
  induction r with
  | nil =>
    simp only [smSet]
    split
    · rfl
    · simp [smGet, Ne.symm h]
  | cons x r ih =>
    obtain ⟨i, u⟩ := x
    simp only [smSet]
    split
    · simp only [smGet, ih]
    · split
      · rename_i hik
        split
        · simp [smGet, hik, Ne.symm h]
        · simp [smGet, hik, Ne.symm h]
      · split
        · rfl
        · simp [smGet, Ne.symm h]

/-- A key written holds what was written. -/
theorem smGet_smSet_self (k : Nat) (v : BitVec w) (r : SMap w) (h : smWf r = true) : smGet k (smSet k v r) = v := by
  induction r with
  | nil =>
    simp only [smSet]
    split
    · rename_i hv
      simp [smGet, hv]
    · simp [smGet]
  | cons x r ih =>
    obtain ⟨i, u⟩ := x
    obtain ⟨-, hj, hr⟩ := (smWf_cons i u r).1 h
    simp only [smSet]
    split
    · rename_i hlt
      simp only [smGet, if_neg (Nat.ne_of_lt hlt)]
      exact ih hr
    · split
      · rename_i hik
        split
        · rename_i hv
          rw [hv]
          exact smGet_below k r (hik ▸ hj)
        · simp [smGet]
      · rename_i h1 h2
        split
        · rename_i hv
          rw [hv]
          simp only [smGet, if_neg h2]
          refine smGet_below k r fun e he => ?_
          have := hj e he
          omega
        · simp [smGet]

theorem smGet_memWrite_of_out (a b : Nat) (bs : List Byte) (m : Mem) (h : b < a ∨ a + bs.length ≤ b) :
    smGet b (memWrite a bs m) = smGet b m := by
  induction bs generalizing a m with
  | nil => rfl
  | cons x bs ih =>
    simp only [List.length_cons] at h
    simp only [memWrite]
    rw [ih (a + 1) _ (by omega), smGet_smSet_of_ne _ _ _ _ (by omega)]

/-- Bytes written are read back. -/
theorem memRead_memWrite (a : Nat) (bs : List Byte) (m : Mem) (h : smWf m = true) : memRead (memWrite a bs m) a bs.length = bs := by
  induction bs generalizing a m with
  | nil => rfl
  | cons x bs ih =>
    simp only [List.length_cons, memRead, memWrite]
    rw [ih (a + 1) _ (smWf_smSet a x m h), smGet_memWrite_of_out _ _ _ _ (by omega), smGet_smSet_self _ _ _ h]

/-- Bytes outside what is written read as before. -/
theorem memRead_memWrite_of_out (a b n : Nat) (bs : List Byte) (m : Mem) (h : b + n ≤ a ∨ a + bs.length ≤ b) :
    memRead (memWrite a bs m) b n = memRead m b n := by
  induction n generalizing b with
  | zero => rfl
  | succ n ih =>
    simp only [memRead]
    rw [ih (b + 1) (by omega), smGet_memWrite_of_out _ _ _ _ (by omega)]

theorem smGet_smClear (lo hi k : Nat) (r : SMap w) :
    smGet k (smClear lo hi r) = if lo ≤ k ∧ k < hi then 0 else smGet k r := by
  induction r with
  | nil => simp [smClear, smGet]
  | cons x r ih =>
    obtain ⟨j, u⟩ := x
    have e : smClear lo hi ((j, u) :: r) = if (decide (j < lo) || decide (hi ≤ j)) = true then (j, u) :: smClear lo hi r else smClear lo hi r := by
      simp [smClear, List.filter_cons]
    rw [e]
    by_cases hp : j < lo ∨ hi ≤ j
    · rw [if_pos (by simpa using hp)]
      simp only [smGet, ih]
      by_cases hjk : j = k
      · subst hjk
        rw [if_pos rfl, if_neg (by omega), if_pos rfl]
      · rw [if_neg hjk, if_neg hjk]
    · rw [if_neg (by simpa using hp), ih]
      simp only [smGet]
      by_cases hjk : j = k
      · subst hjk
        rw [if_pos (by omega), if_pos (by omega)]
      · rw [if_neg hjk]

/-- Maps of one content in canonical form are equal. -/
theorem smExt (r t : SMap w) (hr : smWf r = true) (ht : smWf t = true) (h : ∀ k, smGet k r = smGet k t) : r = t := by
  induction r generalizing t with
  | nil =>
    cases t with
    | nil => rfl
    | cons y t =>
      obtain ⟨k, u⟩ := y
      have := h k
      simp [smGet] at this
      exact absurd this.symm ((smWf_cons k u t).1 ht).1
  | cons x r ih =>
    obtain ⟨j, v⟩ := x
    obtain ⟨hv, hj, hr'⟩ := (smWf_cons j v r).1 hr
    cases t with
    | nil =>
      have := h j
      simp [smGet] at this
      exact absurd this hv
    | cons y t =>
      obtain ⟨k, u⟩ := y
      obtain ⟨hu, hk, ht'⟩ := (smWf_cons k u t).1 ht
      have hjk : j = k := by
        rcases Nat.lt_trichotomy j k with hlt | he | hlt
        · have := h j
          rw [smGet_below j ((k, u) :: t) (by
            intro e he
            rcases List.mem_cons.1 he with rfl | he
            · exact hlt
            · exact Nat.lt_trans hlt (hk e he))] at this
          simp [smGet] at this
          exact absurd this hv
        · exact he
        · have := h k
          rw [smGet_below k ((j, v) :: r) (by
            intro e he
            rcases List.mem_cons.1 he with rfl | he
            · exact hlt
            · exact Nat.lt_trans hlt (hj e he))] at this
          simp [smGet] at this
          exact absurd this.symm hu
      subst hjk
      have hvu : v = u := by
        have := h j
        simpa [smGet] using this
      subst hvu
      congr 1
      refine ih t hr' ht' fun i => ?_
      have := h i
      by_cases hi : j = i
      · subst hi
        rw [smGet_below j r hj, smGet_below j t hk]
      · simpa [smGet, hi] using this

/-! ### Bytes of a number -/

@[simp] theorem le_length (n v : Nat) : (le n v).length = n := by
  induction n generalizing v with
  | zero => rfl
  | succ n ih => simp [le, ih]

/-- R5: bytes spell the number they were made of, within their width. -/
theorem unle_le (n v : Nat) : unle (le n v) = v % 256 ^ n := by
  induction n generalizing v with
  | zero => simp [le, unle, Nat.mod_one]
  | succ n ih =>
    have e : (BitVec.ofNat 8 v).toNat = v % 256 := BitVec.toNat_ofNat v 8
    have p : 256 ^ (n + 1) = 256 * 256 ^ n := by ring
    rw [le, unle, ih, e, p, Nat.mod_mul]

end Sys2Proof.Machine
end

