-- ==== Sys2Proof/Laws/Idle.lean ====
section
/-! SUPPORT. What each part of a boundary does to a machine that finds nothing to act on (`Idle`): it stays so, and its peas,
tenancies and stored data stay as they are. -/

namespace Sys2Proof.Machine

/-- `m` has nothing to act on and the peas, tenancies and stored data of `b`, at the count and time of `t`. -/
structure AtRest (t : TickSt) (b m : Mach) : Prop where
  idle : Idle m
  tick : m.tick.count = t.count ∧ m.tick.nowUs = t.nowUs
  peas : m.peas = b.peas
  ten : m.ten = b.ten
  dev : m.mem.dev = b.mem.dev
  devErr : m.mem.devErr = b.mem.devErr
  slc : m.mem.sliceMem = b.mem.sliceMem
  slcErr : m.mem.sliceErr = b.mem.sliceErr
  cal : m.pwr.lastCalUs = b.pwr.lastCalUs

theorem forEach_id {α : Type} (l : List α) (f : α → Mach → Mach) (m : Mach) (h : ∀ a ∈ l, f a m = m) : forEach l f m = m := by
  unfold forEach
  induction l with
  | nil => rfl
  | cons a l ih => simp only [List.foldl_cons]; rw [h a (by simp)]; exact ih fun x hx => h x (by simp [hx])
theorem forEach_ind {α : Type} (P : Mach → Prop) (l : List α) (f : α → Mach → Mach) (h : ∀ a m, P m → P (f a m)) : ∀ m, P m → P (forEach l f m) := by
  unfold forEach
  induction l with
  | nil => exact fun m h => h
  | cons a l ih => intro m hm; exact ih _ (h a m hm)
@[simp] theorem forEach_nil {α : Type} (f : α → Mach → Mach) (m : Mach) : forEach [] f m = m := rfl

variable {t : TickSt} {b m : Mach}

/-- changes outside what idleness reads -/
theorem AtRest.of (h : AtRest t b m) (m' : Mach) 
   (h1 : m'.life = m.life) (h2 : m'.tick = m.tick) (h3 : m'.cap = m.cap) (h4 : m'.pwr.shutLatched = m.pwr.shutLatched) (h5 : m'.pwr.clamps = m.pwr.clamps)
   (h6 : m'.peas = m.peas) (h7 : m'.reqs = m.reqs) (h8 : m'.stp.steps = m.stp.steps) (h9 : m'.ctxs = m.ctxs) (h10 : m'.ten = m.ten)
   (h11 : m'.fab.lossLatched = m.fab.lossLatched) (h12 : m'.lat = m.lat) (h13 : m'.i3c.queue = m.i3c.queue) (h14 : m'.host.writes = m.host.writes)
   (h15 : m'.fns = m.fns) (h16 : m'.link.planLoads = m.link.planLoads) (h17 : m'.mem = m.mem) (h18 : m'.chan = m.chan)
   (h19 : m'.fab.node = m.fab.node := by rfl) (h20 : m'.fab.ready = m.fab.ready := by rfl) (h21 : m'.pwr.lastCalUs = m.pwr.lastCalUs := by rfl) : AtRest t b m' := by
  obtain ⟨i, a1, a2, a3, a4, a5, a6, a7, a8⟩ := h
  have hf : ∀ x, freeFrames m' x = freeFrames m x := by intro x; simp [freeFrames, usedFrames, installs, h10, h17]
  constructor
  · refine ⟨h1 ▸ i.up, h2 ▸ i.started, ?_, h1 ▸ i.mode, h1 ▸ i.stays, h1 ▸ i.seated, h1 ▸ i.halts, h3 ▸ i.cap, h4 ▸ i.shut, h5 ▸ i.clamps, h2 ▸ i.join, h2 ▸ i.sync,
      h6 ▸ i.peas, h7 ▸ i.reqs, h8 ▸ i.steps, h9 ▸ i.ctxs, h10 ▸ i.tens, h10 ▸ i.rebinds, h11 ▸ i.nodes, h12 ▸ i.lat, h13 ▸ i.tray, h14 ▸ i.writes, h15 ▸ i.rings, h16 ▸ i.plans, h1 ▸ i.ready, h19 ▸ h20 ▸ i.fabric, ?_, ?_, h18 ▸ i.flash⟩
    · simpa [turnipRuns, h1] using i.runs
    · rw [hf, h17]; exact i.hbm
    · rw [hf, h17]; exact i.lp
  · rw [h2]; exact a1
  · rw [h6]; exact a2
  · rw [h10]; exact a3
  · rw [h17]; exact a4
  · rw [h17]; exact a5
  · rw [h17]; exact a6
  · rw [h17]; exact a7
  · exact h21.trans a8

theorem atRest_modStp (h : AtRest t b m) (f) (k : (f m.stp).steps = m.stp.steps) : AtRest t b (modStp f m) :=
  AtRest.of h _ rfl rfl rfl rfl rfl rfl rfl k rfl rfl rfl rfl rfl rfl rfl rfl rfl rfl
theorem atRest_modPwr (h : AtRest t b m) (f) (k : (f m.pwr).shutLatched = m.pwr.shutLatched) (k' : (f m.pwr).clamps = m.pwr.clamps)
    (c : (f m.pwr).lastCalUs = m.pwr.lastCalUs := by rfl) : AtRest t b (modPwr f m) :=
  AtRest.of h _ rfl rfl rfl k k' rfl rfl rfl rfl rfl rfl rfl rfl rfl rfl rfl rfl rfl rfl rfl c
theorem atRest_send (h : AtRest t b m) (o) : AtRest t b (send o m) := by
  unfold send; split
  · exact h
  · split <;> exact AtRest.of h _ rfl rfl rfl rfl rfl rfl rfl rfl rfl rfl rfl rfl rfl rfl rfl rfl rfl rfl
theorem trigger_id (h : m.cap.state = 0) (typ body) : trigger typ body m = m := by
  simp only [trigger]; split <;> simp [h]
theorem atRest_emit (h : AtRest t b m) (c typ ctx body) : AtRest t b (emit c typ ctx body m) := by
  unfold emit; rw [trigger_id h.idle.cap]; exact AtRest.of h _ rfl rfl rfl rfl rfl rfl rfl rfl rfl rfl rfl rfl rfl rfl rfl rfl rfl rfl
theorem atRest_onlyIf (h : AtRest t b m) (x f) (k : ∀ m, AtRest t b m → AtRest t b (f m)) : AtRest t b (onlyIf x f m) := by
  cases x; exact h; exact k m h
theorem capture_id (h : m.cap.state = 0) (k c s bs) : capture k c s bs m = m := by simp [capture, captureAt, h]

theorem mem_modAt {α : Type} {i : Nat} {f : α → α} {l : List α} {x : α} (h : x ∈ modAt i f l) : ∃ y ∈ l, x = f y ∨ x = y := by
  unfold modAt at h
  rw [List.mem_iff_getElem?] at h
  obtain ⟨j, hj⟩ := h
  rw [List.getElem?_modify] at hj
  cases hy : l[j]? with
  | none => simp [hy] at hj
  | some y =>
    refine ⟨y, List.mem_of_getElem? hy, ?_⟩
    simp only [hy, Option.map_eq_map, Option.map_some, Option.some.injEq] at hj
    split at hj
    · exact .inl hj.symm
    · exact .inr hj.symm
theorem atRest_restPods (h : AtRest t b m) (n) : AtRest t b (restPods n m) := by
  unfold restPods; split
  · exact h
  · refine forEach_ind (AtRest t b) _ _ ?_ m h
    intro c m h
    have hi := h.idle
    refine ⟨⟨hi.up, hi.started, hi.runs, hi.mode, hi.stays, hi.seated, hi.halts, hi.cap, hi.shut, hi.clamps, hi.join, hi.sync, hi.peas, hi.reqs, hi.steps, ?_, hi.tens, hi.rebinds, hi.nodes, hi.lat, hi.tray, hi.writes, hi.rings, hi.plans, hi.ready, hi.fabric, hi.hbm, hi.lp, hi.flash⟩, h.tick, h.peas, h.ten, h.dev, h.devErr, h.slc, h.slcErr, h.cal⟩
    intro x hx
    obtain ⟨y, hy, e⟩ := mem_modAt hx
    have := hi.ctxs y hy
    rcases e with e | e <;> subst e <;> exact this

theorem atRest_fns (h : AtRest t b m) (l) (k : ∀ f ∈ l, f.head = f.tail ∧ f.urgHead = f.urgTail ∧ f.checked = [] ∧ f.urgChecked = [] ∧ f.flrLatched = false) : AtRest t b { m with fns := l } :=
  have hi := h.idle
  ⟨⟨hi.up, hi.started, hi.runs, hi.mode, hi.stays, hi.seated, hi.halts, hi.cap, hi.shut, hi.clamps, hi.join, hi.sync, hi.peas, hi.reqs, hi.steps, hi.ctxs, hi.tens, hi.rebinds, hi.nodes, hi.lat, hi.tray, hi.writes, k, hi.plans, hi.ready, hi.fabric, hi.hbm, hi.lp, hi.flash⟩, h.tick, h.peas, h.ten, h.dev, h.devErr, h.slc, h.slcErr, h.cal⟩
theorem atRest_modFn (h : AtRest t b m) (c f) (k : ∀ x : Fn, (f x).head = x.head ∧ (f x).tail = x.tail ∧ (f x).urgHead = x.urgHead ∧ (f x).urgTail = x.urgTail ∧ (f x).checked = x.checked ∧ (f x).urgChecked = x.urgChecked ∧ (f x).flrLatched = x.flrLatched) :
    AtRest t b (modFn c f m) := by
  refine atRest_fns h _ ?_
  intro x hx
  obtain ⟨y, hy, e⟩ := mem_modAt hx
  have r := h.idle.rings y hy
  rcases e with e | e
  · subst e; obtain ⟨k1, k2, k3, k4, k5, k6, k7⟩ := k y
    rw [k1, k2, k3, k4, k5, k6, k7]; exact r
  · subst e; exact r

theorem fnOf_mem (m : Mach) (c) : fnOf m c ∈ m.fns ∨ fnOf m c = {} := by
  unfold fnOf
  cases h : m.fns[c]? with
  | none => right; rfl
  | some x => left; exact List.mem_of_getElem? h
theorem ctxOf_mem (m : Mach) (c) : ctxOf m c ∈ m.ctxs ∨ ctxOf m c = {} := by
  unfold ctxOf
  cases h : m.ctxs[c]? with
  | none => right; rfl
  | some x => left; exact List.mem_of_getElem? h
theorem tenOf_mem (m : Mach) (c) : tenOf m c ∈ m.ten.tens ∨ tenOf m c = {} := by
  unfold tenOf
  cases h : m.ten.tens[c]? with
  | none => right; rfl
  | some x => left; exact List.mem_of_getElem? h
theorem idle_ring (h : Idle m) (c) : (fnOf m c).head = (fnOf m c).tail ∧ (fnOf m c).urgHead = (fnOf m c).urgTail ∧ (fnOf m c).checked = [] ∧ (fnOf m c).urgChecked = [] ∧ (fnOf m c).flrLatched = false := by
  rcases fnOf_mem m c with k | k
  · exact h.rings _ k
  · rw [k]; exact ⟨rfl, rfl, rfl, rfl, rfl⟩
theorem idle_ctx (h : Idle m) (c) : let x := ctxOf m c; x.layouts = [] ∧ x.layers = [] ∧ x.cmpPending = none ∧ (∀ b ∈ x.slots, b.draining = false) ∧
    isPrevious x x.bankA = false ∧ isPrevious x x.bankB = false ∧ x.closing = none ∧ ∀ k ∈ x.colls, k.isOpen = false := by
  rcases ctxOf_mem m c with k | k
  · exact h.ctxs _ k
  · intro x; have e : x = {} := k; rw [e]; exact ⟨rfl, rfl, rfl, by decide, rfl, rfl, rfl, by decide⟩
theorem idle_ten (h : Idle m) (c) : let x := tenOf m c; x.queues = [] ∧ x.shards = [] ∧ x.pools = [] ∧ x.manifests = [] := by
  rcases tenOf_mem m c with k | k
  · exact h.tens _ k
  · intro x; have e : x = {} := k; rw [e]; exact ⟨rfl, rfl, rfl, rfl⟩
theorem mdist_self (x : Nat) : Machine.dist x x = 0 := by unfold Machine.dist; omega

theorem atRest_scanRing (h : AtRest t b m) (c u nv) : AtRest t b (scanRing c u nv m) := by
  obtain ⟨r1, r2, r3, r4, -⟩ := idle_ring h.idle c
  unfold scanRing
  cases u
  · simp only [r1, r3, mdist_self, List.length_nil, Nat.sub_self, List.range'_zero, List.foldl_nil, Bool.false_eq_true, if_false]
    split
    · exact atRest_modFn h _ _ fun _ => ⟨rfl, rfl, rfl, rfl, rfl, rfl, rfl⟩
    · exact h
  · simp only [r2, r4, mdist_self, List.length_nil, Nat.sub_self, List.range'_zero, List.foldl_nil, if_true]
    split
    · exact atRest_modFn h _ _ fun _ => ⟨rfl, rfl, rfl, rfl, rfl, rfl, rfl⟩
    · exact h
theorem atRest_scanRings (h : AtRest t b m) (nv) : AtRest t b (scanRings nv m) := by
  unfold scanRings; split
  · exact h
  · refine forEach_ind (AtRest t b) _ _ ?_ m h
    intro c m h
    split
    · exact atRest_scanRing (atRest_scanRing h _ _ _) _ _ _
    · exact h

theorem map_pea {l : List Pea} (h : ∀ a ∈ l, a.active = none) (f : Pea → Pea) (k : ∀ a, a.active = none → f a = a) : l.map f = l := by
  conv_rhs => rw [← List.map_id l]
  exact List.map_congr_left fun a ha => k a (h a ha)
theorem atRest_markSlow (h : AtRest t b m) : markSlow m = m := by
  unfold markSlow; split
  · rw [map_pea h.idle.peas]; intro a ha; simp [ha]
  · rfl
theorem atRest_notePower (h : AtRest t b m) (n) : AtRest t b (notePower n m) := atRest_modPwr h _ rfl rfl
theorem atRest_noteThermal (h : AtRest t b m) (n) : AtRest t b (noteThermal n m) := atRest_modPwr h _ rfl rfl
theorem atRest_walkIndex (h : AtRest t b m) : AtRest t b (walkIndex m) := by
  unfold walkIndex; rw [atRest_markSlow h]
  dsimp only
  split
  · exact h
  · refine atRest_modPwr (atRest_modStp h _ rfl) _ ?_ ?_ ?_ <;> (split <;> rfl)
theorem atRest_walkStart (h : AtRest t b m) : AtRest t b (walkStart m) := by
  unfold walkStart; split
  · exact atRest_walkIndex h
  · rw [atRest_markSlow h]; exact h
theorem atRest_enterStep (h : AtRest t b m) (s n) : AtRest t b (enterStep s n m) := by
  have tl : ∀ (old : Nat) m2, AtRest t b m2 → AtRest t b (if clamped m2.pwr then m2 else if m2.pwr.localStep ≤ s then modPwr (fun x => { x with localStep := s }) m2
      else if s < old then walkStart m2 else m2) := by
    intro old m2 h2
    split
    · exact h2
    · split
      · exact atRest_modPwr h2 _ rfl rfl
      · split
        · exact atRest_walkStart h2
        · exact h2
  unfold enterStep
  refine tl m.pwr.groupStep _ ?_
  have h1 : AtRest t b (modPwr (fun x => { x with groupStep := s, limitNode := n }) m) := atRest_modPwr h _ rfl rfl
  split
  · exact h1
  · exact atRest_modPwr (atRest_notePower h1 _) _ rfl rfl
theorem atRest_modTick (h : AtRest t b m) (f) (t') (k : (f m.tick).started = m.tick.started ∧ (f m.tick).join = m.tick.join ∧ (f m.tick).lossLatched = m.tick.lossLatched)
    (e : (f m.tick).count = t'.count ∧ (f m.tick).nowUs = t'.nowUs) : AtRest t' b (modTick f m) := by
  have hi := h.idle
  exact ⟨⟨hi.up, k.1.trans hi.started, hi.runs, hi.mode, hi.stays, hi.seated, hi.halts, hi.cap, hi.shut, hi.clamps, k.2.1.trans hi.join, k.2.2.trans hi.sync, hi.peas, hi.reqs, hi.steps, hi.ctxs, hi.tens, hi.rebinds, hi.nodes, hi.lat, hi.tray, hi.writes, hi.rings, hi.plans, hi.ready, hi.fabric, hi.hbm, hi.lp, hi.flash⟩, e, h.peas, h.ten, h.dev, h.devErr, h.slc, h.slcErr, h.cal⟩
theorem atRest_countTick (h : AtRest t b m) (n p x) : AtRest { t with count := n, nowUs := t.nowUs + m.tick.inForce } b (countTick n p x m) :=
  atRest_modTick h _ _ ⟨rfl, rfl, rfl⟩ ⟨rfl, by show m.tick.nowUs + _ = _; rw [h.tick.2]⟩
theorem atRest_missTsync (h : AtRest t b m) : AtRest t b (missTsync m) ∧ (missTsync m).tick.inForce = m.tick.inForce := by
  unfold missTsync; split
  · exact ⟨atRest_modTick h _ _ ⟨rfl, rfl, rfl⟩ ⟨h.tick.1, h.tick.2⟩, rfl⟩
  · exact ⟨h, rfl⟩
theorem atRest_makeGrant (h : AtRest t b m) : AtRest t b (makeGrant m) ∧ (makeGrant m).tick.inForce = m.tick.inForce := by
  unfold makeGrant
  exact ⟨atRest_modTick (atRest_modPwr h _ rfl rfl) _ _ ⟨rfl, rfl, rfl⟩ ⟨h.tick.1, h.tick.2⟩, rfl⟩
theorem atRest_fireTick (h : AtRest t b m) : AtRest { t with count := t.count + 1, nowUs := t.nowUs + m.tick.inForce } b (fireTick m) := by
  unfold fireTick; split
  · unfold followBoundary
    obtain ⟨k, e⟩ := atRest_missTsync h
    dsimp only
    generalize missTsync m = m1 at *
    rw [← e]
    split
    · refine atRest_modTick (atRest_modPwr (atRest_enterStep (atRest_countTick k _ _ _) _ _) _ rfl rfl) _ _ ⟨rfl, rfl, rfl⟩ ?_
      exact ⟨by rw [← k.tick.1]; exact (atRest_modPwr (atRest_enterStep (atRest_countTick k _ _ _) _ _) _ rfl rfl).tick.1, (atRest_modPwr (atRest_enterStep (atRest_countTick k _ _ _) _ _) _ rfl rfl).tick.2⟩
    · refine atRest_modTick (atRest_enterStep (atRest_countTick k _ _ _) _ _) _ _ ⟨rfl, rfl, rfl⟩ ?_
      exact ⟨by rw [← k.tick.1]; exact ((atRest_enterStep (atRest_countTick k _ _ _) _ _)).tick.1, ((atRest_enterStep (atRest_countTick k _ _ _) _ _)).tick.2⟩
  · rw [h.idle.join]
    unfold ownBoundary
    dsimp only
    have hg : AtRest t b (if m.tick.launched == some (m.tick.count + 1) || m.tick.lost then m else makeGrant m) ∧ (if m.tick.launched == some (m.tick.count + 1) || m.tick.lost then m else makeGrant m).tick.inForce = m.tick.inForce := by
      split
      · exact ⟨h, rfl⟩
      · exact atRest_makeGrant h
    obtain ⟨k, e⟩ := hg
    generalize (if m.tick.launched == some (m.tick.count + 1) || m.tick.lost then m else makeGrant m) = m1 at *
    rw [← e]
    refine atRest_modTick (atRest_modPwr (atRest_enterStep (atRest_countTick k _ _ _) _ _) _ rfl rfl) _ _ ⟨rfl, rfl, rfl⟩ ?_
    exact ⟨by rw [← k.tick.1]; exact (atRest_modPwr (atRest_enterStep (atRest_countTick k _ _ _) _ _) _ rfl rfl).tick.1, (atRest_modPwr (atRest_enterStep (atRest_countTick k _ _ _) _ _) _ rfl rfl).tick.2⟩
theorem closeRecord_id (h : m.cap.state = 0) (n) : closeRecord n m = m := by simp [closeRecord, h]

theorem atRest_modHost (h : AtRest t b m) (f) (k : (f m.host).writes = m.host.writes) : AtRest t b (modHost f m) :=
  AtRest.of h _ rfl rfl rfl rfl rfl rfl rfl rfl rfl rfl rfl rfl rfl k rfl rfl rfl rfl
theorem atRest_startService (h : AtRest t b m) (nv) : startService nv m = m := by
  unfold startService
  have : (m.life.mode == ModState.boot) = false := by simp [h.idle.mode]
  simp [this]
theorem atRest_arrivals (h : AtRest t b m) : AtRest t b { m with fns := m.fns.map fun f => { f with eccWritten := 0, arrivals := 0 } } := by
  refine atRest_fns h _ ?_
  intro f hf
  simp only [List.mem_map] at hf
  obtain ⟨y, hy, rfl⟩ := hf
  exact h.idle.rings y hy
theorem scan_inForce (c u nv) : ∀ m : Mach, Idle m → (scanRing c u nv m).tick = m.tick := by
  intro m hi
  obtain ⟨r1, r2, r3, r4, -⟩ := idle_ring hi c
  unfold scanRing
  cases u
  · simp only [r1, r3, mdist_self, List.length_nil, Nat.sub_self, List.range'_zero, List.foldl_nil, Bool.false_eq_true, if_false]
    split <;> rfl
  · simp only [r2, r4, mdist_self, List.length_nil, Nat.sub_self, List.range'_zero, List.foldl_nil, if_true]
    split <;> rfl

theorem atRest_fireBoundary (h : AtRest t b m) (nv) : AtRest { t with count := t.count + 1, nowUs := t.nowUs + m.tick.inForce } b (fireBoundary nv m) := by
  unfold fireBoundary
  have h1 : AtRest t b (forEach (List.range 48) restPods m) ∧ (forEach (List.range 48) restPods m).tick = m.tick := by
    refine forEach_ind (fun x => AtRest t b x ∧ x.tick = m.tick) (List.range 48) restPods ?_ m ⟨h, rfl⟩
    intro a x hx
    refine ⟨atRest_restPods hx.1 a, ?_⟩
    rw [← hx.2]
    unfold restPods; split
    · rfl
    · refine forEach_ind (fun y => y.tick = x.tick) _ _ ?_ x rfl
      intro c y hy; exact hy
  generalize forEach (List.range 48) restPods m = m0 at *
  obtain ⟨h1, e1⟩ := h1
  have h2 : AtRest t b (modHost (fun h => { h with openAtStart := openNow m }) m0) := atRest_modHost h1 _ rfl
  have e2 : (modHost (fun h => { h with openAtStart := openNow m }) m0).tick = m0.tick := rfl
  dsimp only
  generalize modHost (fun h => { h with openAtStart := openNow m }) m0 = m1 at *
  rw [atRest_startService h2]
  have h3 := atRest_scanRings h2 nv
  have e3 : (scanRings nv m1).tick = m1.tick := by
    unfold scanRings; split
    · rfl
    · refine (forEach_ind (fun x => AtRest t b x ∧ x.tick = m1.tick) _ _ ?_ m1 ⟨h2, rfl⟩).2
      intro c x ⟨hx, ex⟩
      split
      · exact ⟨atRest_scanRing (atRest_scanRing hx _ _ _) _ _ _, by rw [scan_inForce _ _ _ _ (atRest_scanRing hx _ _ _).idle, scan_inForce _ _ _ _ hx.idle, ex]⟩
      · exact ⟨hx, ex⟩
  generalize scanRings nv m1 = m2 at *
  rw [show captureSample m2 = m2 from capture_id h3.idle.cap _ _ _ _, atRest_markSlow h3]
  have h3' : AtRest t b (modPwr (fun p => { p with samples := 0 }) m2) := atRest_modPwr h3 _ rfl rfl
  have e3' : (modPwr (fun p => { p with samples := 0 }) m2).tick = m2.tick := rfl
  generalize modPwr (fun p => { p with samples := 0 }) m2 = m3 at *
  have h4 := atRest_fireTick (atRest_arrivals h3')
  have e4 : m3.tick.inForce = m.tick.inForce := by rw [e3', e3, e2, e1]
  rw [closeRecord_id h4.idle.cap]
  rw [← e4]; exact h4

theorem atRest_classOne (h : AtRest t b m) : classOne m = (m, false) := by
  have hm : ∀ k, trayMsgs m k = [] := by intro k; simp only [trayMsgs, h.idle.tray, traySorted]; split <;> simp [sortBy]
  simp [classOne, actResets, hm, h.idle.shut, actClamps, h.idle.clamps]
theorem trayNil (h : Idle m) (k) : trayMsgs m k = [] := by simp only [trayMsgs, h.tray, traySorted]; split <;> simp [sortBy]
theorem atRest_classTwo (h : AtRest t b m) : classTwo m = m := by simp [classTwo, h.idle.seated]
theorem settleMsgs_id (fs) (h : m.lat = {}) : ∀ n, settleMsgs fs n m = m := by
  intro n; cases n with
  | zero => rfl
  | succ n => unfold settleMsgs; simp [h]
theorem lat_id (h : Idle m) (f) (k : f {} = {}) : modLat f m = m := by
  have : modLat f m = { m with lat := f m.lat } := rfl
  rw [this, h.lat, k, ← h.lat]
theorem atRest_classThree (h : AtRest t b m) (fs) : classThree fs m = m := by
  have hi := h.idle
  have hl := hi.lat
  have e0 : settleAll fs m = m := settleMsgs_id fs hl _
  have e1 : actHalts m = m := by simp [actHalts, hi.halts]
  have e2 : actSyncLoss m = m := by simp [actSyncLoss, hi.sync]
  have e3 : modFab (fun f => { f with lossLatched := [] }) m = m := by
    have : modFab (fun f => { f with lossLatched := [] }) m = { m with fab := { m.fab with lossLatched := [] } } := rfl
    rw [this, ← hi.nodes]
  have e5 : collDeadlines fs m = m := by
    unfold collDeadlines
    refine forEach_id _ _ _ fun c _ => ?_
    have : (ctxOf m c).colls.filter (·.isOpen) = [] := by
      rw [List.filter_eq_nil_iff]; intro x hx; simp [(idle_ctx hi c).2.2.2.2.2.2.2 x hx]
    rw [this]; rfl
  have e4 : expertDeadlines m = m := by
    unfold expertDeadlines
    exact forEach_id _ _ _ fun c _ => by rw [(idle_ctx hi c).1]; rfl
  unfold classThree
  simp only [e0, e1]
  rw [lat_id hi _ rfl]
  simp only [hl, sortBy, List.foldr_nil, forEach_nil, e2, e3, hi.nodes]
  unfold actErrs
  rw [lat_id hi _ rfl]
  simp only [hl, sortBy, List.foldr_nil, List.map_nil, forEach_nil, e5]
  unfold actExchFaults
  rw [lat_id hi _ rfl]
  simp only [hl, List.filter_nil, forEach_nil, e4]

theorem writes_id (h : Idle m) (nv k) : actWrites nv k m = m := by
  unfold actWrites
  have : modHost (fun h => { h with writes := h.writes.filter fun w => writeClass w != k }) m = { m with host := { m.host with writes := m.host.writes.filter fun w => writeClass w != k } } := rfl
  rw [this]
  simp only [h.writes, List.filter_nil, forEach_nil]
  rw [← h.writes]
theorem atRest_ibi (h : AtRest t b m) (n) : AtRest t b (raiseIbi n m) := by
  unfold raiseIbi; split
  · exact atRest_send h _
  · exact h
theorem atRest_changeLimit (h : AtRest t b m) (f) (k : ∀ p, (f p).shutLatched = p.shutLatched ∧ (f p).clamps = p.clamps ∧ (f p).lastCalUs = p.lastCalUs) :
    AtRest t b (changeLimit f m) := by
  have h1 := atRest_modPwr h f (k _).1 (k _).2.1 (k _).2.2
  have e : changeLimit f m = if limitW (modPwr f m).pwr = limitW m.pwr then modPwr f m else notePower 7 (modPwr f m) := rfl
  rw [e]
  generalize modPwr f m = m1 at *
  split
  · exact h1
  · exact atRest_notePower h1 _
theorem atRest_lease (h : AtRest t b m) : AtRest t b (leaseExpires m) := by
  unfold leaseExpires; split
  · refine atRest_ibi (atRest_changeLimit (atRest_notePower h _) _ ?_) _
    intro p; exact ⟨rfl, rfl, rfl⟩
  · exact h
theorem atRest_actThermal (h : AtRest t b m) : AtRest t b (actThermal m) := by
  unfold actThermal
  refine atRest_modPwr ?_ _ rfl rfl
  have k1 : AtRest t b (if m.pwr.thermalLatched = m.pwr.thermalStep then m else m |> noteThermal 0 |> modPwr (fun p => { p with thermalStep := m.pwr.thermalLatched })) := by
    split
    · exact h
    · exact atRest_modPwr (atRest_noteThermal h _) _ rfl rfl
  generalize (if m.pwr.thermalLatched = m.pwr.thermalStep then m else m |> noteThermal 0 |> modPwr (fun p => { p with thermalStep := m.pwr.thermalLatched })) = m1 at *
  split
  · exact k1
  · exact atRest_modPwr (atRest_noteThermal k1 _) _ rfl rfl
theorem atRest_classFour (h : AtRest t b m) (nv) : AtRest t b (classFour nv m) := by
  have e1 : leaseMsgs m = [] := by simp [leaseMsgs, trayNil h.idle]
  have e2 : actLeases [] m = m := by simp [actLeases]
  have k := atRest_lease h
  unfold classFour
  rw [e1, e2, trayNil h.idle, forEach_nil]
  generalize leaseExpires m = m1 at *
  have hi := k.idle
  have e3 : actClamps (· != .supply) m1 = m1 := by simp [actClamps, hi.clamps]
  have e4 : actClampEnds m1 = m1 := by simp [actClampEnds, hi.clamps]
  rw [writes_id hi, e3, e4]
  exact atRest_actThermal k
theorem atRest_modFab (h : AtRest t b m) (f) (k : (f m.fab).lossLatched = m.fab.lossLatched)
    (k1 : (f m.fab).node = m.fab.node := by rfl) (k2 : (f m.fab).ready = m.fab.ready := by rfl) : AtRest t b (modFab f m) :=
  AtRest.of h _ rfl rfl rfl rfl rfl rfl rfl rfl rfl rfl k rfl rfl rfl rfl rfl rfl rfl k1 k2
theorem atRest_actLinks (h : AtRest t b m) : AtRest t b (actLinks m) := by
  unfold actLinks
  dsimp only
  rw [lat_id h.idle _ rfl]
  simp only [h.idle.lat, sortBy, List.foldr_nil, forEach_nil, trayNil h.idle]
  exact atRest_modFab h _ rfl
theorem bits0 (n : Nat) : bitsBelow n 0 = [] := by simp [bitsBelow]
theorem join_id (h : Idle m) : joinDue m = m := by
  unfold joinDue
  simp only [h.rebinds, List.filter_nil, List.map_nil, List.foldl_nil, bits0]
  exact forEach_id _ _ _ fun _ _ => rfl
theorem round_id (h : Idle m) : roundOrder m = [] := by
  have : (List.range 48).flatMap (fun t => ((tenOf m t).queues.filter fun k => !(bufOf k (k.expected % 2)).todo.isEmpty).map fun k => (t, k.num)) = [] := by
    simp only [List.flatMap_eq_nil_iff]
    intro t _; rw [(idle_ten h t).1]; rfl
  simp only [roundOrder, this, h.lat]; rfl
theorem atRest_actDones (h : AtRest t b m) (fs) : actDones fs m = m := by
  have hi := h.idle
  have e : doneKeys m = [] := by simp [doneKeys, hi.lat, hi.steps, hi.reqs, hi.rebinds, sortBy]
  have e2 : settleAborts m = m := by simp [settleAborts, hi.reqs]
  unfold actDones
  dsimp only
  rw [lat_id hi _ rfl]
  simp only [round_id hi, hi.lat, forEach_nil, join_id hi, e, e2]
theorem closeLeft_id (h : Idle m) : closeLeft m = m :=
  forEach_id _ _ _ fun c _ => by rw [(idle_ctx h c).1]; rfl
theorem over_id (h : Idle m) : actOverruns m = m := by
  have e : overruns m = [] := by
    simp only [overruns, List.filterMap_eq_nil_iff]
    intro a ha; simp [h.peas a ha]
  unfold actOverruns
  simp only [e, h.steps, List.filter_nil, List.map_nil, List.dedup_nil, forEach_nil]
  exact forEach_id _ _ _ fun c _ => rfl
theorem frozen_id (h : Idle m) (fs) : frozenDrains fs m = m := by simp [frozenDrains, drainEnds, h.rebinds]
theorem map_same {α : Type} (l : List α) (f : α → α) (k : ∀ x ∈ l, f x = x) : l.map f = l := by
  conv_rhs => rw [← List.map_id l]
  exact List.map_congr_left k
theorem modAt_same {α : Type} (i : Nat) (f : α → α) (l : List α) (k : ∀ x ∈ l, f x = x) : modAt i f l = l := by
  apply List.ext_getElem?
  intro j
  unfold modAt
  rw [List.getElem?_modify]
  cases hj : l[j]? with
  | none => rfl
  | some y =>
    have := k y (List.mem_of_getElem? hj)
    simp [this]
theorem modTen_same (h : Idle m) (n) (f : Ten → Ten) (k : ∀ x, x ∈ m.ten.tens → f x = x) : modTen n f m = m := by
  have : modTen n f m = { m with ten := { m.ten with tens := modAt n f m.ten.tens } } := rfl
  rw [this, modAt_same _ _ _ k]
theorem shards_id (h : Idle m) (fs) : dropFrozenShards fs m = m := by
  have e : ∀ q, stopInstalls fs q m = m := fun q => forEach_id _ _ _ fun c _ => by rw [(idle_ten h c).2.1]; rfl
  unfold dropFrozenShards
  simp only [e]
  refine forEach_id _ _ _ fun c _ => modTen_same h _ _ ?_
  intro x hx
  have := (h.tens x hx).2.1
  simp only [this, List.filter_nil]; rw [← this]
theorem banks_id (h : Idle m) (c) : freeBanks c m = m := by
  obtain ⟨-, -, -, -, ea, eb, -, -⟩ := idle_ctx h c
  have e0 : freeBank c 0 m = m := by simp [freeBank, ea]
  have e1 : freeBank c 1 m = m := by simp [freeBank, eb]
  simp only [freeBanks, e0, e1]
theorem atRest_classFive (h : AtRest t b m) (fs) : AtRest t b (classFive fs m) := by
  have k := atRest_actLinks h
  unfold classFive
  generalize actLinks m = m1 at *
  have i := k.idle
  simp only [atRest_actDones k, closeLeft_id i, over_id i, frozen_id i, shards_id i]
  rw [forEach_id _ _ _ fun c _ => banks_id i c]
  exact k
theorem foldl_pair {α : Type} (l : List α) (f : Nv × Mach → α → Nv × Mach) (x : Nv × Mach) (k : ∀ a ∈ l, f x a = x) : l.foldl f x = x := by
  induction l with
  | nil => rfl
  | cons a l ih => simp only [List.foldl_cons]; rw [k a (by simp)]; exact ih fun c hc => k c (by simp [hc])
theorem atRest_ofClass (h : AtRest t b m) (k n) : AtRest t b (ofClass k n m) := by
  unfold ofClass; exact AtRest.of h _ rfl rfl rfl rfl rfl rfl rfl rfl rfl rfl rfl rfl rfl rfl rfl rfl rfl rfl
theorem atRest_classSix (h : AtRest t b m) (nv) : (classSix (nv, m)).1 = nv ∧ AtRest t b (classSix (nv, m)).2 := by
  have e : ∀ l : List Nat, l.foldl (fun x c => serveRing c true 257 257 (actFlr c x.1 x.2)) (nv, m) = (nv, m) := by
    intro l
    refine foldl_pair _ _ _ ?_
    intro c _
    obtain ⟨-, -, -, r4, r5⟩ := idle_ring h.idle c
    simp [actFlr, r5, serveRing, r4]
  unfold classSix
  rw [e]
  exact ⟨rfl, atRest_ofClass h _ _⟩
theorem serve_ctx (hi : Idle m) (nv c) : serveCtx c (nv, m) = (nv, m) := by
  have f1 : resolveLoad c m = m := by simp [resolveLoad, (idle_ctx hi c).2.2.1]
  have f2 : resolveManifests c m = m := forEach_id _ _ _ fun n _ => by rw [(idle_ten hi n).2.2.2]; rfl
  have f3 : serveFetched c (nv, m) = (nv, m) := by simp [serveFetched, hi.reqs]
  have f4 : (ringWaits m c || (fnOf m c).checked.isEmpty) = true := by simp [(idle_ring hi c).2.2.1]
  unfold serveCtx
  simp only [f1, f2, f3]
  split
  · rfl
  · rfl
theorem serve_fold (nv) (l : List Nat) (this : ∀ c, serveCtx c (nv, m) = (nv, m)) : l.foldl (fun x c => serveCtx c x) (nv, m) = (nv, m) := by
  induction l with
  | nil => rfl
  | cons a l ih => rw [List.foldl_cons, this, ih]
theorem serve_rings (hi : Idle m) (nv) (l : List Nat) : l.foldl (fun x c => serveCtx c x) (nv, m) = (nv, m) := serve_fold nv l fun c => serve_ctx hi nv c
theorem serveRings_eq (nv) (e : ∀ l : List Nat, l.foldl (fun x c => serveCtx c x) (nv, m) = (nv, m)) : ∃ f : HostSt → HostSt, (∀ h, (f h).writes = h.writes) ∧ serveRings (nv, m) = (nv, modHost f m) := by
  unfold serveRings
  simp only [e]
  exact ⟨fun h => { h with lastServed := ((ringOrder m).find? fun c => (fnOf m c).head != (fnOf m c).head).getD h.lastServed }, fun _ => rfl, rfl⟩
theorem atRest_serveRings (h : AtRest t b m) (nv) : (serveRings (nv, m)).1 = nv ∧ AtRest t b (serveRings (nv, m)).2 := by
  obtain ⟨f, k, e⟩ := serveRings_eq nv (serve_rings h.idle nv)
  have : ∀ y, y = (nv, modHost f m) → y.1 = nv ∧ AtRest t b y.2 := by
    rintro _ rfl; exact ⟨rfl, atRest_modHost h _ (k _)⟩
  exact this _ e
theorem classSeven_eq (x z : Nv × Mach) (h : x.2.life.removal = false) (ht : trayMsgs x.2 7 = [])
    (hz : serveRings (x.1, actWrites x.1 7 (resolvePlans x.2)) = z) : classSeven x = (z.1, ofClass 7 x.2.evq.length z.2) := by
  subst hz
  unfold classSeven
  rw [if_neg (by simp [h]), ht, List.foldl_nil]
theorem atRest_classSeven (h : AtRest t b m) (nv) : (classSeven (nv, m)).1 = nv ∧ AtRest t b (classSeven (nv, m)).2 := by
  have hi := h.idle
  have e1 : resolvePlans m = m := by
    unfold resolvePlans
    simp only [hi.plans, List.filter_nil, forEach_nil]
    rw [← hi.plans]
  obtain ⟨f, k, e⟩ := serveRings_eq nv (serve_rings h.idle nv)
  have e2 : serveRings (nv, actWrites nv 7 (resolvePlans m)) = (nv, modHost f m) := by rw [e1, writes_id hi, e]
  rw [classSeven_eq (nv, m) _ hi.stays (trayNil hi 7) e2]
  exact ⟨rfl, atRest_ofClass (atRest_modHost h _ (k _)) _ _⟩
theorem atRest_clearTray (h : AtRest t b m) : AtRest t b (clearTray m) := by
  unfold clearTray
  refine AtRest.of h _ rfl rfl rfl rfl rfl rfl rfl rfl rfl rfl rfl rfl ?_ rfl rfl rfl rfl rfl
  show (if m.life.removal then trayMsgs m 7 else []) = m.i3c.queue
  rw [h.idle.stays, h.idle.tray]; rfl

theorem atRest_mem (h : AtRest t b m) (f : MemSt → MemSt) (k1 : (f m.mem).dev = m.mem.dev) (k2 : (f m.mem).devErr = m.mem.devErr) (k3 : (f m.mem).sliceMem = m.mem.sliceMem)
   (k4 : (f m.mem).sliceErr = m.mem.sliceErr) (k5 : (f m.mem).hbmLowering = m.mem.hbmLowering) (k6 : (f m.mem).hbmLow = m.mem.hbmLow) (k7 : (f m.mem).lpLowering = m.mem.lpLowering) (k8 : (f m.mem).lpLow = m.mem.lpLow)
   (k9 : ∀ t, freeFrames (modMem f m) t = freeFrames m t) : AtRest t b (modMem f m) := by
  have hi := h.idle
  refine ⟨⟨hi.up, hi.started, hi.runs, hi.mode, hi.stays, hi.seated, hi.halts, hi.cap, hi.shut, hi.clamps, hi.join, hi.sync, hi.peas, hi.reqs, hi.steps, hi.ctxs, hi.tens, hi.rebinds, hi.nodes, hi.lat, hi.tray, hi.writes, hi.rings, hi.plans, hi.ready, hi.fabric, ?_, ?_, hi.flash⟩, h.tick, h.peas, h.ten, k1.trans h.dev, k2.trans h.devErr, k3.trans h.slc, k4.trans h.slcErr, h.cal⟩
  · rw [k9]; exact ⟨k5.trans hi.hbm.1, by show (f m.mem).hbmLow ≤ _; rw [k6]; exact hi.hbm.2⟩
  · rw [k9]; exact ⟨k7.trans hi.lp.1, by show (f m.mem).lpLow ≤ _; rw [k8]; exact hi.lp.2⟩
theorem slots_id (h : Idle m) : drainSlots m = m := by
  refine forEach_id _ _ _ fun c _ => ?_
  have : (ctxOf m c).slots.filter (·.draining) = [] := by
    rw [List.filter_eq_nil_iff]; intro x hx; simp [(idle_ctx h c).2.2.2.1 x hx]
  rw [this]; rfl
theorem atRest_watermarks (h : AtRest t b m) (fs) : watermarks fs m = m := by
  have hi := h.idle
  have e1 : lowering m.mem.hbmLowering m.mem.hbmLow m.mem.hbmHigh (freeFrames m .hbm) = false := by
    simp [lowering, hi.hbm.1, hi.hbm.2]
  have e2 : lowering m.mem.lpLowering m.mem.lpLow m.mem.lpHigh (freeFrames m .lp) = false := by
    simp [lowering, hi.lp.1, hi.lp.2]
  unfold watermarks
  have e3 : modMem (fun x => { x with hbmLowering := lowering x.hbmLowering x.hbmLow x.hbmHigh (freeFrames m .hbm)
                                      lpLowering := lowering x.lpLowering x.lpLow x.lpHigh (freeFrames m .lp) }) m = m := by
    have : modMem (fun x => { x with hbmLowering := lowering x.hbmLowering x.hbmLow x.hbmHigh (freeFrames m .hbm)
                                     lpLowering := lowering x.lpLowering x.lpLow x.lpHigh (freeFrames m .lp) }) m =
       { m with mem := { m.mem with hbmLowering := lowering m.mem.hbmLowering m.mem.hbmLow m.mem.hbmHigh (freeFrames m .hbm)
                                    lpLowering := lowering m.mem.lpLowering m.mem.lpLow m.mem.lpHigh (freeFrames m .lp) } } := rfl
    rw [this, e1, e2]
    have a := hi.hbm.1
    have c := hi.lp.1
    cases m with | mk _ _ _ _ _ mem => cases mem; simp_all
  dsimp only
  rw [e3, hi.hbm.1, hi.lp.1]
  rfl
theorem quar_id (h : Idle m) : releaseQuarantine m = m :=
  forEach_id _ _ _ fun c _ => by rw [(idle_ten h c).2.2.1]; rfl
theorem atRest_prefetch (h : AtRest t b m) : AtRest t b (kvPrefetch m) := by
  unfold kvPrefetch
  have k : AtRest t b (modMem (fun x => { x with pages := x.pages.map fun g => { g with prefetch := false } }) m) := by
    refine atRest_mem h _ rfl rfl rfl rfl rfl rfl rfl rfl ?_
    intro u
    unfold freeFrames usedFrames
    show _ - ((m.mem.pages.map fun g => { g with prefetch := false }).foldl (fun n p => n + pageFrames u p) 0 + _ + _ + _) = _
    rw [List.foldl_map]; rfl
  rw [show m.stp.steps = [] from h.idle.steps]
  exact k
theorem atRest_overcommit (h : AtRest t b m) : AtRest t b (countOvercommit m) := by
  unfold countOvercommit
  dsimp only
  exact atRest_mem h _ rfl rfl rfl rfl rfl rfl rfl rfl fun _ => rfl
theorem win_id (h : Idle m) (c) : closeWindows c m = m := by
  unfold closeWindows; simp only [(idle_ctx h c).2.1]; rfl
theorem atRest_links (h : AtRest t b m) : AtRest t b (enableLinks m) := by
  unfold enableLinks; split
  · exact AtRest.of h _ rfl rfl rfl rfl rfl rfl rfl rfl rfl rfl rfl rfl rfl rfl rfl rfl rfl rfl
  · exact h
theorem atRest_ite (c : Prop) [Decidable c] {x y : Mach} (hx : AtRest t b x) (hy : AtRest t b y) : AtRest t b (if c then x else y) := by split <;> assumption
theorem atRest_pace (h : AtRest t b m) (r) : AtRest t b (makePace r m) := by
  unfold makePace
  dsimp only
  refine atRest_modPwr (atRest_ite _ ?_ (atRest_notePower ?_ _)) _ rfl rfl <;> exact atRest_modPwr (atRest_modStp h _ rfl) _ rfl rfl
theorem atRest_ecc (h : AtRest t b m) : AtRest t b (eccCorrected m) := by
  unfold eccCorrected
  have k : AtRest t b (modEcc (fun e => { e with tickSram := 0, tickHbm := 0, tickLp := 0, tickReplays := 0, tickCandidates := 0 }) m) := by exact AtRest.of h _ rfl rfl rfl rfl rfl rfl rfl rfl rfl rfl rfl rfl rfl rfl rfl rfl rfl rfl
  dsimp only; split
  · exact k
  · exact atRest_emit k _ _ _ _
theorem atRest_health (h : AtRest t b m) (nv) : AtRest t b (flashHealth nv m) := by
  unfold flashHealth
  dsimp only
  split
  · exact h
  · have k := atRest_emit h 0 0x19 0 (le 1 (flashCode nv.flash.state) ++ le 1 (bit m.flashTick.changedTick + 2 * bit m.flashTick.lifeTick + 4 * bit (m.flashTick.retiredTick != 0)) ++ le 1 (min 255 nv.flash.lifePct) ++ le 2 nv.flash.sparePermille ++
        le 4 nv.flash.retired ++ le 2 m.flashTick.retiredTick ++
        le 1 (if nv.flash.state == .offline then nv.flash.channel else 0xFF))
    exact AtRest.of k _ rfl rfl rfl rfl rfl rfl rfl rfl rfl rfl rfl rfl rfl rfl rfl rfl rfl rfl
theorem atRest_stall (h : AtRest t b m) (c) : AtRest t b (tierStall c m) := by
  unfold tierStall; split
  · exact h
  · dsimp only
    generalize hb : (le 2 _ ++ _ : List Byte) = bs
    have k := atRest_emit h c 0x18 c bs
    have hi := k.idle
    refine ⟨⟨hi.up, hi.started, hi.runs, hi.mode, hi.stays, hi.seated, hi.halts, hi.cap, hi.shut, hi.clamps, hi.join, hi.sync, hi.peas, hi.reqs, hi.steps, ?_, hi.tens, hi.rebinds, hi.nodes, hi.lat, hi.tray, hi.writes, hi.rings, hi.plans, hi.ready, hi.fabric, hi.hbm, hi.lp, hi.flash⟩, k.tick, k.peas, k.ten, k.dev, k.devErr, k.slc, k.slcErr, k.cal⟩
    intro x hx
    obtain ⟨y, hy, e⟩ := mem_modAt hx
    have := hi.ctxs y hy
    rcases e with e | e <;> subst e <;> exact this
theorem atRest_treq (h : AtRest t b m) : AtRest t b (sendTreq m) := by
  unfold sendTreq; dsimp only; split
  · exact atRest_send h _
  · exact h
theorem atRest_block (h : AtRest t b m) : AtRest t b (keepStatusBlock m) := by
  unfold keepStatusBlock
  generalize statusBlock _ _ = z
  exact AtRest.of h _ rfl rfl rfl rfl rfl rfl rfl rfl rfl rfl rfl rfl rfl rfl rfl rfl rfl rfl
theorem atRest_idle (h : AtRest t b m) : AtRest t b (countIdle m) := atRest_modPwr h _ rfl rfl
theorem atRest_request (h : AtRest t b m) : AtRest t b (makeRequest m) := by
  unfold makeRequest
  dsimp only
  exact atRest_modPwr (atRest_modStp h _ rfl) _ rfl rfl
theorem atRest_gate (h : AtRest t b m) (p) : AtRest t b (gatePod p m) := by
  unfold gatePod; split
  · exact atRest_modPwr h _ rfl rfl
  · exact h
theorem atRest_latch (h : AtRest t b m) : AtRest t b (latchClampEnds m) := by
  have e : latchClampEnds m = modPwr (fun p => { p with clamps := p.clamps.map fun c => if 10000 ≤ c.clearUs then { c with ended := true } else c }) m := by
    unfold latchClampEnds; simp only [h.idle.clamps, List.filter_nil, forEach_nil]
  rw [e]
  exact atRest_modPwr h _ rfl (by simp [h.idle.clamps])
theorem atRest_calibrate (h : AtRest t b m) (hc : t.nowUs < b.pwr.lastCalUs + 1000000) : calibrate m = m := by
  unfold calibrate
  have : m.tick.nowUs < m.pwr.lastCalUs + 1000000 := by rw [h.tick.2, h.cal]; exact hc
  exact if_pos this
theorem close_id (h : Idle m) (c) : ctxCloseComplete c m = m := by
  unfold ctxCloseComplete; simp only [(idle_ctx h c).2.2.2.2.2.2.1]
theorem atRest_closeBoundary (h : AtRest t b m) (hc : t.nowUs < b.pwr.lastCalUs + 1000000) (r nv) : AtRest t b (closeBoundary r nv m) := by
  unfold closeBoundary
  have h1 := atRest_links h
  have s1 : (enableLinks m).stp.steps = [] := h1.idle.steps
  dsimp only
  generalize enableLinks m = m1 at *
  rw [forEach_id _ _ _ fun c _ => close_id h1.idle c, h.idle.steps, forEach_nil, slots_id h1.idle]
  have e1 : openSteps m1 = m1 := by simp [openSteps, s1, sortBy]
  rw [e1, atRest_watermarks h1, quar_id h1.idle]
  have h2 := atRest_overcommit (atRest_prefetch h1)
  generalize countOvercommit (kvPrefetch m1) = m2 at *
  rw [forEach_id _ closeWindows _ fun c _ => win_id h2.idle c]
  have h3 : AtRest t b (openPace (makePace r (sendTreq (makeRequest m2)))) := atRest_modPwr (atRest_pace (atRest_treq (atRest_request h2)) r) _ rfl rfl
  generalize openPace (makePace r (sendTreq (makeRequest m2))) = m3 at *
  have h4 := forEach_ind (AtRest t b) (List.range 48) gatePod (fun a m h => atRest_gate h a) _ (atRest_idle h3)
  generalize forEach (List.range 48) gatePod (countIdle m3) = m4 at *
  rw [atRest_calibrate h4 hc]
  refine atRest_block ?_
  exact forEach_ind (AtRest t b) _ tierStall (fun a m h => atRest_stall h a) _ (atRest_health (atRest_ecc (atRest_latch h4)) nv)
theorem ready_id (h : Idle m) (nv) : moduleReady nv m = (nv, m) := by
  have : (m.life.run != .up || m.life.stage != 7 || m.life.mode != .mgmt || m.ten.rebinds.any (·.acrossReset)) = true := by
    by_cases k : m.life.stage = 7
    · have := h.ready k; simp [k, this]
    · simp [k]
  unfold moduleReady; rw [if_pos this]
theorem announce_id (h : Idle m) (nv) : announceReady nv m = (nv, m) := by
  have : readyDue m = false := by rcases h.fabric with k | k <;> simp [readyDue, k]
  unfold announceReady; simp [this]

theorem end_eq (m : Mach) : (endWrites m).tick = m.tick ∧ (endWrites m).peas = m.peas ∧ (endWrites m).ten = m.ten ∧ (endWrites m).mem.dev = m.mem.dev ∧
    (endWrites m).mem.devErr = m.mem.devErr ∧ (endWrites m).mem.sliceMem = m.mem.sliceMem ∧ (endWrites m).mem.sliceErr = m.mem.sliceErr ∧ (endWrites m).reqs = m.reqs ∧ (endWrites m).chan = m.chan := by
  have h := quiet_endWrites m
  generalize endWrites m = m' at *
  refine ⟨congrArg (·.tick) h, congrArg (·.peas) h, congrArg (·.ten) h, congrArg (·.mem.dev) h, congrArg (·.mem.devErr) h, congrArg (·.mem.sliceMem) h, congrArg (·.mem.sliceErr) h, congrArg (·.reqs) h, congrArg (·.chan) h⟩
theorem boundary_run (nv : Nv) (m x : Mach) (h : turnipRuns m = true) (hx : classOne (fireBoundary nv m) = (x, false)) : boundary nv m = foldFlash (boundaryWork m.pwr.ran19 nv x) := by
  unfold boundary
  rw [if_neg (by simp [h]), hx]
  exact congrArg foldFlash (if_neg (by simp))
theorem work_eq (r : Bool) (nv : Nv) (m m1 : Mach) (x y z : Nv × Mach) (h1 : classThree nv.flash.state (classTwo m) = m1) (h2 : turnipRuns m1 = true)
    (h3 : classSix (nv, classFive nv.flash.state (classFour nv m1)) = x) (h4 : classSeven (moduleReady x.1 x.2) = y)
    (h5 : announceReady y.1 (closeBoundary r y.1 (clearTray y.2)) = z) : boundaryWork r nv m = (z.1, endWrites z.2) := by
  subst h5; subst h4; subst h3; subst h1
  unfold boundaryWork
  exact if_neg (by simp [h2])
theorem pair_of {nv : Nv} (P : Mach → Prop) (y : Nv × Mach) (h : y.1 = nv) (k : P y.2) : ∃ m', y = (nv, m') ∧ P m' := ⟨y.2, by subst h; rfl, k⟩
theorem seven (t b) (m : Mach) (nv : Nv) (h : AtRest t b m) : ∃ m1 m2, classSix (nv, m) = (nv, m1) ∧ classSeven (moduleReady nv m1) = (nv, m2) ∧ AtRest t b m2 := by
  obtain ⟨e1, q4⟩ := atRest_classSix h nv
  obtain ⟨m3, e3, q3⟩ := pair_of (AtRest t b) _ e1 q4
  obtain ⟨e2, q5⟩ := atRest_classSeven q3 nv
  obtain ⟨m4, e4, q6⟩ := pair_of (AtRest t b) _ e2 q5
  exact ⟨m3, m4, e3, by rw [ready_id q3.idle, e4], q6⟩

end Sys2Proof.Machine
end

