-- ==== Sys2Proof/Tests/Slice0.lean ====
section
/-! SUPPORT. Tests: an ill-formed term for every check of WellFormed, steps on small states whose results come from the
manual, and for every obligation with hypotheses a witness: states and operands that meet them together. -/

set_option Elab.async false

namespace Sys2Proof.Tests
open Sys2Proof.Machine

/-! ### Small states -/

/-- A header of a context's packet. -/
def hd (c q : Nat) : Hdr := { ctx := c, seq := q }

/-- The module in READY with its tick at 1,000, contexts 0 and 1 served, context 1 open in tenancy 0 with the expert right,
and tenancy 0 live with one key index, pod 0 and slice 0. -/
def rdy : State :=
  { nv := {}
    m := {
      tick := { count := 1000, nowUs := 50000, started := true }
      life := { mode := .ready, stage := 7 }
      host := { vfEnable := true, numVfs := 255, openAtStart := [1] }
      fns := { cmdEnable := true, cmdEnabled := true, evtEnable := true, evtEnabled := true } ::
        { cmdEnable := true, cmdEnabled := true, evtEnable := true, evtEnabled := true } :: List.replicate 254 {}
      ctxs := {} :: { isOpen := true, expert := true } :: List.replicate 254 {}
      ten := { tens := { live := true, keys := [{ slot := 0 }], sliceMap := [{ logical := 0, phys := 0 }] } :: List.replicate 47 {}
               pods := .ten 0 :: List.replicate 47 .free
               slices := .ten 0 :: List.replicate 183 .free
               keySlots := .drawn 1 :: List.replicate 255 .free } } }

/-- `rdy` with its machine changed. -/
def wit (f : Mach → Mach) : State := withM rdy (f rdy.m)

/-- `rdy` with context 1 changed. -/
def witC (f : Ctx → Ctx) : State := wit (modCtx 1 f)

/-- `rdy` with tenancy 0 changed. -/
def witT (f : Ten → Ten) : State := wit (modTen 0 f)

/-- A page of tenancy 0 under key index 0. -/
def pg (n : Nat) : Page := { ten := 0, num := n, key := 0 }

/-- A page of tenancy 0 in a tier. -/
def pgIn (t : Tier) (n : Nat) : Page := { pg n with tier := t }

/-- A page in LPDDR5X asked into HBM while another page's copies hold n HBM frames. -/
def crowded (n : Nat) : State :=
  wit (modMem fun x => { x with
    pages := [pgIn .lp 5, { pgIn .flash 6 with oldFrames := List.replicate n .hbm }]
    asks := [{ ten := 0, page := 5, dest := .hbm }] })

/-- With every frame so held, HBM has none free. -/
theorem crowded_full (n : Nat) (h : 913479 ≤ n) : freeFrames (crowded n).m .hbm = 0 := by
  have e : (List.replicate n Tier.hbm).countP (· == .hbm) = n := by simp [List.countP_replicate]
  simp only [crowded, freeFrames, usedFrames, pageFrames, wit, withM, modMem, List.foldl, tierFrames, e]
  omega

/-- The geometry of a small pool: a table in page 10, the pool in pages 20 and 21, its records in page 30. -/
def geo0 : KvAttach :=
  { pool := 0, kfmt := 1, h := 1, d := 64, groups := 1, layers := 1, streams := 2, maxBlocks := 2, tableBase := 10, tablePages := 1,
    poolBase := 20, poolPages := 2, recBase := 30, recPages := 1, hbmPages := 2, lpPages := 0, root := List.replicate 16 0 }

/-- Pages ready to be claimed by `geo0`. -/
def kvPages : Mach → Mach := modMem fun x => { x with pages := [pg 10, pg 20, pg 21, pg 30] }

/-- The pool of `geo0`, holding one slot of context 1. -/
def pool0 : Pool :=
  { num := 0, geo := geo0, tables := 1, refs := [(slotKey 20 0, 1)], entries := [(kvKey 1 0, { fill := 64, page := 20, slot := 0 })] }

/-- Context 1 with a table attached to `pool0`, one block of stream 0 mapped. -/
def kvOn (m : Mach) : Mach :=
  m |> modMem (fun x => { x with
        pages := [{ pg 10 with claim := 3, owner := 1 }, { pgIn .hbm 20 with claim := 1, pin := 1 }, { pg 21 with claim := 1 },
          { pg 30 with claim := 2 }] })
    |> modTen 0 (fun x => { x with pools := [pool0] })
    |> modCtx 1 (fun x => { x with table := some { pool := 0, streams := 2, maxBlocks := 2, base := 10, pages := 1 } })

/-- A ring of two modules along x. -/
def plan0 : Plan :=
  { rev := 1, dx := 2, dy := 1, dz := 1, id := 9
    nodes := [{ node := 0, x := 0, y := 0, z := 0, tray := 0, serial := 5, peers := [some (1, 1), some (1, 0), none, none, none, none] },
      { node := 1, x := 1, y := 0, z := 0, tray := 0, serial := 6, peers := [some (0, 1), some (0, 0), none, none, none, none] }] }

/-- The identity of node 1's port 1. -/
def ident1 : Ident :=
  { node := 1, port := 1, planLoaded := true, proto := 1, serial := 6, planId := 9 }

/-- This module is node 0 of `plan0`, fabric-ready, with its port 0 ACTIVE. -/
def net (m : Mach) : Mach :=
  { m with
    link := { m.link with enabled := true, plan := some plan0 }
    fab := { m.fab with node := some 0, ready := true, inForce := true, traySet := [0, 1], epoch := 7 } }
  |> modPort 0 (fun x => { x with state := .active, width := 16, proto := 1, peer := some ident1, accepted := true, selfPass := true, credit := 512 })

/-- A layer of one expert on node 1 with this module as its only source. -/
def lay0 : LayoutBlk :=
  { topk := 1, layer := 3, self := 0, layoutId := 1, srcCap := 4, rowUnits := 1, ansUnits := 1, xrec := 0, sources := [0], experts := [(0, 2)] }

/-- A queue for that layer. -/
def que0 : QueueBlk := { queue := 2, layoutId := 1, expert := 0, unitRows := 1, ctrl := 0, data := 0x10000, dataSlice := true }

/-- A collective of two. -/
def coll0 : CollBlk :=
  { kind := 1, wire := 1, rank := 0, order := 1, collId := 4, queue := 5, layer := 3, maxCount := 256, recv := 0x20000, nodes := [0, 1] }

/-- A loaded manifest of one shard of 3 bytes. -/
def man0 : Manifest :=
  { slot := 3, ctx := 1, seq := 0, loaded := true, len := 256, keyDigest := zeros 32, modelId := zeros 16, shards := [(3, sha256 [1, 2, 3])] }

/-- That shard, installed in page 40. -/
def shard0 : Shard :=
  { blk := { slot := 3, shard := 0, basePage := 40 }, ctx := 1, seq := 0, st := .installed, length := 3 }

/-- A unit of context 1 with one last descriptor. -/
def unit1 (b : DescBody) : WUnit :=
  { ctx := 1, ten := 0, seq := 0, unit := 1, descs := [{ last := true, ctx := 1, unit := 1, body := b }], layers := [(3, basicRecipe 1 1 false)] }

/-- `rdy` with pea 0 changed. -/
def witP (f : Pea → Pea) : State := wit (modPea 0 f)

/-- `rdy` with pea 0 in a state, at the descriptor given. -/
def atDesc (st : PeaSt) (b : DescBody) : State := witP fun a => { a with active := some (unit1 b), st }

/-- `rdy` with pea 0 running a program, layer 3 selected. -/
def runs : State := witP fun a => { a with active := some (unit1 (.run 0 0 [])), st := .run, cold := false, layerSet := true, layerSel := 3 }

/-- A tile of one row and one column over no products. -/
def mat0 : MatOp :=
  { rowsM := 1, cols := 1, k0 := 0, k1 := 0, codeBase := 0, paramBase := 0, blkCol := 1, elemBase := 0, sideBase := 0, spillBase := 0,
    grpRow := 1, accBase := 0, fromZero := true }

/-- A header of a round's rows. -/
def exp0 : ExpHdr := { layoutId := 1, round := 0, index := 0, count := 1, dropped := 0, type := 1 }

/-- The queue of `que0` awaiting the one source of its layer. -/
def queS (f : Queue → Queue) : Mach → Mach := fun m =>
  m |> modCtx 1 (fun x => { x with layouts := [{ blk := lay0 }] }) |> modTen 0 (fun x => { x with queues := [f { num := 2, ctx := 1, blk := que0 }] })

/-- A tag of row 0, rank 0 for slot 3, generation 5. -/
def tag0 : RowTag := { slot := 3, gen := 5, row := 0, rank := 0, status := 0, round := 0, source := 0, expert := 0 }

/-- The open round of layer 3 with its gather area at 0. -/
def layS (f : Layout → Layout) : Mach → Mach := fun m =>
  m |> modCtx 1 (fun x => { x with
        layouts := [f { blk := lay0, isOpen := true, rows := 1, startTick := 992 }], slots := [{ slot := 3, allocated := true, gen := 5 }] })
    |> slPut 0 0 (tagBytes tag0)

/-- A step of two phases whose first is done, the second an expert phase of layer 3. -/
def step0 : Step :=
  { ctx := 1, seq := 0, opened := some 999, areaDone := true, main := { phase := 0, pass := 0, passes := 1, peas := 1, placed := 1 }
    blk := { phases := 2, resultBytes := 32, plan := 0, inSlice := 0, inBytes := 64, resSlice := 0, outPtr := 0, entries := [] } }

theorem actsOf {p : Packet} {s : State}
    (h : (canServe s.m p && hasRoom s.m p.hdr.ctx p.info.urgent (p.extra s.m) && (firstFail s.nv (passPacket p.hdr.ctx p.info.urgent s.m) p).isNone &&
      (turnedAway s.m p).isNone && (findReq s.m p.hdr.ctx p.info.urgent p.hdr.seq).isNone && !s.m.life.removal && !s.m.life.replay &&
      !s.m.host.stopped) = true) : Acts p s := by
  simp only [Bool.and_eq_true, Option.isNone_iff_eq_none, Bool.not_eq_true'] at h
  obtain ⟨⟨⟨⟨⟨⟨⟨a, b⟩, c⟩, d⟩, e⟩, f⟩, g⟩, i⟩ := h
  exact ⟨a, b, c, d, e, f, g, i⟩

theorem landsOf {c : Nat} {s : State} (h : (reachable s.m c && isUp s.m && s.m.life.mode != .boot) = true) : Lands c s := by
  simp only [Bool.and_eq_true, bne_iff_ne] at h
  exact ⟨h.1.1, h.1.2, h.2⟩

/-- What a result that is no error holds. -/
def okOf {ε α : Type} : (x : Except ε α) → x.isOk = true → α
  | .ok a, _ => a

theorem okOf_eq {ε α : Type} : (x : Except ε α) → (h : x.isOk = true) → x = .ok (okOf x h)
  | .ok _, _ => rfl

/-- Whether a read succeeds. -/
def rdOk : Rd → Bool
  | .ok _ => true
  | _ => false

/-- What a read that succeeds gives. -/
def rdOf : (x : Rd) → rdOk x = true → List Byte
  | .ok bs, _ => bs

theorem rdOf_eq : (x : Rd) → (h : rdOk x = true) → x = .ok (rdOf x h)
  | .ok _, _ => rfl

/-- The collective of `coll0` on pea 0 of a group of two. -/
def collS (f : Coll → Coll) : State :=
  wit (modTick (fun t => { t with members := [0, 1] }) ∘ net ∘ modPea 0 (fun a => { a with active := some (unit1 (.run 0 0 [])), st := .run }) ∘
    modCtx 1 (fun x => { x with colls := [f { blk := coll0 }] }))

/-- Tenancy 0 with the manifest of `man0` and one shard of it. -/
def shardS (k : Shard) : State := witT fun x => { x with manifests := [man0], shards := [k] }

/-- A load of 64 bytes from node 1. -/
def req0 : FabReq := { ten := 0, ctx := 1, seq := 0, type := 1, node := 1, offset := 0, len := 64 }

/-- `rdy` on the fabric with one request outstanding, a timeout's time after it was sent. -/
def outS (o : Outreq) : State := wit (modFab (fun f => { f with out := [o] }) ∘ net)

/-- `rdy` on the fabric, its tenancy 0 open to loads of node 1 and its peer's epoch known. -/
def inS : State :=
  wit (modFab (fun f => { f with srcEpochs := [(1, 3)] }) ∘ net ∘ fun m => { m with ten := { m.ten with
    grants := [{ entry := 0, valid := true, localTen := 0, srcNode := 1, srcFtid := 2, basePage := 0, pages := 1, rights := 15 }] } })

/-- A load that node 1 sends. -/
def load0 : FabPkt := { type := 1, src := 1, dst := 0, ftid := 2, order := 1, len := 64, srcEpoch := 3, dstEpoch := 7 }

/-- `rdy` on the fabric with its port 0 changed. -/
def portS (f : Port → Port) : State := wit (modPort 0 f ∘ net)

/-- The TSYNC of node 1 for the next boundary of group 3. -/
def sync0 : Tsync :=
  { group := 3, tick := 1001, periodUs := 50, step := 0, nextStep := 0, nextPeriodUs := 50, pathDelayNs := 3000, hops := 23, rootNode := 1 }

/-- `rdy` as a member of group 3, its upstream port 0. -/
def memS (f : TickSt → TickSt) : State :=
  wit (modTick (fun t => f { t with root := false, group := 3, upstream := 0, members := [0, 1], formed := true, rootNode := 1 }) ∘ net)

/-- A step of one phase that has not opened, its plan in page `n`. -/
def stepN (n : Nat) : Step :=
  { ctx := 1, seq := 0
    blk := { phases := 1, resultBytes := 32, plan := n * pageSize, inSlice := 0, inBytes := 64, resSlice := 0, outPtr := 0, entries := [] } }

/-- `step0` with its plan in page 0. -/
def expS (m : Mach) : Mach :=
  m |> modMem (fun x => { x with pages := [pgIn .hbm 0] }) |> devPut 0 64 [3, 0, 1] |> modStp (fun x => { x with steps := [step0] })

/-- Tenancy 0 in a rebind. -/
def rebS (r : Rebind) : State := wit fun m => { m with ten := { m.ten with rebinds := [r] } }

/-- `rdy` with its tray port up, changed. -/
def trayS (f : I3cSt → I3cSt) : State := wit (modI3c fun x => f { x with portUp := true })

/-- `rdy` with its lifecycle changed, the switch conducting. -/
def lifeS (f : LifeSt → LifeSt) : State := wit (modLife fun l => f { l with switchOn := true })

/-- `rdy` with function 1 changed. -/
def fnS (f : Fn → Fn) : State := wit (modFn 1 f)

/-- A flit of a kind and sequence number, all else in it zero, under its CRC. -/
def flitOf (kind seq : Nat) : Flit :=
  { bytes := le 2 (kind * 4096 + seq) ++ zeros 246 ++ le 8 (crc64 (le 2 (kind * 4096 + seq) ++ zeros 246)) }

/-- Its CRC holds. -/
theorem flitOf_crc (kind seq : Nat) : flitCrcOk (flitOf kind seq) = true := by
  have len : (le 2 (kind * 4096 + seq) ++ zeros 246).length = 248 := by
    rw [List.length_append, le_length, zeros, List.length_replicate]
  generalize hb : le 2 (kind * 4096 + seq) ++ zeros 246 = b at len
  have lt : crc64 b < 18446744073709551616 := BitVec.isLt _
  simp [flitCrcOk, flitOf, field, hb, len, List.take_of_length_le, unle_le, Nat.mod_eq_of_lt lt]

/-- A DATA flit. -/
def flit0 : Flit := flitOf 1 0

/-- A boundary of `rdy` finds nothing to act on. -/
theorem rdy_idle : Idle rdy.m := by
  constructor <;> decide +kernel

/-- Nor does it once that boundary has fired. -/
theorem rdy_fired : AtRest { rdy.m.tick with count := 1001, nowUs := 50050 } rdy.m (fireBoundary rdy.nv rdy.m) :=
  atRest_fireBoundary ⟨rdy_idle, ⟨rfl, rfl⟩, rfl, rfl, rfl, rfl, rfl, rfl, rfl⟩ rdy.nv

/-- A header. -/
def h0 : Hdr := hd 1 0
/-- A packet of node 1. -/
def pkt0 : FabPkt := { type := 1, src := 1, dst := 0, ftid := 0 }
/-- A PREFIX block of nothing. -/
def pre0 : PrefixBlk := { stream := 0, firstBlock := 0, blocks := 0, parent := zeros 16, outPtr := 0, tokens := [] }
/-- A collective's header. -/
def ch0 : CollHdr := { collId := 4, round := 0, stage := 0, sender := 1, count := 256 }
/-- A TREQ. -/
def treq0 : Treq := { group := 3, tick := 1000, node := 1, reqStep := 2, cause := 1 }
/-- A notice. -/
def note0 : Notice := { origin := 1, number := 1, kind := .leaving }
/-! ### Worked examples of the manual, and published values of the standards it names -/

/-- The element bytes, side record, code bytes and scale byte of chapter 4's worked example (after R108). -/
def zq2Acts : Mem :=
  memWrite 256 (padTo 36 [0x7E, 1, 0, 0, 9, 0, 0x20, 0x42]) (memWrite 0 [10, 0xFC, 7, 2, 0xFF, 3, 0, 5] [])
/-- Its weights. -/
def zq2Weights : Mem := memWrite 64 [0x7C] (memWrite 0 [0x1B, 0xE4, 0x00, 0x55, 0x55, 0x55, 0x55, 0x55] [])
/-- Its instruction: one row, one column, one block, added to 1.25. -/
def zq2Op : MatOp := { mat0 with k1 := 32, paramBase := 64, sideBase := 256, spillBase := 1024, fromZero := false }

/-- Chapter 4: 1.25 - 6.625 = -5.375 on the fast path. -/
theorem test_zq2_fast :
    (matRun (basicRecipe 7 3 false) zq2Weights zq2Acts [(0, 0x3FA00000)] zq2Op).accs = [(0, 0xC0AC0000)] := by decide +kernel

/-- Chapter 4: and the same in reference mode. -/
theorem test_zq2_reference :
    (matRun (basicRecipe 7 3 true) zq2Weights zq2Acts [(0, 0x3FA00000)] zq2Op).accs = [(0, 0xC0AC0000)] := by decide +kernel

/-- Chapter 9, after R217: the FR4 block of 1.5, -0.75, 0.25, 0, 3.0, -3.0, 0.5 and 1.0, with two underflows. -/
theorem test_fr4_encode :
    (frEncode 1 ([0x3FC0, 0xBF40, 0x3E80, 0, 0x4040, 0xC040, 0x3F00, 0x3F80].flatMap (le 2))).1 = [0x7F, 0x2A, 0xB0, 0x23] := by
  decide +kernel

/-- Chapter 9: and what it decodes to. -/
theorem test_fr4_decode : (frDecode 1 [0x7F, 0x2A, 0xB0, 0x23]).1 =
    [0x4000, 0xBF80, 0, 0, 0x4040, 0xC040, 0, 0x3F80].flatMap (le 2) := by decide +kernel

/-- Chapter 10, after R235: with H 8, D 128 and E4M3, TR is 2,112 and a slot 147,456. -/
theorem test_kv_slot : tokenRec { geo0 with h := 8, d := 128 } = 2112 ∧ slotBytes { geo0 with h := 8, d := 128 } = 147456 := by
  decide +kernel

/-- R193: every single wrong bit of a stored byte is corrected. -/
theorem test_hamming_corrects : ((List.range 13).all fun i => hamDecode (hamEncode 0xA5 ^^^ BitVec.ofNat 13 (2 ^ i)) == some 0xA5) = true := by
  decide +kernel

/-- R193: every two wrong bits of it are detected. -/
theorem test_hamming_detects :
    ((List.range 13).all fun i => (List.range i).all fun j => hamDecode (hamEncode 0xA5 ^^^ BitVec.ofNat 13 (2 ^ i + 2 ^ j)) == none) = true := by
  decide +kernel

/-- R198: CRC-32C, by the check value published with its polynomial. -/
theorem test_crc32c : crc32c [0x31, 0x32, 0x33, 0x34, 0x35, 0x36, 0x37, 0x38, 0x39] = 0xE3069283 := by decide +kernel

/-- R149: AES-256, by the example of FIPS 197, appendix C.3. -/
theorem test_aes256 :
    aesEncrypt (aesKeys ((List.range 32).map (BitVec.ofNat 8))) ((List.range 16).map fun i => BitVec.ofNat 8 (17 * i)) =
      [0x8E, 0xA2, 0xB7, 0xCA, 0x51, 0x67, 0x45, 0xBF, 0xEA, 0xFC, 0x49, 0x90, 0x4B, 0x49, 0x60, 0x89] := by decide +kernel

/-- R455, R81: SHA-256 of "abc", by FIPS 180-4. -/
theorem test_sha256 : (sha256 [0x61, 0x62, 0x63]).take 8 = [0xBA, 0x78, 0x16, 0xBF, 0x8F, 0x01, 0xCF, 0xEA] := by decide +kernel

/-- Table 4.1: the largest finite E4M3 and E5M2 values, and R91: a value beyond them saturates. -/
theorem test_elements : (toElem .e4m3 (elemNum .e5m2 0x7B)).code = 0x7E ∧ numFp (elemNum .e4m3 0x7E) = 0x43E00000 := by decide +kernel

/-! ### WellFormed refuses an ill-formed term for each of its checks, and takes the terms they are made from -/

/-- WellFormed refuses these. -/
theorem test_wf_refuses_pea_1 : ([
    .stepOpen (2 ^ 8) 0, .stepOpen 0 (2 ^ 32), .slotDrain (2 ^ 8) 0, .slotDrain 0 (2 ^ 12), .ctxCloseComplete (2 ^ 8),
    .unitCut (2 ^ 8) 0, .unitCut 0 (2 ^ 32), .turnipQueueWrite 192 .ready,
    .turnipQueueWrite 0 (.entry 32 { ctx := 0, unit := 0, body := .reserved }), .peaStaggerStart 192, .engineColdStart 192,
    .workUnitComplete 192, .descRun 192, .move 192, .moveComplete 192, .descWait 192, .descWaitSatisfied 192, .descPost 192,
    .peaLoad 192 0 0 (.scalar 0), .peaLoad 0 (2 ^ 32) 0 (.scalar 0), .peaLoad 0 0 0 (.scalar 32), .peaStore 192 0 [],
    .peaStore 0 (2 ^ 32) [], .sliceAtomic 192 0 false .add 0 0 0, .sliceAtomic 0 (2 ^ 32) false .add 0 0 0,
    .sliceAtomic 0 0 false .add 0 0 32, .fence 192, .align 192 0 0, .align 0 16 0, .align 0 0 (2 ^ 8), .alignFail 48 0,
    .alignFail 0 16, .quant 192 0 0 0 0, .quant 0 32 0 0 0, .quant 0 0 (2 ^ 32) 0 0, .quant 0 0 0 (2 ^ 32) 0,
    .quant 0 0 0 0 (2 ^ 32), .matrixInstruction 192 { mat0 with k1 := 1 }, .matrixInstruction 0 { mat0 with rowsM := 3 },
    .layer 192 0] : List Instr).all (fun i => !i.wf) = true := by decide +kernel

/-- WellFormed refuses these. -/
theorem test_wf_refuses_pea_2 : ([
    .layer 0 (2 ^ 10), .tile 192, .vectorOperation 192 .sum 0 0 0 0, .vectorOperation 0 .sum 32 0 0 0,
    .vectorOperation 0 .sum 0 32 0 0, .vectorOperation 0 .sum 0 0 32 0, .vectorOperation 0 .sum 0 0 0 32,
    .topk 192 0 0 0 0 0, .topk 0 (2 ^ 32) 0 0 0 0, .topk 0 0 (2 ^ 16) 0 0 0, .topk 0 0 0 (2 ^ 8) 0 0,
    .topk 0 0 0 0 (2 ^ 32) 0, .topk 0 0 0 0 0 (2 ^ 32), .astat 192 0 0 0 0 0 0, .astat 0 (2 ^ 32) 0 0 0 0 0,
    .astat 0 0 32 0 0 0 0, .astat 0 0 0 0 0 32 0, .astat 0 0 0 0 0 0 32, .anorm 192 0 0 0, .anorm 0 (2 ^ 32) 0 0,
    .anorm 0 0 32 0, .anorm 0 0 0 32, .arecomp 192 0 0 0 0 0, .arecomp 0 (2 ^ 32) 0 0 0 0, .arecomp 0 0 32 0 0 0,
    .arecomp 0 0 0 0 0 32, .fatom 192 0 0 0 0 0 0 0, .fatom 0 (2 ^ 8) 0 0 0 0 0 0, .fatom 0 0 (2 ^ 8) 0 0 0 0 0,
    .fatom 0 0 0 (2 ^ 8) 0 0 0 0, .fatom 0 0 0 0 0 0 0 (2 ^ 32), .collect 192 0 0 0 0 0 0, .collect 0 (2 ^ 32) 0 0 0 0 0,
    .collect 0 0 (2 ^ 32) 0 0 0 0, .collect 0 0 0 (2 ^ 32) 0 0 0, .collect 0 0 0 0 (2 ^ 32) 0 0,
    .collect 0 0 0 0 0 (2 ^ 32) 0, .collect 0 0 0 0 0 0 (2 ^ 32), .returnAnswer 192 0 0 0 0, .returnAnswer 0 48 0 0 0] : List Instr).all (fun i => !i.wf) = true := by decide +kernel

/-- WellFormed refuses these. -/
theorem test_wf_refuses_pea_3 : ([
    .returnAnswer 0 0 (2 ^ 10) 0 0, .returnAnswer 0 0 0 (2 ^ 32) 0, .returnAnswer 0 0 0 0 (2 ^ 32)] : List Instr).all (fun i => !i.wf) = true := by decide +kernel

/-- WellFormed refuses these. -/
theorem test_wf_refuses_exchange_1 : ([
    .exchangeRoundStart (2 ^ 8) 0, .exchangeRoundStart 0 (2 ^ 10), .queueHeaderReceive 48 0 exp0,
    .queueHeaderReceive 0 (2 ^ 16) exp0, .queueHeaderReceive 0 0 { exp0 with type := 256 },
    .queueRowReceive 48 0 0 0 tag0 [], .queueRowReceive 0 (2 ^ 16) 0 0 tag0 [], .queueRowReceive 0 0 (2 ^ 32) 0 tag0 [],
    .queueRowReceive 0 0 0 (2 ^ 16) tag0 [], .queueRowReceive 0 0 0 0 { tag0 with gen := 65536 } [],
    .queueReturnHeaders 48 0, .queueReturnHeaders 0 (2 ^ 16), .gatherAnswerReceive (2 ^ 8) 0 tag0 [],
    .gatherAnswerReceive 0 (2 ^ 10) tag0 [], .gatherAnswerReceive 0 0 { tag0 with gen := 65536 } [],
    .gatherReturnHeader (2 ^ 8) 0 exp0, .gatherReturnHeader 0 (2 ^ 10) exp0,
    .gatherReturnHeader 0 0 { exp0 with type := 256 }, .expertRoundDeadline (2 ^ 8) 0, .expertRoundDeadline 0 (2 ^ 10),
    .collHeaderReceive (2 ^ 8) ch0, .collHeaderReceive 0 { ch0 with count := 2 ^ 24 }, .collRoundDeadline (2 ^ 8) 0,
    .collRoundDeadline 0 (2 ^ 32), .shardChunkProcess 48 0 0 [] false false, .shardChunkProcess 0 16 0 [] false false,
    .shardChunkProcess 0 0 (2 ^ 16) [] false false, .shardInstallFinalize 48 0 0, .shardInstallFinalize 0 16 0,
    .shardInstallFinalize 0 0 (2 ^ 16), .shardUpstreamTimeout 48 0 0, .shardUpstreamTimeout 0 16 0,
    .shardUpstreamTimeout 0 0 (2 ^ 16)] : List Instr).all (fun i => !i.wf) = true := by decide +kernel

/-- WellFormed refuses these. -/
theorem test_wf_refuses_tiers_1 : ([
    .promotionStart 48 0 1, .promotionStart 0 (2 ^ 24) 1, .promotionStart 0 0 4, .migrationCommit 48 0 [],
    .migrationCommit 0 (2 ^ 24) [], .migrationCommit 0 0 [(2 ^ 22, 0)], .lpVerifyPass [(48, 0, 0, 0)], .sramScrubPass [0] [],
    .sramScrubPass [] [0], .hbmScrubPass [(0, none)] [] [], .hbmScrubPass [] [{}] [], .sourceFrameRelease 48 0,
    .sourceFrameRelease 0 (2 ^ 24), .stallLimitExpiry 193, .kvFlashDemote 48 0, .kvFlashDemote 0 8, .scrubForcedGrant 192,
    .lpLinkRetry { who := .pea 192, num := 0 } false, .hbmCaParityReissue { who := .pea 192, num := 0 } false,
    .turnipParityReplay 8 false, .turnipWatchdogExpiry 8, .uncorrectableRead .slice (.pea 192) { loc := 0, view := 0 } {},
    .uncorrectableRead .slice .host { loc := 0, view := 0 } { flips := [(72, 1)] },
    .datapathParityReplay { who := .pea 192, num := 0 } 0 false, .datapathParityReplay { who := .host, num := 0 } 7 false,
    .flashStateChange .warn (2 ^ 8), .flashDieLoss (2 ^ 8) 0 false, .flashChannelRetrain (2 ^ 8), .rowRemapCopyDone 24,
    .mergeEntryClose 192 0, .mergeEntryClose 0 32768, .matrixEngineCold 192, .podUngateDone 48, .podGate 48] : List Instr).all (fun i => !i.wf) = true := by decide +kernel

/-- WellFormed refuses these. -/
theorem test_wf_refuses_admin_1 : ([
    .nop { ctx := 256, seq := 0 }, .identify { ctx := 0, seq := 2 ^ 32 } 0, .identify h0 (2 ^ 64),
    .countersRead h0 (2 ^ 8) 0 0 0 0, .countersRead h0 0 (2 ^ 8) 0 0 0, .countersRead h0 0 0 (2 ^ 16) 0 0,
    .countersRead h0 0 0 0 (2 ^ 16) 0, .countersRead h0 0 0 0 0 (2 ^ 64), .planLoad h0 (2 ^ 64) 0, .planLoad h0 0 (2 ^ 32),
    .fwBankBegin h0 (2 ^ 32), .fwBankData h0 (2 ^ 32) 0 0, .fwBankData h0 0 (2 ^ 64) 0, .fwBankData h0 0 0 (2 ^ 32),
    .attest h0 (zeros 3) 0, .attest h0 (zeros 32) (2 ^ 64), .setGuard h0 (2 ^ 8), .tenCreate h0 (2 ^ 8) 0 0,
    .tenCreate h0 0 (2 ^ 8) 0, .tenCreate h0 0 0 (2 ^ 16), .tenRebind h0 (2 ^ 8) 0 0 0 0, .tenRebind h0 0 (2 ^ 8) 0 0 0,
    .tenRebind h0 0 0 (2 ^ 48) 0 0, .tenRebind h0 0 0 0 (2 ^ 64) 0, .tenRebind h0 0 0 0 0 (2 ^ 184),
    .rebindFlashClearDone (2 ^ 32), .rebindCryptoEraseDone (2 ^ 32), .rebindResetDone (2 ^ 32), .tenDestroy h0 (2 ^ 8),
    .ctxOpen h0 (2 ^ 8) 0 false 0, .ctxOpen h0 0 (2 ^ 8) false 0, .ctxOpen h0 0 0 false (2 ^ 8), .ctxClose h0 (2 ^ 8),
    .grantSet h0 { entry := 0, valid := false, pages := 2 ^ 24 }, .ctxSched h0 (2 ^ 8) 0, .ctxSched h0 0 (2 ^ 8),
    .recipeSet h0 (2 ^ 16) false (basicRecipe 1 1 false),
    .recipeSet h0 0 false { basicRecipe 1 1 false with satPpm := 65536 }, .recipeGet h0 (2 ^ 16) 0, .recipeGet h0 0 (2 ^ 64)] : List Instr).all (fun i => !i.wf) = true := by decide +kernel

/-- WellFormed refuses these. -/
theorem test_wf_refuses_admin_2 : ([
    .cmpTableLoad h0 (2 ^ 8) 0, .cmpTableLoad h0 0 (2 ^ 64), .cmpTableHold h0 (2 ^ 8), .cmpTableUnhold h0 (2 ^ 8),
    .cmpTableStatus h0 (2 ^ 64), .capSet h0 (2 ^ 16), .stepLimit h0 (2 ^ 8), .energyRead h0 (2 ^ 8) 0 0,
    .energyRead h0 0 (2 ^ 8) 0, .energyRead h0 0 0 (2 ^ 64), .captureStart h0 false false (2 ^ 8) 0 0,
    .captureStart h0 false false 0 (2 ^ 16) 0, .captureStart h0 false false 0 0 (2 ^ 32),
    .captureStop h0 false false (2 ^ 64), .captureExport h0 (2 ^ 64) 0 0, .captureExport h0 0 (2 ^ 64) 0,
    .captureExport h0 0 0 (2 ^ 64), .abort h0 (2 ^ 32), .cancel h0 (2 ^ 16) 0 false, .cancel h0 0 (2 ^ 16) false] : List Instr).all (fun i => !i.wf) = true := by decide +kernel

/-- WellFormed refuses these. -/
theorem test_wf_refuses_serving_1 : ([
    .kvTableAttach h0 { geo0 with root := [] }, .kvTableStatus h0 (2 ^ 64), .kvMapCopy h0 (2 ^ 16) 0 0 0 0,
    .kvMapCopy h0 0 (2 ^ 16) 0 0 0, .kvMapCopy h0 0 0 (2 ^ 16) 0 0, .kvMapCopy h0 0 0 0 (2 ^ 16) 0,
    .kvMapCopy h0 0 0 0 0 (2 ^ 16), .kvMapMove h0 (2 ^ 16) 0 0 0 0, .kvMapMove h0 0 (2 ^ 16) 0 0 0,
    .kvMapMove h0 0 0 (2 ^ 16) 0 0, .kvMapMove h0 0 0 0 (2 ^ 16) 0, .kvMapMove h0 0 0 0 0 (2 ^ 16), .kvUnmap h0 (2 ^ 16) 0,
    .kvUnmap h0 0 (2 ^ 32), .prefixInsert h0 { pre0 with parent := [] }, .prefixLookup h0 { pre0 with parent := [] },
    .prefixDrop h0 false (zeros 3), .kvPin h0 (2 ^ 16) 0 0 false, .kvPin h0 0 (2 ^ 16) 0 false, .kvPin h0 0 0 (2 ^ 16) false,
    .stepSubmit h0 { step0.blk with riders := 256 }, .slotAlloc h0 (2 ^ 16) 0, .slotAlloc h0 0 (2 ^ 16),
    .slotRelease h0 (2 ^ 16) 0 false, .slotRelease h0 0 (2 ^ 16) false, .prefillRatio h0 (2 ^ 16) 0 0 false,
    .prefillRatio h0 0 (2 ^ 8) 0 false, .prefillRatio h0 0 0 (2 ^ 16) false,
    .expLayoutInstall h0 { lay0 with sources := [4096] }, .expLayoutRemove h0 (2 ^ 16),
    .expQueuePost h0 { que0 with args := List.replicate 8 0 }, .expQueueUnpost h0 (2 ^ 16), .expShared h0 (2 ^ 16) 0 false 0,
    .expShared h0 0 (2 ^ 8) false 0, .expShared h0 0 0 false (2 ^ 48), .memAlloc h0 (2 ^ 24) 0 0, .memAlloc h0 0 (2 ^ 24) 0,
    .memAlloc h0 0 0 (2 ^ 8), .memFree h0 (2 ^ 24) 0, .memFree h0 0 (2 ^ 24)] : List Instr).all (fun i => !i.wf) = true := by decide +kernel

/-- WellFormed refuses these. -/
theorem test_wf_refuses_serving_2 : ([
    .memPin h0 (2 ^ 24) 0 0, .memPin h0 0 (2 ^ 24) 0, .memPin h0 0 0 (2 ^ 8), .memDemote h0 (2 ^ 24) 0 0,
    .memDemote h0 0 (2 ^ 24) 0, .memDemote h0 0 0 (2 ^ 8), .memPrefetch h0 (2 ^ 24) 0, .memPrefetch h0 0 (2 ^ 24),
    .migratePolicy h0 false false (2 ^ 16) false, .groupJoin h0 (2 ^ 12) 0 0 [], .groupJoin h0 0 (2 ^ 12) 0 [],
    .groupJoin h0 0 0 (2 ^ 64) [], .groupJoin h0 0 0 0 [2 ^ 12], .collSetup h0 { coll0 with nodes := [4096] },
    .collRemove h0 (2 ^ 32), .portReset h0 (2 ^ 8), .remapAccept h0 (2 ^ 8) 0 0 0, .remapAccept h0 0 (2 ^ 16) 0 0,
    .remapAccept h0 0 0 (2 ^ 8) 0, .remapAccept h0 0 0 0 (2 ^ 64), .manifestLoad h0 (2 ^ 8) 0 0 (zeros 32),
    .manifestLoad h0 0 (2 ^ 64) 0 (zeros 32), .manifestLoad h0 0 0 (2 ^ 32) (zeros 32), .manifestLoad h0 0 0 0 (zeros 3),
    .manifestCheckDone 48 0, .manifestCheckDone 0 16, .manifestUnload h0 (2 ^ 8),
    .shardInstall h0 { slot := 0, shard := 0, basePage := 2 ^ 24 }, .shardRemove h0 (2 ^ 8) 0, .shardRemove h0 0 (2 ^ 16),
    .shardVerify h0 (2 ^ 8) 0, .shardVerify h0 0 (2 ^ 16), .verifyInterval h0 (2 ^ 16), .replayBoundary false false 8] : List Instr).all (fun i => !i.wf) = true := by decide +kernel

/-- WellFormed refuses these. -/
theorem test_wf_refuses_fabric_1 : ([
    .tsyncReceive 6 sync0, .tsyncReceive 0 { sync0 with group := 4096 }, .treqReceive 6 treq0,
    .treqReceive 0 { treq0 with node := 65536 }, .portDelayMeasure 6 0, .portDelayMeasure 0 (2 ^ 16),
    .fabricRequestIssue { req0 with payload := zeros 257 }, .fabricPacketForward { pkt0 with src := 4096 },
    .fabricRequestReceive { pkt0 with src := 4096 }, .fabricCompletionReceive { pkt0 with src := 4096 },
    .fabricTimeout (2 ^ 16), .fabricHoldSend (2 ^ 12) 0, .fabricHoldSend 0 (2 ^ 16), .fabricHoldReceive (2 ^ 16),
    .fabricNotReadyRetry (2 ^ 16), .fabricNotReadyExpiry (2 ^ 16), .replayEntryAge (2 ^ 12) 0, .replayEntryAge 0 (2 ^ 16),
    .noticeReceive 6 note0, .noticeReceive 0 { note0 with origin := 4096 }, .linkFlitReceive 6 flit0,
    .linkFlitReceive 0 { flit0 with bytes := zeros 255 }, .linkReplayTimeout 6, .linkDetectStart 6, .linkPartnerDetect 6,
    .linkEqualizeDone 6 0 0, .linkEqualizeDone 0 17 0, .linkEqualizeDone 0 0 (2 ^ 18), .linkIdentityReceive 6 (zeros 64),
    .linkIdentityReceive 0 (zeros 63), .linkIdentifyTimeout 6, .linkRetryTimer 6, .linkNoticeReceive 6 false,
    .linkLaneFail 6 0, .linkLaneFail 0 18, .linkLaneSubstitute 6 0 0, .linkLaneSubstitute 0 16 0, .linkLaneSubstitute 0 0 19,
    .linkWidthRelockDone 6, .linkLockLoss 6] : List Instr).all (fun i => !i.wf) = true := by decide +kernel

/-- WellFormed refuses these. -/
theorem test_wf_refuses_fabric_2 : ([
    .telemetrySample { milliVolt := 0, current10mA := 0, tj := 256 }, .supplyShutdown 4] : List Instr).all (fun i => !i.wf) = true := by decide +kernel

/-- WellFormed refuses these. -/
theorem test_wf_refuses_i3c_1 : ([
    .i3cLease (2 ^ 32) 0 0, .i3cLease 0 (2 ^ 16) 0, .i3cLease 0 0 (2 ^ 16), .i3cResetCold (2 ^ 32) false,
    .i3cResetWarm (2 ^ 32), .i3cNode (2 ^ 32) 0, .i3cNode 0 (2 ^ 16), .i3cCoolant (2 ^ 32) 0 0, .i3cCoolant 0 32768 0,
    .i3cCoolant 0 0 65536, .i3cAlarm (2 ^ 32) 0, .i3cAlarm 0 (2 ^ 8), .i3cPlanBlock (2 ^ 32) 0 false [],
    .i3cPlanBlock 0 (2 ^ 32) false [], .i3cPlanBlock 0 0 false (zeros 1025), .i3cFwBlockBegin (2 ^ 32) 0,
    .i3cFwBlockBegin 0 (2 ^ 32), .i3cFwBlockData (2 ^ 32) 0 [], .i3cFwBlockData 0 (2 ^ 32) [],
    .i3cFwBlockData 0 0 (zeros 1025), .i3cFwBlockAbandon (2 ^ 32), .i3cFwBlockCommit (2 ^ 32), .i3cRecovery (2 ^ 32) 0 0 [],
    .i3cRecovery 0 (2 ^ 8) 0 [], .i3cRecovery 0 0 (2 ^ 32) [], .i3cRecovery 0 0 0 (zeros 1025), .i3cEnec (2 ^ 8),
    .i3cDisec (2 ^ 8), .i3cEntdaa (2 ^ 7), .i3cSetdasa (2 ^ 7), .i3cSetnewda (2 ^ 7), .i3cSetmwl (2 ^ 16),
    .i3cSetmrl (2 ^ 16), .i3cRstact (2 ^ 8)] : List Instr).all (fun i => !i.wf) = true := by decide +kernel

/-- WellFormed refuses these. -/
theorem test_wf_refuses_host_1 : ([
    .bootBankSelect 9 [], .bootBankSelect 0 [192], .cxlLinkTrain (2 ^ 4) 0 false false false 0,
    .cxlLinkTrain 5 (2 ^ 4) false false false 0, .cxlLinkTrain 5 0 false false false (2 ^ 8), .cmdRingEnable 256 0,
    .cmdRingEnable 0 (2 ^ 5), .cmdRingDisable 256, .evtRingEnable 256 0, .evtRingEnable 0 (2 ^ 5), .evtRingDisable 256,
    .cmdDoorbell 256 0, .cmdDoorbell 0 (2 ^ 32), .cmdUrgDoorbell 256 0, .cmdUrgDoorbell 0 (2 ^ 32),
    .cmdStatusHeadWrite 256 0, .cmdStatusHeadWrite 0 (2 ^ 32), .evtHeadWrite 256 0, .evtHeadWrite 0 (2 ^ 32),
    .evtStatusClear 256 0, .ringSlotWrite 256 0x4000 [], .ringSlotWrite 0 0x8401 [], .ringSlotWrite 0 0x4000 (zeros 17409),
    .tikPeriodWrite (2 ^ 10), .tikGuardWrite (2 ^ 6), .fabCtrlWrite (2 ^ 13) 0 0 0, .fabCtrlWrite 0 (2 ^ 4) 0 0,
    .fabCtrlWrite 0 0 (2 ^ 8) 0, .fabCtrlWrite 0 0 0 (2 ^ 14), .lnkCtrlWrite (2 ^ 16), .memWatermarkWrite (2 ^ 16) 0 0 0,
    .memWatermarkWrite 0 (2 ^ 16) 0 0, .memWatermarkWrite 0 0 (2 ^ 16) 0, .memWatermarkWrite 0 0 0 (2 ^ 16),
    .eccScrubWrite (2 ^ 8) 0 0, .eccScrubWrite 0 (2 ^ 8) 0, .eccScrubWrite 0 0 (2 ^ 8), .pwrGateWrite (2 ^ 10),
    .capReplayAddrWrite false (2 ^ 52), .registerWrite 256 0 0 0 0] : List Instr).all (fun i => !i.wf) = true := by decide +kernel

/-- WellFormed refuses these. -/
theorem test_wf_refuses_host_2 : ([
    .registerWrite 0 6 0 0 0, .registerWrite 0 0 (2 ^ 48) 0 0, .registerWrite 0 0 0 65 0, .registerWrite 0 0 0 0 1,
    .functionLevelReset 256, .msixUnmask 256, .cxlAtomicOp 256, .mergeEntryClose 192 0, .mergeEntryClose 0 32768] : List Instr).all (fun i => !i.wf) = true := by decide +kernel

/-- WellFormed takes these. -/
theorem test_wf_takes_1 : ([
    .stepOpen 0 0, .slotDrain 0 0, .ctxCloseComplete 0, .unitCut 0 0, .turnipQueueWrite 0 .ready, .peaStaggerStart 0,
    .engineColdStart 0, .workUnitComplete 0, .descRun 0, .move 0, .moveComplete 0, .descWait 0, .descWaitSatisfied 0,
    .descPost 0, .peaLoad 0 0 0 (.scalar 0), .peaStore 0 0 [], .sliceAtomic 0 0 false .add 0 0 0, .fence 0, .align 0 0 0,
    .alignFail 0 0, .quant 0 0 0 0 0, .matrixInstruction 0 { mat0 with k1 := 1 }, .layer 0 0, .tile 0,
    .vectorOperation 0 .sum 0 0 0 0, .topk 0 0 0 0 0 0, .astat 0 0 0 0 0 0 0, .anorm 0 0 0 0, .arecomp 0 0 0 0 0 0,
    .fatom 0 0 0 0 0 0 0 0, .collect 0 0 0 0 0 0 0, .returnAnswer 0 0 0 0 0, .exchangeRoundStart 0 0,
    .queueHeaderReceive 0 0 exp0, .queueRowReceive 0 0 0 0 tag0 [], .queueReturnHeaders 0 0,
    .gatherAnswerReceive 0 0 tag0 [], .gatherReturnHeader 0 0 exp0, .expertRoundDeadline 0 0, .collHeaderReceive 0 ch0] : List Instr).all (Instr.wf) = true := by decide +kernel

/-- WellFormed takes these. -/
theorem test_wf_takes_2 : ([
    .collRoundDeadline 0 0, .shardChunkProcess 0 0 0 [] false false, .shardInstallFinalize 0 0 0,
    .shardUpstreamTimeout 0 0 0, .promotionStart 0 0 1, .migrationCommit 0 0 [], .lpVerifyPass [], .sramScrubPass [] [],
    .hbmScrubPass [] [] [], .sourceFrameRelease 0 0, .stallLimitExpiry 0, .kvFlashDemote 0 0, .scrubForcedGrant 0,
    .lpLinkRetry { who := .host, num := 0 } false, .hbmCaParityReissue { who := .host, num := 0 } false,
    .turnipParityReplay 0 false, .turnipWatchdogExpiry 0, .uncorrectableRead .slice .host { loc := 0, view := 0 } {},
    .datapathParityReplay { who := .host, num := 0 } 0 false, .flashStateChange .warn 0, .flashDieLoss 0 0 false,
    .flashChannelRetrain 0, .rowRemapCopyDone 0, .mergeEntryClose 0 0, .matrixEngineCold 0, .podUngateDone 0, .podGate 0,
    .nop h0, .identify h0 0, .countersRead h0 0 0 0 0 0, .planLoad h0 0 0, .planClear h0, .fwBankBegin h0 0,
    .fwBankData h0 0 0 0, .fwBankAbandon h0, .fwBankCommit h0, .attest h0 (zeros 32) 0, .setGuard h0 0, .tenCreate h0 0 0 0,
    .tenRebind h0 0 0 0 0 0] : List Instr).all (Instr.wf) = true := by decide +kernel

/-- WellFormed takes these. -/
theorem test_wf_takes_3 : ([
    .rebindFlashClearDone 0, .rebindCryptoEraseDone 0, .rebindResetDone 0, .tenDestroy h0 0, .ctxOpen h0 0 0 false 0,
    .ctxClose h0 0, .grantSet h0 { entry := 0, valid := false }, .ctxSched h0 0 0,
    .recipeSet h0 0 false (basicRecipe 1 1 false), .recipeGet h0 0 0, .cmpTableLoad h0 0 0, .cmpTableStandard h0,
    .cmpTableHold h0 0, .cmpTableUnhold h0 0, .cmpTableStatus h0 0, .capSet h0 0, .stepLimit h0 0, .energyRead h0 0 0 0,
    .captureStart h0 false false 0 0 0, .captureStop h0 false false 0, .captureExport h0 0 0 0, .abort h0 0,
    .cancel h0 0 0 false, .kvTableAttach h0 geo0, .kvTableDetach h0, .kvTableStatus h0 0, .kvMapCopy h0 0 0 0 0 0,
    .kvMapMove h0 0 0 0 0 0, .kvUnmap h0 0 0, .prefixInsert h0 pre0, .prefixLookup h0 pre0, .prefixDrop h0 false (zeros 16),
    .kvPin h0 0 0 0 false, .stepSubmit h0 step0.blk, .slotAlloc h0 0 0, .slotRelease h0 0 0 false,
    .prefillRatio h0 0 0 0 false, .expLayoutInstall h0 lay0, .expLayoutRemove h0 0, .expQueuePost h0 que0] : List Instr).all (Instr.wf) = true := by decide +kernel

/-- WellFormed takes these. -/
theorem test_wf_takes_4 : ([
    .expQueueUnpost h0 0, .expShared h0 0 0 false 0, .memAlloc h0 0 0 0, .memFree h0 0 0, .memPin h0 0 0 0,
    .memDemote h0 0 0 0, .memPrefetch h0 0 0, .migratePolicy h0 false false 0 false, .groupJoin h0 0 0 0 [], .groupLeave h0,
    .collSetup h0 coll0, .collRemove h0 0, .portReset h0 0, .remapAccept h0 0 0 0 0, .manifestLoad h0 0 0 0 (zeros 32),
    .manifestCheckDone 0 0, .manifestUnload h0 0, .shardInstall h0 { slot := 0, shard := 0, basePage := 0 },
    .shardRemove h0 0 0, .shardVerify h0 0 0, .verifyInterval h0 0, .replayBoundary false false 0, .tsyncReceive 0 sync0,
    .treqReceive 0 treq0, .portDelayMeasure 0 0, .fabricRequestIssue req0, .fabricPacketForward pkt0,
    .fabricRequestReceive pkt0, .fabricCompletionReceive pkt0, .fabricTimeout 0, .fabricHoldSend 0 0, .fabricHoldReceive 0,
    .fabricNotReadyRetry 0, .fabricNotReadyExpiry 0, .replayEntryAge 0 0, .noticeReceive 0 note0, .linkFlitReceive 0 flit0,
    .linkReplayTimeout 0, .linkDetectStart 0, .linkPartnerDetect 0] : List Instr).all (Instr.wf) = true := by decide +kernel

/-- WellFormed takes these. -/
theorem test_wf_takes_5 : ([
    .linkEqualizeDone 0 0 0, .linkIdentityReceive 0 (zeros 64), .linkIdentifyTimeout 0, .linkRetryTimer 0,
    .linkNoticeReceive 0 false, .linkLaneFail 0 0, .linkLaneSubstitute 0 0 0, .linkWidthRelockDone 0, .linkLockLoss 0,
    .telemetrySample { milliVolt := 0, current10mA := 0 }, .supplyShutdown 1, .i3cLease 0 0 0, .i3cResetCold 0 false,
    .i3cResetWarm 0, .i3cNode 0 0, .i3cCoolant 0 0 0, .i3cAlarm 0 0, .i3cPlanBlock 0 0 false [], .i3cFwBlockBegin 0 0,
    .i3cFwBlockData 0 0 [], .i3cFwBlockAbandon 0, .i3cFwBlockCommit 0, .i3cRecovery 0 0 0 [], .i3cEnec 0, .i3cDisec 0,
    .i3cEntdaa 0, .i3cSetdasa 0, .i3cSetnewda 0, .i3cSetmwl 0, .i3cSetmrl 0, .i3cRstact 0, .bootBankSelect 0 [],
    .cxlLinkTrain 5 0 false false false 0, .cmdRingEnable 0 0, .cmdRingDisable 0, .evtRingEnable 0 0, .evtRingDisable 0,
    .cmdDoorbell 0 0, .cmdUrgDoorbell 0 0, .cmdStatusHeadWrite 0 0] : List Instr).all (Instr.wf) = true := by decide +kernel

/-- WellFormed takes these. -/
theorem test_wf_takes_6 : ([
    .evtHeadWrite 0 0, .evtStatusClear 0 0, .ringSlotWrite 0 0x4000 [], .tikPeriodWrite 0, .tikGuardWrite 0,
    .fabCtrlWrite 0 0 0 0, .lnkCtrlWrite 0, .memWatermarkWrite 0 0 0 0, .eccScrubWrite 0 0 0, .pwrGateWrite 0,
    .capReplayAddrWrite false 0, .registerWrite 0 0 0 0 0, .functionLevelReset 0, .msixUnmask 0, .cxlAtomicOp 0] : List Instr).all (Instr.wf) = true := by decide +kernel

/-! ### Witnesses: states and operands that meet the hypotheses of each statement, one for each of its clauses -/

/-- States and operands that meet the hypotheses of GeneralOpcodesAnswer. -/
theorem witness_GeneralOpcodesAnswer :
    (∃ (s : State) (h : Hdr), Acts (pktNop h) s) ∧
    (∃ (s : State) (h : Hdr) (out : ℕ), Acts (pktIdentify h out) s) ∧
    (∃ (s : State) (h : Hdr) (target : ℕ) (out : ℕ), Acts (pktCountersRead h 0 target 0 0 out) s) ∧
    (∃ (s : State) (h : Hdr) (target : ℕ) (first : ℕ) (layers : ℕ) (out : ℕ), Acts (pktCountersRead h 1 target first layers out) s) ∧
    (∃ (s : State) (h : Hdr) (g : ℕ), Acts (pktSetGuard h g) s) ∧
    (∃ (s : State) (h : Hdr) (layer : ℕ) (expert : Bool) (r : Recipe), Acts (pktRecipeSet h layer expert r) s) ∧
    (∃ (s : State) (h : Hdr) (layer : ℕ) (out : ℕ) (r : Recipe), Acts (pktRecipeGet h layer out) s ∧ alGet layer (ctxOf s.m h.ctx).recipes = some r) ∧
    (∃ (s : State) (h : Hdr) (layer : ℕ) (out : ℕ), Acts (pktRecipeGet h layer out) s ∧ alGet layer (ctxOf s.m h.ctx).recipes = none) :=
  ⟨⟨rdy, hd 1 0, actsOf (by decide +kernel)⟩,
    ⟨rdy, hd 1 0, 0x1000, actsOf (by decide +kernel)⟩,
    ⟨rdy, hd 1 0, 1, 0x1000, actsOf (by decide +kernel)⟩,
    ⟨rdy, hd 1 0, 1, 0, 2, 0x1000, actsOf (by decide +kernel)⟩,
    ⟨rdy, hd 1 0, 50, actsOf (by decide +kernel)⟩,
    ⟨rdy, hd 1 0, 3, true, basicRecipe 1 1 false, actsOf (by decide +kernel)⟩,
    ⟨witC fun x => { x with recipes := [(3, basicRecipe 1 1 false)] }, hd 1 0, 3, 0x1000, basicRecipe 1 1 false, actsOf (by decide +kernel), (by decide +kernel)⟩,
    ⟨rdy, hd 1 0, 3, 0x1000, actsOf (by decide +kernel), (by decide +kernel)⟩⟩

/-- States and operands that meet the hypotheses of PowerOpcodesAnswer. -/
theorem witness_PowerOpcodesAnswer :
    (∃ (s : State) (h : Hdr) (w : ℕ), Acts (pktCapSet h w) s) ∧
    (∃ (s : State) (h : Hdr) (step : ℕ), Acts (pktStepLimit h step) s) ∧
    (∃ (s : State) (h : Hdr) (scope : ℕ) (target : ℕ) (out : ℕ), Acts (pktEnergyRead h scope target out) s) :=
  ⟨⟨rdy, hd 0 0, 600, actsOf (by decide +kernel)⟩,
    ⟨rdy, hd 0 0, 19, actsOf (by decide +kernel)⟩,
    ⟨rdy, hd 1 0, 0, 1, 0x1000, actsOf (by decide +kernel)⟩⟩

/-- States and operands that meet the hypotheses of TenancyOpcodesAnswer. -/
theorem witness_TenancyOpcodesAnswer :
    (∃ (s : State) (h : Hdr) (t : ℕ) (keys : ℕ) (ftid : ℕ), Acts (pktTenCreate h t keys ftid) s ∧ keys ≤ (freeKeySlots s.m).length) ∧
    (∃ (s : State) (h : Hdr) (t : ℕ) (keys : ℕ) (ftid : ℕ), Acts (pktTenCreate h t keys ftid) s ∧ (freeKeySlots s.m).length < keys) ∧
    (∃ (s : State) (h : Hdr) (c : ℕ) (t : ℕ) (expert : Bool) (key : ℕ), Acts (pktCtxOpen h c t expert key) s) ∧
    (∃ (s : State) (h : Hdr) (c : ℕ) (share : ℕ), Acts (pktCtxSched h c share) s) ∧
    (∃ (s : State) (h : Hdr) (g : GrantBlk), Acts (pktGrantSet h g) s) :=
  ⟨⟨rdy, hd 0 0, 1, 64, 7, actsOf (by decide +kernel), (by decide +kernel)⟩,
    ⟨wit fun m => { m with ten := { m.ten with keySlots := List.replicate 256 (.drawn 1) } }, hd 0 0, 1, 1, 7, actsOf (by decide +kernel), (by decide +kernel)⟩,
    ⟨rdy, hd 0 0, 2, 0, true, 0, actsOf (by decide +kernel)⟩,
    ⟨rdy, hd 0 0, 1, 255, actsOf (by decide +kernel)⟩,
    ⟨rdy, hd 0 0, { entry := 1023, valid := true, localTen := 0, srcNode := 1, srcFtid := 7, basePage := 0, pages := 1, rights := 1 }, actsOf (by decide +kernel)⟩⟩

/-- States and operands that meet the hypotheses of RebindAndCloseStart. -/
theorem witness_RebindAndCloseStart :
    (∃ (s : State) (h : Hdr) (src : ℕ) (dst : ℕ) (pods : ℕ) (keys : ℕ) (slices : ℕ), Acts (pktTenRebind h src dst pods keys slices) s) ∧
    (∃ (s : State) (h : Hdr) (t : ℕ), Acts (pktTenDestroy h t) s) ∧
    (∃ (s : State) (h : Hdr) (c : ℕ), Acts (pktCtxClose h c) s) ∧
    (∃ (s : State) (h : Hdr) (n : ℕ), Acts (pktTenDestroy h n) s) ∧
    (∃ (s : State) (h : Hdr) (c : ℕ), Acts (pktCtxClose h c) s ∧ ((∀ r ∈ s.m.reqs, r.ctx ≠ c))) ∧
    (∃ (s : State) (h : Hdr) (c : ℕ), Acts (pktCtxClose h c) s ∧ ((∀ r ∈ s.m.reqs, r.ctx = c → notActed r = true))) :=
  ⟨⟨rdy, hd 0 0, 0, 255, 1, 1, 1, actsOf (by decide +kernel)⟩,
    ⟨rdy, hd 0 0, 0, actsOf (by decide +kernel)⟩,
    ⟨rdy, hd 0 0, 1, actsOf (by decide +kernel)⟩,
    ⟨rdy, hd 0 0, 0, actsOf (by decide +kernel)⟩,
    ⟨rdy, hd 0 0, 1, actsOf (by decide +kernel), (by decide +kernel)⟩,
    ⟨wit (addReq { ctx := 1, seq := 0, op := 0x10, st := .fetching 0 64 }), hd 0 0, 1, actsOf (by decide +kernel), (by decide +kernel)⟩⟩

/-- States and operands that meet the hypotheses of KvTableOpcodesAnswer. -/
theorem witness_KvTableOpcodesAnswer :
    (∃ (s : State) (h : Hdr) (a : KvAttach), Acts (pktKvTableAttach h a) s ∧ (findPool s.m (hTen s.m h) a.pool).isSome = true) ∧
    (∃ (s : State) (h : Hdr) (a : KvAttach), Acts (pktKvTableAttach h a) s ∧ (findPool s.m (hTen s.m h) a.pool).isNone = true ∧ pinned s.m 1 + a.hbmPages ≤ pinLimit 1) ∧
    (∃ (s : State) (h : Hdr) (v : KvView), Acts (pktKvTableDetach h) s ∧ kvView s.m h.ctx = some v) ∧
    (∃ (s : State) (h : Hdr) (out : ℕ) (v : KvView), Acts (pktKvTableStatus h out) s ∧ ((ctxOf s.m h.ctx).table.map (·.dead)).getD false = false ∧ kvView s.m h.ctx = some v) ∧
    (∃ (s : State) (h : Hdr) (ss : ℕ) (sb : ℕ) (ds : ℕ) (db : ℕ) (n : ℕ) (v : KvView) (es : List (ℕ × Kve)), Acts (pktKvMapCopy h ss sb ds db n) s ∧ kvView s.m h.ctx = some v ∧ (es = (((List.range n).flatMap fun i => (column v ss (sb + i)).zip (column v ds (db + i))).filterMap fun x => (kvEntry v x.1).map fun e => (x.2, e))) ∧ refsFit v.p (es.map (·.2)) = true ∧ badEntry s.m v (((List.range n).flatMap fun i => (column v ss (sb + i)).zip (column v ds (db + i))).map (·.1) ++ ((List.range n).flatMap fun i => (column v ss (sb + i)).zip (column v ds (db + i))).map (·.2)) = none) ∧
    (∃ (s : State) (h : Hdr) (ss : ℕ) (sb : ℕ) (ds : ℕ) (db : ℕ) (n : ℕ) (v : KvView) (es : List (ℕ × ℕ × Kve)), Acts (pktKvMapMove h ss sb ds db n) s ∧ kvView s.m h.ctx = some v ∧ (es = (((List.range n).flatMap fun i => (column v ss (sb + i)).zip (column v ds (db + i))).filterMap fun x => (kvEntry v x.1).map fun e => (x.1, x.2, e))) ∧ badEntry s.m v (((List.range n).flatMap fun i => (column v ss (sb + i)).zip (column v ds (db + i))).map (·.1) ++ ((List.range n).flatMap fun i => (column v ss (sb + i)).zip (column v ds (db + i))).map (·.2)) = none) ∧
    (∃ (s : State) (h : Hdr) (stream : ℕ) (length : ℕ) (v : KvView) (m : Mach), Acts (pktKvUnmap h stream length) s ∧ kvView s.m h.ctx = some v ∧ badEntry s.m v (entriesFrom v stream (length / 64)) = none ∧ m = truncStream h.ctx stream length (taken (pktKvUnmap h stream length) s)) ∧
    (∃ (s : State) (h : Hdr) (stream : ℕ) (length : ℕ) (v : KvView) (src : ℕ), Acts (pktKvUnmap h stream length) s ∧ kvView s.m h.ctx = some v ∧ badEntry s.m v (entriesFrom v stream (length / 64)) = some src) :=
  ⟨⟨wit (modCtx 1 (fun x => { x with table := none }) ∘ (fun m => modMem (fun x => { x with pages := pg 10 :: x.pages.tail }) m) ∘ kvOn), hd 1 0, geo0, actsOf (by decide +kernel), (by decide +kernel)⟩,
    ⟨wit kvPages, hd 1 0, geo0, actsOf (by decide +kernel), (by decide +kernel), (by decide +kernel)⟩,
    ⟨wit kvOn, hd 1 0, _, actsOf (by decide +kernel), (Option.some_get (by decide +kernel)).symm⟩,
    ⟨wit kvOn, hd 1 0, 0x1000, _, actsOf (by decide +kernel), (by decide +kernel), (Option.some_get (by decide +kernel)).symm⟩,
    ⟨wit kvOn, hd 1 0, 0, 0, 1, 1, 1, _, _, actsOf (by decide +kernel), (Option.some_get (by decide +kernel)).symm, rfl, (by decide +kernel), (by decide +kernel)⟩,
    ⟨wit kvOn, hd 1 0, 0, 0, 1, 1, 1, _, _, actsOf (by decide +kernel), (Option.some_get (by decide +kernel)).symm, rfl, (by decide +kernel)⟩,
    ⟨wit kvOn, hd 1 0, 0, 32, _, _, actsOf (by decide +kernel), (Option.some_get (by decide +kernel)).symm, (by decide +kernel), rfl⟩,
    ⟨wit (modMem (fun x => { x with devPoison := [unitKey 0 (10 * pageSize)] }) ∘ kvOn), hd 1 0, 0, 0, _, _, actsOf (by decide +kernel), (Option.some_get (by decide +kernel)).symm, (Option.some_get (by decide +kernel)).symm⟩⟩

/-- States and operands that meet the hypotheses of PrefixOpcodesAnswer. -/
theorem witness_PrefixOpcodesAnswer :
    (∃ (s : State) (h : Hdr) (stream : ℕ) (first : ℕ) (blocks : ℕ) (v : KvView) (xs : List (ℕ × ℕ)) (p : Pool), Acts (pktKvPin h stream first blocks false) s ∧ kvView s.m h.ctx = some v ∧ (xs = (((List.range blocks).flatMap fun i => column v stream (first + i)).filterMap fun ix => (kvEntry v ix).map fun e => (kvKey v.c ix, slotKey e.page e.slot))) ∧ badEntry s.m v ((List.range blocks).flatMap fun i => column v stream (first + i)) = none ∧ p = { v.p with pinned := v.p.pinned.filter fun x => !(xs.map (·.2)).contains x.2 }) ∧
    (∃ (s : State) (h : Hdr) (stream : ℕ) (first : ℕ) (blocks : ℕ) (v : KvView) (xs : List (ℕ × ℕ)) (p : Pool), Acts (pktKvPin h stream first blocks true) s ∧ kvView s.m h.ctx = some v ∧ (xs = (((List.range blocks).flatMap fun i => column v stream (first + i)).filterMap fun ix => (kvEntry v ix).map fun e => (kvKey v.c ix, slotKey e.page e.slot))) ∧ badEntry s.m v ((List.range blocks).flatMap fun i => column v stream (first + i)) = none ∧ p = { v.p with pinned := (v.p.pinned ++ xs).dedup } ∧ (pinnedPages p).length ≤ v.p.geo.hbmPages) ∧
    (∃ (s : State) (h : Hdr) (b : PrefixBlk) (v : KvView) (r : (ℕ × ℕ × ℕ) × Mach), Acts (pktPrefixInsert h b) s ∧ kvView s.m h.ctx = some v ∧ r = insertBlocks v b.stream b.firstBlock (blkHashes v.p.geo b) (taken (pktPrefixInsert h b) s) ∧ r.1.2.2 = 0 ∧ badEntry s.m v ((List.range b.blocks).flatMap fun i => column v b.stream (b.firstBlock + i)) = none) ∧
    (∃ (s : State) (h : Hdr) (b : PrefixBlk) (v : KvView) (n : ℕ) (plan : List (ℕ × Kve)), Acts (pktPrefixLookup h b) s ∧ kvView s.m h.ctx = some v ∧ n = matched s.m v (blkHashes v.p.geo b) ∧ plan = (if b.map then mapPlan (taken (pktPrefixLookup h b) s) v b.stream b.firstBlock ((blkHashes v.p.geo b).take n) else []) ∧ refsFit v.p (plan.map (·.2)) = true ∧ badEntry s.m v (plan.map (·.1)) = none ∧ ((b.map = true → badRecords s.m v ((blkHashes v.p.geo b).take n) = none))) ∧
    (∃ (s : State) (h : Hdr) (all : Bool) (hash : List Byte) (v : KvView) (es : List PrefixEnt), Acts (pktPrefixDrop h all hash) s ∧ kvView s.m h.ctx = some v ∧ es = ((tenOf s.m v.t).prefixes.filter fun e => e.pool == v.p.num && (all || e.hash == hash))) :=
  ⟨⟨wit kvOn, hd 1 0, 0, 0, 1, _, _, _, actsOf (by decide +kernel), (Option.some_get (by decide +kernel)).symm, rfl, (by decide +kernel), rfl⟩,
    ⟨wit kvOn, hd 1 0, 0, 0, 1, _, _, _, actsOf (by decide +kernel), (Option.some_get (by decide +kernel)).symm, rfl, (by decide +kernel), rfl, (by decide +kernel)⟩,
    ⟨wit kvOn, hd 1 0, { stream := 0, firstBlock := 0, blocks := 1, parent := zeros 16, outPtr := 0, tokens := zeros 256 }, _, _, actsOf (by decide +kernel), (Option.some_get (by decide +kernel)).symm, rfl, (by decide +kernel), (by decide +kernel)⟩,
    ⟨wit kvOn, hd 1 0, { stream := 1, firstBlock := 0, blocks := 1, parent := zeros 16, outPtr := 0, tokens := zeros 256 }, _, _, _, actsOf (by decide +kernel), (Option.some_get (by decide +kernel)).symm, rfl, rfl, (by decide +kernel), (by decide +kernel), (by decide +kernel)⟩,
    ⟨wit kvOn, hd 1 0, true, zeros 16, _, _, actsOf (by decide +kernel), (Option.some_get (by decide +kernel)).symm, rfl⟩⟩

/-- States and operands that meet the hypotheses of StepOpcodesAct. -/
theorem witness_StepOpcodesAct :
    (∃ (s : State) (h : Hdr) (b : StepBlk), Acts (pktStepSubmit h b) s) ∧
    (∃ (s : State) (h : Hdr) (slot : ℕ) (stream : ℕ) (v : KvView), Acts (pktSlotAlloc h slot stream) s ∧ kvView s.m h.ctx = some v ∧ slot ≠ 0xFFFF ∧ h.ctx < s.m.ctxs.length) ∧
    (∃ (s : State) (h : Hdr) (stream : ℕ) (v : KvView) (n : ℕ), Acts (pktSlotAlloc h 0xFFFF stream) s ∧ kvView s.m h.ctx = some v ∧ h.ctx < s.m.ctxs.length ∧ ((List.range 4096).find? fun i => !(slotOf s.m h.ctx i).allocated && !(slotOf s.m h.ctx i).releasing) = some n) ∧
    (∃ (s : State) (h : Hdr) (slot : ℕ) (gen : ℕ) (keep : Bool), Acts (pktSlotRelease h slot gen keep) s ∧ (slotOf s.m h.ctx slot).gen = gen) ∧
    (∃ (s : State) (h : Hdr) (slot : ℕ) (gen : ℕ) (keep : Bool), Acts (pktSlotRelease h slot gen keep) s ∧ (slotOf s.m h.ctx slot).gen ≠ gen) ∧
    (∃ (s : State) (h : Hdr) (slot : ℕ) (gen : ℕ) (keep : Bool), Acts (pktCancel h slot gen keep) s ∧ (slotOf s.m h.ctx slot).gen = gen) ∧
    (∃ (s : State) (h : Hdr) (slot : ℕ) (gen : ℕ) (keep : Bool), Acts (pktCancel h slot gen keep) s ∧ (slotOf s.m h.ctx slot).gen ≠ gen) ∧
    (∃ (s : State) (h : Hdr) (chunk : ℕ) (ratio : ℕ) (floor : ℕ), Acts (pktPrefillRatio h chunk ratio floor false) s) ∧
    (∃ (s : State) (h : Hdr) (chunk : ℕ) (ratio : ℕ) (floor : ℕ), Acts (pktPrefillRatio h chunk ratio floor true) s) :=
  ⟨⟨wit kvOn, hd 1 0, { phases := 1, resultBytes := 32, plan := 0, inSlice := 0, inBytes := 64, resSlice := 0, outPtr := 0, entries := [] }, actsOf (by decide +kernel)⟩,
    ⟨wit kvOn, hd 1 0, 4095, 1, _, actsOf (by decide +kernel), (Option.some_get (by decide +kernel)).symm, (by decide +kernel), (by decide +kernel)⟩,
    ⟨wit kvOn, hd 1 0, 1, _, _, actsOf (by decide +kernel), (Option.some_get (by decide +kernel)).symm, (by decide +kernel), (Option.some_get (by decide +kernel)).symm⟩,
    ⟨witC fun x => { x with slots := [{ slot := 3, allocated := true, gen := 5 }] }, hd 1 0, 3, 5, false, actsOf (by decide +kernel), (by decide +kernel)⟩,
    ⟨witC fun x => { x with slots := [{ slot := 3, allocated := true, gen := 5 }] }, hd 1 0, 3, 4, false, actsOf (by decide +kernel), (by decide +kernel)⟩,
    ⟨witC fun x => { x with slots := [{ slot := 3, allocated := true, gen := 5 }] }, hd 1 0, 3, 5, true, actsOf (by decide +kernel), (by decide +kernel)⟩,
    ⟨witC fun x => { x with slots := [{ slot := 3, allocated := true, gen := 5 }] }, hd 1 0, 3, 4, true, actsOf (by decide +kernel), (by decide +kernel)⟩,
    ⟨rdy, hd 1 0, 64, 1, 0, actsOf (by decide +kernel)⟩,
    ⟨rdy, hd 1 0, 0, 0, 0, actsOf (by decide +kernel)⟩⟩

/-- States and operands that meet the hypotheses of AbortAnswers. -/
theorem witness_AbortAnswers :
    (∃ (s : State) (h : Hdr) (q : ℕ) (r : Req), Acts (pktAbort h q) s ∧ queuedAt (fnOf s.m h.ctx) q = none ∧ findReq s.m h.ctx false q = some r ∧ r.abortBy = none ∧ notActed r = true) ∧
    (∃ (s : State) (h : Hdr) (q : ℕ) (r : Req), Acts (pktAbort h q) s ∧ queuedAt (fnOf s.m h.ctx) q = none ∧ findReq s.m h.ctx false q = some r ∧ r.abortBy = none ∧ notActed r = false ∧ abortable r.op = false) ∧
    (∃ (s : State) (h : Hdr) (q : ℕ), Acts (pktAbort h q) s ∧ queuedAt (fnOf s.m h.ctx) q = none ∧ findReq s.m h.ctx false q = none ∧ Machine.dist q (fnOf s.m h.ctx).nextSeq < 2 ^ 31) ∧
    (∃ (s : State) (h : Hdr) (q : ℕ) (f : Final), Acts (pktAbort h q) s ∧ queuedAt (fnOf s.m h.ctx) q = none ∧ findReq s.m h.ctx false q = none ∧ 2 ^ 31 ≤ Machine.dist q (fnOf s.m h.ctx).nextSeq ∧ (fnOf s.m h.ctx).finals.find? (·.seq == q) = some f) :=
  ⟨⟨wit (modFn 1 (fun f => { f with nextSeq := 1 }) ∘ addReq { ctx := 1, seq := 0, op := 0x10, st := .fetching 0 64 }), hd 1 0, 0, _, actsOf (by decide +kernel), (by decide +kernel), (Option.some_get (by decide +kernel)).symm, (by decide +kernel), (by decide +kernel)⟩,
    ⟨wit (modFn 1 (fun f => { f with nextSeq := 1 }) ∘ addReq { ctx := 1, seq := 0, op := 0x05 }), hd 1 0, 0, _, actsOf (by decide +kernel), (by decide +kernel), (Option.some_get (by decide +kernel)).symm, (by decide +kernel), (by decide +kernel), (by decide +kernel)⟩,
    ⟨rdy, hd 1 0, 5, actsOf (by decide +kernel), (by decide +kernel), (by decide +kernel), (by decide +kernel)⟩,
    ⟨wit (modFn 1 fun f => { f with nextSeq := 1, finals := [{ seq := 0, tick := 9, st := .ok, detail := 0 }] }), hd 1 0, 0, _, actsOf (by decide +kernel), (by decide +kernel), (by decide +kernel), (by decide +kernel), (Option.some_get (by decide +kernel)).symm⟩⟩

/-- States and operands that meet the hypotheses of TierOpcodesAct. -/
theorem witness_TierOpcodesAct :
    (∃ (s : State) (h : Hdr) (base : ℕ) (pages : ℕ) (key : ℕ) (k : ℕ), Acts (pktMemAlloc h base pages key) s ∧ k = (if key = 0xFF then (ctxOf s.m h.ctx).key else key) ∧ keyFrozen s.m (hTen s.m h) k = false ∧ claims s.m + pages ≤ claimable s.nv.flash.state s.m) ∧
    (∃ (s : State) (h : Hdr) (base : ℕ) (pages : ℕ), Acts (pktMemFree h base pages) s) ∧
    (∃ (s : State) (h : Hdr) (base : ℕ) (pages : ℕ), Acts (pktMemPin h base pages 0) s) ∧
    (∃ (s : State) (h : Hdr) (base : ℕ) (pages : ℕ) (tier : ℕ) (go : List ℕ), Acts (pktMemPin h base pages tier) s ∧ tier ≠ 0 ∧ pinned s.m tier + (rangePages s.m (hTen s.m h) base pages (·.pin != tier)).length ≤ pinLimit tier ∧ go = rangePages s.m (hTen s.m h) base pages (fun g => g.tier != .zero && g.tier != tierOf tier)) ∧
    (∃ (s : State) (h : Hdr) (base : ℕ) (pages : ℕ) (tier : ℕ) (go : List ℕ), Acts (pktMemDemote h base pages tier) s ∧ (¬ (tier = 3 ∧ (s.nv.flash.state = .readOnly ∨ s.nv.flash.state = .offline))) ∧ go = rangePages s.m (hTen s.m h) base pages (fun g => g.pin == 0 && height (tierOf tier) < height g.tier)) ∧
    (∃ (s : State) (h : Hdr) (base : ℕ) (pages : ℕ) (go : List ℕ), Acts (pktMemPrefetch h base pages) s ∧ go = rangePages s.m (hTen s.m h) base pages (fun g => g.tier != .zero && g.tier != .hbm && g.pin != 2 && g.crcBad.isEmpty)) ∧
    (∃ (s : State) (h : Hdr) (ahead : Bool) (touch : Bool) (limit : ℕ), Acts (pktMigratePolicy h ahead touch limit false) s) ∧
    (∃ (s : State) (h : Hdr) (ahead : Bool) (touch : Bool) (limit : ℕ), Acts (pktMigratePolicy h ahead touch limit true) s) :=
  ⟨⟨rdy, hd 1 0, 5, 2, 0xFF, _, actsOf (by decide +kernel), rfl, (by decide +kernel), (by decide +kernel)⟩,
    ⟨wit (modMem fun x => { x with pages := [pg 5] }), hd 1 0, 5, 1, actsOf (by decide +kernel)⟩,
    ⟨wit (modMem fun x => { x with pages := [pg 5] }), hd 1 0, 5, 1, actsOf (by decide +kernel)⟩,
    ⟨wit (modMem fun x => { x with pages := [pgIn .lp 5] }), hd 1 0, 5, 1, 1, _, actsOf (by decide +kernel), (by decide +kernel), (by decide +kernel), rfl⟩,
    ⟨wit (modMem fun x => { x with pages := [pgIn .hbm 5] }), hd 1 0, 5, 1, 3, _, actsOf (by decide +kernel), (by decide +kernel), rfl⟩,
    ⟨wit (modMem fun x => { x with pages := [pgIn .flash 5] }), hd 1 0, 5, 1, _, actsOf (by decide +kernel), rfl⟩,
    ⟨rdy, hd 1 0, true, true, 1, actsOf (by decide +kernel)⟩,
    ⟨rdy, hd 1 0, false, false, 0, actsOf (by decide +kernel)⟩⟩

/-- States and operands that meet the hypotheses of CompressionOpcodesAct. -/
theorem witness_CompressionOpcodesAct :
    (∃ (s : State) (h : Hdr) (gen : ℕ) (ptr : ℕ), Acts (pktCmpTableLoad h gen ptr) s) ∧
    (∃ (s : State) (h : Hdr), Acts (pktCmpTableStandard h) s ∧ isPrevious (ctxOf s.m h.ctx) (ctxOf s.m h.ctx).bankA = false ∧ isPrevious (ctxOf s.m h.ctx) (ctxOf s.m h.ctx).bankB = false) ∧
    (∃ (s : State) (h : Hdr) (gen : ℕ), Acts (pktCmpTableHold h gen) s) ∧
    (∃ (s : State) (h : Hdr) (gen : ℕ), Acts (pktCmpTableUnhold h gen) s) ∧
    (∃ (s : State) (h : Hdr) (out : ℕ) (x : Ctx), Acts (pktCmpTableStatus h out) s ∧ x = ctxOf s.m h.ctx) :=
  ⟨⟨rdy, hd 1 0, 15, 0x1000, actsOf (by decide +kernel)⟩,
    ⟨rdy, hd 1 0, actsOf (by decide +kernel), (by decide +kernel), (by decide +kernel)⟩,
    ⟨witC fun x => { x with cmpCurrent := 2, bankA := { gen := 2 } }, hd 1 0, 2, actsOf (by decide +kernel)⟩,
    ⟨witC fun x => { x with cmpCurrent := 2, bankA := { gen := 2, holds := 1 } }, hd 1 0, 2, actsOf (by decide +kernel)⟩,
    ⟨rdy, hd 1 0, 0x1000, _, actsOf (by decide +kernel), rfl⟩⟩

/-- States and operands that meet the hypotheses of ExpertAndCollectiveOpcodesAnswer. -/
theorem witness_ExpertAndCollectiveOpcodesAnswer :
    (∃ (s : State) (h : Hdr) (b : LayoutBlk), Acts (pktExpLayoutInstall h b) s ∧ (ctxOf s.m h.ctx).layouts.length < 128) ∧
    (∃ (s : State) (h : Hdr) (layer : ℕ), Acts (pktExpLayoutRemove h layer) s) ∧
    (∃ (s : State) (h : Hdr) (b : QueueBlk) (l : Layout) (t : ℕ), Acts (pktExpQueuePost h b) s ∧ t = hTen s.m h ∧ (ctxOf s.m h.ctx).layouts.find? (·.blk.layoutId == b.layoutId) = some l) ∧
    (∃ (s : State) (h : Hdr) (q : ℕ), Acts (pktExpQueueUnpost h q) s) ∧
    (∃ (s : State) (h : Hdr) (layer : ℕ) (order : ℕ) (basic : Bool) (mask : ℕ), Acts (pktExpShared h layer order basic mask) s) ∧
    (∃ (s : State) (h : Hdr) (b : CollBlk), Acts (pktCollSetup h b) s ∧ (ctxOf s.m h.ctx).colls.length < 64) ∧
    (∃ (s : State) (h : Hdr) (id : ℕ), Acts (pktCollRemove h id) s) :=
  ⟨⟨wit net, hd 1 0, lay0, actsOf (by decide +kernel), (by decide +kernel)⟩,
    ⟨witC fun x => { x with layouts := [{ blk := lay0 }] }, hd 1 0, 3, actsOf (by decide +kernel)⟩,
    ⟨wit (modCtx 1 (fun x => { x with layouts := [{ blk := lay0 }] }) ∘ net), hd 1 0, que0, _, _, actsOf (by decide +kernel), rfl, (Option.some_get (by decide +kernel)).symm⟩,
    ⟨witT fun x => { x with queues := [{ num := 2, ctx := 1, blk := que0 }] }, hd 1 0, 2, actsOf (by decide +kernel)⟩,
    ⟨witC fun x => { x with layouts := [{ blk := lay0 }] }, hd 1 0, 3, 2, false, 1, actsOf (by decide +kernel)⟩,
    ⟨wit (modTick (fun t => { t with members := [0, 1], group := 1 }) ∘ net), hd 1 0, coll0, actsOf (by decide +kernel), (by decide +kernel)⟩,
    ⟨witC fun x => { x with colls := [{ blk := coll0 }] }, hd 1 0, 4, actsOf (by decide +kernel)⟩⟩

/-- States and operands that meet the hypotheses of PlanPortAndGroupOpcodesAct. -/
theorem witness_PlanPortAndGroupOpcodesAct :
    (∃ (s : State) (h : Hdr) (ptr : ℕ) (len : ℕ), Acts (pktPlanLoad h ptr len) s) ∧
    (∃ (s : State) (h : Hdr), Acts (pktPlanClear h) s) ∧
    (∃ (s : State) (h : Hdr) (ports : ℕ), Acts (pktPortReset h ports) s) ∧
    (∃ (s : State) (h : Hdr) (port : ℕ) (node : ℕ) (peer : ℕ) (serial : ℕ) (i : Ident), Acts (pktRemapAccept h port node peer serial) s ∧ ((portOf s.m port).qcause = 2 ∨ (portOf s.m port).qcause = 3) ∧ (portOf s.m port).peer = some i ∧ i.node = node ∧ i.port = peer ∧ i.serial = serial) ∧
    (∃ (s : State) (h : Hdr) (group : ℕ) (root : ℕ) (planId : ℕ) (members : List ℕ), Acts (pktGroupJoin h group root planId members) s) ∧
    (∃ (s : State) (h : Hdr), Acts (pktGroupLeave h) s ∧ s.m.tick.join = none) :=
  ⟨⟨rdy, hd 0 0, 64, 96, actsOf (by decide +kernel)⟩,
    ⟨rdy, hd 0 0, actsOf (by decide +kernel)⟩,
    ⟨rdy, hd 0 0, 1, actsOf (by decide +kernel)⟩,
    ⟨wit (modPort 0 fun x => { x with state := .quarantine, qcause := 2, peer := some ident1 }), hd 0 0, 0, 1, 1, 6, ident1, actsOf (by decide +kernel), (by decide +kernel), (by decide +kernel), (by decide +kernel), (by decide +kernel), (by decide +kernel)⟩,
    ⟨wit net, hd 0 0, 1, 0, 9, [0, 1], actsOf (by decide +kernel)⟩,
    ⟨wit (modTick fun t => { t with group := 1, members := [0, 1] }), hd 0 0, actsOf (by decide +kernel), (by decide +kernel)⟩⟩

/-- States and operands that meet the hypotheses of ShardOpcodesAct. -/
theorem witness_ShardOpcodesAct :
    (∃ (s : State) (h : Hdr) (slot : ℕ) (ptr : ℕ) (len : ℕ) (key : List Byte), Acts (pktManifestLoad h slot ptr len key) s) ∧
    (∃ (s : State) (h : Hdr) (slot : ℕ), Acts (pktManifestUnload h slot) s) ∧
    (∃ (s : State) (h : Hdr) (b : ShardBlk) (t : ℕ) (n : ℕ) (len : ℕ), Acts (pktShardInstall h b) s ∧ t = hTen s.m h ∧ len = ((shardEntry s.m t b.slot b.shard).map (·.1)).getD 0 ∧ n = (len + pageSize - 1) / pageSize ∧ (tenOf s.m t).shards.length < 4096 ∧ claims s.m + n ≤ claimable s.nv.flash.state s.m ∧ (b.pinHbm = false ∨ pinnedHbm s.m + n ≤ pinLimit 1)) ∧
    (∃ (s : State) (h : Hdr) (slot : ℕ) (shard : ℕ) (k : Shard) (t : ℕ), Acts (pktShardRemove h slot shard) s ∧ t = hTen s.m h ∧ findShard s.m t slot shard = some k) ∧
    (∃ (s : State) (h : Hdr) (slot : ℕ) (shard : ℕ) (k : Shard), Acts (pktShardVerify h slot shard) s ∧ findShard s.m (hTen s.m h) slot shard = some k ∧ k.st = .failed) ∧
    (∃ (s : State) (h : Hdr) (slot : ℕ) (shard : ℕ) (k : Shard), Acts (pktShardVerify h slot shard) s ∧ findShard s.m (hTen s.m h) slot shard = some k ∧ k.st ≠ .failed) ∧
    (∃ (s : State) (h : Hdr) (hours : ℕ) (n : ℕ), Acts (pktVerifyInterval h hours) s ∧ n = (if hours = 0 then 24 else hours)) :=
  ⟨⟨rdy, hd 1 0, 3, 8, 256, zeros 32, actsOf (by decide +kernel)⟩,
    ⟨witT fun x => { x with manifests := [man0] }, hd 1 0, 3, actsOf (by decide +kernel)⟩,
    ⟨witT fun x => { x with manifests := [man0] }, hd 1 0, { slot := 3, shard := 0, basePage := 40 }, _, _, _, actsOf (by decide +kernel), rfl, rfl, rfl, (by decide +kernel), (by decide +kernel), (by decide +kernel)⟩,
    ⟨witT fun x => { x with manifests := [man0], shards := [shard0] }, hd 1 0, 3, 0, _, _, actsOf (by decide +kernel), rfl, (Option.some_get (by decide +kernel)).symm⟩,
    ⟨witT fun x => { x with manifests := [man0], shards := [{ shard0 with st := .failed }] }, hd 1 0, 3, 0, _, actsOf (by decide +kernel), (Option.some_get (by decide +kernel)).symm, (by decide +kernel)⟩,
    ⟨witT fun x => { x with manifests := [man0], shards := [shard0] }, hd 1 0, 3, 0, _, actsOf (by decide +kernel), (Option.some_get (by decide +kernel)).symm, (by decide +kernel)⟩,
    ⟨rdy, hd 1 0, 168, _, actsOf (by decide +kernel), rfl⟩⟩

/-- States and operands that meet the hypotheses of FirmwareOpcodesAct. -/
theorem witness_FirmwareOpcodesAct :
    (∃ (s : State) (h : Hdr) (length : ℕ) (b : ℕ), Acts (pktFwBankBegin h length) s ∧ updTarget s.nv s.m = some b) ∧
    (∃ (s : State) (h : Hdr) (len : ℕ) (ptr : ℕ) (off : ℕ), Acts (pktFwBankData h len ptr off) s) ∧
    (∃ (s : State) (h : Hdr) (b : ℕ), Acts (pktFwBankAbandon h) s ∧ b = s.m.life.updBank) ∧
    (∃ (s : State) (h : Hdr), Acts (pktFwBankCommit h) s) ∧
    (∃ (s : State) (h : Hdr) (nonce : List Byte) (out : ℕ), Acts (pktAttest h nonce out) s ∧ s.m.life.leavesLeft ≠ 0 ∧ (recentSigns s.m).length < 256) ∧
    (∃ (s : State) (h : Hdr) (nonce : List Byte) (out : ℕ) (nv : Nv), Acts (pktAttest h nonce out) s ∧ s.m.life.leavesLeft = 0 ∧ s.nv.leaves < 2 ^ 40 ∧ (recentSigns s.m).length < 256 ∧ nv = { s.nv with leaves := s.nv.leaves + 1024 }) :=
  ⟨⟨rdy, hd 0 0, 4096, _, actsOf (by decide +kernel), (Option.some_get (by decide +kernel)).symm⟩,
    ⟨wit (modLife fun l => { l with updOpen := true, updLen := 4096, updBank := 1 }), hd 0 0, 4096, 0x1000, 0, actsOf (by decide +kernel)⟩,
    ⟨wit (modLife fun l => { l with updOpen := true, updLen := 4096, updBank := 1 }), hd 0 0, _, actsOf (by decide +kernel), rfl⟩,
    ⟨wit (modLife fun l => { l with updOpen := true, updLen := 4096, updBank := 1, written := 4096 }), hd 0 0, actsOf (by decide +kernel)⟩,
    ⟨wit (modLife fun l => { l with leavesLeft := 1 }), hd 1 0, zeros 32, 64, actsOf (by decide +kernel), (by decide +kernel), (by decide +kernel)⟩,
    ⟨rdy, hd 1 0, zeros 32, 64, _, actsOf (by decide +kernel), (by decide +kernel), (by decide +kernel), (by decide +kernel), rfl⟩⟩

/-- States and operands that meet the hypotheses of CaptureOpcodesAct. -/
theorem witness_CaptureOpcodesAct :
    (∃ (s : State) (h : Hdr) (fill : Bool) (boot : Bool) (gb : ℕ) (triggers : ℕ) (post : ℕ), Acts (pktCaptureStart h fill boot gb triggers post) s) ∧
    (∃ (s : State) (h : Hdr) (disarm : Bool) (at_ : Bool) (tick : ℕ), Acts (pktCaptureStop h disarm at_ tick) s ∧ s.m.cap.state ≠ 1 ∧ s.m.cap.state ≠ 2) ∧
    (∃ (s : State) (h : Hdr) (disarm : Bool) (tick : ℕ), Acts (pktCaptureStop h disarm true tick) s ∧ (s.m.cap.state = 1 ∨ s.m.cap.state = 2) ∧ s.m.tick.count ≤ tick) ∧
    (∃ (s : State) (h : Hdr) (out : ℕ) (off : ℕ) (len : ℕ), Acts (pktCaptureExport h out off len) s) :=
  ⟨⟨rdy, hd 0 0, true, true, 48, 0, 0, actsOf (by decide +kernel)⟩,
    ⟨rdy, hd 0 0, false, false, 0, actsOf (by decide +kernel), (by decide +kernel), (by decide +kernel)⟩,
    ⟨wit fun m => { m with cap := { m.cap with state := 1 } }, hd 0 0, true, 1000, actsOf (by decide +kernel), (by decide +kernel), (by decide +kernel)⟩,
    ⟨{ rdy with nv := { rdy.nv with bankA := { st := .active } } }, hd 0 0, 0x1000, 0, 4096, actsOf (by decide +kernel)⟩⟩

/-- States and operands that meet the hypotheses of QueuesAndGo. -/
theorem witness_QueuesAndGo :
    (∃ (s : State) (p : ℕ), isUp s.m = true ∧ (peaOf s.m p).ready = false) ∧
    (∃ (s : State) (p : ℕ), isUp s.m = true ∧ (peaOf s.m p).ready = false ∧ ((peaOf s.m p).pend.any fun x => x.2.last) = true) ∧
    (∃ (s : State), isUp s.m = true) ∧
    (∃ (s : State) (p : ℕ) (w : QueueWrite), isUp s.m = true ∧ (peaOf s.m p).ready = true ∧ w ≠ .withdraw) ∧
    (∃ (s : State), isUp s.m = true ∧ turnipRuns s.m = true ∧ s.m.tick.goDone = false ∧ s.m.life.mode ≠ .fault) ∧
    (∃ (s : State), isUp s.m = true ∧ (s.m.tick.goDone = true ∨ s.m.life.mode = .fault)) :=
  ⟨⟨rdy, 0, (by decide +kernel), (by decide +kernel)⟩,
    ⟨witP fun a => { a with pend := [(0, { last := true, ctx := 1, unit := 1, body := .wait 0 1 })] }, 0, (by decide +kernel), (by decide +kernel), (by decide +kernel)⟩,
    ⟨rdy, (by decide +kernel)⟩,
    ⟨witP fun a => { a with ready := true }, 0, .ready, (by decide +kernel), (by decide +kernel), (by decide +kernel)⟩,
    ⟨wit (modTick fun t => { t with goDone := false }), (by decide +kernel), (by decide +kernel), (by decide +kernel), (by decide +kernel)⟩,
    ⟨wit (modTick fun t => { t with goDone := true }), (by decide +kernel), (by decide +kernel)⟩⟩

/-- States and operands that meet the hypotheses of PeasStart. -/
theorem witness_PeasStart :
    (∃ (s : State) (p : ℕ) (a : Pea), isUp s.m = true ∧ s.m.peas[p]? = some a ∧ a.st = .staged) ∧
    (∃ (s : State) (p : ℕ), isUp s.m = true ∧ (peaOf s.m p).st = .run ∧ (peaOf s.m p).cold = true) ∧
    (∃ (s : State), isUp s.m = true) :=
  ⟨⟨atDesc .staged (.wait 0 1), 0, _, (by decide +kernel), (Option.some_get (by decide +kernel)).symm, (by decide +kernel)⟩,
    ⟨witP fun a => { a with st := .run }, 0, (by decide +kernel), (by decide +kernel), (by decide +kernel)⟩,
    ⟨rdy, (by decide +kernel)⟩⟩

/-- States and operands that meet the hypotheses of DescriptorsRun. -/
theorem witness_DescriptorsRun :
    (∃ (s : State) (p : ℕ) (u : WUnit) (d : Desc) (prog : ℕ) (entry : ℕ) (args : List ℕ) (q : ℕ × ℕ), isUp s.m = true ∧ (peaOf s.m p).st = .ready ∧ (peaOf s.m p).active = some u ∧ u.descs[(peaOf s.m p).ix]? = some d ∧ d.gated = false ∧ d.body = .run prog entry args ∧ slRange s.m u.ten false prog (min 32768 (sliceSize - prog % sliceSize)) = .ok [q] ∧ pieceBad s.m q = false) ∧
    (∃ (s : State) (p : ℕ) (u : WUnit) (d : Desc) (addr : ℕ) (target : ℕ) (bs : List Byte), isUp s.m = true ∧ (peaOf s.m p).st = .ready ∧ (peaOf s.m p).active = some u ∧ u.descs[(peaOf s.m p).ix]? = some d ∧ d.gated = false ∧ d.body = .wait addr target ∧ slRead s.m u.ten addr 4 = .ok bs ∧ unle bs < target) ∧
    (∃ (s : State) (p : ℕ) (u : WUnit) (d : Desc) (addr : ℕ) (target : ℕ) (bs : List Byte), isUp s.m = true ∧ p < s.m.peas.length ∧ (peaOf s.m p).st = .ready ∧ (peaOf s.m p).active = some u ∧ u.descs[(peaOf s.m p).ix]? = some d ∧ d.gated = false ∧ d.body = .wait addr target ∧ slRead s.m u.ten addr 4 = .ok bs ∧ target ≤ unle bs) ∧
    (∃ (s : State) (p : ℕ) (u : WUnit) (d : Desc) (addr : ℕ) (target : ℕ) (bs : List Byte), isUp s.m = true ∧ p < s.m.peas.length ∧ (peaOf s.m p).st = .waiting ∧ (peaOf s.m p).active = some u ∧ u.descs[(peaOf s.m p).ix]? = some d ∧ d.body = .wait addr target ∧ d.last = true ∧ slRead s.m u.ten addr 4 = .ok bs ∧ target ≤ unle bs) ∧
    (∃ (s : State) (p : ℕ) (u : WUnit) (d : Desc) (addr : ℕ) (inc : ℕ) (bs : List Byte) (m : Mach), isUp s.m = true ∧ p < s.m.peas.length ∧ (peaOf s.m p).st = .ready ∧ (peaOf s.m p).active = some u ∧ u.descs[(peaOf s.m p).ix]? = some d ∧ d.gated = false ∧ d.body = .post addr inc ∧ d.last = true ∧ slRead s.m u.ten addr 4 = .ok bs ∧ slWrite u.ten addr (le 4 ((unle bs + inc) % 2 ^ 32)) (chargeBytes p 4 (noteRead u.ten addr 4 false s.m)) = .ok m) ∧
    (∃ (s : State) (p : ℕ) (u : WUnit), isUp s.m = true ∧ p < s.m.peas.length ∧ (peaOf s.m p).st = .done ∧ (peaOf s.m p).active = some u) :=
  ⟨⟨atDesc .ready (.run 0 0 []), 0, _, _, 0, 0, [], (0, 32768), (by decide +kernel), (by decide +kernel), (Option.some_get (by decide +kernel)).symm, (Option.some_get (by decide +kernel)).symm, (by decide +kernel), (by decide +kernel), (by decide +kernel), (by decide +kernel)⟩,
    ⟨atDesc .ready (.wait 8 1), 0, _, _, 8, 1, _, (by decide +kernel), (by decide +kernel), (Option.some_get (by decide +kernel)).symm, (Option.some_get (by decide +kernel)).symm, (by decide +kernel), (by decide +kernel), rdOf_eq _ (by decide +kernel), (by decide +kernel)⟩,
    ⟨atDesc .ready (.wait 8 0), 0, _, _, 8, 0, _, (by decide +kernel), (by decide +kernel), (by decide +kernel), (Option.some_get (by decide +kernel)).symm, (Option.some_get (by decide +kernel)).symm, (by decide +kernel), (by decide +kernel), rdOf_eq _ (by decide +kernel), (by decide +kernel)⟩,
    ⟨atDesc .waiting (.wait 8 0), 0, _, _, 8, 0, _, (by decide +kernel), (by decide +kernel), (by decide +kernel), (Option.some_get (by decide +kernel)).symm, (Option.some_get (by decide +kernel)).symm, (by decide +kernel), (by decide +kernel), rdOf_eq _ (by decide +kernel), (by decide +kernel)⟩,
    ⟨atDesc .ready (.post 8 0xFFFFFFFF), 0, _, _, 8, 0xFFFFFFFF, _, _, (by decide +kernel), (by decide +kernel), (by decide +kernel), (Option.some_get (by decide +kernel)).symm, (Option.some_get (by decide +kernel)).symm, (by decide +kernel), (by decide +kernel), (by decide +kernel), rdOf_eq _ (by decide +kernel), okOf_eq _ (by decide +kernel)⟩,
    ⟨atDesc .done (.wait 8 0), 0, _, (by decide +kernel), (by decide +kernel), (by decide +kernel), (Option.some_get (by decide +kernel)).symm⟩⟩

/-- States and operands that meet the hypotheses of SliceAccesses. -/
theorem witness_SliceAccesses :
    (∃ (s : State) (p : ℕ) (a : ℕ) (n : ℕ) (bs : List Byte), isUp s.m = true ∧ (peaOf s.m p).st = .run ∧ slRead s.m (peaTen s.m p) a n = .ok bs) ∧
    (∃ (s : State) (p : ℕ) (a : ℕ) (bs : List Byte) (m : Mach), isUp s.m = true ∧ (peaOf s.m p).st = .run ∧ slWrite (peaTen s.m p) a bs s.m = .ok m) ∧
    (∃ (s : State) (p : ℕ) (a : ℕ) (bs : List Byte) (x : ℕ) (u : WUnit), isUp s.m = true ∧ p < s.m.peas.length ∧ (peaOf s.m p).st = .run ∧ (peaOf s.m p).active = some u ∧ slRange s.m u.ten true a bs.length = .error x) ∧
    (∃ (s : State) (p : ℕ) (a : ℕ) (wide : Bool) (op : AtomicOp) (x : Word64) (y : Word64) (bs : List Byte) (m : Mach), isUp s.m = true ∧ (peaOf s.m p).st = .run ∧ a % atomicSize wide = 0 ∧ slRead s.m (peaTen s.m p) a (atomicSize wide) = .ok bs ∧ slWrite (peaTen s.m p) a (le (atomicSize wide) (atomicNat wide op (unle bs) x.toNat y.toNat)) (chargeBytes p (atomicSize wide) (noteRead (peaTen s.m p) a (atomicSize wide) false s.m)) = .ok m) ∧
    (∃ (a : ℕ) (wide : Bool), a % atomicSize wide ≠ 0) ∧
    (∃ (s : State), isUp s.m = true) :=
  ⟨⟨runs, 0, 0x1FFFF8, 8, _, (by decide +kernel), (by decide +kernel), rdOf_eq _ (by decide +kernel)⟩,
    ⟨runs, 0, 0x1FFFF8, zeros 8, _, (by decide +kernel), (by decide +kernel), okOf_eq _ (by decide +kernel)⟩,
    ⟨runs, 0, 0x1FFFFF, zeros 2, _, _, (by decide +kernel), (by decide +kernel), (by decide +kernel), (Option.some_get (by decide +kernel)).symm, rfl⟩,
    ⟨runs, 0, 8, true, .add, 1, 0, _, _, (by decide +kernel), (by decide +kernel), (by decide +kernel), rdOf_eq _ (by decide +kernel), okOf_eq _ (by decide +kernel)⟩,
    ⟨4, true, (by decide +kernel)⟩,
    ⟨runs, (by decide +kernel)⟩⟩

/-- States and operands that meet the hypotheses of AlignGroups. -/
theorem witness_AlignGroups :
    (∃ (s : State) (p : ℕ) (g : ℕ), isUp s.m = true ∧ (peaOf s.m p).st = .run ∧ (tenOf s.m (peaTen s.m p)).aligns.find? (·.group == g) = none) ∧
    (∃ (s : State) (p : ℕ) (g : ℕ) (r : AlignRound), isUp s.m = true ∧ (peaOf s.m p).st = .run ∧ (tenOf s.m (peaTen s.m p)).aligns.find? (·.group == g) = some r ∧ r.peas.length + 1 = r.n) ∧
    (∃ (s : State) (p : ℕ) (g : ℕ) (n : ℕ) (r : AlignRound), isUp s.m = true ∧ (peaOf s.m p).st = .run ∧ (tenOf s.m (peaTen s.m p)).aligns.find? (·.group == g) = some r ∧ n ≠ r.n) ∧
    (∃ (s : State) (ten : ℕ) (g : ℕ) (r : AlignRound), isUp s.m = true ∧ (tenOf s.m ten).aligns.find? (·.group == g) = some r) :=
  ⟨⟨runs, 0, 15, (by decide +kernel), (by decide +kernel), (by decide +kernel)⟩,
    ⟨withM runs (modTen 0 (fun x => { x with aligns := [{ group := 15, n := 2, peas := [1] }] }) runs.m), 0, 15, _, (by decide +kernel), (by decide +kernel), (Option.some_get (by decide +kernel)).symm, (by decide +kernel)⟩,
    ⟨withM runs (modTen 0 (fun x => { x with aligns := [{ group := 15, n := 3, peas := [1] }] }) runs.m), 0, 15, 2, _, (by decide +kernel), (by decide +kernel), (Option.some_get (by decide +kernel)).symm, (by decide +kernel)⟩,
    ⟨withM runs (modTen 0 (fun x => { x with aligns := [{ group := 15, n := 3, peas := [1] }] }) runs.m), 0, 15, _, (by decide +kernel), (Option.some_get (by decide +kernel)).symm⟩⟩

/-- States and operands that meet the hypotheses of NumericInstructions. -/
theorem witness_NumericInstructions :
    (∃ (s : State) (p : ℕ) (n : ℕ) (u : WUnit), isUp s.m = true ∧ (peaOf s.m p).st = .run ∧ (peaOf s.m p).active = some u ∧ (insRising n (peaOf s.m p).named).length ≤ 8 ∧ (alGet n u.layers).isSome = true) ∧
    (∃ (s : State) (p : ℕ) (vsrc : ℕ) (r : Recipe) (g : Machine.Group), isUp s.m = true ∧ (peaOf s.m p).st = .run ∧ curRecipe (peaOf s.m p) = some r ∧ g = quantGroup r (smRead (peaOf s.m p).vector (64 * vsrc) 256)) ∧
    (∃ (s : State) (p : ℕ) (o : MatOp) (r : Recipe), isUp s.m = true ∧ (peaOf s.m p).st = .run ∧ curRecipe (peaOf s.m p) = some r ∧ matBad r (peaOf s.m p).acts o = false ∧ (peaOf s.m p).cold = false ∧ p < s.m.peas.length) ∧
    (∃ (s : State) (p : ℕ) (o : MatOp) (r : Recipe), isUp s.m = true ∧ (peaOf s.m p).st = .run ∧ curRecipe (peaOf s.m p) = some r ∧ matBad r (peaOf s.m p).acts o = false ∧ (peaOf s.m p).cold = true) ∧
    (∃ (s : State) (p : ℕ) (u : WUnit), isUp s.m = true ∧ (peaOf s.m p).st = .run ∧ (peaOf s.m p).active = some u ∧ (peaOf s.m p).layerSet = true) ∧
    (∃ (s : State) (p : ℕ), isUp s.m = true ∧ p < s.m.peas.length ∧ (peaOf s.m p).st = .run) :=
  ⟨⟨runs, 0, 3, _, (by decide +kernel), (by decide +kernel), (Option.some_get (by decide +kernel)).symm, (by decide +kernel), (by decide +kernel)⟩,
    ⟨runs, 0, 31, _, _, (by decide +kernel), (by decide +kernel), (Option.some_get (by decide +kernel)).symm, rfl⟩,
    ⟨runs, 0, mat0, _, (by decide +kernel), (by decide +kernel), (Option.some_get (by decide +kernel)).symm, (by decide +kernel), (by decide +kernel), (by decide +kernel)⟩,
    ⟨withM runs (modPea 0 (fun a => { a with cold := true }) runs.m), 0, mat0, _, (by decide +kernel), (by decide +kernel), (Option.some_get (by decide +kernel)).symm, (by decide +kernel), (by decide +kernel)⟩,
    ⟨runs, 0, _, (by decide +kernel), (by decide +kernel), (Option.some_get (by decide +kernel)).symm, (by decide +kernel)⟩,
    ⟨runs, 0, (by decide +kernel), (by decide +kernel), (by decide +kernel)⟩⟩

/-- States and operands that meet the hypotheses of AttentionInstructions. -/
theorem witness_AttentionInstructions :
    (∃ (s : State) (p : ℕ) (scores : ℕ) (e : ℕ) (k : ℕ) (ix : ℕ) (out : ℕ) (bs : List Byte) (m : Mach) (m' : Mach), isUp s.m = true ∧ (peaOf s.m p).st = .run ∧ slRead s.m (peaTen s.m p) scores (4 * e) = .ok bs ∧ slWrite (peaTen s.m p) ix ((topk (words4 bs) k).flatMap fun x => le 2 x.2) (chargeBytes p (4 * e) (noteRead (peaTen s.m p) scores (4 * e) true s.m)) = .ok m ∧ slWrite (peaTen s.m p) out (bytes4 ((topk (words4 bs) k).map (·.1))) (chargeBytes p ((topk (words4 bs) k).flatMap fun x => le 2 x.2).length m) = .ok m') ∧
    (∃ (s : State) (p : ℕ) (rec : ℕ) (vsrc : ℕ) (mask : Word64) (c : Word32) (bs : List Byte) (r : StatOut) (m : Mach), isUp s.m = true ∧ (peaOf s.m p).st = .run ∧ slRead s.m (peaTen s.m p) rec 8 = .ok bs ∧ r = astat ((words4 bs).getD 0 0) ((words4 bs).getD 1 0) (vreg (peaOf s.m p) vsrc) mask c ∧ (slWrite (peaTen s.m p) rec (bytes4 [r.newM, r.newL]) (chargeBytes p 8 (noteRead (peaTen s.m p) rec 8 true s.m)) = .ok m)) ∧
    (∃ (s : State) (p : ℕ) (rec : ℕ) (bs : List Byte) (l : Word32), isUp s.m = true ∧ (peaOf s.m p).st = .run ∧ slRead s.m (peaTen s.m p) rec 8 = .ok bs ∧ l = (words4 bs).getD 1 0) ∧
    (∃ (s : State) (p : ℕ) (rec : ℕ) (bs : List Byte), isUp s.m = true ∧ (peaOf s.m p).st = .run ∧ slRead s.m (peaTen s.m p) rec 8 = .ok bs) :=
  ⟨⟨runs, 0, 0, 4, 2, 0x100, 0x200, _, _, _, (by decide +kernel), (by decide +kernel), rdOf_eq _ (by decide +kernel), okOf_eq _ (by decide +kernel), okOf_eq _ (by decide +kernel)⟩,
    ⟨runs, 0, 0, 0, 0, 0, _, _, _, (by decide +kernel), (by decide +kernel), rdOf_eq _ (by decide +kernel), rfl, okOf_eq _ (by decide +kernel)⟩,
    ⟨runs, 0, 0, _, _, (by decide +kernel), (by decide +kernel), rdOf_eq _ (by decide +kernel), rfl⟩,
    ⟨runs, 0, 0, _, (by decide +kernel), (by decide +kernel), rdOf_eq _ (by decide +kernel)⟩⟩

/-- States and operands that meet the hypotheses of MovesAndStalls. -/
theorem witness_MovesAndStalls :
    (∃ (s : State) (p : ℕ) (u : WUnit) (d : Desc) (b : MoveBody), isUp s.m = true ∧ p < s.m.peas.length ∧ (peaOf s.m p).st = .ready ∧ (peaOf s.m p).active = some u ∧ u.descs[(peaOf s.m p).ix]? = some d ∧ d.gated = false ∧ d.body = .move b ∧ moveValid b = true ∧ b.op = 0 ∧ s.m.life.removal = false) ∧
    (∃ (s : State) (p : ℕ) (u : WUnit) (d : Desc) (b : MoveBody) (bs : List Byte) (m : Mach), isUp s.m = true ∧ p < s.m.peas.length ∧ (peaOf s.m p).st = .moving ∧ (peaOf s.m p).pkts = [] ∧ (peaOf s.m p).mvStatus = .ok ∧ (peaOf s.m p).mvTodo = true ∧ (peaOf s.m p).active = some u ∧ u.descs[(peaOf s.m p).ix]? = some d ∧ d.body = .move b ∧ d.last = true ∧ b.op = 0 ∧ b.cmp = 0 ∧ b.rows = 1 ∧ slRead s.m u.ten b.src b.rowBytes = .ok bs ∧ slWrite u.ten b.dst bs (noteRead u.ten b.src b.rowBytes true s.m) = .ok m) ∧
    (∃ (s : State) (p : ℕ) (u : WUnit) (d : Desc) (b : MoveBody), isUp s.m = true ∧ p < s.m.peas.length ∧ (peaOf s.m p).st = .moving ∧ (peaOf s.m p).pkts = [] ∧ (peaOf s.m p).mvStatus = .ok ∧ (peaOf s.m p).mvTodo = false ∧ (peaOf s.m p).mvPhase = 0 ∧ (peaOf s.m p).active = some u ∧ u.descs[(peaOf s.m p).ix]? = some d ∧ d.body = .move b ∧ d.last = true) ∧
    (∃ (s : State) (p : ℕ) (t : ℕ) (tier : ℕ) (n : ℕ) (us : ℕ) (u : WUnit), isUp s.m = true ∧ p < 192 ∧ p < s.m.peas.length ∧ ((peaOf s.m p).st = .stalled t [(n, tier, us)]) ∧ (peaOf s.m p).active = some u ∧ due s.m us (u.stallMs * 1000) = true) :=
  ⟨⟨atDesc .ready (.move { op := 0, rowBytes := 8, src := 0, dst := 64 }), 0, _, _, { op := 0, rowBytes := 8, src := 0, dst := 64 }, (by decide +kernel), (by decide +kernel), (by decide +kernel), (Option.some_get (by decide +kernel)).symm, (Option.some_get (by decide +kernel)).symm, (by decide +kernel), (by decide +kernel), (by decide +kernel), (by decide +kernel), (by decide +kernel)⟩,
    ⟨withM (atDesc .moving (.move { op := 0, rowBytes := 8, src := 0, dst := 64 })) (modPea 0 (fun a => { a with mvTodo := true }) (atDesc .moving (.move { op := 0, rowBytes := 8, src := 0, dst := 64 })).m), 0, _, _, { op := 0, rowBytes := 8, src := 0, dst := 64 }, _, _, (by decide +kernel), (by decide +kernel), (by decide +kernel), (by decide +kernel), (by decide +kernel), (by decide +kernel), (Option.some_get (by decide +kernel)).symm, (Option.some_get (by decide +kernel)).symm, (by decide +kernel), (by decide +kernel), (by decide +kernel), (by decide +kernel), (by decide +kernel), rdOf_eq _ (by decide +kernel), okOf_eq _ (by decide +kernel)⟩,
    ⟨atDesc .moving (.move { op := 0, rowBytes := 8, src := 0, dst := 64 }), 0, _, _, { op := 0, rowBytes := 8, src := 0, dst := 64 }, (by decide +kernel), (by decide +kernel), (by decide +kernel), (by decide +kernel), (by decide +kernel), (by decide +kernel), (by decide +kernel), (Option.some_get (by decide +kernel)).symm, (Option.some_get (by decide +kernel)).symm, (by decide +kernel), (by decide +kernel)⟩,
    ⟨withM (atDesc (.stalled 0 [(5, 2, 0)]) (.wait 0 1)) (modTick (fun t => { t with nowUs := 100000 }) (atDesc (.stalled 0 [(5, 2, 0)]) (.wait 0 1)).m), 0, 0, 2, 5, 0, _, (by decide +kernel), (by decide +kernel), (by decide +kernel), (by decide +kernel), (Option.some_get (by decide +kernel)).symm, (by decide +kernel)⟩⟩

/-- States and operands that meet the hypotheses of ExchangeHappenings. -/
theorem witness_ExchangeHappenings :
    (∃ (s : State) (c : ℕ) (layer : ℕ) (q : Step) (ph : ℕ) (x : Layout) (l : Layout), isUp s.m = true ∧ q ∈ s.m.stp.steps ∧ ((∀ y ∈ s.m.stp.steps, y.ctx = c → y = q)) ∧ q.ctx = c ∧ q.areaDone = true ∧ q.cutDone = false ∧ ph < q.blk.phases ∧ routerDone s.m q ph = true ∧ (phaseAt s.m q ph).bind (expertOf s.m c) = some x ∧ x.blk.layer = layer ∧ findLayout s.m c layer = some l ∧ l.isOpen = false) ∧
    (∃ (s : State) (t : ℕ) (q : ℕ) (h : ExpHdr) (k : Queue) (l : Layout) (b : ℕ) (x : QBuf), isUp s.m = true ∧ findQueue s.m t q = some k ∧ queueLayout s.m k = some l ∧ b = h.round % 2 ∧ x = bufOf k b ∧ h.type = 1 ∧ h.layoutId = k.blk.layoutId ∧ h.round = x.round ∧ h.index < l.blk.sources.length ∧ x.faulted = false ∧ (x.hdrs.any fun y => y.1 == h.index) = false ∧ h.fault = false ∧ x.hdrs.length + 1 ≠ l.blk.sources.length) ∧
    (∃ (s : State) (t : ℕ) (q : ℕ) (h : ExpHdr) (k : Queue) (l : Layout) (b : ℕ) (x : QBuf), isUp s.m = true ∧ findQueue s.m t q = some k ∧ queueLayout s.m k = some l ∧ b = h.round % 2 ∧ x = bufOf k b ∧ h.type = 1 ∧ h.layoutId = k.blk.layoutId ∧ h.round = x.round ∧ h.index < l.blk.sources.length ∧ x.faulted = false ∧ (x.hdrs.any fun y => y.1 == h.index) = false ∧ h.fault = false ∧ x.hdrs.length + 1 = l.blk.sources.length) ∧
    (∃ (s : State) (t : ℕ) (q : ℕ) (h : ExpHdr), isUp s.m = true ∧ (findQueue s.m t q = none ∨ h.type ≠ 1)) ∧
    (∃ (s : State) (t : ℕ) (q : ℕ) (pos : ℕ) (g : RowTag) (k : Queue) (l : Layout) (b : ℕ) (x : QBuf) (m : Mach), isUp s.m = true ∧ findQueue s.m t q = some k ∧ queueLayout s.m k = some l ∧ b = g.round % 2 ∧ x = bufOf k b ∧ g.round = x.round ∧ x.faulted = false ∧ g.source < l.blk.sources.length ∧ pos < l.blk.srcCap ∧ m = modBuf t q b (fun x => { x with rowsIn := true }) s.m ∧ dataBad m t k (tagOff l.blk b g.source pos) 16 = false ∧ dataBad m t k (rowOff l.blk b g.source pos) (rowBytes l.blk) = false) ∧
    (∃ (s : State) (t : ℕ) (q : ℕ) (k : Queue) (l : Layout) (x : QBuf), isUp s.m = true ∧ findQueue s.m t q = some k ∧ queueLayout s.m k = some l ∧ x = bufOf k (k.expected % 2) ∧ x.complete = true ∧ x.acted = true ∧ x.todo = [] ∧ queueUnitsGone s.m t q (k.expected % 2) = true) ∧
    (∃ (s : State) (c : ℕ) (layer : ℕ) (g : RowTag) (l : Layout) (bs : List Byte) (ten : ℕ) (m : Mach), isUp s.m = true ∧ findLayout s.m c layer = some l ∧ ten = (ctxOf s.m c).ten ∧ l.isOpen = true ∧ g.round = l.openRound ∧ (slotOf s.m c g.slot).gen = g.gen ∧ g.row < l.rows ∧ g.rank < l.blk.topk ∧ slRead s.m ten (gatherTag l g.row g.rank) 16 = .ok bs ∧ (readTag bs).status = 0 ∧ (readTag bs).slot = g.slot ∧ (readTag bs).gen = g.gen ∧ (readTag bs).expert = g.expert ∧ m = noteRead ten (gatherTag l g.row g.rank) 16 true s.m) ∧
    (∃ (s : State) (c : ℕ) (layer : ℕ) (g : RowTag) (l : Layout), isUp s.m = true ∧ findLayout s.m c layer = some l ∧ (l.isOpen = false ∨ g.round ≠ l.openRound)) ∧
    (∃ (s : State) (c : ℕ) (layer : ℕ) (h : ExpHdr) (l : Layout), isUp s.m = true ∧ findLayout s.m c layer = some l ∧ h.type = 2 ∧ h.layoutId = l.blk.layoutId ∧ h.index < l.blk.experts.length ∧ alGet h.index l.lastReturn = none ∧ l.isOpen = false) ∧
    (∃ (s : State) (c : ℕ) (layer : ℕ) (l : Layout), isUp s.m = true ∧ findLayout s.m c layer = some l ∧ l.isOpen = true ∧ l.passCut = true ∧ l.startTick + (if l.blk.hdrWait = 0 then 8 else l.blk.hdrWait) ≤ s.m.tick.count) ∧
    (∃ (s : State) (p : ℕ) (t : ℕ) (q : ℕ) (ta : ℕ) (aa : ℕ) (k : Queue) (l : Layout) (bs : List Byte) (ans : List Byte) (node : ℕ) (m : Mach), isUp s.m = true ∧ (peaOf s.m p).st = .run ∧ peaTen s.m p = t ∧ findQueue s.m t q = some k ∧ queueLayout s.m k = some l ∧ k.blk.dataSlice = true ∧ slRead s.m t ta 16 = .ok bs ∧ m = chargeBytes p 16 (noteRead t ta 16 true s.m) ∧ slRead m t aa (ansBytes l.blk) = .ok ans ∧ l.blk.sources[(readTag bs).source]? = some node ∧ node = selfNode s.m) :=
  ⟨⟨wit fun m => m |> modCtx 1 (fun x => { x with layouts := [{ blk := lay0 }] }) |> modMem (fun x => { x with pages := [pgIn .hbm 0] }) |> devPut 0 64 [3, 0, 1] |> modStp (fun x => { x with steps := [step0] }), 1, 3, step0, 1, _, _, (by decide +kernel), (by decide +kernel), (by decide +kernel), (by decide +kernel), (by decide +kernel), (by decide +kernel), (by decide +kernel), (by decide +kernel), (Option.some_get (by decide +kernel)).symm, (by decide +kernel), (Option.some_get (by decide +kernel)).symm, (by decide +kernel)⟩,
    ⟨wit (modCtx 1 (fun x => { x with layouts := [{ blk := { lay0 with sources := [0, 1] } }] }) ∘ queS id), 0, 2, exp0, _, _, _, _, (by decide +kernel), (Option.some_get (by decide +kernel)).symm, (Option.some_get (by decide +kernel)).symm, rfl, rfl, (by decide +kernel), (by decide +kernel), (by decide +kernel), (by decide +kernel), (by decide +kernel), (by decide +kernel), (by decide +kernel), (by decide +kernel)⟩,
    ⟨wit (queS id), 0, 2, exp0, _, _, _, _, (by decide +kernel), (Option.some_get (by decide +kernel)).symm, (Option.some_get (by decide +kernel)).symm, rfl, rfl, (by decide +kernel), (by decide +kernel), (by decide +kernel), (by decide +kernel), (by decide +kernel), (by decide +kernel), (by decide +kernel), (by decide +kernel)⟩,
    ⟨rdy, 0, 2, exp0, (by decide +kernel), (by decide +kernel)⟩,
    ⟨wit (queS id), 0, 2, 3, { tag0 with expert := 0 }, _, _, _, _, _, (by decide +kernel), (Option.some_get (by decide +kernel)).symm, (Option.some_get (by decide +kernel)).symm, rfl, rfl, (by decide +kernel), (by decide +kernel), (by decide +kernel), (by decide +kernel), rfl, (by decide +kernel), (by decide +kernel)⟩,
    ⟨wit (queS fun q => { q with buf0 := { round := 0, complete := true, acted := true } }), 0, 2, _, _, _, (by decide +kernel), (Option.some_get (by decide +kernel)).symm, (Option.some_get (by decide +kernel)).symm, rfl, (by decide +kernel), (by decide +kernel), (by decide +kernel), (by decide +kernel)⟩,
    ⟨wit (layS id), 1, 3, tag0, _, _, _, _, (by decide +kernel), (Option.some_get (by decide +kernel)).symm, rfl, (by decide +kernel), (by decide +kernel), (by decide +kernel), (by decide +kernel), (by decide +kernel), rdOf_eq _ (by decide +kernel), (by decide +kernel), (by decide +kernel), (by decide +kernel), (by decide +kernel), rfl⟩,
    ⟨wit (layS id), 1, 3, { tag0 with round := 1 }, _, (by decide +kernel), (Option.some_get (by decide +kernel)).symm, (by decide +kernel)⟩,
    ⟨wit (layS fun l => { l with isOpen := false }), 1, 3, { exp0 with type := 2 }, _, (by decide +kernel), (Option.some_get (by decide +kernel)).symm, (by decide +kernel), (by decide +kernel), (by decide +kernel), (by decide +kernel), (by decide +kernel)⟩,
    ⟨wit (layS fun l => { l with passCut := true }), 1, 3, _, (by decide +kernel), (Option.some_get (by decide +kernel)).symm, (by decide +kernel), (by decide +kernel), (by decide +kernel)⟩,
    ⟨wit (net ∘ modPea 0 (fun a => { a with active := some (unit1 (.run 0 0 [])), st := .run }) ∘ queS id), 0, 0, 2, 0, 64, _, _, _, _, _, _, (by decide +kernel), (by decide +kernel), (by decide +kernel), (Option.some_get (by decide +kernel)).symm, (Option.some_get (by decide +kernel)).symm, (by decide +kernel), rdOf_eq _ (by decide +kernel), rfl, rdOf_eq _ (by decide +kernel), (Option.some_get (by decide +kernel)).symm, (by decide +kernel)⟩⟩

/-- States and operands that meet the hypotheses of CollectiveHappenings. -/
theorem witness_CollectiveHappenings :
    (∃ (s : State) (p : ℕ) (id : ℕ) (count : ℕ) (u : WUnit) (k : Coll), isUp s.m = true ∧ (peaOf s.m p).st = .run ∧ (peaOf s.m p).active = some u ∧ findColl s.m u.ctx id = some k ∧ k.isOpen = false ∧ count ≤ k.blk.maxCount ∧ count % 256 = 0 ∧ k.blk.nodes.all (s.m.tick.members.contains ·) = true) ∧
    (∃ (s : State) (p : ℕ) (id : ℕ) (count : ℕ) (u : WUnit) (k : Coll), isUp s.m = true ∧ (peaOf s.m p).st = .run ∧ (peaOf s.m p).active = some u ∧ findColl s.m u.ctx id = some k ∧ (k.isOpen = true ∨ k.blk.maxCount < count ∨ count % 256 ≠ 0)) ∧
    (∃ (s : State) (c : ℕ) (h : CollHdr) (k : Coll) (slot : ℕ), isUp s.m = true ∧ findColl s.m c h.collId = some k ∧ slot = slotNo k h.round h.stage ∧ h.round = (if h.round % 2 = k.round % 2 then k.round else wrap 32 (k.round + 1)) ∧ h.stage ∈ owedHeaders k ∧ h.sender = prevRank k ∧ alGet slot k.arrived = none) ∧
    (∃ (s : State) (c : ℕ) (h : CollHdr), isUp s.m = true ∧ findColl s.m c h.collId = none) ∧
    (∃ (s : State) (c : ℕ) (h : CollHdr) (k : Coll), isUp s.m = true ∧ findColl s.m c h.collId = some k ∧ h.sender ≠ prevRank k) ∧
    (∃ (s : State) (c : ℕ) (id : ℕ) (k : Coll), isUp s.m = true ∧ findColl s.m c id = some k ∧ k.isOpen = true ∧ k.startTick + (if k.blk.waitTicks = 0 then 8 else k.blk.waitTicks) ≤ s.m.tick.count) :=
  ⟨⟨collS id, 0, 4, 256, _, _, (by decide +kernel), (by decide +kernel), (Option.some_get (by decide +kernel)).symm, (Option.some_get (by decide +kernel)).symm, (by decide +kernel), (by decide +kernel), (by decide +kernel), (by decide +kernel)⟩,
    ⟨collS (fun k => { k with isOpen := true }), 0, 4, 256, _, _, (by decide +kernel), (by decide +kernel), (Option.some_get (by decide +kernel)).symm, (Option.some_get (by decide +kernel)).symm, (Or.inl (by decide +kernel))⟩,
    ⟨collS id, 1, { collId := 4, round := 1, stage := 0, sender := 1, count := 256 }, _, _, (by decide +kernel), (Option.some_get (by decide +kernel)).symm, rfl, (by decide +kernel), (by decide +kernel), (by decide +kernel), (by decide +kernel)⟩,
    ⟨collS id, 1, { collId := 5, round := 0, stage := 0, sender := 1, count := 256 }, (by decide +kernel), (by decide +kernel)⟩,
    ⟨collS id, 1, { collId := 4, round := 0, stage := 0, sender := 0, count := 256 }, _, (by decide +kernel), (Option.some_get (by decide +kernel)).symm, (by decide +kernel)⟩,
    ⟨collS (fun k => { k with isOpen := true, startTick := 992 }), 1, 4, _, (by decide +kernel), (Option.some_get (by decide +kernel)).symm, (by decide +kernel), (by decide +kernel)⟩⟩

/-- States and operands that meet the hypotheses of ShardHappenings. -/
theorem witness_ShardHappenings :
    (∃ (s : State) (t : ℕ) (slot : ℕ) (shard : ℕ) (data : List Byte) (k : Shard) (r : Nv × Mach), isUp s.m = true ∧ findShard s.m t slot shard = some k ∧ k.st = .installing ∧ k.blk.upstream = true ∧ data.length = min 65536 (k.length - 65536 * k.next) ∧ r = takeChunk t k data s.nv s.m) ∧
    (∃ (s : State) (t : ℕ) (slot : ℕ) (shard : ℕ) (k : Shard) (bs : List Byte) (off : ℕ) (n : ℕ) (r : Nv × Mach), isUp s.m = true ∧ findShard s.m t slot shard = some k ∧ k.st = .installing ∧ k.blk.upstream = false ∧ n = min 65536 (k.length - 65536 * k.next) ∧ off = k.blk.src + 65536 * k.next ∧ s.nv.flash.state ≠ .offline ∧ devRead s.m t off n = .ok bs ∧ r = takeChunk t k bs s.nv (noteDev t off n s.m)) ∧
    (∃ (s : State) (t : ℕ) (slot : ℕ) (shard : ℕ) (k : Shard) (m : Mach) (pages : List Page), isUp s.m = true ∧ findShard s.m t slot shard = some k ∧ k.st = .hashed ∧ (shardEntry s.m t slot shard).map (·.2) = some (sha256 k.bytes) ∧ m = devPut t (k.blk.basePage * pageSize) k.bytes s.m ∧ (pages = (List.range (shardPages k)).map (fun i => ({ ten := t, num := k.blk.basePage + i, key := k.key, tier := k.tiers.getD i .hbm, pin := bit k.blk.pinHbm, lastTouch := s.m.tick.count, ctx := k.ctx, claim := 4, owner := 65536 * slot + shard, crcs := if k.tiers.getD i .hbm == .hbm then [] else pageCrcs m t (k.blk.basePage + i) } : Page)))) ∧
    (∃ (s : State) (t : ℕ) (slot : ℕ) (shard : ℕ) (k : Shard), isUp s.m = true ∧ findShard s.m t slot shard = some k ∧ k.st = .hashed ∧ (shardEntry s.m t slot shard).map (·.2) ≠ some (sha256 k.bytes)) ∧
    (∃ (s : State) (t : ℕ) (slot : ℕ) (shard : ℕ) (k : Shard), isUp s.m = true ∧ findShard s.m t slot shard = some k ∧ k.st = .installing ∧ k.blk.upstream = true ∧ k.lastHdrUs + 1000000 ≤ s.m.tick.nowUs) ∧
    (∃ (s : State) (t : ℕ) (k : Shard) (bs : List Byte) (m : Mach), isUp s.m = true ∧ (nextCheck s.m = some (t, k)) ∧ m = noteDev t (k.blk.basePage * pageSize) k.length (modFab (fun f => { f with shVerBytes := f.shVerBytes + k.length }) s.m) ∧ devRead m t (k.blk.basePage * pageSize) k.length = .ok bs ∧ (shardEntry m t k.blk.slot k.blk.shard).map (·.2) = some (sha256 bs)) ∧
    (∃ (s : State) (t : ℕ) (k : Shard) (bs : List Byte) (m : Mach), isUp s.m = true ∧ (nextCheck s.m = some (t, k)) ∧ m = noteDev t (k.blk.basePage * pageSize) k.length (modFab (fun f => { f with shVerBytes := f.shVerBytes + k.length }) s.m) ∧ devRead m t (k.blk.basePage * pageSize) k.length = .ok bs ∧ (shardEntry m t k.blk.slot k.blk.shard).map (·.2) ≠ some (sha256 bs)) ∧
    (∃ (s : State), isUp s.m = true) :=
  ⟨⟨shardS { shard0 with blk := { slot := 3, shard := 0, basePage := 40, upstream := true }, st := .installing }, 0, 3, 0, [1, 2, 3], _, _, (by decide +kernel), (Option.some_get (by decide +kernel)).symm, (by decide +kernel), (by decide +kernel), (by decide +kernel), rfl⟩,
    ⟨wit (modMem (fun x => { x with pages := [pgIn .hbm 0] }) ∘ modTen 0 (fun x => { x with manifests := [man0], shards := [{ shard0 with st := .installing }] })), 0, 3, 0, _, zeros 3, _, _, _, (by decide +kernel), (Option.some_get (by decide +kernel)).symm, (by decide +kernel), (by decide +kernel), rfl, rfl, (by decide +kernel), (by decide +kernel), rfl⟩,
    ⟨shardS { shard0 with st := .hashed, bytes := [1, 2, 3], tiers := [.hbm] }, 0, 3, 0, _, _, _, (by decide +kernel), (Option.some_get (by decide +kernel)).symm, (by decide +kernel), (by decide +kernel), rfl, rfl⟩,
    ⟨shardS { shard0 with st := .hashed, bytes := [1, 2, 4], tiers := [.hbm] }, 0, 3, 0, _, (by decide +kernel), (Option.some_get (by decide +kernel)).symm, (by decide +kernel), (by decide +kernel)⟩,
    ⟨wit (modTick (fun t => { t with nowUs := 1000000 }) ∘ modTen 0 (fun x => { x with manifests := [man0], shards := [{ shard0 with blk := { slot := 3, shard := 0, basePage := 40, upstream := true }, st := .installing }] })), 0, 3, 0, _, (by decide +kernel), (Option.some_get (by decide +kernel)).symm, (by decide +kernel), (by decide +kernel), (by decide +kernel)⟩,
    ⟨wit (devPut 0 (40 * pageSize) [1, 2, 3] ∘ modMem (fun x => { x with pages := [pgIn .hbm 40] }) ∘ modTen 0 (fun x => { x with manifests := [man0], shards := [shard0] })), 0, shard0, _, _, (by decide +kernel), (by decide +kernel), rfl, rdOf_eq _ (by decide +kernel), (by decide +kernel)⟩,
    ⟨wit (modMem (fun x => { x with pages := [pgIn .hbm 40] }) ∘ modTen 0 (fun x => { x with manifests := [man0], shards := [shard0] })), 0, shard0, _, _, (by decide +kernel), (by decide +kernel), rfl, rdOf_eq _ (by decide +kernel), (by decide +kernel)⟩,
    ⟨rdy, (by decide +kernel)⟩⟩

/-- State and operands that meet the hypotheses of a clause of MigrationHappenings. -/
theorem witness_MigrationHappenings_1 :
    ∃ (s : State) (t : ℕ) (n : ℕ) (tier : ℕ) (dest : Tier) (g : Page) (a : Ask), isUp s.m = true ∧ s.m.life.removal = false ∧ dest = tierOf tier ∧ s.m.mem.asks.find? (fun a => a.ten == t && a.page == n && a.dest == dest) = some a ∧ findPage s.m t n = some g ∧ (g.claim ≠ 1 ∨ dest ≠ .hbm ∨ (∃ p, findPool s.m t g.owner = some p ∧ poolRoom s.m t p = true)) ∧ g.mig = none ∧ g.tier ≠ dest ∧ keyFrozen s.m t g.key = false ∧ (¬ (dest = .hbm ∧ g.tier ≠ .zero ∧ g.crcBad ≠ [])) ∧ ((a.victim = true → stillVictim s.m t g = true)) ∧ ((isSpill a g = false → pinHolds g dest = false)) ∧ (¬ (dest = .flash ∧ (s.nv.flash.state = .readOnly ∨ s.nv.flash.state = .offline))) ∧ (¬ (g.tier = .flash ∧ s.nv.flash.state = .offline)) ∧ freeFrames s.m dest ≠ 0 ∧ ((height g.tier < height dest → ∀ b ∈ s.m.mem.asks.takeWhile (fun a => !(a.ten == t && a.page == n && a.dest == dest)), isPromotion s.m b = true → askNow s.nv.flash.state s.m b ≠ .start)) :=
  ⟨wit (modMem fun x => { x with pages := [pgIn .lp 5], asks := [{ ten := 0, page := 5, dest := .hbm }] }), 0, 5, 1, _, _, _, (by decide +kernel), (by decide +kernel), rfl, (Option.some_get (by decide +kernel)).symm, (Option.some_get (by decide +kernel)).symm, (Or.inl (by decide +kernel)), (by decide +kernel), (by decide +kernel), (by decide +kernel), (by decide +kernel), (by decide +kernel), (by decide +kernel), (by decide +kernel), (by decide +kernel), (by decide +kernel), (by decide +kernel)⟩

/-- State and operands that meet the hypotheses of a clause of MigrationHappenings. -/
theorem witness_MigrationHappenings_2 :
    ∃ (s : State) (t : ℕ) (n : ℕ) (tier : ℕ) (dest : Tier) (g : Page) (a : Ask), isUp s.m = true ∧ dest = tierOf tier ∧ s.m.mem.asks.find? (fun a => a.ten == t && a.page == n && a.dest == dest) = some a ∧ findPage s.m t n = some g ∧ g.tier ≠ dest ∧ g.mig = none ∧ keyFrozen s.m t g.key = false ∧ (¬ (dest = .hbm ∧ g.tier ≠ .zero ∧ g.crcBad ≠ [])) ∧ ((a.victim = true → stillVictim s.m t g = true)) ∧ ((isSpill a g = false → pinHolds g dest = false)) ∧ (¬ (dest = .flash ∧ (s.nv.flash.state = .readOnly ∨ s.nv.flash.state = .offline))) ∧ (¬ (g.tier = .flash ∧ s.nv.flash.state = .offline)) ∧ freeFrames s.m dest = 0 :=
  ⟨crowded 913479, 0, 5, 1, _, _, _, (by decide +kernel), rfl, (Option.some_get (by decide +kernel)).symm, (Option.some_get (by decide +kernel)).symm, (by decide +kernel), (by decide +kernel), (by decide +kernel), (by decide +kernel), (by decide +kernel), (by decide +kernel), (by decide +kernel), (by decide +kernel), (crowded_full _ (Nat.le_refl _))⟩

/-- State and operands that meet the hypotheses of a clause of MigrationHappenings. -/
theorem witness_MigrationHappenings_3 :
    ∃ (s : State), s.m.life.removal = true :=
  ⟨wit (modLife fun l => { l with removal := true }), (by decide +kernel)⟩

/-- State and operands that meet the hypotheses of a clause of MigrationHappenings. -/
theorem witness_MigrationHappenings_4 :
    ∃ (s : State) (t : ℕ) (n : ℕ) (g : Page) (mg : Mig) (errs : List (ℕ × ℕ)) (x : Mach) (m : Mach), isUp s.m = true ∧ findPage s.m t n = some g ∧ g.mig = some mg ∧ g.tier ≠ .zero ∧ pagePoisoned s.m t n = false ∧ (¬ (mg.dest = .hbm ∧ g.crcBad ≠ [])) ∧ (¬ (mg.dest = .flash ∧ (s.nv.flash.state = .readOnly ∨ s.nv.flash.state = .offline))) ∧ ((g.tier = .flash ∨ (g.tier = .lp ∧ mg.dest = .hbm) → ∀ b, b < 32 → blockFails s.m t g errs b = false)) ∧ x = readSource t g errs (countDecoded t g errs s.m) ∧ m = countMove t g mg (landPage t n g mg.dest x) :=
  ⟨wit (modMem fun x => { x with pages := [{ pgIn .hbm 5 with mig := some { dest := .lp } }] }), 0, 5, _, _, [], _, _, (by decide +kernel), (Option.some_get (by decide +kernel)).symm, (Option.some_get (by decide +kernel)).symm, (by decide +kernel), (by decide +kernel), (by decide +kernel), (by decide +kernel), (by decide +kernel), rfl, rfl⟩

/-- State and operands that meet the hypotheses of a clause of MigrationHappenings. -/
theorem witness_MigrationHappenings_5 :
    ∃ (s : State) (t : ℕ) (n : ℕ) (g : Page) (mg : Mig) (errs : List (ℕ × ℕ)) (bad : List ℕ), isUp s.m = true ∧ findPage s.m t n = some g ∧ g.mig = some mg ∧ (g.tier = .flash ∨ (g.tier = .lp ∧ mg.dest = .hbm)) ∧ bad = (List.range 32).filter (blockFails s.m t g errs) ∧ bad ≠ [] :=
  ⟨wit (modMem fun x => { x with pages := [{ pgIn .lp 5 with mig := some { dest := .hbm }, crcs := List.replicate 32 (crcSparse crcBlock []) }] }), 0, 5, _, _, [(131072, 1)], _, (by decide +kernel), (Option.some_get (by decide +kernel)).symm, (Option.some_get (by decide +kernel)).symm, (by decide +kernel), rfl, (by decide +kernel)⟩

/-- State and operands that meet the hypotheses of a clause of MigrationHappenings. -/
theorem witness_MigrationHappenings_6 :
    ∃ (s : State) (t : ℕ) (n : ℕ), isUp s.m = true ∧ ((∀ x ∈ s.m.mem.lingering, x.1 ≠ t ∨ x.2.1 ≠ n)) :=
  ⟨rdy, 0, 5, (by decide +kernel), (by decide +kernel)⟩

/-- State and operands that meet the hypotheses of a clause of MigrationHappenings. -/
theorem witness_MigrationHappenings_7 :
    ∃ (s : State) (t : ℕ) (n : ℕ) (d : Tier) (r : List (ℕ × ℕ × Tier)), isUp s.m = true ∧ (s.m.mem.lingering = (t, n, d) :: r) :=
  ⟨wit (modMem fun x => { x with lingering := [(3, 9, .hbm)] }), 3, 9, .hbm, [], (by decide +kernel), (by decide +kernel)⟩

/-- State and operands that meet the hypotheses of a clause of MigrationHappenings. -/
theorem witness_MigrationHappenings_8 :
    ∃ (s : State) (x : ℕ × Tier) (r : List (ℕ × Tier)), isUp s.m = true ∧ s.m.mem.reclaimQ = x :: r :=
  ⟨wit (modMem fun x => { x with reclaimQ := [(3, .hbm)] }), (3, .hbm), [], (by decide +kernel), (by decide +kernel)⟩

/-- State and operands that meet the hypotheses of a clause of MigrationHappenings. -/
theorem witness_MigrationHappenings_9 :
    ∃ (s : State) (t : ℕ) (k : ℕ) (p : Pool) (g : Page), isUp s.m = true ∧ findPool s.m t k = some p ∧ p.geo.lpPages < ((poolPages s.m t k).filter (·.tier == .lp)).length ∧ s.nv.flash.state ≠ .readOnly ∧ s.nv.flash.state ≠ .offline ∧ (sortBy victimLe (((poolPages s.m t k).filter (·.tier == .lp)).filter fun g => !leaving s.m g)).head? = some g :=
  ⟨wit (modMem (fun x => { x with pages := [{ pgIn .lp 20 with claim := 1 }, { pgIn .lp 21 with claim := 1 }] }) ∘ modTen 0 (fun x => { x with pools := [{ pool0 with geo := { geo0 with lpPages := 1 } }] })), 0, 0, _, _, (by decide +kernel), (Option.some_get (by decide +kernel)).symm, (by decide +kernel), (by decide +kernel), (by decide +kernel), (Option.some_get (by decide +kernel)).symm⟩

/-- States and operands that meet the hypotheses of FlashHappenings. -/
theorem witness_FlashHappenings :
    (∃ (s : State) (b : ℕ), isUp s.m = true ∧ b ∉ s.nv.flash.retiredBlocks) ∧
    (∃ (s : State), isUp s.m = true) ∧
    (∃ (s : State) (b : ℕ) (c : Instr), isUp s.m = true ∧ b ∉ s.nv.flash.retiredBlocks ∧ (c = Instr.flashProgramFail b ∨ c = Instr.flashFreeBlockCollect { block := b, fails := true })) ∧
    (∃ (s : State) (dest : FlashState), isUp s.m = true ∧ flashRank s.nv.flash.state < flashRank dest ∧ dest ≠ .offline ∧ flashDue s.nv.flash dest = true) ∧
    (∃ (s : State) (dest : FlashState), isUp s.m = true ∧ (flashRank dest ≤ flashRank s.nv.flash.state ∨ flashDue s.nv.flash dest = false)) :=
  ⟨⟨rdy, 0, (by decide +kernel), (by decide +kernel)⟩,
    ⟨rdy, (by decide +kernel)⟩,
    ⟨rdy, 0, .flashProgramFail 0, (by decide +kernel), (by decide +kernel), (Or.inl rfl)⟩,
    ⟨{ rdy with nv := { flash := { sparePermille := 249 } } }, .warn, (by decide +kernel), (by decide +kernel), (by decide +kernel), (by decide +kernel)⟩,
    ⟨rdy, .warn, (by decide +kernel), (Or.inr (by decide +kernel))⟩⟩

/-- States and operands that meet the hypotheses of ScrubbingAndRetries. -/
theorem witness_ScrubbingAndRetries :
    (∃ (s : State) (a : ℕ) (i : ℕ), isUp s.m = true ∧ s.m.mem.sliceErr = [] ∧ a ∉ s.m.mem.slicePoison ∧ i < 13) ∧
    (∃ (s : State) (a : ℕ) (i : ℕ) (j : ℕ), isUp s.m = true ∧ s.m.mem.sliceErr = [] ∧ a ∉ s.m.mem.slicePoison ∧ i < j ∧ j < 13) ∧
    (∃ (s : State), isUp s.m = true ∧ s.m.mem.devErr = []) ∧
    (∃ (s : State) (t : ℕ) (n : ℕ) (g : Page) (place : ℕ) (v : ℕ) (b : ℕ), isUp s.m = true ∧ findPage s.m t n = some g ∧ g.tier = .lp ∧ b = place / crcBlock ∧ b < 32 ∧ b ∉ g.crcBad ∧ ((∀ c, c < 32 → c ∉ g.crcBad → (blockFails s.m t g [(b * 2 ^ 17 + place % crcBlock, v)] c = true ↔ c = b)))) ∧
    (∃ (s : State) (u : ℕ) (k : ℕ), isUp s.m = true ∧ (s.m.mem.hbmRepair.filter (·.1 == u) = [(u, k)]) ∧ unitVerdict false (unitErrs s.m k) ≠ .uncorrectable) ∧
    (∃ (s : State) (u : ℕ), isUp s.m = true ∧ u ∈ s.m.mem.sliceRepair) ∧
    (∃ (s : State) (r : ℕ) (ok : Bool) (n : ℕ), isUp s.m = true ∧ n = (alGet r s.m.ecc.lpRun).getD 0 ∧ (ok = true ∨ n < 2)) ∧
    (∃ (s : State) (p : ℕ) (r : ℕ) (view : ℕ) (u : WUnit), isUp s.m = true ∧ p < s.m.peas.length ∧ (peaOf s.m p).active = some u ∧ 2 ≤ (alGet r s.m.ecc.lpRun).getD 0 ∧ (findPage s.m u.ten (view / pageSize)).any (·.mig.isSome) = false) ∧
    (∃ (s : State) (c : ℕ) (ok : Bool) (n : ℕ), isUp s.m = true ∧ n = (alGet c s.m.ecc.caRun).getD 0 ∧ (ok = true ∨ n < 2)) ∧
    (∃ (s : State) (p : ℕ) (c : ℕ) (view : ℕ) (u : WUnit), isUp s.m = true ∧ p < s.m.peas.length ∧ (peaOf s.m p).active = some u ∧ 2 ≤ (alGet c s.m.ecc.caRun).getD 0 ∧ (findPage s.m u.ten (view / pageSize)).any (·.mig.isSome) = false) ∧
    (∃ (s : State) (beat : ℕ) (ok : Bool) (n : ℕ), isUp s.m = true ∧ n = (alGet beat s.m.ecc.parityRun).getD 0 ∧ (ok = true ∨ n < 2)) ∧
    (∃ (s : State) (c : ℕ) (ok : Bool) (n : ℕ), isUp s.m = true ∧ n = (alGet c s.m.life.replays).getD 0 ∧ (ok = true ∨ n < 2)) ∧
    (∃ (s : State) (c : ℕ) (n : ℕ), isUp s.m = true ∧ n = (alGet c s.m.life.replays).getD 0 ∧ 2 ≤ n ∧ c < 8 ∧ c ∉ s.m.life.halted) ∧
    (∃ (s : State) (c : ℕ), isUp s.m = true ∧ c < 8 ∧ c ∉ s.m.life.halted) ∧
    (∃ (s : State) (c : ℕ) (rows : List ℕ), isUp s.m = true ∧ rows = (s.m.ecc.remapping.filter (·.1 == c)).map (·.2)) :=
  ⟨⟨rdy, 64, 12, (by decide +kernel), (by decide +kernel), (by decide +kernel), (by decide +kernel)⟩,
    ⟨rdy, 64, 0, 12, (by decide +kernel), (by decide +kernel), (by decide +kernel), (by decide +kernel), (by decide +kernel)⟩,
    ⟨rdy, (by decide +kernel), (by decide +kernel)⟩,
    ⟨wit (modMem fun x => { x with pages := [{ pgIn .lp 5 with crcs := List.replicate 32 (crcSparse crcBlock []) }] }), 0, 5, _, 65536, 1, _, (by decide +kernel), (Option.some_get (by decide +kernel)).symm, (by decide +kernel), rfl, (by decide +kernel), (by decide +kernel), (by decide +kernel)⟩,
    ⟨wit (modMem fun x => { x with hbmRepair := [(7, 9)] }), 7, 9, (by decide +kernel), (by decide +kernel), (by decide +kernel)⟩,
    ⟨wit (modMem fun x => { x with sliceRepair := [3] }), 3, (by decide +kernel), (by decide +kernel)⟩,
    ⟨rdy, 4, false, _, (by decide +kernel), rfl, (Or.inr (by decide +kernel))⟩,
    ⟨withM runs (modEcc (fun e => { e with lpRun := [(4, 2)] }) runs.m), 0, 4, 0, _, (by decide +kernel), (by decide +kernel), (Option.some_get (by decide +kernel)).symm, (by decide +kernel), (by decide +kernel)⟩,
    ⟨rdy, 15, false, _, (by decide +kernel), rfl, (Or.inr (by decide +kernel))⟩,
    ⟨withM runs (modEcc (fun e => { e with caRun := [(15, 2)] }) runs.m), 0, 15, 0, _, (by decide +kernel), (by decide +kernel), (Option.some_get (by decide +kernel)).symm, (by decide +kernel), (by decide +kernel)⟩,
    ⟨rdy, 1, true, _, (by decide +kernel), rfl, (Or.inl rfl)⟩,
    ⟨rdy, 7, false, _, (by decide +kernel), rfl, (Or.inr (by decide +kernel))⟩,
    ⟨wit (modLife fun l => { l with replays := [(7, 2)] }), 7, _, (by decide +kernel), rfl, (by decide +kernel), (by decide +kernel), (by decide +kernel)⟩,
    ⟨rdy, 7, (by decide +kernel), (by decide +kernel), (by decide +kernel)⟩,
    ⟨wit (modEcc fun e => { e with remapping := [(3, 8)] }), 3, _, (by decide +kernel), rfl⟩⟩

/-- States and operands that meet the hypotheses of UncorrectableReads. -/
theorem witness_UncorrectableReads :
    (∃ (s : State) (loc : ℕ) (k : ℕ) (i : ℕ), isUp s.m = true ∧ s.m.mem.sliceErr = [] ∧ (pieceBad s.m (64 * (loc / 64), 64) = false) ∧ k < 64 ∧ i < 13 ∧ ((loc / 64 / 32768, loc / 64 % 32768) ∉ s.m.mem.merges)) ∧
    (∃ (s : State) (p : ℕ) (loc : ℕ) (k : ℕ) (i : ℕ) (j : ℕ) (u : WUnit), isUp s.m = true ∧ p < s.m.peas.length ∧ (peaOf s.m p).active = some u ∧ s.m.mem.sliceErr = [] ∧ (pieceBad s.m (64 * (loc / 64), 64) = false) ∧ k < 64 ∧ i < j ∧ j < 13 ∧ ((loc / 64 / 32768, loc / 64 % 32768) ∉ s.m.mem.merges)) ∧
    (∃ (s : State) (p : ℕ) (loc : ℕ) (u : WUnit), isUp s.m = true ∧ p < s.m.peas.length ∧ (peaOf s.m p).active = some u ∧ (pieceBad s.m (64 * (loc / 64), 64) = true)) ∧
    (∃ (s : State) (loc : ℕ), isUp s.m = true ∧ (pieceBad s.m (64 * (loc / 64), 64) = false) ∧ ((loc / 64 / 32768, loc / 64 % 32768) ∈ s.m.mem.merges)) ∧
    (∃ (s : State) (p : ℕ) (loc : ℕ) (view : ℕ) (e : ErrPat) (k : ℕ) (u : WUnit), isUp s.m = true ∧ p < s.m.peas.length ∧ (peaOf s.m p).active = some u ∧ k = unitKey u.ten view ∧ k ∉ s.m.mem.devPoison ∧ unitVerdict e.elsewhere (unitErrs (flipUnit k (loc / 64) e.flips s.m) k) = .uncorrectable ∧ (findPage s.m u.ten (view / pageSize)).any (·.mig.isSome) = false) :=
  ⟨⟨runs, 64, 63, 12, (by decide +kernel), (by decide +kernel), (by decide +kernel), (by decide +kernel), (by decide +kernel), (by decide +kernel)⟩,
    ⟨runs, 0, 64, 63, 0, 12, _, (by decide +kernel), (by decide +kernel), (Option.some_get (by decide +kernel)).symm, (by decide +kernel), (by decide +kernel), (by decide +kernel), (by decide +kernel), (by decide +kernel), (by decide +kernel)⟩,
    ⟨withM runs (modMem (fun x => { x with slicePoison := [70] }) runs.m), 0, 64, _, (by decide +kernel), (by decide +kernel), (Option.some_get (by decide +kernel)).symm, (by decide +kernel)⟩,
    ⟨withM runs (modMem (fun x => { x with merges := [(0, 1)] }) runs.m), 64, (by decide +kernel), (by decide +kernel), (by decide +kernel)⟩,
    ⟨withM runs (modMem (fun x => { x with pages := [pgIn .hbm 0] }) runs.m), 0, 0, 64, { elsewhere := true }, _, _, (by decide +kernel), (by decide +kernel), (Option.some_get (by decide +kernel)).symm, rfl, (by decide +kernel), (by decide +kernel), (by decide +kernel)⟩⟩

/-- States and operands that meet the hypotheses of FabricSourceHappenings. -/
theorem witness_FabricSourceHappenings :
    (∃ (s : State) (r : FabReq) (fs : FlashState), isUp s.m = true ∧ fs = s.nv.flash.state ∧ r.record = none ∧ ((r.type = 3 → atomicFits r.aop r.size r.offset = true))) ∧
    (∃ (s : State) (p : ℕ) (aop : ℕ) (size : ℕ) (cls : ℕ) (h : Word64) (a : Word64) (b : Word64) (rec : ℕ) (ps : List (ℕ × ℕ)) (fs : FlashState) (r : FabReq) (m : Mach), isUp s.m = true ∧ fs = s.nv.flash.state ∧ (peaOf s.m p).st = .run ∧ h.toNat < 2 ^ 57 ∧ cls ≤ 7 ∧ atomicValid aop size = true ∧ h.toNat % size = 0 ∧ slRange s.m (peaTen s.m p) true rec 16 = .ok ps ∧ (r = { ten := peaTen s.m p, ctx := peaCtx s.m p, seq := ((peaOf s.m p).active.map (·.seq)).getD 0, type := 3, node := h.toNat / 2 ^ 45, offset := h.toNat % 2 ^ 45, cls, aop, size, payload := le size a.toNat ++ le size b.toNat }) ∧ m = modPea p (fun x => { x with hadFabric := x.hadFabric || h.toNat / 2 ^ 45 != selfNode s.m }) s.m ∧ (peaOf s.m p).fatoms < 32) ∧
    (∃ (s : State) (p : ℕ) (aop : ℕ) (size : ℕ) (cls : ℕ) (h : Word64) (a : Word64) (b : Word64) (rec : ℕ) (ps : List (ℕ × ℕ)) (fs : FlashState) (r : FabReq) (m : Mach), isUp s.m = true ∧ fs = s.nv.flash.state ∧ (peaOf s.m p).st = .run ∧ h.toNat < 2 ^ 57 ∧ cls ≤ 7 ∧ atomicValid aop size = true ∧ h.toNat % size = 0 ∧ slRange s.m (peaTen s.m p) true rec 16 = .ok ps ∧ (r = { ten := peaTen s.m p, ctx := peaCtx s.m p, seq := ((peaOf s.m p).active.map (·.seq)).getD 0, type := 3, node := h.toNat / 2 ^ 45, offset := h.toNat % 2 ^ 45, cls, aop, size, payload := le size a.toNat ++ le size b.toNat }) ∧ m = modPea p (fun x => { x with hadFabric := x.hadFabric || h.toNat / 2 ^ 45 != selfNode s.m }) s.m ∧ 32 ≤ (peaOf s.m p).fatoms) ∧
    (∃ (s : State) (p : FabPkt) (o : Outreq) (fs : FlashState), isUp s.m = true ∧ fs = s.nv.flash.state ∧ p.srcEpoch = 0 ∧ findOut s.m p.reqId = some o ∧ 0 < o.sends ∧ o.req.node = p.src ∧ statusOf p.aop ≠ .notReady) ∧
    (∃ (s : State) (id : ℕ) (o : Outreq) (fs : FlashState), isUp s.m = true ∧ fs = s.nv.flash.state ∧ findOut s.m id = some o ∧ 0 < o.sends ∧ o.req.node ≠ selfNode s.m ∧ o.waitUs = none ∧ due s.m o.sinceUs s.m.fab.timeoutUs = true ∧ o.attempts ≤ o.sends) ∧
    (∃ (s : State) (id : ℕ) (o : Outreq) (fs : FlashState), isUp s.m = true ∧ fs = s.nv.flash.state ∧ findOut s.m id = some o ∧ 0 < o.sends ∧ o.req.node ≠ selfNode s.m ∧ o.waitUs = none ∧ due s.m o.sinceUs s.m.fab.timeoutUs = true ∧ o.sends < o.attempts) ∧
    (∃ (s : State), isUp s.m = true) ∧
    (∃ (s : State) (id : ℕ) (o : Outreq) (us : ℕ) (fs : FlashState), isUp s.m = true ∧ fs = s.nv.flash.state ∧ findOut s.m id = some o ∧ o.waitUs = some us ∧ due s.m us (if o.hint = 0 then s.m.fab.timeoutUs else o.hint) = true) ∧
    (∃ (s : State) (id : ℕ) (o : Outreq) (us : ℕ) (fs : FlashState), isUp s.m = true ∧ fs = s.nv.flash.state ∧ findOut s.m id = some o ∧ o.nrSinceUs = some us ∧ due s.m us (s.m.fab.notReadyMs * 1000) = true) :=
  ⟨⟨wit net, req0, _, (by decide +kernel), rfl, (by decide +kernel), (by decide +kernel)⟩,
    ⟨wit (net ∘ modPea 0 (fun a => { a with active := some (unit1 (.run 0 0 [])), st := .run })), 0, 1, 8, 7, 0, 0, 1, 0x100, _, _, _, _, (by decide +kernel), rfl, (by decide +kernel), (by decide +kernel), (by decide +kernel), (by decide +kernel), (by decide +kernel), okOf_eq _ (by decide +kernel), rfl, rfl, (by decide +kernel)⟩,
    ⟨wit (net ∘ modPea 0 (fun a => { a with active := some (unit1 (.run 0 0 [])), st := .run, fatoms := 32 })), 0, 1, 8, 7, 0, 0, 1, 0x100, _, _, _, _, (by decide +kernel), rfl, (by decide +kernel), (by decide +kernel), (by decide +kernel), (by decide +kernel), (by decide +kernel), okOf_eq _ (by decide +kernel), rfl, rfl, (by decide +kernel)⟩,
    ⟨outS { req := req0, id := 9, sends := 1 }, { type := 5, src := 1, dst := 0, ftid := 0, reqId := 9 }, _, _, (by decide +kernel), rfl, (by decide +kernel), (Option.some_get (by decide +kernel)).symm, (by decide +kernel), (by decide +kernel), (by decide +kernel)⟩,
    ⟨outS { req := req0, id := 9, sends := 8 }, 9, _, _, (by decide +kernel), rfl, (Option.some_get (by decide +kernel)).symm, (by decide +kernel), (by decide +kernel), (by decide +kernel), (by decide +kernel), (by decide +kernel)⟩,
    ⟨outS { req := req0, id := 9, sends := 7 }, 9, _, _, (by decide +kernel), rfl, (Option.some_get (by decide +kernel)).symm, (by decide +kernel), (by decide +kernel), (by decide +kernel), (by decide +kernel), (by decide +kernel)⟩,
    ⟨rdy, (by decide +kernel)⟩,
    ⟨outS { req := req0, id := 9, sends := 1, waitUs := some 0 }, 9, _, 0, _, (by decide +kernel), rfl, (Option.some_get (by decide +kernel)).symm, (by decide +kernel), (by decide +kernel)⟩,
    ⟨wit (modFab (fun f => { f with out := [{ req := req0, id := 9, sends := 1, nrSinceUs := some 0 }], notReadyMs := 50 }) ∘ net), 9, _, 0, _, (by decide +kernel), rfl, (Option.some_get (by decide +kernel)).symm, (by decide +kernel), (by decide +kernel)⟩⟩

/-- States and operands that meet the hypotheses of FabricPacketHappenings. -/
theorem witness_FabricPacketHappenings :
    (∃ (s : State) (p : FabPkt) (q : ℕ) (det : Bool) (extra : ℕ), isUp s.m = true ∧ nextHop s.m p.dst p.order p.detours = .port q det extra) ∧
    (∃ (s : State) (p : FabPkt), isUp s.m = true ∧ nextHop s.m p.dst p.order p.detours = .drop) ∧
    (∃ (s : State) (p : FabPkt) (a : ℕ × Status) (fs : FlashState) (m : Mach), isUp s.m = true ∧ fs = s.nv.flash.state ∧ s.m.life.removal = false ∧ s.m.cap.state = 0 ∧ 1 ≤ p.type ∧ p.type ≤ 4 ∧ p.dst = selfNode s.m ∧ s.m.fab.ready = true ∧ s.m.life.mode ≠ .fault ∧ (p.dstEpoch = 0 ∨ p.dstEpoch = s.m.fab.epoch) ∧ ((p.type = 3 → atomicFits p.aop p.size p.offset = true)) ∧ alGet p.src s.m.fab.srcEpochs = some p.srcEpoch ∧ a = enters s.m p ∧ a.2 = .ok ∧ m = modTen a.1 (fun x => { x with acct := { x.acct with fabRx := x.acct.fabRx + p.payload.length } }) (modFab (fun f => { f with srcEpochs := alSet p.src p.srcEpoch f.srcEpochs }) s.m)) ∧
    (∃ (s : State) (p : FabPkt) (fs : FlashState), isUp s.m = true ∧ fs = s.nv.flash.state ∧ s.m.life.removal = false ∧ s.m.cap.state = 0 ∧ 1 ≤ p.type ∧ p.type ≤ 4 ∧ p.type ≠ 3 ∧ p.dst = selfNode s.m ∧ s.m.fab.ready = true ∧ s.m.life.mode ≠ .fault ∧ p.dstEpoch ≠ 0 ∧ p.dstEpoch ≠ s.m.fab.epoch ∧ (p.type = 4 ∨ inReach s.m p.src = true)) ∧
    (∃ (s : State) (src : ℕ) (id : ℕ) (p : FabPkt), isUp s.m = true ∧ ((s.m.fab.waitPage.map (·.1) ++ s.m.fab.dstStreams.flatMap fun x => x.held.map (·.1)).find? fun p => p.src == src && p.reqId == id) = some p) ∧
    (∃ (s : State) (n : Notice), isUp s.m = true ∧ ((n.origin, n.number) ∈ s.m.fab.seen)) ∧
    (∃ (s : State) (n : Notice) (fs : FlashState), isUp s.m = true ∧ fs = s.nv.flash.state ∧ ((n.origin, n.number) ∉ s.m.fab.seen) ∧ s.m.cap.state = 0 ∧ n.kind = .leaving ∧ n.hops < 24) :=
  ⟨⟨wit net, { type := 1, src := 0, dst := 1, ftid := 0, order := 1 }, 0, true, 0, (by decide +kernel), (by decide +kernel)⟩,
    ⟨rdy, { type := 1, src := 0, dst := 1, ftid := 0 }, (by decide +kernel), (by decide +kernel)⟩,
    ⟨inS, load0, (0, .ok), _, _, (by decide +kernel), rfl, (by decide +kernel), (by decide +kernel), (by decide +kernel), (by decide +kernel), (by decide +kernel), (by decide +kernel), (by decide +kernel), (by decide +kernel), (by decide +kernel), (by decide +kernel), (by decide +kernel), (by decide +kernel), rfl⟩,
    ⟨inS, { load0 with dstEpoch := 8 }, _, (by decide +kernel), rfl, (by decide +kernel), (by decide +kernel), (by decide +kernel), (by decide +kernel), (by decide +kernel), (by decide +kernel), (by decide +kernel), (by decide +kernel), (by decide +kernel), (by decide +kernel), (by decide +kernel)⟩,
    ⟨wit (modFab (fun f => { f with waitPage := [(load0, 0)] }) ∘ net), 1, 0, load0, (by decide +kernel), (by decide +kernel)⟩,
    ⟨wit (modFab (fun f => { f with seen := [(1, 1)] }) ∘ net), { origin := 1, number := 1, kind := .leaving }, (by decide +kernel), (by decide +kernel)⟩,
    ⟨wit net, { origin := 1, number := 1, kind := .leaving, hops := 23 }, _, (by decide +kernel), rfl, (by decide +kernel), (by decide +kernel), (by decide +kernel), (by decide +kernel)⟩⟩

/-- States and operands that meet the hypotheses of LinkHappenings. -/
theorem witness_LinkHappenings :
    (∃ (s : State) (p : ℕ) (f : Flit), isUp s.m = true ∧ carries (portOf s.m p).state (flitKind f) = true ∧ flitUncorrectable f = false ∧ flitCrcOk f = true) ∧
    (∃ (s : State) (p : ℕ) (f : Flit), isUp s.m = true ∧ carries (portOf s.m p).state 2 = true ∧ (flitUncorrectable f = true ∨ flitCrcOk f = false)) ∧
    (∃ (s : State) (p : ℕ), isUp s.m = true ∧ carries (portOf s.m p).state 2 = false) ∧
    (∃ (m : Mach) (p : ℕ) (f : Flit), p < m.link.ports.length ∧ (flitKind f = 1 ∨ flitKind f = 2) ∧ flitNak f = false ∧ flitSeq f = (portOf m p).rxNext) ∧
    (∃ (m : Mach) (p : ℕ) (f : Flit), p < m.link.ports.length ∧ (flitKind f = 1 ∨ flitKind f = 2) ∧ flitNak f = false ∧ flitSeq f ≠ (portOf m p).rxNext) ∧
    (∃ (m : Mach) (p : ℕ), p < m.link.ports.length) ∧
    (∃ (s : State) (p : ℕ) (x : ℕ × ℕ) (r : List (ℕ × ℕ)), isUp s.m = true ∧ (portOf s.m p).replayBuf = x :: r ∧ ((∀ y ∈ x :: r, y.2 < 16))) ∧
    (∃ (s : State) (p : ℕ), isUp s.m = true ∧ p < s.m.link.ports.length ∧ ((∃ y ∈ (portOf s.m p).replayBuf, 16 ≤ y.2))) ∧
    (∃ (s : State) (p : ℕ), isUp s.m = true ∧ s.m.link.enabled = true ∧ (portOf s.m p).state = .down ∧ p < s.m.link.ports.length ∧ s.m.link.enabledUs + (8000 * p + 1000 * (selfNode s.m % 8)) < s.m.tick.nowUs + s.m.tick.inForce) ∧
    (∃ (s : State) (p : ℕ), isUp s.m = true ∧ (portOf s.m p).state = .detect ∧ (portOf s.m p).waiting = false ∧ p < s.m.link.ports.length) ∧
    (∃ (s : State) (p : ℕ) (lanes : ℕ) (failed : ℕ) (bad : ℕ), isUp s.m = true ∧ (portOf s.m p).state = .equalize ∧ 16 ≤ lanes ∧ bad = (portOf s.m p).rxFailed ||| failed % 2 ^ 18 ∧ 16 ≤ (healthy bad).length) ∧
    (∃ (s : State) (p : ℕ) (b : List Byte) (i : Ident), isUp s.m = true ∧ (portOf s.m p).state = .identify ∧ identOf b = some i ∧ p < s.m.link.ports.length) ∧
    (∃ (s : State) (p : ℕ) (b : List Byte), isUp s.m = true ∧ (portOf s.m p).state = .identify ∧ identOf b = none ∧ p < s.m.link.ports.length ∧ (portOf s.m p).fails + 1 < 8) ∧
    (∃ (s : State) (p : ℕ) (i : Ident), isUp s.m = true ∧ (portOf s.m p).state = .identify ∧ (portOf s.m p).gotIdent = true ∧ (portOf s.m p).peer = some i ∧ p < s.m.link.ports.length) ∧
    (∃ (s : State) (p : ℕ), isUp s.m = true ∧ (portOf s.m p).state = .identify ∧ (portOf s.m p).fails + 1 < 8 ∧ p < s.m.link.ports.length) ∧
    (∃ (s : State) (p : ℕ), isUp s.m = true ∧ (portOf s.m p).state = .identify ∧ 8 ≤ (portOf s.m p).fails + 1 ∧ p < s.m.link.ports.length) ∧
    (∃ (s : State) (p : ℕ), isUp s.m = true ∧ (portOf s.m p).state = .detect ∧ (portOf s.m p).waiting = true ∧ p < s.m.link.ports.length ∧ (portOf s.m p).waitUs + (50000 + 1000 * (selfNode s.m % 8)) < s.m.tick.nowUs + s.m.tick.inForce) ∧
    (∃ (s : State) (p : ℕ), isUp s.m = true ∧ s.m.tick.nowUs + s.m.tick.inForce ≤ (portOf s.m p).waitUs + 50000) ∧
    (∃ (s : State) (p : ℕ), isUp s.m = true ∧ carries (portOf s.m p).state 2 = true) ∧
    (∃ (s : State) (p : ℕ) (lane : ℕ) (i : ℕ) (sp : ℕ), isUp s.m = true ∧ (portOf s.m p).width ≠ 0 ∧ lane < 18 ∧ (portOf s.m p).rxFailed.testBit lane = false ∧ (portOf s.m p).laneMap.findIdx? (· == lane) = some i ∧ ((healthy ((portOf s.m p).rxFailed ||| 2 ^ lane)).find? fun l => !(portOf s.m p).laneMap.contains l) = some sp ∧ (portOf s.m p).relock = false ∧ p < s.m.link.ports.length) ∧
    (∃ (s : State) (p : ℕ) (lane : ℕ) (i : ℕ) (failed : ℕ), isUp s.m = true ∧ (portOf s.m p).width ≠ 0 ∧ lane < 18 ∧ (portOf s.m p).rxFailed.testBit lane = false ∧ (portOf s.m p).laneMap.findIdx? (· == lane) = some i ∧ failed = (portOf s.m p).rxFailed ||| 2 ^ lane ∧ ((healthy failed).find? fun l => !(portOf s.m p).laneMap.contains l) = none ∧ (portOf s.m p).relock = false ∧ 8 ≤ (healthy failed).length ∧ 8 ≤ (healthy (portOf s.m p).txFailed).length ∧ p < s.m.link.ports.length) ∧
    (∃ (s : State) (p : ℕ) (logical : ℕ) (spare : ℕ) (old : ℕ), isUp s.m = true ∧ (portOf s.m p).txMap[logical]? = some old ∧ spare < 18) ∧
    (∃ (s : State) (p : ℕ) (logical : ℕ) (spare : ℕ) (old : ℕ), isUp s.m = true ∧ (portOf s.m p).txMap[logical]? = some old ∧ 18 ≤ spare) ∧
    (∃ (s : State) (p : ℕ), isUp s.m = true ∧ (portOf s.m p).relock = true) ∧
    (∃ (s : State) (p : ℕ), isUp s.m = true ∧ (portOf s.m p).state ≠ .down ∧ (portOf s.m p).state ≠ .detect ∧ (portOf s.m p).state ≠ .failed ∧ p < s.m.link.ports.length) :=
  ⟨⟨wit net, 0, flitOf 2 0, (by decide +kernel), (by decide +kernel), (by decide +kernel), (flitOf_crc 2 0)⟩,
    ⟨wit net, 0, { flit0 with codewords := [List.range 16] }, (by decide +kernel), (by decide +kernel), (Or.inl (by decide +kernel))⟩,
    ⟨portS fun x => { x with state := .equalize }, 0, (by decide +kernel), (by decide +kernel)⟩,
    ⟨(wit net).m, 0, flit0, (by decide +kernel), (Or.inl (by decide +kernel)), (by decide +kernel), (by decide +kernel)⟩,
    ⟨(wit net).m, 0, flitOf 2 4095, (by decide +kernel), (Or.inr (by decide +kernel)), (by decide +kernel), (by decide +kernel)⟩,
    ⟨(wit net).m, 5, (by decide +kernel)⟩,
    ⟨portS fun x => { x with replayBuf := [(5, 15)] }, 0, (5, 15), [], (by decide +kernel), (by decide +kernel), (by decide +kernel)⟩,
    ⟨portS fun x => { x with replayBuf := [(5, 1), (6, 16)] }, 0, (by decide +kernel), (by decide +kernel), ⟨(6, 16), by decide +kernel, by decide +kernel⟩⟩,
    ⟨wit (fun m => { m with link := { m.link with enabled := true, enabledUs := 10049 } }), 5, (by decide +kernel), (by decide +kernel), (by decide +kernel), (by decide +kernel), (by decide +kernel)⟩,
    ⟨portS fun x => { x with state := .detect }, 0, (by decide +kernel), (by decide +kernel), (by decide +kernel), (by decide +kernel)⟩,
    ⟨portS fun x => { x with state := .equalize }, 0, 16, 3, _, (by decide +kernel), (by decide +kernel), (by decide +kernel), rfl, (by decide +kernel)⟩,
    ⟨portS fun x => { x with state := .identify }, 0, identBytes ident1, ident1, (by decide +kernel), (by decide +kernel), (by decide +kernel), (by decide +kernel)⟩,
    ⟨portS fun x => { x with state := .identify, fails := 6 }, 0, identBytes { ident1 with port := 6 }, (by decide +kernel), (by decide +kernel), (by decide +kernel), (by decide +kernel), (by decide +kernel)⟩,
    ⟨portS fun x => { x with state := .identify, gotIdent := true }, 0, ident1, (by decide +kernel), (by decide +kernel), (by decide +kernel), (by decide +kernel), (by decide +kernel)⟩,
    ⟨portS fun x => { x with state := .identify, fails := 6 }, 0, (by decide +kernel), (by decide +kernel), (by decide +kernel), (by decide +kernel)⟩,
    ⟨portS fun x => { x with state := .identify, fails := 7 }, 0, (by decide +kernel), (by decide +kernel), (by decide +kernel), (by decide +kernel)⟩,
    ⟨portS fun x => { x with state := .detect, waiting := true, waitUs := 49 }, 0, (by decide +kernel), (by decide +kernel), (by decide +kernel), (by decide +kernel), (by decide +kernel)⟩,
    ⟨portS fun x => { x with state := .detect, waiting := true, waitUs := 50 }, 0, (by decide +kernel), (by decide +kernel)⟩,
    ⟨wit net, 0, (by decide +kernel), (by decide +kernel)⟩,
    ⟨portS (fun x => { x with laneMap := List.range 16 }), 0, 0, 0, 16, (by decide +kernel), (by decide +kernel), (by decide +kernel), (by decide +kernel), (by decide +kernel), (by decide +kernel), (by decide +kernel), (by decide +kernel)⟩,
    ⟨portS (fun x => { x with laneMap := List.range 16, rxFailed := 0x30000 }), 0, 0, 0, 0x30001, (by decide +kernel), (by decide +kernel), (by decide +kernel), (by decide +kernel), (by decide +kernel), (by decide +kernel), (by decide +kernel), (by decide +kernel), (by decide +kernel), (by decide +kernel), (by decide +kernel)⟩,
    ⟨portS (fun x => { x with txMap := List.range 16 }), 0, 0, 17, 0, (by decide +kernel), (by decide +kernel), (by decide +kernel)⟩,
    ⟨portS (fun x => { x with txMap := List.range 16 }), 0, 0, 18, 0, (by decide +kernel), (by decide +kernel), (by decide +kernel)⟩,
    ⟨portS fun x => { x with relock := true }, 0, (by decide +kernel), (by decide +kernel)⟩,
    ⟨wit net, 0, (by decide +kernel), (by decide +kernel), (by decide +kernel), (by decide +kernel), (by decide +kernel)⟩⟩

/-- States and operands that meet the hypotheses of TickSyncHappenings. -/
theorem witness_TickSyncHappenings :
    (∃ (s : State), isUp s.m = true ∧ s.m.tick.root = true ∧ s.m.tick.started = true ∧ s.m.tick.launched ≠ some (s.m.tick.count + 1)) ∧
    (∃ (s : State), isUp s.m = true ∧ s.m.tick.root = true ∧ s.m.tick.launched = some (s.m.tick.count + 1)) ∧
    (∃ (s : State) (port : ℕ) (x : Tsync), isUp s.m = true ∧ s.m.tick.root = false ∧ s.m.tick.group ≠ 0 ∧ s.m.tick.leaves = [] ∧ port = s.m.tick.upstream ∧ x.group = s.m.tick.group ∧ (portOf s.m port).state = .active ∧ x.pathDelayNs + (portOf s.m port).delayNs ≤ 3500 ∧ x.hops < 24 ∧ s.m.tick.join = none ∧ s.m.tick.lost = false ∧ x.tick = s.m.tick.count + 1) ∧
    (∃ (s : State) (port : ℕ) (x : Tsync), isUp s.m = true ∧ (s.m.tick.root = true ∨ s.m.tick.group = 0 ∨ x.group ≠ s.m.tick.group ∨ port ≠ s.m.tick.upstream)) ∧
    (∃ (s : State), isUp s.m = true ∧ follows s.m = true ∧ s.m.tick.tsync = none ∧ s.m.tick.missed = false) ∧
    (∃ (s : State), isUp s.m = true ∧ s.m.tick.tsync.isSome = true) ∧
    (∃ (s : State), isUp s.m = true ∧ follows s.m = true ∧ s.m.tick.missRun = 3 ∧ s.m.tick.lossLatched = false) ∧
    (∃ (s : State) (port : ℕ) (x : Treq), isUp s.m = true ∧ s.m.tick.group ≠ 0 ∧ s.m.tick.leaves = [] ∧ s.m.tick.downstream.testBit port = true ∧ x.group = s.m.tick.group ∧ (portOf s.m port).state = .active ∧ s.m.tick.root = true) ∧
    (∃ (s : State) (port : ℕ), isUp s.m = true ∧ carries (portOf s.m port).state 2 = true ∧ (portOf s.m port).state ≠ .identify) ∧
    (∃ (s : State) (port : ℕ), isUp s.m = true ∧ carries (portOf s.m port).state 2 = false) ∧
    (∃ (s : State) (j : Join), isUp s.m = true ∧ s.m.tick.join = some j ∧ j.startUs + 1000000 ≤ s.m.tick.nowUs ∧ s.m.tick.root = false) :=
  ⟨⟨rdy, (by decide +kernel), (by decide +kernel), (by decide +kernel), (by decide +kernel)⟩,
    ⟨wit (modTick fun t => { t with launched := some 1001 }), (by decide +kernel), (by decide +kernel), (by decide +kernel)⟩,
    ⟨memS id, 0, sync0, (by decide +kernel), (by decide +kernel), (by decide +kernel), (by decide +kernel), (by decide +kernel), (by decide +kernel), (by decide +kernel), (by decide +kernel), (by decide +kernel), (by decide +kernel), (by decide +kernel), (by decide +kernel)⟩,
    ⟨rdy, 0, sync0, (by decide +kernel), (Or.inl (by decide +kernel))⟩,
    ⟨memS id, (by decide +kernel), (by decide +kernel), (by decide +kernel), (by decide +kernel)⟩,
    ⟨memS fun t => { t with tsync := some sync0 }, (by decide +kernel), (by decide +kernel)⟩,
    ⟨memS fun t => { t with missRun := 3 }, (by decide +kernel), (by decide +kernel), (by decide +kernel), (by decide +kernel)⟩,
    ⟨wit (modTick (fun t => { t with group := 3, downstream := 1, members := [0, 1] }) ∘ net), 0, { group := 3, tick := 1000, node := 1, reqStep := 2, cause := 1 }, (by decide +kernel), (by decide +kernel), (by decide +kernel), (by decide +kernel), (by decide +kernel), (by decide +kernel), (by decide +kernel)⟩,
    ⟨wit net, 0, (by decide +kernel), (by decide +kernel), (by decide +kernel)⟩,
    ⟨portS (fun x => { x with state := .equalize }), 0, (by decide +kernel), (by decide +kernel)⟩,
    ⟨memS (fun t => { t with join := some { seq := 1, group := 3, root := 1, members := [0, 1], startUs := 0 }, nowUs := 1000000 }), _, (by decide +kernel), (Option.some_get (by decide +kernel)).symm, (by decide +kernel), (by decide +kernel)⟩⟩

/-- States and operands that meet the hypotheses of BoundariesFire. -/
theorem witness_BoundariesFire :
    (∃ (s : State), s.m.life.run = .up ∧ s.m.tick.started = true ∧ s.m.life.replay = false) ∧
    (∃ (s : State), (s.m.life.run ≠ .up ∨ s.m.tick.started = false ∨ s.m.life.replay = true)) ∧
    (∃ (m : Mach) (t : TickSt), follows m = false ∧ m.tick.join = none ∧ (m.tick.launched = some (m.tick.count + 1) ∨ m.tick.lost = true) ∧ t = (fireTick m).tick) ∧
    (∃ (m : Mach) (t : TickSt), follows m = true ∧ t = (fireTick m).tick) ∧
    (∃ (s : State) (r : Nv × Mach), s.m.life.run = .up ∧ s.m.tick.started = true ∧ s.m.life.replay = true ∧ s.m.cap.diverge = 0 ∧ r = boundary s.nv s.m) ∧
    (∃ (s : State) (k : ℕ), s.m.life.run = .up ∧ s.m.tick.started = true ∧ s.m.life.replay = true ∧ s.m.cap.diverge = 0 ∧ 1 ≤ k ∧ k ≤ 6) ∧
    (∃ (s : State), s.m.life.run = .up ∧ s.m.tick.started = true ∧ s.m.life.replay = true ∧ s.m.cap.diverge = 0) ∧
    (∃ (s : State), s.m.life.replay = true ∧ s.m.cap.diverge ≠ 0) ∧
    (∃ (s : State) (m : Mach) (x : Mach) (fs : FlashState) (w : Nv × Mach) (y : Nv × Mach) (z : Nv × Mach) (r : Nv × Mach), s.m.life.run = .up ∧ s.m.tick.started = true ∧ s.m.life.replay = false ∧ turnipRuns s.m = true ∧ fs = s.nv.flash.state ∧ (classOne (fireBoundary s.nv s.m) = (m, false)) ∧ x = classThree fs (classTwo m) ∧ turnipRuns x = true ∧ (w = classSix (s.nv, classFive fs (classFour s.nv x))) ∧ y = classSeven (moduleReady w.1 w.2) ∧ z = announceReady y.1 (closeBoundary s.m.pwr.ran19 y.1 (clearTray y.2)) ∧ (r = foldFlash (z.1, endWrites z.2))) ∧
    (∃ (s : State), Idle s.m ∧ s.m.tick.nowUs + s.m.tick.inForce < s.m.pwr.lastCalUs + 1000000 ∧ s.m.life.replay = false) ∧
    (∃ (s : State), Idle s.m ∧ s.m.tick.nowUs + s.m.tick.inForce < s.m.pwr.lastCalUs + 1000000 ∧ s.m.life.replay = true ∧ s.m.cap.diverge = 0) :=
  ⟨⟨rdy, (by decide +kernel), (by decide +kernel), (by decide +kernel)⟩,
    ⟨wit (modLife fun l => { l with run := .held }), (Or.inl (by decide +kernel))⟩,
    ⟨(wit (modTick fun t => { t with launched := some 1001 })).m, _, (by decide +kernel), (by decide +kernel), (Or.inl (by decide +kernel)), rfl⟩,
    ⟨(memS id).m, _, (by decide +kernel), rfl⟩,
    ⟨wit (modLife fun l => { l with replay := true }), _, (by decide +kernel), (by decide +kernel), (by decide +kernel), (by decide +kernel), rfl⟩,
    ⟨wit (modLife fun l => { l with replay := true }), 6, (by decide +kernel), (by decide +kernel), (by decide +kernel), (by decide +kernel), (by decide +kernel), (by decide +kernel)⟩,
    ⟨wit (modLife fun l => { l with replay := true }), (by decide +kernel), (by decide +kernel), (by decide +kernel), (by decide +kernel)⟩,
    ⟨wit (modLife (fun l => { l with replay := true }) ∘ fun m => { m with cap := { m.cap with diverge := 1 } }), (by decide +kernel), (by decide +kernel)⟩,
    ⟨rdy, fireBoundary rdy.nv rdy.m, fireBoundary rdy.nv rdy.m, rdy.nv.flash.state, classSix ((rdy : State).nv, classFive (rdy.nv.flash.state : FlashState) (classFour (rdy : State).nv (fireBoundary rdy.nv rdy.m : Mach))), classSeven (moduleReady (classSix ((rdy : State).nv, classFive (rdy.nv.flash.state : FlashState) (classFour (rdy : State).nv (fireBoundary rdy.nv rdy.m : Mach))) : Nv × Mach).1 (classSix ((rdy : State).nv, classFive (rdy.nv.flash.state : FlashState) (classFour (rdy : State).nv (fireBoundary rdy.nv rdy.m : Mach))) : Nv × Mach).2), announceReady (classSeven (moduleReady (classSix ((rdy : State).nv, classFive (rdy.nv.flash.state : FlashState) (classFour (rdy : State).nv (fireBoundary rdy.nv rdy.m : Mach))) : Nv × Mach).1 (classSix ((rdy : State).nv, classFive (rdy.nv.flash.state : FlashState) (classFour (rdy : State).nv (fireBoundary rdy.nv rdy.m : Mach))) : Nv × Mach).2) : Nv × Mach).1 (closeBoundary (rdy : State).m.pwr.ran19 (classSeven (moduleReady (classSix ((rdy : State).nv, classFive (rdy.nv.flash.state : FlashState) (classFour (rdy : State).nv (fireBoundary rdy.nv rdy.m : Mach))) : Nv × Mach).1 (classSix ((rdy : State).nv, classFive (rdy.nv.flash.state : FlashState) (classFour (rdy : State).nv (fireBoundary rdy.nv rdy.m : Mach))) : Nv × Mach).2) : Nv × Mach).1 (clearTray (classSeven (moduleReady (classSix ((rdy : State).nv, classFive (rdy.nv.flash.state : FlashState) (classFour (rdy : State).nv (fireBoundary rdy.nv rdy.m : Mach))) : Nv × Mach).1 (classSix ((rdy : State).nv, classFive (rdy.nv.flash.state : FlashState) (classFour (rdy : State).nv (fireBoundary rdy.nv rdy.m : Mach))) : Nv × Mach).2) : Nv × Mach).2)), foldFlash ((announceReady (classSeven (moduleReady (classSix ((rdy : State).nv, classFive (rdy.nv.flash.state : FlashState) (classFour (rdy : State).nv (fireBoundary rdy.nv rdy.m : Mach))) : Nv × Mach).1 (classSix ((rdy : State).nv, classFive (rdy.nv.flash.state : FlashState) (classFour (rdy : State).nv (fireBoundary rdy.nv rdy.m : Mach))) : Nv × Mach).2) : Nv × Mach).1 (closeBoundary (rdy : State).m.pwr.ran19 (classSeven (moduleReady (classSix ((rdy : State).nv, classFive (rdy.nv.flash.state : FlashState) (classFour (rdy : State).nv (fireBoundary rdy.nv rdy.m : Mach))) : Nv × Mach).1 (classSix ((rdy : State).nv, classFive (rdy.nv.flash.state : FlashState) (classFour (rdy : State).nv (fireBoundary rdy.nv rdy.m : Mach))) : Nv × Mach).2) : Nv × Mach).1 (clearTray (classSeven (moduleReady (classSix ((rdy : State).nv, classFive (rdy.nv.flash.state : FlashState) (classFour (rdy : State).nv (fireBoundary rdy.nv rdy.m : Mach))) : Nv × Mach).1 (classSix ((rdy : State).nv, classFive (rdy.nv.flash.state : FlashState) (classFour (rdy : State).nv (fireBoundary rdy.nv rdy.m : Mach))) : Nv × Mach).2) : Nv × Mach).2)) : Nv × Mach).1, endWrites (announceReady (classSeven (moduleReady (classSix ((rdy : State).nv, classFive (rdy.nv.flash.state : FlashState) (classFour (rdy : State).nv (fireBoundary rdy.nv rdy.m : Mach))) : Nv × Mach).1 (classSix ((rdy : State).nv, classFive (rdy.nv.flash.state : FlashState) (classFour (rdy : State).nv (fireBoundary rdy.nv rdy.m : Mach))) : Nv × Mach).2) : Nv × Mach).1 (closeBoundary (rdy : State).m.pwr.ran19 (classSeven (moduleReady (classSix ((rdy : State).nv, classFive (rdy.nv.flash.state : FlashState) (classFour (rdy : State).nv (fireBoundary rdy.nv rdy.m : Mach))) : Nv × Mach).1 (classSix ((rdy : State).nv, classFive (rdy.nv.flash.state : FlashState) (classFour (rdy : State).nv (fireBoundary rdy.nv rdy.m : Mach))) : Nv × Mach).2) : Nv × Mach).1 (clearTray (classSeven (moduleReady (classSix ((rdy : State).nv, classFive (rdy.nv.flash.state : FlashState) (classFour (rdy : State).nv (fireBoundary rdy.nv rdy.m : Mach))) : Nv × Mach).1 (classSix ((rdy : State).nv, classFive (rdy.nv.flash.state : FlashState) (classFour (rdy : State).nv (fireBoundary rdy.nv rdy.m : Mach))) : Nv × Mach).2) : Nv × Mach).2)) : Nv × Mach).2), (by decide +kernel), (by decide +kernel), (by decide +kernel), (by decide +kernel), rfl, (atRest_classOne rdy_fired), (by rw [atRest_classTwo rdy_fired, atRest_classThree rdy_fired]), rdy_fired.idle.runs, rfl, rfl, rfl, rfl⟩,
    ⟨rdy, rdy_idle, (by decide +kernel), (by decide +kernel)⟩,
    ⟨wit (modLife fun l => { l with replay := true }), (by constructor <;> decide +kernel), (by decide +kernel), (by decide +kernel), (by decide +kernel)⟩⟩

/-- States and operands that meet the hypotheses of StepHappenings. -/
theorem witness_StepHappenings :
    (∃ (s : State) (c : ℕ) (q : ℕ) (x : Step) (r : List StepEnt × Mach) (m : Mach) (y : Step), isUp s.m = true ∧ findStep s.m c q = some x ∧ x.opened = none ∧ blocked s.m x = false ∧ x.cutDone = false ∧ (kvView s.m c).isSome = true ∧ (pagesOf x.blk.plan (64 * x.blk.phases)).all (pageUsable s.m (ctxOf s.m c).ten) = true ∧ r = openEntries x x.blk.entries s.m ∧ m = modStp (fun z => { z with choices := z.choices + 1 }) r.2 ∧ (y = { x with opened := some m.tick.count, ents := r.1, riders := chooseRiders m x r.1, pool := (kvView m c).map fun v => (v.t, v.tb.pool) })) ∧
    (∃ (s : State) (c : ℕ) (q : ℕ) (x : Step), isUp s.m = true ∧ findStep s.m c q = some x ∧ x.opened = none ∧ blocked s.m x = false ∧ x.cutDone = false ∧ kvView s.m c = none) ∧
    (∃ (s : State) (c : ℕ) (n : ℕ) (b : BatchSlot), isUp s.m = true ∧ b = slotOf s.m c n ∧ b.draining = true ∧ slotHeld s.m c n = false ∧ b.keep = true ∧ c < s.m.ctxs.length) ∧
    (∃ (s : State) (c : ℕ) (q : ℕ) (x : Step) (ph : Phase) (l : Layout) (r : Mach × Step) (m1 : Mach) (m : Mach), isUp s.m = true ∧ turnipRuns s.m = true ∧ findStep s.m c q = some x ∧ x.areaDone = true ∧ x.cutDone = false ∧ x.fail = none ∧ s.m.life.mode ≠ .fault ∧ behindDeferred s.m c q = false ∧ r = catchUp (assignPods (ctxOf s.m c).ten s.m) x ∧ r.2.main.phase < r.2.blk.phases ∧ m1 = modStep c q (fun _ => r.2) r.1 ∧ m = noteDev (ctxOf m1 c).ten (r.2.blk.plan + 64 * r.2.main.phase) 64 m1 ∧ planPhase m r.2 r.2.main.phase = .ok ph ∧ ph.bad = false ∧ expertOf m c ph = some l ∧ planFault m r.2 l = none) ∧
    (∃ (s : State) (c : ℕ) (q : ℕ) (x : Step) (ph : Phase) (r : Mach × Step) (m1 : Mach) (m : Mach), isUp s.m = true ∧ turnipRuns s.m = true ∧ findStep s.m c q = some x ∧ x.areaDone = true ∧ x.cutDone = false ∧ x.fail = none ∧ s.m.life.mode ≠ .fault ∧ behindDeferred s.m c q = false ∧ r = catchUp (assignPods (ctxOf s.m c).ten s.m) x ∧ r.2.main.phase < r.2.blk.phases ∧ m1 = modStep c q (fun _ => r.2) r.1 ∧ m = noteDev (ctxOf m1 c).ten (r.2.blk.plan + 64 * r.2.main.phase) 64 m1 ∧ planPhase m r.2 r.2.main.phase = .ok ph ∧ ph.bad = true) ∧
    (∃ (s : State) (c : ℕ) (q : ℕ) (x : Step) (ph : Phase) (r : Mach × Step) (m1 : Mach) (m : Mach), isUp s.m = true ∧ turnipRuns s.m = true ∧ findStep s.m c q = some x ∧ x.areaDone = true ∧ x.cutDone = false ∧ x.fail = none ∧ s.m.life.mode ≠ .fault ∧ behindDeferred s.m c q = false ∧ r = catchUp (assignPods (ctxOf s.m c).ten s.m) x ∧ r.2.main.phase < r.2.blk.phases ∧ m1 = modStep c q (fun _ => r.2) r.1 ∧ m = noteDev (ctxOf m1 c).ten (r.2.blk.plan + 64 * r.2.main.phase) 64 m1 ∧ planPhase m r.2 r.2.main.phase = .ok ph ∧ ph.bad = false ∧ expertOf m c ph = none ∧ r.2.main.placed < ph.peas ∧ (r.2.main.placed ≠ 0 ∨ unitsGone m c q r.2.main.phase = true)) ∧
    (∃ (s : State) (c : ℕ) (q : ℕ) (x : Step), isUp s.m = true ∧ findStep s.m c q = some x ∧ x.areaDone = false ∧ x.expLeft = []) :=
  ⟨⟨wit (modMem (fun x => { x with pages := x.pages ++ [pgIn .hbm 40] }) ∘ modStp (fun x => { x with steps := [stepN 40] }) ∘ kvOn), 1, 0, _, _, _, _, (by decide +kernel), (Option.some_get (by decide +kernel)).symm, (by decide +kernel), (by decide +kernel), (by decide +kernel), (by decide +kernel), (by decide +kernel), rfl, rfl, rfl⟩,
    ⟨wit (modStp fun x => { x with steps := [stepN 40] }), 1, 0, _, (by decide +kernel), (Option.some_get (by decide +kernel)).symm, (by decide +kernel), (by decide +kernel), (by decide +kernel), (by decide +kernel)⟩,
    ⟨witC fun x => { x with slots := [{ slot := 3, allocated := true, gen := 5, draining := true, keep := true }] }, 1, 3, _, (by decide +kernel), rfl, (by decide +kernel), (by decide +kernel), (by decide +kernel), (by decide +kernel)⟩,
    ⟨wit (expS ∘ modCtx 1 (fun x => { x with layouts := [{ blk := lay0 }] })), 1, 0, _, _, _, _, _, _, (by decide +kernel), (by decide +kernel), (Option.some_get (by decide +kernel)).symm, (by decide +kernel), (by decide +kernel), (by decide +kernel), (by decide +kernel), (by decide +kernel), rfl, (by decide +kernel), rfl, rfl, okOf_eq _ (by decide +kernel), (by decide +kernel), (Option.some_get (by decide +kernel)).symm, (by decide +kernel)⟩,
    ⟨wit (devPut 0 67 [0x80] ∘ expS), 1, 0, _, _, _, _, _, (by decide +kernel), (by decide +kernel), (Option.some_get (by decide +kernel)).symm, (by decide +kernel), (by decide +kernel), (by decide +kernel), (by decide +kernel), (by decide +kernel), rfl, (by decide +kernel), rfl, rfl, okOf_eq _ (by decide +kernel), (by decide +kernel)⟩,
    ⟨wit expS, 1, 0, _, _, _, _, _, (by decide +kernel), (by decide +kernel), (Option.some_get (by decide +kernel)).symm, (by decide +kernel), (by decide +kernel), (by decide +kernel), (by decide +kernel), (by decide +kernel), rfl, (by decide +kernel), rfl, rfl, okOf_eq _ (by decide +kernel), (by decide +kernel), (by decide +kernel), (by decide +kernel), (Or.inr (by decide +kernel))⟩,
    ⟨wit (modStp fun x => { x with steps := [stepN 40] }), 1, 0, _, (by decide +kernel), (Option.some_get (by decide +kernel)).symm, (by decide +kernel), (by decide +kernel)⟩⟩

/-- States and operands that meet the hypotheses of RebindSteps. -/
theorem witness_RebindSteps :
    (∃ (s : State) (q : ℕ) (r : Rebind), isUp s.m = true ∧ findRebind s.m q .flashClear = some r) ∧
    (∃ (s : State) (q : ℕ) (r : Rebind) (n : ℕ), isUp s.m = true ∧ findRebind s.m q .cryptoErase = some r ∧ r.destroy = true ∧ n = ((bitsBelow 64 r.keys).map fun k => (pagesOfKey s.m r.src k).length).sum) ∧
    (∃ (s : State) (q : ℕ) (r : Rebind) (n : ℕ) (x : Nv × Mach), isUp s.m = true ∧ findRebind s.m q .cryptoErase = some r ∧ r.destroy = false ∧ x = drawKeys ((bitsBelow 64 r.keys).filterMap fun k => ((tenOf s.m r.src).keys[k]?).map (·.slot)) s.nv s.m ∧ n = ((bitsBelow 64 r.keys).map fun k => (pagesOfKey s.m r.src k).length).sum) ∧
    (∃ (s : State) (q : ℕ) (r : Rebind), isUp s.m = true ∧ findRebind s.m q .resetting = some r) ∧
    (∃ (s : State) (c : ℕ) (q : ℕ), isUp s.m = true ∧ (ctxOf s.m c).closing = some q ∧ ((∀ r ∈ s.m.reqs, r.ctx ≠ c))) :=
  ⟨⟨rebS { seq := 7, src := 0, dst := 0, pods := 1, slices := 1, keys := 1, st := .flashClear }, 7, _, (by decide +kernel), (Option.some_get (by decide +kernel)).symm⟩,
    ⟨rebS { seq := 7, src := 0, dst := 0, pods := 1, slices := 1, keys := 1, st := .cryptoErase, destroy := true }, 7, _, _, (by decide +kernel), (Option.some_get (by decide +kernel)).symm, (by decide +kernel), rfl⟩,
    ⟨rebS { seq := 7, src := 0, dst := 0, pods := 1, slices := 1, keys := 1, st := .cryptoErase }, 7, _, _, _, (by decide +kernel), (Option.some_get (by decide +kernel)).symm, (by decide +kernel), rfl, rfl⟩,
    ⟨rebS { seq := 7, src := 0, dst := 0, pods := 1, slices := 1, keys := 1, st := .resetting }, 7, _, (by decide +kernel), (Option.some_get (by decide +kernel)).symm⟩,
    ⟨witC fun x => { x with closing := some 9 }, 1, 9, (by decide +kernel), (by decide +kernel), (by decide +kernel)⟩⟩

/-- States and operands that meet the hypotheses of FirmwareHappenings. -/
theorem witness_FirmwareHappenings :
    (∃ (s : State) (d : FwData) (q : ℕ) (bs : List Byte) (r : Nv × Mach), isUp s.m = true ∧ s.m.life.dataPending = some d ∧ d.seq = some q ∧ d.done = true ∧ d.bytes = some bs ∧ d.live = true ∧ r = programBytes bs s.nv (modLife (fun l => { l with dataPending := none }) s.m)) ∧
    (∃ (s : State) (q : ℕ) (b : ℕ) (nv : Nv) (v : Status), isUp s.m = true ∧ s.m.life.commitPending = some (some q) ∧ b = s.m.life.updBank ∧ v = commitVerdict (bankOf s.nv b) ∧ nv = commitBank b s.nv) ∧
    (∃ (s : State) (c : ℕ) (q : ℕ) (rep : List Byte) (out : ℕ) (r : List (ℕ × ℕ × List Byte × ℕ)) (x : Req), isUp s.m = true ∧ (s.m.life.attests = (c, q, rep, out) :: r) ∧ findReq s.m c false q = some x ∧ x.preFlr = false) :=
  ⟨⟨wit (modLife fun l => { l with dataPending := some { seq := some 9, len := 4, done := true, bytes := some [1, 2, 3, 4] } }), _, 9, [1, 2, 3, 4], _, (by decide +kernel), (Option.some_get (by decide +kernel)).symm, (by decide +kernel), (by decide +kernel), (by decide +kernel), (by decide +kernel), rfl⟩,
    ⟨wit (modLife fun l => { l with commitPending := some (some 9), updBank := 1, updOpen := true }), 9, _, _, _, (by decide +kernel), (by decide +kernel), rfl, rfl, rfl⟩,
    ⟨wit (modLife (fun l => { l with attests := [(1, 9, zeros 128, 0x1000)] }) ∘ addReq { ctx := 1, seq := 9, op := 0xB5 }), 1, 9, zeros 128, 0x1000, [], _, (by decide +kernel), (by decide +kernel), (Option.some_get (by decide +kernel)).symm, (by decide +kernel)⟩⟩

/-- States and operands that meet the hypotheses of PowerHappenings. -/
theorem witness_PowerHappenings :
    (∃ (s : State), s.m.life.run ≠ .removed) ∧
    (∃ (s : State), isUp s.m = true ∧ s.m.cap.state = 0) ∧
    (∃ (s : State), isUp s.m = true ∧ s.m.pwr.clamps = [] ∧ s.m.pwr.groupStep < s.m.pwr.localStep ∧ walkAt s.m < s.m.tick.nowUs + s.m.tick.inForce) ∧
    (∃ (s : State), isUp s.m = true ∧ (105 ≤ s.m.pwr.tj ∨ 100 ≤ s.m.pwr.th)) ∧
    (∃ (s : State), s.m.pwr.tj < 105 ∧ s.m.pwr.th < 100) ∧
    (∃ (s : State) (c : ℕ), isUp s.m = true ∧ s.m.life.removal = false ∧ supplyFault s.m.pwr c = true) ∧
    (∃ (s : State), isUp s.m = true ∧ s.m.pwr.leased = true ∧ s.m.pwr.leaseEndUs ≤ s.m.tick.nowUs) ∧
    (∃ (s : State), isUp s.m = true ∧ s.m.pwr.lastCalUs + 1000000 ≤ s.m.tick.nowUs) ∧
    (∃ (m : Mach) (p : PwrSt), m.pwr.lastCalUs + 1000000 ≤ m.tick.nowUs ∧ p = (calibrate m).pwr) ∧
    (∃ (s : State) (pod : ℕ), isUp s.m = true ∧ pod < 48 ∧ s.m.pwr.gateTicks ≠ 0 ∧ s.m.pwr.gateTicks < s.m.pwr.idleTicks.getD pod 0 ∧ pod ∉ s.m.pwr.gated ∧ podHasUnit s.m pod = false) ∧
    (∃ (s : State) (pod : ℕ), isUp s.m = true ∧ pod ∈ s.m.pwr.ungating) :=
  ⟨⟨rdy, (by decide +kernel)⟩,
    ⟨rdy, (by decide +kernel), (by decide +kernel)⟩,
    ⟨wit (modPwr fun p => { p with groupStep := 0, localStep := 1 }), (by decide +kernel), (by decide +kernel), (by decide +kernel), (by decide +kernel)⟩,
    ⟨wit (modPwr fun p => { p with tj := 105 }), (by decide +kernel), (Or.inl (by decide +kernel))⟩,
    ⟨wit (modPwr fun p => { p with tj := 104, th := 99 }), (by decide +kernel), (by decide +kernel)⟩,
    ⟨wit (modPwr fun p => { p with current := 8001 }), 3, (by decide +kernel), (by decide +kernel), (by decide +kernel)⟩,
    ⟨wit (modPwr fun p => { p with leased := true, leaseEndUs := 50000 }), (by decide +kernel), (by decide +kernel), (by decide +kernel)⟩,
    ⟨wit (modTick fun t => { t with nowUs := 1000000 }), (by decide +kernel), (by decide +kernel)⟩,
    ⟨(wit (modTick fun t => { t with nowUs := 1000000 })).m, _, (by decide +kernel), rfl⟩,
    ⟨wit (modPwr fun p => { p with gateTicks := 1, idleTicks := List.replicate 48 2 }), 47, (by decide +kernel), (by decide +kernel), (by decide +kernel), (by decide +kernel), (by decide +kernel), (by decide +kernel)⟩,
    ⟨wit (modPwr fun p => { p with gated := [5], ungating := [5] }), 5, (by decide +kernel), (by decide +kernel)⟩⟩

/-- States and operands that meet the hypotheses of TrayMessagesQueue. -/
theorem witness_TrayMessagesQueue :
    (∃ (s : State) (c : Instr) (t : TrayMsg), ((∃ q w l, c = .i3cLease q w l ∧ t = .lease q w l) ∨ (∃ q r, c = .i3cResetCold q r ∧ t = .reset q 0 r) ∨ (∃ q, c = .i3cResetWarm q ∧ t = .reset q 1 false) ∨ (∃ q n, c = .i3cNode q n ∧ t = .node q n) ∨ (∃ q x f, c = .i3cCoolant q x f ∧ t = .coolant q x f) ∨ (∃ q x, c = .i3cAlarm q x ∧ t = .alarm q x) ∨ (∃ q o l d, c = .i3cPlanBlock q o l d ∧ t = .planBlock q o l d) ∨ (∃ q n, c = .i3cFwBlockBegin q n ∧ t = .fwBlock q 0 n []) ∨ (∃ q o d, c = .i3cFwBlockData q o d ∧ t = .fwBlock q 1 o d) ∨ (∃ q, c = .i3cFwBlockAbandon q ∧ t = .fwBlock q 2 0 []) ∨ (∃ q, c = .i3cFwBlockCommit q ∧ t = .fwBlock q 3 0 [])) ∧ s.m.life.run = .up ∧ s.m.i3c.portUp = true ∧ s.m.life.replay = false ∧ s.m.i3c.queue.length < 16 ∧ trayOk s.m t = true) ∧
    (∃ (s : State) (n : ℕ), s.m.life.run = .up ∧ s.m.i3c.portUp = true ∧ s.m.life.replay = false ∧ s.m.i3c.queue.length < 16 ∧ s.m.cap.state = 0 ∧ 4096 ≤ n) ∧
    (∃ (s : State), s.m.life.run = .up ∧ s.m.i3c.portUp = true ∧ s.m.life.replay = false ∧ 16 ≤ s.m.i3c.queue.length) ∧
    (∃ (s : State), (s.m.life.run ≠ .up ∨ s.m.i3c.portUp = false ∨ s.m.life.replay = true)) ∧
    (∃ (s : State) (q : ℕ) (op : ℕ) (arg : ℕ) (data : List Byte) (r : Nv × Mach), s.m.life.run = .up ∧ s.m.i3c.portUp = true ∧ s.m.life.replay = false ∧ s.m.i3c.queue.length < 16 ∧ op ≤ 3 ∧ data.length ≤ 1024 ∧ (op = 1 ∨ data = []) ∧ (op ≤ 1 ∨ arg = 0) ∧ s.m.life.fail = 1 ∧ r = actRecovery q op arg data s.nv (captureAt [0] 0x04 7 0 (trayBytes (.recovery q op arg data)) s.m)) :=
  ⟨⟨trayS id, .i3cNode 1 4095, .node 1 4095, (Or.inr (Or.inr (Or.inr (Or.inl ⟨1, 4095, rfl, rfl⟩)))), (by decide +kernel), (by decide +kernel), (by decide +kernel), (by decide +kernel), (by decide +kernel)⟩,
    ⟨trayS id, 4096, (by decide +kernel), (by decide +kernel), (by decide +kernel), (by decide +kernel), (by decide +kernel), (by decide +kernel)⟩,
    ⟨trayS (fun x => { x with queue := List.replicate 16 (.node 1 0) }), (by decide +kernel), (by decide +kernel), (by decide +kernel), (by decide +kernel)⟩,
    ⟨rdy, (Or.inr (Or.inl (by decide +kernel)))⟩,
    ⟨wit (modI3c (fun x => { x with portUp := true }) ∘ modLife (fun l => { l with fail := 1, mode := .boot, stage := 15 })), 1, 0, 4096, [], _, (by decide +kernel), (by decide +kernel), (by decide +kernel), (by decide +kernel), (by decide +kernel), (by decide +kernel), (Or.inr rfl), (Or.inl (by decide +kernel)), (by decide +kernel), rfl⟩⟩

/-- States and operands that meet the hypotheses of CommonCommandCodes. -/
theorem witness_CommonCommandCodes :
    (∃ (s : State), portResponds s.m = true) ∧
    (∃ (s : State), portResponds s.m = true ∧ s.m.i3c.dynAddr = none) ∧
    (∃ (s : State) (b : ℕ), portResponds s.m = true ∧ s.m.i3c.dynAddr = some b) ∧
    (∃ (s : State) (d : ℕ), portResponds s.m = true ∧ 2 ≤ d) ∧
    (∃ (s : State) (c : Instr), portResponds s.m = false ∧ (c ∈ [Instr.i3cStatusRead, .i3cRstdaa, .i3cGetmwl, .i3cGetmrl, .i3cGetpid, .i3cGetbcr, .i3cGetdcr, .i3cGetstatus, .i3cGetmxds])) :=
  ⟨⟨trayS id, (by decide +kernel)⟩,
    ⟨trayS (fun x => { x with dynAddr := none }), (by decide +kernel), (by decide +kernel)⟩,
    ⟨trayS (fun x => { x with dynAddr := some 8 }), 8, (by decide +kernel), (by decide +kernel)⟩,
    ⟨trayS id, 2, (by decide +kernel), (by decide +kernel)⟩,
    ⟨rdy, .i3cGetbcr, (by decide +kernel), (by decide +kernel)⟩⟩

/-- States and operands that meet the hypotheses of ResetsAndStages. -/
theorem witness_ResetsAndStages :
    (∃ (ns : ℕ), 1000 ≤ ns) ∧
    (∃ (ns : ℕ), ns < 1000) ∧
    (∃ (s : State), s.m.life.run = .held ∧ s.m.life.rstShort = false ∧ s.m.life.switchOn = true ∧ s.m.life.removal = false ∧ s.nv.capArmed = none) ∧
    (∃ (s : State), s.m.life.run = .held ∧ s.m.life.rstLow = false ∧ s.m.life.switchOn = true ∧ s.m.life.removal = false ∧ s.nv.capArmed = none) ∧
    (∃ (s : State), s.m.life.run = .held ∧ s.m.life.rstLow = true) ∧
    (∃ (s : State), s.m.life.run = .warmOff) ∧
    (∃ (s : State), s.m.life.run = .up ∧ s.m.life.stage = 1 ∧ s.m.life.switchOn = true ∧ s.m.life.bulk = .full) ∧
    (∃ (s : State) (x : Option ℕ × Nv × List (ℕ × ℕ × ℕ)) (b : ℕ), s.m.life.run = .up ∧ s.m.life.stage = 2 ∧ x = chooseBank s.nv ∧ x.1 = some b) ∧
    (∃ (s : State) (x : Option ℕ × Nv × List (ℕ × ℕ × ℕ)), s.m.life.run = .up ∧ s.m.life.stage = 2 ∧ x = chooseBank s.nv ∧ x.1 = none) ∧
    (∃ (s : State), s.m.life.run = .up ∧ s.m.life.stage = 3) ∧
    (∃ (s : State), s.m.life.run = .up ∧ s.m.life.stage = 4) ∧
    (∃ (s : State), s.m.life.run = .up ∧ s.m.life.stage = 5) :=
  ⟨⟨1000, (by decide +kernel)⟩,
    ⟨999, (by decide +kernel)⟩,
    ⟨lifeS fun l => { l with run := .held, rstLow := true }, (by decide +kernel), (by decide +kernel), (by decide +kernel), (by decide +kernel), (by decide +kernel)⟩,
    ⟨lifeS fun l => { l with run := .held, rstShort := true }, (by decide +kernel), (by decide +kernel), (by decide +kernel), (by decide +kernel), (by decide +kernel)⟩,
    ⟨lifeS fun l => { l with run := .held, rstLow := true }, (by decide +kernel), (by decide +kernel)⟩,
    ⟨lifeS fun l => { l with run := .warmOff }, (by decide +kernel)⟩,
    ⟨lifeS fun l => { l with stage := 1, bulk := .full }, (by decide +kernel), (by decide +kernel), (by decide +kernel), (by decide +kernel)⟩,
    ⟨lifeS fun l => { l with stage := 2 }, _, 0, (by decide +kernel), (by decide +kernel), rfl, (by decide +kernel)⟩,
    ⟨{ lifeS (fun l => { l with stage := 2 }) with nv := { bankA := {}, bankB := {} } }, _, (by decide +kernel), (by decide +kernel), rfl, (by decide +kernel)⟩,
    ⟨lifeS fun l => { l with stage := 3 }, (by decide +kernel), (by decide +kernel)⟩,
    ⟨lifeS fun l => { l with stage := 4 }, (by decide +kernel), (by decide +kernel)⟩,
    ⟨lifeS fun l => { l with stage := 5 }, (by decide +kernel), (by decide +kernel)⟩⟩

/-- States and operands that meet the hypotheses of ReadinessAndHotSwap. -/
theorem witness_ReadinessAndHotSwap :
    (∃ (s : State), isUp s.m = true ∧ s.m.life.stage = 7 ∧ s.m.life.mode = .mgmt ∧ ((∀ r ∈ s.m.ten.rebinds, r.acrossReset = false))) ∧
    (∃ (b : ℕ), (b = 0 ∨ b = 1)) ∧
    (∃ (s : State), isUp s.m = true ∧ s.m.life.mode ≠ .mgmt) ∧
    (∃ (s : State) (e : ℕ), isUp s.m = true ∧ readyDue s.m = true ∧ s.m.cap.state = 0 ∧ e = 1 + Config.randomEpoch s.nv.epochDraws % 65535) ∧
    (∃ (s : State) (ns : ℕ), 200 ≤ ns ∧ s.m.life.removal = false ∧ s.m.life.isolated = false) ∧
    (∃ (ns : ℕ), ns < 200) ∧
    (∃ (s : State), s.m.life.removal = true ∧ s.m.life.isolated = false) ∧
    (∃ (s : State), s.m.life.removal = true ∧ s.m.life.isolated = true) ∧
    (∃ (s : State), s.m.life.present = true ∧ s.m.life.switchOn = false ∧ s.m.life.removal = false) ∧
    (∃ (s : State), s.m.life.switchOn = true) :=
  ⟨⟨lifeS fun l => { l with stage := 7, mode := .mgmt }, (by decide +kernel), (by decide +kernel), (by decide +kernel), (by decide +kernel)⟩,
    ⟨1, (Or.inr rfl)⟩,
    ⟨rdy, (by decide +kernel), (by decide +kernel)⟩,
    ⟨wit fun m => let n := net m; { n with fab := { n.fab with ready := false } }, _, (by decide +kernel), (by decide +kernel), (by decide +kernel), rfl⟩,
    ⟨rdy, 200, (by decide +kernel), (by decide +kernel), (by decide +kernel)⟩,
    ⟨199, (by decide +kernel)⟩,
    ⟨lifeS fun l => { l with removal := true }, (by decide +kernel), (by decide +kernel)⟩,
    ⟨lifeS fun l => { l with removal := true, isolated := true }, (by decide +kernel), (by decide +kernel)⟩,
    ⟨lifeS fun l => { l with present := true, switchOn := false }, (by decide +kernel), (by decide +kernel), (by decide +kernel)⟩,
    ⟨lifeS fun l => { l with switchOn := true }, (by decide +kernel)⟩⟩

/-- States and operands that meet the hypotheses of RingRegisters. -/
theorem witness_RingRegisters :
    (∃ (s : State) (c : ℕ) (n : ℕ) (w : RegWrite), Lands c s ∧ 9 ≤ n ∧ n ≤ 16 ∧ (fnOf s.m c).cmdEnabled = false ∧ flrHolds s.m c = false ∧ ctxShut s.m c = false ∧ (w = { fn := c, bar := 0, off := 0x008, width := 4, value := pack [(0, 1, 1), (8, 5, n)] })) ∧
    (∃ (s : State) (c : ℕ) (n : ℕ) (w : RegWrite), Lands c s ∧ (n < 9 ∨ 16 < n ∧ n < 32) ∧ (w = { fn := c, bar := 0, off := 0x008, width := 4, value := pack [(0, 1, 1), (8, 5, n)] })) ∧
    (∃ (s : State) (c : ℕ) (n : ℕ) (w : RegWrite), Lands c s ∧ 9 ≤ n ∧ n ≤ 16 ∧ (((fnOf s.m c).cmdEnabled = false ∧ flrHolds s.m c = true) ∨ ctxShut s.m c = true) ∧ (w = { fn := c, bar := 0, off := 0x008, width := 4, value := pack [(0, 1, 1), (8, 5, n)] })) ∧
    (∃ (s : State) (c : ℕ) (f : Fn) (w : RegWrite), Lands c s ∧ f = fnOf s.m c ∧ 9 ≤ f.statusLog2 ∧ f.statusLog2 ≤ 16 ∧ f.cmdEnabled = true ∧ f.head = f.tail ∧ f.urgHead = f.urgTail ∧ ((∀ r ∈ s.m.reqs, r.ctx ≠ c)) ∧ (w = { fn := c, bar := 0, off := 0x008, width := 4, value := pack [(8, 5, f.statusLog2)] })) ∧
    (∃ (s : State) (c : ℕ) (f : Fn) (w : RegWrite), Lands c s ∧ f = fnOf s.m c ∧ 9 ≤ f.statusLog2 ∧ f.statusLog2 ≤ 16 ∧ f.cmdEnabled = true ∧ (f.head ≠ f.tail ∨ f.urgHead ≠ f.urgTail ∨ (∃ r ∈ s.m.reqs, r.ctx = c)) ∧ (w = { fn := c, bar := 0, off := 0x008, width := 4, value := pack [(8, 5, f.statusLog2)] })) ∧
    (∃ (s : State) (c : ℕ) (n : ℕ) (w : RegWrite), Lands c s ∧ 7 ≤ n ∧ n ≤ 16 ∧ (fnOf s.m c).evtEnabled = false ∧ flrHolds s.m c = false ∧ ctxShut s.m c = false ∧ (w = { fn := c, bar := 0, off := 0x040, width := 4, value := pack [(0, 1, 1), (8, 5, n)] })) ∧
    (∃ (s : State) (c : ℕ) (f : Fn) (w : RegWrite), Lands c s ∧ f = fnOf s.m c ∧ 7 ≤ f.evtLog2 ∧ f.evtLog2 ≤ 16 ∧ f.evtEnabled = true ∧ (w = { fn := c, bar := 0, off := 0x040, width := 4, value := pack [(8, 5, f.evtLog2)] })) ∧
    (∃ (s : State) (c : ℕ) (h : ℕ) (w : RegWrite), Lands c s ∧ (w = { fn := c, bar := 0, off := 0x030, width := 4, value := h }) ∧ Machine.dist h (fnOf s.m c).statusHead ≤ Machine.dist (fnOf s.m c).statusWritten (fnOf s.m c).statusHead) ∧
    (∃ (s : State) (c : ℕ) (h : ℕ) (w : RegWrite), Lands c s ∧ (w = { fn := c, bar := 0, off := 0x030, width := 4, value := h }) ∧ Machine.dist (fnOf s.m c).statusWritten (fnOf s.m c).statusHead < Machine.dist h (fnOf s.m c).statusHead) ∧
    (∃ (s : State) (c : ℕ) (h : ℕ) (w : RegWrite), Lands c s ∧ (w = { fn := c, bar := 0, off := 0x050, width := 4, value := h }) ∧ Machine.dist h (fnOf s.m c).evtHead ≤ Machine.dist (fnOf s.m c).evtTail (fnOf s.m c).evtHead) ∧
    (∃ (s : State) (c : ℕ) (h : ℕ) (w : RegWrite), Lands c s ∧ (w = { fn := c, bar := 0, off := 0x050, width := 4, value := h }) ∧ Machine.dist (fnOf s.m c).evtTail (fnOf s.m c).evtHead < Machine.dist h (fnOf s.m c).evtHead) :=
  ⟨⟨fnS (fun f => { f with cmdEnable := false, cmdEnabled := false }), 1, 16, _, landsOf (by decide +kernel), (by decide +kernel), (by decide +kernel), (by decide +kernel), (by decide +kernel), (by decide +kernel), rfl⟩,
    ⟨rdy, 1, 8, _, landsOf (by decide +kernel), (Or.inl (by decide +kernel)), rfl⟩,
    ⟨wit (modFn 2 fun f => { f with flrLatched := true }), 2, 9, _, landsOf (by decide +kernel), (by decide +kernel), (by decide +kernel), (Or.inr (by decide +kernel)), rfl⟩,
    ⟨rdy, 1, _, _, landsOf (by decide +kernel), rfl, (by decide +kernel), (by decide +kernel), (by decide +kernel), (by decide +kernel), (by decide +kernel), (by decide +kernel), rfl⟩,
    ⟨fnS (fun f => { f with tail := 1 }), 1, _, _, landsOf (by decide +kernel), rfl, (by decide +kernel), (by decide +kernel), (by decide +kernel), (Or.inl (by decide +kernel)), rfl⟩,
    ⟨fnS (fun f => { f with evtEnable := false, evtEnabled := false }), 1, 7, _, landsOf (by decide +kernel), (by decide +kernel), (by decide +kernel), (by decide +kernel), (by decide +kernel), (by decide +kernel), rfl⟩,
    ⟨rdy, 1, _, _, landsOf (by decide +kernel), rfl, (by decide +kernel), (by decide +kernel), (by decide +kernel), rfl⟩,
    ⟨fnS (fun f => { f with statusWritten := 5, statusHead := 3 }), 1, 5, _, landsOf (by decide +kernel), rfl, (by decide +kernel)⟩,
    ⟨fnS (fun f => { f with statusWritten := 5, statusHead := 3 }), 1, 6, _, landsOf (by decide +kernel), rfl, (by decide +kernel)⟩,
    ⟨fnS (fun f => { f with evtTail := 5, evtHead := 3 }), 1, 5, _, landsOf (by decide +kernel), rfl, (by decide +kernel)⟩,
    ⟨fnS (fun f => { f with evtTail := 5, evtHead := 3 }), 1, 6, _, landsOf (by decide +kernel), rfl, (by decide +kernel)⟩⟩

/-- States and operands that meet the hypotheses of ImmediateWrites. -/
theorem witness_ImmediateWrites :
    (∃ (s : State) (c : ℕ) (t : ℕ) (f : Fn) (w : RegWrite), Lands c s ∧ f = fnOf s.m c ∧ (w = { fn := c, bar := 0, off := 0x018, width := 4, value := t }) ∧ f.cmdEnabled = true ∧ Machine.dist t f.head ≤ 256 ∧ Machine.dist t f.tail ≤ 256) ∧
    (∃ (s : State) (c : ℕ) (t : ℕ) (f : Fn) (w : RegWrite), Lands c s ∧ f = fnOf s.m c ∧ (w = { fn := c, bar := 0, off := 0x018, width := 4, value := t }) ∧ (f.cmdEnabled = false ∨ 256 < Machine.dist t f.head ∨ 256 < Machine.dist t f.tail)) ∧
    (∃ (s : State) (c : ℕ) (t : ℕ) (f : Fn) (w : RegWrite), Lands c s ∧ f = fnOf s.m c ∧ (w = { fn := c, bar := 0, off := 0x01C, width := 4, value := t }) ∧ f.cmdEnabled = true ∧ Machine.dist t f.urgHead ≤ 16 ∧ Machine.dist t f.urgTail ≤ 16) ∧
    (∃ (s : State) (c : ℕ) (t : ℕ) (f : Fn) (w : RegWrite), Lands c s ∧ f = fnOf s.m c ∧ (w = { fn := c, bar := 0, off := 0x01C, width := 4, value := t }) ∧ (f.cmdEnabled = false ∨ 16 < Machine.dist t f.urgHead ∨ 16 < Machine.dist t f.urgTail)) ∧
    (∃ (s : State) (c : ℕ) (i : ℕ) (bs : List Byte) (f : Fn), reachable s.m c = true ∧ f = fnOf s.m c ∧ i < 256 ∧ bs.length = 64 ∧ Machine.dist f.tail f.head ≤ (i + 256 - f.head % 256) % 256) ∧
    (∃ (s : State) (c : ℕ) (i : ℕ) (bs : List Byte) (f : Fn), reachable s.m c = true ∧ f = fnOf s.m c ∧ i < 256 ∧ bs.length = 64 ∧ (i + 256 - f.head % 256) % 256 < Machine.dist f.tail f.head) ∧
    (∃ (s : State) (c : ℕ) (i : ℕ) (bs : List Byte) (f : Fn), reachable s.m c = true ∧ f = fnOf s.m c ∧ i < 16 ∧ bs.length = 64 ∧ Machine.dist f.urgTail f.urgHead ≤ (i + 16 - f.urgHead % 16) % 16) ∧
    (∃ (s : State) (c : ℕ) (off : ℕ) (bs : List Byte), reachable s.m c = true ∧ (off < 0x4000 ∨ 0x8400 < off + bs.length)) ∧
    (∃ (s : State) (c : ℕ) (b : Word32) (w : RegWrite), reachable s.m c = true ∧ (w = { fn := c, bar := 0, off := 0x05C, width := 4, value := b.toNat })) ∧
    (∃ (s : State) (w : RegWrite), reachable s.m 0 = true ∧ (w = { fn := 0, bar := 2, off := 0x00028, width := 8, value := 16 })) ∧
    (∃ (s : State) (c : ℕ), reachable s.m c = true ∧ (fnOf s.m c).msixMasked = true ∧ (fnOf s.m c).msixPending = true) ∧
    (∃ (s : State) (c : ℕ), reachable s.m c = true ∧ (fnOf s.m c).msixPending = false) :=
  ⟨⟨rdy, 1, 256, _, _, landsOf (by decide +kernel), rfl, rfl, (by decide +kernel), (by decide +kernel), (by decide +kernel)⟩,
    ⟨rdy, 1, 257, _, _, landsOf (by decide +kernel), rfl, rfl, (Or.inr (Or.inl (by decide +kernel)))⟩,
    ⟨rdy, 1, 16, _, _, landsOf (by decide +kernel), rfl, rfl, (by decide +kernel), (by decide +kernel), (by decide +kernel)⟩,
    ⟨rdy, 1, 17, _, _, landsOf (by decide +kernel), rfl, rfl, (Or.inr (Or.inl (by decide +kernel)))⟩,
    ⟨fnS (fun f => { f with tail := 255 }), 1, 255, zeros 64, _, (by decide +kernel), rfl, (by decide +kernel), (by decide +kernel), (by decide +kernel)⟩,
    ⟨fnS (fun f => { f with tail := 256 }), 1, 255, zeros 64, _, (by decide +kernel), rfl, (by decide +kernel), (by decide +kernel), (by decide +kernel)⟩,
    ⟨fnS (fun f => { f with urgTail := 15 }), 1, 15, zeros 64, _, (by decide +kernel), rfl, (by decide +kernel), (by decide +kernel), (by decide +kernel)⟩,
    ⟨rdy, 1, 0x83C1, zeros 64, (by decide +kernel), (Or.inr (by decide +kernel))⟩,
    ⟨fnS (fun f => { f with evtStatus := 127 }), 1, 1, _, (by decide +kernel), rfl⟩,
    ⟨rdy, _, (by decide +kernel), rfl⟩,
    ⟨fnS (fun f => { f with msixPending := true }), 1, (by decide +kernel), (by decide +kernel), (by decide +kernel)⟩,
    ⟨rdy, 1, (by decide +kernel), (by decide +kernel)⟩⟩

/-- States and operands that meet the hypotheses of ModuleRegisters. -/
theorem witness_ModuleRegisters :
    (∃ (s : State) (p : ℕ) (w : RegWrite), Lands 0 s ∧ p < 1024 ∧ (w = { fn := 0, bar := 2, off := 0x00000, width := 4, value := p }) ∧ 10 ≤ p ∧ p ≤ 1000 ∧ s.m.tick.root = true) ∧
    (∃ (s : State) (p : ℕ) (w : RegWrite), Lands 0 s ∧ p < 1024 ∧ (w = { fn := 0, bar := 2, off := 0x00000, width := 4, value := p }) ∧ (p < 10 ∨ 1000 < p)) ∧
    (∃ (s : State) (p : ℕ) (w : RegWrite), Lands 0 s ∧ p < 1024 ∧ (w = { fn := 0, bar := 2, off := 0x00000, width := 4, value := p }) ∧ 10 ≤ p ∧ p ≤ 1000 ∧ s.m.tick.root = false) ∧
    (∃ (s : State) (g : ℕ) (w : RegWrite), Lands 0 s ∧ g < 64 ∧ (w = { fn := 0, bar := 2, off := 0x00020, width := 4, value := g }) ∧ 1 ≤ g ∧ g ≤ 50) ∧
    (∃ (s : State) (g : ℕ) (w : RegWrite), Lands 0 s ∧ g < 64 ∧ (w = { fn := 0, bar := 2, off := 0x00020, width := 4, value := g }) ∧ (g = 0 ∨ 50 < g)) ∧
    (∃ (s : State) (b : Bool) (w : RegWrite), Lands 0 s ∧ (w = { fn := 0, bar := 2, off := 0x30000, width := 4, value := if b then 1 else 0 }) ∧ s.m.fab.ready = false) ∧
    (∃ (s : State) (b : Bool) (w : RegWrite), Lands 0 s ∧ (w = { fn := 0, bar := 2, off := 0x30000, width := 4, value := if b then 1 else 0 }) ∧ s.m.fab.ready = true) ∧
    (∃ (s : State) (t : ℕ) (a : ℕ) (r : ℕ) (n : ℕ) (w : RegWrite), Lands 0 s ∧ t < 8192 ∧ a < 16 ∧ r < 256 ∧ n < 16384 ∧ (w = { fn := 0, bar := 2, off := 0x30008, width := 8, value := t + 2 ^ 16 * a + 2 ^ 24 * r + 2 ^ 32 * n }) ∧ 50 ≤ t ∧ t ≤ 5000 ∧ 1 ≤ a ∧ 10 ≤ r ∧ r ≤ 255 ∧ 1 ≤ n ∧ n ≤ 10000) ∧
    (∃ (s : State) (t : ℕ) (a : ℕ) (r : ℕ) (n : ℕ) (w : RegWrite), Lands 0 s ∧ t < 8192 ∧ a < 16 ∧ r < 256 ∧ n < 16384 ∧ (w = { fn := 0, bar := 2, off := 0x30008, width := 8, value := t + 2 ^ 16 * a + 2 ^ 24 * r + 2 ^ 32 * n }) ∧ (t < 50 ∨ 5000 < t ∨ a = 0 ∨ r < 10 ∨ n = 0 ∨ 10000 < n)) ∧
    (∃ (s : State) (x : ℕ) (w : RegWrite), Lands 0 s ∧ x < 65536 ∧ (w = { fn := 0, bar := 2, off := 0x40000, width := 4, value := x }) ∧ 1 ≤ x) ∧
    (∃ (s : State) (x : ℕ) (w : RegWrite), Lands 0 s ∧ x < 65536 ∧ (w = { fn := 0, bar := 2, off := 0x40000, width := 4, value := x }) ∧ x = 0) ∧
    (∃ (s : State) (a : ℕ) (b : ℕ) (c : ℕ) (d : ℕ) (w : RegWrite), Lands 0 s ∧ a < 65536 ∧ b < 65536 ∧ c < 65536 ∧ d < 65536 ∧ (w = { fn := 0, bar := 2, off := 0x60050, width := 8, value := a + 2 ^ 16 * b + 2 ^ 32 * c + 2 ^ 48 * d }) ∧ a < b ∧ c < d) ∧
    (∃ (s : State) (a : ℕ) (b : ℕ) (c : ℕ) (d : ℕ) (w : RegWrite), Lands 0 s ∧ a < 65536 ∧ b < 65536 ∧ c < 65536 ∧ d < 65536 ∧ (w = { fn := 0, bar := 2, off := 0x60050, width := 8, value := a + 2 ^ 16 * b + 2 ^ 32 * c + 2 ^ 48 * d }) ∧ (b ≤ a ∨ d ≤ c)) ∧
    (∃ (s : State) (x : ℕ) (h : ℕ) (l : ℕ) (w : RegWrite), Lands 0 s ∧ x < 64 ∧ h < 256 ∧ l < 256 ∧ (w = { fn := 0, bar := 2, off := 0x90000, width := 8, value := x + 2 ^ 8 * h + 2 ^ 16 * l }) ∧ 1 ≤ x ∧ x ≤ 60 ∧ 1 ≤ h ∧ h ≤ 168 ∧ 24 ≤ l) ∧
    (∃ (s : State) (x : ℕ) (h : ℕ) (l : ℕ) (w : RegWrite), Lands 0 s ∧ x < 64 ∧ h < 256 ∧ l < 256 ∧ (w = { fn := 0, bar := 2, off := 0x90000, width := 8, value := x + 2 ^ 8 * h + 2 ^ 16 * l }) ∧ (x = 0 ∨ 60 < x ∨ h = 0 ∨ 168 < h ∨ l < 24)) ∧
    (∃ (s : State) (g : ℕ) (w : RegWrite), Lands 0 s ∧ g < 1024 ∧ (w = { fn := 0, bar := 2, off := 0x50030, width := 8, value := g }) ∧ g ≤ 1000) ∧
    (∃ (s : State) (g : ℕ) (w : RegWrite), Lands 0 s ∧ g < 1024 ∧ (w = { fn := 0, bar := 2, off := 0x50030, width := 8, value := g }) ∧ 1000 < g) ∧
    (∃ (s : State) (b : ℕ) (w : RegWrite), Lands 0 s ∧ b < 2 ^ 52 ∧ s.m.life.replay = true ∧ (w = { fn := 0, bar := 2, off := 0xA0028, width := 8, value := b * 4096 })) ∧
    (∃ (s : State) (b : ℕ) (w : RegWrite), Lands 0 s ∧ b < 2 ^ 52 ∧ s.m.life.replay = true ∧ (w = { fn := 0, bar := 2, off := 0xA0030, width := 8, value := b * 4096 })) ∧
    (∃ (s : State) (o : Bool) (b : ℕ) (w : RegWrite), Lands 0 s ∧ s.m.life.replay = false ∧ (w = { fn := 0, bar := 2, off := if o then 0xA0030 else 0xA0028, width := 8, value := b * 4096 })) :=
  ⟨⟨rdy, 1000, _, landsOf (by decide +kernel), (by decide +kernel), rfl, (by decide +kernel), (by decide +kernel), (by decide +kernel)⟩,
    ⟨rdy, 9, _, landsOf (by decide +kernel), (by decide +kernel), rfl, (Or.inl (by decide +kernel))⟩,
    ⟨wit (modTick fun t => { t with root := false }), 10, _, landsOf (by decide +kernel), (by decide +kernel), rfl, (by decide +kernel), (by decide +kernel), (by decide +kernel)⟩,
    ⟨rdy, 50, _, landsOf (by decide +kernel), (by decide +kernel), rfl, (by decide +kernel), (by decide +kernel)⟩,
    ⟨rdy, 51, _, landsOf (by decide +kernel), (by decide +kernel), rfl, (Or.inr (by decide +kernel))⟩,
    ⟨rdy, true, _, landsOf (by decide +kernel), rfl, (by decide +kernel)⟩,
    ⟨wit net, true, _, landsOf (by decide +kernel), rfl, (by decide +kernel)⟩,
    ⟨rdy, 5000, 15, 255, 10000, _, landsOf (by decide +kernel), (by decide +kernel), (by decide +kernel), (by decide +kernel), (by decide +kernel), rfl, (by decide +kernel), (by decide +kernel), (by decide +kernel), (by decide +kernel), (by decide +kernel), (by decide +kernel), (by decide +kernel)⟩,
    ⟨rdy, 49, 1, 10, 1, _, landsOf (by decide +kernel), (by decide +kernel), (by decide +kernel), (by decide +kernel), (by decide +kernel), rfl, (Or.inl (by decide +kernel))⟩,
    ⟨rdy, 65535, _, landsOf (by decide +kernel), (by decide +kernel), rfl, (by decide +kernel)⟩,
    ⟨rdy, 0, _, landsOf (by decide +kernel), (by decide +kernel), rfl, (by decide +kernel)⟩,
    ⟨rdy, 0, 1, 0, 65535, _, landsOf (by decide +kernel), (by decide +kernel), (by decide +kernel), (by decide +kernel), (by decide +kernel), rfl, (by decide +kernel), (by decide +kernel)⟩,
    ⟨rdy, 5, 5, 0, 1, _, landsOf (by decide +kernel), (by decide +kernel), (by decide +kernel), (by decide +kernel), (by decide +kernel), rfl, (Or.inl (by decide +kernel))⟩,
    ⟨rdy, 60, 168, 24, _, landsOf (by decide +kernel), (by decide +kernel), (by decide +kernel), (by decide +kernel), rfl, (by decide +kernel), (by decide +kernel), (by decide +kernel), (by decide +kernel), (by decide +kernel)⟩,
    ⟨rdy, 60, 169, 24, _, landsOf (by decide +kernel), (by decide +kernel), (by decide +kernel), (by decide +kernel), rfl, (Or.inr (Or.inr (Or.inr (Or.inl (by decide +kernel)))))⟩,
    ⟨rdy, 1000, _, landsOf (by decide +kernel), (by decide +kernel), rfl, (by decide +kernel)⟩,
    ⟨rdy, 1001, _, landsOf (by decide +kernel), (by decide +kernel), rfl, (by decide +kernel)⟩,
    ⟨wit (modLife fun l => { l with replay := true }), 3, _, landsOf (by decide +kernel), (by decide +kernel), (by decide +kernel), rfl⟩,
    ⟨wit (modLife fun l => { l with replay := true }), 3, _, landsOf (by decide +kernel), (by decide +kernel), (by decide +kernel), rfl⟩,
    ⟨rdy, true, 3, _, landsOf (by decide +kernel), (by decide +kernel), rfl⟩⟩

/-- States and operands that meet the hypotheses of RawRegisterWrites. -/
theorem witness_RawRegisterWrites :
    (∃ (s : State) (w : RegWrite) (b : ℕ) (r : Reg), Lands w.fn s ∧ w.bar = 2 ∧ w.fn = 0 ∧ (written s.nv s.m w = some (b, r)) ∧ r.writable = true ∧ sizeOk r b w = true ∧ b ≠ 0x28) ∧
    (∃ (s : State) (w : RegWrite) (b : ℕ) (r : Reg), reachable s.m 0 = true ∧ s.m.life.mode = .boot ∧ w.bar = 2 ∧ w.fn = 0 ∧ (written s.nv s.m w = some (b, r)) ∧ r.writable = true ∧ sizeOk r b w = true ∧ b ≠ 0x28 ∧ s.m.host.held.countP (·.fn == 0) < 64) ∧
    (∃ (s : State) (w : RegWrite), reachable s.m 0 = true ∧ w.bar = 2 ∧ w.fn = 0 ∧ written s.nv s.m w = none) ∧
    (∃ (s : State) (w : RegWrite) (b : ℕ) (r : Reg), reachable s.m 0 = true ∧ w.bar = 2 ∧ w.fn = 0 ∧ (written s.nv s.m w = some (b, r)) ∧ (r.writable = false ∨ sizeOk r b w = false)) ∧
    (∃ (s : State) (fn : ℕ), reachable s.m fn = false) ∧
    (∃ (s : State) (fn : ℕ), reachable s.m fn = true ∧ fn ≠ 0) :=
  ⟨⟨rdy, { fn := 0, bar := 2, off := 0x20, width := 4, value := 5 }, 0x20, { width := 32, value := 2, writable := true }, landsOf (by decide +kernel), (by decide +kernel), (by decide +kernel), (by decide +kernel), (by decide +kernel), (by decide +kernel), (by decide +kernel)⟩,
    ⟨wit (modLife fun l => { l with mode := .boot }), { fn := 0, bar := 2, off := 0x20, width := 4, value := 5 }, 0x20, { width := 32, value := 2, writable := true }, (by decide +kernel), (by decide +kernel), (by decide +kernel), (by decide +kernel), (by decide +kernel), (by decide +kernel), (by decide +kernel), (by decide +kernel), (by decide +kernel)⟩,
    ⟨rdy, { fn := 0, bar := 2, off := 0xC0000, width := 4, value := 5 }, (by decide +kernel), (by decide +kernel), (by decide +kernel), (by decide +kernel)⟩,
    ⟨rdy, { fn := 0, bar := 2, off := 0x10, width := 4, value := 5 }, 0x10, { width := 32, value := 1000 }, (by decide +kernel), (by decide +kernel), (by decide +kernel), (by decide +kernel), (Or.inl (by decide +kernel))⟩,
    ⟨wit (modHost fun h => { h with vfEnable := false }), 9, (by decide +kernel)⟩,
    ⟨rdy, 9, (by decide +kernel), (by decide +kernel)⟩⟩

/-- States and operands that meet the hypotheses of HostPortHappenings. -/
theorem witness_HostPortHappenings :
    (∃ (s : State), s.m.life.run = .up ∧ s.m.life.replay = false ∧ s.m.host.stopped = false) ∧
    (∃ (s : State) (v : Bool), s.m.life.run = .up ∧ (s.m.host.vfEnable = false ∨ v = true)) ∧
    (∃ (s : State), s.m.life.run = .up ∧ s.m.fns.length = 256 ∧ s.m.host.vfEnable = true) ∧
    (∃ (s : State) (c : ℕ), reachable s.m c = true ∧ 0 < c ∧ c < s.m.fns.length) ∧
    (∃ (s : State), reachable s.m 0 = true ∧ s.m.fns.length = 256) ∧
    (∃ (s : State), s.m.life.run = .up ∧ s.m.fns.length = 256) ∧
    (∃ (s : State) (c : ℕ), reachable s.m c = true) ∧
    (∃ (s : State), s.m.life.run = .up) ∧
    (∃ (s : State) (id : ℕ) (addr : ℕ) (x : ReadFor), s.m.life.run = .up ∧ s.m.cap.state = 0 ∧ (s.m.host.reads.find? (·.1 == id) = some (id, addr, x))) ∧
    (∃ (s : State) (id : ℕ) (t : ℕ), alGet id s.m.host.readUs = some t ∧ due s.m t 50000 = true) ∧
    (∃ (s : State) (id : ℕ) (t : ℕ), alGet id s.m.host.readUs = some t ∧ due s.m t 50000 = false) ∧
    (∃ (s : State) (id : ℕ), s.m.host.reads.find? (·.1 == id) = none) :=
  ⟨⟨rdy, (by decide +kernel), (by decide +kernel), (by decide +kernel)⟩,
    ⟨rdy, true, (by decide +kernel), (Or.inr rfl)⟩,
    ⟨rdy, (by decide +kernel), (by decide +kernel), (by decide +kernel)⟩,
    ⟨rdy, 255, (by decide +kernel), (by decide +kernel), (by decide +kernel)⟩,
    ⟨rdy, (by decide +kernel), (by decide +kernel)⟩,
    ⟨rdy, (by decide +kernel), (by decide +kernel)⟩,
    ⟨rdy, 255, (by decide +kernel)⟩,
    ⟨rdy, (by decide +kernel)⟩,
    ⟨wit (modHost fun h => { h with reads := [(3, 0x1000, ReadFor.fwData)] }), 3, 0x1000, ReadFor.fwData, (by decide +kernel), (by decide +kernel), (by decide +kernel)⟩,
    ⟨wit (modHost fun h => { h with reads := [(3, 0x1000, ReadFor.fwData)], readUs := [(3, 0)] }), 3, _, (Option.some_get (by decide +kernel)).symm, (by decide +kernel)⟩,
    ⟨wit (modHost fun h => { h with reads := [(3, 0x1000, ReadFor.fwData)], readUs := [(3, 50000)] }), 3, _, (Option.some_get (by decide +kernel)).symm, (by decide +kernel)⟩,
    ⟨rdy, 3, (by decide +kernel)⟩⟩

/-- States and operands that meet the hypotheses of StepRunsTheFrontCommand. -/
theorem witness_StepRunsTheFrontCommand :
    (∃ (s : State) (c : Instr) (rest : List Instr), s.pending = c :: rest) ∧
    (∃ (s : State), s.pending = []) :=
  ⟨⟨{ rdy with pending := [.go, .tickBoundary] }, .go, [.tickBoundary], (by decide +kernel)⟩,
    ⟨rdy, (by decide +kernel)⟩⟩

/-- States and operands that meet the hypotheses of RegistersAfterColdReset. -/
theorem witness_RegistersAfterColdReset :
    (∃ (x : ℕ × ℕ), (x ∈ [(0x00000, 0x00320032), (0x00008, 0x00000001), (0x00020, 0x00000002), (0x00040, 0x0000000000000001), (0x30000, 0x00000100), (0x30008, 0x000003E80A0801F4), (0x40000, 0x00001000), (0x50010, 0x0000038403840640), (0x50030, 0x00000000000000C8), (0x50040, 0x0000000000000001), (0x60040, 0x574FBD6D423DF047), (0x60048, 0x574FBD6D423DF047), (0x60050, 0x2000100040002000), (0x60068, 0x0000000003E80000), (0x70000, 0x0000000100B83000), (0x70008, 0xFFFFFFFFFFFFFFFF), (0x70010, 0xFFFFFFFFFFFFFFFF), (0x70018, 0xFFFFFFFFFFFFFFFF), (0x70020, 0xFFFFFFFFFFFFFFFF), (0x70028, 0xFFFFFFFFFFFFFFFF), (0x70030, 0xFFFFFFFFFFFFFFFF), (0x90000, 0x0000000000A8180A)])) ∧
    (∃ (off : ℕ), (off ∈ [0x00010, 0x00018, 0x00028, 0x00030, 0x00038, 0x10000, 0x10008, 0x10010, 0x10020, 0x10028, 0x10030, 0x10038, 0x30010, 0x30018, 0x30020, 0x30028, 0x30030, 0x30038, 0x30040, 0x30048, 0x40008, 0x40010] ++ ((List.range 6).flatMap fun n => (List.range 5).map fun i => 0x40100 + 0x40 * n + 8 * i) ++ [0x50000, 0x50008, 0x50018, 0x50020, 0x50028, 0x50038, 0x60000, 0x60008, 0x60010, 0x60058, 0x60060, 0x60070, 0x60078, 0x60080, 0x600C0, 0x600C8, 0x600D0, 0x600D8, 0x70038, 0x70040, 0x80000, 0x80008, 0x80010, 0x80018, 0x90008, 0x90010, 0x90018, 0x90020, 0x90028, 0x90030, 0xA0000, 0xA0008, 0xA0010, 0xA0018, 0xA0020, 0xA0028, 0xA0030, 0xA0038, 0xB0000, 0xB0008, 0xB0010, 0xB0018, 0xB0020, 0xB0028, 0xB0030, 0xB0038, 0xB0040, 0xB0048])) ∧
    (∃ (off : ℕ), (0xC0000 ≤ off ∨ 0x20000 ≤ off ∧ off < 0x30000 ∨ off % 8 ≠ 0)) ∧
    (∃ (m : Mach), 1 ≤ stagesEnded m.life) :=
  ⟨⟨(0x00008, 0x00000001), (by decide +kernel)⟩,
    ⟨0xB0048, (by decide +kernel)⟩,
    ⟨0xC0000, (Or.inl (by decide +kernel))⟩,
    ⟨rdy.m, (by decide +kernel)⟩⟩

/-- States and operands that meet the hypotheses of MemoryStaysCanonical. -/
theorem witness_MemoryStaysCanonical :
    ∃ (c : Instr) (s : State), ((∃ p a n d, c = .peaLoad p a n d) ∨ (∃ p a bs, c = .peaStore p a bs) ∨ (∃ p a w op x y rd, c = .sliceAtomic p a w op x y rd) ∨ (∃ p op d a b e, c = .vectorOperation p op d a b e) ∨ (∃ p o, c = .matrixInstruction p o) ∨ (∃ p v e d l, c = .quant p v e d l) ∨ (∃ f o bs, c = .ringSlotWrite f o bs) ∨ (∃ p, c = .peaStaggerStart p) ∨ (∃ ns, c = .resetInputAssert ns) ∨ (∃ b ws, c = .bootBankSelect b ws)) ∧ Memory.wf s.m = true :=
  ⟨.peaStore 0 8 (zeros 8), rdy, (Or.inr (Or.inl ⟨0, 8, zeros 8, rfl⟩)), (by decide +kernel)⟩

/-- States and operands that meet the hypotheses of ResetInputFiltered. -/
theorem witness_ResetInputFiltered :
    (∃ (ns : ℕ), ns < 1000) ∧
    (∃ (ns : ℕ), 1000 ≤ ns) ∧
    (∃ (s : State), s.m.life.run = .held ∧ s.m.life.switchOn = true ∧ s.m.life.removal = false) ∧
    (∃ (s : State) (ns : ℕ), 1000 ≤ ns ∧ ns < 1000000 ∧ s.m.life.switchOn = true ∧ s.m.life.removal = false) :=
  ⟨⟨999, (by decide +kernel)⟩,
    ⟨1000, (by decide +kernel)⟩,
    ⟨lifeS fun l => { l with run := .held, rstLow := true }, (by decide +kernel), (by decide +kernel), (by decide +kernel)⟩,
    ⟨rdy, 999999, (by decide +kernel), (by decide +kernel), (by decide +kernel), (by decide +kernel)⟩⟩

/-- States and operands that meet the hypotheses of NothingWhileDown. -/
theorem witness_NothingWhileDown :
    (∃ (s : State), s.m.life.run ≠ .up) ∧
    (∃ (s : State) (c : Instr), isUp s.m = false ∧ (c ∈ [Instr.go, .stepWalkIndex, .clampEnd, .thermalShutdown, .leaseExpiry, .energyCalibration, .moduleReady, .fabricReadyAnnounce, .pageReclaim, .rootTsyncLaunch, .tsyncMiss, .tickSyncLoss, .groupJoinTimeout, .fwDataProgrammed, .fwCommitCheckDone, .attestSignDone] ∨ (∃ p, c = .peaStaggerStart p ∨ c = .engineColdStart p ∨ c = .descRun p ∨ c = .descWait p ∨ c = .descPost p ∨ c = .workUnitComplete p ∨ c = .move p ∨ c = .tile p ∨ c = .podGate p ∨ c = .podUngateDone p ∨ c = .linkDetectStart p ∨ c = .linkPartnerDetect p ∨ c = .linkLockLoss p) ∨ (∃ t q, c = .slotDrain t q ∨ c = .migrationCommit t q [] ∨ c = .kvFlashDemote t q))) :=
  ⟨⟨lifeS fun l => { l with run := .warmOff }, (by decide +kernel)⟩,
    ⟨lifeS fun l => { l with run := .removed }, .go, (by decide +kernel), (Or.inl (by decide +kernel))⟩⟩

/-- States and operands that meet the hypotheses of PacketsAreChecked. -/
theorem witness_PacketsAreChecked :
    (∃ (i : Instr) (p : Packet) (s : State), packetOf i = some p ∧ canServe s.m p = false) ∧
    (∃ (i : Instr) (p : Packet) (s : State), packetOf i = some p ∧ canServe s.m p = true ∧ hasRoom s.m p.hdr.ctx p.info.urgent (p.extra s.m) = false) ∧
    (∃ (i : Instr) (p : Packet) (s : State) (r : Reason), packetOf i = some p ∧ canServe s.m p = true ∧ hasRoom s.m p.hdr.ctx p.info.urgent (p.extra s.m) = true ∧ firstFail s.nv (passPacket p.hdr.ctx p.info.urgent s.m) p = some r) ∧
    (∃ (i : Instr) (p : Packet) (s : State), packetOf i = some p ∧ canServe s.m p = true ∧ hasRoom s.m p.hdr.ctx p.info.urgent (p.extra s.m) = true ∧ firstFail s.nv (passPacket p.hdr.ctx p.info.urgent s.m) p = none ∧ s.m.life.mode = .mgmt ∧ p.info.mgmt = false) ∧
    (∃ (i : Instr) (p : Packet) (s : State), packetOf i = some p ∧ canServe s.m p = true ∧ hasRoom s.m p.hdr.ctx p.info.urgent (p.extra s.m) = true ∧ firstFail s.nv (passPacket p.hdr.ctx p.info.urgent s.m) p = none ∧ s.m.life.mode = .fault ∧ p.info.mgmt = false) ∧
    (∃ (i : Instr) (p : Packet) (s : State), packetOf i = some p ∧ canServe s.m p = true ∧ hasRoom s.m p.hdr.ctx p.info.urgent (p.extra s.m) = true ∧ firstFail s.nv (passPacket p.hdr.ctx p.info.urgent s.m) p = none ∧ s.m.life.mode = .ready ∧ (p.info.tenant = false ∨ p.hdr.ctx ≠ 0)) ∧
    (∃ (i : Instr) (p : Packet) (s : State), packetOf i = some p ∧ (p.info.op ∈ [0x20, 0x21, 0x22, 0x23, 0x24, 0x25, 0x26, 0x30, 0x31, 0x32, 0x33, 0x40, 0x41, 0x42, 0x50, 0x51, 0x52, 0x53, 0x54, 0x55, 0x70, 0x82, 0x90, 0x91, 0x92]) ∧ p.hdr.ctx = 0 ∧ canServe s.m p = true ∧ hasRoom s.m 0 p.info.urgent (p.extra s.m) = true ∧ firstFail s.nv (passPacket 0 p.info.urgent s.m) p = none ∧ s.m.life.mode = .ready) :=
  ⟨⟨.nop (hd 1 0), _, fnS (fun f => { f with cmdEnable := false, cmdEnabled := false }), (Option.some_get (by decide +kernel)).symm, (by decide +kernel)⟩,
    ⟨.nop (hd 1 0), _, fnS (fun f => { f with statusWritten := 512 }), (Option.some_get (by decide +kernel)).symm, (by decide +kernel), (by decide +kernel)⟩,
    ⟨.nop (hd 1 7), _, rdy, .sequence, (Option.some_get (by decide +kernel)).symm, (by decide +kernel), (by decide +kernel), (by decide +kernel)⟩,
    ⟨.setGuard (hd 1 0) 2, _, lifeS (fun l => { l with mode := .mgmt }), (Option.some_get (by decide +kernel)).symm, (by decide +kernel), (by decide +kernel), (by decide +kernel), (by decide +kernel), (by decide +kernel)⟩,
    ⟨.setGuard (hd 1 0) 2, _, lifeS (fun l => { l with mode := .fault, halted := [2] }), (Option.some_get (by decide +kernel)).symm, (by decide +kernel), (by decide +kernel), (by decide +kernel), (by decide +kernel), (by decide +kernel)⟩,
    ⟨.nop (hd 1 0), _, rdy, (Option.some_get (by decide +kernel)).symm, (by decide +kernel), (by decide +kernel), (by decide +kernel), (by decide +kernel), (Or.inr (by decide +kernel))⟩,
    ⟨.slotAlloc (hd 0 0) 0 0, _, rdy, (Option.some_get (by decide +kernel)).symm, (by decide +kernel), (by decide +kernel), (by decide +kernel), (by decide +kernel), (by decide +kernel), (by decide +kernel)⟩⟩

/-- States and operands that meet the hypotheses of RingEntries. -/
theorem witness_RingEntries :
    (∃ (m : Mach) (c : ℕ) (f : Fn) (a : ℕ), m.host.stopped = false ∧ m.life.replay = false ∧ f = fnOf m c ∧ a = f.statusBase * 4096 + 16 * (f.statusWritten % 2 ^ f.statusLog2)) ∧
    (∃ (m : Mach) (c : ℕ) (body : List Byte) (f : Fn) (a : ℕ), m.host.stopped = false ∧ m.life.replay = false ∧ f = fnOf m c ∧ body.length ≤ 23 ∧ a = f.evtBase * 4096 + 32 * (f.evtTail % 2 ^ f.evtLog2)) :=
  ⟨⟨rdy.m, 1, _, _, (by decide +kernel), (by decide +kernel), rfl, rfl⟩,
    ⟨rdy.m, 1, zeros 23, _, _, (by decide +kernel), (by decide +kernel), rfl, (by decide +kernel), rfl⟩⟩

end Sys2Proof.Tests
end

/-! ## Every command answers

Every command answers a next state and leaves the commands that wait as they were. -/

namespace Sys2Proof.Machine

/-- A next state with the same commands waiting. -/
def KeepsQueue (s : State) (o : Host.Outcome State Fault Refusal) : Prop := ∃ t, o = .next t ∧ t.pending = s.pending

/-- A command that only changes the machine and what no reset clears keeps the queue. -/
theorem keepsQueue_next (s : State) (nv : Nv) (m : Mach) : KeepsQueue s (.next { s with nv := nv, m := m }) := ⟨_, rfl, rfl⟩

/-- So does one that does it while the module is up and is otherwise without effect. -/
theorem keepsQueue_whileUp (s : State) (nv : Nv) (m : Mach) :
    KeepsQueue s (if isUp s.m then .next { s with nv := nv, m := m } else .next s) := by
  split
  · exact keepsQueue_next s nv m
  · exact ⟨s, rfl, rfl⟩

/-- R8, R129: the commands given by `onFab`, `atBoundary` or `onFabric`, and those given by `onNv`, `nvBoundary` or `onFlash`, ask
first whether the module is up; every other one answers its next state outright. -/
theorem exec_keepsQueue (c : Instr) (s : State) : KeepsQueue s (exec c s) := by
  cases c with
  | stepOpen | slotDrain | ctxCloseComplete | expertRoundDeadline | collRoundDeadline | shardInstallFinalize
  | shardUpstreamTimeout | shardBackgroundVerify | groupJoinTimeout | attestSignDone | leaseExpiry | energyCalibration
  | podGate | unitCut | move | moveComplete | collect | returnAnswer | exchangeRoundStart | queueHeaderReceive
  | queueReturnHeaders | gatherReturnHeader | collHeaderReceive | promotionStart | stallLimitExpiry | kvFlashDemote
  | lpVerifyPass | lpLinkRetry | datapathParityReplay | fatom | fabricRequestIssue | fabricRequestReceive
  | fabricCompletionReceive | fabricTimeout | fabricNotReadyRetry | fabricNotReadyExpiry | noticeReceive =>
    exact keepsQueue_whileUp ..
  | shardChunkProcess | migrationCommit | sramScrubPass | hbmScrubPass | uncorrectableRead | hbmCaParityReissue
  | flashFreeBlockCollect | flashProgramFail | flashStateChange | rebindCryptoEraseDone | flashDieLoss | rowRemapCopyDone
  | flashRetentionScan | flashReadDisturbRelocate | fwDataProgrammed | fwCommitCheckDone | fabricReadyAnnounce | moduleReady =>
    exact keepsQueue_whileUp ..
  | _ => exact keepsQueue_next ..

/-- Settles O50, by cases on the command. -/
theorem everyCommandAnswers : Obligations.EveryCommandAnswers := exec_keepsQueue

end Sys2Proof.Machine

/-! ## Writes that act as they arrive

What a write to a register does on receipt, and then the rules of doorbells,
ring slots, W1C flags and the MSI-X mask. -/

namespace Sys2Proof.Machine

/-! ### A register written -/

/-- R463: recording a write touches no function. -/
@[simp] theorem fnOf_captureWrite (cls : Nat) (w : RegWrite) (m : Mach) (c : Nat) : fnOf (captureWrite cls w m) c = fnOf m c := by
  unfold captureWrite captureAt
  split <;> rfl

/-- R490, R493: a write of the host that lies in a register: one that software may write, of the size that it admits. -/
structure WritesReg (w : RegWrite) (nv : Nv) (m : Mach) (base : Nat) (r : Reg) : Prop where
  reach : reachable m w.fn = true
  bar : w.bar = 0 ∧ w.off < 0x1000 ∨ w.bar = 2 ∧ w.fn = 0
  names : written nv m w = some (base, r)
  writable : r.writable = true
  size : sizeOk r base w = true

/-- Such a write is none of a ring slot, of the MSI-X table or of no place at all. -/
theorem WritesReg.receive {w : RegWrite} {nv : Nv} {m : Mach} {base : Nat} {r : Reg} (h : WritesReg w nv m base r) :
    receiveWrite w nv m =
      if (w.bar == 0 && base == 0x5C) || (w.bar == 2 && base == 0x28) then clearFlags w m
      else if m.life.mode == .boot then m |> captureWrite (writeClass w) w |> holdWrite w
      else if w.bar == 0 && (base == 0x18 || base == 0x1C) then
        ringDoorbell w.fn (base == 0x1C) w.value (captureWrite (writeClass w) w m)
      else latchWrite w (captureWrite (writeClass w) w m) := by
  have hb : (w.bar == 0 || w.bar == 2 && w.fn == 0) = true := by
    rcases h.bar with ⟨b, -⟩ | ⟨b, c⟩ <;> simp [*]
  have slot : ¬((w.bar = 0 ∧ 0x4000 ≤ w.off) ∧ w.off < 0x8400) := by have := h.bar; omega
  have msix : ¬((w.bar = 0 ∧ 0x1000 ≤ w.off) ∧ w.off < 0x1010) := by have := h.bar; omega
  simp [receiveWrite, h.reach, hb, slot, msix, h.names, h.writable, h.size]

/-! ### Doorbells (R122) -/

/-- The write of a command ring's doorbell: that of the ring of 256 entries, or of the urgent one. -/
def doorbellWrite (c : Nat) (urgent : Bool) (t : Nat) : RegWrite :=
  { fn := c, bar := 0, off := if urgent then 0x01C else 0x018, width := 4, value := t }

/-- R122: a doorbell that the host reaches past BOOT rings on receipt. -/
theorem receiveWrite_doorbell (c : Nat) (urgent : Bool) (t : Nat) (s : State) (h : Lands c s) :
    receiveWrite (doorbellWrite c urgent t) s.nv s.m =
      ringDoorbell c urgent t (captureWrite 7 (doorbellWrite c urgent t) s.m) := by
  have w : WritesReg (doorbellWrite c urgent t) s.nv s.m (if urgent then 0x01C else 0x018)
      { width := 32, value := 0, writable := true } := by
    cases urgent <;> exact ⟨h.reach, .inl ⟨rfl, by simp [doorbellWrite]⟩, rfl, rfl, by simp [sizeOk, doorbellWrite]⟩
  rw [w.receive]
  cases urgent <;> simp [doorbellWrite, writeClass, h.mode]

/-- R122: the tail of the command ring moves while the ring is enabled and neither the entries it would hold nor the move is
more than the ring. -/
theorem ringDoorbell_command (c t : Nat) (m : Mach) : ringDoorbell c false t m =
    if (fnOf m c).cmdEnabled = true ∧ dist t (fnOf m c).head ≤ 256 ∧ dist t (fnOf m c).tail ≤ 256 then
      modFn c (fun f => { f with tail := t }) m
    else ignoreWrite c .doorbell m := by
  simp [ringDoorbell]

/-- R122: the same of the urgent ring. -/
theorem ringDoorbell_urgent (c t : Nat) (m : Mach) : ringDoorbell c true t m =
    if (fnOf m c).cmdEnabled = true ∧ dist t (fnOf m c).urgHead ≤ 16 ∧ dist t (fnOf m c).urgTail ≤ 16 then
      modFn c (fun f => { f with urgTail := t }) m
    else ignoreWrite c .doorbell m := by
  simp [ringDoorbell]

theorem exec_cmdDoorbell (c t : Nat) (s : State) :
    exec (.cmdDoorbell c t) s = .next (withM s (receiveWrite (doorbellWrite c false t) s.nv s.m)) := rfl

theorem exec_cmdUrgDoorbell (c t : Nat) (s : State) :
    exec (.cmdUrgDoorbell c t) s = .next (withM s (receiveWrite (doorbellWrite c true t) s.nv s.m)) := rfl

/-! ### Ring slots (R123) -/

/-- R123: 64 bytes written to a slot of the command ring fill it, unless it is protected. -/
theorem writeSlot_command (c i : Nat) (bs : List Byte) (m : Mach) (hi : i < 256) (hl : bs.length = 64) :
    writeSlot c (0x4000 + 64 * i) bs m =
      if guarded 256 (fnOf m c).head (fnOf m c).tail i then ignoreWrite c .slotWrite m
      else modFn c (fun f => { f with cmdSlots := memWrite (64 * i) bs f.cmdSlots }) m := by
  have whole : (0x4000 + 64 * i) % 64 = 0 := by omega
  have lower : 0x4000 + 64 * i < 0x8000 := by omega
  simp [writeSlot, hl, whole, lower]

/-- R123: the same of the urgent ring. -/
theorem writeSlot_urgent (c i : Nat) (bs : List Byte) (m : Mach) (hl : bs.length = 64) :
    writeSlot c (0x8000 + 64 * i) bs m =
      if guarded 16 (fnOf m c).urgHead (fnOf m c).urgTail i then ignoreWrite c .slotWrite m
      else modFn c (fun f => { f with urgSlots := memWrite (64 * i) bs f.urgSlots }) m := by
  have whole : (0x8000 + 64 * i) % 64 = 0 := by omega
  simp [writeSlot, hl, whole]

/-- R123, R426: a write of ring slots is a slot's within their range and a bad access outside it. -/
theorem exec_ringSlotWrite (c off : Nat) (bs : List Byte) (s : State) (h : reachable s.m c = true) :
    exec (.ringSlotWrite c off bs) s = .next (withM s
      (if 0x4000 ≤ off ∧ off + bs.length ≤ 0x8400 then writeSlot c off bs s.m else badAccess c s.m)) := by
  simp [exec, execRingSlotWrite, onM, h]

/-! ### W1C flags (R11) -/

/-- The write of EVT_STATUS with the flags `b`. -/
def evtStatusWrite (c : Nat) (b : Word32) : RegWrite := { fn := c, bar := 0, off := 0x05C, width := 4, value := b.toNat }

/-- The write of LOST_SEEN with 1. -/
def lostSeenWrite : RegWrite := { fn := 0, bar := 2, off := 0x00028, width := 8, value := 16 }

/-- R11: the flags of EVT_STATUS written with 1 are cleared on receipt. -/
theorem receiveWrite_evtStatus (c : Nat) (b : Word32) (s : State) (h : reachable s.m c = true) :
    receiveWrite (evtStatusWrite c b) s.nv s.m =
      modFn c (fun f => { f with evtStatus := w1c b f.evtStatus }) (captureWrite 0 (evtStatusWrite c b) s.m) := by
  rw [WritesReg.receive ⟨h, .inl ⟨rfl, by simp [evtStatusWrite]⟩, rfl, rfl, by simp [sizeOk, evtStatusWrite]⟩]
  simp [clearFlags, evtStatusWrite]

/-- R11: LOST_SEEN written with 1 is cleared on receipt. -/
theorem receiveWrite_lostSeen (s : State) (h : reachable s.m 0 = true) :
    receiveWrite lostSeenWrite s.nv s.m = modTick (fun t => { t with lostSeen := false }) (captureWrite 0 lostSeenWrite s.m) := by
  rw [WritesReg.receive ⟨h, .inr ⟨rfl, rfl⟩, rfl, rfl, rfl⟩]
  have bit4 : Nat.testBit 16 4 = true := by decide
  simp [clearFlags, lostSeenWrite, bit4]

theorem exec_evtStatusClear (c : Nat) (b : Word32) (s : State) :
    exec (.evtStatusClear c b) s = .next (withM s (receiveWrite (evtStatusWrite c b) s.nv s.m)) := rfl

theorem exec_tikSyncLostSeenClear (s : State) :
    exec .tikSyncLostSeenClear s = .next (withM s (receiveWrite lostSeenWrite s.nv s.m)) := rfl

/-! ### The MSI-X mask (R424) -/

/-- R424: a masked vector that is pending sends its message when it is unmasked. -/
theorem unmask_pending (c : Nat) (m : Mach) (h : reachable m c = true) (hm : (fnOf m c).msixMasked = true)
    (hp : (fnOf m c).msixPending = true) :
    unmask c m = sendIrq c (modFn c (fun f => { f with msixMasked := false, msixPending := false }) m) := by
  simp [unmask, h, hm, hp, onlyIf]

/-- R424: one that is not pending is unmasked and sends nothing. -/
theorem unmask_idle (c : Nat) (m : Mach) (h : reachable m c = true) (hp : (fnOf m c).msixPending = false) :
    unmask c m = modFn c (fun f => { f with msixMasked := false }) m := by
  simp [unmask, h, hp, onlyIf]

theorem exec_msixUnmask (c : Nat) (s : State) : exec (.msixUnmask c) s = .next (withM s (unmask c s.m)) := rfl

/-! ### The statement -/

/-- Settles O45: each write is received by its own rule, and a doorbell or a slot then meets its bound or not. -/
theorem immediateWrites : Obligations.ImmediateWrites := by
  refine ⟨?tail, ?urgTail, ?slot, ?slotGuarded, ?urgSlot, ?outside, ?evtStatus, ?lostSeen, ?pending, ?idle⟩
  case tail =>
    rintro s c t f w h rfl rfl
    rw [exec_cmdDoorbell, receiveWrite_doorbell c false t s h, ringDoorbell_command, fnOf_captureWrite]
    exact ⟨fun en hd tl => by rw [if_pos ⟨en, hd, tl⟩]; rfl, fun no => by rw [if_neg (by grind)]; rfl⟩
  case urgTail =>
    rintro s c t f w h rfl rfl
    rw [exec_cmdUrgDoorbell, receiveWrite_doorbell c true t s h, ringDoorbell_urgent, fnOf_captureWrite]
    exact ⟨fun en hd tl => by rw [if_pos ⟨en, hd, tl⟩]; rfl, fun no => by rw [if_neg (by grind)]; rfl⟩
  case slot =>
    rintro s c i bs f h rfl hi hl free
    rw [exec_ringSlotWrite c _ bs s h, if_pos (by omega), writeSlot_command c i bs s.m hi hl,
      if_neg (by simpa [guarded] using free)]
  case slotGuarded =>
    rintro s c i bs f h rfl hi hl held
    rw [exec_ringSlotWrite c _ bs s h, if_pos (by omega), writeSlot_command c i bs s.m hi hl,
      if_pos (by simpa [guarded] using held)]
  case urgSlot =>
    rintro s c i bs f h rfl hi hl free
    rw [exec_ringSlotWrite c _ bs s h, if_pos (by omega), writeSlot_urgent c i bs s.m hl,
      if_neg (by simpa [guarded] using free)]
  case outside =>
    intro s c off bs h out
    rw [exec_ringSlotWrite c off bs s h, if_neg (by omega)]
  case evtStatus =>
    rintro s c b w h rfl
    rw [exec_evtStatusClear, receiveWrite_evtStatus c b s h]
    rfl
  case lostSeen =>
    rintro s w h rfl
    rw [exec_tikSyncLostSeenClear, receiveWrite_lostSeen s h]
    rfl
  case pending =>
    intro s c h masked pending
    rw [exec_msixUnmask, unmask_pending c s.m h masked pending]
  case idle =>
    intro s c h none
    rw [exec_msixUnmask, unmask_idle c s.m h none]

end Sys2Proof.Machine

/-! ## Nothing while the module is down

A command of the module's own units asks first whether the module is up. -/

namespace Sys2Proof.Machine

section
variable {s : State} (down : isUp s.m = false)
include down

/-- R22, R410: what changes the machine only while the module is up leaves it as it is while the module is down. -/
theorem next_ofDown (m : Mach) : Host.Outcome.next (φ := Fault) (ρ := Refusal) { s with m := if isUp s.m then m else s.m } = .next s := by
  simp [down]

/-- The same of an answer that is another only while the module is up. -/
theorem answer_ofDown (o : Host.Outcome State Fault Refusal) : (if isUp s.m then o else .next s) = .next s := by
  simp [down]

/-- The same of what a running pea does. -/
theorem onPea_ofDown (p : Nat) (f : Mach → Mach) : onPea p f s = .next s := by
  simp [onPea, onM, peaRuns, down]

/-- The rows that concern the module as a whole: those of its clocks change the machine, those acted on at the boundary last
fired answer outright. -/
theorem exec_ofDown_module : ∀ c ∈ [Instr.go, .stepWalkIndex, .clampEnd, .thermalShutdown, .leaseExpiry, .energyCalibration,
    .moduleReady, .fabricReadyAnnounce, .pageReclaim, .rootTsyncLaunch, .tsyncMiss, .tickSyncLoss, .groupJoinTimeout,
    .fwDataProgrammed, .fwCommitCheckDone, .attestSignDone], exec c s = .next s := by
  have change := next_ofDown down
  have answer := answer_ofDown down
  simp only [List.forall_mem_cons, List.not_mem_nil, false_imp_iff, implies_true, and_true]
  exact ⟨change _, change _, change _, change _, answer _, answer _, answer _, answer _, change _, change _, change _, change _,
    answer _, answer _, answer _, answer _⟩

/-- The rows of one pea, pod or port. -/
theorem exec_ofDown_part (p : Nat) : ∀ c ∈ [Instr.peaStaggerStart p, .engineColdStart p, .descRun p, .descWait p, .descPost p,
    .workUnitComplete p, .move p, .tile p, .podGate p, .podUngateDone p, .linkDetectStart p, .linkPartnerDetect p,
    .linkLockLoss p], exec c s = .next s := by
  have change := next_ofDown down
  have answer := answer_ofDown down
  simp only [List.forall_mem_cons, List.not_mem_nil, false_imp_iff, implies_true, and_true]
  exact ⟨change _, change _, change _, change _, change _, change _, answer _, onPea_ofDown down _ _, answer _, change _, change _,
    change _, change _⟩

end

/-- R48: no boundary fires in a module that is held, shut down or removed. -/
theorem tickBoundary_notUp (nv : Nv) (m : Mach) (h : m.life.run ≠ .up) : tickBoundary nv m = (nv, m) := by
  simp [tickBoundary, ticks, h]

/-- Settles O57: a boundary finds the module not running, and every other row asks first whether it is up. -/
theorem nothingWhileDown : Obligations.NothingWhileDown := by
  refine ⟨fun s h => ?boundary, fun s c down own => ?own⟩
  case boundary =>
    change Host.Outcome.next { s with nv := (tickBoundary s.nv s.m).1, m := (tickBoundary s.nv s.m).2 } = .next s
    rw [tickBoundary_notUp s.nv s.m h]
  case own =>
    obtain own | ⟨p, own⟩ | ⟨t, q, rfl | rfl | rfl⟩ := own
    · exact exec_ofDown_module down c own
    · exact exec_ofDown_part down p c (by simpa using own)
    · exact answer_ofDown down _
    · exact answer_ofDown down _
    · exact answer_ofDown down _

end Sys2Proof.Machine

/-! ## The running module, and what is recorded

What a command of the running module comes to, and that an input recorded (R463) changes nothing but the record. -/

namespace Sys2Proof.Machine

/-! ### Commands of the running module -/

section
variable {s : State} (up : isUp s.m = true)
include up

/-- While the module is up a command changes the machine as its meaning says. -/
theorem onUp_ofUp (f : Mach → Mach) : onUp f s = .next (withM s (f s.m)) := by
  simp [onUp, onM, up]

/-- The same of one that meets the flash tier's state. -/
theorem onFab_ofUp (f : FlashState → Mach → Mach) : onFab f s = .next (withM s (f s.nv.flash.state s.m)) := by
  simp [onFab, up]

/-- The same of one that brings completions of messages. -/
theorem onFabric_ofUp (f : FlashState → Mach → Mach) :
    onFabric f s = .next (withM s (settleAll s.nv.flash.state (f s.nv.flash.state s.m))) :=
  onFab_ofUp up _

end

/-! ### Inputs recorded (R463) -/

/-- R463: an input recorded changes nothing but the record. -/
theorem captureAt_cap (ord : List Nat) (kind cls source : Nat) (body : List Byte) (m : Mach) :
    ∃ c, captureAt ord kind cls source body m = { m with cap := c } := by
  unfold captureAt
  split
  · exact ⟨_, rfl⟩
  · exact ⟨m.cap, rfl⟩

@[simp] theorem captureAt_tick (ord : List Nat) (kind cls source : Nat) (body : List Byte) (m : Mach) :
    (captureAt ord kind cls source body m).tick = m.tick := by
  obtain ⟨c, h⟩ := captureAt_cap ord kind cls source body m
  rw [h]

@[simp] theorem captureAt_fab (ord : List Nat) (kind cls source : Nat) (body : List Byte) (m : Mach) :
    (captureAt ord kind cls source body m).fab = m.fab := by
  obtain ⟨c, h⟩ := captureAt_cap ord kind cls source body m
  rw [h]

@[simp] theorem captureAt_life (ord : List Nat) (kind cls source : Nat) (body : List Byte) (m : Mach) :
    (captureAt ord kind cls source body m).life = m.life := by
  obtain ⟨c, h⟩ := captureAt_cap ord kind cls source body m
  rw [h]

@[simp] theorem captureAt_lat (ord : List Nat) (kind cls source : Nat) (body : List Byte) (m : Mach) :
    (captureAt ord kind cls source body m).lat = m.lat := by
  obtain ⟨c, h⟩ := captureAt_cap ord kind cls source body m
  rw [h]

@[simp] theorem captureAt_mem (ord : List Nat) (kind cls source : Nat) (body : List Byte) (m : Mach) :
    (captureAt ord kind cls source body m).mem = m.mem := by
  obtain ⟨c, h⟩ := captureAt_cap ord kind cls source body m
  rw [h]

@[simp] theorem captureAt_peas (ord : List Nat) (kind cls source : Nat) (body : List Byte) (m : Mach) :
    (captureAt ord kind cls source body m).peas = m.peas := by
  obtain ⟨c, h⟩ := captureAt_cap ord kind cls source body m
  rw [h]

/-- While no recording runs, an input leaves no entry. -/
theorem capture_idle {m : Mach} (h : m.cap.state = 0) (kind cls source : Nat) (body : List Byte) :
    capture kind cls source body m = m := by
  simp [capture, captureAt, h]

theorem capturePayload_idle {m : Mach} (h : m.cap.state = 0) (digest payload : List Byte) :
    (capturePayload digest payload m).2 = m := by
  simp [capturePayload, h]

end Sys2Proof.Machine

/-! ## The writable module registers

A write that lands is recorded and acted on; each register takes what lies in its range and has the rest refused. -/

namespace Sys2Proof.Machine

/-! ### A module register written -/

/-- The physical function's write of `width` bytes to the place `off` of BAR2. -/
def moduleWrite (off width value : Nat) : RegWrite := { fn := 0, bar := 2, off, width, value }

@[simp] theorem captureWrite_tick (cls : Nat) (w : RegWrite) (m : Mach) : (captureWrite cls w m).tick = m.tick :=
  captureAt_tick ..

@[simp] theorem captureWrite_fab (cls : Nat) (w : RegWrite) (m : Mach) : (captureWrite cls w m).fab = m.fab :=
  captureAt_fab ..

@[simp] theorem captureWrite_life (cls : Nat) (w : RegWrite) (m : Mach) : (captureWrite cls w m).life = m.life :=
  captureAt_life ..

/-- R120, R494: a write that lands on all of a writable register of BAR2 has that register's effect. -/
theorem onWrite_module {s : State} {off width v : Nat} {f : Mach → Mach} (h : Lands 0 s)
    (reg : ∀ m, ∃ r, bar2Reg s.nv m off = some r ∧ (width = 8 ∨ r.width = 32)) (act : bar2Act off v = some f) :
    onWrite (moduleWrite off width v) s =
      .next (wrote s (writeClass (moduleWrite off width v)) (moduleWrite off width v) f) := by
  obtain ⟨reach, up, mode⟩ := h
  have acts : ∀ m, actWrite (moduleWrite off width v) s.nv m = f m := by
    intro m
    obtain ⟨r, hr, whole⟩ := reg m
    have value : merged r off (moduleWrite off width v) = v := by
      rcases whole with whole | whole <;> simp [merged, moduleWrite, whole]
    simp only [actWrite, written, regAt, show (moduleWrite off width v).bar = 2 from rfl,
      show (moduleWrite off width v).off = off from rfl, if_true, hr, value, act]
  have reach : reachable s.m (moduleWrite off width v).fn = true := reach
  simp [onWrite, onM, wrote, reach, up, mode, acts]

/-- What a write does depends only on the machine it finds. -/
theorem wrote_congr {s : State} {cls : Nat} {w : RegWrite} {f g : Mach → Mach}
    (h : f (captureWrite cls w s.m) = g (captureWrite cls w s.m)) : wrote s cls w f = wrote s cls w g := by
  rw [wrote, wrote, h]

/-! ### Fields and ranges -/

/-- The field of `n` bits from bit `lo` of a written value. -/
theorem wbits_of {v lo n x : Nat} (pos : 0 < n) (h : v / 2 ^ lo % 2 ^ n = x) : wbits v lo n = x := by
  rw [wbits, bitsOf, show lo + n - 1 + 1 - lo = n by omega, h]

/-- A register whose value lies in its range takes it. -/
theorem inRange_of {p : Bool} (f : Mach → Mach) (h : p = true) : inRange p f = f := by
  subst h
  rfl

/-- One whose value does not ignores the write. -/
theorem inRange_not {p : Bool} (f : Mach → Mach) (h : p = false) : inRange p f = ignoreWrite 0 .range := by
  subst h
  rfl

/-! ### Each register -/

section
variable {s : State} (h : Lands 0 s)
include h

theorem exec_tikPeriodWrite (p : Nat) :
    exec (.tikPeriodWrite p) s = .next (wrote s 4 (moduleWrite 0x00000 4 p) (actPeriod p)) :=
  onWrite_module h (fun _ => ⟨_, rfl, .inr rfl⟩) rfl

theorem exec_tikGuardWrite (g : Nat) :
    exec (.tikGuardWrite g) s = .next (wrote s 7 (moduleWrite 0x00020 4 g) (actGuard g)) :=
  onWrite_module h (fun _ => ⟨_, rfl, .inr rfl⟩) rfl

theorem exec_fabReachWrite (b : Bool) :
    exec (.fabReachWrite b) s = .next (wrote s 7 (moduleWrite 0x30000 4 (bit b)) (actReach (bit b))) :=
  onWrite_module h (fun _ => ⟨_, rfl, .inr rfl⟩) rfl

theorem exec_fabCtrlWrite (t a r n : Nat) :
    exec (.fabCtrlWrite t a r n) s = .next (wrote s 7
      (moduleWrite 0x30008 8 (pack [(0, 13, t), (16, 4, a), (24, 8, r), (32, 14, n)]))
      (actFabCtrl (pack [(0, 13, t), (16, 4, a), (24, 8, r), (32, 14, n)]))) :=
  onWrite_module h (fun _ => ⟨_, rfl, .inl rfl⟩) rfl

theorem exec_lnkCtrlWrite (x : Nat) :
    exec (.lnkCtrlWrite x) s = .next (wrote s 7 (moduleWrite 0x40000 4 x) (actLaneMax x)) :=
  onWrite_module h (fun _ => ⟨_, rfl, .inr rfl⟩) rfl

theorem exec_memWatermarkWrite (a b c d : Nat) :
    exec (.memWatermarkWrite a b c d) s = .next (wrote s 7
      (moduleWrite 0x60050 8 (pack [(0, 16, a), (16, 16, b), (32, 16, c), (48, 16, d)]))
      (actWatermark (pack [(0, 16, a), (16, 16, b), (32, 16, c), (48, 16, d)]))) :=
  onWrite_module h (fun _ => ⟨_, rfl, .inl rfl⟩) rfl

theorem exec_eccScrubWrite (x y l : Nat) :
    exec (.eccScrubWrite x y l) s = .next (wrote s 7
      (moduleWrite 0x90000 8 (pack [(0, 6, x), (8, 8, y), (16, 8, l)]))
      (actScrub (pack [(0, 6, x), (8, 8, y), (16, 8, l)]))) :=
  onWrite_module h (fun _ => ⟨_, rfl, .inl rfl⟩) rfl

theorem exec_pwrGateWrite (g : Nat) :
    exec (.pwrGateWrite g) s = .next (wrote s 7 (moduleWrite 0x50030 8 g) (actGate g)) :=
  onWrite_module h (fun _ => ⟨_, rfl, .inl rfl⟩) rfl

theorem exec_capReplayAddrWrite (o : Bool) (b : Nat) :
    exec (.capReplayAddrWrite o b) s = .next (wrote s 7
      (moduleWrite (if o then 0xA0030 else 0xA0028) 8 (b * 4096)) (actReplayAddr o (b * 4096))) := by
  cases o <;> exact onWrite_module h (fun _ => ⟨_, rfl, .inl rfl⟩) rfl

end

/-! ### What each takes -/

/-- R32: PERIOD_US takes 10 to 1000, at the tick root alone. -/
theorem actPeriod_eq {p : Nat} (h : p < 1024) (m : Mach) : actPeriod p m =
    if 10 ≤ p ∧ p ≤ 1000 then if m.tick.root then modTick (fun t => { t with periodUs := p }) m else ignoreWrite 0 .register m
    else ignoreWrite 0 .range m := by
  have field : wbits p 0 10 = p := wbits_of (by omega) (by omega)
  by_cases range : 10 ≤ p ∧ p ≤ 1000 <;> cases root : m.tick.root <;> simp [actPeriod, field, range, root]

/-- R49: GUARD_US takes 1 to 50. -/
theorem actGuard_eq {g : Nat} (h : g < 64) :
    actGuard g = inRange (1 ≤ g ∧ g ≤ 50) (modTick fun t => { t with guardUs := g }) := by
  have field : wbits g 0 6 = g := wbits_of (by omega) (by omega)
  simp [actGuard, field]

/-- R26: MODE is taken before fabric-ready. -/
theorem actReach_eq (b : Bool) (m : Mach) : actReach (bit b) m =
    if m.fab.ready then ignoreWrite 0 .register m else modFab (fun f => { f with mode := b }) m := by
  cases b <;> rfl

/-- R361: the fields of FAB_CTRL take 50 to 5000, 1 to 15, 10 to 255 and 1 to 10000. -/
theorem actFabCtrl_eq {t a r n : Nat} (ht : t < 8192) (ha : a < 16) (hr : r < 256) (hn : n < 16384) :
    actFabCtrl (t + 2 ^ 16 * a + 2 ^ 24 * r + 2 ^ 32 * n) =
      inRange (50 ≤ t ∧ t ≤ 5000 ∧ 1 ≤ a ∧ 10 ≤ r ∧ 1 ≤ n ∧ n ≤ 10000)
        (modFab fun f => { f with timeoutUs := t, attempts := a, retainMs := r, notReadyMs := n }) := by
  have ft : wbits (t + 2 ^ 16 * a + 2 ^ 24 * r + 2 ^ 32 * n) 0 13 = t := wbits_of (by omega) (by omega)
  have fa : wbits (t + 2 ^ 16 * a + 2 ^ 24 * r + 2 ^ 32 * n) 16 4 = a := wbits_of (by omega) (by omega)
  have fr : wbits (t + 2 ^ 16 * a + 2 ^ 24 * r + 2 ^ 32 * n) 24 8 = r := wbits_of (by omega) (by omega)
  have fn : wbits (t + 2 ^ 16 * a + 2 ^ 24 * r + 2 ^ 32 * n) 32 14 = n := wbits_of (by omega) (by omega)
  simp only [actFabCtrl, ft, fa, fr, fn]
  congr 1
  grind

/-- R333: LANE_ERR_MAX takes all but 0. -/
theorem actLaneMax_eq {x : Nat} (h : x < 65536) :
    actLaneMax x = inRange (1 ≤ x) fun m => { m with link := { m.link with laneErrMax := x } } := by
  have field : wbits x 0 16 = x := wbits_of (by omega) (by omega)
  simp [actLaneMax, field]

/-- R182: MEM_WATERMARK takes for each tier a low mark below its high one. -/
theorem actWatermark_eq {a b c d : Nat} (ha : a < 65536) (hb : b < 65536) (hc : c < 65536) (hd : d < 65536) :
    actWatermark (a + 2 ^ 16 * b + 2 ^ 32 * c + 2 ^ 48 * d) =
      inRange (a < b ∧ c < d) (modMem fun x => { x with hbmLow := a, hbmHigh := b, lpLow := c, lpHigh := d }) := by
  have fa : wbits (a + 2 ^ 16 * b + 2 ^ 32 * c + 2 ^ 48 * d) 0 16 = a := wbits_of (by omega) (by omega)
  have fb : wbits (a + 2 ^ 16 * b + 2 ^ 32 * c + 2 ^ 48 * d) 16 16 = b := wbits_of (by omega) (by omega)
  have fc : wbits (a + 2 ^ 16 * b + 2 ^ 32 * c + 2 ^ 48 * d) 32 16 = c := wbits_of (by omega) (by omega)
  have fd : wbits (a + 2 ^ 16 * b + 2 ^ 32 * c + 2 ^ 48 * d) 48 16 = d := wbits_of (by omega) (by omega)
  simp only [actWatermark, fa, fb, fc, fd, Bool.decide_and]

/-- R212: the fields of ECC_SCRUB take 1 to 60, 1 to 168 and 24 up. -/
theorem actScrub_eq {x y l : Nat} (hx : x < 64) (hy : y < 256) (hl : l < 256) :
    actScrub (x + 2 ^ 8 * y + 2 ^ 16 * l) =
      inRange (1 ≤ x ∧ x ≤ 60 ∧ 1 ≤ y ∧ y ≤ 168 ∧ 24 ≤ l) (modEcc fun e => { e with sramS := x, hbmH := y, lpH := l }) := by
  have fx : wbits (x + 2 ^ 8 * y + 2 ^ 16 * l) 0 6 = x := wbits_of (by omega) (by omega)
  have fy : wbits (x + 2 ^ 8 * y + 2 ^ 16 * l) 8 8 = y := wbits_of (by omega) (by omega)
  have fl : wbits (x + 2 ^ 8 * y + 2 ^ 16 * l) 16 8 = l := wbits_of (by omega) (by omega)
  simp only [actScrub, fx, fy, fl, Bool.decide_and, Bool.and_assoc]

/-- R411: GATE_TICKS takes up to 1000. -/
theorem actGate_eq {g : Nat} (h : g < 1024) : actGate g = inRange (g ≤ 1000) (modPwr fun p => { p with gateTicks := g }) := by
  have field : wbits g 0 10 = g := wbits_of (by omega) (by omega)
  simp [actGate, field]

/-- R477: a replay address is taken in replay mode. -/
theorem actReplayAddr_replay {b : Nat} (h : b < 2 ^ 52) (o : Bool) (m : Mach) (r : m.life.replay = true) :
    actReplayAddr o (b * 4096) m =
      { m with cap := if o then { m.cap with replayOut := b } else { m.cap with replayBase := b } } := by
  have field : wbits (b * 4096) 12 52 = b := wbits_of (by omega) (by omega)
  simp [actReplayAddr, field, r]

/-- R477: and in no other. -/
theorem actReplayAddr_live (o : Bool) (v : Nat) (m : Mach) (r : m.life.replay = false) :
    actReplayAddr o v m = ignoreWrite 0 .register m := by
  simp [actReplayAddr, r]

/-! ### The statement -/

/-- Settles O46: the write of each register is acted on, and is taken or refused by the register's range and its condition. -/
theorem moduleRegisters : Obligations.ModuleRegisters := by
  refine ⟨?period, ?guard, ?reach, ?fabric, ?lanes, ?watermark, ?scrub, ?gate, ?replay, ?live⟩
  case period =>
    rintro s p w h hp rfl
    rw [exec_tikPeriodWrite h]
    refine ⟨fun lo hi root => ?_, fun out => ?_, fun lo hi root => ?_⟩ <;> refine congrArg _ (wrote_congr ?_)
    · rw [actPeriod_eq hp, if_pos ⟨lo, hi⟩, if_pos (by simpa using root)]
    · rw [actPeriod_eq hp, if_neg (by omega)]
    · rw [actPeriod_eq hp, if_pos ⟨lo, hi⟩, if_neg (by simpa using root)]
  case guard =>
    rintro s g w h hg rfl
    rw [exec_tikGuardWrite h, actGuard_eq hg]
    exact ⟨fun lo hi => by rw [inRange_of _ (by simp [lo, hi])]; rfl, fun out => by rw [inRange_not _ (by grind)]; rfl⟩
  case reach =>
    rintro s b w h rfl
    rw [exec_fabReachWrite h]
    refine ⟨fun before => ?_, fun ready => ?_⟩ <;> refine congrArg _ (wrote_congr ?_)
    · rw [actReach_eq, if_neg (by simpa using before)]
    · rw [actReach_eq, if_pos (by simpa using ready)]
  case fabric =>
    rintro s t a r n w h ht ha hr hn rfl
    have value : pack [(0, 13, t), (16, 4, a), (24, 8, r), (32, 14, n)] = t + 2 ^ 16 * a + 2 ^ 24 * r + 2 ^ 32 * n := by
      simp only [pack, wrap]
      omega
    rw [exec_fabCtrlWrite h, value, actFabCtrl_eq ht ha hr hn]
    exact ⟨fun _ _ _ _ _ _ _ => by rw [inRange_of _ (by simp [*])]; rfl, fun out => by rw [inRange_not _ (by grind)]; rfl⟩
  case lanes =>
    rintro s x w h hx rfl
    rw [exec_lnkCtrlWrite h, actLaneMax_eq hx]
    exact ⟨fun lo => by rw [inRange_of _ (by simpa using lo)]; rfl, fun out => by rw [inRange_not _ (by simp [out])]; rfl⟩
  case watermark =>
    rintro s a b c d w h ha hb hc hd rfl
    have value : pack [(0, 16, a), (16, 16, b), (32, 16, c), (48, 16, d)] = a + 2 ^ 16 * b + 2 ^ 32 * c + 2 ^ 48 * d := by
      simp only [pack, wrap]
      omega
    rw [exec_memWatermarkWrite h, value, actWatermark_eq ha hb hc hd]
    exact ⟨fun hbm lp => by rw [inRange_of _ (by simp [hbm, lp])]; rfl, fun out => by rw [inRange_not _ (by grind)]; rfl⟩
  case scrub =>
    rintro s x y l w h hx hy hl rfl
    have value : pack [(0, 6, x), (8, 8, y), (16, 8, l)] = x + 2 ^ 8 * y + 2 ^ 16 * l := by
      simp only [pack, wrap]
      omega
    rw [exec_eccScrubWrite h, value, actScrub_eq hx hy hl]
    exact ⟨fun _ _ _ _ _ => by rw [inRange_of _ (by simp [*])]; rfl, fun out => by rw [inRange_not _ (by grind)]; rfl⟩
  case gate =>
    rintro s g w h hg rfl
    rw [exec_pwrGateWrite h, actGate_eq hg]
    exact ⟨fun hi => by rw [inRange_of _ (by simpa using hi)]; rfl, fun out => by rw [inRange_not _ (by simpa using out)]; rfl⟩
  case replay =>
    intro s b w h hb replay
    have taken (o : Bool) := actReplayAddr_replay hb o (captureWrite 7 w s.m) (by simpa using replay)
    refine ⟨?_, ?_⟩ <;> rintro rfl <;> rw [exec_capReplayAddrWrite h] <;> refine congrArg _ (wrote_congr ?_)
    · exact taken false
    · exact taken true
  case live =>
    rintro s o b w h live rfl
    rw [exec_capReplayAddrWrite h]
    exact congrArg _ (wrote_congr (actReplayAddr_live o _ _ (by simpa using live)))

end Sys2Proof.Machine

/-! ## Packets and notices of the fabric

What a packet of another module does as it arrives: it is passed on, turned away, or enters its stream. -/

namespace Sys2Proof.Machine

/-! ### Packets in transit (R346, R347) -/

theorem routePacket_port {p : FabPkt} {m : Mach} {q extra : Nat} {det : Bool}
    (h : nextHop m p.dst p.order p.detours = .port q det extra) :
    routePacket p m = linkSend q (.fabric q { p with detoured := p.detoured || det, detours := p.detours + extra })
      (modFab (fun f => if det || extra != 0 then { f with detoured := bump 32 1 f.detoured } else f) m) := by
  simp only [routePacket, h]

theorem routePacket_drop {p : FabPkt} {m : Mach} (h : nextHop m p.dst p.order p.detours = .drop) :
    routePacket p m = modFab (fun f => { f with noRoute := bump 16 1 f.noRoute }) m := by
  simp only [routePacket, h]

/-! ### Requests received (R29, R355, R357) -/

/-- A request that a module ready for it takes: one of Table 14.1, for this node, while no recording runs. -/
structure Heard (p : FabPkt) (m : Mach) : Prop where
  stays : m.life.removal = false
  idle : m.cap.state = 0
  least : 1 ≤ p.type
  most : p.type ≤ 4
  here : p.dst = selfNode m
  fits : p.type = 3 → atomicFits p.aop p.size p.offset = true
  ready : m.fab.ready = true
  healthy : m.life.mode ≠ .fault

/-- R168: the bytes of a request counted for the tenancy that it enters, its source's epoch noted. -/
def countedIn (p : FabPkt) (t : Nat) (m : Mach) : Mach :=
  modTen t (fun x => { x with acct := { x.acct with fabRx := x.acct.fabRx + p.payload.length } })
    (modFab (fun f => { f with srcEpochs := alSet p.src p.srcEpoch f.srcEpochs }) m)

/-- R355: a request for another epoch, other than an atomic, completes with TARGET_LOST and is not applied. -/
theorem receiveReq_otherEpoch {p : FabPkt} {m : Mach} (h : Heard p m) (fs : FlashState) (named : p.dstEpoch ≠ 0)
    (other : p.dstEpoch ≠ m.fab.epoch) (word : p.type ≠ 3) (reach : p.type = 4 ∨ inReach m p.src = true) :
    receiveReq p fs m = answerPkt p .targetLost (node16 m) [] m := by
  obtain ⟨stays, idle, least, most, here, -, ready, healthy⟩ := h
  have type0 : p.type ≠ 0 := by omega
  have within : ¬4 < p.type := by omega
  have far : ¬(p.type ≠ 4 ∧ inReach m p.src = false) := by grind
  simp [receiveReq, capturePayload_idle idle, capture_idle idle, stays, type0, within, here, tAtomic, tMessage, word, ready,
    healthy, named, other, far]

/-- R29: one for this epoch, or that names none, from a source whose epoch is known, enters the stream of the tenancy that
admits it. -/
theorem receiveReq_admitted {p : FabPkt} {m : Mach} (h : Heard p m) (fs : FlashState) {t : Nat}
    (epoch : p.dstEpoch = 0 ∨ p.dstEpoch = m.fab.epoch) (known : alGet p.src m.fab.srcEpochs = some p.srcEpoch)
    (enter : enters m p = (t, .ok)) :
    receiveReq p fs m = settleFab fs (enterStream fs p t .ok
      ((if p.type = 4 then queueCtx (countedIn p t m) t p.tag else none).elim (countedIn p t m) fun c =>
        modCtx c (fun x => { x with acct := { x.acct with fabRx := x.acct.fabRx + p.payload.length } }) (countedIn p t m))) := by
  obtain ⟨stays, idle, least, most, here, fits, ready, healthy⟩ := h
  have type0 : p.type ≠ 0 := by omega
  have within : ¬4 < p.type := by omega
  have fits : ¬(p.type = tAtomic ∧ atomicFits p.aop p.size p.offset = false) := by grind [tAtomic]
  have this : ¬(p.dstEpoch ≠ 0 ∧ p.dstEpoch ≠ m.fab.epoch) := by omega
  have enter : enters (modFab (fun f => { f with srcEpochs := alSet p.src p.srcEpoch f.srcEpochs }) m) p = (t, .ok) := enter
  simp only [receiveReq, capturePayload_idle idle, capture_idle idle, stays, type0, decide_false, Bool.or_self, within, here,
    bne_self_eq_false, Bool.false_eq_true, ↓reduceIte, Bool.and_eq_true, decide_eq_true_eq, Bool.not_eq_eq_eq_not,
    Bool.not_true, fits, ready, Bool.false_or, beq_iff_eq, healthy, bne_iff_ne, ne_eq, this, known, Option.getD_some, enter,
    reduceCtorEq, false_and, BEq.rfl, Bool.and_true]
  rw [← countedIn, show tMessage = 4 from rfl]
  cases (if p.type = 4 then queueCtx (countedIn p t m) t p.tag else none) <;> rfl

/-! ### Holds and notices (R351, R358) -/

theorem holdSend_waiting {m : Mach} {src id : Nat} {p : FabPkt}
    (h : ((m.fab.waitPage.map (·.1) ++ m.fab.dstStreams.flatMap fun x => x.held.map (·.1)).find? fun p =>
      p.src == src && p.reqId == id) = some p) :
    holdSend src id m = routePacket { completionOf m p .ok 0 [] with type := 0x0A, payload := [], len := 0, aop := 0 } m := by
  simp only [holdSend, h]

theorem receiveNotice_seen {port : Nat} {n : Notice} {m : Mach} (fs : FlashState) (h : (n.origin, n.number) ∈ m.fab.seen) :
    receiveNotice port n fs m = m := by
  simp [receiveNotice, h]

/-- R358, R359: a node's own leaving is noted, sent on while it has hops left and latched as a loss. -/
theorem receiveNotice_leaving {port : Nat} {n : Notice} {m : Mach} (fs : FlashState) (new : (n.origin, n.number) ∉ m.fab.seen)
    (idle : m.cap.state = 0) (kind : n.kind = .leaving) (hops : n.hops < 24) :
    receiveNotice port n fs m = latchLoss n.origin 0 (spread { n with hops := n.hops + 1 } port
      (modFab (fun f => { f with seen := (n.origin, n.number) :: f.seen }) m)) := by
  have idle : (modFab (fun f => { f with seen := (n.origin, n.number) :: f.seen }) m).cap.state = 0 := idle
  simp [receiveNotice, new, capture_idle idle, kind, hops]

/-! ### The statement -/

/-- Settles O32: each row runs while the module is up, and its packet or notice then meets its rule. -/
theorem fabricPacketHappenings : Obligations.FabricPacketHappenings := by
  refine ⟨?hop, ?drop, ?admitted, ?otherEpoch, ?hold, ?seen, ?leaving⟩
  case hop =>
    intro s p q det extra up hop
    exact (onUp_ofUp up _).trans (by rw [routePacket_port hop])
  case drop =>
    intro s p up drop
    exact (onUp_ofUp up _).trans (by rw [routePacket_drop drop])
  case admitted =>
    rintro s p a fs up rfl stays idle least most here ready healthy epoch fits known rfl ok m rfl
    have heard : Heard p s.m := ⟨stays, idle, least, most, here, fits, ready, healthy⟩
    refine (onFabric_ofUp up _).trans ?_
    rw [receiveReq_admitted heard _ epoch known (Prod.ext rfl ok)]
    rfl
  case otherEpoch =>
    rintro s p fs up rfl stays idle least most word here ready healthy named other reach
    have heard : Heard p s.m := ⟨stays, idle, least, most, here, fun h => absurd h word, ready, healthy⟩
    exact (onFabric_ofUp up _).trans (by rw [receiveReq_otherEpoch heard _ named other word reach])
  case hold =>
    intro s src id p up waiting
    exact (onUp_ofUp up _).trans (by rw [holdSend_waiting waiting])
  case seen =>
    intro s port n up seen
    exact (onFabric_ofUp up _).trans (by rw [receiveNotice_seen _ seen])
  case leaving =>
    rintro s port n fs up rfl new idle kind hops
    exact (onFabric_ofUp up _).trans (by rw [receiveNotice_leaving _ new idle kind hops])

end Sys2Proof.Machine

/-! ## A read retried four times

What the fourth failure of an LPDDR5X read latches for the unit of a pea that waits for it. -/

namespace Sys2Proof.Machine

/-! ### A unit that ends (R64, R112) -/

@[simp] theorem latchErr_dones (e : ErrIn) (m : Mach) : (latchErr e m).lat.dones = m.lat.dones := by
  simp [latchErr]

@[simp] theorem latchErr_pages (e : ErrIn) (m : Mach) : (latchErr e m).mem.pages = m.mem.pages := by
  simp [latchErr]

@[simp] theorem peaOf_latchErr (e : ErrIn) (m : Mach) (p : Nat) : peaOf (latchErr e m) p = peaOf m p := by
  simp [latchErr, peaOf]

/-- R112: the end of a tile latches nothing. -/
@[simp] theorem endTile_lat (p : Nat) (m : Mach) : (endTile p m).lat = m.lat := by
  simp only [endTile]
  split
  · split <;> rfl
  · rfl

/-- R112: nor does it touch a page. -/
@[simp] theorem endTile_pages (p : Nat) (m : Mach) : (endTile p m).mem.pages = m.mem.pages := by
  simp only [endTile]
  split
  · split <;> rfl
  · rfl

@[simp] theorem endUnit_pages (p : Nat) (st : Status) (d : Nat) (m : Mach) : (endUnit p st d m).mem.pages = m.mem.pages := by
  simp only [endUnit]
  split
  · rfl
  · simp [latchDone]

/-- R64: the completion of a unit that ends, with the compression generation that was copied into it. -/
def unitDone (u : WUnit) (st : Status) (detail : Nat) : DoneIn :=
  { ctx := u.ctx, seq := u.seq, status := st, detail, unit := u.unit, phase := u.phase, expertQ := u.expertQ, gen := u.gen }

/-- R64: the end of a pea's unit latches its completion. -/
theorem endUnit_dones {p : Nat} {m : Mach} {u : WUnit} (h : (peaOf m p).active = some u) (st : Status) (d : Nat) :
    (endUnit p st d m).lat.dones = m.lat.dones ++ [unitDone u st d] := by
  simp [endUnit, h, latchDone, unitDone]

/-! ### The fourth failure (R201) -/

/-- R179, R187: the source of a page that is not migrating stays as it is. -/
theorem abandonSource_still {t view : Nat} {m : Mach} (fs : FlashState)
    (still : (findPage m t (view / pageSize)).any (·.mig.isSome) = false) : abandonSource t view fs m = m := by
  simp only [abandonSource, still, Bool.false_eq_true, if_false]

theorem findPage_congr {m x : Mach} (pages : x.mem.pages = m.mem.pages) (t n : Nat) : findPage x t n = findPage m t n := by
  simp only [findPage, pages]

/-- R201: the fourth failure of a read ends the unit that waits for it with POISONED. -/
theorem lpRetry_fourth_dones {p r loc view : Nat} {m : Mach} {u : WUnit} (fs : FlashState) (h : (peaOf m p).active = some u)
    (run : 2 ≤ (alGet r m.ecc.lpRun).getD 0) (still : (findPage m u.ten (view / pageSize)).any (·.mig.isSome) = false) :
    (lpRetry (.pea p) r loc view false fs m).lat.dones = m.lat.dones ++ [unitDone u .poisoned 2] := by
  have again : ¬(alGet r m.ecc.lpRun).getD 0 < 2 := by omega
  have ten : ∀ f, readerTen (modEcc f m) (.pea p) = u.ten := by
    intro f
    simp [readerTen, peaTen, h]
  have ended : ∀ f e, (endUnit p .poisoned 2 (latchErr e (modEcc f m))).lat.dones = m.lat.dones ++ [unitDone u .poisoned 2] := by
    intro f e
    have active : (peaOf (latchErr e (modEcc f m)) p).active = some u := by simpa using h
    simp [endUnit_dones active]
  simp only [lpRetry, Bool.false_or, decide_eq_true_eq, again, if_false, ten, givePoison]
  rw [abandonSource_still _ (by rwa [findPage_congr (m := m) (by simp)]), ended]

/-! ### The counterexample -/

/-- A unit cut while generation 1 of a compression table was current (R224). -/
def packedUnit : WUnit := { ctx := 1, ten := 0, seq := 0, unit := 0, descs := [], gen := 1 }

/-- A module whose pea 0 runs that unit and waits for a read that has failed three times. -/
def packedState : State :=
  { pending := [], nv := {}
    m := { life := { run := .up }, peas := [{ active := some packedUnit }], ecc := { lpRun := [(0, 2)] } } }

/-- Refutes O29: the fourth failure of a read latches the unit's completion with the unit's generation, where the statement
has generation 0. -/
theorem not_scrubbingAndRetries : ¬ Obligations.ScrubbingAndRetries := by
  rintro ⟨-, -, -, -, -, -, -, -, fourth, -⟩
  have up : isUp packedState.m = true := rfl
  have active : (peaOf packedState.m 0).active = some packedUnit := rfl
  have run : 2 ≤ (alGet 0 packedState.m.ecc.lpRun).getD 0 := by decide
  obtain ⟨t, next, -, -, dones⟩ := fourth packedState 0 0 0 0 packedUnit up (by decide) active run rfl
  have moved : exec (.lpLinkRetry { who := .pea 0, num := 0, place := { loc := 0, view := 0 } } false) packedState =
      .next (withM packedState (lpRetry (.pea 0) 0 0 0 false packedState.nv.flash.state packedState.m)) := onFab_ofUp up _
  obtain rfl : withM packedState _ = t := Host.Outcome.next.inj (moved.symm.trans next)
  have latched := lpRetry_fourth_dones (loc := 0) packedState.nv.flash.state active run (view := 0) rfl
  exact absurd (latched.symm.trans dones) (by decide)

end Sys2Proof.Machine

/-! ## One step, and the general opcodes

The block takes the command at the front of its queue; and what each general opcode answers once it is acted on. -/

namespace Sys2Proof.Machine

/-- Settles O49: the step reads the front of the queue and nothing else decides. -/
theorem stepRunsTheFrontCommand : Obligations.StepRunsTheFrontCommand := by
  refine ⟨fun s c rest h => ?_, fun s h => ?_⟩ <;> simp only [step, h]

/-! ### Counter blocks (R142) -/

@[simp] theorem padTo_length (n : Nat) (bs : List Byte) : (padTo n bs).length = n := by
  simp [padTo, zeros]

/-- Table 5.13: the block of a layer is 32 bytes, with a recipe or without. -/
@[simp] theorem layerBlock_length (x : Ctx) (n : Nat) : (layerBlock x n).length = 32 := by
  unfold layerBlock
  split <;> simp [zeros]

theorem layerBlocks_length (x : Ctx) (first n : Nat) :
    ((List.range n).flatMap fun i => layerBlock x (first + i)).length = 32 * n := by
  simp [List.length_flatMap, Nat.mul_comm]

/-! ### The window that a recipe closes (R110, R114) -/

/-- R463: an event may trigger a recording, and leaves alone what replies are written by. -/
theorem sameDesk_emit (c typ ctx : Nat) (body : List Byte) (m : Mach) : SameDesk m (emit c typ ctx body m) := by
  simp only [emit, trigger]
  split
  · split <;> exact ⟨rfl, rfl, rfl, rfl, rfl, rfl⟩
  · exact ⟨rfl, rfl, rfl, rfl, rfl, rfl⟩

theorem sameDesk_modCtx (c : Nat) (f : Ctx → Ctx) (m : Mach) : SameDesk m (modCtx c f m) := ⟨rfl, rfl, rfl, rfl, rfl, rfl⟩

theorem sameDesk_onlyIf (b : Bool) (f : Mach → Mach) (m : Mach) (h : SameDesk m (f m)) : SameDesk m (onlyIf b f m) := by
  cases b
  · exact .refl m
  · exact h

/-- R113, R114: a window that closes resets its account and may be reported. -/
theorem sameDesk_closeWindow (c n : Nat) (m : Mach) : SameDesk m (closeWindow c n m) :=
  (sameDesk_modCtx ..).trans (sameDesk_onlyIf _ _ _ (sameDesk_emit ..))

/-! ### The statement -/

/-- Settles O1: each packet's effect is its table's change, its block and its own reply. -/
theorem generalOpcodesAnswer : Obligations.GeneralOpcodesAnswer := by
  refine ⟨?nop, ?identify, ?ofCtx, ?ofLayers, ?guard, ?recipeSet, ?recipe, ?noRecipe⟩
  case nop =>
    intro s h act
    exact answers _ s act id .ok 0 (.refl _) rfl
  case identify =>
    intro s h out act
    exact answers_block _ s act id .ok 128 out _ (.refl _) rfl
  case ofCtx =>
    intro s h target out act
    refine answers_block _ s act id .ok 64 out _ (.refl _) ?_
    have size : (ctxBlock s.m target).length = 64 := padTo_length ..
    rw [← size]
    rfl
  case ofLayers =>
    intro s h target first layers out act
    refine answers_block _ s act id .ok _ out _ (.refl _) ?_
    rw [← layerBlocks_length (ctxOf s.m target) first layers]
    rfl
  case guard =>
    intro s h g act
    exact answers _ s act _ .ok 0 (sameDesk_modCtx ..) rfl
  case recipeSet =>
    intro s h layer expert r act
    exact answers _ s act _ .ok 0 ((sameDesk_closeWindow ..).trans (sameDesk_modCtx ..)) rfl
  case recipe =>
    intro s h layer out r act found
    refine answers_block _ s act id .ok 1 out _ (.refl _) ?_
    simp only [pktRecipeGet, packet, ctxOf_taken, found]
    rfl
  case noRecipe =>
    intro s h layer out act none
    refine answers_block _ s act id .ok 0 out _ (.refl _) ?_
    simp only [pktRecipeGet, packet, ctxOf_taken, none]
    rfl

end Sys2Proof.Machine

/-! ## Queues and GO

Turnip's writes to the pending half of a pea's queue, and what GO gives each pea. -/

namespace Sys2Proof.Machine

/-! ### Writes to a queue (R65) -/

theorem queueWrite_entry {p : Nat} {m : Mach} (open_ : (peaOf m p).ready = false) (i : Nat) (d : Desc) :
    queueWrite p (.entry i d) m = modPea p (fun a => { a with pend := alSet i d a.pend }) m := by
  simp [queueWrite, open_]

theorem queueWrite_ready {p : Nat} {m : Mach} (open_ : (peaOf m p).ready = false)
    (last : ((peaOf m p).pend.any fun x => x.2.last) = true) :
    queueWrite p .ready m = modPea p (fun a => { a with ready := true, pendUnit := some (unitOf m a.pend) }) m := by
  simp [queueWrite, open_, last]

/-- R65: a marked half admits nothing but its withdrawal. -/
theorem queueWrite_rejected {p : Nat} {m : Mach} {w : QueueWrite} (marked : (peaOf m p).ready = true) (keeps : w ≠ .withdraw) :
    queueWrite p w m = modMem (fun x => { x with pendReject := bump 16 1 x.pendReject }) m := by
  cases w with
  | withdraw => exact absurd rfl keeps
  | entry i d => simp [queueWrite, marked]
  | ready => simp [queueWrite, marked]

/-! ### GO (R66) -/

/-- R66: a marked unit cut in an earlier tick goes to its idle pea, on a pod that runs. -/
theorem goPea_starts {m : Mach} {p : Nat} {a : Pea} (marked : a.ready = true)
    (sync : ∀ u, a.pendUnit = some u → groupCtx m u.ctx = true → m.tick.lost = false)
    (cut : ∀ u, a.pendUnit = some u → u.cut < m.tick.count) (idle : a.active = none)
    (gated : p / 4 ∉ m.pwr.gated) (ungating : p / 4 ∉ m.pwr.ungating) :
    goPea m p a = { a with active := a.pendUnit, pend := [], pendUnit := none, ready := false, st := .staged, ix := 0
                           startTick := m.tick.count } := by
  have cutBefore : cutBefore m a = true := by simpa [cutBefore, Option.all_eq_true] using cut
  have inSync : (m.tick.lost && a.pendUnit.any fun u => groupCtx m u.ctx) = false := by
    cases unit : a.pendUnit with
    | none => simp
    | some u => grind
  simp [goPea, marked, cutBefore, inSync, idle, gated, ungating]

/-- R48, R66: a queue that is not marked, whose pea is at work or its pod gated, or whose unit was cut in this tick, stays. -/
theorem goPea_waits {m : Mach} {p : Nat} {a : Pea}
    (h : a.ready = false ∨ a.active.isSome = true ∨ p / 4 ∈ m.pwr.gated ∨ p / 4 ∈ m.pwr.ungating ∨
      ∃ u, a.pendUnit = some u ∧ m.tick.count ≤ u.cut) : goPea m p a = a := by
  refine if_neg fun starts => ?_
  simp only [Bool.and_eq_true, Bool.not_eq_true', List.contains_eq_mem, decide_eq_false_iff_not] at starts
  obtain ⟨⟨⟨⟨⟨marked, cut⟩, -⟩, idle⟩, gated⟩, ungating⟩ := starts
  rcases h with h | h | h | h | ⟨u, unit, late⟩
  · simp [h] at marked
  · simp [Option.isNone_iff_eq_none.1 idle] at h
  · exact gated h
  · exact ungating h
  · simp [cutBefore, unit] at cut
    omega

theorem goAll_fires {m : Mach} (up : isUp m = true) (runs : turnipRuns m = true) (first : m.tick.goDone = false)
    (mode : m.life.mode ≠ .fault) :
    goAll m = { m with peas := m.peas.mapIdx (goPea m), tick := { m.tick with goDone := true } } := by
  simp [goAll, up, runs, first, mode]

/-- R21, R66: a second GO of a tick starts nothing, nor does one in FAULT. -/
theorem goAll_spent {m : Mach} (h : m.tick.goDone = true ∨ m.life.mode = .fault) : goAll m = m := by
  rcases h with h | h <;> simp [goAll, h]

/-! ### The statement -/

/-- Settles O16: each write by the mark of the half it meets, and GO pea by pea. -/
theorem queuesAndGo : Obligations.QueuesAndGo := by
  refine ⟨?entry, ?ready, ?withdraw, ?rejected, ?go, ?spent⟩
  case entry =>
    intro s p i d up open_
    exact (onUp_ofUp up _).trans (by rw [queueWrite_entry open_])
  case ready =>
    intro s p up open_ last
    exact (onUp_ofUp up _).trans (by rw [queueWrite_ready open_ last])
  case withdraw =>
    intro s p up
    exact onUp_ofUp up _
  case rejected =>
    intro s p w up marked keeps
    exact (onUp_ofUp up _).trans (by rw [queueWrite_rejected marked keeps])
  case go =>
    intro s up runs first mode
    refine ⟨s.m.peas.mapIdx (goPea s.m), (onUp_ofUp up _).trans (by rw [goAll_fires up runs first mode]), List.length_mapIdx, ?_, ?_⟩
    · intro p a pea marked sync cut idle gated ungating
      rw [List.getElem?_mapIdx, pea, Option.map_some, goPea_starts marked sync cut idle gated ungating]
    · intro p a pea waits
      rw [List.getElem?_mapIdx, pea, Option.map_some, goPea_waits waits]
  case spent =>
    intro s up spent
    exact (onUp_ofUp up _).trans (by rw [goAll_spent spent])

end Sys2Proof.Machine

/-! ## A step's own happenings

A step opens or fails, a slot drains, and units are cut: each once what holds it back is gone. -/

namespace Sys2Proof.Machine

/-- A row of the running module acts at the boundary last fired, and what is due is written. -/
theorem atBoundary_ofUp {s : State} (up : isUp s.m = true) (f : FlashState → Mach → Mach) :
    atBoundary f s = .next (withM s (endWrites (f s.nv.flash.state s.m))) := onFab_ofUp up _

/-! ### Opening (R270) -/

/-- A step of context `c` that may open: found, not yet opened, held back by none before it and with units still to cut. -/
structure Opens (m : Mach) (c q : Nat) (x : Step) : Prop where
  found : findStep m c q = some x
  fresh : x.opened = none
  free : blocked m x = false
  whole : x.cutDone = false

/-- The step as it opens: the boundary, its entries, its riders and the pool that its streams are in. -/
def openedAs (m : Mach) (c : Nat) (x : Step) (ents : List StepEnt) : Step :=
  { x with opened := some m.tick.count, ents, riders := chooseRiders m x ents
           pool := (kvView m c).map fun v => (v.t, v.tb.pool) }

/-- R270, R282, R283: a step that may read its plan opens, asks for its parts and writes its area. -/
theorem openStep_opens {m : Mach} {c q : Nat} {x : Step} (h : Opens m c q x) (table : (kvView m c).isSome = true)
    (plan : (pagesOf x.blk.plan (64 * x.blk.phases)).all (pageUsable m (ctxOf m c).ten) = true) :
    openStep c q m =
      let r := openEntries x x.blk.entries m
      let m := modStp (fun z => { z with choices := z.choices + 1 }) r.2
      writeArea c q (askParts (openedAs m c x r.1) (modStep c q (fun _ => openedAs m c x r.1) m)) := by
  have table : (kvView m c).isNone = false := by simpa using table
  simp only [openStep, h.found]
  rw [if_neg (by simp [h.fresh, h.free, h.whole]), if_neg (by simp [table, plan])]
  rfl

/-- R270: one whose context has no KV table fails with DENIED. -/
theorem openStep_denied {m : Mach} {c q : Nat} {x : Step} (h : Opens m c q x) (table : kvView m c = none) :
    openStep c q m = failStep x .denied (node16 m) m := by
  simp [openStep, h.found, h.fresh, h.free, h.whole, table]

/-! ### Draining (R266) -/

/-- A batch slot bears its number. -/
@[simp] theorem slotOf_slot (m : Mach) (c n : Nat) : (slotOf m c n).slot = n := by
  unfold slotOf
  cases found : (ctxOf m c).slots.find? (·.slot == n) with
  | none => rfl
  | some b => simpa using List.find?_some found

/-- A slot of a context that exists, changed without its number, is found as it was changed. -/
theorem slotOf_modSlot {c n : Nat} {f : BatchSlot → BatchSlot} {m : Mach} (c_lt : c < m.ctxs.length)
    (number : ∀ b, (f b).slot = b.slot) : slotOf (modSlot c n f m) c n = f (slotOf m c n) := by
  have same : (f (slotOf m c n)).slot = n := by rw [number, slotOf_slot]
  have slots : (ctxOf (modSlot c n f m) c).slots = f (slotOf m c n) :: (ctxOf m c).slots.filter (·.slot != n) := by
    rw [modSlot, ctxOf_modCtx, if_pos ⟨rfl, c_lt⟩]
  rw [slotOf, slots]
  simp [same]

/-- R266: a slot at its drain's end: its drain is over, and a releasing slot is free. -/
def drainedSlot (b : BatchSlot) : BatchSlot :=
  { b with draining := false, drains := [], keep := false, allocated := b.allocated && !b.releasing, releasing := false }

/-- R266: a slot that no step holds and whose stream is kept drains, and each command that waits for it is answered. -/
theorem slotDrain_kept {m : Mach} {c n : Nat} (draining : (slotOf m c n).draining = true) (held : slotHeld m c n = false)
    (keep : (slotOf m c n).keep = true) (c_lt : c < m.ctxs.length) :
    slotDrain c n m = forEach (slotOf m c n).drains (fun q => finaliseReq c (q % 2 == 1) (q / 2) .ok (n + 2 ^ 16 * (slotOf m c n).gen))
      (modSlot c n drainedSlot m) := by
  have detail : slotDetail (slotOf (modSlot c n drainedSlot m) c n) = n + 2 ^ 16 * (slotOf m c n).gen := by
    rw [slotOf_modSlot (f := drainedSlot) c_lt fun _ => rfl, slotDetail]
    simp [drainedSlot]
  simp only [slotDrain, draining, held, keep, Bool.not_true, Bool.or_self, Bool.false_eq_true, if_false, if_true]
  rw [← detail]
  rfl

/-! ### Cutting (R48, R273) -/

/-- A step of context `c` of which units may be cut: its area is written, it is neither cut whole nor failed, and the module
is out of FAULT with no unit of the context put off before it. -/
structure Cuts (m : Mach) (c q : Nat) (x : Step) : Prop where
  runs : turnipRuns m = true
  found : findStep m c q = some x
  area : x.areaDone = true
  whole : x.cutDone = false
  sound : x.fail = none
  mode : m.life.mode ≠ .fault
  order : behindDeferred m c q = false

/-- R273: the step brought up to date, with the pods of its tenancy assigned. -/
def cutStart (m : Mach) (c : Nat) (x : Step) : Mach × Step := catchUp (assignPods (ctxOf m c).ten m) x

/-- R273: the machine in which the step's phase record is read. -/
def cutMach (c q : Nat) (r : Mach × Step) : Mach :=
  let m := modStep c q (fun _ => r.2) r.1
  noteDev (ctxOf m c).ten (r.2.blk.plan + 64 * r.2.main.phase) 64 m

/-- R273: what the phase record of a step with phases left comes to. -/
theorem unitCut_phase {m : Mach} {c q : Nat} {x : Step} (h : Cuts m c q x) (fs : FlashState) {r : Mach × Step} {n : Mach} {ph : Phase}
    (start : r = cutStart m c x) (reads : n = cutMach c q r) (left : r.2.main.phase < r.2.blk.phases)
    (phase : planPhase n r.2 r.2.main.phase = .ok ph) :
    unitCut c q fs m =
      if ph.bad then failCut r.2 .invalid (2 ^ 8 * r.2.main.phase) n
      else match expertOf n c ph with
        | some l =>
          match planFault n r.2 l with
          | some p => failCut r.2 .invalid (2 ^ 8 * p) n
          | none => cutExpert fs r.2 l n
        | none =>
          if r.2.main.placed < ph.peas && (r.2.main.placed != 0 || unitsGone n c q r.2.main.phase) then
            cutUnitsOf fs 0 r.2.blk.phases true r.2 ph n
          else n := by
  have mode : (m.life.mode == .fault) = false := by simpa using h.mode
  simp only [unitCut, h.runs, h.found, h.area, h.whole, h.sound, mode, h.order, Bool.not_true, Bool.or_self, Bool.false_and,
    Option.isSome_none, Bool.false_eq_true, if_false]
  rw [← cutStart, ← start, if_neg (by omega)]
  have reads : noteDev (ctxOf (modStep c q (fun _ => r.2) r.1) c).ten (r.2.blk.plan + 64 * r.2.main.phase) 64
      (modStep c q (fun _ => r.2) r.1) = n := reads.symm
  rewrite [reads, phase]
  rfl

/-- R272, R273: nothing of a step is cut before its area is written. -/
theorem unitCut_areaPending {m : Mach} {c q : Nat} {x : Step} (found : findStep m c q = some x) (area : x.areaDone = false)
    (expLeft : x.expLeft = []) (fs : FlashState) : unitCut c q fs m = m := by
  simp [unitCut, found, area, expLeft]

/-! ### The statement -/

/-- Settles O36: each row runs while the module is up, and the step, slot or phase that it meets then decides. -/
theorem stepHappenings : Obligations.StepHappenings := by
  refine ⟨?opens, ?denied, ?drains, ?expert, ?units, ?pending⟩
  case opens =>
    rintro s c q x r up found fresh free whole table plan rfl m rfl y rfl
    refine (atBoundary_ofUp up fun _ => openStep c q).trans ?_
    rw [openStep_opens ⟨found, fresh, free, whole⟩ table plan]
    rfl
  case denied =>
    intro s c q x up found fresh free whole table
    exact (atBoundary_ofUp up fun _ => openStep c q).trans (by rw [openStep_denied ⟨found, fresh, free, whole⟩ table])
  case drains =>
    rintro s c n b up rfl draining held keep c_lt
    exact (atBoundary_ofUp up fun _ => slotDrain c n).trans (by rw [slotDrain_kept draining held keep c_lt]; rfl)
  case expert =>
    intro s c q x ph l up runs found area whole sound mode order r m1 m start left at1 reads phase good layout fault
    subst at1
    refine (onFab_ofUp up _).trans ?_
    rw [unitCut_phase ⟨runs, found, area, whole, sound, mode, order⟩ _ start reads left phase]
    simp only [good, Bool.false_eq_true, if_false, layout, fault]
  case units =>
    intro s c q x ph up runs found area whole sound mode order r m1 m start left at1 reads phase
    subst at1
    have cut := unitCut_phase ⟨runs, found, area, whole, sound, mode, order⟩ s.nv.flash.state start reads left phase
    refine ⟨fun bad => (onFab_ofUp up _).trans ?_, fun good layout room gone => (onFab_ofUp up _).trans ?_⟩
    · rw [cut, if_pos bad]
    · rw [cut]
      simp [good, layout, room, gone]
  case pending =>
    intro s c q x up found area expLeft
    exact (onFab_ofUp up _).trans (by rw [unitCut_areaPending found area expLeft])

end Sys2Proof.Machine

/-! ## The host port

Training, function level resets and reads of host memory, as the host's link brings them. -/

namespace Sys2Proof.Machine

/-! ### Commands of the port (R22, R432) -/

theorem hostLinkUp_iff (m : Mach) : hostLinkUp m = true ↔ m.life.run = .up := by
  simp [hostLinkUp]

/-- A command of the host port while the port answers. -/
theorem onLink_ofUp {s : State} (up : hostLinkUp s.m = true) (f : Mach → Mach) :
    onM (fun m => if hostLinkUp m then f m else m) s = .next (withM s (f s.m)) := by
  simp [onM, up]

/-- And one that leaves the machine as it is. -/
theorem onLink_same {s : State} {f : Mach → Mach} (h : f s.m = s.m) :
    onM (fun m => if hostLinkUp m then f m else m) s = .next s := by
  simp [onM, h]

/-! ### Functions reset (R430) -/

/-- What resetting functions leaves alone, beside the rings and the latched writes. -/
structure SameBehindPort (a b : Mach) : Prop where
  flr : b.host.flr = a.host.flr
  vfEnable : b.host.vfEnable = a.host.vfEnable
  ctxs : b.ctxs = a.ctxs
  ten : b.ten = a.ten

theorem resetFns_behindPort (l : List Nat) (m : Mach) : SameBehindPort m (forEach l resetFn m) :=
  forEach_ind (SameBehindPort m) l resetFn (fun _ _ h => ⟨h.flr, h.vfEnable, h.ctxs, h.ten⟩) m ⟨rfl, rfl, rfl, rfl⟩

/-- R430: a function reset reads its reset registers. -/
theorem resetFn_fns (c : Nat) (m : Mach) : (resetFn c m).fns = m.fns.set c { flrLatched := true } :=
  (List.set_eq_modify ..).symm

/-- R430: so do the functions of a list, and every other one stays. -/
theorem resetFns_getElem? (l : List Nat) (m : Mach) (i : Nat) :
    (forEach l resetFn m).fns[i]? = if i ∈ l then m.fns[i]?.map fun _ => { flrLatched := true } else m.fns[i]? := by
  induction l generalizing m with
  | nil => simp
  | cons c l ih =>
    have next : forEach (c :: l) resetFn m = forEach l resetFn (resetFn c m) := rfl
    have one : (resetFn c m).fns[i]? = if c = i then m.fns[i]?.map fun _ => { flrLatched := true } else m.fns[i]? :=
      modAt_getElem? ..
    rw [next, ih, one]
    by_cases later : i ∈ l <;> rcases eq_or_ne c i with rfl | other
    · simp [later, Function.comp_def]
    · simp [later, other]
    · simp [later]
    · simp [later, other, other.symm]

/-- R430: every function of 256 reset. -/
theorem resetFns_all {m : Mach} (all : m.fns.length = 256) :
    (forEach (List.range 256) resetFn m).fns = List.replicate 256 { flrLatched := true } := by
  refine List.ext_getElem? fun i => ?_
  rw [resetFns_getElem?, List.getElem?_replicate]
  by_cases i_lt : i < 256
  · simp [i_lt, List.getElem?_eq_getElem (all ▸ i_lt)]
  · simp [i_lt, List.getElem?_eq_none (all ▸ Nat.le_of_not_lt i_lt)]

/-- R423: every virtual function of 256 reset. -/
theorem resetFns_virtual {m : Mach} (all : m.fns.length = 256) :
    (forEach ((List.range 256).filter (0 < ·)) resetFn m).fns = fnOf m 0 :: List.replicate 255 { flrLatched := true } := by
  refine List.ext_getElem? fun i => ?_
  simp only [resetFns_getElem?, List.mem_filter, List.mem_range, decide_eq_true_iff]
  cases i with
  | zero =>
    rw [if_neg (by omega), List.getElem?_cons_zero, fnOf, List.getElem?_eq_getElem (by omega), Option.getD_some]
  | succ i =>
    rw [List.getElem?_cons_succ, List.getElem?_replicate]
    by_cases i_lt : i < 255
    · simp [i_lt, List.getElem?_eq_getElem (show i + 1 < m.fns.length by omega)]
    · simp [i_lt, List.getElem?_eq_none (show m.fns.length ≤ i + 1 by omega)]

/-- R423, R430: VF Enable cleared resets every virtual function and leaves the contexts and the count of FLRs alone. -/
theorem clearVfEnable_spec {m : Mach} (up : hostLinkUp m = true) (all : m.fns.length = 256) :
    (clearVfEnable m).fns = fnOf m 0 :: List.replicate 255 { flrLatched := true } ∧
      SameBehindPort (modHost (fun h => { h with vfEnable := false }) m) (clearVfEnable m) := by
  simp only [clearVfEnable, up, if_true]
  exact ⟨resetFns_virtual all, resetFns_behindPort ..⟩

/-- R430: so does an FLR of the physical function, of which every function is reset; it is counted once. -/
theorem flr_physical {m : Mach} (reach : reachable m 0 = true) (all : m.fns.length = 256) :
    (flr 0 m).fns = List.replicate 256 { flrLatched := true } ∧
      SameBehindPort (modHost (fun h => { h with flr := bump 16 1 h.flr }) m) (flr 0 m) := by
  simp only [flr, reach, Bool.not_true, Bool.false_eq_true, if_false, if_true]
  exact ⟨resetFns_all all, resetFns_behindPort ..⟩

/-- R430: an FLR of a virtual function resets it alone. -/
theorem flr_virtual {m : Mach} {c : Nat} (reach : reachable m c = true) (pos : 0 < c) :
    flr c m = resetFn c (modHost (fun h => { h with flr := bump 16 1 h.flr }) m) := by
  simp [flr, reach, Nat.pos_iff_ne_zero.1 pos, forEach]

/-! ### Training (R431) -/

/-- R431: what training sets of the port. -/
def trainedPort (x y : Nat) (a b v : Bool) (n : Nat) : Mach → Mach :=
  modHost fun h => { h with speed := x, width := y, flit256 := a, cacheEn := b, vfEnable := v, numVfs := n }

theorem trainLink_keeps {m : Mach} (up : hostLinkUp m = true) (x y : Nat) (a b v : Bool) (n : Nat)
    (stays : m.host.vfEnable = false ∨ v = true) : trainLink x y a b v n m = trainedPort x y a b v n m := by
  have stays : (m.host.vfEnable && !v) = false := by rcases stays with h | h <;> simp [h]
  simp [trainLink, up, stays, onlyIf, trainedPort]

theorem trainLink_clears {m : Mach} (up : hostLinkUp m = true) (x y : Nat) (a b : Bool) (n : Nat) (on : m.host.vfEnable = true) :
    trainLink x y a b false n m = trainedPort x y a b false n (clearVfEnable m) := by
  simp [trainLink, up, on, onlyIf, trainedPort]

/-! ### Reads of host memory (R429) -/

/-- R429: a read that is outstanding ends and is delivered; one that failed is counted. -/
theorem endRead_asked {m : Mach} {id addr : Nat} {x : ReadFor} (idle : m.cap.state = 0)
    (asked : m.host.reads.find? (·.1 == id) = some (id, addr, x)) (data : Option (List Byte)) :
    endRead id data m = deliverRead x data (modHost (fun h =>
      { h with reads := h.reads.filter (·.1 != id), readUs := alDel id h.readUs
               readFail := if data.isNone then bump 16 1 h.readFail else h.readFail }) m) := by
  have idle (f : HostSt → HostSt) : (modHost f m).cap.state = 0 := idle
  simp only [endRead, asked, capture_idle (idle _)]

/-- R429: a read that no one waits for ends nothing. -/
theorem endRead_unasked {m : Mach} {id : Nat} (h : m.host.reads.find? (·.1 == id) = none) (data : Option (List Byte)) :
    endRead id data m = m := by
  simp only [endRead, h]

theorem timeoutRead_due {m : Mach} {id t : Nat} (sent : alGet id m.host.readUs = some t) (late : due m t 50000 = true) :
    timeoutRead id m = endRead id none m := by
  simp only [timeoutRead, sent, late, if_true]

theorem timeoutRead_early {m : Mach} {id t : Nat} (sent : alGet id m.host.readUs = some t) (early : due m t 50000 = false) :
    timeoutRead id m = m := by
  simp only [timeoutRead, sent, early, Bool.false_eq_true, if_false]

theorem timeoutRead_unasked {m : Mach} {id : Nat} (h : m.host.reads.find? (·.1 == id) = none) : timeoutRead id m = m := by
  simp only [timeoutRead, endRead_unasked h, ite_self]
  split <;> rfl

/-! ### The statement -/

/-- Settles O48: each row acts while its function can be reached or the port answers, and then meets its rule. -/
theorem hostPortHappenings : Obligations.HostPortHappenings := by
  refine ⟨?count, ?train, ?trainClears, ?flr, ?flrAll, ?vfClear, ?atomic, ?snoop, ?complete, ?timeout, ?early, ?unasked⟩
  case count =>
    intro s up live port
    refine ⟨_, onLink_ofUp ((hostLinkUp_iff _).2 up) (readCountLo s.nv), rfl, ?_⟩
    rw [readCountLo, send_out _ _ port live]
    exact ⟨rfl, rfl, rfl, rfl⟩
  case train =>
    intro s x y a b v n up stays
    have up := (hostLinkUp_iff _).2 up
    exact congrArg (Host.Outcome.next <| withM s ·) (trainLink_keeps up x y a b v n stays)
  case trainClears =>
    intro s x y a b n up all on
    have up := (hostLinkUp_iff _).2 up
    obtain ⟨fns, same⟩ := clearVfEnable_spec up all
    refine ⟨withM s (trainLink x y a b false n s.m), rfl, ?_⟩
    rw [trainLink_clears up x y a b n on]
    exact ⟨rfl, rfl, rfl, rfl, fns, same.flr⟩
  case flr =>
    intro s c reach pos c_lt
    refine ⟨withM s (flr c s.m), rfl, ?_⟩
    rw [flr_virtual reach pos]
    exact ⟨resetFn_fns .., rfl, rfl, rfl, rfl, rfl, rfl, rfl, rfl⟩
  case flrAll =>
    intro s reach all
    obtain ⟨fns, same⟩ := flr_physical reach all
    exact ⟨withM s (flr 0 s.m), rfl, fns, same.flr, same.ctxs, same.ten⟩
  case vfClear =>
    intro s up all
    obtain ⟨fns, same⟩ := clearVfEnable_spec ((hostLinkUp_iff _).2 up) all
    exact ⟨withM s (clearVfEnable s.m), rfl, same.vfEnable, fns, same.flr, same.ctxs⟩
  case atomic =>
    intro s c reach
    exact congrArg (Host.Outcome.next <| withM s ·) (if_pos reach)
  case snoop =>
    intro s l up
    exact onLink_ofUp ((hostLinkUp_iff _).2 up) (send (.snoopMiss l))
  case complete =>
    intro s id addr x data up idle asked
    have up := (hostLinkUp_iff _).2 up
    exact ⟨(onLink_ofUp up (endRead id (some data))).trans (by rw [endRead_asked idle asked]; rfl),
      (onLink_ofUp up (endRead id none)).trans (by rw [endRead_asked idle asked]; rfl)⟩
  case timeout =>
    intro s id t sent late
    show Host.Outcome.next (withM s (if hostLinkUp s.m then timeoutRead id s.m else s.m)) = _
    rw [timeoutRead_due sent late]
    rfl
  case early =>
    intro s id t sent early
    exact onLink_same (timeoutRead_early sent early)
  case unasked =>
    intro s id data unasked
    exact ⟨onLink_same (endRead_unasked unasked data), onLink_same (timeoutRead_unasked unasked)⟩

end Sys2Proof.Machine

/-! ## Boundaries

A boundary fires, acts on what was latched, or passes with nothing to act on; in replay mode it waits for its record. -/

namespace Sys2Proof.Machine

/-! ### The tick that opens (R37, R48) -/

@[simp] theorem markSlow_tick (m : Mach) : (markSlow m).tick = m.tick := by
  simp only [markSlow]
  split <;> rfl

@[simp] theorem walkIndex_tick (m : Mach) : (walkIndex m).tick = m.tick := by
  simp only [walkIndex]
  split
  · exact markSlow_tick m
  · exact markSlow_tick m

@[simp] theorem walkStart_tick (m : Mach) : (walkStart m).tick = m.tick := by
  simp only [walkStart]
  split
  · exact walkIndex_tick m
  · exact markSlow_tick m

/-- R405: entering a group step is the clock's, and changes nothing of the tick. -/
@[simp] theorem enterStep_tick (step node : Nat) (m : Mach) : (enterStep step node m).tick = m.tick := by
  unfold enterStep
  extract_lets old m1 m2
  have same : m2.tick = m.tick := by
    simp only [m2]
    split <;> rfl
  split
  · exact same
  · split
    · exact same
    · split
      · exact (walkStart_tick m2).trans same
      · exact same

/-- R37, R48: on its own timer the module counts one tick, of the period that comes next. -/
theorem fireTick_own {m : Mach} (alone : follows m = false) (join : m.tick.join = none)
    (granted : m.tick.launched = some (m.tick.count + 1) ∨ m.tick.lost = true) :
    (fireTick m).tick =
      { m.tick with count := m.tick.count + 1, nowUs := m.tick.nowUs + m.tick.inForce, inForce := m.tick.next1
                    next1 := m.tick.next2, tsync := none, missed := false, goDone := false
                    freeRun := m.tick.freeRun && m.tick.lost } := by
  have granted : (m.tick.launched == some (m.tick.count + 1) || m.tick.lost) = true := by simpa using granted
  simp only [fireTick, alone, join, Bool.false_eq_true, if_false, ownBoundary, granted, if_true, modTick_tick, modPwr_tick,
    enterStep_tick, countTick]

/-- R37: a member counts one tick, from its TSYNC or, free-running, without. -/
theorem fireTick_follows {m : Mach} (member : follows m = true) :
    (fireTick m).tick.count = m.tick.count + 1 ∧ (fireTick m).tick.nowUs = m.tick.nowUs + m.tick.inForce ∧
      (fireTick m).tick.freeRun = (m.tick.tsync.isNone || m.tick.missed) := by
  have counted : (missTsync m).tick.count = m.tick.count ∧ (missTsync m).tick.nowUs = m.tick.nowUs ∧
      (missTsync m).tick.inForce = m.tick.inForce ∧ (missTsync m).tick.tsync = m.tick.tsync := by
    simp only [missTsync]
    split <;> exact ⟨rfl, rfl, rfl, rfl⟩
  obtain ⟨count, now, period, sync⟩ := counted
  simp only [fireTick, member, if_true, followBoundary, sync]
  cases tsync : m.tick.tsync with
  | none => simp [countTick, count, now, period]
  | some t =>
    have kept : missTsync m = m := by simp [missTsync, tsync]
    simp [countTick, kept]

/-! ### When a boundary fires (R440, R472, R473) -/

theorem ticks_iff (m : Mach) : ticks m = true ↔ m.life.run = .up ∧ m.tick.started = true := by
  simp [ticks]

theorem tickBoundary_fires {m : Mach} (ticking : ticks m = true) (live : m.life.replay = false) (nv : Nv) :
    tickBoundary nv m = boundary nv m := by
  simp [tickBoundary, ticking, live]

theorem tickBoundary_ignored {m : Mach} (h : m.life.run ≠ .up ∨ m.tick.started = false ∨ m.life.replay = true) (nv : Nv) :
    tickBoundary nv m = (nv, m) := by
  rcases h with h | h | h <;> simp [tickBoundary, ticks, h]

/-- A module in replay mode that has not diverged, its tick running. -/
structure Replays (m : Mach) : Prop where
  ticking : ticks m = true
  replay : m.life.replay = true
  agrees : m.cap.diverge = 0

/-- R473: a replayed boundary fires once its record is read and its completions have happened. -/
theorem replayBoundary_fires {m : Mach} (h : Replays m) (nv : Nv) :
    replayBoundary true false 0 nv m =
      ((boundary nv m).1, { (boundary nv m).2 with cap := { (boundary nv m).2.cap with replayTick := m.tick.count } }) := by
  simp [replayBoundary, h.ticking, h.replay, h.agrees]

/-- R474: a record that differs is kept as the divergence. -/
theorem replayBoundary_diverges {m : Mach} (h : Replays m) {k : Nat} (low : 1 ≤ k) (high : k ≤ 6) (nv : Nv) :
    replayBoundary true false k nv m = (nv, setDiverge k m) := by
  simp [replayBoundary, h.ticking, h.replay, h.agrees, low, high]

/-- R474: so is a record that cannot be read. -/
theorem replayBoundary_badRecord {m : Mach} (h : Replays m) (nv : Nv) :
    replayBoundary true true 0 nv m = (nv, setDiverge 7 m) := by
  simp [replayBoundary, h.ticking, h.replay, h.agrees]

theorem replayBoundary_stopped {m : Mach} (h : m.cap.diverge ≠ 0) (a b : Bool) (k : Nat) (nv : Nv) :
    replayBoundary a b k nv m = (nv, m) := by
  simp [replayBoundary, h]

/-! ### The work of a boundary (R42 to R48) -/

/-- R48: a boundary that nothing of class 1 ends and after which a core still runs does its classes one after another. -/
theorem boundary_works {nv : Nv} {m x y : Mach} (runs : turnipRuns m = true) (one : classOne (fireBoundary nv m) = (x, false))
    (three : classThree nv.flash.state (classTwo x) = y) (still : turnipRuns y = true) {u v z : Nv × Mach}
    (six : classSix (nv, classFive nv.flash.state (classFour nv y)) = u) (seven : classSeven (moduleReady u.1 u.2) = v)
    (closed : announceReady v.1 (closeBoundary m.pwr.ran19 v.1 (clearTray v.2)) = z) :
    boundary nv m = foldFlash (z.1, endWrites z.2) := by
  rw [boundary_run nv m x runs one, work_eq _ nv x y u v z three still six seven closed]

/-- R42, R43: a boundary that finds nothing to act on leaves what no reset clears, and is at rest a tick later. -/
theorem boundary_idle {m : Mach} (idle : Idle m) (cal : m.tick.nowUs + m.tick.inForce < m.pwr.lastCalUs + 1000000) (nv : Nv) :
    ∃ x, boundary nv m = (nv, endWrites x) ∧
      AtRest { m.tick with count := m.tick.count + 1, nowUs := m.tick.nowUs + m.tick.inForce } m x := by
  have start : AtRest m.tick m m := ⟨idle, ⟨rfl, rfl⟩, rfl, rfl, rfl, rfl, rfl, rfl, rfl⟩
  have fired := atRest_fireBoundary start nv
  obtain ⟨m1, m2, six, seven, rest⟩ := seven _ _ _ nv (atRest_classFive (atRest_classFour fired nv) nv.flash.state)
  have closed := atRest_closeBoundary (atRest_clearTray rest) cal m.pwr.ran19 nv
  refine ⟨_, ?_, closed⟩
  have three : classThree nv.flash.state (classTwo (fireBoundary nv m)) = fireBoundary nv m := by
    rw [atRest_classTwo fired, atRest_classThree fired]
  rw [boundary_works idle.runs (atRest_classOne fired) three fired.idle.runs six seven (announce_id closed.idle nv)]
  obtain ⟨-, -, -, -, -, -, -, -, chan⟩ := end_eq (closeBoundary m.pwr.ran19 nv (clearTray m2))
  simp [foldFlash, chan, closed.idle.flash]

/-- A machine at rest a tick later, with what is due written, has passed; the replay's own tick is none of it. -/
theorem AtRest.passed {s : State} {x : Mach} (cap : CapSt)
    (h : AtRest { s.m.tick with count := s.m.tick.count + 1, nowUs := s.m.tick.nowUs + s.m.tick.inForce } s.m x) :
    Passed s { s with m := { endWrites x with cap } } := by
  obtain ⟨tick, peas, ten, dev, devErr, slices, sliceErr, reqs, -⟩ := end_eq x
  generalize endWrites x = y at *
  exact {
    pending := rfl
    nv := rfl
    count := (congrArg (·.count) tick).trans h.tick.1
    time := (congrArg (·.nowUs) tick).trans h.tick.2
    peas := peas.trans h.peas
    ten := ten.trans h.ten
    reqs := reqs.trans h.idle.reqs
    dev := ⟨dev.trans h.dev, devErr.trans h.devErr⟩
    slices := ⟨slices.trans h.slc, sliceErr.trans h.slcErr⟩ }

/-! ### The statement -/

theorem exec_tickBoundary (s : State) :
    exec .tickBoundary s = .next { s with nv := (tickBoundary s.nv s.m).1, m := (tickBoundary s.nv s.m).2 } := rfl

theorem exec_replayBoundary (a b : Bool) (k : Nat) (s : State) :
    exec (.replayBoundary a b k) s =
      .next { s with nv := (replayBoundary a b k s.nv s.m).1, m := (replayBoundary a b k s.nv s.m).2 } := rfl

/-- Settles O35: what TICK_BOUNDARY and REPLAY_BOUNDARY run, and then the work of the boundary. -/
theorem boundariesFire : Obligations.BoundariesFire := by
  refine ⟨?fires, ?ignored, ?own, ?follows, ?replays, ?diverges, ?badRecord, ?stopped, ?works, ?idle, ?idleReplay⟩
  case fires =>
    intro s run started live
    rw [exec_tickBoundary, tickBoundary_fires ((ticks_iff _).2 ⟨run, started⟩) live]
  case ignored =>
    intro s h
    rw [exec_tickBoundary, tickBoundary_ignored h]
  case own =>
    rintro m alone join granted t rfl
    rw [fireTick_own alone join granted]
    exact ⟨rfl, rfl, rfl, rfl, rfl, rfl⟩
  case follows =>
    rintro m member t rfl
    exact fireTick_follows member
  case replays =>
    rintro s run started replay agrees r rfl
    rw [exec_replayBoundary, replayBoundary_fires ⟨(ticks_iff _).2 ⟨run, started⟩, replay, agrees⟩]
  case diverges =>
    intro s k run started replay agrees low high
    rw [exec_replayBoundary, replayBoundary_diverges ⟨(ticks_iff _).2 ⟨run, started⟩, replay, agrees⟩ low high]
    rfl
  case badRecord =>
    intro s run started replay agrees
    rw [exec_replayBoundary, replayBoundary_badRecord ⟨(ticks_iff _).2 ⟨run, started⟩, replay, agrees⟩]
    rfl
  case stopped =>
    intro s a b k replay diverged
    rw [exec_replayBoundary, replayBoundary_stopped diverged]
  case works =>
    rintro s m x fs run started live runs rfl one three still w y z six seven closed r folded
    rw [exec_tickBoundary, tickBoundary_fires ((ticks_iff _).2 ⟨run, started⟩) live,
      boundary_works runs one three.symm still six.symm seven.symm closed.symm, folded]
  case idle =>
    intro s idle cal live
    obtain ⟨x, passes, rest⟩ := boundary_idle idle cal s.nv
    refine ⟨_, ?_, rest.passed (endWrites x).cap⟩
    rw [exec_tickBoundary, tickBoundary_fires ((ticks_iff _).2 ⟨idle.up, idle.started⟩) live, passes]
  case idleReplay =>
    intro s idle cal replay agrees
    obtain ⟨x, passes, rest⟩ := boundary_idle idle cal s.nv
    refine ⟨_, ?_, rest.passed { (endWrites x).cap with replayTick := s.m.tick.count }, rfl⟩
    rw [exec_replayBoundary, replayBoundary_fires ⟨(ticks_iff _).2 ⟨idle.up, idle.started⟩, replay, agrees⟩, passes]

end Sys2Proof.Machine

/-! ## Peas that start

What a running pea's command comes to; the start of a unit, the cold start of an engine and its cooling. -/

namespace Sys2Proof.Machine

/-! ### Commands of a running pea -/

section
variable {s : State} {p : Nat} (up : isUp s.m = true) (run : (peaOf s.m p).st = .run)
include up run

theorem peaRuns_ofRun : peaRuns s.m p = true := by
  simp [peaRuns, run, up]

/-- An instruction of a running program changes the machine as its meaning says. -/
theorem onPea_ofRun (f : Mach → Mach) : onPea p f s = .next (withM s (f s.m)) := by
  simp [onPea, onM, peaRuns_ofRun up run]

end

/-! ### The start of a unit (R84, R154) -/

theorem modPea_eq_set {m : Mach} {p : Nat} {a : Pea} (pea : m.peas[p]? = some a) (f : Pea → Pea) :
    modPea p f m = { m with peas := m.peas.set p (f a) } := by
  simp [modPea, modAt, List.modify_eq_set_getElem?, pea]

/-- R84: a staged pea clears its registers and stands before descriptor 0. -/
theorem staggerStart_staged {m : Mach} {p : Nat} {a : Pea} (pea : m.peas[p]? = some a) (staged : a.st = .staged) :
    staggerStart p m = { m with peas := m.peas.set p { clearPea a with st := .ready, ix := 0 } } := by
  have st : (peaOf m p).st = .staged := by simp [peaOf, pea, staged]
  simp [staggerStart, st, modPea_eq_set pea]

/-! ### The engine (R85, R86, R406) -/

/-- R85, R406: the first MAC of a cold engine takes a stagger slot; the governor starts it or defers and counts it. -/
theorem coldStart_ofCold {m : Mach} {p : Nat} (runs : peaRuns m p = true) (cold : (peaOf m p).cold = true) :
    coldStart p m = if governorAdmits m then
        modPea p (fun a => { a with cold := false }) (modStp (fun x => { x with choices := x.choices + 1 }) m)
      else modPwr (fun x => { x with deferred := bump 16 1 x.deferred })
        (modPea p (fun a => { a with cold := true }) (modStp (fun x => { x with choices := x.choices + 1 }) m)) := by
  cases verdict : governorAdmits m
  · simp [coldStart, cold, runs, verdict]
  · simp [coldStart, cold, runs, verdict]
    rfl

/-- R85, R86: an engine idle outside warm hold is cold, and one in warm hold stays as it is. -/
theorem cools_eq (a : Pea) : (a.cold || !a.warmHold) = if a.warmHold then a.cold else true := by
  cases a.warmHold <;> simp

/-! ### The statement -/

/-- Settles O17: the start by the pea's stage, the cold start by the governor's verdict, and cooling by warm hold. -/
theorem peasStart : Obligations.PeasStart := by
  refine ⟨?start, ?coldStart, ?cools⟩
  case start =>
    intro s p a up pea staged
    refine ⟨_, { clearPea a with st := .ready, ix := 0 }, onUp_ofUp up _, by rw [staggerStart_staged pea staged],
      rfl, rfl, rfl, rfl, rfl, rfl, rfl, rfl, rfl, rfl, rfl⟩
  case coldStart =>
    intro s p up run cold
    refine (onUp_ofUp up _).trans ?_
    rw [coldStart_ofCold (peaRuns_ofRun up run) cold, apply_ite (withM s)]
    simp only [governorAdmits, decide_eq_true_eq]
  case cools =>
    intro s p up
    refine (onUp_ofUp up _).trans ?_
    simp only [cools_eq]

end Sys2Proof.Machine

/-! ## Completions and the generation copied into a unit

A unit that ends latches a completion that carries the compression generation copied into it (R224). -/

namespace Sys2Proof.Machine

/-! ### A unit that completes (R64) -/

/-- R64: a unit past its LAST descriptor has nothing more to settle. -/
theorem settlePea_done {m : Mach} {p : Nat} (done : (peaOf m p).st = .done) : settlePea p m = m := by
  simp [settlePea, runEnds, skipGated, done]

theorem completeUnit_done {m : Mach} {p : Nat} (done : (peaOf m p).st = .done) : completeUnit p m = endUnit p .ok 0 m := by
  simp [completeUnit, settlePea_done done, done]

/-! ### A unit that is denied (R72) -/

/-- R72: the end of a denied unit latches its completion. -/
theorem endDenied_dones {p : Nat} {m : Mach} {u : WUnit} (active : (peaOf m p).active = some u) (x : Nat) :
    (endDenied p x m).lat.dones = m.lat.dones ++ [unitDone u .denied x] :=
  endUnit_dones (m := modCtx _ _ (modMem _ m)) active .denied x

/-- R72: a store outside the tenancy's map is dropped and ends the unit. -/
theorem peaStore_denied {p a x : Nat} {bs : List Byte} {m : Mach} (runs : peaRuns m p = true)
    (denied : slRange m (peaTen m p) true a bs.length = .error x) : peaStore p a bs m = endDenied p x m := by
  simp [peaStore, runs, peaWrite, slWrite, denied]

/-! ### The counterexamples -/

/-- A module whose pea 0 has completed the LAST descriptor of a unit cut while generation 1 was current. -/
def packedDone : State :=
  { pending := [], nv := {}, m := { life := { run := .up }, peas := [{ active := some packedUnit, st := .done }] } }

/-- Refutes O18: the completion of that unit carries generation 1, where the statement has generation 0. -/
theorem not_descriptorsRun : ¬ Obligations.DescriptorsRun := by
  rintro ⟨-, -, -, -, -, completes⟩
  have up : isUp packedDone.m = true := rfl
  have done : (peaOf packedDone.m 0).st = .done := rfl
  have active : (peaOf packedDone.m 0).active = some packedUnit := rfl
  obtain ⟨t, next, -, -, -, -, -, lat⟩ := completes packedDone 0 packedUnit up (by decide) done active
  have moved : exec (.workUnitComplete 0) packedDone = .next (withM packedDone (completeUnit 0 packedDone.m)) := onUp_ofUp up _
  obtain rfl : withM packedDone _ = t := Host.Outcome.next.inj (moved.symm.trans next)
  have latched := endUnit_dones active .ok 0
  rw [← completeUnit_done done] at latched
  exact absurd (latched.symm.trans (congrArg Latched.dones lat)) (by decide)

/-- A module whose pea 0 runs a unit of that generation for a tenancy that holds no slice. -/
def packedRun : State :=
  { pending := [], nv := {}, m := { life := { run := .up }, peas := [{ active := some packedUnit, st := .run }] } }

/-- Refutes O19: the completion of a unit denied a store carries the unit's generation, where the statement has
generation 0. -/
theorem not_sliceAccesses : ¬ Obligations.SliceAccesses := by
  rintro ⟨-, -, store, -⟩
  have up : isUp packedRun.m = true := rfl
  have run : (peaOf packedRun.m 0).st = .run := rfl
  have active : (peaOf packedRun.m 0).active = some packedUnit := rfl
  have denied : slRange packedRun.m packedUnit.ten true 0 [(0 : Byte)].length = .error 0 := rfl
  obtain ⟨t, next, -, -, -, dones⟩ := store packedRun 0 0 [0] 0 packedUnit up (by decide) run active denied
  have moved : exec (.peaStore 0 0 [0]) packedRun = .next (withM packedRun (peaStore 0 0 [0] packedRun.m)) := onUp_ofUp up _
  obtain rfl : withM packedRun _ = t := Host.Outcome.next.inj (moved.symm.trans next)
  have latched := endDenied_dones active 0
  rw [← peaStore_denied (bs := [0]) (peaRuns_ofRun up run) denied] at latched
  exact absurd (latched.symm.trans dones) (by decide)

end Sys2Proof.Machine

/-! ## Align groups

The peas of a round go on together, with or without a failure, and no other pea is touched. -/

namespace Sys2Proof.Machine

/-! ### What a sequence of changes keeps -/

/-- What each change keeps, a sequence of them keeps. -/
theorem forEach_keeps {α β : Type} (π : Mach → β) (l : List α) (f : α → Mach → Mach) (h : ∀ a m, π (f a m) = π m) (m : Mach) :
    π (forEach l f m) = π m :=
  forEach_ind (π · = π m) l f (fun a x kept => (h a x).trans kept) m rfl

/-! ### Release (R86, R87) -/

/-- R86, R87: a pea released from its round. -/
def releasedPea (failed : Bool) (a : Pea) : Pea := { a with st := .run, warmHold := false, cold := false, alignFailed := failed }

@[simp] theorem releasePeas_mem (ps : List Nat) (failed : Bool) (m : Mach) : (releasePeas ps failed m).mem = m.mem :=
  forEach_keeps Mach.mem ps (fun p => modPea p (releasedPea failed)) (fun _ _ => rfl) m

/-- Each pea of the list goes on; every other one stays as it was. -/
theorem peaOf_releasePeas (ps : List Nat) (failed : Bool) (m : Mach) (q : Nat) :
    peaOf (releasePeas ps failed m) q =
      if q ∈ ps ∧ q < m.peas.length then releasedPea failed (peaOf m q) else peaOf m q := by
  induction ps generalizing m with
  | nil => simp [releasePeas]
  | cons p ps ih =>
    have step : releasePeas (p :: ps) failed m = releasePeas ps failed (modPea p (releasedPea failed) m) := rfl
    have again : ∀ a, releasedPea failed (releasedPea failed a) = releasedPea failed a := fun _ => rfl
    rw [step, ih, peaOf_modPea, modPea_peas, modAt_length]
    by_cases here : p = q
    · subst here
      by_cases inside : p < m.peas.length <;> simp [inside, again]
    · simp [here, Ne.symm here]

theorem peaOf_releasePeas_mem {ps : List Nat} {failed : Bool} {m : Mach} {q : Nat} (listed : q ∈ ps) (inside : q < m.peas.length) :
    peaOf (releasePeas ps failed m) q = releasedPea failed (peaOf m q) := by
  rw [peaOf_releasePeas, if_pos ⟨listed, inside⟩]

theorem peaOf_releasePeas_other {ps : List Nat} {failed : Bool} {m : Mach} {q : Nat} (other : q ∉ ps) :
    peaOf (releasePeas ps failed m) q = peaOf m q := by
  rw [peaOf_releasePeas, if_neg fun h => other h.1]

/-! ### A round that fails (R87) -/

section
variable {m : Mach} {t g : Nat} {r : AlignRound} (round : (tenOf m t).aligns.find? (·.group == g) = some r) (also : List Nat)
include round

/-- R87: the peas of a failed round are released with ALIGN_FAIL; charging its contexts touches no pea. -/
theorem peaOf_failRound (q : Nat) :
    peaOf (failRound t g also m) q = peaOf (releasePeas (r.peas ++ also) true m) q := by
  simp only [failRound, round]
  rw [forEach_keeps (peaOf · q) _ _ fun _ _ => peaOf_modCtx .., peaOf_modMem, peaOf_releasePeas, peaOf_releasePeas]
  rfl

theorem failRound_mem : (failRound t g also m).mem = { m.mem with alignFail := bump 16 1 m.mem.alignFail } := by
  simp only [failRound, round]
  rw [forEach_keeps Mach.mem _ _ fun _ _ => modCtx_mem ..]
  simp

end

/-! ### A pea that arrives (R86) -/

section
variable {m : Mach} {p g : Nat}

theorem arrive_opens (none : (tenOf m (peaTen m p)).aligns.find? (·.group == g) = none) (n : Nat) :
    arrive p g n m = modTen (peaTen m p) (fun x => { x with aligns := { group := g, n, peas := [p] } :: x.aligns })
      (modPea p (fun a => { a with st := .aligned, warmHold := true }) m) := by
  simp only [arrive, none]

variable {r : AlignRound} (round : (tenOf m (peaTen m p)).aligns.find? (·.group == g) = some r)
include round

theorem arrive_completes (last : r.peas.length + 1 = r.n) :
    arrive p g r.n m = releasePeas (r.peas ++ [p]) false
      (modTen (peaTen m p) (fun x => { x with aligns := x.aligns.filter (·.group != g) }) m) := by
  simp [arrive, round, last]

theorem arrive_disagrees {n : Nat} (other : n ≠ r.n) : arrive p g n m = failRound (peaTen m p) g [p] m := by
  simp only [arrive, round, if_pos other.symm]

end

/-! ### The statement -/

/-- ALIGN of a running pea. -/
theorem exec_align {s : State} {p : Nat} (up : isUp s.m = true) (run : (peaOf s.m p).st = .run) (g n : Nat) :
    exec (.align p g n) s = .next (withM s (arrive p g n s.m)) :=
  (onUp_ofUp up _).trans (by rw [if_pos (peaRuns_ofRun up run)])

/-- Settles O20: a pea that arrives by the round it finds; the peas of a round by their release. -/
theorem alignGroups : Obligations.AlignGroups := by
  refine ⟨?opens, ?completes, ?disagrees, ?expires⟩
  case opens =>
    intro s p g n up run none
    rw [exec_align up run, arrive_opens none]
  case completes =>
    intro s p g r up run round last
    refine ⟨_, exec_align up run g r.n, ?_, ?_, ?_⟩
    · intro q inside listed
      rw [arrive_completes round last, peaOf_releasePeas_mem (by simpa using listed) (by simpa using inside)]
      exact ⟨rfl, rfl, rfl⟩
    · intro q other self
      rw [arrive_completes round last, peaOf_releasePeas_other (by simp [other, self]), peaOf_modTen]
    · rw [arrive_completes round last, releasePeas_mem, modTen_mem]
  case disagrees =>
    intro s p g n r up run round differs
    refine ⟨_, exec_align up run g n, ?_, ?_, ?_⟩
    · intro q inside listed
      rw [arrive_disagrees round differs, peaOf_failRound round, peaOf_releasePeas_mem (by simpa using listed) inside]
      exact ⟨rfl, rfl⟩
    · intro q other self
      rw [arrive_disagrees round differs, peaOf_failRound round, peaOf_releasePeas_other (by simp [other, self])]
    · rw [arrive_disagrees round differs, failRound_mem round]
  case expires =>
    intro s t g r up round
    refine ⟨_, onUp_ofUp up _, ?_, ?_, ?_, ?_⟩
    · intro q inside listed
      rw [peaOf_failRound round, peaOf_releasePeas_mem (by simpa using listed) inside]
      exact ⟨rfl, rfl⟩
    · intro q other
      rw [peaOf_failRound round, peaOf_releasePeas_other (by simpa using other)]
    · rw [failRound_mem round]
    · rw [failRound_mem round]

end Sys2Proof.Machine

/-! ## Numeric instructions

What LAYER, QUANT, a matrix instruction, TILE and a vector operation leave in the registers of the pea that runs them. -/

namespace Sys2Proof.Machine

/-! ### One pea changed -/

theorem peaOf_modPea_self {m : Mach} {p : Nat} (inside : p < m.peas.length) (f : Pea → Pea) :
    peaOf (modPea p f m) p = f (peaOf m p) := by
  rw [peaOf_modPea, if_pos ⟨rfl, inside⟩]

theorem peaOf_modPea_other {m : Mach} {p q : Nat} (other : q ≠ p) (f : Pea → Pea) : peaOf (modPea p f m) q = peaOf m q := by
  rw [peaOf_modPea, if_neg fun h => other h.1.symm]

/-- R412: a pea that an instruction changes, with the account of its context. -/
theorem peaOf_charge_modPea {m : Mach} {p : Nat} (inside : p < m.peas.length) (f : Pea → Pea) (k : Account → Account) :
    peaOf (charge p k (modPea p f m)) p = f (peaOf m p) :=
  peaOf_modPea_self inside f

/-- Two changes of one pea are one. -/
theorem modPea_modPea (p : Nat) (f g : Pea → Pea) (m : Mach) : modPea p g (modPea p f m) = modPea p (g ∘ f) m := by
  simp [modPea, modAt_modAt]

/-! ### LAYER (R111) -/

/-- R111: a layer of the unit, named among at most eight. -/
theorem selectLayer_known {m : Mach} {p n : Nat} {u : WUnit} (active : (peaOf m p).active = some u)
    (few : (insRising n (peaOf m p).named).length ≤ 8) (known : (alGet n u.layers).isSome = true) :
    selectLayer p n m = modPea p (fun a => { a with layerSel := n, layerSet := true, named := insRising n (peaOf m p).named }) m := by
  have none : (alGet n u.layers).isNone = false := by simpa [Option.isNone_eq_false_iff] using known
  simp [selectLayer, active, Nat.not_lt.2 few, none]

/-! ### QUANT (R100) -/

theorem quantOp_ofRecipe {m : Mach} {p : Nat} {r : Recipe} (recipe : curRecipe (peaOf m p) = some r) (vsrc elem side spill : Nat) :
    quantOp p vsrc elem side spill m =
      let g := quantGroup r (smRead (peaOf m p).vector (64 * vsrc) 256)
      modPea p (fun a => { a with acts := memWrite spill g.spill (memWrite side g.side (memWrite elem g.elems a.acts))
                                  tile := addTrouble g.counts a.tile }) m := by
  simp only [quantOp, recipe, tally, modPea_modPea]
  rfl

/-! ### The matrix instruction (R85, R103) -/

section
variable {m : Mach} {p : Nat} {r : Recipe} {o : MatOp} (recipe : curRecipe (peaOf m p) = some r)
  (formed : matBad r (peaOf m p).acts o = false)
include recipe formed

theorem matrixOp_cold (cold : (peaOf m p).cold = true) : matrixOp p o m = m := by
  simp [matrixOp, recipe, formed, cold]

/-- R103, R112: the outputs go to the accumulators and the counts to the tile. -/
theorem matrixOp_warm (warm : (peaOf m p).cold = false) :
    matrixOp p o m =
      let w := matRun r (peaOf m p).weights (peaOf m p).acts (peaOf m p).acc o
      charge p (countMacs r o) (modPea p (fun a =>
        { a with acc := w.accs.foldl (fun z x => smSet x.1 x.2 z) a.acc, tile := addTrouble w.counts a.tile }) m) := by
  simp only [matrixOp, recipe, formed, warm, tally, modPea_modPea]
  rfl

end

/-! ### TILE (R112) -/

theorem endTile_ofLayer {m : Mach} {p : Nat} {u : WUnit} (active : (peaOf m p).active = some u)
    (layer : (peaOf m p).layerSet = true) :
    endTile p m = addCounts u.ctx (peaOf m p).layerSel (peaOf m p).tile
      (modPea p (fun a => { a with lastTile := a.tile, tile := {} }) m) := by
  simp [endTile, active, layer]

/-! ### The statement -/

/-- Settles O21: each instruction of a running pea by the change it makes of that pea. -/
theorem numericInstructions : Obligations.NumericInstructions := by
  refine ⟨?layer, ?quant, ?warm, ?cold, ?tile, ?vector⟩
  case layer =>
    intro s p n u up run active few known
    exact (onPea_ofRun up run _).trans (by rw [selectLayer_known active few known])
  case quant =>
    rintro s p vsrc elem side spill r g up run recipe rfl
    exact (onPea_ofRun up run _).trans (by rw [quantOp_ofRecipe recipe])
  case warm =>
    intro s p o r up run recipe formed warm inside
    refine ⟨_, onPea_ofRun up run _, rfl, rfl, ?_⟩
    rw [matrixOp_warm recipe formed warm]
    refine ⟨?_, ?_, ?_, ?_, rfl, rfl⟩
    · rintro w rfl
      rw [peaOf_charge_modPea inside]
      exact ⟨rfl, rfl⟩
    · rw [peaOf_charge_modPea inside]
    · rw [peaOf_charge_modPea inside]
    · intro q other
      exact peaOf_modPea_other other _
  case cold =>
    intro s p o r up run recipe formed cold
    exact (onPea_ofRun up run _).trans (by rw [matrixOp_cold recipe formed cold])
  case tile =>
    intro s p u up run active layer
    exact (onPea_ofRun up run _).trans (by rw [endTile_ofLayer active layer])
  case vector =>
    intro s p op rd ra rb rc up inside run
    refine ⟨_, onPea_ofRun up run _, ?_, ?_, ?_, ?_, rfl⟩
    · rintro (rfl | rfl | rfl | rfl | rfl | rfl) <;> exact peaOf_charge_modPea inside _ _
    · rintro rfl
      exact peaOf_charge_modPea inside _ _
    · rintro l rfl
      refine ⟨?_, ?_, ?_⟩ <;> rintro rfl <;> exact peaOf_charge_modPea inside _ _
    · intro q other
      exact peaOf_modPea_other other _

end Sys2Proof.Machine

/-! ## Canonical memories

Each operation of the peas, the slices and the rings keeps the canonical form of every memory, which a reset starts in. -/

namespace Sys2Proof.Machine

/-! ### At reset -/

/-- Settles O52: the slices and the device list nothing, and neither does any pea or ring. -/
theorem memoryStartsCanonical : Obligations.MemoryStartsCanonical := by
  have peas : (List.replicate 192 ({} : Pea)).all peaMemWf = true := by rw [List.all_replicate]; rfl
  have fns : (List.replicate 256 ({} : Fn)).all fnMemWf = true := by rw [List.all_replicate]; rfl
  exact (Bool.and_eq_true _ _).mpr ⟨(Bool.and_eq_true _ _).mpr ⟨rfl, peas⟩, fns⟩

/-! ### What the form reads -/

/-- The memories of the slices and of the device tiers. -/
def storesWf (x : MemSt) : Bool := smWf x.sliceMem && smWf x.sliceErr && smWf x.dev && smWf x.devErr

theorem wf_eq (m : Mach) : Memory.wf m = (storesWf m.mem && m.peas.all peaMemWf && m.fns.all fnMemWf) := rfl

@[simp] theorem wf_modCtx (c : Nat) (f : Ctx → Ctx) (m : Mach) : Memory.wf (modCtx c f m) = Memory.wf m := rfl
@[simp] theorem wf_modEcc (f : EccSt → EccSt) (m : Mach) : Memory.wf (modEcc f m) = Memory.wf m := rfl
@[simp] theorem wf_modLat (f : Latched → Latched) (m : Mach) : Memory.wf (modLat f m) = Memory.wf m := rfl
@[simp] theorem wf_modLife (f : LifeSt → LifeSt) (m : Mach) : Memory.wf (modLife f m) = Memory.wf m := rfl
@[simp] theorem wf_modHost (f : HostSt → HostSt) (m : Mach) : Memory.wf (modHost f m) = Memory.wf m := rfl
@[simp] theorem wf_charge (p : Nat) (f : Account → Account) (m : Mach) : Memory.wf (charge p f m) = Memory.wf m := rfl
@[simp] theorem wf_chargeBytes (p n : Nat) (m : Mach) : Memory.wf (chargeBytes p n m) = Memory.wf m := rfl

@[simp] theorem wf_captureAt (ord : List Nat) (kind cls source : Nat) (body : List Byte) (m : Mach) :
    Memory.wf (captureAt ord kind cls source body m) = Memory.wf m := by
  obtain ⟨c, h⟩ := captureAt_cap ord kind cls source body m
  rw [h]
  rfl

/-- Writing to the host changes no memory. -/
theorem wf_quiet (m : Mach) : Memory.wf (quiet m) = Memory.wf m := by
  have fns : (m.fns.map quietFn).all fnMemWf = m.fns.all fnMemWf := List.all_map
  rw [wf_eq, wf_eq, ← fns]
  rfl

theorem wf_ofQuiet {a b : Mach} (h : quiet b = quiet a) : Memory.wf b = Memory.wf a := by
  rw [← wf_quiet b, h, wf_quiet]

/-- A change of one pea apart from its memories. -/
theorem wf_modPea_same (p : Nat) (m : Mach) {f : Pea → Pea} (same : ∀ a, peaMemWf (f a) = peaMemWf a) :
    Memory.wf (modPea p f m) = Memory.wf m := by
  have peas : ∀ l : List Pea, l.all peaMemWf = (l.map peaMemWf).all id := fun _ => by rw [List.all_map]; rfl
  rw [wf_eq, wf_eq, modPea_peas, peas, map_modAt p f peaMemWf m.peas same, ← peas]
  rfl

/-- A change of one function apart from its ring slots. -/
theorem wf_modFn_same (c : Nat) (m : Mach) {f : Fn → Fn} (same : ∀ x, fnMemWf (f x) = fnMemWf x) :
    Memory.wf (modFn c f m) = Memory.wf m := by
  have fns : ∀ l : List Fn, l.all fnMemWf = (l.map fnMemWf).all id := fun _ => by rw [List.all_map]; rfl
  rw [wf_eq, wf_eq, modFn_fns, fns, map_modAt c f fnMemWf m.fns same, ← fns]
  rfl

/-- A change of the memory block apart from its memories. -/
theorem wf_modMem_same (m : Mach) {f : MemSt → MemSt} (same : ∀ x, storesWf (f x) = storesWf x) :
    Memory.wf (modMem f m) = Memory.wf m := by
  rw [wf_eq, wf_eq, modMem_mem, same]
  rfl

/-! ### Changes that keep the form -/

/-- The change keeps the canonical form of every memory. -/
def KeepsCanonical (f : Mach → Mach) : Prop := ∀ m, Memory.wf m = true → Memory.wf (f m) = true

/-- What holds of every member holds of every member after one has been changed by what keeps it. -/
theorem all_modAt {α : Type} {w : α → Bool} {f : α → α} (keeps : ∀ a, w a = true → w (f a) = true) (i : Nat) {l : List α}
    (h : l.all w = true) : (modAt i f l).all w = true := by
  rw [List.all_eq_true] at h ⊢
  intro a mem
  obtain ⟨j, get⟩ := List.mem_iff_getElem?.1 mem
  rw [modAt_getElem?] at get
  split at get
  · obtain ⟨b, old, rfl⟩ := Option.map_eq_some_iff.1 get
    exact keeps b (h b (List.mem_of_getElem? old))
  · exact h a (List.mem_of_getElem? get)

theorem wf_iff (m : Mach) :
    Memory.wf m = true ↔ storesWf m.mem = true ∧ m.peas.all peaMemWf = true ∧ m.fns.all fnMemWf = true := by
  rw [wf_eq, Bool.and_eq_true, Bool.and_eq_true, and_assoc]

theorem keeps_modPea (p : Nat) {f : Pea → Pea} (keeps : ∀ a, peaMemWf a = true → peaMemWf (f a) = true) : KeepsCanonical (modPea p f) := by
  intro m h
  obtain ⟨stores, peas, fns⟩ := (wf_iff m).1 h
  exact (wf_iff _).2 ⟨stores, all_modAt keeps p peas, fns⟩

theorem keeps_modFn (c : Nat) {f : Fn → Fn} (keeps : ∀ x, fnMemWf x = true → fnMemWf (f x) = true) : KeepsCanonical (modFn c f) := by
  intro m h
  obtain ⟨stores, peas, fns⟩ := (wf_iff m).1 h
  exact (wf_iff _).2 ⟨stores, peas, all_modAt keeps c fns⟩

theorem keeps_modMem {f : MemSt → MemSt} (keeps : ∀ x, storesWf x = true → storesWf (f x) = true) : KeepsCanonical (modMem f) := by
  intro m h
  obtain ⟨stores, peas, fns⟩ := (wf_iff m).1 h
  exact (wf_iff _).2 ⟨keeps m.mem stores, peas, fns⟩

theorem storesWf_iff (x : MemSt) : storesWf x = true ↔
    smWf x.sliceMem = true ∧ smWf x.sliceErr = true ∧ smWf x.dev = true ∧ smWf x.devErr = true := by
  simp only [storesWf, Bool.and_eq_true, and_assoc]

theorem peaMemWf_iff (a : Pea) : peaMemWf a = true ↔ smWf a.scalar = true ∧ smWf a.vector = true ∧ smWf a.acc = true ∧
    smWf a.weights = true ∧ smWf a.acts = true ∧ smWf a.prog = true := by
  simp only [peaMemWf, Bool.and_eq_true, and_assoc]

theorem fnMemWf_iff (f : Fn) : fnMemWf f = true ↔ smWf f.cmdSlots = true ∧ smWf f.urgSlots = true := by
  simp only [fnMemWf, Bool.and_eq_true]

/-! ### Slices (R69, R79, R82) -/

@[simp] theorem wf_arrayRead (l : Nat) (m : Mach) : Memory.wf (arrayRead l m) = Memory.wf m := by
  simp only [arrayRead]
  split
  · rw [wf_modMem_same, captureCorr, wf_captureAt, wf_modEcc]
    exact fun _ => rfl
  · rfl

@[simp] theorem wf_mergeLine (slice line : Nat) (m : Mach) : Memory.wf (mergeLine slice line m) = Memory.wf m := by
  simp only [mergeLine]
  split
  · rfl
  · rw [wf_arrayRead, openMerge, wf_modMem_same]
    intro x
    split <;> rfl

/-- R79: a read merges and counts, and changes no memory. -/
@[simp] theorem wf_noteRead (t a n : Nat) (merges : Bool) (m : Mach) : Memory.wf (noteRead t a n merges m) = Memory.wf m := by
  simp only [noteRead]
  split
  · rfl
  · refine forEach_keeps Memory.wf _ _ (fun l m => ?_) m
    split
    · exact wf_mergeLine ..
    · exact wf_arrayRead ..

@[simp] theorem wf_countPoison (r : Rd) (m : Mach) : Memory.wf (countPoison r m) = Memory.wf m := by
  simp only [countPoison]
  split <;> rfl

@[simp] theorem wf_countBadRead (t a n : Nat) (m : Mach) : Memory.wf (countBadRead t a n m) = Memory.wf m := by
  simp only [countBadRead]
  split
  · rfl
  · rw [markMerges, wf_modMem_same, wf_countPoison]
    exact fun _ => rfl

theorem keeps_physWrite (a : Nat) (bs : List Byte) : KeepsCanonical (physWrite a bs) := by
  refine keeps_modMem fun x h => ?_
  obtain ⟨slices, errs, dev, devErrs⟩ := (storesWf_iff x).1 h
  exact (storesWf_iff _).2 ⟨smWf_memWrite _ _ _ slices, smWf_smClear _ _ _ errs, dev, devErrs⟩

theorem keeps_piecesWrite (ps : List (Nat × Nat)) (bs : List Byte) : KeepsCanonical (piecesWrite ps bs) := by
  induction ps generalizing bs with
  | nil => exact fun _ h => h
  | cons p ps ih => exact fun m h => ih _ _ (keeps_physWrite _ _ m h)

theorem wf_slWrite {t a : Nat} {bs : List Byte} {m m' : Mach} (written : slWrite t a bs m = .ok m') (h : Memory.wf m = true) :
    Memory.wf m' = true := by
  simp only [slWrite] at written
  split at written
  · cases written
  · cases written
    exact keeps_piecesWrite _ _ m h

/-! ### Units that end (R64, R72, R112) -/

@[simp] theorem wf_endTile (p : Nat) (m : Mach) : Memory.wf (endTile p m) = Memory.wf m := by
  have held : Memory.wf (modPea p (fun a => { a with lastTile := a.tile, tile := {} }) m) = Memory.wf m :=
    wf_modPea_same p m fun _ => rfl
  have counted : ∀ c l k m, Memory.wf (addCounts c l k m) = Memory.wf m := fun _ _ _ _ => rfl
  simp only [endTile]
  split
  · split
    · rw [counted, held]
    · exact held
  · exact held

@[simp] theorem wf_latchDone (d : DoneIn) (m : Mach) : Memory.wf (latchDone d m) = Memory.wf m := by
  rw [latchDone, wf_captureAt, wf_modLat]

@[simp] theorem wf_endUnit (p : Nat) (st : Status) (d : Nat) (m : Mach) : Memory.wf (endUnit p st d m) = Memory.wf m := by
  simp only [endUnit]
  split
  · rfl
  · rw [wf_latchDone, wf_modPea_same, wf_endTile]
    exact fun _ => rfl

@[simp] theorem wf_endDenied (p x : Nat) (m : Mach) : Memory.wf (endDenied p x m) = Memory.wf m := by
  rw [endDenied, wf_endUnit, wf_modCtx, wf_modMem_same]
  exact fun _ => rfl

@[simp] theorem wf_endBadRead (p a n : Nat) (m : Mach) : Memory.wf (endBadRead p a n m) = Memory.wf m := by
  rw [endBadRead, wf_endUnit, wf_countBadRead]

/-! ### Accesses of a pea -/

theorem keeps_peaAccess {merges : Bool} {p a n : Nat} {k : List Byte → Mach → Mach} (next : ∀ bs, KeepsCanonical (k bs)) :
    KeepsCanonical (peaAccess merges p a n k) := by
  intro m h
  simp only [peaAccess]
  split
  · exact next _ _ (by simpa using h)
  · simpa using h
  · simpa using h

theorem keeps_peaTake {p a n : Nat} {k : List Byte → Mach → Mach} (next : ∀ bs, KeepsCanonical (k bs)) :
    KeepsCanonical (peaTake p a n k) := by
  intro m h
  simp only [peaTake]
  split
  · simpa using h
  · exact keeps_peaAccess next m h

theorem keeps_peaWrite {p a : Nat} {bs : List Byte} {k : Mach → Mach} (next : KeepsCanonical k) :
    KeepsCanonical (peaWrite p a bs k) := by
  intro m h
  simp only [peaWrite]
  split
  next written => exact next _ (by simpa using wf_slWrite written h)
  next => simpa using h

/-! ### Registers of a pea -/

theorem keeps_fillPea (dst : PeaDst) (bs : List Byte) (a : Pea) (h : peaMemWf a = true) : peaMemWf (fillPea dst bs a) = true := by
  obtain ⟨scalar, vector, acc, weights, acts, prog⟩ := (peaMemWf_iff a).1 h
  cases dst with
  | scalar r => exact (peaMemWf_iff _).2 ⟨smWf_smSet _ _ _ scalar, vector, acc, weights, acts, prog⟩
  | vector r => exact (peaMemWf_iff _).2 ⟨scalar, smWf_smWrite _ _ _ vector, acc, weights, acts, prog⟩
  | weights off => exact (peaMemWf_iff _).2 ⟨scalar, vector, acc, smWf_memWrite _ _ _ weights, acts, prog⟩
  | acts off => exact (peaMemWf_iff _).2 ⟨scalar, vector, acc, weights, smWf_memWrite _ _ _ acts, prog⟩

theorem keeps_setSreg (r : Nat) (w : Word64) (a : Pea) (h : peaMemWf a = true) : peaMemWf (setSreg r w a) = true := by
  obtain ⟨scalar, rest⟩ := (peaMemWf_iff a).1 h
  exact (peaMemWf_iff _).2 ⟨smWf_smSet _ _ _ scalar, rest⟩

theorem keeps_setVreg (r : Nat) (ws : List Word32) (a : Pea) (h : peaMemWf a = true) : peaMemWf (setVreg r ws a) = true := by
  obtain ⟨scalar, vector, rest⟩ := (peaMemWf_iff a).1 h
  exact (peaMemWf_iff _).2 ⟨scalar, smWf_smWrite _ _ _ vector, rest⟩

/-- R154: a cleared pea lists nothing. -/
theorem peaMemWf_clearPea (a : Pea) : peaMemWf (clearPea a) = true := rfl

theorem smWf_foldl_smSet {w : Nat} (l : List (Nat × BitVec w)) (r : SMap w) (h : smWf r = true) :
    smWf (l.foldl (fun z x => smSet x.1 x.2 z) r) = true := by
  induction l generalizing r with
  | nil => exact h
  | cons x l ih => exact ih _ (smWf_smSet _ _ _ h)

/-! ### Instructions -/

theorem keeps_peaLoad (p a n : Nat) (dst : PeaDst) : KeepsCanonical (peaLoad p a n dst) := by
  intro m h
  simp only [peaLoad]
  split
  · exact keeps_peaAccess (fun bs => keeps_modPea p (keeps_fillPea dst bs)) m h
  · exact h

theorem keeps_peaStore (p a : Nat) (bs : List Byte) : KeepsCanonical (peaStore p a bs) := by
  intro m h
  simp only [peaStore]
  split
  · exact keeps_peaWrite (fun _ h => h) m h
  · exact h

theorem keeps_sliceAtomic (p a : Nat) (wide : Bool) (op : AtomicOp) (x y : Word64) (rd : Nat) :
    KeepsCanonical (sliceAtomic p a wide op x y rd) := by
  intro m h
  simp only [sliceAtomic]
  split
  · exact h
  · exact keeps_peaTake (fun bs => keeps_peaWrite (keeps_modPea p (keeps_setSreg rd _))) m h

theorem keeps_vectorOp (p : Nat) (op : VecOp) (rd ra rb rc : Nat) : KeepsCanonical (vectorOp p op rd ra rb rc) := by
  refine fun m h => keeps_modPea p (fun a ha => ?_) m h
  cases op with
  | sum | max | maxIdx => exact keeps_setSreg _ _ a ha
  | _ => exact keeps_setVreg _ _ a ha

theorem wf_endInvalid (p : Nat) (m : Mach) : Memory.wf (endInvalid p m) = Memory.wf m := wf_endUnit ..

@[simp] theorem wf_tally (p : Nat) (k : Trouble) (m : Mach) : Memory.wf (tally p k m) = Memory.wf m := by
  rw [tally, wf_modPea_same]
  exact fun _ => rfl

theorem keeps_quantOp (p vsrc elem side spill : Nat) : KeepsCanonical (quantOp p vsrc elem side spill) := by
  intro m h
  simp only [quantOp]
  split
  · rwa [wf_endInvalid]
  · rw [wf_tally]
    refine keeps_modPea p (fun a ha => ?_) m h
    obtain ⟨scalar, vector, acc, weights, acts, prog⟩ := (peaMemWf_iff a).1 ha
    exact (peaMemWf_iff _).2
      ⟨scalar, vector, acc, weights, smWf_memWrite _ _ _ (smWf_memWrite _ _ _ (smWf_memWrite _ _ _ acts)), prog⟩

theorem keeps_matrixOp (p : Nat) (o : MatOp) : KeepsCanonical (matrixOp p o) := by
  intro m h
  simp only [matrixOp]
  split
  · rwa [wf_endInvalid]
  · split
    · rwa [wf_endInvalid]
    · split
      · exact h
      · rw [wf_charge, wf_tally]
        refine keeps_modPea p (fun a ha => ?_) m h
        obtain ⟨scalar, vector, acc, rest⟩ := (peaMemWf_iff a).1 ha
        exact (peaMemWf_iff _).2 ⟨scalar, vector, smWf_foldl_smSet _ _ acc, rest⟩

theorem keeps_staggerStart (p : Nat) : KeepsCanonical (staggerStart p) := by
  intro m h
  simp only [staggerStart]
  split
  · refine keeps_modPea p (fun a _ => ?_) m h
    exact peaMemWf_clearPea a
  · exact h

/-! ### Ring slots (R123) -/

@[simp] theorem wf_ignoreWrite (c : Nat) (r : Reason) (m : Mach) : Memory.wf (ignoreWrite c r m) = Memory.wf m := by
  rw [ignoreWrite, ignoreItem, wf_ofQuiet (quiet_setEvt ..), wf_modCtx, wf_modFn_same]
  exact fun _ => rfl

@[simp] theorem wf_badAccess (c : Nat) (m : Mach) : Memory.wf (badAccess c m) = Memory.wf m := by
  rw [badAccess, wf_ignoreWrite, wf_modHost]

theorem keeps_writeSlot (c off : Nat) (bs : List Byte) : KeepsCanonical (writeSlot c off bs) := by
  intro m h
  simp only [writeSlot]
  split
  · rwa [wf_badAccess]
  · split
    · split
      · rwa [wf_ignoreWrite]
      · refine keeps_modFn c (fun f hf => ?_) m h
        obtain ⟨cmd, urg⟩ := (fnMemWf_iff f).1 hf
        exact (fnMemWf_iff _).2 ⟨smWf_memWrite _ _ _ cmd, urg⟩
    · split
      · rwa [wf_ignoreWrite]
      · refine keeps_modFn c (fun f hf => ?_) m h
        obtain ⟨cmd, urg⟩ := (fnMemWf_iff f).1 hf
        exact (fnMemWf_iff _).2 ⟨cmd, smWf_memWrite _ _ _ urg⟩

/-! ### Resets and the fuse map (R207, R436, R440) -/

/-- A cold reset leaves every memory as at reset. -/
theorem keeps_assertReset (ns : Nat) : KeepsCanonical (assertReset ns) := by
  intro m h
  simp only [assertReset]
  split
  · exact h
  · exact memoryStartsCanonical

@[simp] theorem wf_bootFails (code : Nat) (m : Mach) : Memory.wf (bootFails code m) = Memory.wf m := by
  simp only [bootFails, raiseIbi]
  split
  · rw [wf_ofQuiet (quiet_send ..), wf_modLife]
  · rfl

/-- R440: the slices come up clear. -/
theorem keeps_applyFuses (turnip : Nat) (ws : List Nat) : KeepsCanonical (applyFuses turnip ws) := by
  intro m h
  rw [applyFuses, wf_modEcc]
  refine keeps_modMem (fun x hx => ?_) _ h
  obtain ⟨-, -, dev, devErrs⟩ := (storesWf_iff x).1 hx
  exact (storesWf_iff _).2 ⟨rfl, rfl, dev, devErrs⟩

theorem keeps_bootBankSelect (turnip : Nat) (ws : List Nat) (nv : Nv) : KeepsCanonical fun m => (bootBankSelect turnip ws nv m).2 := by
  intro m h
  have clear : ∀ i, Memory.wf (trained i (applyFuses turnip ws m)) = true := fun _ => keeps_applyFuses turnip ws m h
  simp only [bootBankSelect]
  split
  · exact h
  · split
    · rw [wf_bootFails, clear]
    · split
      · rw [wf_bootFails, wf_modLife, clear]
      · rw [wf_modLife, wf_modLife, clear]

/-! ### The statement -/

section
variable {f : Mach → Mach} {s t : State} (keeps : KeepsCanonical f) (h : Memory.wf s.m = true)
include keeps h

/-- A command that only changes the machine, by a change that keeps the form. -/
theorem wf_onM (next : onM f s = .next t) : Memory.wf t.m = true := by
  obtain rfl := Host.Outcome.next.inj next
  exact keeps s.m h

theorem wf_onUp (next : onUp f s = .next t) : Memory.wf t.m = true := by
  refine wf_onM (fun m hm => ?_) h next
  split
  · exact keeps m hm
  · exact hm

theorem wf_onPea {p : Nat} (next : onPea p f s = .next t) : Memory.wf t.m = true := by
  refine wf_onM (fun m hm => ?_) h next
  split
  · exact keeps m hm
  · exact hm

end

/-- R123: a write to the ring slots, to a function that cannot be reached, or past their end. -/
theorem keeps_ringSlotWrite (c off : Nat) (bs : List Byte) : KeepsCanonical fun m =>
    if !reachable m c then m
    else if 0x4000 ≤ off && off + bs.length ≤ 0x8400 then writeSlot c off bs m else badAccess c m := by
  intro m h
  dsimp only
  split
  · exact h
  · split
    · exact keeps_writeSlot c off bs m h
    · rwa [wf_badAccess]

/-- Settles O53: each command by the change that it makes. -/
theorem memoryStaysCanonical : Obligations.MemoryStaysCanonical := by
  rintro c s t (⟨p, a, n, d, rfl⟩ | ⟨p, a, bs, rfl⟩ | ⟨p, a, w, op, x, y, rd, rfl⟩ | ⟨p, op, d, a, b, e, rfl⟩ | ⟨p, o, rfl⟩ |
    ⟨p, v, e, d, l, rfl⟩ | ⟨f, o, bs, rfl⟩ | ⟨p, rfl⟩ | ⟨ns, rfl⟩ | ⟨b, ws, rfl⟩) h next
  · exact wf_onUp (keeps_peaLoad p a n d) h next
  · exact wf_onUp (keeps_peaStore p a bs) h next
  · exact wf_onUp (keeps_sliceAtomic p a w op x y rd) h next
  · exact wf_onPea (keeps_vectorOp p op d a b e) h next
  · exact wf_onPea (keeps_matrixOp p o) h next
  · exact wf_onPea (keeps_quantOp p v e d l) h next
  · exact wf_onM (keeps_ringSlotWrite f o bs) h next
  · exact wf_onUp (keeps_staggerStart p) h next
  · exact wf_onM (keeps_assertReset ns) h next
  · obtain rfl := Host.Outcome.next.inj next
    exact keeps_bootBankSelect b ws s.nv s.m h

end Sys2Proof.Machine

/-! ## Packets of the host

What becomes of a packet as its ring is served: it stays queued, is ignored, is turned away, or is acted on. -/

namespace Sys2Proof.Machine

/-! ### Host opcodes (Table 5.4) -/

/-- The row of every command that has a packet runs it. -/
theorem exec_eq_elim (i : Instr) (s : State) : exec i s = (packetOf i).elim (exec i s) (runPacket · s) := by
  cases i <;> rfl

/-- A host opcode's row runs its packet. -/
theorem exec_packetOf {i : Instr} {p : Packet} (h : packetOf i = some p) (s : State) : exec i s = runPacket p s := by
  rw [exec_eq_elim, h, Option.elim_some]

/-- R145: the opcodes that need pods, slices or pages of a tenancy. -/
def tenantOps : List Nat :=
  [0x20, 0x21, 0x22, 0x23, 0x24, 0x25, 0x26, 0x30, 0x31, 0x32, 0x33, 0x40, 0x41, 0x42, 0x50, 0x51, 0x52, 0x53, 0x54, 0x55, 0x70,
    0x82, 0x90, 0x91, 0x92]

/-- R145: of every command that has a packet, it is marked for a tenancy where its opcode is one of these. -/
theorem all_tenant_packetOf (i : Instr) : (packetOf i).all (fun p => p.info.tenant == tenantOps.contains p.info.op) = true := by
  cases i <;> rfl

/-- R145: the packets of these opcodes, and no others, are marked for a tenancy. -/
theorem tenant_packetOf {i : Instr} {p : Packet} (h : packetOf i = some p) : p.info.tenant = tenantOps.contains p.info.op := by
  have marked := all_tenant_packetOf i
  rw [h] at marked
  exact eq_of_beq marked

/-! ### Queued packets (R129, R132) -/

/-- A packet whose ring is not served, is not empty before it or is fenced stays queued. -/
theorem runPacket_unserved {p : Packet} {s : State} (h : canServe s.m p = false) : runPacket p s = .next s := by
  simp [runPacket, servePacket, h]

section
variable {p : Packet} {s : State} (serve : canServe s.m p = true)
include serve

/-- R132: one for which the status ring has no room holds its ring back. -/
theorem runPacket_noRoom (h : hasRoom s.m p.hdr.ctx p.info.urgent (p.extra s.m) = false) :
    runPacket p s = .next (withM s (flushEvents (holdRing p.hdr.ctx s.m))) := by
  simp [runPacket, servePacket, serve, h]

/-! ### Packets consumed (R139, R145) -/

variable (room : hasRoom s.m p.hdr.ctx p.info.urgent (p.extra s.m) = true)
include room

/-- R139: a packet that fails a check is consumed and ignored. -/
theorem runPacket_ignored {r : Reason} (h : firstFail s.nv (passPacket p.hdr.ctx p.info.urgent s.m) p = some r) :
    runPacket p s = .next (withM s
      (endWrites (ignoreItem p.hdr.ctx r p.hdr.seq p.info.op true (passPacket p.hdr.ctx p.info.urgent s.m)))) := by
  simp [runPacket, servePacket, takePacket, serve, room, h]

/-- R139: one that passes them all is accepted and acted on. -/
theorem runPacket_accepted (h : firstFail s.nv (passPacket p.hdr.ctx p.info.urgent s.m) p = none) :
    runPacket p s = .next (acted s (actOn p s.nv (taken p s))) := by
  simp [runPacket, servePacket, takePacket, serve, room, h, acted, taken]

end

section
variable {p : Packet} {s : State}

/-- R129, R145: an accepted packet that its mode or its context turns away is finalised with that code. -/
theorem actOn_turnedAway {st : Status} {d : Nat} (h : turnedAway s.m p = some (st, d)) :
    acted s (actOn p s.nv (taken p s)) = replied p s st d (s.nv, taken p s) := by
  rw [actOn, (turnedAway_taken p s).trans h]
  rfl

/-- One that nothing turns away has its effect. -/
theorem actOn_effect (h : turnedAway s.m p = none) : actOn p s.nv (taken p s) = p.eff s.nv (taken p s) := by
  rw [actOn, (turnedAway_taken p s).trans h]

theorem turnedAway_mgmt (mode : s.m.life.mode = .mgmt) (h : p.info.mgmt = false) :
    turnedAway s.m p = some (.notReady, readyHint s.m) := by
  simp [turnedAway, mode, h]

theorem turnedAway_fault (mode : s.m.life.mode = .fault) (h : p.info.mgmt = false) :
    turnedAway s.m p = some (.moduleFault, s.m.life.halted.headD 0) := by
  simp [turnedAway, mode, h]

theorem turnedAway_tenant (mode : s.m.life.mode = .ready) (tenant : p.info.tenant = true) (zero : p.hdr.ctx = 0) :
    turnedAway s.m p = some (.denied, node16 s.m) := by
  simp [turnedAway, mode, tenant, zero]

theorem turnedAway_ready (mode : s.m.life.mode = .ready) (h : p.info.tenant = false ∨ p.hdr.ctx ≠ 0) :
    turnedAway s.m p = none := by
  simpa [turnedAway, mode, or_iff_not_imp_left] using h

end

/-! ### The statement -/

/-- R132: a ring held back, counted once a boundary. -/
theorem holdRing_eq (c : Nat) (m : Mach) : holdRing c m =
    modCtx c (fun x => if x.stallAt = some m.tick.count then x
      else { x with ringStall := bump 32 1 x.ringStall, stallAt := some m.tick.count }) (setEvt c 3 m) := by
  simp only [holdRing, beq_iff_eq]

/-- R129: READY is at least a tick away. -/
theorem readyHint_pos (m : Mach) : 1 ≤ readyHint m := le_max_left ..

/-- Settles O58: a packet by the stage at which its serving ends. -/
theorem packetsAreChecked : Obligations.PacketsAreChecked := by
  refine ⟨?unserved, ?noRoom, ?ignored, ?accepted, readyHint_pos, ?denied⟩
  case unserved =>
    intro i p s pk no
    rw [exec_packetOf pk, runPacket_unserved no]
  case noRoom =>
    intro i p s pk serve no
    rw [exec_packetOf pk, runPacket_noRoom serve no, holdRing_eq]
  case ignored =>
    intro i p s r pk serve room fail
    rw [exec_packetOf pk, runPacket_ignored serve room fail]
  case accepted =>
    intro i p s pk serve room pass
    rw [exec_packetOf pk, runPacket_accepted serve room pass]
    refine ⟨fun mode no => ?_, fun mode no => ?_, fun mode own => ?_⟩
    · rw [actOn_turnedAway (turnedAway_mgmt mode no)]
    · rw [actOn_turnedAway (turnedAway_fault mode no)]
    · rw [actOn_effect (turnedAway_ready mode own)]
  case denied =>
    intro i p s pk op zero serve room pass mode
    have tenant : p.info.tenant = true := by rw [tenant_packetOf pk]; exact List.contains_iff_mem.2 op
    rw [← zero] at room pass
    rw [exec_packetOf pk, runPacket_accepted serve room pass, actOn_turnedAway (turnedAway_tenant mode tenant zero)]
    rfl

end Sys2Proof.Machine

/-! ## ABORT

What an ABORT finds of its target, none of which the taking of the ABORT itself has changed. -/

namespace Sys2Proof.Machine

/-! ### What taking a packet of the urgent ring leaves -/

/-- R119, R139: a packet of the urgent ring moves that ring's pointers and number alone. -/
theorem taken_fn_urgent {α : Type} (π : Fn → α) {p : Packet} (urgent : p.info.urgent = true) (s : State) (c : Nat)
    (h : ∀ (f : Fn) (t u v : Nat), π { f with urgTail := t, urgHead := u, urgNextSeq := v } = π f) :
    π (fnOf (taken p s) c) = π (fnOf s.m c) := by
  have e : fnOf (taken p s) c = fnOf (modFn p.hdr.ctx (fun f => { f with urgNextSeq := wrap 32 (f.urgNextSeq + 1) })
      (modFn p.hdr.ctx (fun f => { f with urgTail := wrap 32 (f.urgTail + 1), urgHead := wrap 32 (f.urgHead + 1) }) s.m)) c := by
    simp only [taken, accept, passPacket, urgent, if_true]
    rfl
  rw [e, fnOf_keeps π _ _ _ _ fun f => h f f.urgTail f.urgHead _, fnOf_keeps π _ _ _ _ fun f => h f _ _ f.urgNextSeq]

/-- R130: and the request that it adds is none of the command ring's. -/
theorem findReq_taken_urgent {p : Packet} (urgent : p.info.urgent = true) (s : State) (c q : Nat) :
    findReq (taken p s) c false q = findReq s.m c false q := by
  have e : (taken p s).reqs =
      s.m.reqs ++ [{ ctx := p.hdr.ctx, seq := p.hdr.seq, op := p.info.op, urgent := p.info.urgent, irq := p.hdr.irq }] := rfl
  simp [findReq, e, isReq, urgent]

section
variable (s : State) (h : Hdr) (q : Nat)

theorem queuedAt_taken_abort : queuedAt (fnOf (taken (pktAbort h q) s) h.ctx) q = queuedAt (fnOf s.m h.ctx) q :=
  taken_fn_urgent (queuedAt · q) rfl s h.ctx fun _ _ _ _ => rfl

theorem nextSeq_taken_abort : (fnOf (taken (pktAbort h q) s) h.ctx).nextSeq = (fnOf s.m h.ctx).nextSeq :=
  taken_fn_urgent (·.nextSeq) rfl s h.ctx fun _ _ _ _ => rfl

theorem finals_taken_abort : (fnOf (taken (pktAbort h q) s) h.ctx).finals = (fnOf s.m h.ctx).finals :=
  taken_fn_urgent (·.finals) rfl s h.ctx fun _ _ _ _ => rfl

end

/-! ### What an ABORT comes to (R135) -/

section
variable {m : Mach} {h : Hdr} {q : Nat} (nv : Nv) (unqueued : queuedAt (fnOf m h.ctx) q = none)
include unqueued

/-- A target that has been taken and not acted on is finalised, after the reply of the ABORT. -/
theorem actAbort_notActed {r : Req} (found : findReq m h.ctx false q = some r) (first : r.abortBy = none)
    (waits : notActed r = true) :
    actAbort h q nv m = (nv, finalise h.ctx q .cancelled h.seq (finaliseReq h.ctx true h.seq .ok 0 m)) := by
  simp [actAbort, unqueued, found, first, waits]

/-- One that has been acted on and cannot be aborted runs on. -/
theorem actAbort_tooLate {r : Req} (found : findReq m h.ctx false q = some r) (first : r.abortBy = none)
    (acted : notActed r = false) (runs : abortable r.op = false) :
    actAbort h q nv m = (nv, finaliseReq h.ctx true h.seq .tooLate 0 m) := by
  simp [actAbort, unqueued, found, first, acted, runs]

/-- A number that the ring has not come to names no target. -/
theorem actAbort_noTarget (gone : findReq m h.ctx false q = none) (ahead : dist q (fnOf m h.ctx).nextSeq < 2 ^ 31) :
    actAbort h q nv m = (nv, finaliseReq h.ctx true h.seq .noTarget 0 m) := by
  simp only [actAbort, unqueued, gone, if_pos ahead]

/-- One behind it was finalised, in the tick that is told. -/
theorem actAbort_finalised {f : Final} (gone : findReq m h.ctx false q = none) (behind : 2 ^ 31 ≤ dist q (fnOf m h.ctx).nextSeq)
    (final : (fnOf m h.ctx).finals.find? (·.seq == q) = some f) :
    actAbort h q nv m = (nv, finaliseReq h.ctx true h.seq .tooLate f.tick m) := by
  simp only [actAbort, unqueued, gone, if_neg (Nat.not_lt.2 behind), final, Option.map_some, Option.getD_some]

end

/-! ### The statement -/

/-- Settles O8: an ABORT by what it finds of its target. -/
theorem abortAnswers : Obligations.AbortAnswers := by
  refine ⟨?notActed, ?tooLate, ?noTarget, ?finalised⟩
  case notActed =>
    intro s h q r act unqueued found first waits
    exact runPacket_acted _ s act _ (actAbort_notActed s.nv ((queuedAt_taken_abort s h q).trans unqueued)
      ((findReq_taken_urgent rfl s ..).trans found) first waits)
  case tooLate =>
    intro s h q r act unqueued found first acted runs
    exact answers _ s act id .tooLate 0 (.refl _) (actAbort_tooLate s.nv ((queuedAt_taken_abort s h q).trans unqueued)
      ((findReq_taken_urgent rfl s ..).trans found) first acted runs)
  case noTarget =>
    intro s h q act unqueued gone ahead
    exact answers _ s act id .noTarget 0 (.refl _) (actAbort_noTarget s.nv ((queuedAt_taken_abort s h q).trans unqueued)
      ((findReq_taken_urgent rfl s ..).trans gone) (by rwa [nextSeq_taken_abort]))
  case finalised =>
    intro s h q f act unqueued gone behind final
    exact answers _ s act id .tooLate f.tick (.refl _) (actAbort_finalised s.nv ((queuedAt_taken_abort s h q).trans unqueued)
      ((findReq_taken_urgent rfl s ..).trans gone) (by rwa [nextSeq_taken_abort]) (by rwa [finals_taken_abort]))

end Sys2Proof.Machine

/-! ## The ring registers

What the writes of CMD_CTRL, EVT_CTRL and the heads of a function come to. -/

namespace Sys2Proof.Machine

/-! ### A ring register written -/

/-- A write of 4 bytes to the place `off` of a function's BAR0. -/
def ringWrite (c off value : Nat) : RegWrite := { fn := c, bar := 0, off, width := 4, value }

@[simp] theorem captureWrite_reqs (cls : Nat) (w : RegWrite) (m : Mach) : (captureWrite cls w m).reqs = m.reqs := by
  obtain ⟨x, h⟩ := captureAt_cap (if cls = 0 then [] else if cls = 4 then [3] else [1]) 0x01 cls w.fn _ m
  rw [captureWrite, h]

@[simp] theorem captureWrite_host (cls : Nat) (w : RegWrite) (m : Mach) : (captureWrite cls w m).host = m.host := by
  obtain ⟨x, h⟩ := captureAt_cap (if cls = 0 then [] else if cls = 4 then [3] else [1]) 0x01 cls w.fn _ m
  rw [captureWrite, h]

@[simp] theorem flrHolds_captureWrite (cls : Nat) (w : RegWrite) (m : Mach) (c : Nat) :
    flrHolds (captureWrite cls w m) c = flrHolds m c := by
  rw [flrHolds, captureWrite_reqs, flrHolds]

@[simp] theorem ctxShut_captureWrite (cls : Nat) (w : RegWrite) (m : Mach) (c : Nat) :
    ctxShut (captureWrite cls w m) c = ctxShut m c := by
  rw [ctxShut, captureWrite_host, ctxShut]

/-- R120, R494: a write that lands on a writable register of 32 bits of BAR0 has that register's effect. -/
theorem onWrite_ring {s : State} {c off v : Nat} {f : Mach → Mach} (h : Lands c s)
    (reg : ∀ m, ∃ r, bar0Reg m c off = some r ∧ r.width = 32) (act : bar0Act c off v = some f) :
    onWrite (ringWrite c off v) s = .next (wrote s 7 (ringWrite c off v) f) := by
  obtain ⟨reach, up, mode⟩ := h
  have acts : ∀ m, actWrite (ringWrite c off v) s.nv m = f m := by
    intro m
    obtain ⟨r, hr, width⟩ := reg m
    simp [actWrite, written, regAt, ringWrite, merged, hr, width, act]
  have reach : reachable s.m (ringWrite c off v).fn = true := reach
  have cls : writeClass (ringWrite c off v) = 7 := rfl
  simp [onWrite, onM, wrote, reach, up, mode, acts, cls]

section
variable {s : State} {c : Nat} (h : Lands c s)
include h

theorem exec_cmdRingEnable (n : Nat) : exec (.cmdRingEnable c n) s =
    .next (wrote s 7 (ringWrite c 0x008 (pack [(0, 1, 1), (8, 5, n)])) (actCmdCtrl c (pack [(0, 1, 1), (8, 5, n)]))) :=
  onWrite_ring h (fun _ => ⟨_, rfl, rfl⟩) rfl

theorem exec_cmdRingDisable : exec (.cmdRingDisable c) s =
    .next (wrote s 7 (ringWrite c 0x008 (pack [(8, 5, (fnOf s.m c).statusLog2)]))
      (actCmdCtrl c (pack [(8, 5, (fnOf s.m c).statusLog2)]))) :=
  onWrite_ring h (fun _ => ⟨_, rfl, rfl⟩) rfl

theorem exec_evtRingEnable (n : Nat) : exec (.evtRingEnable c n) s =
    .next (wrote s 7 (ringWrite c 0x040 (pack [(0, 1, 1), (8, 5, n)])) (actEvtCtrl c (pack [(0, 1, 1), (8, 5, n)]))) :=
  onWrite_ring h (fun _ => ⟨_, rfl, rfl⟩) rfl

theorem exec_evtRingDisable : exec (.evtRingDisable c) s =
    .next (wrote s 7 (ringWrite c 0x040 (pack [(8, 5, (fnOf s.m c).evtLog2)]))
      (actEvtCtrl c (pack [(8, 5, (fnOf s.m c).evtLog2)]))) :=
  onWrite_ring h (fun _ => ⟨_, rfl, rfl⟩) rfl

theorem exec_cmdStatusHeadWrite (v : Nat) :
    exec (.cmdStatusHeadWrite c v) s = .next (wrote s 7 (ringWrite c 0x030 v) (actStatusHead c v)) :=
  onWrite_ring h (fun _ => ⟨_, rfl, rfl⟩) rfl

theorem exec_evtHeadWrite (v : Nat) :
    exec (.evtHeadWrite c v) s = .next (wrote s 7 (ringWrite c 0x050 v) (actEvtHead c v)) :=
  onWrite_ring h (fun _ => ⟨_, rfl, rfl⟩) rfl

end

/-! ### The fields of a ring's control -/

theorem size_enable {n : Nat} (h : n < 32) : wbits (pack [(0, 1, 1), (8, 5, n)]) 8 5 = n :=
  wbits_of (by omega) (by simp only [pack, wrap]; omega)

theorem size_disable {n : Nat} (h : n < 32) : wbits (pack [(8, 5, n)]) 8 5 = n :=
  wbits_of (by omega) (by simp only [pack, wrap]; omega)

theorem on_enable (n : Nat) : (pack [(0, 1, 1), (8, 5, n)]).testBit 0 = true := by
  simp only [Nat.testBit_zero, decide_eq_true_eq, pack, wrap]
  omega

theorem on_disable (n : Nat) : (pack [(8, 5, n)]).testBit 0 = false := by
  simp only [Nat.testBit_zero, decide_eq_false_iff_not, pack, wrap]
  omega

/-! ### CMD_CTRL (R120, R152, R430) -/

section
variable {c v n : Nat} (size : wbits v 8 5 = n) (m : Mach)
include size

/-- A size outside 9 to 16 is out of range. -/
theorem actCmdCtrl_range (out : n < 9 ∨ 16 < n) : actCmdCtrl c v m = ignoreWrite c .range m := by
  simp [actCmdCtrl, size, out]

variable (lo : 9 ≤ n) (hi : n ≤ 16)
include lo hi

/-- R152: the rings of a context that is not open are not enabled. -/
theorem actCmdCtrl_shut (on : v.testBit 0 = true) (shut : ctxShut m c = true) : actCmdCtrl c v m = ignoreWrite c .register m := by
  simp only [actCmdCtrl, size, on, shut]
  rw [if_neg (by simp; omega)]
  rfl

/-- R430: of an open context, idle rings are enabled unless an FLR holds them. -/
theorem actCmdCtrl_on (on : v.testBit 0 = true) (openCtx : ctxShut m c = false) (idle : (fnOf m c).cmdEnabled = false) :
    actCmdCtrl c v m = if flrHolds m c then ignoreWrite c .register m else modFn c (enableCmd n) m := by
  simp only [actCmdCtrl, size, on, openCtx, idle]
  rw [if_neg (by simp; omega)]
  rfl

/-- Enabled rings, their size left as it is, are disabled only with nothing left to serve. -/
theorem actCmdCtrl_off (off : v.testBit 0 = false) (serves : (fnOf m c).cmdEnabled = true) (same : n = (fnOf m c).statusLog2) :
    actCmdCtrl c v m =
      if (fnOf m c).head ≠ (fnOf m c).tail ∨ (fnOf m c).urgHead ≠ (fnOf m c).urgTail ∨ ∃ r ∈ m.reqs, r.ctx = c
      then ignoreWrite c .register m
      else modFn c (fun f => { f with cmdEnable := false, cmdEnabled := false }) m := by
  simp only [actCmdCtrl, size, off, serves, same]
  rw [if_neg (by simp; omega)]
  simp [or_assoc]

end

/-! ### EVT_CTRL (R120) -/

section
variable {c v n : Nat} (size : wbits v 8 5 = n) (lo : 7 ≤ n) (hi : n ≤ 16) (m : Mach)
include size lo hi

/-- The event ring of an open context that no FLR holds is enabled. -/
theorem actEvtCtrl_on (on : v.testBit 0 = true) (openCtx : ctxShut m c = false) (free : flrHolds m c = false)
    (idle : (fnOf m c).evtEnabled = false) : actEvtCtrl c v m = modFn c (enableEvt n) m := by
  simp only [actEvtCtrl, size, on, openCtx, free, idle]
  rw [if_neg (by simp; omega)]
  rfl

/-- An enabled one, its size left as it is, is disabled. -/
theorem actEvtCtrl_off (off : v.testBit 0 = false) (runs : (fnOf m c).evtEnabled = true) (same : n = (fnOf m c).evtLog2) :
    actEvtCtrl c v m = modFn c (fun f => { f with evtEnable := false, evtEnabled := false }) m := by
  simp only [actEvtCtrl, size, off, runs, same]
  rw [if_neg (by simp; omega)]
  simp

end

/-! ### Heads (R134) -/

theorem actStatusHead_eq (c v : Nat) (m : Mach) : actStatusHead c v m =
    if dist v (fnOf m c).statusHead ≤ dist (fnOf m c).statusWritten (fnOf m c).statusHead then
      modFn c (fun f => { f with statusHead := v }) m
    else ignoreWrite c .pointer m := by
  simp [actStatusHead, headOk]

theorem actEvtHead_eq (c v : Nat) (m : Mach) : actEvtHead c v m =
    if dist v (fnOf m c).evtHead ≤ dist (fnOf m c).evtTail (fnOf m c).evtHead then modFn c (fun f => { f with evtHead := v }) m
    else ignoreWrite c .pointer m := by
  simp [actEvtHead, headOk]

/-! ### The statement -/

/-- Settles O44: each register by the value that lands and by the ring that it finds. -/
theorem ringRegisters : Obligations.RingRegisters := by
  refine ⟨?enable, ?range, ?refused, ?disable, ?busy, ?evtEnable, ?evtDisable, ?statusHead, ?evtHead⟩
  case enable =>
    rintro s c n w h lo hi idle free openCtx rfl
    rw [exec_cmdRingEnable h]
    refine congrArg _ (wrote_congr ?_)
    rw [actCmdCtrl_on (size_enable (by omega)) _ lo hi (on_enable n) (by simpa using openCtx) (by simpa using idle),
      if_neg (by simpa using free)]
    rfl
  case range =>
    rintro s c n w h out rfl
    rw [exec_cmdRingEnable h]
    exact congrArg _ (wrote_congr (actCmdCtrl_range (size_enable (by omega)) _ (by omega)))
  case refused =>
    rintro s c n w h lo hi why rfl
    rw [exec_cmdRingEnable h]
    refine congrArg _ (wrote_congr ?_)
    cases shut : ctxShut s.m c with
    | true => exact actCmdCtrl_shut (size_enable (by omega)) _ lo hi (on_enable n) (by simpa using shut)
    | false =>
      obtain ⟨idle, held⟩ : (fnOf s.m c).cmdEnabled = false ∧ flrHolds s.m c = true := by simpa [shut] using why
      rw [actCmdCtrl_on (size_enable (by omega)) _ lo hi (on_enable n) (by simpa using shut) (by simpa using idle),
        if_pos (by simpa using held)]
  case disable =>
    rintro s c f w h rfl lo hi serves head urgHead unowed rfl
    rw [exec_cmdRingDisable h]
    refine congrArg _ (wrote_congr ?_)
    rw [actCmdCtrl_off (size_disable (by omega)) _ lo hi (on_disable _) (by simpa using serves) (by simp),
      if_neg (by simpa [head, urgHead] using unowed)]
  case busy =>
    rintro s c f w h rfl lo hi serves left rfl
    rw [exec_cmdRingDisable h]
    refine congrArg _ (wrote_congr ?_)
    rw [actCmdCtrl_off (size_disable (by omega)) _ lo hi (on_disable _) (by simpa using serves) (by simp),
      if_pos (by simpa using left)]
  case evtEnable =>
    rintro s c n w h lo hi idle free openCtx rfl
    rw [exec_evtRingEnable h]
    refine congrArg _ (wrote_congr ?_)
    rw [actEvtCtrl_on (size_enable (by omega)) lo hi _ (on_enable n) (by simpa using openCtx) (by simpa using free)
      (by simpa using idle)]
    rfl
  case evtDisable =>
    rintro s c f w h rfl lo hi runs rfl
    rw [exec_evtRingDisable h]
    exact congrArg _ (wrote_congr (actEvtCtrl_off (size_disable (by omega)) lo hi _ (on_disable _) (by simpa using runs) (by simp)))
  case statusHead =>
    rintro s c v w h rfl
    rw [exec_cmdStatusHeadWrite h]
    refine ⟨fun within => ?_, fun beyond => ?_⟩ <;> refine congrArg _ (wrote_congr ?_)
    · rw [actStatusHead_eq, if_pos (by simpa using within)]
    · rw [actStatusHead_eq, if_neg (by simpa using beyond)]
  case evtHead =>
    rintro s c v w h rfl
    rw [exec_evtHeadWrite h]
    refine ⟨fun within => ?_, fun beyond => ?_⟩ <;> refine congrArg _ (wrote_congr ?_)
    · rw [actEvtHead_eq, if_pos (by simpa using within)]
    · rw [actEvtHead_eq, if_neg (by simpa using beyond)]

end Sys2Proof.Machine

/-! ## Entries of the rings

A reply or a record is the bytes of its fields and then one byte that holds OWN. -/

namespace Sys2Proof.Machine

/-! ### A last byte -/

section
variable {bs : List Byte} {k : Nat} (h : bs.length = k)
include h

theorem length_append_byte (v : Nat) : (bs ++ le 1 v).length = k + 1 := by
  rw [List.length_append, h, le_length]

theorem take_append_byte (v : Nat) : (bs ++ le 1 v).take k = bs := by
  rw [← h, List.take_left]

theorem field_append_byte {v : Nat} (byte : v < 256) : field (bs ++ le 1 v) k 1 = v := by
  rw [field, ← h, List.drop_left, List.take_of_length_le (by simp), unle_le, Nat.pow_one, Nat.mod_eq_of_lt byte]

end

/-! ### OWN (R131) -/

/-- The first pass of a ring of `n` entries writes entry number `i`, or the third does, or another after an even number. -/
def evenPass (i n : Nat) : Bool := decide (i / n % 2 = 0)

theorem ownBit_eq (i n : Nat) : ownBit i n = bit (evenPass i n) := by
  rcases Nat.mod_two_eq_zero_or_one (i / n) with h | h <;> simp [ownBit, evenPass, bit, h]

theorem bit_lt (a : Bool) : bit a < 2 := by cases a <;> decide

theorem bit_testBit_zero (a : Bool) : (bit a).testBit 0 = a := by cases a <;> decide

theorem bits_lt (a b : Bool) : bit a + 2 * bit b < 4 := by cases a <;> cases b <;> decide

theorem bits_testBit_zero (a b : Bool) : (bit a + 2 * bit b).testBit 0 = a := by cases a <;> cases b <;> decide

theorem bits_testBit_one (a b : Bool) : (bit a + 2 * bit b).testBit 1 = b := by cases a <;> cases b <;> decide

/-! ### The entries (Tables 5.5 and 5.7) -/

/-- The bytes of a reply before its last one. -/
def replyFields (q d tick : Nat) (st : Status) : List Byte := le 4 q ++ le 4 d ++ le 6 tick ++ le 1 (statusCode st)

theorem replyFields_length (q d tick : Nat) (st : Status) : (replyFields q d tick st).length = 15 := by
  simp [replyFields]

/-- The bytes of a record before its last one. -/
def recordFields (typ ctx tick : Nat) (body : List Byte) : List Byte := le 1 typ ++ le 1 ctx ++ le 6 tick ++ padTo 23 body

theorem recordFields_length (typ ctx tick : Nat) (body : List Byte) : (recordFields typ ctx tick body).length = 31 := by
  simp [recordFields]

section
variable (m : Mach) (c : Nat) (port : m.host.stopped = false) (live : m.life.replay = false)
include port live

/-- R131: a reply is one write, to its place of the status ring. -/
theorem putReply_out (q d : Nat) (st : Status) (u irq : Bool) : (putReply c q d st u irq m).out = m.out ++
    [.hostWrite ((fnOf m c).statusBase * 4096 + 16 * ((fnOf m c).statusWritten % 2 ^ (fnOf m c).statusLog2))
      (replyFields q d m.tick.count st ++
        le 1 (bit (evenPass (fnOf m c).statusWritten (2 ^ (fnOf m c).statusLog2)) + 2 * bit u))] := by
  simp only [putReply, setEvt_out, modFn_out, send_out _ _ port live, ownBit_eq]
  rfl

/-- R131: a record is one write, to its place of the event ring. -/
theorem putRecord_out (typ ctx tick : Nat) (body : List Byte) : (putRecord c typ ctx tick body m).out = m.out ++
    [.hostWrite ((fnOf m c).evtBase * 4096 + 32 * ((fnOf m c).evtTail % 2 ^ (fnOf m c).evtLog2))
      (recordFields typ ctx tick body ++ le 1 (bit (evenPass (fnOf m c).evtTail (2 ^ (fnOf m c).evtLog2))))] := by
  simp only [putRecord, setEvt_out, modFn_out, send_out _ _ port live, ownBit_eq]
  rfl

end

/-! ### The statement -/

/-- Settles O59: each entry is its fields and a last byte, of OWN and, in a reply, of the ring that it answers. -/
theorem ringEntries : Obligations.RingEntries := by
  refine ⟨?reply, ?record⟩
  case reply =>
    rintro m c q d st u irq f a port live rfl rfl
    have len := replyFields_length q d m.tick.count st
    have last (own : Bool) := field_append_byte len ((bits_lt own u).trans (by decide))
    refine ⟨_, putReply_out m c port live q d st u irq, length_append_byte len _, by omega, take_append_byte len _, ?_, ?_, ?_⟩
    · rw [last, bits_testBit_zero, evenPass]
    · rw [last, bits_testBit_one]
    · rw [last]
      exact bits_lt ..
  case record =>
    rintro m c typ ctx tick body f a port live rfl - rfl
    have len := recordFields_length typ ctx tick body
    have last (own : Bool) := field_append_byte len ((bit_lt own).trans (by decide))
    refine ⟨_, putRecord_out m c port live typ ctx tick body, length_append_byte len _, by omega, take_append_byte len _, ?_, ?_⟩
    · rw [last, bit_testBit_zero, evenPass]
    · rw [last]
      exact bit_lt _

end Sys2Proof.Machine

/-! ## Nothing is undone

What no reset clears only goes on: each function that changes it either leaves alone what moves one way, or moves it on. -/

namespace Sys2Proof.Machine

/-! ### What moves one way -/

/-- The part of the flash tier that moves one way: its state and the blocks out of service. -/
def tierWay (f : FlashSt) : FlashState × List Nat := (f.state, f.retiredBlocks)

/-- What moves one way of all that no reset clears. -/
def oneWay (nv : Nv) : (FlashState × List Nat) × Nat × Nat × Nat × Nat :=
  (tierWay nv.flash, nv.leaves, nv.keyDraws, nv.epochDraws, nv.moduleSlot)

/-- Nothing is undone where what moves one way stands. -/
theorem onward_of_oneWay {a b : Nv} (h : oneWay b = oneWay a) : Onward a b := by
  simp only [oneWay, tierWay, Prod.mk.injEq] at h
  obtain ⟨⟨state, retired⟩, leaves, keys, epochs, slot⟩ := h
  exact ⟨by rw [state], by rw [retired]; exact fun _ => id, leaves.ge, keys.ge, epochs.ge, slot⟩

theorem Onward.refl (nv : Nv) : Onward nv nv := onward_of_oneWay rfl

theorem Onward.trans {a b c : Nv} (h : Onward a b) (k : Onward b c) : Onward a c where
  flash := h.flash.trans k.flash
  retired x hx := k.retired x (h.retired x hx)
  leaves := h.leaves.trans k.leaves
  keys := h.keys.trans k.keys
  epochs := h.epochs.trans k.epochs
  slot := k.slot.trans h.slot

/-- A sequence of steps none of which undoes anything undoes nothing. -/
theorem onward_foldl {α β : Type} (π : β → Nv) (f : β → α → β) (h : ∀ x a, Onward (π x) (π (f x a))) (l : List α) (x : β) :
    Onward (π x) (π (l.foldl f x)) := by
  induction l generalizing x with
  | nil => exact .refl _
  | cons a l ih => exact (h x a).trans (ih (f x a))

/-- A sequence of steps none of which touches what moves one way leaves it as it was. -/
theorem oneWay_foldl {α β : Type} (π : β → Nv) (f : β → α → β) (h : ∀ x a, oneWay (π (f x a)) = oneWay (π x)) (l : List α)
    (x : β) : oneWay (π (l.foldl f x)) = oneWay (π x) := by
  induction l generalizing x with
  | nil => rfl
  | cons a l ih => exact (ih (f x a)).trans (h x a)

/-- Of a pair only what no reset clears counts. -/
theorem onward_mk {nv a : Nv} {m : Mach} (h : Onward nv a) : Onward nv (a, m).1 := h

/-- A function of what no reset clears and the machine that undoes nothing. -/
def Forward (f : Nv → Mach → Nv × Mach) : Prop := ∀ nv m, Onward nv (f nv m).1

/-- Where neither branch undoes anything. -/
theorem onward_ite {c : Prop} [Decidable c] {nv : Nv} {x y : Nv × Mach} (h : Onward nv x.1) (k : Onward nv y.1) :
    Onward nv (if c then x else y).1 := by
  split
  · exact h
  · exact k

/-- One that changes the machine alone. -/
theorem forward_machine (f : Nv → Mach → Mach) : Forward fun nv m => (nv, f nv m) := fun nv _ => .refl nv

/-- One followed by a change of the machine alone. -/
theorem Forward.andMachine {f : Nv → Mach → Nv × Mach} (h : Forward f) (g : Nv → Mach → Mach) :
    Forward fun nv m => ((f nv m).1, g (f nv m).1 (f nv m).2) := h

/-! ### The flash tier (R186 to R192) -/

theorem oneWay_flash {nv : Nv} {f : FlashSt} (h : tierWay f = tierWay nv.flash) : oneWay { nv with flash := f } = oneWay nv := by
  simp only [oneWay, h]

@[simp] theorem tierWay_flashWrite (f : FlashSt) : tierWay (flashWrite f) = tierWay f := rfl
@[simp] theorem tierWay_flashRead (f : FlashSt) : tierWay (flashRead f) = tierWay f := rfl
@[simp] theorem tierWay_relocate (f : FlashSt) : tierWay (relocate f) = tierWay f := rfl

@[simp] theorem tierWay_flashPart (g : Page) (dest : Tier) (f : FlashSt) : tierWay (flashPart g dest f) = tierWay f := by
  simp only [flashPart]
  split <;> split <;> rfl

theorem tierWay_flashWrites (n : Nat) (f : FlashSt) : tierWay (flashWrites n f) = tierWay f := by
  induction n generalizing f with
  | zero => rfl
  | succ n ih => exact ih (flashWrite f)

theorem tierWay_flashReads (n : Nat) (f : FlashSt) (rs : List Nat) : tierWay (flashReads n f rs).1 = tierWay f := by
  induction n generalizing f rs with
  | zero => rfl
  | succ n ih => exact ih (flashRead f) _

/-- R192: folding the counts of a tick in touches nothing that moves one way. -/
theorem oneWay_foldFlash (r : Nv × Mach) : oneWay (foldFlash r).1 = oneWay r.1 := by
  simp only [foldFlash]
  split
  · rfl
  · exact oneWay_flash ((tierWay_flashReads ..).trans (tierWay_flashWrites ..))

/-- R190: the tier moves to a state that lies further down, or stays. -/
theorem forward_flashWorse (dest : FlashState) (channel : Nat) : Forward (flashWorse dest channel) := by
  intro nv m
  unfold flashWorse
  split
  · exact .refl nv
  · rename_i h
    have down : flashRank nv.flash.state < flashRank dest := by
      simp only [Bool.or_eq_true, decide_eq_true_eq, not_or, not_le] at h
      exact h.1
    exact ⟨down.le, fun _ => id, le_rfl, le_rfl, le_rfl, rfl⟩

theorem onward_flashSettles (r : Nv × Mach) : Onward r.1 (flashSettles r).1 :=
  (forward_flashWorse .warn 0xFF r.1 r.2).trans (forward_flashWorse .readOnly 0xFF _ _)

/-- R191: blocks join those out of service. -/
theorem forward_retire (bs : List Nat) : Forward (retire bs) := by
  intro nv m
  refine Onward.trans ?_ (onward_flashSettles _)
  exact ⟨le_rfl, fun _ => List.mem_append_right _, le_rfl, le_rfl, le_rfl, rfl⟩

/-- The same after a change of the tier that touches nothing that moves one way. -/
theorem onward_retire_flash {nv : Nv} {f : FlashSt} (h : tierWay f = tierWay nv.flash) (bs : List Nat) (m : Mach) :
    Onward nv (retire bs { nv with flash := f } m).1 :=
  (onward_of_oneWay (oneWay_flash h)).trans (forward_retire bs _ m)

theorem forward_eraseBlock : Forward eraseBlock := by
  intro nv m
  refine Onward.trans ?_ (onward_flashSettles _)
  exact onward_of_oneWay (oneWay_flash rfl)

theorem forward_migrationCommit (t n : Nat) (errs : List (Nat × Nat)) : Forward (migrationCommit t n errs) := by
  intro nv m
  unfold migrationCommit
  split
  · exact .refl nv
  · split
    · exact .refl nv
    · exact onward_ite (.refl nv) (onward_ite (.refl nv) (onward_ite (.refl nv)
        (onward_of_oneWay (oneWay_flash (tierWay_flashPart ..)))))

/-! ### Stored data (R194 to R212) -/

theorem oneWay_candidate (s : Store) (loc : Nat) (nv : Nv) (m : Mach) : oneWay (candidate s loc nv m).1 = oneWay nv := by
  simp only [candidate]
  split <;> rfl

theorem oneWay_candidates (s : Store) (locs : List Nat) (nv : Nv) (m : Mach) : oneWay (candidates s locs nv m).1 = oneWay nv :=
  oneWay_foldl Prod.fst _ (fun x l => oneWay_candidate s l x.1 x.2) locs (nv, m)

/-- R192: an uncorrectable detection is only counted. -/
theorem oneWay_detected (s : Store) (w : Reader) (loc view : Nat) (nv : Nv) (m : Mach) :
    oneWay (detected s w loc view nv m).1 = oneWay nv := by
  cases s <;> rfl

/-- A detection whose location joins the repair log. -/
theorem oneWay_candidate_detected (s s' : Store) (w : Reader) (loc view loc' : Nat) (nv : Nv) (m m' : Mach) :
    oneWay (candidate s' loc' (detected s w loc view nv m).1 m').1 = oneWay nv :=
  (oneWay_candidate ..).trans (oneWay_detected ..)

theorem forward_sliceRead (w : Reader) (loc view : Nat) (e : ErrPat) : Forward (sliceRead w loc view e) := fun nv _ =>
  onward_ite (onward_ite (.refl nv) (.refl nv)) (onward_ite (.refl nv) (onward_ite (.refl nv)
    (onward_of_oneWay (oneWay_candidate_detected ..))))

theorem forward_hbmRead (w : Reader) (loc view : Nat) (e : ErrPat) : Forward (hbmRead w loc view e) := by
  intro nv m
  refine onward_ite (.refl nv) ?_
  dsimp only
  split
  · exact .refl nv
  · exact .refl nv
  · exact onward_of_oneWay (oneWay_candidate_detected ..)

/-- R189: an uncorrectable flash read retires its block. -/
theorem forward_flashFails (w : Reader) (loc view : Nat) : Forward (flashFails w loc view) := by
  intro nv m
  have counted (m : Mach) : Onward nv (detected .flash w loc view
      { nv with flash := { nv.flash with retried := bump 32 1 nv.flash.retried } } m).1 :=
    onward_of_oneWay (oneWay_detected .flash w loc view _ m)
  simp only [flashFails]
  exact onward_ite (counted _) ((counted _).trans (onward_retire_flash (tierWay_relocate _) _ _))

theorem forward_uncorrRead (s : Store) (w : Reader) (loc view : Nat) (e : ErrPat) : Forward (uncorrRead s w loc view e) := by
  intro nv m
  cases s with
  | slice => exact forward_sliceRead w loc view e nv m
  | hbm => exact forward_hbmRead w loc view e nv m
  | flash => exact forward_flashFails w loc view nv m
  | lpddr => exact onward_ite (.refl nv) (onward_of_oneWay (oneWay_detected .lpddr w loc view nv m))
  | datapath => exact onward_of_oneWay (oneWay_detected ..)

theorem forward_sramScrub (flips : List (Nat × Nat)) : Forward (sramScrub flips) := fun _ _ =>
  onward_of_oneWay ((oneWay_candidates ..).trans (oneWay_candidates ..))

theorem forward_hbmScrub (hits : List HbmHit) : Forward (hbmScrub hits) := fun _ _ =>
  onward_of_oneWay ((oneWay_candidates ..).trans (oneWay_candidates ..))

theorem forward_remapDone (c : Nat) : Forward (remapDone c) := fun _ _ => onward_of_oneWay rfl

theorem forward_caReissue (w : Reader) (cmd loc view : Nat) (ok : Bool) : Forward (caReissue w cmd loc view ok) := fun nv _ =>
  onward_ite (.refl nv) (onward_of_oneWay (oneWay_candidate_detected ..))

/-! ### Keys and epochs (R148, R163, R355) -/

theorem forward_drawKey (i : Nat) : Forward (drawKey i) := fun _ _ =>
  ⟨le_rfl, fun _ => id, le_rfl, Nat.le_succ _, le_rfl, rfl⟩

theorem forward_drawKeys (is : List Nat) : Forward (drawKeys is) := fun nv m =>
  onward_foldl Prod.fst _ (fun x i => forward_drawKey i x.1 x.2) is (nv, m)

theorem forward_cryptoEraseDone (seq : Nat) : Forward (cryptoEraseDone seq) := by
  intro nv m
  simp only [cryptoEraseDone]
  split
  · exact .refl nv
  · split
    · exact .refl nv
    · exact forward_drawKeys _ nv m

theorem forward_announceReady : Forward announceReady := fun nv _ =>
  onward_ite ⟨le_rfl, fun _ => id, le_rfl, le_rfl, Nat.le_succ _, rfl⟩ (.refl nv)

/-! ### Shards and shutdowns (R383, R480) -/

theorem oneWay_takeChunk (t : Nat) (s : Shard) (bs : List Byte) (nv : Nv) (m : Mach) :
    oneWay (takeChunk t s bs nv m).1 = oneWay nv := by
  simp only [takeChunk]
  split <;> rfl

theorem forward_processChunk (t slot shard : Nat) (data : List Byte) (abandoned readFailed : Bool) :
    Forward (processChunk t slot shard data abandoned readFailed) := by
  intro nv m
  have taken (s : Shard) (bs : List Byte) (m : Mach) : Onward nv (takeChunk t s bs nv m).1 :=
    onward_of_oneWay (oneWay_takeChunk ..)
  unfold processChunk
  split
  · exact .refl nv
  · refine onward_ite (.refl nv) (onward_ite (onward_ite (.refl nv) (onward_ite (taken ..) (.refl nv)))
      (onward_ite (.refl nv) (onward_ite (.refl nv) ?_)))
    split
    · exact taken ..
    · exact .refl nv
    · exact .refl nv

theorem forward_supplyShutdown (cause : Nat) : Forward (supplyShutdown cause) := by
  intro nv m
  simp only [supplyShutdown]
  split
  · exact .refl nv
  · apply onward_of_oneWay
    split <;> split <;> rfl

/-! ### Firmware and attestation (R441 to R455) -/

@[simp] theorem oneWay_modBank (b : Nat) (f : FwBank → FwBank) (nv : Nv) : oneWay (modBank b f nv) = oneWay nv := by
  simp only [modBank]
  split <;> rfl

theorem oneWay_commitBank (b : Nat) (nv : Nv) : oneWay (commitBank b nv) = oneWay nv := by
  simp only [commitBank]
  split
  · exact oneWay_modBank ..
  · exact oneWay_modBank ..
  · exact oneWay_modBank ..

theorem oneWay_passTrial (b : Nat) (nv : Nv) : oneWay (passTrial b nv) = oneWay nv :=
  (oneWay_modBank b _ _).trans (oneWay_modBank ..)

theorem forward_beginUpdate (tray : Bool) (length b : Nat) : Forward (beginUpdate tray length b) := fun _ _ =>
  onward_of_oneWay (oneWay_modBank ..)

theorem forward_abandonUpdate : Forward abandonUpdate := fun _ _ => onward_of_oneWay (oneWay_modBank ..)

theorem forward_programBytes (bs : List Byte) : Forward (programBytes bs) := fun _ _ => onward_of_oneWay (oneWay_modBank ..)

theorem forward_fwDataProgrammed : Forward fwDataProgrammed := by
  intro nv m
  unfold fwDataProgrammed
  split
  · rename_i bs _ _
    dsimp only
    split <;> exact onward_ite (forward_programBytes bs nv _) (.refl nv)
  · exact .refl nv

theorem forward_fwCommitDone : Forward fwCommitDone := by
  intro nv m
  simp only [fwCommitDone]
  split
  · exact .refl nv
  · split <;> exact onward_of_oneWay (oneWay_commitBank ..)

theorem forward_actFwBlock (seq op arg : Nat) (data : List Byte) : Forward (actFwBlock seq op arg data) := by
  intro nv m
  unfold actFwBlock
  split
  · split
    · exact .refl nv
    · exact onward_ite (.refl nv) (onward_ite (onward_mk (forward_beginUpdate true arg _ nv m)) (.refl nv))
  · exact onward_ite (.refl nv) (.refl nv)
  · exact onward_ite (onward_mk (forward_abandonUpdate nv m)) (.refl nv)
  · exact onward_ite (.refl nv) (.refl nv)

theorem forward_actRecovery (seq op arg : Nat) (data : List Byte) : Forward (actRecovery seq op arg data) := by
  intro nv m
  unfold actRecovery
  split
  · exact onward_ite (onward_of_oneWay (oneWay_modBank ..)) (.refl nv)
  · exact onward_ite (onward_mk (forward_programBytes data nv m)) (.refl nv)
  · exact onward_ite (onward_of_oneWay (oneWay_modBank ..)) (.refl nv)
  · exact onward_ite (.refl nv) (onward_ite
      (onward_of_oneWay ((oneWay_modBank ..).trans (oneWay_commitBank ..))) (onward_of_oneWay (oneWay_commitBank ..)))

/-- R455: leaves are only taken. -/
theorem forward_startAttest (h : Hdr) (nonce : List Byte) (out : Nat) : Forward (startAttest h nonce out) := by
  intro nv m
  refine onward_ite (.refl nv) (onward_ite (.refl nv) (onward_mk ?_))
  split
  · exact ⟨le_rfl, fun _ => id, Nat.le_add_right .., le_rfl, le_rfl, rfl⟩
  · exact .refl nv

/-! ### Booting (R207 to R209, R442, R445) -/

theorem oneWay_interrupted (b : Nat) (x : Nv × List (Nat × Nat × Nat)) : oneWay (interrupted b x).1 = oneWay x.1 := by
  simp only [interrupted]
  split
  · exact oneWay_modBank ..
  · rfl

theorem oneWay_tryBank (b : Nat) (x : Nv × List (Nat × Nat × Nat)) : oneWay (tryBank b x).2.1 = oneWay x.1 := by
  simp only [tryBank]
  split
  · rfl
  · split
    · exact oneWay_modBank ..
    · split
      · exact oneWay_modBank ..
      · rfl

theorem oneWay_chooseBank (nv : Nv) : oneWay (chooseBank nv).2.1 = oneWay nv := by
  have first (b : Nat) : oneWay (tryBank b (interrupted 1 (interrupted 0 (nv, [])))).2.1 = oneWay nv :=
    (oneWay_tryBank ..).trans ((oneWay_interrupted ..).trans (oneWay_interrupted ..))
  simp only [chooseBank]
  split
  · exact first _
  · split <;> exact (oneWay_tryBank ..).trans (first _)

theorem forward_bootBankSelect (turnip : Nat) (ws : List Nat) : Forward (bootBankSelect turnip ws) := by
  intro nv m
  refine onward_ite (.refl nv) (onward_ite (.refl nv) ?_)
  dsimp only
  split <;> exact onward_of_oneWay (oneWay_chooseBank nv)

theorem oneWay_fuseLine (line : Nat) (nv : Nv) : oneWay (fuseLine line nv) = oneWay nv := by
  simp only [fuseLine]
  split
  · rfl
  · split <;> rfl

theorem oneWay_repairRow (row : Nat) (nv : Nv) : oneWay (repairRow row nv) = oneWay nv := by
  simp only [repairRow]
  split <;> rfl

theorem oneWay_applyRepairs (lpFail : List Nat) (nv : Nv) (m : Mach) : oneWay (applyRepairs lpFail nv m).1 = oneWay nv :=
  (oneWay_foldl id _ (fun x r => oneWay_repairRow r x) (loggedOf .hbm nv) _).trans
    (oneWay_foldl id _ (fun x l => oneWay_fuseLine l x) (loggedOf .slice nv) nv)

theorem forward_memoryInitDone (ok : Bool) (lpFail : List Nat) : Forward (memoryInitDone ok lpFail) := fun nv m =>
  onward_ite (.refl nv) (onward_ite (.refl nv)
    (onward_mk (onward_ite (.refl nv) (onward_of_oneWay (oneWay_applyRepairs lpFail nv m)))))

theorem forward_moduleReady : Forward moduleReady := fun nv _ =>
  onward_ite (.refl nv) (onward_of_oneWay (oneWay_passTrial ..))

/-! ### Requests stopped (R135, R156, R430) -/

theorem forward_stopRequest (r : Req) (by_ : Nat) : Forward (stopRequest r by_) := by
  intro nv m
  simp only [stopRequest]
  split
  · split <;> exact .refl nv
  · exact .refl nv
  · exact .refl nv
  · exact .refl nv
  · exact forward_abandonUpdate ..
  · exact .refl nv
  · exact .refl nv

theorem forward_stopAll (c by_ : Nat) (q : Req → Bool) : Forward (stopAll c by_ q) := fun nv m =>
  onward_foldl Prod.fst _ (fun x r => forward_stopRequest r by_ x.1 x.2) _ (nv, m)

theorem forward_actAbort (h : Hdr) (target : Nat) : Forward (actAbort h target) := by
  intro nv m
  unfold actAbort
  dsimp only
  split
  · exact .refl nv
  · exact .refl nv
  · split
    · rename_i r _
      have stopped (m : Mach) : Onward nv (stopRequest r h.seq nv m).1 := forward_stopRequest r h.seq nv m
      exact onward_ite (.refl nv) (onward_ite (.refl nv) (onward_ite (.refl nv)
        (onward_ite (onward_mk (stopped m)) (stopped _))))
    · exact onward_ite (.refl nv) (.refl nv)

theorem forward_actFlr (c : Nat) : Forward (actFlr c) := fun nv _ => onward_ite (forward_stopAll c 0 _ nv _) (.refl nv)

/-! ### Packets (R139, R140) -/

/-- R159: keys are drawn for a tenancy that is made. -/
theorem forward_tenCreate (h : Hdr) (t keys ftid : Nat) : Forward (pktTenCreate h t keys ftid).eff := by
  intro nv m
  simp only [pktTenCreate]
  split
  · exact .refl nv
  · exact forward_drawKeys _ nv m

theorem forward_fwBankBegin (h : Hdr) (length : Nat) : Forward (pktFwBankBegin h length).eff := by
  intro nv m
  simp only [pktFwBankBegin]
  split
  · exact .refl nv
  · exact forward_beginUpdate false length _ nv m

theorem forward_captureStart (h : Hdr) (fill boot : Bool) (linkGb triggers post : Nat) :
    Forward (pktCaptureStart h fill boot linkGb triggers post).eff := by
  intro nv m
  cases boot <;> exact onward_of_oneWay rfl

theorem forward_captureStop (h : Hdr) (disarm atFlag : Bool) (atTick : Nat) :
    Forward (pktCaptureStop h disarm atFlag atTick).eff := by
  intro nv m
  cases disarm <;> exact onward_of_oneWay rfl

/-- What a command's packet changes; nothing where it has none. -/
def effOf (i : Instr) : Nv → Mach → Nv × Mach := (packetOf i).elim (fun nv m => (nv, m)) (·.eff)

/-- No host opcode undoes anything: seven change what no reset clears, every other one the machine alone. -/
theorem forward_effOf (i : Instr) : Forward (effOf i) := by
  cases i with
  | tenCreate h t keys ftid => exact forward_tenCreate h t keys ftid
  | fwBankBegin h length => exact forward_fwBankBegin h length
  | fwBankAbandon => exact fun nv m => forward_abandonUpdate nv m
  | attest h nonce out => exact forward_startAttest h nonce out
  | captureStart h fill boot linkGb triggers post => exact forward_captureStart h fill boot linkGb triggers post
  | captureStop h disarm atFlag atTick => exact forward_captureStop h disarm atFlag atTick
  | abort h target => exact forward_actAbort h target
  | ctxClose h c => exact fun nv m => forward_stopAll c h.seq _ nv _
  | _ => exact forward_machine _

theorem forward_packetOf {i : Instr} {p : Packet} (h : packetOf i = some p) : Forward p.eff := by
  have forward := forward_effOf i
  rwa [effOf, h] at forward

section
variable {p : Packet} (forward : Forward p.eff)
include forward

theorem forward_actOn : Forward (actOn p) := by
  intro nv m
  unfold actOn
  split
  · exact .refl nv
  · exact forward nv m

theorem forward_takePacket : Forward (takePacket p) := by
  intro nv m
  unfold takePacket
  split
  · exact .refl nv
  · exact forward_actOn forward nv _

theorem forward_servePacket : Forward (servePacket p) := by
  intro nv m
  refine onward_ite (.refl nv) (onward_ite (.refl nv) ?_)
  dsimp only
  exact forward_takePacket forward nv _

theorem forward_actPacket (i : Instr) (fetched : Bool) : Forward fun nv m => actPacket i p fetched (nv, m) := by
  intro nv m
  simp only [actPacket]
  split
  · exact forward_actOn forward nv m
  · split <;> exact .refl nv

end

/-! ### Rings and messages at a boundary (R44, R45) -/

/-- The packet that operands spell undoes nothing. -/
theorem forward_ofOperands {o : Option Instr} {i : Instr} {p : Packet}
    (h : (o.bind fun i => (packetOf i).map fun p => (i, p)) = some (i, p)) : Forward p.eff := by
  obtain ⟨j, -, hj⟩ := Option.bind_eq_some_iff.1 h
  obtain ⟨q, hq, e⟩ := Option.map_eq_some_iff.1 hj
  cases e
  exact forward_packetOf hq

theorem onward_takeChecked (c : Nat) (urgent : Bool) (bs : List Byte) (x : Nv × Mach) :
    Onward x.1 (takeChecked c urgent bs x).1 := by
  simp only [takeChecked]
  split
  · exact .refl x.1
  · split
    · exact .refl x.1
    · rename_i i p spelt
      exact forward_actPacket (forward_ofOperands spelt) i false x.1 _

theorem forward_serveRing (c : Nat) (urgent : Bool) (fuel k : Nat) : Forward fun nv m => serveRing c urgent fuel k (nv, m) := by
  intro nv m
  induction fuel generalizing k nv m with
  | zero => exact .refl nv
  | succ fuel ih =>
    simp only [serveRing]
    split
    · exact .refl nv
    · refine onward_ite (.refl nv) (onward_ite (.refl nv) (onward_ite (ih k nv _) (onward_ite (.refl nv) ?_)))
      have taken (bs : List Byte) : Onward nv (takeChecked c urgent bs (nv, m)).1 := onward_takeChecked c urgent bs (nv, m)
      exact onward_ite (taken _) ((taken _).trans (ih ..))

theorem onward_serveFetched (c : Nat) (x : Nv × Mach) : Onward x.1 (serveFetched c x).1 := by
  simp only [serveFetched]
  split
  · exact .refl x.1
  · split
    · exact .refl x.1
    · split
      · rename_i i p spelt
        exact forward_actPacket (forward_ofOperands spelt) i true x.1 _
      · exact .refl x.1
    · exact .refl x.1

theorem onward_serveCtx (c : Nat) (x : Nv × Mach) : Onward x.1 (serveCtx c x).1 := by
  simp only [serveCtx]
  split
  · exact .refl x.1
  · have fetched := onward_serveFetched c (x.1, resolveManifests c (resolveLoad c x.2))
    split
    · exact fetched
    · exact fetched.trans (forward_serveRing c false 257 _ _ _)

theorem forward_serveRings : Forward fun nv m => serveRings (nv, m) := by
  intro nv m
  unfold serveRings
  exact onward_mk (onward_foldl Prod.fst _ (fun x c => onward_serveCtx c x) _ (nv, m))

theorem onward_classSix (x : Nv × Mach) : Onward x.1 (classSix x).1 := by
  unfold classSix
  exact onward_mk (onward_foldl Prod.fst _
    (fun x c => (forward_actFlr c x.1 x.2).trans (forward_serveRing c true 257 257 _ _)) _ x)

theorem onward_actTray (t : TrayMsg) (x : Nv × Mach) : Onward x.1 (actTray t x).1 := by
  simp only [actTray]
  split
  · exact .refl x.1
  · cases t with
    | fwBlock q op a d => exact forward_actFwBlock q op a d x.1 x.2
    | _ => exact .refl x.1

theorem onward_classSeven (x : Nv × Mach) : Onward x.1 (classSeven x).1 := by
  unfold classSeven
  refine onward_ite (.refl x.1) (onward_mk ?_)
  exact (onward_foldl Prod.fst _ (fun x t => onward_actTray t x) (trayMsgs x.2 7) x).trans (forward_serveRings _ _)

theorem forward_boundaryWork (ran19 : Bool) : Forward (boundaryWork ran19) := by
  intro nv m
  unfold boundaryWork
  refine onward_ite (.refl nv) (onward_mk ?_)
  refine Onward.trans ?_ (forward_announceReady _ _)
  refine Onward.trans ?_ (onward_classSeven _)
  refine Onward.trans ?_ (forward_moduleReady _ _)
  exact onward_classSix (nv, _)

theorem forward_boundary : Forward boundary := by
  intro nv m
  refine onward_ite (onward_of_oneWay (oneWay_foldFlash (nv, _))) ?_
  refine Onward.trans ?_ (onward_of_oneWay (oneWay_foldFlash _))
  exact onward_ite (.refl nv) (forward_boundaryWork _ nv _)

theorem forward_tickBoundary : Forward tickBoundary := fun nv m => onward_ite (forward_boundary nv m) (.refl nv)

theorem forward_replayBoundary (completionsDone recordBad : Bool) (diverge : Nat) :
    Forward (replayBoundary completionsDone recordBad diverge) := fun nv m =>
  onward_ite (.refl nv) (onward_ite (.refl nv) (onward_ite (.refl nv)
    (onward_ite (onward_mk (forward_boundary nv m)) (.refl nv))))

/-- R443: a message acts on arrival only where it is for the boot engine. -/
theorem forward_receiveMsg (t : TrayMsg) : Forward (receiveMsg t) := by
  intro nv m
  refine onward_ite (.refl nv) (onward_ite (.refl nv) ?_)
  dsimp only
  split
  · exact forward_actRecovery ..
  · exact .refl nv

/-! ### Commands -/

/-- A next state of which nothing that no reset clears has been undone. -/
def GoesOn (s : State) (o : Host.Outcome State Fault Refusal) : Prop := ∃ t, o = .next t ∧ Onward s.nv t.nv

theorem goesOn_forward {f : Nv → Mach → Nv × Mach} (h : Forward f) (s : State) :
    GoesOn s (.next { s with nv := (f s.nv s.m).1, m := (f s.nv s.m).2 }) := ⟨_, rfl, h s.nv s.m⟩

theorem goesOn_withM (s : State) (m : Mach) : GoesOn s (.next (withM s m)) := ⟨_, rfl, .refl s.nv⟩

theorem goesOn_whileUp (s : State) (m : Mach) : GoesOn s (if isUp s.m then .next (withM s m) else .next s) := by
  split <;> exact goesOn_withM ..

theorem goesOn_onNv {f : Nv → Mach → Nv × Mach} (h : Forward f) (s : State) : GoesOn s (onNv f s) := by
  unfold onNv
  split
  · exact goesOn_forward h s
  · exact goesOn_withM ..

theorem goesOn_nvBoundary {f : Nv → Mach → Nv × Mach} (h : Forward f) (s : State) : GoesOn s (nvBoundary f s) :=
  goesOn_onNv (h.andMachine fun _ => endWrites) s

theorem goesOn_onFlash {f : FlashSt → FlashSt} (h : ∀ x, tierWay (f x) = tierWay x) (s : State) : GoesOn s (onFlash f s) :=
  goesOn_onNv (fun _ _ => onward_of_oneWay (oneWay_flash (h _))) s

theorem goesOn_retentionScan (block : Nat) (limit : Bool) (s : State) : GoesOn s (execFlashRetentionScan block limit s) :=
  goesOn_onFlash (fun x => by split <;> rfl) s

theorem goesOn_freeBlockCollect (erase : BlockErase) (s : State) : GoesOn s (execFlashFreeBlockCollect erase s) :=
  goesOn_onNv (fun nv m => onward_ite (.refl nv) (onward_ite (forward_retire _ nv m) (forward_eraseBlock nv m))) s

theorem goesOn_dieLoss (channel blocks : Nat) (covered : Bool) (s : State) :
    GoesOn s (execFlashDieLoss channel blocks covered s) := by
  refine goesOn_onNv (fun nv m => onward_ite (onward_retire_flash ?_ _ m) (forward_flashWorse .offline channel nv m)) s
  rfl

theorem goesOn_disturbRelocate (block : Nat) (s : State) : GoesOn s (execFlashReadDisturbRelocate block s) :=
  goesOn_onFlash (fun x => by split <;> rfl) s

/-- A command without a packet. -/
theorem goesOn_noPacket (c : Instr) (s : State) : GoesOn s ((packetOf c).elim (exec c s) fun _ => .next s) := by
  cases c with
  | stepOpen | slotDrain | ctxCloseComplete | expertRoundDeadline | collRoundDeadline | shardInstallFinalize
  | shardUpstreamTimeout | shardBackgroundVerify | groupJoinTimeout | attestSignDone | leaseExpiry | energyCalibration
  | podGate | unitCut | move | moveComplete | collect | returnAnswer | exchangeRoundStart | queueHeaderReceive
  | queueReturnHeaders | gatherReturnHeader | collHeaderReceive | promotionStart | stallLimitExpiry | kvFlashDemote
  | lpVerifyPass | lpLinkRetry | datapathParityReplay | fatom | fabricRequestIssue | fabricRequestReceive
  | fabricCompletionReceive | fabricTimeout | fabricNotReadyRetry | fabricNotReadyExpiry | noticeReceive =>
    exact goesOn_whileUp ..
  | tickBoundary => exact goesOn_forward forward_tickBoundary s
  | replayBoundary done bad diverge => exact goesOn_forward (forward_replayBoundary done bad diverge) s
  | shardChunkProcess t slot shard data abandoned failed =>
    exact goesOn_onNv ((forward_processChunk t slot shard data abandoned failed).andMachine fun nv => settleAll nv.flash.state) s
  | migrationCommit t page errs => exact goesOn_onNv (forward_migrationCommit t page errs) s
  | sramScrubPass bytes bits => exact goesOn_onNv (forward_sramScrub _) s
  | hbmScrubPass units errs written => exact goesOn_onNv (forward_hbmScrub _) s
  | uncorrectableRead store who place err => exact goesOn_onNv (forward_uncorrRead store who _ _ err) s
  | hbmCaParityReissue cmd ok => exact goesOn_onNv (forward_caReissue _ _ _ _ ok) s
  | rowRemapCopyDone controller => exact goesOn_onNv (forward_remapDone controller) s
  | flashFreeBlockCollect erase => exact goesOn_freeBlockCollect erase s
  | flashProgramFail block => exact goesOn_onNv (fun _ m => onward_retire_flash (tierWay_relocate _) _ m) s
  | flashStateChange dest channel => exact goesOn_onNv (forward_flashWorse dest channel) s
  | flashDieLoss channel blocks covered => exact goesOn_dieLoss channel blocks covered s
  | flashRetentionScan block limit => exact goesOn_retentionScan block limit s
  | flashReadDisturbRelocate block => exact goesOn_disturbRelocate block s
  | rebindCryptoEraseDone q => exact goesOn_onNv (forward_cryptoEraseDone q) s
  | fwDataProgrammed => exact goesOn_nvBoundary forward_fwDataProgrammed s
  | fwCommitCheckDone => exact goesOn_nvBoundary forward_fwCommitDone s
  | fabricReadyAnnounce => exact goesOn_nvBoundary forward_announceReady s
  | moduleReady => exact goesOn_nvBoundary forward_moduleReady s
  | supplyShutdown cause => exact goesOn_forward (forward_supplyShutdown cause) s
  | bootBankSelect turnip ws => exact goesOn_forward (forward_bootBankSelect turnip ws) s
  | memoryInitDone test => exact goesOn_forward (forward_memoryInitDone _ _) s
  | i3cLease | i3cResetCold | i3cResetWarm | i3cNode | i3cCoolant | i3cAlarm | i3cPlanBlock | i3cFwBlockBegin
  | i3cFwBlockData | i3cFwBlockAbandon | i3cFwBlockCommit | i3cRecovery => exact goesOn_forward (forward_receiveMsg _) s
  | _ => exact goesOn_withM ..

theorem exec_goesOn (c : Instr) (s : State) : GoesOn s (exec c s) := by
  rcases h : packetOf c with _ | p
  · simpa [h] using goesOn_noPacket c s
  · rw [exec_packetOf h]
    exact goesOn_forward (forward_servePacket (forward_packetOf h)) s

/-- Settles O54, by the command at the front of the queue. -/
theorem nothingIsUndone : Obligations.NothingIsUndone := by
  intro s t h
  unfold step at h
  split at h
  · cases h
    exact .refl _
  · obtain ⟨_, next, onward⟩ := exec_goesOn _ _
    cases next.symm.trans h
    exact onward

end Sys2Proof.Machine

/-! ## The tenancy opcodes

What each of the opcodes that make tenancies, contexts and grants changes once it is acted on. -/

namespace Sys2Proof.Machine

/-! ### What replies are written by stands -/

theorem sameDesk_modPwr (f : PwrSt → PwrSt) (m : Mach) : SameDesk m (modPwr f m) := ⟨rfl, rfl, rfl, rfl, rfl, rfl⟩

/-- R146, R166: a change of the tenancies. -/
theorem sameDesk_ten (x : TenSt) (m : Mach) : SameDesk m { m with ten := x } := ⟨rfl, rfl, rfl, rfl, rfl, rfl⟩

/-! ### TEN_CREATE (R159) -/

section
variable {s : State} {h : Hdr} {t keys ftid : Nat}

/-- With key slots enough, keys are drawn for the first free ones and the tenancy stands. -/
theorem tenCreate_eff_made (m : Mach) (nv : Nv) (room : keys ≤ (freeKeySlots m).length) :
    (pktTenCreate h t keys ftid).eff nv m =
      ((drawKeys ((freeKeySlots m).take keys) nv m).1,
        reply h .ok 0 (tenancyDone 1 h.seq t 0xFF 0 0 0
          (modPwr (fun x => { x with calTen := alDel t x.calTen
                                     calClosed := x.calClosed.map fun y => if y.2.1 = t then (y.1, 48, y.2.2) else y })
            (modTen t (fun _ => { live := true, ftid, keys := ((freeKeySlots m).take keys).map fun i => { slot := i } })
              (drawKeys ((freeKeySlots m).take keys) nv m).2)))) := by
  simp only [pktTenCreate, if_neg (Nat.not_lt.2 room)]

/-- Without, it changes nothing. -/
theorem tenCreate_eff_noSpace (m : Mach) (nv : Nv) (short : (freeKeySlots m).length < keys) :
    (pktTenCreate h t keys ftid).eff nv m = (nv, reply h .noSpace 1 m) := by
  simp only [pktTenCreate, if_pos short]

end

/-! ### The statement -/

/-- Settles O3: each packet's effect is its table's change and its own reply. -/
theorem tenancyOpcodesAnswer : Obligations.TenancyOpcodesAnswer := by
  refine ⟨?made, ?noSpace, ?opened, ?share, ?grant⟩
  case made =>
    intro s h t keys ftid act room
    exact runPacket_replied _ s act .ok 0 _ (tenCreate_eff_made (taken _ s) s.nv room)
  case noSpace =>
    intro s h t keys ftid act short
    exact answers _ s act id .noSpace 1 (.refl _) (tenCreate_eff_noSpace (taken _ s) s.nv short)
  case opened =>
    intro s h c t expert key act
    exact answers _ s act _ .ok 0 ((sameDesk_modPwr ..).trans (sameDesk_modCtx ..)) rfl
  case share =>
    intro s h c share act
    exact answers _ s act _ .ok 0 (sameDesk_modCtx ..) rfl
  case grant =>
    intro s h g act
    exact answers _ s act _ .ok 0 (sameDesk_ten ..) rfl

end Sys2Proof.Machine

/-! ## Rebinds and closes begin

What a rebind changes as it joins the pending ones, and a close as it begins; the writing that follows touches none of it. -/

namespace Sys2Proof.Machine

/-! ### Packets acted on, and what is written after them -/

theorem ite_some_eq_none {α : Type} {c : Prop} [Decidable c] {a : α} {x : Option α} :
    (if c then some a else x) = none ↔ ¬c ∧ x = none := by
  split <;> simp [*]

/-- R139: what a packet is that fails no check. -/
theorem firstFail_none {nv : Nv} {m : Mach} {p : Packet} (h : firstFail nv m p = none) :
    permitted m p.info p.hdr.ctx = true ∧ p.ok nv m = true := by
  simp only [firstFail, ite_some_eq_none] at h
  obtain ⟨-, allowed, ranges, -⟩ := h
  exact ⟨by simpa using allowed, by simpa using ranges⟩

/-- A packet that is acted on is in range. -/
theorem Acts.ok {p : Packet} {s : State} (h : Acts p s) : p.ok s.nv (passPacket p.hdr.ctx p.info.urgent s.m) = true :=
  (firstFail_none h.checks).2

/-- R127: one that only context 0 may issue came from it. -/
theorem Acts.zero {p : Packet} {s : State} (h : Acts p s) (only : p.info.zeroOnly = true) : p.hdr.ctx = 0 := by
  have allowed := (firstFail_none h.checks).1
  simp only [permitted, only, Bool.not_true, Bool.false_or, Bool.and_eq_true, beq_iff_eq] at allowed
  exact allowed.1

theorem peaOf_congr {a b : Mach} (peas : b.peas = a.peas) (i : Nat) : peaOf b i = peaOf a i := by
  rw [peaOf, peaOf, peas]

theorem tenOf_congr {a b : Mach} (ten : b.ten = a.ten) (t : Nat) : tenOf b t = tenOf a t := by
  rw [tenOf, tenOf, ten]

theorem findReq_congr {a b : Mach} (reqs : b.reqs = a.reqs) (c : Nat) (u : Bool) (q : Nat) : findReq b c u q = findReq a c u q := by
  rw [findReq, findReq, reqs]

/-- A packet acted on leaves what its effect left, apart from what the writing that follows changes. -/
theorem runPacket_quiet {p : Packet} {s : State} (h : Acts p s) {nv : Nv} {m : Mach} (e : p.eff s.nv (taken p s) = (nv, m)) :
    ∃ t, runPacket p s = .next t ∧ t.pending = s.pending ∧ t.nv = nv ∧ quiet t.m = quiet m := by
  refine ⟨_, runPacket_acted p s h _ e, rfl, rfl, ?_⟩
  simp only [acted, quiet_endWrites]

/-- The reply of a packet is owed while its effect leaves the requests alone. -/
theorem findReq_owed {p : Packet} {s : State} (h : Acts p s) {m : Mach} (reqs : m.reqs = (taken p s).reqs) :
    (findReq m p.hdr.ctx p.info.urgent p.hdr.seq).isSome = true := by
  rw [findReq_congr reqs, findReq_taken p s h, Option.isSome_some]

theorem ctxOf_quiet (m : Mach) (j : Nat) : ctxOf (quiet m) j = quietCtx (ctxOf m j) := by
  simp only [ctxOf, quiet, List.getElem?_map]
  cases m.ctxs[j]? <;> rfl

/-- The writing that follows a packet changes a context's lost and due records alone. -/
theorem ctxOf_ofQuiet {α : Type} (π : Ctx → α) (h : ∀ x, π (quietCtx x) = π x) {a b : Mach} (same : quiet b = quiet a) (j : Nat) :
    π (ctxOf b j) = π (ctxOf a j) := by
  rw [← h, ← ctxOf_quiet, same, ctxOf_quiet, h]

/-! ### Masks -/

theorem mem_bitsBelow {n mask i : Nat} : i ∈ bitsBelow n mask ↔ i < n ∧ mask.testBit i = true := by
  simp [bitsBelow]

theorem maskOf_append (is : List Nat) (n : Nat) : maskOf (is ++ [n]) = 2 ^ n + maskOf is := by
  simp [maskOf, Nat.add_comm]

/-- The mask of the numbers below a bound that meet a condition lies below that bound's bit, and has just their bits. -/
theorem maskOf_filter_range (p : Nat → Bool) (n : Nat) :
    maskOf ((List.range n).filter p) < 2 ^ n ∧ ∀ i < n, (maskOf ((List.range n).filter p)).testBit i = p i := by
  induction n with
  | zero => exact ⟨Nat.one_pos, fun i none => absurd none (Nat.not_lt_zero i)⟩
  | succ n ih =>
    obtain ⟨below, bits⟩ := ih
    have double : 2 ^ (n + 1) = 2 ^ n + 2 ^ n := by omega
    have last := Nat.testBit_lt_two_pow below
    rw [List.range_succ, List.filter_append]
    cases met : p n with
    | false =>
      rw [List.filter_singleton, met, cond_false, List.append_nil]
      refine ⟨by omega, fun i inside => ?_⟩
      rcases Nat.lt_succ_iff_lt_or_eq.1 inside with lower | rfl
      · exact bits i lower
      · rw [last, met]
    | true =>
      rw [List.filter_singleton, met, cond_true, maskOf_append]
      refine ⟨by omega, fun i inside => ?_⟩
      rcases Nat.lt_succ_iff_lt_or_eq.1 inside with lower | rfl
      · rw [Nat.testBit_two_pow_add_gt lower, bits i lower]
      · rw [Nat.testBit_two_pow_add_eq, last, met, Bool.not_false]

theorem testBit_maskOf (p : Nat → Bool) {n i : Nat} (inside : i < n) : (maskOf ((List.range n).filter p)).testBit i = p i :=
  (maskOf_filter_range p n).2 i inside

/-! ### Units withdrawn (R48) -/

/-- A pea whose unit is withdrawn where it is cut and satisfies `q`. -/
def withdrawnPea (q : Nat → WUnit → Bool) (p : Nat) (a : Pea) : Pea :=
  if a.pendUnit.any (q p) then { a with pend := [], pendUnit := none, ready := false } else a

theorem peaOf_withdrawUnits (q : Nat → WUnit → Bool) (m : Mach) (p : Nat) :
    peaOf (withdrawUnits q m) p = withdrawnPea q p (peaOf m p) := by
  simp only [peaOf, withdrawUnits, List.getElem?_mapIdx]
  cases m.peas[p]? with
  | none => rfl
  | some a =>
    simp only [Option.map_some, Option.getD_some, withdrawnPea]
    cases a.pendUnit <;> rfl

@[simp] theorem withdrawnPea_active (q : Nat → WUnit → Bool) (p : Nat) (a : Pea) : (withdrawnPea q p a).active = a.active := by
  unfold withdrawnPea
  split <;> rfl

/-- Where every unit of a pea is withdrawn none is left. -/
theorem withdrawnPea_all {q : Nat → WUnit → Bool} {p : Nat} (all : ∀ u, q p u = true) (a : Pea) :
    (withdrawnPea q p a).pendUnit = none := by
  unfold withdrawnPea
  split
  · rfl
  · rename_i kept
    cases unit : a.pendUnit with
    | none => rfl
    | some u => exact absurd (by simp [unit, all]) kept

/-- Where none is, the pea is as it was. -/
theorem withdrawnPea_none {q : Nat → WUnit → Bool} {p : Nat} (kept : ∀ u, q p u = false) (a : Pea) : withdrawnPea q p a = a :=
  if_neg (by cases a.pendUnit <;> simp [kept])

/-- A live tenancy is one of the module's. -/
theorem tenLive_lt {m : Mach} {t : Nat} (live : tenLive m t = true) : t < m.ten.tens.length := by
  by_contra beyond
  have none : tenOf m t = {} := by simp [tenOf, List.getElem?_eq_none (Nat.le_of_not_lt beyond)]
  simp [tenLive, none] at live

/-! ### A rebind that begins (R158, R160) -/

section
variable (r : Rebind) (m : Mach)

/-- The units withdrawn as a rebind begins: those cut for its pods. -/
theorem peaOf_startRebind (p : Nat) : peaOf (startRebind r m) p =
    withdrawnPea (fun p _ => (bitsBelow 48 r.pods).contains (p / 4)) p (peaOf m p) := peaOf_withdrawUnits ..

/-- A tenancy gives up the pods alone, of what it has. -/
theorem tenOf_startRebind {α : Type} (π : Ten → α) (h : ∀ x l, π { x with podOf := l } = π x) (j : Nat) :
    π (tenOf (startRebind r m) j) = π (tenOf m j) :=
  tenOf_keeps π r.src _ (setOwners (bitsBelow 48 r.pods) (bitsBelow 184 r.slices) .rebinding m) j fun x => h x _

/-- R164: a tenancy marked as ended stays so. -/
theorem startRebind_destroying {t : Nat} (live : tenLive m t = true) :
    (tenOf (startRebind r (modTen t (fun x => { x with destroying := true }) m)) t).destroying = true := by
  rw [tenOf_startRebind _ _ (·.destroying) fun _ _ => rfl, tenOf_modTen, if_pos ⟨rfl, tenLive_lt live⟩]

end

/-- R164: the tenancy that a TEN_DESTROY names stands. -/
theorem Acts.destroys {s : State} {h : Hdr} {t : Nat} (act : Acts (pktTenDestroy h t) s) : tenLive s.m t = true := by
  have range := act.ok
  simp only [pktTenDestroy, packet, Bool.and_eq_true] at range
  exact range.1.1

/-- R158: the marks of what a tenancy owns, of a kind of which it has fewer than `n`. -/
theorem marked_of_owned (l : List Owner) (t : Nat) {n i : Nat} (inside : i < n) :
    (l.mapIdx fun i x =>
      if (bitsBelow n (maskOf ((List.range n).filter fun i => l[i]? == some (.ten t)))).contains i then .rebinding else x)[i]? =
      l[i]?.map fun x => if x = .ten t then .rebinding else x := by
  rw [List.getElem?_mapIdx]
  cases owner : l[i]? with
  | none => rfl
  | some x => simp [mem_bitsBelow, testBit_maskOf _ inside, inside, owner]

/-! ### A close that begins (R156) -/

/-- R156 step 3: where none of a context's requests has been acted on, each of them is finalised. -/
theorem stopAll_waiting {m : Mach} {c : Nat} (waits : ∀ r ∈ m.reqs.filter (·.ctx == c), notActed r = true) (by_ : Nat) (nv : Nv) :
    stopAll c by_ (fun _ => true) nv m =
      (nv, forEach (m.reqs.filter (·.ctx == c)) (fun r => finaliseReq c r.urgent r.seq .cancelled by_) m) := by
  have none : (m.reqs.filter (·.ctx == c)).filter (fun r => !notActed r && abortable r.op && r.abortBy.isNone) = [] := by
    rw [List.filter_eq_nil_iff]
    intro r mine
    simp [waits r mine]
  simp only [stopAll, Bool.and_true, none, List.foldl_nil, List.filter_eq_self.2 waits]

/-- The machine in which a close has begun: its context closes by the packet's number. -/
def startClose (c q : Nat) (m : Mach) : Mach := modCtx c (fun x => { x with closing := some q }) m

theorem startClose_closing {m : Mach} {c : Nat} (isOpen : (ctxOf m c).isOpen = true) (q : Nat) :
    (ctxOf (startClose c q m) c).closing = some q := by
  have inside : c < m.ctxs.length := by
    by_contra beyond
    have none : ctxOf m c = {} := by simp [ctxOf, List.getElem?_eq_none (Nat.le_of_not_lt beyond)]
    simp [none] at isOpen
  rw [startClose, ctxOf_modCtx, if_pos ⟨rfl, inside⟩]

theorem startClose_isOpen (c q : Nat) (m : Mach) (j : Nat) : (ctxOf (startClose c q m) j).isOpen = (ctxOf m j).isOpen :=
  ctxOf_keeps (·.isOpen) c _ m j fun _ => rfl

theorem startClose_other {c j : Nat} (other : j ≠ c) (q : Nat) (m : Mach) : ctxOf (startClose c q m) j = ctxOf m j := by
  rw [startClose, ctxOf_modCtx, if_neg fun same => other same.1.symm]

section
variable {s : State} {h : Hdr} {c : Nat} (act : Acts (pktCtxClose h c) s)
include act

/-- R152, R155: the context that a CTX_CLOSE names is open. -/
theorem Acts.closes : 1 ≤ c ∧ (ctxOf s.m c).isOpen = true := by
  have live : ctxLive s.m c = true := act.ok
  simp only [ctxLive, Bool.and_eq_true, decide_eq_true_eq] at live
  exact ⟨live.1.1.1, live.1.2⟩

/-- The CTX_CLOSE itself is none of that context's. -/
theorem reqs_startClose :
    (startClose c h.seq (taken (pktCtxClose h c) s)).reqs.filter (·.ctx == c) = s.m.reqs.filter (·.ctx == c) := by
  have zero : h.ctx = 0 := act.zero rfl
  have other : 0 ≠ c := (Nat.ne_of_lt act.closes.1)
  have joined : (startClose c h.seq (taken (pktCtxClose h c) s)).reqs =
      s.m.reqs ++ [{ ctx := h.ctx, seq := h.seq, op := 0x14, urgent := false, irq := h.irq }] := rfl
  rw [joined, List.filter_append, zero]
  simp [other]

/-- What a CTX_CLOSE comes to for a context none of whose requests has been acted on. -/
theorem ctxClose_eff (waits : ∀ r ∈ s.m.reqs, r.ctx = c → notActed r = true) :
    (pktCtxClose h c).eff s.nv (taken (pktCtxClose h c) s) = (s.nv, forEach (s.m.reqs.filter (·.ctx == c))
      (fun r => finaliseReq c r.urgent r.seq .cancelled h.seq) (startClose c h.seq (taken (pktCtxClose h c) s))) := by
  have all : ∀ r ∈ (startClose c h.seq (taken (pktCtxClose h c) s)).reqs.filter (·.ctx == c), notActed r = true := by
    intro r mine
    rw [reqs_startClose act, List.mem_filter, beq_iff_eq] at mine
    exact waits r mine.1 mine.2
  have stopped := stopAll_waiting all h.seq s.nv
  rwa [reqs_startClose act] at stopped

end

/-! ### The statement -/

/-- Settles O4, by the opcode. -/
theorem rebindAndCloseStart : Obligations.RebindAndCloseStart := by
  refine ⟨?rebind, ?destroy, ?close, ?rebindParts, ?destroyParts, ?closeIdle, ?closeWaiting⟩
  case rebind =>
    intro s h src dst pods keys slices act
    exact runPacket_acts _ s act
  case destroy =>
    intro s h t act
    exact runPacket_acts _ s act
  case close =>
    intro s h c act
    exact runPacket_acts _ s act
  case rebindParts =>
    intro s h src dst pods keys slices act
    obtain ⟨t, runs, pending, nv, same⟩ := runPacket_quiet act rfl
    have ten : t.m.ten = _ := congrArg (·.ten) same
    have peas : t.m.peas = _ := congrArg (·.peas) same
    have reqs : t.m.reqs = _ := congrArg (·.reqs) same
    have pea (i : Nat) := (peaOf_congr peas i).trans (peaOf_startRebind ..)
    refine ⟨t, _, runs, pending, nv, congrArg (·.rebinds) ten, congrArg (·.pods) ten, congrArg (·.slices) ten,
      fun i inside named => ?_, fun i other => ?_, fun i => ?_, congrArg (·.mem.dev) same, congrArg (·.mem.sliceMem) same,
      findReq_owed act reqs⟩
    · have mine : i / 4 ∈ bitsBelow 48 pods := mem_bitsBelow.2 ⟨by omega, named⟩
      exact (congrArg (·.pendUnit) (pea i)).trans (withdrawnPea_all (fun _ => List.contains_iff_mem.2 mine) _)
    · have others : i / 4 ∉ bitsBelow 48 pods := fun mine => Bool.false_ne_true (other.symm.trans (mem_bitsBelow.1 mine).2)
      exact (pea i).trans (withdrawnPea_none (fun _ => by simpa using others) _)
    · exact (congrArg (·.active) (pea i)).trans (withdrawnPea_active ..)
  case destroyParts =>
    intro s h n act
    obtain ⟨t, runs, pending, nv, same⟩ := runPacket_quiet act rfl
    have ten : t.m.ten = _ := congrArg (·.ten) same
    have reqs : t.m.reqs = _ := congrArg (·.reqs) same
    refine ⟨t, _, _, _, runs, pending, nv, congrArg (·.rebinds) ten, fun i inside => ⟨testBit_maskOf _ inside, ?_⟩,
      fun i inside => ⟨testBit_maskOf _ inside, ?_⟩, ?_, congrArg (·.mem.dev) same, congrArg (·.mem.sliceMem) same,
      findReq_owed act reqs⟩
    · exact (congrArg (·.pods[i]?) ten).trans (marked_of_owned _ n inside)
    · exact (congrArg (·.slices[i]?) ten).trans (marked_of_owned _ n inside)
    · exact (congrArg (·.destroying) (tenOf_congr ten n)).trans (startRebind_destroying _ _ act.destroys)
  case closeIdle =>
    intro s h c act idle
    have none : s.m.reqs.filter (·.ctx == c) = [] := List.filter_eq_nil_iff.2 fun r owed => by simpa using idle r owed
    have begun := ctxClose_eff act fun r owed mine => absurd mine (idle r owed)
    rw [none] at begun
    obtain ⟨t, runs, pending, nv, same⟩ := runPacket_quiet act begun
    have closing (j : Nat) := ctxOf_ofQuiet (·.closing) (fun _ => rfl) same j
    refine ⟨t, runs, pending, nv, (closing c).trans (startClose_closing act.closes.2 _), ?_, fun d other => (closing d).trans ?_,
      congrArg (·.ten) same, congrArg (·.peas) same, congrArg (·.mem.dev) same, congrArg (·.mem.sliceMem) same,
      findReq_owed act (congrArg (·.reqs) same)⟩
    · exact (ctxOf_ofQuiet (·.isOpen) (fun _ => rfl) same c).trans ((startClose_isOpen ..).trans act.closes.2)
    · exact congrArg (·.closing) (startClose_other other _ _)
  case closeWaiting =>
    intro s h c act waits
    exact runPacket_acted _ s act _ (ctxClose_eff act waits)

end Sys2Proof.Machine

/-! ## The steps of a rebind

What each step of a rebind on the module comes to for the rebind it finds, and the end of a close. -/

namespace Sys2Proof.Machine

/-- A command of the running module that changes what no reset clears too. -/
theorem onNv_ofUp {s : State} (up : isUp s.m = true) {f : Nv → Mach → Nv × Mach} {x : Nv × Mach} (h : f s.nv s.m = x) :
    onNv f s = .next { s with nv := x.1, m := x.2 } := by
  simp [onNv, up, h]

/-! ### Erasing (R162, R163) -/

/-- The key slots that a rebind has drawn anew or zeroised. -/
def rebindSlots (m : Mach) (r : Rebind) : List Nat :=
  (bitsBelow 64 r.keys).filterMap fun k => ((tenOf m r.src).keys[k]?).map (·.slot)

/-- Table 6.3 step 4: the epochs advance and the pages are queued, which the rebind counts. -/
def reclaims (q : Nat) (r : Rebind) (n : Nat) (m : Mach) : Mach :=
  modRebind q (fun r => { r with st := .resetting, reclaim := n }) (forEach (bitsBelow 64 r.keys) (reclaimKey r.src) m)

section
variable {m : Mach} {q : Nat} {r : Rebind} (found : findRebind m q .cryptoErase = some r) (nv : Nv)
include found

/-- R163: the keys of a tenancy that ends are zeroised. -/
theorem cryptoEraseDone_zeroises (ends : r.destroy = true) : cryptoEraseDone q nv m =
    (nv, reclaims q r ((bitsBelow 64 r.keys).map fun k => (pagesOfKey m r.src k).length).sum
      (forEach (rebindSlots m r) (fun i => setKeySlot i .zero) m)) := by
  simp only [cryptoEraseDone, found, if_pos ends, reclaims, rebindSlots]

/-- R162: those of one that goes on are drawn anew. -/
theorem cryptoEraseDone_draws (stays : r.destroy = false) : cryptoEraseDone q nv m =
    ((drawKeys (rebindSlots m r) nv m).1, reclaims q r ((bitsBelow 64 r.keys).map fun k => (pagesOfKey m r.src k).length).sum
      (drawKeys (rebindSlots m r) nv m).2) := by
  simp only [cryptoEraseDone, found, stays, Bool.false_eq_true, if_false, reclaims, rebindSlots]

end

/-! ### Closing (R156) -/

/-- A closing context for which no request is owed closes. -/
theorem ctxCloseComplete_closes {m : Mach} {c q : Nat} (closing : (ctxOf m c).closing = some q) (none : ∀ r ∈ m.reqs, r.ctx ≠ c) :
    ctxCloseComplete c m = finalise 0 q .ok 0 (closeCtx c m) := by
  have idle : m.reqs.any (·.ctx == c) = false := by simpa using none
  simp [ctxCloseComplete, closing, idle]

/-! ### The statement -/

/-- Settles O37, by the step. -/
theorem rebindSteps : Obligations.RebindSteps := by
  refine ⟨?flashClear, ?zeroised, ?drawn, ?reset, ?closed⟩
  case flashClear =>
    intro s q r up found
    refine (onUp_ofUp up (flashClearDone q)).trans ?_
    simp only [flashClearDone, found]
  case zeroised =>
    rintro s q r n up found ends rfl
    exact onNv_ofUp up (cryptoEraseDone_zeroises found s.nv ends)
  case drawn =>
    rintro s q r n x up found stays rfl rfl
    exact onNv_ofUp up (cryptoEraseDone_draws found s.nv stays)
  case reset =>
    intro s q r up found
    refine (onUp_ofUp up _).trans ?_
    simp only [found, Option.isSome_some, if_true]
  case closed =>
    intro s c q up closing none
    refine (atBoundary_ofUp up fun _ => ctxCloseComplete c).trans ?_
    rw [ctxCloseComplete_closes closing none]

end Sys2Proof.Machine

/-! ## The flash tier's state

R190: no command makes the flash tier better. -/

namespace Sys2Proof.Machine

/-- Settles O55: what no command undoes has the flash tier's state among it. -/
theorem flashMovesDownward : Obligations.FlashMovesDownward := by
  refine ⟨fun f => ?states, fun c s t next => ?down, fun s ns => ?coldReset⟩
  case states => cases f <;> simp
  case down =>
    obtain ⟨u, goes, onward⟩ := exec_goesOn c s
    obtain rfl : u = t := Host.Outcome.next.inj (goes.symm.trans next)
    exact onward.flash
  case coldReset => exact ⟨_, rfl, rfl⟩

end Sys2Proof.Machine

/-! ## The tier opcodes

What each opcode of the migrator changes once it is acted on. -/

namespace Sys2Proof.Machine

/-! ### Effects (R175, R184, R185) -/

theorem sameDesk_modMem (f : MemSt → MemSt) (m : Mach) : SameDesk m (modMem f m) := ⟨rfl, rfl, rfl, rfl, rfl, rfl⟩

section
variable {h : Hdr} {base pages : Nat} (nv : Nv) (m : Mach)

/-- R172, R175: with a key in use and frames to claim, the pages come into being in ZERO. -/
theorem memAlloc_eff_made {key k : Nat} (named : k = if key = 0xFF then (ctxOf m h.ctx).key else key)
    (usable : keyFrozen m (hTen m h) k = false) (room : claims m + pages ≤ claimable nv.flash.state m) :
    (pktMemAlloc h base pages key).eff nv m = (nv, reply h .ok 0 (modMem (fun x =>
      { x with pages := x.pages ++ (List.range pages).map fun i =>
          ({ ten := hTen m h, num := base + i, key := k, ctx := h.ctx } : Page) }) m)) := by
  simp only [pktMemAlloc, packet, ← named, usable, Bool.false_eq_true, if_false, if_neg (Nat.not_lt.2 room)]

/-- R184: a pin within the tier's limit is set, and the pages that lie elsewhere are to come. -/
theorem memPin_eff_set {tier : Nat} (sets : tier ≠ 0)
    (room : pinned m tier + (rangePages m (hTen m h) base pages (·.pin != tier)).length ≤ pinLimit tier) :
    (pktMemPin h base pages tier).eff nv m = (nv,
      startMoves h 0x52 (tierOf tier) (rangePages m (hTen m h) base pages fun g => g.tier != .zero && g.tier != tierOf tier) 0
        (forEach (List.range' base pages) (pageArrives nv.flash.state (hTen m h))
          (forEach (rangePages m (hTen m h) base pages (·.tier != .zero)) (pinMove (hTen m h) (tierOf tier))
            (forEach (List.range' base pages) (fun i => modPage (hTen m h) i fun g => { g with pin := tier }) m)))) := by
  simp only [pktMemPin, packet, if_neg sets, if_neg (Nat.not_lt.2 room)]

/-- R184, R190: a demotion that the flash tier takes is asked for of each page that lies higher and has no pin. -/
theorem memDemote_eff_asked {tier : Nat} (taken : ¬(tier = 3 ∧ (nv.flash.state = .readOnly ∨ nv.flash.state = .offline))) :
    (pktMemDemote h base pages tier).eff nv m = (nv,
      startMoves h 0x53 (tierOf tier)
        (rangePages m (hTen m h) base pages fun g => g.pin == 0 && height (tierOf tier) < height g.tier)
        (rangePages m (hTen m h) base pages (·.pin != 0)).length
        (forEach (rangePages m (hTen m h) base pages fun g => g.pin == 0 && height (tierOf tier) < height g.tier)
          (fun n => askMove (hTen m h) n (tierOf tier)) m)) := by
  have goes : ¬((decide (tier = 3) && (nv.flash.state == .readOnly || nv.flash.state == .offline)) = true) := by
    simpa using taken
  simp only [pktMemDemote, packet, if_neg goes]

end

/-! ### The statement -/

/-- Settles O9: each packet's effect, which most end with their own reply. -/
theorem tierOpcodesAct : Obligations.TierOpcodesAct := by
  refine ⟨?alloc, ?free, ?unpin, ?pin, ?demote, ?prefetch, ?policy, ?basicPolicy⟩
  case alloc =>
    intro s h base pages key k act named usable room
    exact answers _ s act _ .ok 0 (sameDesk_modMem ..) (memAlloc_eff_made s.nv (taken _ s) named usable room)
  case free =>
    intro s h base pages act
    exact runPacket_replied _ s act .ok pages _ rfl
  case unpin =>
    intro s h base pages act
    exact runPacket_replied _ s act .ok 0 _ rfl
  case pin =>
    rintro s h base pages tier go act sets room rfl
    exact runPacket_acted _ s act _ (memPin_eff_set s.nv (taken _ s) sets room)
  case demote =>
    rintro s h base pages tier go act takes rfl
    exact runPacket_acted _ s act _ (memDemote_eff_asked s.nv (taken _ s) takes)
  case prefetch =>
    rintro s h base pages go act rfl
    exact runPacket_acts _ s act
  case policy =>
    intro s h ahead touch limit act
    exact answers _ s act _ .ok 0 (sameDesk_modCtx ..) rfl
  case basicPolicy =>
    intro s h ahead touch limit act
    exact answers _ s act _ .ok 0 (sameDesk_modCtx ..) rfl

end Sys2Proof.Machine

/-! ## A stall that reaches its limit

R179, R180: what the end of a stall latches for the unit of the pea that waits. -/

namespace Sys2Proof.Machine

/-! ### Stalls that fail (R179, R187) -/

/-- R187: an abandoned migration latches nothing. -/
@[simp] theorem dropMove_lat (t n : Nat) (m : Mach) : (dropMove t n m).lat = m.lat := by
  simp only [dropMove, pinPoolPage]
  split
  · rfl
  · split <;> rfl

/-- R179: a pea's only stall, at its limit, ends the unit with TIER_FAIL, which names the page. -/
theorem stallLimit_dones {p t tier n us : Nat} {m : Mach} {u : WUnit} (fs : FlashState) (isPea : p < 192)
    (stalled : (peaOf m p).st = .stalled t [(n, tier, us)]) (active : (peaOf m p).active = some u)
    (late : due m us (u.stallMs * 1000) = true) :
    (stallLimit p fs m).lat.dones = m.lat.dones ++ [unitDone u .tierFail (n % 2 ^ 24)] := by
  have ends : endStalls p n true m = noteStall (peaCtx m p) tier n (m.tick.nowUs - us) true m := by
    simp [endStalls, stalled, forEach]
  have noted : (peaOf (noteStall (peaCtx m p) tier n (m.tick.nowUs - us) true m) p).active = some u := active
  have ended := endUnit_dones noted .tierFail (n % 2 ^ 24)
  simp only [stallLimit, if_pos isPea, stalled, active, Option.map_some, Option.getD_some, late, Bool.not_true,
    Bool.false_eq_true, if_false, ends]
  split
  · exact ended
  · rw [dropMove_lat]
    exact ended

/-! ### The counterexample -/

/-- A module whose pea 0 has waited 200 ms for a page with a unit cut while generation 1 was current, the limit being 100 ms. -/
def packedStall : State :=
  { pending := [], nv := {}
    m := { life := { run := .up }, tick := { nowUs := 200000 }
           peas := [{ active := some packedUnit, st := .stalled 0 [(5, 2, 0)] }] } }

/-- Refutes O23: the completion of that unit carries generation 1 (R224), where the statement has generation 0. -/
theorem not_movesAndStalls : ¬ Obligations.MovesAndStalls := by
  rintro ⟨-, -, -, stalls⟩
  have up : isUp packedStall.m = true := rfl
  have stalled : (peaOf packedStall.m 0).st = .stalled 0 [(5, 2, 0)] := rfl
  have active : (peaOf packedStall.m 0).active = some packedUnit := rfl
  have late : due packedStall.m 0 (packedUnit.stallMs * 1000) = true := by decide
  obtain ⟨t, next, -, -, -, dones⟩ := stalls packedStall 0 0 2 5 0 packedUnit up (by decide) (by decide) stalled active late
  have moved : exec (.stallLimitExpiry 0) packedStall =
      .next (withM packedStall (stallLimit 0 packedStall.nv.flash.state packedStall.m)) := onFab_ofUp up _
  obtain rfl : withM packedStall _ = t := Host.Outcome.next.inj (moved.symm.trans next)
  have latched := stallLimit_dones packedStall.nv.flash.state (by decide) stalled active late
  exact absurd (latched.symm.trans dones) (by decide)

end Sys2Proof.Machine

/-! ## The flash tier's own work

The flash tier's state moves as Table 7.10 has it, whatever block work calls for it; and what that work counts. -/

namespace Sys2Proof.Machine

/-! ### The state (R190, Table 7.10) -/

/-- A flash tier in a state, as a change of it that keeps the rest leaves it. -/
def inState (st : FlashState) (nv : Nv) : Nv := { nv with flash := { nv.flash with state := st } }

/-- A change of the flash tier's state noted for the event of the next boundary (R191). -/
def noteChange (b : Bool) (m : Mach) : Mach := { m with flashTick := { m.flashTick with changedTick := b } }

section
variable {dest : FlashState} {nv : Nv}

/-- The tier does not move upward, nor where the condition fails. -/
theorem flashWorse_stays (h : flashRank dest ≤ flashRank nv.flash.state ∨ flashDue nv.flash dest = false) (channel : Nat) (m : Mach) :
    flashWorse dest channel nv m = (nv, m) := by
  refine if_pos ?_
  simpa using h

/-- Where the condition of a lower state that still reads holds, it enters that state and keeps all its pages. -/
theorem flashWorse_enters (down : flashRank nv.flash.state < flashRank dest) (due : flashDue nv.flash dest = true)
    (reads : dest ≠ .offline) (channel : Nat) (m : Mach) :
    flashWorse dest channel nv m = (inState dest nv, noteChange true m) := by
  simp [flashWorse, Nat.not_le.2 down, due, reads, inState, noteChange]

/-- What becomes of the tier where it may move to a state that still reads: of it the state alone changes, and only downward. -/
theorem flashWorse_reads (reads : dest ≠ .offline) (channel : Nat) (m : Mach) : ∃ st b, flashRank nv.flash.state ≤ flashRank st ∧
    flashWorse dest channel nv m = (inState st nv, noteChange b m) := by
  by_cases moves : flashRank nv.flash.state < flashRank dest ∧ flashDue nv.flash dest = true
  · exact ⟨dest, true, moves.1.le, flashWorse_enters moves.1 moves.2 reads channel m⟩
  · refine ⟨nv.flash.state, m.flashTick.changedTick, le_rfl, flashWorse_stays ?_ channel m⟩
    simpa [or_iff_not_imp_left] using moves

/-- R190: a tier that loses a die that nothing covers is OFFLINE. -/
theorem flashWorse_offline (channel : Nat) (m : Mach) : (flashWorse .offline channel nv m).1.flash.state = .offline := by
  unfold flashWorse
  split
  · rename_i stays
    cases state : nv.flash.state with
    | offline => rfl
    | _ => simp [state, flashRank, flashDue] at stays
  · rfl

/-- R190: what spare blocks and life used make of the tier. -/
theorem flashSettles_reads (nv : Nv) (m : Mach) : ∃ st b, flashRank nv.flash.state ≤ flashRank st ∧
    flashSettles (nv, m) = (inState st nv, noteChange b m) := by
  obtain ⟨st, b, down, warns⟩ := flashWorse_reads (dest := .warn) (nv := nv) (by decide) 0xFF m
  obtain ⟨st', b', down', shuts⟩ := flashWorse_reads (dest := .readOnly) (nv := inState st nv) (by decide) 0xFF (noteChange b m)
  refine ⟨st', b', down.trans down', ?_⟩
  simp only [flashSettles, warns, shuts]
  rfl

/-- Table 7.10: a tier with spare blocks and life left stays as it is. -/
theorem flashSettles_stays (spare : 250 ≤ nv.flash.sparePermille) (life : nv.flash.lifePct < 90) (m : Mach) :
    flashSettles (nv, m) = (nv, m) := by
  have notWarn : flashDue nv.flash .warn = false := by simp [flashDue]; omega
  have notShut : flashDue nv.flash .readOnly = false := by simp [flashDue]; omega
  simp only [flashSettles, flashWorse_stays (.inr notWarn), flashWorse_stays (.inr notShut)]

/-- Table 7.10: at 90 % of its life a tier with spare blocks enters WARN. -/
theorem flashSettles_warns (normal : nv.flash.state = .normal) (spare : 50 ≤ nv.flash.sparePermille) (life : 90 ≤ nv.flash.lifePct)
    (m : Mach) : flashSettles (nv, m) = (inState .warn nv, noteChange true m) := by
  have warn : flashDue nv.flash .warn = true := by simp [flashDue, life]
  have notShut : flashDue (inState .warn nv).flash .readOnly = false := decide_eq_false (Nat.not_lt.2 spare)
  simp only [flashSettles, flashWorse_enters (by rw [normal]; decide) warn (by decide), flashWorse_stays (.inr notShut)]

end

/-! ### Erases (R189, R191) -/

/-- R189, R191: the flash tier as an erase leaves it, before it settles. -/
def erased (f : FlashSt) : FlashSt :=
  { f with lifePct := max f.lifePct (min 255 (Config.meanEraseCount f.choices * 100 / 3000))
           eraseSpread := min 200 (Config.eraseSpread f.choices), choices := f.choices + 1 }

/-- R191: a step of 10 % of the life used is noted. -/
def noteLife (f : FlashSt) (m : Mach) : Mach :=
  if (erased f).lifePct / 10 = f.lifePct / 10 then m else { m with flashTick := { m.flashTick with lifeTick := true } }

theorem eraseBlock_eq (nv : Nv) (m : Mach) : eraseBlock nv m = flashSettles ({ nv with flash := erased nv.flash }, noteLife nv.flash m) := rfl

theorem noteLife_lifeTick (f : FlashSt) (m : Mach) :
    (noteLife f m).flashTick.lifeTick = true ↔ m.flashTick.lifeTick = true ∨ (erased f).lifePct / 10 ≠ f.lifePct / 10 := by
  unfold noteLife
  split <;> simp [*]

/-! ### Blocks out of service (R189, R191) -/

/-- R191: the flash tier once blocks that were in service are retired, before it settles. -/
def withRetired (bs : List Nat) (f : FlashSt) : FlashSt :=
  { f with retired := bump 32 bs.length f.retired, retiredBlocks := bs ++ f.retiredBlocks
           sparePermille := min f.sparePermille (1000 * (Config.spareBlocks - (bs ++ f.retiredBlocks).length) / Config.spareBlocks) }

/-- R191: blocks retired noted for the event of the next boundary. -/
def noteRetired (n : Nat) (m : Mach) : Mach := { m with flashTick := { m.flashTick with retiredTick := bump 16 n m.flashTick.retiredTick } }

/-- R189, R191: what retiring blocks that are in service comes to. -/
theorem retire_fresh {bs : List Nat} {nv : Nv} (fresh : ∀ b ∈ bs, b ∉ nv.flash.retiredBlocks) (m : Mach) : ∃ st b,
    retire bs nv m = (inState st { nv with flash := withRetired bs nv.flash }, noteChange b (noteRetired bs.length m)) := by
  have all : bs.filter (fun b => !nv.flash.retiredBlocks.contains b) = bs := by simpa [List.filter_eq_self] using fresh
  obtain ⟨st, b, -, settles⟩ := flashSettles_reads { nv with flash := withRetired bs nv.flash } (noteRetired bs.length m)
  refine ⟨st, b, ?_⟩
  simp only [retire, all]
  exact settles

/-- R189, R191: a block that is retired, with what is counted. -/
theorem retire_one {b : Nat} {nv : Nv} (fresh : b ∉ nv.flash.retiredBlocks) (m : Mach) :
    (retire [b] nv m).1.flash.retiredBlocks = b :: nv.flash.retiredBlocks ∧
      (retire [b] nv m).1.flash.retired = bump 32 1 nv.flash.retired ∧
      (retire [b] nv m).1.flash.sparePermille ≤ nv.flash.sparePermille ∧
      (retire [b] nv m).2.flashTick.retiredTick = bump 16 1 m.flashTick.retiredTick ∧ (retire [b] nv m).2.mem = m.mem := by
  obtain ⟨st, x, retires⟩ := retire_fresh (bs := [b]) (by simpa using fresh) m
  rw [retires]
  exact ⟨rfl, rfl, min_le_left .., rfl, rfl⟩

/-- The block numbers that a lost die takes lie above all those out of service (log 60). -/
theorem dieBlocks_fresh (l : List Nat) (n : Nat) : ∀ b ∈ List.range' (l.foldl max 0 + 1) n, b ∉ l := by
  intro b new old
  have above : l.foldl max 0 + 1 ≤ b := (List.mem_range'_1.1 new).1
  have below : b ≤ l.foldr max 0 := List.le_max_of_le old le_rfl
  rw [← List.foldl_eq_foldr] at below
  omega

/-- R189: the flash tier once the data of a lost die has been rebuilt. -/
def rebuiltFlash (f : FlashSt) : FlashSt :=
  { f with rebuilt := bump 16 (Config.rebuiltChunks f.choices) f.rebuilt, choices := f.choices + 1 }

/-! ### Commands of the flash tier -/

section
variable {s : State} (up : isUp s.m = true)
include up

/-- A change of the flash tier alone. -/
theorem onFlash_ofUp (f : FlashSt → FlashSt) : onFlash f s = .next { s with nv := { s.nv with flash := f s.nv.flash } } :=
  onNv_ofUp up rfl

/-- R189: free blocks are collected by erasing a block in service, or by retiring it where its erase fails. -/
theorem exec_freeBlockCollect {e : BlockErase} (inService : e.block ∉ s.nv.flash.retiredBlocks) {x : Nv × Mach}
    (h : (if e.fails then retire [e.block] s.nv s.m else eraseBlock s.nv s.m) = x) :
    exec (.flashFreeBlockCollect e) s = .next { s with nv := x.1, m := x.2 } := by
  refine onNv_ofUp (f := fun nv m => if nv.flash.retiredBlocks.contains e.block then (nv, m)
    else if e.fails then retire [e.block] nv m else eraseBlock nv m) up ?_
  simpa [inService] using h

/-- R189: a block that fails a program is retired once its pages are made elsewhere. -/
theorem exec_programFail (b : Nat) : exec (.flashProgramFail b) s = .next { s with
    nv := (retire [b] { s.nv with flash := relocate s.nv.flash } s.m).1
    m := (retire [b] { s.nv with flash := relocate s.nv.flash } s.m).2 } :=
  onNv_ofUp (f := fun nv => retire [b] { nv with flash := relocate nv.flash }) up rfl

/-- R189: the data of a die that parity covers is rebuilt and its blocks are retired. -/
theorem exec_dieLoss_covered (ch blocks : Nat) {x : Nv × Mach}
    (h : retire (List.range' (s.nv.flash.retiredBlocks.foldl max 0 + 1) blocks) { s.nv with flash := rebuiltFlash s.nv.flash } s.m = x) :
    exec (.flashDieLoss ch blocks true) s = .next { s with nv := x.1, m := x.2 } :=
  onNv_ofUp (f := fun nv => retire (List.range' (nv.flash.retiredBlocks.foldl max 0 + 1) blocks)
    { nv with flash := rebuiltFlash nv.flash }) up h

/-- R190: one that it does not cover takes the tier OFFLINE. -/
theorem exec_dieLoss_lost (ch blocks : Nat) : exec (.flashDieLoss ch blocks false) s = .next { s with
    nv := (flashWorse .offline ch s.nv s.m).1, m := (flashWorse .offline ch s.nv s.m).2 } :=
  onNv_ofUp (f := flashWorse .offline ch) up rfl

end

/-! ### The statement -/

/-- Settles O28: block work by what it retires or erases and how the tier then settles, the state by Table 7.10. -/
theorem flashHappenings : Obligations.FlashHappenings := by
  refine ⟨?overLimit, ?inLimit, ?disturb, ?erase, ?fails, ?moves, ?stays, ?dieLoss, ?retrain⟩
  case overLimit =>
    intro s b up inService
    refine (onFlash_ofUp up _).trans ?_
    simp [inService]
  case inLimit =>
    intro s b up
    exact onNv_ofUp up (x := (s.nv, s.m)) rfl
  case disturb =>
    intro s b up inService
    refine (onFlash_ofUp up fun f =>
      if f.retiredBlocks.contains b then f else relocate { f with disturb := bump 32 1 f.disturb }).trans ?_
    simp [inService]
  case erase =>
    intro s b up inService
    obtain ⟨st, c, down, settles⟩ := flashSettles_reads { s.nv with flash := erased s.nv.flash } (noteLife s.nv.flash s.m)
    refine ⟨_, exec_freeBlockCollect (e := { block := b, fails := false }) up inService settles, rfl, rfl, down,
      fun spare life => ?_, fun normal spare life => ?_, noteLife_lifeTick ..⟩
    · have same := settles.symm.trans (flashSettles_stays (nv := { s.nv with flash := erased s.nv.flash }) spare life _)
      exact congrArg (·.1.flash.state) same
    · have warns := settles.symm.trans (flashSettles_warns (nv := { s.nv with flash := erased s.nv.flash }) normal spare life _)
      exact congrArg (·.1.flash.state) warns
  case fails =>
    rintro s b c up inService (rfl | rfl)
    · exact ⟨_, exec_programFail up b, retire_one (nv := { s.nv with flash := relocate s.nv.flash }) inService s.m⟩
    · exact ⟨_, exec_freeBlockCollect (e := { block := b, fails := true }) up inService rfl, retire_one inService s.m⟩
  case moves =>
    intro s dest ch up down reads due
    exact onNv_ofUp up (flashWorse_enters down due reads ch s.m)
  case stays =>
    intro s dest ch up kept
    exact onNv_ofUp up (flashWorse_stays kept ch s.m)
  case dieLoss =>
    intro s ch blocks covered up
    cases covered with
    | true =>
      obtain ⟨st, c, retires⟩ := retire_fresh (nv := { s.nv with flash := rebuiltFlash s.nv.flash })
        (dieBlocks_fresh s.nv.flash.retiredBlocks blocks) s.m
      refine ⟨_, exec_dieLoss_covered up ch blocks retires, fun _ => ⟨rfl, ?_, rfl⟩, nofun⟩
      exact congrArg (bump 32 · s.nv.flash.retired) List.length_range'
    | false => exact ⟨_, exec_dieLoss_lost up ch blocks, nofun, fun _ => flashWorse_offline ch s.m⟩
  case retrain =>
    intro s ch up
    exact onUp_ofUp up _

end Sys2Proof.Machine

/-! ## Migrations

What becomes of a migration that was asked for, and what its commit makes of the page. -/

namespace Sys2Proof.Machine

/-! ### What becomes of an ask (R183, R184, R186) -/

/-- An ask for a page's move to a tier is found by these. -/
theorem ask_named {l : List Ask} {t n : Nat} {dest : Tier} {a : Ask}
    (found : l.find? (fun a => a.ten == t && a.page == n && a.dest == dest) = some a) : a.ten = t ∧ a.page = n ∧ a.dest = dest := by
  simpa [and_assoc] using List.find?_some found

/-- A page that an ask may move: no migration of it is under way, it lies elsewhere, and nothing refuses the move or loses it. -/
structure Movable (fs : FlashState) (m : Mach) (a : Ask) (g : Page) : Prop where
  found : findPage m a.ten a.page = some g
  still : g.mig = none
  away : g.tier ≠ a.dest
  key : keyFrozen m a.ten g.key = false
  marks : ¬(a.dest = .hbm ∧ g.tier ≠ .zero ∧ g.crcBad ≠ [])
  victim : a.victim = true → stillVictim m a.ten g = true
  pin : isSpill a g = false → pinHolds g a.dest = false
  writes : ¬(a.dest = .flash ∧ (fs = .readOnly ∨ fs = .offline))
  reads : ¬(g.tier = .flash ∧ fs = .offline)

section
variable {fs : FlashState} {m : Mach} {a : Ask} {g : Page} (h : Movable fs m a g)
include h

theorem Movable.elsewhere : (g.tier == a.dest) = false := by simpa using h.away

/-- Nothing of what refuses a move holds of it (R182, R184, R190, R199). -/
theorem Movable.allowed : (keyFrozen m a.ten g.key || (a.dest == .hbm && g.tier != .zero && !g.crcBad.isEmpty)
    || (a.victim && !stillVictim m a.ten g) || (!isSpill a g && pinHolds g a.dest)
    || (a.dest == .flash && (fs == .readOnly || fs == .offline))) = false := by
  obtain ⟨-, -, -, key, marks, victim, pin, writes, -⟩ := h
  have marks' : (a.dest == .hbm && g.tier != .zero && !g.crcBad.isEmpty) = false := by simpa using marks
  have victim' : (a.victim && !stillVictim m a.ten g) = false := by simpa using victim
  have pin' : (!isSpill a g && pinHolds g a.dest) = false := by simpa using pin
  have writes' : (a.dest == .flash && (fs == .readOnly || fs == .offline)) = false := by simpa using writes
  simp only [key, marks', victim', pin', writes', Bool.or_self]

theorem Movable.readable : (g.tier == .flash && fs == .offline) = false := by simpa using h.reads

/-- Without a frame in its destination such a page is held. -/
theorem askNow_held (full : freeFrames m a.dest = 0) : askNow fs m a = .held := by
  simp only [askNow, h.found, h.still, h.elsewhere, h.allowed, h.readable, full, Option.isSome_none, Bool.false_eq_true, if_false,
    if_true]

/-- With one, and room in its pool where it enters HBM, its move starts. -/
theorem askNow_start (free : freeFrames m a.dest ≠ 0)
    (room : g.claim ≠ 1 ∨ a.dest ≠ .hbm ∨ ∃ p, findPool m a.ten g.owner = some p ∧ poolRoom m a.ten p = true) :
    askNow fs m a = .start := by
  simp only [askNow, h.found, h.still, h.elsewhere, h.allowed, h.readable, if_neg free, Option.isSome_none, Bool.false_eq_true,
    if_false]
  by_cases pooled : g.claim = 1 ∧ a.dest = .hbm
  · obtain ⟨p, found, roomy⟩ := (room.resolve_left (not_not.2 pooled.1)).resolve_left (not_not.2 pooled.2)
    simp [pooled, found, roomy]
  · simp [pooled]

end

/-! ### Starts (R183, R186) -/

section
variable {fs : FlashState} {m : Mach} {a : Ask}
  (asked : m.mem.asks.find? (fun x => x.ten == a.ten && x.page == a.page && x.dest == a.dest) = some a)
include asked

/-- A migration that is held stays asked for. -/
theorem promotionStart_held (verdict : askNow fs m a = .held) : promotionStart a.ten a.page a.dest fs m = m := by
  simp only [promotionStart, asked, verdict]

/-- One that can start does, a promotion in its turn, and holds a frame of its destination. -/
theorem promotionStart_starts (verdict : askNow fs m a = .start)
    (turn : isPromotion m a = true → ∀ b ∈ m.mem.asks.takeWhile (fun x => !(x.ten == a.ten && x.page == a.page && x.dest == a.dest)),
      isPromotion m b = true → askNow fs m b ≠ .start) :
    promotionStart a.ten a.page a.dest fs m = modPage a.ten a.page
      (fun g => { g with mig := some { dest := a.dest, kv := a.kv }, pin := if isSpill a g then 0 else g.pin })
      (unask a.ten a.page a.dest m) := by
  have first : (isPromotion m a && (m.mem.asks.takeWhile (fun x => !(x.ten == a.ten && x.page == a.page && x.dest == a.dest))).any
      fun b => isPromotion m b && askNow fs m b == .start) = false := by
    simpa using turn
  simp only [promotionStart, asked, verdict, first, Bool.false_eq_true, if_false]

end

theorem exec_promotionStart {s : State} (up : isUp s.m = true) (stays : s.m.life.removal = false) (t n tier : Nat) :
    exec (.promotionStart t n tier) s = .next (withM s (promotionStart t n (tierOf tier) s.nv.flash.state s.m)) := by
  refine (onFab_ofUp up fun fs m => if m.life.removal then m else promotionStart t n (tierOf tier) fs m).trans ?_
  simp only [stays, Bool.false_eq_true, if_false]

/-- R457: once removal has begun no migration starts. -/
theorem exec_promotionStart_removal {s : State} (removal : s.m.life.removal = true) (t n tier : Nat) :
    exec (.promotionStart t n tier) s = .next s := by
  cases up : isUp s.m with
  | true =>
    refine (onFab_ofUp up fun fs m => if m.life.removal then m else promotionStart t n (tierOf tier) fs m).trans ?_
    simp only [removal, if_true]
  | false => exact answer_ofDown up _

/-! ### The copy (R18, R186, R198) -/

@[simp] theorem countDecoded_mem (t : Nat) (g : Page) (errs : List (Nat × Nat)) (m : Mach) : (countDecoded t g errs m).mem = m.mem := by
  unfold countDecoded
  split <;> rfl

/-- What the store holds apart from its bytes and its queue of repairs. -/
def besideBytes (m : Mach) : MemSt := { m.mem with dev := [], hbmRepair := [] }

theorem besideBytes_bytes (d : MemSt → Mem) (m : Mach) : besideBytes (modMem (fun x => { x with dev := d x }) m) = besideBytes m := rfl

theorem besideBytes_queueRepair (phys key : Nat) (m : Mach) : besideBytes (queueRepair phys key m) = besideBytes m := by
  unfold queueRepair
  split <;> rfl

theorem besideBytes_noteDev (t off n : Nat) (m : Mach) : besideBytes (noteDev t off n m) = besideBytes m := by
  refine (forEach_keeps besideBytes _ _ (fun k m => ?_) (modEcc _ m) : _)
  refine (besideBytes_queueRepair ..).trans ?_
  simp [besideBytes, captureCorr]

/-- R18: reading a page out of its tier changes nothing of the store but its bytes and its queue of repairs. -/
theorem besideBytes_readSource (t : Nat) (g : Page) (errs : List (Nat × Nat)) (m : Mach) :
    besideBytes (readSource t g errs m) = besideBytes m := by
  cases tier : g.tier with
  | hbm =>
    simp only [readSource, tier]
    exact (besideBytes_bytes ..).trans (besideBytes_noteDev ..)
  | lp =>
    simp only [readSource, tier]
    exact besideBytes_bytes ..
  | zero | flash => simp only [readSource, tier, id]

theorem besideBytes_copy (t : Nat) (g : Page) (errs : List (Nat × Nat)) (m : Mach) :
    besideBytes (readSource t g errs (countDecoded t g errs m)) = besideBytes m := by
  rw [besideBytes_readSource, besideBytes, countDecoded_mem, besideBytes]

/-- What stands where no more than the bytes and the queue of repairs has changed. -/
theorem counts_ofBesideBytes {a b : Mach} (same : besideBytes a = besideBytes b) :
    a.mem.pages = b.mem.pages ∧ a.mem.promoted = b.mem.promoted ∧ a.mem.demoted = b.mem.demoted :=
  ⟨(congrArg MemSt.pages same :), (congrArg MemSt.promoted same :), (congrArg MemSt.demoted same :)⟩

/-- Out of another tier than HBM, nor of its bytes where the source gave none wrong. -/
theorem readSource_dev {g : Page} (other : g.tier ≠ .hbm) (t : Nat) (m : Mach) : (readSource t g [] m).mem.dev = m.mem.dev := by
  cases tier : g.tier with
  | hbm => contradiction
  | lp =>
    simp only [readSource, tier]
    rfl
  | zero | flash => simp only [readSource, tier, id]

/-! ### A page that has come (R186, R192, R198) -/

/-- A page after it has been changed, its name standing. -/
theorem findPage_modPage {f : Page → Page} (named : ∀ g, (f g).ten = g.ten ∧ (f g).num = g.num) (t n : Nat) (m : Mach) :
    findPage (modPage t n f m) t n = (findPage m t n).map f := by
  have same : ((fun p : Page => p.ten == t && p.num == n) ∘ fun p => if p.ten == t && p.num == n then f p else p) =
      fun p => p.ten == t && p.num == n := by
    funext p
    obtain ⟨ten, num⟩ := named p
    simp only [Function.comp_apply]
    split
    · rw [ten, num]
    · rfl
  simp only [findPage, modPage, modMem, List.find?_map, same]
  cases found : m.mem.pages.find? fun p => p.ten == t && p.num == n with
  | none => rfl
  | some g =>
    have here : (g.ten == t && g.num == n) = true := by simpa using List.find?_some found
    simp only [Option.map_some, here, if_true]

/-- A page as its commit leaves it: in its new home, the old frame kept until it is freed. -/
def landed (g : Page) (dest : Tier) (cs : List Word32) : Page :=
  { g with tier := dest, mig := none, oldFrames := g.oldFrames ++ [g.tier], crcs := cs, asked := g.asked && dest != .hbm }

/-- R192, R263: the store with a page's commit counted by its direction. -/
def withCount (g : Page) (mg : Mig) (x : MemSt) : MemSt :=
  if height g.tier < height mg.dest then { x with promoted := bump 32 1 x.promoted }
  else
    { x with demoted := bump 32 1 x.demoted
             kvToLp := if mg.kv && mg.dest == .lp then bump 32 1 x.kvToLp else x.kvToLp
             kvToFlash := if mg.kv && mg.dest == .flash then bump 32 1 x.kvToFlash else x.kvToFlash }

section
variable (g : Page) (mg : Mig) (x : MemSt)

theorem withCount_promoted : (withCount g mg x).promoted =
    if height g.tier < height mg.dest then bump 32 1 x.promoted else x.promoted := apply_ite MemSt.promoted ..

theorem withCount_demoted : (withCount g mg x).demoted =
    if height g.tier < height mg.dest then x.demoted else bump 32 1 x.demoted := apply_ite MemSt.demoted ..

/-- A commit counted changes no page and no byte. -/
theorem withCount_same : (withCount g mg x).pages = x.pages ∧ (withCount g mg x).dev = x.dev := by
  unfold withCount
  split <;> exact ⟨rfl, rfl⟩

end

section
variable {t n : Nat} {g : Page} (home : g.tier ≠ .zero)
include home

theorem findPage_landPage {x : Mach} (found : findPage x t n = some g) (dest : Tier) : findPage (landPage t n g dest x) t n =
    some (landed g dest (if dest == .hbm then [] else if g.tier == .hbm then pageCrcs x t n else g.crcs)) := by
  refine (findPage_modPage (fun y => ?_) t n x).trans ?_
  · split <;> exact ⟨rfl, rfl⟩
  · simp [found, home, landed]

theorem countMove_mem (mg : Mig) (x : Mach) : (countMove t g mg x).mem = withCount g mg x.mem := by
  have here : (g.tier == .zero) = false := by simpa using home
  simp only [countMove, here, Bool.false_eq_true, if_false, onlyIf]
  split <;> rfl

end

/-- What a command that changes what no reset clears comes to, part by part. -/
theorem onNv_next {s : State} (up : isUp s.m = true) {f : Nv → Mach → Nv × Mach} {nv : Nv} {m : Mach} (h : f s.nv s.m = (nv, m)) :
    onNv f s = .next { s with nv := nv, m := m } := onNv_ofUp up h

/-! ### Commits (R186, R198, R199) -/

section
variable {t n : Nat} {m : Mach} {g : Page} {mg : Mig} (found : findPage m t n = some g) (moving : g.mig = some mg)
include found moving

/-- R199: a source with blocks that do not match their CRCs stops the migration. -/
theorem migrationCommit_bad {errs : List (Nat × Nat)} (nv : Nv) (checked : g.tier = .flash ∨ (g.tier = .lp ∧ mg.dest = .hbm))
    (failed : (List.range 32).filter (blockFails m t g errs) ≠ []) : migrationCommit t n errs nv m =
      (nv, sourceBad nv.flash.state t n (markBlocks t n 2 ((List.range 32).filter (blockFails m t g errs)) (countDecoded t g errs m))) := by
  have checks : (g.tier == .flash || (g.tier == .lp && mg.dest == .hbm)) = true := by simpa using checked
  have fails : (!((List.range 32).filter (blockFails m t g errs)).isEmpty) = true := by simpa using failed
  simp only [migrationCommit, found, moving, checks, if_true, fails]

/-- A source that may be read and a destination that takes the page: the copy becomes the page. -/
theorem migrationCommit_moves {errs : List (Nat × Nat)} (nv : Nv) (home : g.tier ≠ .zero) (clean : pagePoisoned m t n = false)
    (marks : ¬(mg.dest = .hbm ∧ g.crcBad ≠ [])) (takes : ¬(mg.dest = .flash ∧ (nv.flash.state = .readOnly ∨ nv.flash.state = .offline)))
    (whole : g.tier = .flash ∨ (g.tier = .lp ∧ mg.dest = .hbm) → ∀ b, b < 32 → blockFails m t g errs b = false) :
    migrationCommit t n errs nv m = ({ nv with flash := flashPart g mg.dest nv.flash },
      pageArrives nv.flash.state t n (captureAt [3, t, n] 0x07 5 t (le 4 n) (settlePage t n (some mg.dest)
        (pinPoolPage t n (onlyIf (g.tier == .flash) (chanRetries nv.flash) (chargeMigration g
          (countMove t g mg (landPage t n g mg.dest (readSource t g errs (countDecoded t g errs m)))))))))) := by
  have noneBad : (if g.tier == .flash || (g.tier == .lp && mg.dest == .hbm) then (List.range 32).filter (blockFails m t g errs) else [])
      = [] := by
    split
    · rename_i checks
      have matching := whole (by simpa using checks)
      simpa [List.filter_eq_nil_iff] using matching
    · rfl
  have clean' : pagePoisoned (countDecoded t g errs m) t n = false := by rw [pagePoisoned, countDecoded_mem]; exact clean
  have marks' : (g.tier != .zero && mg.dest == .hbm && !g.crcBad.isEmpty) = false := by
    simpa [home] using marks
  have takes' : (mg.dest == .flash && (nv.flash.state == .readOnly || nv.flash.state == .offline)) = false := by simpa using takes
  simp only [migrationCommit, found, moving, noneBad, List.isEmpty_nil, Bool.not_true, Bool.false_eq_true, if_false, clean', marks',
    takes', Bool.and_false, Bool.or_self]

end

/-! ### Frames and pools (R163, R175, R252) -/

/-- R175: a frame of the page itself is freed where no freed page of its number is still being read. -/
theorem releaseFrame_own {t n : Nat} {m : Mach} (unread : ∀ x ∈ m.mem.lingering, x.1 ≠ t ∨ x.2.1 ≠ n) :
    releaseFrame t n m = modPage t n (fun g => { g with oldFrames := g.oldFrames.tail }) m := by
  refine if_neg ?_
  rw [Bool.not_eq_true, List.any_eq_false]
  intro x lies
  simpa [← imp_iff_not_or] using unread x lies

/-- R175: that of a freed page goes first. -/
theorem releaseFrame_freed {t n : Nat} {d : Tier} {r : List (Nat × Nat × Tier)} {m : Mach} (first : m.mem.lingering = (t, n, d) :: r) :
    releaseFrame t n m = modMem (fun x => { x with lingering := r }) m := by
  simp [releaseFrame, first, modMem]

/-- R252: a pool past its limit sends its oldest LPDDR5X page that is not leaving to flash. -/
theorem kvFlashDemote_past {t k : Nat} {p : Pool} {g : Page} {fs : FlashState} {m : Mach} (found : findPool m t k = some p)
    (past : p.geo.lpPages < ((poolPages m t k).filter (·.tier == .lp)).length) (writes : fs ≠ .readOnly) (lives : fs ≠ .offline)
    (oldest : (sortBy victimLe (((poolPages m t k).filter (·.tier == .lp)).filter fun g => !leaving m g)).head? = some g) :
    kvFlashDemote t k fs m = askKv t g.num .flash m := by
  have goes : (decide (((poolPages m t k).filter (·.tier == .lp)).length ≤ p.geo.lpPages) || fs == .readOnly || fs == .offline) = false := by
    simp [past, writes, lives]
  simp only [kvFlashDemote, found, goes, Bool.false_eq_true, if_false, oldest]

/-! ### The statement -/

/-- Settles O27: starts by what becomes of the ask, commits by their checks. -/
theorem migrationHappenings : Obligations.MigrationHappenings := by
  refine ⟨?starts, ?held, ?removal, ?commits, ?bad, ?release, ?releaseFreed, ?reclaim, ?demote⟩
  case starts =>
    intro s t n tier dest g a up stays named asked found room still away key marks victim pin writes reads free turn
    obtain ⟨rfl, rfl, rfl⟩ := ask_named asked
    have movable : Movable s.nv.flash.state s.m a g := ⟨found, still, away, key, marks, victim, pin, writes, reads⟩
    rw [exec_promotionStart up stays, ← named, promotionStart_starts asked (askNow_start movable free room) fun promotes =>
      turn (by simpa [isPromotion, found] using promotes)]
    rfl
  case held =>
    intro s t n tier dest g a up named asked found away still key marks victim pin writes reads full
    cases removal : s.m.life.removal with
    | true => exact exec_promotionStart_removal removal t n tier
    | false =>
      obtain ⟨rfl, rfl, rfl⟩ := ask_named asked
      have movable : Movable s.nv.flash.state s.m a g := ⟨found, still, away, key, marks, victim, pin, writes, reads⟩
      rw [exec_promotionStart up removal, ← named, promotionStart_held asked (askNow_held movable full)]
  case removal =>
    intro s t n tier removal
    exact exec_promotionStart_removal removal t n tier
  case commits =>
    rintro s t n g mg errs x up found moving home clean marks takes whole source m rfl
    obtain ⟨copied, promoted, demoted⟩ := counts_ofBesideBytes ((congrArg besideBytes source).trans (besideBytes_copy t g errs s.m))
    have foundCopy : findPage x t n = some g := (findPage_congr copied t n).trans found
    have counted := countMove_mem (t := t) home mg (landPage t n g mg.dest x)
    obtain ⟨pages, dev⟩ := withCount_same g mg (landPage t n g mg.dest x).mem
    have bytes : (countMove t g mg (landPage t n g mg.dest x)).mem.dev = x.mem.dev := (congrArg MemSt.dev counted).trans dev
    have moves := migrationCommit_moves found moving s.nv home clean marks takes whole
    rw [← source] at moves
    have landing : findPage (countMove t g mg (landPage t n g mg.dest x)) t n = findPage (landPage t n g mg.dest x) t n :=
      findPage_congr ((congrArg MemSt.pages counted).trans pages) t n
    refine ⟨landing.trans (findPage_landPage home foundCopy mg.dest), ?_, ?_, bytes, fun other clear => ?_, onNv_next up moves⟩
    · rw [counted, withCount_promoted, ← promoted]
      rfl
    · rw [counted, withCount_demoted, ← demoted]
      rfl
    · rw [bytes, source, clear, readSource_dev other, countDecoded_mem]
  case bad =>
    rintro s t n g mg errs bad up found moving checked rfl failed
    exact onNv_next up (migrationCommit_bad found moving s.nv checked failed)
  case release =>
    intro s t n up unread
    exact (onUp_ofUp up _).trans (by rw [releaseFrame_own unread])
  case releaseFreed =>
    intro s t n d r up first
    exact (onUp_ofUp up _).trans (by rw [releaseFrame_freed first])
  case reclaim =>
    intro s x r up first
    refine (onUp_ofUp up _).trans ?_
    simp only [pageReclaim, first]
  case demote =>
    intro s t k p g up found past writes lives oldest
    exact (onFab_ofUp up _).trans (by rw [kvFlashDemote_past found past writes lives oldest])

end Sys2Proof.Machine

/-! ## A slice read with two wrong bits

What an array read that cannot be decoded latches for the unit of the pea that waits for it. -/

namespace Sys2Proof.Machine

/-! ### An uncorrectable read of a pea (R194, R202) -/

@[simp] theorem candidate_slice_lat (line : Nat) (nv : Nv) (m : Mach) : (candidate .slice line nv m).2.lat = m.lat := by
  simp only [candidate]
  split <;> rfl

@[simp] theorem peaOf_countUncorr (s : Store) (nv : Nv) (m : Mach) (p : Nat) : peaOf (countUncorr s nv m).2 p = peaOf m p := by
  cases s <;> rfl

@[simp] theorem countUncorr_lat (s : Store) (nv : Nv) (m : Mach) : (countUncorr s nv m).2.lat = m.lat := by
  cases s <;> rfl

/-- R202: a detection ends the unit of the pea that reads with POISONED and the store's number. -/
theorem detected_pea_dones {p : Nat} {m : Mach} {u : WUnit} (active : (peaOf m p).active = some u) (s : Store) (loc view : Nat)
    (nv : Nv) : (detected s (.pea p) loc view nv m).2.lat.dones = m.lat.dones ++ [unitDone u .poisoned (storeSource s)] := by
  have latched : ∀ e, (peaOf (latchErr e (countUncorr s nv m).2) p).active = some u := fun _ => by simpa using active
  simp [detected, givePoison, endUnit_dones (latched _)]

/-- R194: so does an array read of a line, in which no byte is marked yet, that finds a byte beyond correction. -/
theorem sliceRead_uncorrectable_dones {p loc : Nat} {e : ErrPat} {m : Mach} {u : WUnit} (active : (peaOf m p).active = some u)
    (unmarked : pieceBad m (64 * (loc / 64), 64) = false) (alone : (loc / 64 / 32768, loc / 64 % 32768) ∉ m.mem.merges)
    (bad : lineBad (flipBytes (e.flips.map fun f => (64 * (loc / 64) + f.1 % 64, f.2)) m) (loc / 64) ≠ []) (view : Nat) (nv : Nv) :
    (sliceRead (.pea p) loc view e nv m).2.lat.dones = m.lat.dones ++ [unitDone u .poisoned 0] := by
  have apart : (loc / 64 / 32768, loc / 64 % 32768) ∉
      (flipBytes (e.flips.map fun f => (64 * (loc / 64) + f.1 % 64, f.2)) m).mem.merges := alone
  simp only [sliceRead, unmarked, Bool.false_eq_true, if_false, List.contains_eq_mem, apart, decide_false, Bool.and_false,
    List.isEmpty_iff, bad, candidate_slice_lat]
  exact detected_pea_dones (m := modMem _ (modMem _ (modMem _ (modMem _ m)))) active .slice loc view nv

/-- R64, R202: the command of that read latches the completion, with the generation copied into the unit. -/
theorem uncorrectableRead_slice_dones {s t : State} {p loc view : Nat} {e : ErrPat} {u : WUnit} (up : isUp s.m = true)
    (active : (peaOf s.m p).active = some u) (unmarked : pieceBad s.m (64 * (loc / 64), 64) = false)
    (alone : (loc / 64 / 32768, loc / 64 % 32768) ∉ s.m.mem.merges)
    (bad : lineBad (flipBytes (e.flips.map fun f => (64 * (loc / 64) + f.1 % 64, f.2)) s.m) (loc / 64) ≠ [])
    (next : exec (.uncorrectableRead .slice (.pea p) { loc, view } e) s = .next t) :
    t.m.lat.dones = s.m.lat.dones ++ [unitDone u .poisoned 0] := by
  have moved : exec (.uncorrectableRead .slice (.pea p) { loc, view } e) s = _ :=
    onNv_ofUp up (f := sliceRead (.pea p) loc view e) rfl
  obtain rfl := Host.Outcome.next.inj (moved.symm.trans next)
  exact sliceRead_uncorrectable_dones active unmarked alone bad view s.nv

/-! ### The counterexample -/

/-- A module whose pea 0 runs a unit cut while generation 1 was current (R224). -/
def packedRead : State :=
  { pending := [], nv := {}, m := { life := { run := .up }, peas := [{ active := some packedUnit }] } }

/-- Two wrong bits of a line's first byte. -/
def doubleFlip : ErrPat := { flips := [(0, 2 ^ 0 + 2 ^ 1)] }

/-- R193: the word of a zero byte does not decode with its first two bits wrong. -/
theorem packedRead_bad :
    lineBad (flipBytes (doubleFlip.flips.map fun f => (64 * (0 / 64) + f.1 % 64, f.2)) packedRead.m) (0 / 64) ≠ [] := by
  have lost : storedByte (flipBytes [(0, 3)] packedRead.m) 0 0 = none := by decide +kernel
  exact List.ne_nil_of_mem (a := 0) (List.mem_filter.mpr ⟨by simp, Option.isNone_iff_eq_none.mpr lost⟩)

/-- Refutes O30: the completion of a unit whose read meets two wrong bits carries generation 1 (R224), where the statement
has generation 0. -/
theorem not_uncorrectableReads : ¬ Obligations.UncorrectableReads := by
  rintro ⟨-, double, -⟩
  have up : isUp packedRead.m = true := rfl
  have active : (peaOf packedRead.m 0).active = some packedUnit := rfl
  have unmarked : pieceBad packedRead.m (64 * (0 / 64), 64) = false := rfl
  have alone : (0 / 64 / 32768, 0 / 64 % 32768) ∉ packedRead.m.mem.merges := List.not_mem_nil
  obtain ⟨t, next, -, -, -, -, -, dones⟩ :=
    double packedRead 0 0 0 0 0 1 packedUnit up (by decide) active rfl unmarked (by decide) (by decide) (by decide) alone
  have latched := uncorrectableRead_slice_dones (e := doubleFlip) up active unmarked alone packedRead_bad next
  exact absurd (latched.symm.trans dones) (by decide)

end Sys2Proof.Machine

/-! ## The compression opcodes

What each opcode of the compression tables changes, or writes out, once it is acted on. -/

namespace Sys2Proof.Machine

/-! ### STANDARD (R228) -/

/-- R228: while neither bank is a previous one, the standard table becomes the current generation. -/
theorem cmpTableStandard_eff_selects {h : Hdr} {m : Mach} (noneA : isPrevious (ctxOf m h.ctx) (ctxOf m h.ctx).bankA = false)
    (noneB : isPrevious (ctxOf m h.ctx) (ctxOf m h.ctx).bankB = false) (nv : Nv) :
    (pktCmpTableStandard h).eff nv m = (nv, reply h .ok 0 (modCtx h.ctx (fun x => { x with cmpCurrent := 0 }) m)) := by
  simp only [pktCmpTableStandard, packet, noneA, noneB, Bool.or_self, Bool.false_eq_true, if_false]

/-! ### STATUS (Table 9.5) -/

/-- R226: taking a packet changes neither the units cut nor those that have ended, so a bank is shown as it stood before. -/
@[simp] theorem bankBytes_taken (p : Packet) (s : State) (c : Nat) (b : Bank) : bankBytes (taken p s) c b = bankBytes s.m c b := rfl

/-- Table 9.5: the current generation, both banks and the CRCs of their tables are written, and the reply names the generation. -/
theorem cmpTableStatus_eff_taken (h : Hdr) (out : Nat) (p : Packet) (s : State) (nv : Nv) :
    (pktCmpTableStatus h out).eff nv (taken p s) = (nv, reply h .ok (ctxOf s.m h.ctx).cmpCurrent
      (putHost out (padTo 32 (le 1 (ctxOf s.m h.ctx).cmpCurrent ++ zeros 3 ++ bankBytes s.m h.ctx (ctxOf s.m h.ctx).bankA ++
        bankBytes s.m h.ctx (ctxOf s.m h.ctx).bankB ++ le 2 (ctxOf s.m h.ctx).bankA.tcrc ++ le 2 (ctxOf s.m h.ctx).bankB.tcrc))
        (taken p s))) := by
  simp only [pktCmpTableStatus, packet, ctxOf_taken, bankBytes_taken]

/-! ### The statement -/

/-- Settles O10: the reply of a load waits for its fetch (R228), and each other packet ends with its own. -/
theorem compressionOpcodesAct : Obligations.CompressionOpcodesAct := by
  refine ⟨?load, ?standard, ?hold, ?unhold, ?status⟩
  case load =>
    intro s h gen ptr act
    exact runPacket_acts _ s act
  case standard =>
    intro s h act noneA noneB
    exact answers _ s act _ .ok 0 (sameDesk_modCtx ..) (cmpTableStandard_eff_selects (m := taken _ s) noneA noneB s.nv)
  case hold =>
    intro s h gen act
    exact answers _ s act _ .ok _ (sameDesk_modCtx ..) rfl
  case unhold =>
    intro s h gen act
    exact answers _ s act _ .ok _ (sameDesk_modCtx ..) rfl
  case status =>
    rintro s h out x act rfl
    exact answers_block _ s act id .ok _ out _ (.refl _) (cmpTableStatus_eff_taken h out _ s s.nv)

end Sys2Proof.Machine

/-! ## Attention instructions

What TOPK, ASTAT, ANORM and ARECOMP come to where the map lets every access through and no byte read is poisoned. -/

namespace Sys2Proof.Machine

/-! ### Slice accesses change no pea -/

@[simp] theorem arrayRead_peas (line : Nat) (m : Mach) : (arrayRead line m).peas = m.peas := by
  simp only [arrayRead]
  split
  · exact captureAt_peas ..
  · rfl

@[simp] theorem mergeLine_peas (slice line : Nat) (m : Mach) : (mergeLine slice line m).peas = m.peas := by
  simp only [mergeLine]
  split
  · rfl
  · exact arrayRead_peas ..

@[simp] theorem noteRead_peas (t a n : Nat) (merges : Bool) (m : Mach) : (noteRead t a n merges m).peas = m.peas := by
  simp only [noteRead]
  split
  · rfl
  · refine forEach_keeps Mach.peas _ _ (fun line m => ?_) m
    split
    · exact mergeLine_peas ..
    · exact arrayRead_peas ..

theorem piecesWrite_peas (ps : List (Nat × Nat)) (bs : List Byte) (m : Mach) : (piecesWrite ps bs m).peas = m.peas := by
  induction ps generalizing bs m with
  | nil => rfl
  | cons piece ps ih => exact ih ..

theorem slWrite_peas {t a : Nat} {bs : List Byte} {m m' : Mach} (written : slWrite t a bs m = .ok m') : m'.peas = m.peas := by
  simp only [slWrite] at written
  split at written
  · cases written
  · cases written
    exact piecesWrite_peas ..

theorem peaTen_congr {a b : Mach} (peas : b.peas = a.peas) (p : Nat) : peaTen b p = peaTen a p := by
  rw [peaTen, peaTen, peaOf_congr peas]

/-! ### Accesses of a pea that are let through (R71, R412) -/

/-- The machine in which a pea has read: its lines were merged and its bytes are charged. -/
def afterRead (p a n : Nat) (m : Mach) : Mach := chargeBytes p n (noteRead (peaTen m p) a n true m)

@[simp] theorem afterRead_peas (p a n : Nat) (m : Mach) : (afterRead p a n m).peas = m.peas := noteRead_peas ..

theorem peaRead_ok {p a n : Nat} {bs : List Byte} {m : Mach} (read : slRead m (peaTen m p) a n = .ok bs)
    (k : List Byte → Mach → Mach) : peaRead p a n k m = k bs (afterRead p a n m) := by
  simp only [peaRead, peaAccess, read, afterRead]

theorem peaWrite_ok {p t a : Nat} {bs : List Byte} {m m' : Mach} (own : peaTen m p = t) (written : slWrite t a bs m = .ok m')
    (k : Mach → Mach) : peaWrite p a bs k m = k (chargeBytes p bs.length m') := by
  simp only [peaWrite, own, written]

/-! ### The instructions (R255, R256, R293) -/

section
variable {m : Mach} {p a : Nat} {bs : List Byte}

/-- R293: with both writes let through, the indices go out first, then the scores. -/
theorem topkOp_ok {e k ix out : Nat} {x y : Mach} (read : slRead m (peaTen m p) a (4 * e) = .ok bs)
    (indices : slWrite (peaTen m p) ix ((topk (words4 bs) k).flatMap fun x => le 2 x.2) (afterRead p a (4 * e) m) = .ok x)
    (scores : slWrite (peaTen m p) out (bytes4 ((topk (words4 bs) k).map (·.1)))
      (chargeBytes p ((topk (words4 bs) k).flatMap fun x => le 2 x.2).length x) = .ok y) :
    topkOp p a e k ix out m = tally p { invalid := (words4 bs).countP fpIsNan }
      (chargeBytes p (bytes4 ((topk (words4 bs) k).map (·.1))).length y) := by
  have ownRead : peaTen (afterRead p a (4 * e) m) p = peaTen m p := peaTen_congr (afterRead_peas ..) p
  have ownWrite (n : Nat) : peaTen (chargeBytes p n x) p = peaTen m p := (peaTen_congr (slWrite_peas indices) p).trans ownRead
  rw [topkOp, peaRead_ok read, peaWrite_ok ownRead indices, peaWrite_ok (ownWrite _) scores]

/-- R255: the record's M and L go back to its place, the weights and the factor to registers. -/
theorem astatOp_ok {vsrc : Nat} {mask : Word64} {c : Word32} {r : StatOut} {x : Mach} (read : slRead m (peaTen m p) a 8 = .ok bs)
    (stat : r = astat ((words4 bs).getD 0 0) ((words4 bs).getD 1 0) (vreg (peaOf m p) vsrc) mask c)
    (written : slWrite (peaTen m p) a (bytes4 [r.newM, r.newL]) (afterRead p a 8 m) = .ok x) (vdst sdst : Nat) :
    astatOp p a vsrc mask c vdst sdst m =
      modPea p (fun a => setSreg sdst (r.alpha.zeroExtend 64) (setVreg vdst r.p a)) (chargeBytes p 8 x) := by
  have same : peaOf (afterRead p a 8 m) p = peaOf m p := peaOf_congr (afterRead_peas ..) p
  have own : peaTen (afterRead p a 8 m) p = peaTen m p := peaTen_congr (afterRead_peas ..) p
  subst stat
  rw [astatOp, peaRead_ok read, same]
  exact peaWrite_ok own written _

end

/-! ### The statement -/

/-- Settles O22: each instruction reads its record or scores, and ends in the write of what it computes. -/
theorem attentionInstructions : Obligations.AttentionInstructions := by
  refine ⟨?topk, ?astat, ?anorm, ?arecomp⟩
  case topk =>
    intro s p a e k ix out bs x y up run read indices scores
    exact (onPea_ofRun up run _).trans (by rw [topkOp_ok read indices scores, tally])
  case astat =>
    intro s p a vsrc mask c vdst sdst bs r x up run read stat written
    exact (onPea_ofRun up run _).trans (by rw [astatOp_ok read stat written])
  case anorm =>
    rintro s p a vsrc vdst bs l up run read rfl
    exact (onPea_ofRun up run _).trans (by rw [anormOp, peaRead_ok read, afterRead])
  case arecomp =>
    intro s p a vsrc mask c vdst bs up run read
    exact (onPea_ofRun up run _).trans (by rw [arecompOp, peaRead_ok read, afterRead])

end Sys2Proof.Machine

/-! ## KV tables

What attaching, detaching and reading a KV table come to, and mapping its entries, once the packet is acted on. -/

namespace Sys2Proof.Machine

/-! ### Poison in the entries of a table (R203) -/

theorem sameDesk_countPoison (r : Rd) (m : Mach) : SameDesk m (countPoison r m) := by
  simp only [countPoison]
  split
  · exact ⟨rfl, rfl, rfl, rfl, rfl, rfl⟩
  · exact ⟨rfl, rfl, rfl, rfl, rfl, rfl⟩
  · exact .refl m

@[simp] theorem badEntry_taken (p : Packet) (s : State) (v : KvView) (ixs : List Nat) :
    badEntry (taken p s) v ixs = badEntry s.m v ixs := rfl

/-- R203: a command whose entries read clean acts on its table. -/
theorem kvClean_acts {s : State} {v : KvView} {ixs : List Nat} (clean : badEntry s.m v ixs = none) (p : Packet) (h : Hdr)
    (f : Mach → Mach) : kvClean h (badEntry (taken p s) v ixs) f (taken p s) = f (taken p s) := by
  simp only [badEntry_taken, clean, kvClean]

/-- R202, R203: one of which an entry reads poisoned changes nothing but the count, and is finalised with the source. -/
theorem kvClean_poisoned {s : State} {v : KvView} {ixs : List Nat} {src : Nat} (bad : badEntry s.m v ixs = some src) (p : Packet)
    (h : Hdr) (f : Mach → Mach) :
    kvClean h (badEntry (taken p s) v ixs) f (taken p s) = reply h .poisoned src (countPoison (.poison src) (taken p s)) := by
  simp only [badEntry_taken, bad, kvClean]

/-! ### ATTACH (R241) -/

/-- A table attached to a pool that is there: the pool has one table more, whose pages are claimed and zeroed. -/
def attachTo (t c : Nat) (a : KvAttach) (m : Mach) : Mach :=
  modCtx c (fun x => { x with table := some (attachedTable a) })
    (forEach (List.range' a.tableBase a.tablePages) (zeroPage t)
      (claimPages t a.tableBase a.tablePages 3 c (modPool t a.pool (fun p => { p with tables := p.tables + 1 }) m)))

/-- A pool that comes into being with the claims of its own pages and of its records'. -/
def makePool (t : Nat) (a : KvAttach) (m : Mach) : Mach :=
  claimPages t a.recBase a.recPages 2 a.pool (claimPages t a.poolBase a.poolPages 1 a.pool
    (modTen t (fun x => { x with pools := x.pools ++ [{ num := a.pool, geo := a }] }) m))

section
variable {h : Hdr} {a : KvAttach} {m : Mach} (nv : Nv)

theorem kvTableAttach_eff_joins (stands : (findPool m (hTen m h) a.pool).isSome = true) :
    (pktKvTableAttach h a).eff nv m = (nv, reply h .ok (slotsPer a) (attachTo (hTen m h) h.ctx a m)) := by
  have old : (findPool m (hTen m h) a.pool).isNone = false := by simpa using stands
  simp only [pktKvTableAttach, packet, old, Bool.false_and, Bool.false_eq_true, if_false, attachTo, attachedTable]

theorem kvTableAttach_eff_makes (fresh : (findPool m (hTen m h) a.pool).isNone = true) (room : pinned m 1 + a.hbmPages ≤ pinLimit 1) :
    (pktKvTableAttach h a).eff nv m =
      (nv, reply h .ok (slotsPer a) (attachTo (hTen m h) h.ctx a (makePool (hTen m h) a m))) := by
  simp only [pktKvTableAttach, packet, fresh, Bool.true_and, decide_eq_true_eq, if_neg (Nat.not_lt.2 room), if_true, attachTo, makePool,
    attachedTable]

end

/-! ### DETACH and STATUS (R242, R243) -/

@[simp] theorem kvStatus_taken (p : Packet) (s : State) (v : KvView) : kvStatus (taken p s) v = kvStatus s.m v := rfl

section
variable {s : State} (p : Packet) (nv : Nv) {h : Hdr} {v : KvView} (view : kvView s.m h.ctx = some v)
include view

theorem kvTableDetach_eff : (pktKvTableDetach h).eff nv (taken p s) = (nv, reply h .ok 0 (detachTable h.ctx (taken p s))) :=
  congrArg (Prod.mk nv) (kvGuard_taken h _ p s v view)

theorem kvTableStatus_eff (stands : ((ctxOf s.m h.ctx).table.map (·.dead)).getD false = false) (out : Nat) :
    (pktKvTableStatus h out).eff nv (taken p s) = (nv, reply h .ok 32 (putHost out (kvStatus s.m v) (taken p s))) := by
  have same : kvView (taken p s) h.ctx = some v := view
  simp only [pktKvTableStatus, packet, ctxOf_taken, stands, Bool.false_eq_true, if_false, same, Option.map_some, Option.getD_some,
    kvStatus_taken]

/-! ### Entries mapped, moved and unmapped (R248) -/

section
variable {ss sb ds db n : Nat} {ps : List (Nat × Nat)}
  (pairs : ps = (List.range n).flatMap fun i => (column v ss (sb + i)).zip (column v ds (db + i)))
  (clean : badEntry s.m v (ps.map (·.1) ++ ps.map (·.2)) = none)
include pairs clean

theorem kvMapCopy_eff {es : List (Nat × Kve)} (sources : es = ps.filterMap fun x => (kvEntry v x.1).map fun e => (x.2, e))
    (fit : refsFit v.p (es.map (·.2)) = true) : (pktKvMapCopy h ss sb ds db n).eff nv (taken p s) =
      (nv, reply h .ok es.length (forEach es (fun x => mapKve h.ctx x.1 x.2) (taken p s))) := by
  subst pairs sources
  simp only [pktKvMapCopy, packet, kvGuard_taken _ _ p s v view, kvClean_acts clean, fit, Bool.not_true, Bool.false_eq_true,
    if_false]

/-- One entry of a table put where it moves to, with its pin and with what unfinalised steps wrote into it. -/
def moveEntry (v : KvView) (c : Nat) (x : Nat × Nat × Kve) (m : Mach) : Mach :=
  moveTaken c x.1 x.2.1 (modPool v.t v.tb.pool (movePin (kvKey c x.1) (kvKey c x.2.1)) (zeroKve c x.1 (putKve c x.2.1 x.2.2 m)))

theorem kvMapMove_eff {es : List (Nat × Nat × Kve)} (sources : es = ps.filterMap fun x => (kvEntry v x.1).map fun e => (x.1, x.2, e)) :
    (pktKvMapMove h ss sb ds db n).eff nv (taken p s) = (nv, reply h .ok es.length (forEach es (moveEntry v h.ctx) (taken p s))) := by
  subst pairs sources
  simp only [pktKvMapMove, packet, kvGuard_taken _ _ p s v view, kvClean_acts clean]
  rfl

end

theorem kvUnmap_eff {stream length : Nat} (clean : badEntry s.m v (entriesFrom v stream (length / 64)) = none) {m : Mach}
    (cut : m = truncStream h.ctx stream length (taken p s)) :
    (pktKvUnmap h stream length).eff nv (taken p s) = (nv, reply h .ok (streamLen m h.ctx stream) m) := by
  subst cut
  simp only [pktKvUnmap, packet, kvGuard_taken _ _ p s v view, kvClean_acts clean]

theorem kvUnmap_eff_poisoned {stream length src : Nat} (bad : badEntry s.m v (entriesFrom v stream (length / 64)) = some src) :
    (pktKvUnmap h stream length).eff nv (taken p s) = (nv, reply h .poisoned src (countPoison (.poison src) (taken p s))) := by
  simp only [pktKvUnmap, packet, kvGuard_taken _ _ p s v view, kvClean_poisoned bad]

end

/-! ### The statement -/

/-- Settles O5: each packet's effect on its table, and its own reply. -/
theorem kvTableOpcodesAnswer : Obligations.KvTableOpcodesAnswer := by
  refine ⟨?joins, ?makes, ?detach, ?status, ?copy, ?move, ?unmap, ?poisoned⟩
  case joins =>
    intro s h a act stands
    exact runPacket_replied _ s act .ok _ (s.nv, _) (kvTableAttach_eff_joins (m := taken _ s) s.nv stands)
  case makes =>
    intro s h a act fresh room
    exact runPacket_replied _ s act .ok _ (s.nv, _) (kvTableAttach_eff_makes (m := taken _ s) s.nv fresh room)
  case detach =>
    intro s h v act view
    exact runPacket_replied _ s act .ok 0 (s.nv, _) (kvTableDetach_eff _ s.nv view)
  case status =>
    intro s h out v act stands view
    exact answers_block _ s act id .ok 32 out _ (.refl _) (kvTableStatus_eff _ s.nv view stands out)
  case copy =>
    intro s h ss sb ds db n v act view es sources fit clean
    exact runPacket_replied _ s act .ok _ (s.nv, _) (kvMapCopy_eff _ s.nv view rfl clean sources fit)
  case move =>
    intro s h ss sb ds db n v act view es sources clean
    exact runPacket_replied _ s act .ok _ (s.nv, _) (kvMapMove_eff _ s.nv view rfl clean sources)
  case unmap =>
    intro s h stream length v m act view clean cut
    exact runPacket_replied _ s act .ok _ (s.nv, m) (kvUnmap_eff _ s.nv view clean cut)
  case poisoned =>
    intro s h stream length v src act view bad
    exact answers _ s act _ .poisoned src (sameDesk_countPoison ..) (kvUnmap_eff_poisoned _ s.nv view bad)

end Sys2Proof.Machine

/-! ## Pins and the prefix index

What pinning a stream's columns comes to, and what inserting, looking up and dropping prefixes do. -/

namespace Sys2Proof.Machine

@[simp] theorem matched_taken (p : Packet) (s : State) (v : KvView) (hs : List (List Byte)) :
    matched (taken p s) v hs = matched s.m v hs := rfl

@[simp] theorem badRecords_taken (p : Packet) (s : State) (v : KvView) (hs : List (List Byte)) :
    badRecords (taken p s) v hs = badRecords s.m v hs := rfl

section
variable {s : State} (p : Packet) (nv : Nv) {h : Hdr} {v : KvView} (view : kvView s.m h.ctx = some v)
include view

/-! ### KV_PIN (R250) -/

section
variable {stream first blocks : Nat} {xs : List (Nat × Nat)}
  (slots : xs = (((List.range blocks).flatMap fun i => column v stream (first + i)).filterMap fun ix =>
    (kvEntry v ix).map fun e => (kvKey v.c ix, slotKey e.page e.slot)))
  (clean : badEntry s.m v ((List.range blocks).flatMap fun i => column v stream (first + i)) = none) {q : Pool}
include slots clean

/-- The pins of the named slots go. -/
theorem kvPin_eff_unpins (pool : q = { v.p with pinned := v.p.pinned.filter fun x => !(xs.map (·.2)).contains x.2 }) :
    (pktKvPin h stream first blocks false).eff nv (taken p s) =
      (nv, reply h .ok (pinnedPages q).length (modPool v.t v.p.num (fun _ => q) (taken p s))) := by
  subst slots pool
  simp only [pktKvPin, packet, kvGuard_taken _ _ p s v view, kvClean_acts clean, Bool.and_false, Bool.false_eq_true, if_false]

/-- While the pool's pinned pages fit its HBM pages, the named slots are pinned and their pages stay in HBM. -/
theorem kvPin_eff_pins (pool : q = { v.p with pinned := (v.p.pinned ++ xs).dedup }) (room : (pinnedPages q).length ≤ v.p.geo.hbmPages) :
    (pktKvPin h stream first blocks true).eff nv (taken p s) = (nv, reply h .ok (pinnedPages q).length
      (forEach ((xs.map (·.2)).map (· / 128)).dedup (pinnedPageStays v.t) (modPool v.t v.p.num (fun _ => q) (taken p s)))) := by
  subst slots pool
  simp only [pktKvPin, packet, kvGuard_taken _ _ p s v view, kvClean_acts clean, if_true, Bool.and_true, decide_eq_true_eq,
    if_neg (Nat.not_lt.2 room)]

end

/-! ### PREFIX_INSERT (R260) -/

theorem prefixInsert_eff {b : PrefixBlk} {r : (Nat × Nat × Nat) × Mach}
    (inserted : r = insertBlocks v b.stream b.firstBlock (blkHashes v.p.geo b) (taken p s)) (all : r.1.2.2 = 0)
    (clean : badEntry s.m v ((List.range b.blocks).flatMap fun i => column v b.stream (b.firstBlock + i)) = none) :
    (pktPrefixInsert h b).eff nv (taken p s) = (nv, reply h .ok r.1.1
      (putHost b.outPtr (prefixOut (matched s.m v (blkHashes v.p.geo b)) r.1.1 (blkHashes v.p.geo b)) r.2)) := by
  have fits : r.1.2.2 ≠ 0x13 := by omega
  have room : r.1.2.2 ≠ 0x11 := by omega
  subst inserted
  simp only [pktPrefixInsert, packet, kvGuard_taken _ _ p s v view, kvClean_acts clean, if_neg fits, if_neg room, matched_taken]

/-! ### PREFIX_LOOKUP (R259) -/

/-- The entries of the index that a LOOKUP has found are in use at boundary `now`. -/
def touchPrefixes (k now : Nat) (hs : List (List Byte)) (x : Ten) : Ten :=
  { x with prefixes := x.prefixes.map fun e => if e.pool == k && hs.contains e.hash then { e with lastUse := now } else e }

theorem prefixLookup_eff {b : PrefixBlk} {n : Nat} {plan : List (Nat × Kve)} (found : n = matched s.m v (blkHashes v.p.geo b))
    (maps : plan = if b.map then mapPlan (taken p s) v b.stream b.firstBlock ((blkHashes v.p.geo b).take n) else [])
    (fit : refsFit v.p (plan.map (·.2)) = true) (clean : badEntry s.m v (plan.map (·.1)) = none)
    (records : b.map = true → badRecords s.m v ((blkHashes v.p.geo b).take n) = none) :
    (pktPrefixLookup h b).eff nv (taken p s) = (nv, reply h .ok n
      (putHost b.outPtr (prefixOut n (plan.length / (v.p.geo.layers * v.p.geo.groups)) (blkHashes v.p.geo b))
        (modMem (fun x => { x with kvHit := bump 32 n x.kvHit }) (forEach plan (fun x => mapKve h.ctx x.1 x.2)
          (modTen v.t (touchPrefixes v.p.num s.m.tick.count ((blkHashes v.p.geo b).take n)) (taken p s)))))) := by
  have read : (badEntry s.m v (plan.map (·.1))).or
      (if b.map then badRecords s.m v ((blkHashes v.p.geo b).take n) else none) = none := by
    rw [clean, Option.none_or]
    split
    · exact records ‹_›
    · rfl
  subst found maps
  simp only [pktPrefixLookup, packet, kvGuard_taken _ _ p s v view, matched_taken, badEntry_taken, badRecords_taken, read, kvClean, fit,
    Bool.not_true, Bool.false_eq_true, if_false, taken_tick]
  rfl

/-! ### PREFIX_DROP (R261) -/

theorem prefixDrop_eff {all : Bool} {hash : List Byte} {es : List PrefixEnt}
    (named : es = ((tenOf s.m v.t).prefixes.filter fun e => e.pool == v.p.num && (all || e.hash == hash))) :
    (pktPrefixDrop h all hash).eff nv (taken p s) = (nv, reply h .ok es.length (forEach es (dropPrefix v.t) (taken p s))) := by
  subst named
  exact congrArg (Prod.mk nv) (kvGuard_taken h _ p s v view)

end

/-! ### The statement -/

/-- Settles O6: each packet's effect on its pool, and its own reply. -/
theorem prefixOpcodesAnswer : Obligations.PrefixOpcodesAnswer := by
  refine ⟨?unpin, ?pin, ?insert, ?lookup, ?drop⟩
  case unpin =>
    intro s h stream first blocks v xs act view slots clean q pool
    exact runPacket_replied _ s act .ok _ (s.nv, _) (kvPin_eff_unpins _ s.nv view slots clean pool)
  case pin =>
    intro s h stream first blocks v xs act view slots clean q pool room
    exact runPacket_replied _ s act .ok _ (s.nv, _) (kvPin_eff_pins _ s.nv view slots clean pool room)
  case insert =>
    intro s h b v r act view inserted all clean
    exact runPacket_replied _ s act .ok _ (s.nv, _) (prefixInsert_eff _ s.nv view inserted all clean)
  case lookup =>
    intro s h b v n plan act view found maps fit clean records
    exact runPacket_replied _ s act .ok n (s.nv, _) (prefixLookup_eff _ s.nv view found maps fit clean records)
  case drop =>
    intro s h all hash v es act view named
    exact runPacket_replied _ s act .ok _ (s.nv, _) (prefixDrop_eff _ s.nv view named)

end Sys2Proof.Machine

/-! ## Batch slots

What allocating, releasing and cancelling a slot come to. -/

namespace Sys2Proof.Machine

@[simp] theorem slotOf_taken (p : Packet) (s : State) (c n : Nat) : slotOf (taken p s) c n = slotOf s.m c n := rfl

/-! ### SLOT_ALLOC (R264, R265) -/

/-- R264: an allocated slot serves its stream under its next generation. -/
def allocSlot (stream : Nat) (b : BatchSlot) : BatchSlot := { b with allocated := true, stream, gen := nextGen b.gen }

/-- The reply to an allocation names the slot and the generation that it enters. -/
theorem slotDetail_allocated {m : Mach} {c : Nat} (opened : c < m.ctxs.length) (n stream : Nat) :
    slotDetail (slotOf (modSlot c n (allocSlot stream) m) c n) = (slotOf m c n).slot + 2 ^ 16 * nextGen (slotOf m c n).gen := by
  rw [slotOf_modSlot (f := allocSlot stream) opened fun _ => rfl]
  rfl

section
variable {s : State} {h : Hdr} {v : KvView} (view : kvView s.m h.ctx = some v) (opened : h.ctx < s.m.ctxs.length)
  (p : Packet) (nv : Nv) (stream : Nat)
include view opened

/-- R265: the slot asked for is allocated. -/
theorem slotAlloc_eff_named {slot : Nat} (named : slot ≠ 0xFFFF) :
    (pktSlotAlloc h slot stream).eff nv (taken p s) =
      (nv, reply h .ok ((slotOf s.m h.ctx slot).slot + 2 ^ 16 * nextGen (slotOf s.m h.ctx slot).gen)
        (modSlot h.ctx slot (allocSlot stream) (taken p s))) := by
  rw [← slotOf_taken p, ← slotDetail_allocated (m := taken p s) opened slot stream]
  simp only [pktSlotAlloc, packet, kvGuard_taken _ _ p s v view, if_neg named]
  rfl

/-- R265: without one, the first that is neither allocated nor on its way to release. -/
theorem slotAlloc_eff_first {n : Nat}
    (first : ((List.range 4096).find? fun i => !(slotOf s.m h.ctx i).allocated && !(slotOf s.m h.ctx i).releasing) = some n) :
    (pktSlotAlloc h 0xFFFF stream).eff nv (taken p s) =
      (nv, reply h .ok ((slotOf s.m h.ctx n).slot + 2 ^ 16 * nextGen (slotOf s.m h.ctx n).gen)
        (modSlot h.ctx n (allocSlot stream) (taken p s))) := by
  rw [← slotOf_taken p, ← slotDetail_allocated (m := taken p s) opened n stream]
  simp only [pktSlotAlloc, packet, kvGuard_taken _ _ p s v view, if_true, slotOf_taken, first]
  rfl

end

/-! ### SLOT_RELEASE and CANCEL (R266) -/

section
variable {m : Mach} {h : Hdr} {slot gen : Nat} (keep : Bool) (nv : Nv)

/-- Of the current generation, the slot drains and is freed at the end. -/
theorem slotRelease_eff_current (current : (slotOf m h.ctx slot).gen = gen) :
    (pktSlotRelease h slot gen keep).eff nv m = (nv, startDrain h.ctx slot h.seq keep true false m) := by
  simp only [pktSlotRelease, packet, if_neg (not_not.2 current)]

theorem slotRelease_eff_stale (stale : (slotOf m h.ctx slot).gen ≠ gen) :
    (pktSlotRelease h slot gen keep).eff nv m = (nv, reply h .tooLate 0 m) := by
  simp only [pktSlotRelease, packet, if_pos stale]

/-- Of the current generation, the slot drains and stays allocated. -/
theorem cancel_eff_current (current : (slotOf m h.ctx slot).gen = gen) :
    (pktCancel h slot gen keep).eff nv m = (nv, startDrain h.ctx slot h.seq keep false true m) := by
  simp only [pktCancel, packet, if_neg (not_not.2 current)]

theorem cancel_eff_stale (stale : (slotOf m h.ctx slot).gen ≠ gen) :
    (pktCancel h slot gen keep).eff nv m = (nv, finaliseReq h.ctx true h.seq .tooLate 0 m) := by
  simp only [pktCancel, packet, if_pos stale]

end

section
variable (c n q : Nat) (keep : Bool) (m : Mach)

/-- A drain begun by a release frees the slot, and its reply goes to the command ring. -/
theorem startDrain_release :
    startDrain c n q keep true false m = dropPrefill c n (modSlot c n (fun b =>
      { b with gen := nextGen b.gen, draining := true, keep := if b.draining then b.keep && keep else keep, releasing := true
               drains := b.drains ++ [2 * q] }) m) := by
  simp only [startDrain, Bool.or_true]
  rfl

/-- One begun by a CANCEL leaves a release as it stands, and its reply goes to the urgent ring. -/
theorem startDrain_cancel :
    startDrain c n q keep false true m = dropPrefill c n (modSlot c n (fun b =>
      { b with gen := nextGen b.gen, draining := true, keep := if b.draining then b.keep && keep else keep
               drains := b.drains ++ [2 * q + 1] }) m) := by
  simp only [startDrain, Bool.or_false]
  rfl

end

/-! ### The statement -/

/-- Settles O7: a packet ends with its own reply, but a submission and a drain of the current generation, which are owed theirs. -/
theorem stepOpcodesAct : Obligations.StepOpcodesAct := by
  refine ⟨?submit, ?named, ?first, ?release, ?staleRelease, ?cancel, ?staleCancel, ?ratio, ?basic⟩
  case submit =>
    intro s h b act
    exact runPacket_acts _ s act
  case named =>
    intro s h slot stream v act view named opened
    exact answers _ s act _ .ok _ (sameDesk_modCtx ..) (slotAlloc_eff_named view opened _ s.nv stream named)
  case first =>
    intro s h stream v n act view opened first
    exact answers _ s act _ .ok _ (sameDesk_modCtx ..) (slotAlloc_eff_first view opened _ s.nv stream first)
  case release =>
    intro s h slot gen keep act current
    rw [← startDrain_release]
    exact runPacket_acted _ s act _ (slotRelease_eff_current (m := taken _ s) keep s.nv current)
  case staleRelease =>
    intro s h slot gen keep act stale
    exact answers _ s act id .tooLate 0 (.refl _) (slotRelease_eff_stale (m := taken _ s) keep s.nv stale)
  case cancel =>
    intro s h slot gen keep act current
    rw [← startDrain_cancel]
    exact runPacket_acted _ s act _ (cancel_eff_current (m := taken _ s) keep s.nv current)
  case staleCancel =>
    intro s h slot gen keep act stale
    exact answers _ s act id .tooLate 0 (.refl _) (cancel_eff_stale (m := taken _ s) keep s.nv stale)
  case ratio =>
    intro s h chunk ratio floor act
    exact answers _ s act _ .ok 0 (sameDesk_modCtx ..) rfl
  case basic =>
    intro s h chunk ratio floor act
    exact answers _ s act _ .ok 0 (sameDesk_modCtx ..) rfl

end Sys2Proof.Machine

/-! ## The power opcodes

What the opcodes of power limits and energy come to. -/

namespace Sys2Proof.Machine

/-! ### Limits (R394, R400) -/

/-- R414: a change of what bounds the module is noted among what writing clears. -/
@[simp] theorem quiet_changeLimit (f : PwrSt → PwrSt) (m : Mach) : quiet (changeLimit f m) = quiet (modPwr f m) := by
  simp only [changeLimit]
  split <;> rfl

theorem sameDesk_changeLimit (f : PwrSt → PwrSt) (m : Mach) : SameDesk m (changeLimit f m) := by
  simp only [changeLimit]
  split
  · exact sameDesk_modPwr f m
  · exact (sameDesk_modPwr f m).trans (sameDesk_modPwr ..)

/-- The limit in force after a change is that of what was changed. -/
theorem limitW_changeLimit (f : PwrSt → PwrSt) (m : Mach) : limitW (changeLimit f m).pwr = limitW (f m.pwr) := by
  simp only [changeLimit]
  split <;> rfl

/-- Machines that writing cannot tell apart are still so with the same requests. -/
theorem quiet_reqs {a b : Mach} (h : quiet a = quiet b) (rs : List Req) : quiet { a with reqs := rs } = quiet { b with reqs := rs } :=
  congrArg (fun m : Mach => { m with reqs := rs }) h

/-- An answer stands for every effect that differs only in what writing changes. -/
theorem Answers.ofQuiet {p : Packet} {s : State} {o : Host.Outcome State Fault Refusal} {f g : Mach → Mach} {st : Status} {d : Nat}
    {rs : List Out} (h : Answers p s o f st d rs) (same : quiet (f (taken p s)) = quiet (g (taken p s))) : Answers p s o g st d rs := by
  obtain ⟨t, next, pending, nv, effect, replied⟩ := h
  exact ⟨t, next, pending, nv, effect.trans (quiet_reqs same _), replied⟩

/-! ### The statement -/

/-- Settles O2: each packet's effect is its table's change, its block and its own reply. -/
theorem powerOpcodesAnswer : Obligations.PowerOpcodesAnswer := by
  refine ⟨?cap, ?step, ?energy⟩
  case cap =>
    intro s h w act
    have limit : limitW (changeLimit (fun p => { p with capW := w }) (taken (pktCapSet h w) s)).pwr =
      limitW { s.m.pwr with capW := w } := limitW_changeLimit ..
    rw [← limit]
    exact (answers _ s act _ .ok _ (sameDesk_changeLimit ..) rfl).ofQuiet (quiet_changeLimit ..)
  case step =>
    intro s h step act
    exact answers _ s act _ .ok step (sameDesk_modPwr ..) rfl
  case energy =>
    intro s h scope target out act
    exact answers_block _ s act id .ok 64 out _ (.refl _) rfl

end Sys2Proof.Machine

/-! ## Expert and collective opcodes

What installing and removing layouts, queues and collectives comes to. -/

namespace Sys2Proof.Machine

theorem sameDesk_modTen (t : Nat) (f : Ten → Ten) (m : Mach) : SameDesk m (modTen t f m) := ⟨rfl, rfl, rfl, rfl, rfl, rfl⟩

section
variable {h : Hdr} {m : Mach} (nv : Nv)

/-- R289: with a place for it, the layout joins its context. -/
theorem expLayoutInstall_eff_joins {b : LayoutBlk} (room : (ctxOf m h.ctx).layouts.length < 128) :
    (pktExpLayoutInstall h b).eff nv m = (nv, reply h .ok ((ctxOf m h.ctx).layouts.length + 1)
      (modCtx h.ctx (fun x => { x with layouts := x.layouts ++ [{ blk := b }] }) m)) := by
  simp only [pktExpLayoutInstall, packet, if_neg (Nat.not_le.2 room)]

/-- R298: the queue of an installed layout joins its tenancy, claims its data pages and clears its control blocks. -/
theorem expQueuePost_eff_joins {b : QueueBlk} {l : Layout}
    (installed : (ctxOf m h.ctx).layouts.find? (·.blk.layoutId == b.layoutId) = some l) :
    (pktExpQueuePost h b).eff nv m = (nv, reply h .ok 0
      (slPut (hTen m h) b.ctrl (padTo (ctrlSize l.blk) (le 8 0 ++ le 4 0) ++ padTo (ctrlSize l.blk) (le 8 0 ++ le 4 1))
        (forEach (queuePages b l.blk) (fun n => modPage (hTen m h) n fun g => { g with claim := 5, owner := b.queue })
          (modTen (hTen m h) (fun x => { x with queues := x.queues ++ [{ num := b.queue, ctx := h.ctx, blk := b }] }) m)))) := by
  simp only [pktExpQueuePost, packet, installed]

/-- R370: with a place for it, the collective joins its context. -/
theorem collSetup_eff_joins {b : CollBlk} (room : (ctxOf m h.ctx).colls.length < 64) :
    (pktCollSetup h b).eff nv m =
      (nv, reply h .ok 0 (modCtx h.ctx (fun x => { x with colls := x.colls ++ [{ blk := b }] }) m)) := by
  simp only [pktCollSetup, packet, if_neg (Nat.not_le.2 room)]

end

/-! ### The statement -/

/-- Settles O11: each packet's effect on its context or tenancy, and its own reply. -/
theorem expertAndCollectiveOpcodesAnswer : Obligations.ExpertAndCollectiveOpcodesAnswer := by
  refine ⟨?install, ?remove, ?post, ?unpost, ?shared, ?setup, ?removeColl⟩
  case install =>
    intro s h b act room
    exact answers _ s act _ .ok _ (sameDesk_modCtx ..) (expLayoutInstall_eff_joins (m := taken _ s) s.nv room)
  case remove =>
    intro s h layer act
    exact answers _ s act _ .ok _ (sameDesk_modCtx ..) rfl
  case post =>
    rintro s h b l t act rfl installed
    exact runPacket_replied _ s act .ok 0 (s.nv, _) (expQueuePost_eff_joins (m := taken _ s) s.nv installed)
  case unpost =>
    intro s h q act
    exact answers _ s act _ .ok 0 ((sameDesk_modMem ..).trans (sameDesk_modTen ..)) rfl
  case shared =>
    intro s h layer order basic mask act
    exact answers _ s act _ .ok 0 (sameDesk_modCtx ..) rfl
  case setup =>
    intro s h b act room
    exact answers _ s act _ .ok 0 (sameDesk_modCtx ..) (collSetup_eff_joins (m := taken _ s) s.nv room)
  case removeColl =>
    intro s h id act
    exact answers _ s act _ .ok 0 (sameDesk_modCtx ..) rfl

end Sys2Proof.Machine

/-! ## Shard opcodes

What installing, removing and verifying shards comes to. -/

namespace Sys2Proof.Machine

section
variable {s : State} {h : Hdr} (p : Packet) (nv : Nv)

/-- R382: within the tier limits and the table, the install of a shard is under way. -/
theorem shardInstall_eff_starts {b : ShardBlk} {len n : Nat}
    (listed : len = ((shardEntry s.m (hTen s.m h) b.slot b.shard).map (·.1)).getD 0) (pages : n = (len + pageSize - 1) / pageSize)
    (table : (tenOf s.m (hTen s.m h)).shards.length < 4096) (room : claims s.m + n ≤ claimable nv.flash.state s.m)
    (pins : b.pinHbm = false ∨ pinnedHbm s.m + n ≤ pinLimit 1) :
    (pktShardInstall h b).eff nv (taken p s) = (nv, modTen (hTen s.m h) (fun x => { x with shards := x.shards ++ [
      { blk := b, ctx := h.ctx, seq := h.seq, key := (ctxOf s.m h.ctx).key, length := len, lastHdrUs := s.m.tick.nowUs
        hours := (ctxOf s.m h.ctx).verifyHours }] }) (taken p s)) := by
  have claimed : ¬claimable nv.flash.state s.m < claims s.m + n := Nat.not_lt.2 room
  have pinned : ¬((b.pinHbm && decide (pinLimit 1 < pinnedHbm s.m + n)) = true) := by
    rcases pins with off | fits
    · simp [off]
    · simp [Nat.not_lt.2 fits]
  subst listed pages
  exact congrArg (Prod.mk nv) ((if_neg claimed).trans ((if_neg pinned).trans (if_neg (Nat.not_le.2 table))))

section
variable {slot shard : Nat} {k : Shard} (found : findShard s.m (hTen s.m h) slot shard = some k)
include found

/-- R386: an installed shard goes with its pages' claims, and those that wait for its check are cancelled. -/
theorem shardRemove_eff : (pktShardRemove h slot shard).eff nv (taken p s) = (nv, reply h .ok (shardPages k)
    (modMem (fun x =>
        { x with pages := x.pages.map fun g =>
            if g.ten == hTen s.m h && k.blk.basePage ≤ g.num && g.num < k.blk.basePage + shardPages k then
              { g with claim := 0, owner := 0 }
            else g })
      (dropShard (hTen s.m h) slot shard (forEach k.verifies (fun v => finalise v.1 v.2 .cancelled h.seq) (taken p s))))) := by
  have same : findShard (taken p s) (hTen s.m h) slot shard = some k := found
  simp only [pktShardRemove, packet, hTen_taken, same]
  rfl

/-- R388: a shard that has failed its check says so at once. -/
theorem shardVerify_eff_failed (failed : k.st = .failed) :
    (pktShardVerify h slot shard).eff nv (taken p s) = (nv, reply h .digestMismatch shard (taken p s)) := by
  have same : findShard (taken p s) (hTen s.m h) slot shard = some k := found
  simp only [pktShardVerify, packet, hTen_taken, same, failed, beq_self_eq_true, if_true]

/-- R388: any other is to be checked, and the command waits for the result. -/
theorem shardVerify_eff_waits (sound : k.st ≠ .failed) :
    (pktShardVerify h slot shard).eff nv (taken p s) =
      (nv, modShard (hTen s.m h) slot shard (fun s => { s with verifies := s.verifies ++ [(h.ctx, h.seq)] }) (taken p s)) := by
  have same : findShard (taken p s) (hTen s.m h) slot shard = some k := found
  simp only [pktShardVerify, packet, hTen_taken, same, beq_iff_eq, if_neg sound]

end
end

/-! ### The statement -/

/-- Settles O13: each packet's effect on its tenancy, and the reply of those that end at once. -/
theorem shardOpcodesAct : Obligations.ShardOpcodesAct := by
  refine ⟨?load, ?unload, ?install, ?remove, ?failed, ?verify, ?interval⟩
  case load =>
    intro s h slot ptr len key act
    exact runPacket_acts _ s act
  case unload =>
    intro s h slot act
    exact answers _ s act _ .ok 0 (sameDesk_modTen ..) rfl
  case install =>
    rintro s h b t n len act rfl listed pages table room pins
    exact runPacket_acted _ s act _ (shardInstall_eff_starts _ s.nv listed pages table room pins)
  case remove =>
    rintro s h slot shard k t act rfl found
    exact runPacket_replied _ s act .ok _ (s.nv, _) (shardRemove_eff _ s.nv found)
  case failed =>
    intro s h slot shard k act found failed
    exact answers _ s act id .digestMismatch shard (.refl _) (shardVerify_eff_failed _ s.nv found failed)
  case verify =>
    intro s h slot shard k act found sound
    exact runPacket_acted _ s act _ (shardVerify_eff_waits _ s.nv found sound)
  case interval =>
    rintro s h hours n act rfl
    exact answers _ s act _ .ok 0 ((sameDesk_modCtx ..).trans (sameDesk_modTen ..)) rfl

end Sys2Proof.Machine

/-! ## Firmware and attestation

What the opcodes of an update and of attestation start, and what their slow parts come to. -/

namespace Sys2Proof.Machine

/-- A row of the running module that changes what no reset clears too acts at the boundary last fired. -/
theorem nvBoundary_ofUp {s : State} (up : isUp s.m = true) {f : Nv → Mach → Nv × Mach} {nv : Nv} {m : Mach}
    (h : f s.nv s.m = (nv, m)) : nvBoundary f s = .next { s with nv := nv, m := endWrites m } := by
  simp only [nvBoundary, onNv, up, if_true, h]

/-! ### The update (R449, R450) -/

/-- R449: an update opens in the bank that does not run. -/
theorem fwBankBegin_eff_opens {h : Hdr} {length b : Nat} {nv : Nv} {m : Mach} (target : updTarget nv m = some b) :
    (pktFwBankBegin h length).eff nv m = ((beginUpdate false length b nv m).1, reply h .ok b (beginUpdate false length b nv m).2) := by
  simp only [pktFwBankBegin, target]

/-- R449: bytes that have been read and may still be written are programmed, and their command is answered. -/
theorem fwDataProgrammed_lands {nv : Nv} {m : Mach} {d : FwData} {q : Nat} {bs : List Byte} (pending : m.life.dataPending = some d)
    (seq : d.seq = some q) (done : d.done = true) (bytes : d.bytes = some bs) (live : d.live = true) {r : Nv × Mach}
    (programs : r = programBytes bs nv (modLife (fun l => { l with dataPending := none }) m)) :
    fwDataProgrammed nv m = (r.1, finalise 0 q .ok r.2.life.written r.2) := by
  obtain ⟨_, _, _, _, _⟩ := d
  subst seq done bytes live programs
  simp only [fwDataProgrammed, pending, if_true]

/-- R450: the check of a commit that a host asked for ends the update with its verdict. -/
theorem fwCommitDone_ends {m : Mach} {q b : Nat} {nv nv' : Nv} {v : Status} (pending : m.life.commitPending = some (some q))
    (bank : b = m.life.updBank) (verdict : v = commitVerdict (bankOf nv b)) (commits : nv' = commitBank b nv) :
    fwCommitDone nv m = (nv', finalise 0 q v (if v = .ok then (bankOf nv' b).fwRev else 0)
      (fwEvent nv' (if v = .ok then 2 else 4) b (bankOf nv' b).st
        (modLife (fun l => { l with updOpen := false, commitPending := none }) m))) := by
  simp only [fwCommitDone, pending, beq_iff_eq, bank, verdict, commits]

/-! ### Attestation (R455) -/

section
variable {s : State} (p : Packet) (h : Hdr) (nonce : List Byte) (out : Nat)

/-- R455: a report on leaf `leaf` is to be signed, which leaves `left` leaves of those taken. -/
def startsSigning (s : State) (nv : Nv) (h : Hdr) (nonce : List Byte) (out leaf left : Nat) : Mach → Mach :=
  modLife fun l => { l with
    leavesLeft := left, attestUs := s.m.tick.nowUs :: recentSigns s.m
    attests := l.attests ++ [(h.ctx, h.seq, attestReport nv s.m h.ctx nonce leaf, out)] }

variable (rate : (recentSigns s.m).length < 256)
include rate

/-- R455: a report takes the next of the leaves in hand. -/
theorem startAttest_hasLeaves (left : s.m.life.leavesLeft ≠ 0) : startAttest h nonce out s.nv (taken p s) =
    (s.nv, startsSigning s s.nv h nonce out (s.nv.leaves - s.m.life.leavesLeft) (s.m.life.leavesLeft - 1) (taken p s)) := by
  have signs : ¬256 ≤ (recentSigns s.m).length := Nat.not_le.2 rate
  have same : recentSigns (taken p s) = recentSigns s.m := rfl
  simp only [startAttest, modLife_life, taken_life, left, decide_false, Bool.false_and, Bool.false_eq_true, if_false, same, signs]
  rfl

/-- R455: with none in hand, 1,024 are taken at once, and the first of them signs. -/
theorem startAttest_takesLeaves (none : s.m.life.leavesLeft = 0) (more : s.nv.leaves < 2 ^ 40) {nv : Nv}
    (taking : nv = { s.nv with leaves := s.nv.leaves + 1024 }) : startAttest h nonce out s.nv (taken p s) =
    (nv, startsSigning s nv h nonce out s.nv.leaves 1023 (taken p s)) := by
  have signs : ¬256 ≤ (recentSigns s.m).length := Nat.not_le.2 rate
  have same : recentSigns (taken p s) = recentSigns s.m := rfl
  have leaves : ¬2 ^ 40 ≤ s.nv.leaves := Nat.not_le.2 more
  subst taking
  simp only [startAttest, modLife_life, taken_life, none, leaves, decide_false, Bool.and_false, Bool.false_eq_true, if_false,
    if_true, same, signs, Nat.add_sub_cancel]
  rfl

end

/-- R455: a signed report is written for its request and answered. -/
theorem attestSigned_answers {m : Mach} {c q out : Nat} {rep : List Byte} {r : List (Nat × Nat × List Byte × Nat)} {x : Req}
    (signs : m.life.attests = (c, q, rep, out) :: r) (found : findReq m c false q = some x) (live : x.preFlr = false) :
    attestSigned m = finalise c q .ok 3732 (putHost out (rep ++ padTo 3604 (Config.identitySign (field rep 100 5) rep))
      (modLife (fun l => { l with attests := r }) m)) := by
  have same : findReq (modLife (fun l => { l with attests := r }) m) c false q = some x := found
  simp only [attestSigned, signs, same, live, Bool.not_false, onlyIf, if_true]

/-! ### The statements -/

/-- Settles O14: each packet's effect, and the reply of those that end at once. -/
theorem firmwareOpcodesAct : Obligations.FirmwareOpcodesAct := by
  refine ⟨?begins, ?data, ?abandon, ?commit, ?attest, ?attestTakes⟩
  case begins =>
    intro s h length b act target
    exact runPacket_replied _ s act .ok b _ (fwBankBegin_eff_opens target)
  case data =>
    intro s h len ptr off act
    exact runPacket_acts _ s act
  case abandon =>
    rintro s h b act rfl
    exact runPacket_replied _ s act .ok 0 _ rfl
  case commit =>
    intro s h act
    exact runPacket_acts _ s act
  case attest =>
    intro s h nonce out act left rate
    exact runPacket_acted _ s act _ (startAttest_hasLeaves _ h nonce out rate left)
  case attestTakes =>
    intro s h nonce out nv act none more rate taking
    exact runPacket_acted _ s act _ (startAttest_takesLeaves _ h nonce out rate none more taking)

/-- Settles O38: each slow part by what waits for it. -/
theorem firmwareHappenings : Obligations.FirmwareHappenings := by
  refine ⟨?programmed, ?checked, ?signed⟩
  case programmed =>
    intro s d q bs r up pending seq done bytes live programs
    exact nvBoundary_ofUp up (fwDataProgrammed_lands pending seq done bytes live programs)
  case checked =>
    intro s q b nv v up pending bank verdict commits
    exact nvBoundary_ofUp up (fwCommitDone_ends pending bank verdict commits)
  case signed =>
    intro s c q rep out r x up signs found live
    exact (atBoundary_ofUp up fun _ => attestSigned).trans (by rw [attestSigned_answers signs found live])

end Sys2Proof.Machine

/-! ## Ports and what they send

What sending on ports, leaving ACTIVE and going down change, of the port and of everything else. -/

namespace Sys2Proof.Machine

/-! ### Sending (R316) -/

/-- A port apart from its queues of what is sent. -/
def SameButQueues (x y : Port) : Prop := y = { x with txWait := y.txWait, replayBuf := y.replayBuf, txNext := y.txNext }

theorem SameButQueues.refl (x : Port) : SameButQueues x x := rfl

theorem SameButQueues.trans {x y z : Port} (h : SameButQueues x y) (k : SameButQueues y z) : SameButQueues x z :=
  Eq.trans k (congrArg (fun y : Port => { y with txWait := z.txWait, replayBuf := z.replayBuf, txNext := z.txNext }) h)

/-- What queues nothing else is read of: a part of a port that its queues are no part of. -/
theorem SameButQueues.part {α : Type} {x y : Port} (h : SameButQueues x y) (π : Port → α)
    (apart : ∀ (x : Port) a b c, π { x with txWait := a, replayBuf := b, txNext := c } = π x) : π y = π x := by
  rw [h, apart]

/-- From `a` to `b` ports have sent: their queues, the fabric's account of notices and what goes out, and nothing else. -/
structure PortsSend (a b : Mach) : Prop where
  rest : b = { a with link := { a.link with ports := b.link.ports }, fab := b.fab, out := b.out }
  ports : ∀ q, SameButQueues (portOf a q) (portOf b q)
  count : b.link.ports.length = a.link.ports.length
  grows : a.out <+: b.out

theorem PortsSend.refl (m : Mach) : PortsSend m m := ⟨rfl, fun _ => .refl _, rfl, List.prefix_refl _⟩

theorem PortsSend.trans {a b c : Mach} (h : PortsSend a b) (k : PortsSend b c) : PortsSend a c where
  rest := k.rest.trans (congrArg (fun m : Mach => { m with link := { m.link with ports := c.link.ports }, fab := c.fab, out := c.out }) h.rest)
  ports q := (h.ports q).trans (k.ports q)
  count := k.count.trans h.count
  grows := h.grows.trans k.grows

theorem portsSend_forEach {α : Type} (l : List α) (f : α → Mach → Mach) (h : ∀ a m, PortsSend m (f a m)) (m : Mach) :
    PortsSend m (forEach l f m) :=
  forEach_ind (PortsSend m) l f (fun a x sent => sent.trans (h a x)) m (.refl m)

/-- What goes out is all that sending changes. -/
theorem send_rest (o : Out) (m : Mach) : send o m = { m with out := (send o m).out } := by
  simp only [send]
  split
  · rfl
  · split <;> rfl

theorem portsSend_send (o : Out) (m : Mach) : PortsSend m (send o m) where
  rest := (send_rest o m).trans (by rw [send_rest o m])
  ports q := by rw [send_rest]; exact .refl _
  count := by rw [send_rest]
  grows := grows_send o m

theorem portsSend_modFab (f : FabSt → FabSt) (m : Mach) : PortsSend m (modFab f m) := ⟨rfl, fun _ => .refl _, rfl, List.prefix_refl _⟩

/-- A port of which only the queues change. -/
theorem portsSend_queues (p : Nat) (held : Port → List Out) (sent : Port → List (Nat × Nat)) (next : Port → Nat) (m : Mach) :
    PortsSend m (modPort p (fun x => { x with txWait := held x, replayBuf := sent x, txNext := next x }) m) where
  rest := rfl
  ports q := by
    rw [portOf_modPort]
    split
    · rfl
    · exact .refl _
  count := modAt_length ..
  grows := List.prefix_refl _

theorem portsSend_txFlit (p : Nat) (m : Mach) : PortsSend m (txFlit p m) := portsSend_queues p _ _ _ m

theorem portsSend_linkSend (p : Nat) (o : Out) (m : Mach) : PortsSend m (linkSend p o m) := by
  simp only [linkSend]
  split
  · exact .refl m
  · split
    · exact (portsSend_txFlit p m).trans (portsSend_send o _)
    · exact portsSend_queues p _ _ _ m

/-- Another port than the one that sends stays as it was. -/
theorem portOf_linkSend_other {p q : Nat} (other : q ≠ p) (o : Out) (m : Mach) : portOf (linkSend p o m) q = portOf m q := by
  have kept : ∀ f m, portOf (modPort p f m) q = portOf m q := fun f m => by rw [portOf_modPort, if_neg fun h => other h.1.symm]
  simp only [linkSend]
  split
  · rfl
  · split
    · rw [send_rest]
      exact kept _ m
    · exact kept _ m

theorem portsSend_drainFrom (n p : Nat) (m : Mach) : PortsSend m (drainFrom n p m) := by
  induction n generalizing m with
  | zero => exact .refl m
  | succ n ih =>
    simp only [drainFrom]
    split
    · exact .refl m
    · split
      · exact (portsSend_queues p _ _ _ m).trans ((portsSend_txFlit p _).trans ((portsSend_send _ _).trans (ih _)))
      · exact .refl m

theorem portsSend_drainPort (p : Nat) (m : Mach) : PortsSend m (drainPort p m) := portsSend_drainFrom ..

/-! ### Notices (R358) -/

theorem portsSend_spread (n : Notice) (butPort : Nat) (m : Mach) : PortsSend m (spread n butPort m) :=
  portsSend_forEach _ _ (fun p => portsSend_linkSend p _) m

/-- A notice goes out on ACTIVE ports alone. -/
theorem portOf_spread_inactive {q : Nat} {m : Mach} (inactive : (portOf m q).state ≠ .active) (n : Notice) (butPort : Nat) :
    portOf (spread n butPort m) q = portOf m q := by
  have apart : ∀ p ∈ (activePorts m).filter (· != butPort), q ≠ p := by
    rintro p listed rfl
    exact inactive (by simpa [activePorts] using (List.mem_filter.1 (List.mem_filter.1 listed).1).2)
  simp only [spread]
  generalize (activePorts m).filter (· != butPort) = l at apart
  induction l generalizing m with
  | nil => rfl
  | cons p l ih =>
    have first := portOf_linkSend_other (apart p List.mem_cons_self) (.notice p n) m
    exact (ih (by rw [first]; exact inactive) fun r listed => apart r (List.mem_cons_of_mem p listed)).trans first

theorem portsSend_ownNotice (k : NoticeKind) (m : Mach) : PortsSend m (ownNotice k m) :=
  (portsSend_spread _ 6 m).trans (portsSend_modFab ..)

theorem portsSend_latchLoss (x cause : Nat) (m : Mach) : PortsSend m (latchLoss x cause m) := by
  simp only [latchLoss]
  split
  · exact .refl m
  · exact portsSend_modFab ..

theorem portOf_latchLoss (x cause : Nat) (m : Mach) (q : Nat) : portOf (latchLoss x cause m) q = portOf m q := by
  simp only [latchLoss]
  split <;> rfl

theorem portsSend_noteDown (x by_ port : Nat) (m : Mach) : PortsSend m (noteDown x by_ port m) := by
  simp only [noteDown]
  split
  · exact (portsSend_modFab _ m).trans (portsSend_latchLoss ..)
  · exact portsSend_modFab ..

theorem portOf_noteDown (x by_ port : Nat) (m : Mach) (q : Nat) : portOf (noteDown x by_ port m) q = portOf m q := by
  simp only [noteDown]
  split
  · exact portOf_latchLoss ..
  · rfl

/-! ### Ports that leave ACTIVE and go down (R322) -/

theorem portsSend_leaveActive (p : Nat) (x : Port) (m : Mach) : PortsSend m (leaveActive p x m) := by
  simp only [leaveActive]
  split
  · split
    · exact .refl m
    · exact (portsSend_ownNotice _ m).trans (portsSend_noteDown ..)
  · exact .refl m

theorem portOf_leaveActive_inactive {q : Nat} {m : Mach} (inactive : (portOf m q).state ≠ .active) (p : Nat) (x : Port) :
    portOf (leaveActive p x m) q = portOf m q := by
  simp only [leaveActive]
  split
  · split
    · rfl
    · rw [portOf_noteDown]
      exact portOf_spread_inactive inactive ..
  · rfl

/-- R322: a port in DOWN or FAILED. -/
def gone (st : PortState) (x : Port) : Port :=
  { x with state := st, qcause := 0, width := 0, proto := 0, peer := none, accepted := false, selfPass := false
           relock := false, waiting := false, rxNext := 0, txNext := 0, nakking := false, replayBuf := [], txWait := []
           laneMap := [], txMap := [], spares := 0, laneErrs := []
           causes := x.causes ||| (if st == .failed then 64 else 2) ||| (if x.state == .quarantine then 32 else 0)
           changed := x.changed || x.state != st }

/-- R322: the machine once a port has gone and its partner's loss has been told, before its going is latched. -/
def leftBy (p : Nat) (st : PortState) (m : Mach) : Mach := leaveActive p (portOf m p) (modPort p (gone st) m)

/-- From `a` to `b` a command of the ports has run: it changes ports, the fabric's notices, the latches, a recording and what
goes out. -/
def LinksRun (a b : Mach) : Prop :=
  b = { a with link := { a.link with ports := b.link.ports }, fab := b.fab, lat := b.lat, cap := b.cap, out := b.out }

theorem LinksRun.refl (m : Mach) : LinksRun m m := rfl

theorem LinksRun.trans {a b c : Mach} (h : LinksRun a b) (k : LinksRun b c) : LinksRun a c :=
  Eq.trans k (congrArg (fun m : Mach => { m with
    link := { m.link with ports := c.link.ports }, fab := c.fab, lat := c.lat, cap := c.cap, out := c.out }) h)

/-- A part of the machine that such a command leaves alone. -/
theorem LinksRun.part {α : Type} {a b : Mach} (h : LinksRun a b) (π : Mach → α)
    (apart : ∀ (m : Mach) l f x c o, π { m with link := { m.link with ports := l }, fab := f, lat := x, cap := c, out := o } = π m) :
    π b = π a := by
  rw [h, apart]

theorem PortsSend.linksRun {a b : Mach} (h : PortsSend a b) : LinksRun a b :=
  h.rest.trans (congrArg (fun x : Mach => { a with
    link := { a.link with ports := b.link.ports }, fab := b.fab, lat := x.lat, cap := x.cap, out := b.out }) h.rest.symm)

theorem linksRun_modPort (p : Nat) (f : Port → Port) (m : Mach) : LinksRun m (modPort p f m) := rfl

theorem linksRun_modLat (f : Latched → Latched) (m : Mach) : LinksRun m (modLat f m) := rfl

theorem linksRun_capture (kind cls source : Nat) (body : List Byte) (m : Mach) : LinksRun m (capture kind cls source body m) := by
  obtain ⟨c, h⟩ := captureAt_cap (if cls = 0 then [] else [1, source]) kind cls source body m
  rw [capture, h]
  rfl

@[simp] theorem capture_link (kind cls source : Nat) (body : List Byte) (m : Mach) : (capture kind cls source body m).link = m.link := by
  obtain ⟨c, h⟩ := captureAt_cap (if cls = 0 then [] else [1, source]) kind cls source body m
  rw [capture, h]

@[simp] theorem portOf_capture (kind cls source : Nat) (body : List Byte) (m : Mach) (q : Nat) :
    portOf (capture kind cls source body m) q = portOf m q := by
  rw [portOf, capture_link, portOf]

theorem portOf_modPort_self {m : Mach} {p : Nat} (inside : p < m.link.ports.length) (f : Port → Port) :
    portOf (modPort p f m) p = f (portOf m p) := by
  rw [portOf_modPort, if_pos ⟨rfl, inside⟩]

theorem portOf_modPort_other {m : Mach} {p q : Nat} (other : q ≠ p) (f : Port → Port) : portOf (modPort p f m) q = portOf m q := by
  rw [portOf_modPort, if_neg fun h => other h.1.symm]

section
variable {p : Nat} {st : PortState} {m : Mach}

theorem portsSend_leftBy : PortsSend (modPort p (gone st) m) (leftBy p st m) := portsSend_leaveActive ..

/-- A port that goes is latched as down, but out of DETECT. -/
theorem portGoes_eq : portGoes p st m =
    if (portOf m p).state = .detect ∨ (portOf m p).state = st then leftBy p st m
    else capture 0x0A 3 p (le 1 (portCode st)) (modLat (fun l => { l with portDown := l.portDown ++ [p] }) (leftBy p st m)) := by
  unfold portGoes
  exact if_congr (by simp) rfl rfl

theorem linksRun_portGoes : LinksRun m (portGoes p st m) := by
  have left : LinksRun m (leftBy p st m) := (linksRun_modPort ..).trans portsSend_leftBy.linksRun
  rw [portGoes_eq]
  split
  · exact left
  · exact left.trans ((linksRun_modLat ..).trans (linksRun_capture ..))

theorem portOf_portGoes (q : Nat) : portOf (portGoes p st m) q = portOf (leftBy p st m) q := by
  rw [portGoes_eq]
  split
  · rfl
  · rw [portOf_capture, portOf_modLat]

/-- Another port at most sends. -/
theorem portGoes_other {q : Nat} (other : q ≠ p) : SameButQueues (portOf m q) (portOf (portGoes p st m) q) := by
  rw [portOf_portGoes]
  exact portOf_modPort_other other (gone st) ▸ portsSend_leftBy.ports q

theorem portGoes_count : (portGoes p st m).link.ports.length = m.link.ports.length := by
  have left : (leftBy p st m).link.ports.length = m.link.ports.length := portsSend_leftBy.count.trans (modAt_length ..)
  rw [portGoes_eq]
  split
  · exact left
  · rw [capture_link]
    exact left

theorem portGoes_self (down : st ≠ .active) (inside : p < m.link.ports.length) : portOf (portGoes p st m) p = gone st (portOf m p) := by
  have self := portOf_modPort_self inside (gone st)
  rw [portOf_portGoes, leftBy, portOf_leaveActive_inactive (by rw [self]; exact down), self]

theorem portGoes_portDown (locked : (portOf m p).state ≠ .detect) (up : (portOf m p).state ≠ st) :
    (portGoes p st m).lat.portDown = m.lat.portDown ++ [p] := by
  have left : (leftBy p st m).lat = m.lat := by rw [portsSend_leftBy.rest]; rfl
  rw [portGoes_eq, if_neg (by simp [locked, up]), capture, captureAt_lat, modLat_lat, left]

end

end Sys2Proof.Machine

/-! ## The plan, port and group opcodes

What the opcodes of the rack plan, of the ports and of the job group start. -/

namespace Sys2Proof.Machine

/-- A packet acted on whose effect ends in its reply, with what its effect comes to. -/
theorem runPacket_repliedWith {p : Packet} {s : State} (h : Acts p s) {st : Status} {d : Nat} {nv : Nv} {m : Mach}
    (e : p.eff s.nv (taken p s) = (nv, finaliseReq p.hdr.ctx p.info.urgent p.hdr.seq st d m)) :
    runPacket p s = .next (replied p s st d (nv, m)) := runPacket_replied p s h st d (nv, m) e

/-! ### PORT_RESET (R334) -/

/-- R334: a port reset counts its failures anew and, where links are enabled, trains at once. -/
def retrainPort (p : Nat) (m : Mach) : Mach :=
  modPort p (fun x =>
    let x := { x with fails := 0, lockFails := 0, rxFailed := 0, txFailed := 0 }
    if m.link.enabled then toDetect m x else x) (portGoes p .down m)

/-- R334: the state of a port that has been reset. -/
def retrainState (m : Mach) : PortState := if m.link.enabled then .detect else .down

theorem linksRun_retrainPort (p : Nat) (m : Mach) : LinksRun m (retrainPort p m) := linksRun_portGoes.trans (linksRun_modPort ..)

theorem retrainPort_enabled (p : Nat) (m : Mach) : (retrainPort p m).link.enabled = m.link.enabled :=
  (linksRun_retrainPort p m).part (·.link.enabled) fun _ _ _ _ _ _ => rfl

theorem retrainPort_count (p : Nat) (m : Mach) : (retrainPort p m).link.ports.length = m.link.ports.length :=
  (modAt_length ..).trans portGoes_count

theorem retrainPort_self {p : Nat} {m : Mach} (inside : p < m.link.ports.length) :
    (portOf (retrainPort p m) p).state = retrainState m := by
  rw [retrainPort, portOf_modPort_self (portGoes_count.symm ▸ inside), portGoes_self (by decide) inside, retrainState]
  cases m.link.enabled <;> rfl

theorem retrainPort_other {p q : Nat} (other : q ≠ p) (m : Mach) : (portOf (retrainPort p m) q).state = (portOf m q).state := by
  rw [retrainPort, portOf_modPort_other other]
  exact (portGoes_other other).part (·.state) fun _ _ _ _ => rfl

@[simp] theorem forEach_cons {α : Type} (a : α) (l : List α) (f : α → Mach → Mach) (m : Mach) :
    forEach (a :: l) f m = forEach l f (f a m) := rfl

/-- R334: of the ports reset one after another, each is DOWN or trains. -/
theorem retrainPorts_state (l : List Nat) {m : Mach} {p : Nat} (inside : p < m.link.ports.length) :
    (portOf (forEach l retrainPort m) p).state = if p ∈ l then retrainState m else (portOf m p).state := by
  induction l generalizing m with
  | nil => simp
  | cons q l ih =>
    have rest := ih (m := retrainPort q m) ((retrainPort_count q m).symm ▸ inside)
    have same : retrainState (retrainPort q m) = retrainState m := by rw [retrainState, retrainPort_enabled, retrainState]
    by_cases self : p = q
    · subst self
      simpa [same, retrainPort_self inside] using rest
    · simpa [same, self, retrainPort_other self] using rest

theorem linksRun_retrainPorts (l : List Nat) (m : Mach) : LinksRun m (forEach l retrainPort m) :=
  forEach_ind (LinksRun m) l retrainPort (fun p x run => run.trans (linksRun_retrainPort p x)) m (.refl m)

/-- What is written at the end of a boundary keeps a port's state. -/
theorem portState_ofQuiet {a b : Mach} (same : quiet b = quiet a) (p : Nat) : (portOf b p).state = (portOf a p).state := by
  have kept : ∀ m : Mach, (portOf (quiet m) p).state = (portOf m p).state := fun m => by
    simp only [portOf, quiet, List.getElem?_map]
    cases m.link.ports[p]? <;> rfl
  rw [← kept b, same, kept a]

theorem endWrites_portResets (m : Mach) : (endWrites m).link.portResets = m.link.portResets := by
  have kept : ∀ m : Mach, (quiet m).link.portResets = m.link.portResets := fun _ => rfl
  rw [← kept, quiet_endWrites, kept]

/-! ### PLAN_LOAD with CLEAR (R326) -/

theorem planClear_eff (h : Hdr) (p : Packet) (s : State) (nv : Nv) :
    (pktPlanClear h).eff nv (taken p s) = (nv, reply h .ok 0 (recheck { taken p s with
      link := { s.m.link with plan := none, overrides := List.replicate 6 none } })) := by
  simp only [pktPlanClear, packet, taken_link]

/-! ### REMAP_ACCEPT (R332) -/

/-- R332: a port in quarantine for what the plan expects, whose partner is the one named, is overridden and checked again. -/
theorem remapAccept_eff_overrides {s : State} {h : Hdr} {port node peer serial : Nat} {i : Ident} (p : Packet) (nv : Nv)
    (cause : (portOf s.m port).qcause = 2 ∨ (portOf s.m port).qcause = 3) (partner : (portOf s.m port).peer = some i)
    (named : i.node = node ∧ i.port = peer ∧ i.serial = serial) :
    (pktRemapAccept h port node peer serial).eff nv (taken p s) = (nv, reply h .ok port (recheck { taken p s with
      link := { s.m.link with overrides := s.m.link.overrides.set port (some (node, peer, serial)) } })) := by
  obtain ⟨rfl, rfl, rfl⟩ := named
  have hit : (((portOf s.m port).qcause == 2 || (portOf s.m port).qcause == 3) &&
      ((portOf s.m port).peer.map fun j => j.node == i.node && j.port == i.port && j.serial == i.serial).getD false) = true := by
    simpa [partner] using cause
  simp only [pktRemapAccept, packet, portOf_taken, hit, if_true, taken_link]

/-! ### GROUP_LEAVE (R367) -/

/-- R367, R378: with no join under way, a leave is noted and the open collectives fault. -/
theorem groupLeave_eff {s : State} {h : Hdr} (p : Packet) (nv : Nv) (none : s.m.tick.join = none) :
    (pktGroupLeave h).eff nv (taken p s) = (nv, faultColls nv.flash.state (fun _ => true) .poisoned 4
      (modTick (fun t => { t with join := Option.none, leaves := t.leaves ++ [(h.seq, t.count)] }) (taken p s))) := by
  have alone : cancelJoin h (taken p s) = modTick (fun t => { t with join := Option.none }) (taken p s) := by
    simp only [cancelJoin, taken_tick, none, modTick]
    rw [← none, ← taken_tick p s]
  simp only [pktGroupLeave, packet, alone]
  rfl

/-! ### The statement -/

/-- Settles O12: each packet's effect, and the reply of those that end at once. -/
theorem planPortAndGroupOpcodesAct : Obligations.PlanPortAndGroupOpcodesAct := by
  refine ⟨?load, ?clear, ?reset, ?accept, ?join, ?leave⟩
  case load =>
    intro s h ptr len act
    exact runPacket_acts _ s act
  case clear =>
    intro s h act
    exact runPacket_repliedWith act (planClear_eff h _ s s.nv)
  case reset =>
    intro s h ports act
    obtain ⟨x, reset⟩ : ∃ x, x = forEach ((List.range 6).filter ports.testBit) retrainPort (taken (pktPortReset h ports) s) := ⟨_, rfl⟩
    have eff : (pktPortReset h ports).eff s.nv (taken (pktPortReset h ports) s) =
        (s.nv, { x with link := { x.link with portResets := x.link.portResets ++ [(h.seq, ports)] } }) := by rw [reset]; rfl
    have resets : x.link.portResets = s.m.link.portResets := by
      rw [reset]
      exact (linksRun_retrainPorts ..).part (·.link.portResets) fun _ _ _ _ _ _ => rfl
    refine ⟨_, runPacket_acted _ s act _ eff, ?_, fun p inside six named => ?_⟩
    · simp only [acted, endWrites_portResets, resets]
    · simp only [acted, portState_ofQuiet (quiet_endWrites _)]
      have state := retrainPorts_state ((List.range 6).filter ports.testBit) (m := taken (pktPortReset h ports) s) inside
      rw [if_pos (List.mem_filter.2 ⟨List.mem_range.2 six, named⟩), ← reset] at state
      exact state
  case accept =>
    intro s h port node peer serial i act cause partner node' port' serial'
    exact runPacket_repliedWith act (remapAccept_eff_overrides _ s.nv cause partner ⟨node', port', serial'⟩)
  case join =>
    intro s h group root planId members act
    exact runPacket_acts _ s act
  case leave =>
    intro s h act none
    exact runPacket_acted _ s act _ (groupLeave_eff _ s.nv none)

end Sys2Proof.Machine

/-! ## The capture opcodes

What starting and stopping a recording comes to. -/

namespace Sys2Proof.Machine

section
variable {h : Hdr} {disarm : Bool} {m : Mach} (nv : Nv)

/-- R467: a stop that finds nothing running disarms at most. -/
theorem captureStop_eff_idle (atFlag : Bool) (atTick : Nat) (armed : m.cap.state ≠ 1) (tail : m.cap.state ≠ 2) :
    (pktCaptureStop h disarm atFlag atTick).eff nv m =
      (if disarm then { nv with capArmed := none } else nv, reply h .ok (wrap 32 m.cap.lastTick) m) := by
  have idle : (m.cap.state != 1 && m.cap.state != 2) = true := by simp [armed, tail]
  simp only [pktCaptureStop, idle, if_true]

/-- R467: one for a tick to come waits for it. -/
theorem captureStop_eff_waits {atTick : Nat} (runs : m.cap.state = 1 ∨ m.cap.state = 2) (ahead : m.tick.count ≤ atTick) :
    (pktCaptureStop h disarm true atTick).eff nv m =
      (if disarm then { nv with capArmed := none } else nv,
       { m with cap := { m.cap with stops := m.cap.stops ++ [(h.seq, atTick)] } }) := by
  have busy : (m.cap.state != 1 && m.cap.state != 2) = false := by rcases runs with on | on <;> simp [on]
  have waits : (true && decide (m.tick.count ≤ atTick)) = true := by simpa using ahead
  simp only [pktCaptureStop, busy, Bool.false_eq_true, if_false, waits, if_true]

end

/-! ### The statement -/

/-- Settles O15: each packet's effect, and the reply of those that end at once. -/
theorem captureOpcodesAct : Obligations.CaptureOpcodesAct := by
  refine ⟨?start, ?idle, ?waits, ?image⟩
  case start =>
    intro s h fill boot gb triggers post act
    exact runPacket_replied _ s act .ok 0 (_, _) rfl
  case idle =>
    intro s h disarm atFlag tick act armed tail
    exact runPacket_replied _ s act .ok _ (_, _) (captureStop_eff_idle (m := taken _ s) s.nv atFlag tick armed tail)
  case waits =>
    intro s h disarm tick act runs ahead
    exact runPacket_acted _ s act _ (captureStop_eff_waits (m := taken _ s) s.nv runs ahead)
  case image =>
    intro s h out off len act
    exact runPacket_acts _ s act

end Sys2Proof.Machine

/-! ## Raw register writes

A write that waits in BOOT is ordered only when it is latched, after the boot (R120); the statement holds it with the order of
the write it was made from. -/

namespace Sys2Proof.Machine

/-- A module in BOOT that holds no write. -/
def bootingState : State := { pending := [], nv := {}, m := { life := { run := .up, mode := .boot } } }

/-- A write of GUARD_US, with an order that no raw access carries. -/
def orderedWrite : RegWrite := { fn := 0, bar := 2, off := 0x20, width := 4, value := 5, ord := 1 }

/-- R490: in BOOT the raw access is held, with no order yet. -/
theorem booting_holds_unordered :
    exec (.registerWrite 0 2 0x20 4 5) bootingState =
      .next (withM bootingState (modHost (fun h => { h with held := [{ orderedWrite with ord := 0 }] }) bootingState.m)) := by
  rfl

/-- Refutes O47: the write held in BOOT has order 0, where the statement holds one with the order of any write that names the
same access. -/
theorem not_rawRegisterWrites : ¬ Obligations.RawRegisterWrites := by
  rintro ⟨-, -, held, -⟩
  have claimed := held bootingState orderedWrite 0x20 { width := 32, value := 2, writable := true } rfl rfl rfl rfl (by decide)
    rfl rfl (by decide) (by decide)
  have same := booting_holds_unordered.symm.trans claimed
  have orders := congrArg (fun t => t.m.host.held.map (·.ord)) (Host.Outcome.next.inj same)
  exact absurd orders (by decide)

end Sys2Proof.Machine

/-! ## The management port

What a message comes to as it arrives (R485), and what a transfer that the port answers gives (R484, R486). -/

namespace Sys2Proof.Machine

section
variable {m : Mach} {t : TrayMsg} (nv : Nv)

theorem portResponds_eq_false : portResponds m = false ↔ m.life.run ≠ .up ∨ m.i3c.portUp = false := by
  rw [portResponds, Bool.and_eq_false_iff, beq_eq_false_iff_ne]

theorem portResponds_eq_true : portResponds m = true ↔ m.life.run = .up ∧ m.i3c.portUp = true := by
  rw [portResponds, Bool.and_eq_true, beq_iff_eq]

/-- R472: a module that records nothing of a replay takes every message. -/
theorem replayTakes_of_live (live : m.life.replay = false) : replayTakes m t = true := by
  cases t <;> simp [replayTakes, live]

/-- R443: the check of a message reads of the module only how its boot failed. -/
@[simp] theorem trayOk_captureAt (ord : List Nat) (kind cls source : Nat) (body : List Byte) :
    trayOk (captureAt ord kind cls source body m) t = trayOk m t := by
  cases t <;> simp [trayOk]

/-- R485: a message that the port does not take is not acknowledged. -/
theorem receiveMsg_deaf (deaf : portResponds m = false ∨ replayTakes m t = false) :
    receiveMsg t nv m = (nv, send .i3cNack m) := by
  have turned : (!portResponds m || !replayTakes m t) = true := by rcases deaf with h | h <;> simp [h]
  simp only [receiveMsg, turned, if_true]

section
variable (up : portResponds m = true) (live : m.life.replay = false)
include up live

/-- R485: nor is one that finds 16 waiting, and that is counted. -/
theorem receiveMsg_full (full : 16 ≤ m.i3c.queue.length) :
    receiveMsg t nv m = (nv, send .i3cNack (modI3c (fun x => { x with nack := bump 16 1 x.nack }) m)) := by
  simp [receiveMsg, up, replayTakes_of_live live, full]

variable (room : m.i3c.queue.length < 16)
include room

/-- R485: a message that is none of the boot engine's joins the queue, counted where it fails its check. -/
theorem receiveMsg_queues (boundary : ∀ q op a d, t ≠ .recovery q op a d) :
    receiveMsg t nv m = (nv, onlyIf (!trayOk m t) (modI3c fun x => { x with bad := bump 16 1 x.bad })
      (modI3c (fun x => { x with queue := x.queue ++ [t] }) (captureAt (trayOrd t) 0x04 (trayClass t) 0 (trayBytes t) m))) := by
  have space : ¬16 ≤ m.i3c.queue.length := by omega
  cases t with
  | recovery q op a d => exact absurd rfl (boundary q op a d)
  | _ => simp [receiveMsg, up, replayTakes_of_live live, space]

/-- R443: the boot engine acts at once on a RECOVERY that passes its check. -/
theorem receiveMsg_recovers {q op a : Nat} {d : List Byte} (ok : trayOk m (.recovery q op a d) = true) :
    receiveMsg (.recovery q op a d) nv m =
      actRecovery q op a d nv (captureAt [0] 0x04 7 0 (trayBytes (.recovery q op a d)) m) := by
  have space : ¬16 ≤ m.i3c.queue.length := by omega
  simp [receiveMsg, up, replayTakes_of_live live, space, ok, trayOrd, trayClass]

end

/-- R485: a message's row, once what the port does with it is known. -/
theorem onMsg_of {s : State} {x : Mach} (h : receiveMsg t s.nv s.m = (s.nv, x)) : onMsg t s = .next (withM s x) := by
  simp only [onMsg, h, withM]

end

/-! ### The statement about the messages -/

/-- Settles O40: what the port does with a message that it queues, checks, turns away or hands to the boot engine. -/
theorem trayMessagesQueue : Obligations.TrayMessagesQueue := by
  refine ⟨?joins, ?bad, ?full, ?deaf, ?recovers⟩
  case joins =>
    intro s c t row run up live room ok
    have responds := portResponds_eq_true.2 ⟨run, up⟩
    have boundary : ∀ q op a d, t ≠ .recovery q op a d := by
      rcases row with ⟨_, _, _, -, rfl⟩ | ⟨_, _, -, rfl⟩ | ⟨_, -, rfl⟩ | ⟨_, _, -, rfl⟩ | ⟨_, _, _, -, rfl⟩ | ⟨_, _, -, rfl⟩ |
        ⟨_, _, _, _, -, rfl⟩ | ⟨_, _, -, rfl⟩ | ⟨_, _, _, -, rfl⟩ | ⟨_, -, rfl⟩ | ⟨_, -, rfl⟩ <;> nofun
    have message : exec c s = onMsg t s := by
      rcases row with ⟨_, _, _, rfl, rfl⟩ | ⟨_, _, rfl, rfl⟩ | ⟨_, rfl, rfl⟩ | ⟨_, _, rfl, rfl⟩ | ⟨_, _, _, rfl, rfl⟩ |
        ⟨_, _, rfl, rfl⟩ | ⟨_, _, _, _, rfl, rfl⟩ | ⟨_, _, rfl, rfl⟩ | ⟨_, _, _, rfl, rfl⟩ | ⟨_, rfl, rfl⟩ | ⟨_, rfl, rfl⟩ <;> rfl
    have queued := receiveMsg_queues s.nv responds live room boundary
    rw [ok] at queued
    exact message.trans (onMsg_of queued)
  case bad =>
    intro s q n run up live room quiet wide
    have queued := receiveMsg_queues s.nv (portResponds_eq_true.2 ⟨run, up⟩) live room (t := .node q n) (by nofun)
    have fails : trayOk s.m (.node q n) = false := by simpa [trayOk] using wide
    have silent : captureAt (trayOrd (.node q n)) 0x04 (trayClass (.node q n)) 0 (trayBytes (.node q n)) s.m = s.m := by
      simp [captureAt, quiet]
    rw [fails, silent] at queued
    exact onMsg_of queued
  case full =>
    intro s q w l run up live full
    exact onMsg_of (receiveMsg_full s.nv (portResponds_eq_true.2 ⟨run, up⟩) live full)
  case deaf =>
    intro s q w l deaf
    refine onMsg_of (receiveMsg_deaf s.nv ?_)
    rcases deaf with run | port | replay
    · exact .inl (portResponds_eq_false.2 (.inl run))
    · exact .inl (portResponds_eq_false.2 (.inr port))
    · exact .inr (by simp [replayTakes, replay])
  case recovers =>
    rintro s q op arg data run up live room op3 short kind plain fail _ rfl
    have ok : trayOk s.m (.recovery q op arg data) = true := by
      simp [trayOk, blockOk, op3, short, kind, plain, fail]
    exact congrArg (fun r : Nv × Mach => Host.Outcome.next { s with nv := r.1, m := r.2 })
      (receiveMsg_recovers s.nv (portResponds_eq_true.2 ⟨run, up⟩) live room ok)

/-! ### Common command codes (Table 20.5) -/

section
variable {s : State} (f : Mach → Mach) (q : Mach → Bool) (g : I3cSt → I3cSt)

/-- R484: while the port responds, a transfer is answered. -/
theorem onPort_up (up : portResponds s.m = true) : onPort f s = .next (withM s (f s.m)) := by
  simp only [onPort, onM, up, if_true, withM]

/-- R484: while it does not, none is acknowledged. -/
theorem onPort_deaf (deaf : portResponds s.m = false) : onPort f s = .next (withM s (send .i3cNack s.m)) := by
  simp only [onPort, onM, deaf, Bool.false_eq_true, if_false, withM]

/-- R484: a transfer acknowledged. -/
theorem ackIf_takes (up : portResponds s.m = true) (h : q s.m = true) : ackIf q g s = .next (withM s (modI3c g s.m)) := by
  rw [ackIf, onPort_up _ up, h, if_pos rfl]

/-- R484: one whose condition fails is not. -/
theorem ackIf_nacks (up : portResponds s.m = true) (h : q s.m = false) : ackIf q g s = .next (withM s (send .i3cNack s.m)) := by
  rw [ackIf, onPort_up _ up, h, if_neg (by decide)]

end

/-- R484: what the events named are set to. -/
theorem setEvents_eq (e : Nat) (x : I3cSt) :
    setEvents e true x = { x with events := x.events || e.testBit 0, hotJoin := x.hotJoin || e.testBit 3 } ∧
    setEvents e false x = { x with events := x.events && !e.testBit 0, hotJoin := x.hotJoin && !e.testBit 3 } := by
  unfold setEvents
  cases e.testBit 0 <;> cases e.testBit 3 <;> simp

/-- R486: the block of the last boundary, or the one before the first. -/
theorem readBlock_eq (m : Mach) : readBlock m = if m.i3c.block = [] then statusBlock 0 m else m.i3c.block := by
  simp only [readBlock, List.isEmpty_iff]

/-- R484: GETSTATUS reads the next free value (log 9). -/
def statusBytes (m : Mach) : Mach :=
  modStp (fun x => { x with choices := x.choices + 1 }) (send (.i3cRead (padTo 2 (Config.i3cStatusBytes m.stp.choices))) m)

/-! ### The statement about the command codes -/

/-- Settles O41: each transfer is one that the port answers or one that it acknowledges on a condition. -/
theorem commonCommandCodes : Obligations.CommonCommandCodes := by
  refine ⟨?status, ?block, ?enec, ?disec, ?rstdaa, ?without, ?withAddr, ?limits, ?gets, ?rstact, ?reserved, ?deaf⟩
  case status =>
    intro s up
    rw [← readBlock_eq]
    exact onPort_up _ up
  case block =>
    intro m
    exact padTo_length ..
  case enec =>
    intro s e up
    simp only [← (setEvents_eq e _).1]
    exact ackIf_takes (fun _ => true) (setEvents e true) up rfl
  case disec =>
    intro s e up
    simp only [← (setEvents_eq e _).2]
    exact ackIf_takes (fun _ => true) (setEvents e false) up rfl
  case rstdaa =>
    intro s up
    exact ackIf_takes (fun _ => true) (fun x => { x with dynAddr := none }) up rfl
  case without =>
    intro s a up unset
    have free : s.m.i3c.dynAddr.isNone = true := by rw [unset]; rfl
    have none : s.m.i3c.dynAddr.isSome = false := by rw [unset]; rfl
    have given := ackIf_takes (fun m => m.i3c.dynAddr.isNone) (fun x => { x with dynAddr := some a }) up free
    exact ⟨given, given, ackIf_nacks (fun m => m.i3c.dynAddr.isSome) (fun x => { x with dynAddr := some a }) up none⟩
  case withAddr =>
    intro s a b up set
    have held : s.m.i3c.dynAddr.isSome = true := by rw [set]; rfl
    have taken : s.m.i3c.dynAddr.isNone = false := by rw [set]; rfl
    exact ⟨ackIf_takes (fun m => m.i3c.dynAddr.isSome) (fun x => { x with dynAddr := some a }) up held,
      ackIf_nacks (fun m => m.i3c.dynAddr.isNone) (fun x => { x with dynAddr := some a }) up taken⟩
  case limits =>
    intro s n up
    have same := ackIf_takes (fun _ => true) (fun x => x) up rfl
    exact ⟨same, same⟩
  case gets =>
    intro s up
    exact ⟨onPort_up _ up, onPort_up _ up, onPort_up _ up, onPort_up _ up, onPort_up _ up, onPort_up _ up,
      onPort_up statusBytes up⟩
  case rstact =>
    intro s up
    exact ⟨ackIf_takes (fun _ => true) (fun x => x) up rfl, ackIf_takes (fun _ => true) resetPort up rfl⟩
  case reserved =>
    intro s d up high
    have refused : decide (d ≤ 1) = false := decide_eq_false (by omega)
    exact ackIf_nacks (fun _ => decide (d ≤ 1)) (fun x => if d = 1 then resetPort x else x) up refused
  case deaf =>
    intro s c deaf row
    simp only [List.mem_cons, List.not_mem_nil, or_false] at row
    rcases row with rfl | rfl | rfl | rfl | rfl | rfl | rfl | rfl | rfl
    case inr.inl => exact onPort_deaf (modI3c fun x => { x with dynAddr := none }) deaf
    case inr.inr.inr.inr.inr.inr.inr.inl => exact onPort_deaf statusBytes deaf
    all_goals exact onPort_deaf _ deaf

end Sys2Proof.Machine

/-! ## Resets, power-up, readiness and hot swap

What leaves the lifecycle alone, so that what a stage sets there stands once its events and its interrupt have gone out; and
what each happening of the pins, the boot engine and the hot-swap controller comes to. -/

namespace Sys2Proof.Machine

/-! ### What leaves the lifecycle as it is -/

@[simp] theorem send_life (o : Out) (m : Mach) : (send o m).life = m.life := by rw [send_rest]

@[simp] theorem send_mem (o : Out) (m : Mach) : (send o m).mem = m.mem := by rw [send_rest]

@[simp] theorem raiseIbi_life (cause : Nat) (m : Mach) : (raiseIbi cause m).life = m.life := by
  simp only [raiseIbi]
  split
  · exact send_life ..
  · rfl

@[simp] theorem raiseIbi_mem (cause : Nat) (m : Mach) : (raiseIbi cause m).mem = m.mem := by
  simp only [raiseIbi]
  split
  · exact send_mem ..
  · rfl

@[simp] theorem emit_life (c typ ctx : Nat) (body : List Byte) (m : Mach) : (emit c typ ctx body m).life = m.life :=
  (sameDesk_emit ..).life

@[simp] theorem captureEvent_life (cause tick : Nat) (m : Mach) : (captureEvent cause tick m).life = m.life := emit_life ..

@[simp] theorem capture_life (kind cls source : Nat) (body : List Byte) (m : Mach) :
    (capture kind cls source body m).life = m.life := captureAt_life ..

@[simp] theorem capture_mem (kind cls source : Nat) (body : List Byte) (m : Mach) :
    (capture kind cls source body m).mem = m.mem := captureAt_mem ..

@[simp] theorem setEvt_life (c b : Nat) (m : Mach) : (setEvt c b m).life = m.life := rfl

@[simp] theorem fwEvent_life (nv : Nv) (cause b : Nat) (st : BankState) (m : Mach) : (fwEvent nv cause b st m).life = m.life :=
  emit_life ..

@[simp] theorem tenancyDone_life (op seq src dst pods us reclaim : Nat) (m : Mach) :
    (tenancyDone op seq src dst pods us reclaim m).life = m.life := by
  simp only [tenancyDone]
  split
  · rfl
  · exact emit_life ..

@[simp] theorem putReply_life (c seq detail : Nat) (st : Status) (u irq : Bool) (m : Mach) :
    (putReply c seq detail st u irq m).life = m.life := by
  rw [putReply, setEvt_life, modFn_life, send_life]

@[simp] theorem finaliseReq_life (c : Nat) (u : Bool) (q : Nat) (st : Status) (d : Nat) (m : Mach) :
    (finaliseReq c u q st d m).life = m.life := by
  simp only [finaliseReq]
  split
  · rfl
  · generalize same : modFn c _ _ = x
    have kept : x.life = m.life := by rw [← same]; rfl
    split
    · exact kept
    · split
      · exact kept
      · rw [putReply_life, kept]

theorem forEach_life {α : Type} (l : List α) (f : α → Mach → Mach) (h : ∀ a m, (f a m).life = m.life) (m : Mach) :
    (forEach l f m).life = m.life := forEach_keeps (·.life) l f h m

/-! ### Streams cut and slots drained (R266) -/

theorem sameDesk_captureAt (ord : List Nat) (kind cls source : Nat) (body : List Byte) (m : Mach) :
    SameDesk m (captureAt ord kind cls source body m) := by
  obtain ⟨c, h⟩ := captureAt_cap ord kind cls source body m
  rw [h]
  exact ⟨rfl, rfl, rfl, rfl, rfl, rfl⟩

theorem sameDesk_noteDev (t off n : Nat) (m : Mach) : SameDesk m (noteDev t off n m) := by
  have queued : ∀ phys key m, SameDesk m (queueRepair phys key m) := by
    intro phys key m
    simp only [queueRepair]
    split
    · exact .refl m
    · exact sameDesk_modMem ..
  have corrected := fun ks m => sameDesk_forEach ks (fun k m =>
    let phys := (alGet k m.mem.errPlace).getD k; m |> captureCorr 1 (64 * phys) |> queueRepair phys k)
    (fun k m => (sameDesk_captureAt ..).trans (queued ..)) m
  have counted : ∀ f m, SameDesk m (modEcc f m) := fun f m => ⟨rfl, rfl, rfl, rfl, rfl, rfl⟩
  have inPlace : ∀ m, SameDesk m (noteInPlace t off n m) := fun m => ⟨rfl, rfl, rfl, rfl, rfl, rfl⟩
  exact ((counted _ m).trans (corrected _ _)).trans (inPlace _)

theorem sameDesk_devPut (t off : Nat) (bs : List Byte) (m : Mach) : SameDesk m (devPut t off bs m) :=
  ⟨rfl, rfl, rfl, rfl, rfl, rfl⟩

theorem sameDesk_devMerge (t off : Nat) (bs : List Byte) (m : Mach) : SameDesk m (devMerge t off bs m) := by
  simp only [devMerge]
  split <;> exact ((sameDesk_noteDev ..).trans (sameDesk_noteDev ..)).trans (sameDesk_devPut ..)

theorem sameDesk_materialise (t n : Nat) (m : Mach) : SameDesk m (materialise t n m) := by
  have pinned : ∀ m, SameDesk m (pinPoolPage t n m) := by
    intro m
    simp only [pinPoolPage]
    split
    · exact .refl m
    · split
      · exact sameDesk_modMem ..
      · exact .refl m
  simp only [materialise]
  split
  · split
    · have cleared : SameDesk m (clearPage t n m) := ⟨rfl, rfl, rfl, rfl, rfl, rfl⟩
      have filled : SameDesk (clearPage t n m) (modPage t n fillZero (clearPage t n m)) := sameDesk_modMem ..
      exact (cleared.trans filled).trans (pinned _)
    · exact .refl m
  · exact .refl m

theorem sameDesk_mirrorEntry (v : KvView) (ix n : Nat) (m : Mach) : SameDesk m (mirrorEntry v ix n m) :=
  (sameDesk_materialise ..).trans (sameDesk_devMerge ..)

theorem sameDesk_modPool (t k : Nat) (f : Pool → Pool) (m : Mach) : SameDesk m (modPool t k f m) := sameDesk_ten _ m

theorem sameDesk_putKve (c ix : Nat) (e : Kve) (m : Mach) : SameDesk m (putKve c ix e m) := by
  simp only [putKve]
  split
  · exact .refl m
  · exact (sameDesk_modPool ..).trans (sameDesk_mirrorEntry ..)

theorem sameDesk_unmapKve (c ix : Nat) (m : Mach) : SameDesk m (unmapKve c ix m) := by
  have zeroed : SameDesk m (zeroKve c ix m) := by
    simp only [zeroKve]
    split
    · exact .refl m
    · exact (sameDesk_modPool ..).trans (sameDesk_mirrorEntry ..)
  simp only [unmapKve]
  split
  · exact .refl m
  · split
    · exact .refl m
    · exact zeroed.trans (sameDesk_modPool ..)

theorem sameDesk_unmapFrom (c s b : Nat) (m : Mach) : SameDesk m (unmapFrom c s b m) := by
  simp only [unmapFrom]
  split
  · exact .refl m
  · exact sameDesk_forEach _ _ (fun ix m => sameDesk_unmapKve c ix m) m

theorem sameDesk_truncStream (c s len : Nat) (m : Mach) : SameDesk m (truncStream c s len m) := by
  have closed : ∀ m, SameDesk m (if streamLen m c s = 0 then setOpen c s none m else m) := by
    intro m
    split
    · exact sameDesk_modCtx ..
    · exact .refl m
  simp only [truncStream]
  refine .trans ?_ (closed _)
  refine (sameDesk_unmapFrom c s ((len + 63) / 64) m).trans ?_
  split
  · exact .refl _
  · split
    · exact .refl _
    · split
      · exact sameDesk_forEach _ _ (fun ix m => sameDesk_unmapKve c ix m) _
      · exact sameDesk_forEach _ _ (fun x m => sameDesk_putKve c _ _ m) _

@[simp] theorem slotDrain_life (c n : Nat) (m : Mach) : (slotDrain c n m).life = m.life := by
  have cut : (if (slotOf m c n).keep then m else truncStream c (slotOf m c n).stream 0 m).life = m.life := by
    split
    · rfl
    · exact (sameDesk_truncStream ..).life
  simp only [slotDrain]
  split
  · rfl
  · rw [forEach_life _ _ fun q m => finaliseReq_life ..]
    exact cut

@[simp] theorem endDrains_life (m : Mach) : (endDrains m).life = m.life := by
  rw [endDrains, forEach_life]
  intro c m
  exact forEach_life _ _ (fun (b : BatchSlot) m => slotDrain_life c b.slot m) m

/-! ### READY (R445, R451) -/

section
variable {nv : Nv} {m : Mach} (up : m.life.run = .up) (stage : m.life.stage = 7) (mode : m.life.mode = .mgmt)
  (erased : ∀ r ∈ m.ten.rebinds, r.acrossReset = false)
include up stage mode erased

theorem ready_due : (m.life.run != .up || m.life.stage != 7 || m.life.mode != .mgmt || m.ten.rebinds.any (·.acrossReset)) = false := by
  have across : m.ten.rebinds.any (·.acrossReset) = false := List.any_eq_false.2 fun r listed => by simp [erased r listed]
  simp [up, stage, mode, across]

/-- R451: at READY the running bank passes its trial. -/
theorem moduleReady_nv : (moduleReady nv m).1 = passTrial m.life.bank nv := by
  simp only [moduleReady, ready_due up stage mode erased, Bool.false_eq_true, if_false]

/-- R445: READY is written, and what is reported with it leaves that as it is. -/
theorem moduleReady_life : ∃ bootMs, (moduleReady nv m).2.life = { m.life with mode := .ready, bootMs, warm := false, fwEvents := [] } := by
  simp only [moduleReady, ready_due up stage mode erased, Bool.false_eq_true, if_false]
  refine ⟨sat 16 (preTickMs m + (m.tick.nowUs - m.life.stage3Us) / 1000), ?_⟩
  rw [forEach_life _ _ fun e m => captureEvent_life .., forEach_life _ _ fun e m => fwEvent_life ..,
    forEach_life _ _ fun r m => tenancyDone_life .., raiseIbi_life, forEach_life _ _ fun c m => setEvt_life .., emit_life,
    modLife_life, endDrains_life]

end

/-- R445: before READY nothing is written. -/
theorem moduleReady_early {nv : Nv} {m : Mach} (mode : m.life.mode ≠ .mgmt) : moduleReady nv m = (nv, m) := by
  have early : (m.life.run != .up || m.life.stage != 7 || m.life.mode != .mgmt || m.ten.rebinds.any (·.acrossReset)) = true := by
    simp [mode]
  simp only [moduleReady, early, if_true]

/-- R451: a bank that has passed its trial is the one ACTIVE bank, and boots next. -/
theorem passTrial_banks (nv : Nv) (b : Nat) (bank : b = 0 ∨ b = 1) :
    (bankOf (passTrial b nv) b).st = .active ∧ (passTrial b nv).nextBank = b ∧ (bankOf (passTrial b nv) (1 - b)).st ≠ .active := by
  have steppedDown : ∀ k : FwBank, (if k.st == .active then { k with st := .valid } else k).st ≠ .active := by
    intro k
    split
    · nofun
    · simp_all
  rcases bank with rfl | rfl
  · exact ⟨rfl, rfl, steppedDown nv.bankB⟩
  · exact ⟨rfl, rfl, steppedDown nv.bankA⟩

/-! ### Power-up (R436, R440) -/

/-- R440, R465: power-up starts at stage 1, whether a recording starts with it or not. -/
theorem coldPowerUp_life (nv : Nv) (m : Mach) : (coldPowerUp nv m).life = { m.life with run := .up, stage := 1 } := by
  unfold coldPowerUp
  split
  · rfl
  · exact captureEvent_life ..

theorem coldPowerUp_unarmed {nv : Nv} (unarmed : nv.capArmed = none) (m : Mach) :
    coldPowerUp nv m = modLife (fun l => { l with run := .up, stage := 1 }) m := by
  simp only [coldPowerUp, unarmed]

/-- R436, R479: what power-up waits for. -/
def powersUp (l : LifeSt) : Prop := l.run = .held ∧ l.rstLow = false ∧ l.rstShort = false ∧ l.switchOn = true ∧ l.removal = false

theorem tryPowerUp_starts {nv : Nv} {m : Mach} (h : powersUp m.life) : tryPowerUp nv m = coldPowerUp nv m := by
  obtain ⟨held, released, past, on, stays⟩ := h
  simp [tryPowerUp, held, released, past, on, stays]

theorem tryPowerUp_waits {nv : Nv} {m : Mach} (h : m.life.rstLow = true ∨ m.life.rstShort = true) : tryPowerUp nv m = m := by
  rcases h with low | early
  · simp [tryPowerUp, low]
  · simp [tryPowerUp, early]

/-- R479: an attempt at power-up changes of the lifecycle only whether it runs, and its stage. -/
theorem tryPowerUp_life (nv : Nv) (m : Mach) : ∃ run stage, (tryPowerUp nv m).life = { m.life with run, stage } := by
  simp only [tryPowerUp]
  split
  · exact ⟨_, _, coldPowerUp_life nv m⟩
  · exact ⟨_, _, rfl⟩

/-! ### The reset input (R436) -/

theorem assertReset_short {ns : Nat} (short : ns < 1000) (m : Mach) : assertReset ns m = m := by
  simp only [assertReset, short, if_true]

theorem assertReset_long {ns : Nat} (long : 1000 ≤ ns) (m : Mach) : assertReset ns m =
    modLife (fun l => { l with rstLow := true, rstShort := decide (ns < 1000000), last := if m.life.switchOn then 1 else m.life.last })
      (coldReset m) := by
  simp only [assertReset, Nat.not_lt.2 long, if_false]

section
variable {nv : Nv} {m : Mach}

/-- R436: released before the millisecond is over, the module stays held. -/
theorem releaseReset_waits (early : m.life.rstShort = true) : releaseReset nv m = modLife (fun l => { l with rstLow := false }) m :=
  tryPowerUp_waits (.inr early)

theorem releaseReset_starts (held : m.life.run = .held) (past : m.life.rstShort = false) (on : m.life.switchOn = true)
    (stays : m.life.removal = false) : releaseReset nv m = coldPowerUp nv (modLife (fun l => { l with rstLow := false }) m) :=
  tryPowerUp_starts ⟨held, rfl, past, on, stays⟩

/-- R436: the millisecond over before the release, the module stays held. -/
theorem holdEnds_waits (low : m.life.rstLow = true) : holdEnds nv m = modLife (fun l => { l with rstShort := false }) m :=
  tryPowerUp_waits (.inl low)

theorem holdEnds_starts (held : m.life.run = .held) (released : m.life.rstLow = false) (on : m.life.switchOn = true)
    (stays : m.life.removal = false) : holdEnds nv m = coldPowerUp nv (modLife (fun l => { l with rstShort := false }) m) :=
  tryPowerUp_starts ⟨held, released, rfl, on, stays⟩

end

/-! ### The statement about the reset input -/

/-- Settles O56: a short pulse does nothing, and any other resets once and starts power-up once. -/
theorem resetInputFiltered : Obligations.ResetInputFiltered := by
  refine ⟨?short, ?resets, ?release, ?past, ?pulse⟩
  case short =>
    intro s ns short
    exact congrArg (fun m => Host.Outcome.next { s with m := m }) (assertReset_short short s.m)
  case resets =>
    intro s ns long
    refine ⟨withM s (assertReset ns s.m), rfl, rfl, rfl, ?_⟩
    rw [assertReset_long long]
    exact ⟨rfl, rfl, rfl⟩
  case release =>
    intro s held on stays
    refine ⟨withM s (releaseReset s.nv s.m), rfl, fun early => ?_, fun past => ?_⟩
    · rw [releaseReset_waits early]
      exact held
    · rw [releaseReset_starts held past on stays, coldPowerUp_life]
      exact ⟨rfl, rfl⟩
  case past =>
    intro s held on stays
    refine ⟨withM s (holdEnds s.nv s.m), rfl, fun low => ?_, fun released => ?_⟩
    · rw [holdEnds_waits low]
      exact held
    · rw [holdEnds_starts held released on stays, coldPowerUp_life]
      exact ⟨rfl, rfl⟩
  case pulse =>
    intro s ns long brief on stays
    have reset := assertReset_long long s.m
    have early : (assertReset ns s.m).life.rstShort = true := by
      rw [reset]
      exact decide_eq_true brief
    have held : (assertReset ns s.m).life.run = .held := by rw [reset]; rfl
    have pins : (assertReset ns s.m).life.switchOn = true ∧ (assertReset ns s.m).life.removal = false := by
      rw [reset]
      exact ⟨on, stays⟩
    have released : releaseReset s.nv (assertReset ns s.m) = modLife (fun l => { l with rstLow := false }) (assertReset ns s.m) :=
      releaseReset_waits early
    have started := holdEnds_starts (nv := s.nv) (m := modLife (fun l => { l with rstLow := false }) (assertReset ns s.m)) held rfl
      pins.1 pins.2
    refine ⟨withM s (assertReset ns s.m), withM s (releaseReset s.nv (assertReset ns s.m)),
      withM s (holdEnds s.nv (releaseReset s.nv (assertReset ns s.m))), rfl, rfl, rfl, held, ?_, ?_⟩
    · rw [released]
      exact held
    · rw [released, started, coldPowerUp_life]
      exact ⟨rfl, rfl⟩

/-! ### The stages (R440 to R443) -/

theorem bootFails_life (code : Nat) (m : Mach) : (bootFails code m).life = { m.life with fail := code, stage := 15, mode := .boot } :=
  raiseIbi_life ..

section
variable {nv : Nv} {m : Mach} (up : m.life.run = .up)
include up

section
variable {ws : List Nat} (stage : m.life.stage = 2)
include stage

/-- R442: a bank that boots is chosen. -/
theorem bootBankSelect_boots {b : Nat} (boots : (chooseBank nv).1 = some b) : bootBankSelect 0 ws nv m =
    ((chooseBank nv).2.1, modLife (fun l => { l with
        bank := b, fwRev := (bankOf (chooseBank nv).2.1 b).fwRev, proto := (bankOf (chooseBank nv).2.1 b).proto, stage := 3 })
      (modLife (fun l => { l with fwEvents := (chooseBank nv).2.2 }) (trained (· == 0) (applyFuses 0 ws m)))) := by
  simp [bootBankSelect, up, stage, boots]

/-- R443: no bank boots. -/
theorem bootBankSelect_fails (none : (chooseBank nv).1 = none) : bootBankSelect 0 ws nv m =
    ((chooseBank nv).2.1,
      bootFails 1 (modLife (fun l => { l with fwEvents := (chooseBank nv).2.2 }) (trained (· == 0) (applyFuses 0 ws m)))) := by
  simp [bootBankSelect, up, stage, none]

end

section
variable {lf : List Nat} (stage : m.life.stage = 4)
include stage

theorem memoryInitDone_passes : memoryInitDone true lf nv m =
    ((if m.life.warm then (nv, m) else applyRepairs lf nv m).1,
      modLife (fun l => { l with stage := 5 }) (if m.life.warm then (nv, m) else applyRepairs lf nv m).2) := by
  simp [memoryInitDone, up, stage]

theorem memoryInitDone_fails : memoryInitDone false lf nv m = (nv, bootFails 3 m) := by
  simp [memoryInitDone, up, stage]

end

theorem ftlMountDone_eq (stage : m.life.stage = 5) (ok : Bool) : ftlMountDone ok m =
    if ok then modLife (fun l => { l with stage := 7 }) (trained (fun _ => true) m) else bootFails 4 m := by
  simp [ftlMountDone, up, stage]

theorem turnipRelease_eq (stage : m.life.stage = 3) : turnipRelease m =
    modTick (fun t => { t with started := true }) (modLife (fun l => { l with stage := 4, stage3Us := m.tick.nowUs }) m) := by
  simp [turnipRelease, up, stage]

/-- R440, R484: the rails are up, and the port may ask for an address. -/
theorem railsDone_eq (stage : m.life.stage = 1) (on : m.life.switchOn = true) (full : m.life.bulk = .full) : railsDone m =
    let x := modI3c (fun i => { i with portUp := true }) (modLife (fun l => { l with stage := 2 }) m)
    onlyIf (x.i3c.dynAddr.isNone && x.i3c.hotJoin) (send .hotJoin) x := by
  have done : (m.life.run == .up && m.life.stage == 1 && m.life.switchOn && m.life.bulk == .full) = true := by
    simp [up, stage, on, full]
  simp only [railsDone, done, if_true]
  rfl

end

/-- What asks for an address or not leaves the rest. -/
theorem onlyIf_send_rest (b : Bool) (o : Out) (m : Mach) : onlyIf b (send o) m = { m with out := (onlyIf b (send o) m).out } := by
  cases b
  · rfl
  · exact send_rest o m

/-- R437: a warm reset resumes at stage 2. -/
theorem warmResume_eq {m : Mach} (off : m.life.run = .warmOff) : warmResume m =
    send .hotJoin (modI3c (fun i => { i with portUp := true })
      (modLife (fun l => { l with run := .up, stage := 2, warmCount := bump 16 1 l.warmCount }) m)) := by
  simp only [warmResume, off, beq_self_eq_true, if_true]
  rfl

/-- R484: the request for an address goes out whatever the host port does. -/
theorem send_hotJoin_out (m : Mach) : (send .hotJoin m).out = m.out ++ [.hotJoin] := by
  simp only [send, toHost, Bool.and_false, Bool.false_eq_true, if_false]
  cases m.life.replay <;> rfl

/-! ### The statement about resets and stages -/

/-- Settles O42: what each happening of the reset input, the boot engine and the power-up comes to. -/
theorem resetsAndStages : Obligations.ResetsAndStages := by
  refine ⟨?resets, ?short, ?release, ?past, ?waits, ?resume, ?rails, ?boots, ?fails, ?turnip, ?memory, ?memoryFails, ?flash, ?flashFails⟩
  case resets =>
    intro s ns long
    refine ⟨withM s (assertReset ns s.m), rfl, rfl, rfl, ?_⟩
    rw [assertReset_long long]
    exact ⟨rfl, rfl, rfl, rfl, rfl, rfl, rfl, rfl, rfl, rfl, rfl⟩
  case short => exact resetInputFiltered.1
  case release =>
    intro s held past on stays unarmed
    refine congrArg (fun m => Host.Outcome.next { s with m := m }) ((releaseReset_starts held past on stays).trans ?_)
    exact coldPowerUp_unarmed unarmed _
  case past =>
    intro s held released on stays unarmed
    refine congrArg (fun m => Host.Outcome.next { s with m := m }) ((holdEnds_starts held released on stays).trans ?_)
    exact coldPowerUp_unarmed unarmed _
  case waits =>
    intro s held low
    exact congrArg (fun m => Host.Outcome.next { s with m := m }) (holdEnds_waits low)
  case resume =>
    intro s off
    refine ⟨withM s (warmResume s.m), rfl, ?_⟩
    rw [warmResume_eq off, send_hotJoin_out]
    exact ⟨by rw [send_life]; rfl, by rw [send_life]; rfl, by rw [send_life]; rfl, by rw [send_rest]; rfl, rfl⟩
  case rails =>
    intro s up stage on full
    refine ⟨withM s (railsDone s.m), rfl, ?_⟩
    rw [railsDone_eq up stage on full, onlyIf_send_rest]
    exact ⟨rfl, rfl, rfl⟩
  case boots =>
    rintro s ws _ b up stage rfl boots
    refine ⟨{ s with nv := (bootBankSelect 0 ws s.nv s.m).1, m := (bootBankSelect 0 ws s.nv s.m).2 }, rfl, ?_⟩
    rw [bootBankSelect_boots up stage boots]
    exact ⟨rfl, rfl, rfl, rfl, rfl, rfl⟩
  case fails =>
    rintro s ws _ up stage rfl none
    refine ⟨{ s with nv := (bootBankSelect 0 ws s.nv s.m).1, m := (bootBankSelect 0 ws s.nv s.m).2 }, rfl, ?_⟩
    simp only [bootBankSelect_fails up stage none, bootFails_life, and_self]
  case turnip =>
    intro s up stage
    exact congrArg (fun m => Host.Outcome.next { s with m := m }) (turnipRelease_eq up stage)
  case memory =>
    intro s lf up stage
    refine ⟨{ s with nv := (memoryInitDone true lf s.nv s.m).1, m := (memoryInitDone true lf s.nv s.m).2 }, rfl, ?_⟩
    rw [memoryInitDone_passes up stage]
    exact ⟨rfl, fun warm => by rw [if_pos warm]⟩
  case memoryFails =>
    intro s lf up stage
    refine ⟨{ s with nv := (memoryInitDone false lf s.nv s.m).1, m := (memoryInitDone false lf s.nv s.m).2 }, rfl, ?_⟩
    simp only [memoryInitDone_fails up stage, bootFails_life, and_self]
  case flash =>
    intro s up stage
    exact congrArg (fun m => Host.Outcome.next { s with m := m }) (ftlMountDone_eq up stage true)
  case flashFails =>
    intro s up stage
    refine ⟨withM s (ftlMountDone false s.m), rfl, ?_⟩
    simp only [ftlMountDone_eq up stage false, Bool.false_eq_true, if_false, bootFails_life, and_self]

/-! ### Removal and hot swap (R457, R479, R481) -/

/-- What the tray is told of a removal is no part of the lifecycle. -/
theorem onlyIf_sayLeaving_life (b : Bool) (m : Mach) : (onlyIf b sayLeaving m).life = m.life := by
  cases b
  · rfl
  · exact (portsSend_ownNotice .leaving m).linksRun.part (·.life) fun _ _ _ _ _ _ => rfl

theorem presenceLoss_long {ns : Nat} {m : Mach} (long : 200 ≤ ns) (still : m.life.removal = false) (joined : m.life.isolated = false) :
    presenceLoss ns m = modLife (fun l => { l with
        present := false, qualifying := false, removal := true, presenceLatched := l.run == .up })
      (onlyIf (isUp m) sayLeaving (capture 0x0D 2 0 [0] m)) := by
  simp [presenceLoss, Nat.not_lt.2 long, still, joined]

theorem presenceLoss_short {ns : Nat} (short : ns < 200) (m : Mach) : presenceLoss ns m = m := by
  simp [presenceLoss, short]

theorem hotswapIsolate_eq {m : Mach} (removal : m.life.removal = true) (joined : m.life.isolated = false) : hotswapIsolate m =
    modLife (fun l => { l with isolated := true, switchOn := false, run := if l.run == .held then .held else .removed })
      { m with host := { m.host with stopped := true } } := by
  simp [hotswapIsolate, removal, joined]

theorem hotswapBleedDone_eq {m : Mach} (removal : m.life.removal = true) (isolated : m.life.isolated = true) : hotswapBleedDone m =
    modLife (fun l => { l with bulk := .bled, removal := false }) m := by
  simp [hotswapBleedDone, removal, isolated]

theorem chargeStart_eq {nv : Nv} {m : Mach} (present : m.life.present = true) (open_ : m.life.switchOn = false)
    (still : m.life.removal = false) : chargeStart nv m =
    tryPowerUp nv (modLife (fun l => { l with
      switchOn := true, qualifying := false, isolated := false, last := 0
      bulk := if l.bulk == .full then .full else .charging }) m) := by
  simp [chargeStart, present, open_, still]

/-- R446: the announcement, where it is due and nothing records it. -/
theorem announceReady_eq {nv : Nv} {m : Mach} (ready : readyDue m = true) (silent : m.cap.state = 0) : announceReady nv m =
    ({ nv with epochDraws := nv.epochDraws + 1 },
      ownNotice (.fabricReady (1 + Config.randomEpoch nv.epochDraws % 65535)) (modFab (fun f =>
        { f with inForce := f.mode, traySet := trayOf m, trayNodes := (trayOf m).length
                 epoch := 1 + Config.randomEpoch nv.epochDraws % 65535, ready := true }) m)) := by
  have unrecorded : ∀ f bs, capture 0x0E 0 0 bs (modFab f m) = modFab f m := by
    intro f bs
    simp [capture, captureAt, silent]
  simp only [announceReady, ready, if_true, unrecorded]

/-- R22: a module that is up runs. -/
theorem run_of_isUp {m : Mach} (up : isUp m = true) : m.life.run = .up := by
  simp only [isUp, Bool.and_eq_true, beq_iff_eq] at up
  exact up.1

/-! ### The statement about readiness and hot swap -/

/-- Settles O43: READY, the announcement, and what each happening of the hot-swap controller comes to. -/
theorem readinessAndHotSwap : Obligations.ReadinessAndHotSwap := by
  refine ⟨?ready, fun nv b bank => passTrial_banks nv b bank, ?early, ?announces, ?breaks, ?brief, ?isolates, ?bled, ?makes, ?charges, ?full⟩
  case ready =>
    intro s up stage mode erased
    have runs := run_of_isUp up
    obtain ⟨bootMs, life⟩ := moduleReady_life (nv := s.nv) runs stage mode erased
    refine ⟨nvBoundary_ofUp up ?_, by rw [life], by rw [life]⟩
    rw [← moduleReady_nv runs stage mode erased]
  case early =>
    intro s up mode
    exact nvBoundary_ofUp up (moduleReady_early mode)
  case announces =>
    rintro s _ up ready silent rfl
    exact nvBoundary_ofUp up (announceReady_eq ready silent)
  case breaks =>
    intro s ns long still joined
    refine ⟨withM s (presenceLoss ns s.m), rfl, ?_⟩
    rw [presenceLoss_long long still joined]
    have life := (onlyIf_sayLeaving_life (isUp s.m) (capture 0x0D 2 0 [0] s.m)).trans (capture_life ..)
    refine ⟨rfl, rfl, ?_, rfl⟩
    rw [modLife_life, life]
  case brief =>
    intro s ns short
    exact congrArg (fun m => Host.Outcome.next { s with m := m }) (presenceLoss_short short s.m)
  case isolates =>
    intro s removal joined
    refine ⟨withM s (hotswapIsolate s.m), rfl, ?_⟩
    rw [hotswapIsolate_eq removal joined]
    exact ⟨rfl, rfl, rfl, fun runs => if_neg (by simpa using runs), rfl⟩
  case bled =>
    intro s removal isolated
    exact congrArg (fun m => Host.Outcome.next { s with m := m }) (hotswapBleedDone_eq removal isolated)
  case makes =>
    intro s
    exact ⟨withM s (presenceMake s.m), rfl, rfl, rfl, capture_mem ..⟩
  case charges =>
    intro s present off still
    refine ⟨withM s (chargeStart s.nv s.m), rfl, ?_⟩
    rw [chargeStart_eq present off still]
    obtain ⟨run, stage, life⟩ := tryPowerUp_life s.nv (modLife (fun l => { l with
      switchOn := true, qualifying := false, isolated := false, last := 0
      bulk := if l.bulk == .full then .full else .charging }) s.m)
    simp only [life, modLife_life, true_and]
    split <;> nofun
  case full =>
    intro s on
    refine congrArg (fun m => Host.Outcome.next { s with m := m }) ?_
    simp only [bulkCharged, on, if_true]

end Sys2Proof.Machine

/-! ## Power

What a sample, the walk, a shutdown, a lease's end, a calibration and gating each come to. -/

namespace Sys2Proof.Machine

/-! ### Samples (R390, R401) -/

/-- From `a` to `b` clamps may have begun: what is measured stands. -/
structure SameMeasures (a b : PwrSt) : Prop where
  voltMv : b.voltMv = a.voltMv
  current : b.current = a.current
  powerW : b.powerW = a.powerW
  energy : b.energy = a.energy
  tj : b.tj = a.tj
  th : b.th = a.th
  window : b.window = a.window

theorem captureClamp_pwr (k : Clamp) (begins : Bool) (m : Mach) : (captureClamp k begins m).pwr = m.pwr := by
  have kept : ∀ ord kind cls source body, (captureAt ord kind cls source body m).pwr = m.pwr := by
    intro ord kind cls source body
    obtain ⟨c, h⟩ := captureAt_cap ord kind cls source body m
    rw [h]
  exact kept ..

theorem sameMeasures_clamps {p : PwrSt} (l : List Clamp) {m : Mach} (sampled : SameMeasures p m.pwr) :
    SameMeasures p (forEach l beginClamp m).pwr := by
  refine forEach_ind (fun x => SameMeasures p x.pwr) l beginClamp (fun k x h => ?_) m sampled
  simp only [beginClamp, modPwr_pwr, captureClamp_pwr]
  exact ⟨h.voltMv, h.current, h.powerW, h.energy, h.tj, h.th, h.window⟩

/-- R390: what the sample measures. -/
theorem takeSample_measures (x : Sample) (m : Mach) : SameMeasures { m.pwr with
    voltMv := sat 16 x.milliVolt, current := sat 16 x.current10mA, powerW := sat 16 (x.milliVolt * x.current10mA / 100000)
    window := (x.milliVolt * x.current10mA :: m.pwr.window).take 2000, energy := m.pwr.energy + x.milliVolt * x.current10mA
    tj := x.tj, th := x.th } (takeSample x m).pwr := by
  simp only [takeSample]
  split
  · exact sameMeasures_clamps _ ⟨rfl, rfl, rfl, rfl, rfl, rfl, rfl⟩
  · exact ⟨rfl, rfl, rfl, rfl, rfl, rfl, rfl⟩

/-- R402: where nothing records it, the end of a clamp is only latched. -/
theorem latchClampEnds_silent {m : Mach} (silent : m.cap.state = 0) : latchClampEnds m =
    modPwr (fun p => { p with clamps := p.clamps.map fun c => if 10000 ≤ c.clearUs then { c with ended := true } else c }) m := by
  have recorded : forEach (m.pwr.clamps.filter fun c => !c.ended && 10000 ≤ c.clearUs) (fun c => captureClamp c.kind false) m = m :=
    forEach_id _ _ m fun c _ => by simp [captureClamp, captureAt, silent]
  simp only [latchClampEnds, recorded]

/-! ### The walk (R405) -/

@[simp] theorem markSlow_pwr (m : Mach) : (markSlow m).pwr = m.pwr := by
  simp only [markSlow]
  split <;> rfl

@[simp] theorem markSlow_stp (m : Mach) : (markSlow m).stp = m.stp := by
  simp only [markSlow]
  split <;> rfl

section
variable {m : Mach} (free : m.pwr.clamps = []) (behind : m.pwr.groupStep < m.pwr.localStep)
  (due : walkAt m < m.tick.nowUs + m.tick.inForce)
include free behind due

/-- R405: an index that is due is taken or put off, as the governor admits it. -/
theorem walkIndex_pwr : (walkIndex m).pwr =
    if Config.modelledPowerW m.stp.choices ≤ meanPower m + 150 then
      { m.pwr with localStep := m.pwr.localStep - 1, walkUs := walkAt m + 30 }
    else { m.pwr with deferred := bump 16 1 m.pwr.deferred, walkUs := walkAt m + 5 } := by
  have at_ : walkAt (markSlow m) = walkAt m := by simp [walkAt]
  have admits : governorAdmits (markSlow m) = decide (Config.modelledPowerW m.stp.choices ≤ meanPower m + 150) := by
    simp [governorAdmits, meanPower]
  have walks : (clamped (markSlow m).pwr || decide ((markSlow m).pwr.localStep ≤ (markSlow m).pwr.groupStep) ||
      decide ((markSlow m).tick.nowUs + (markSlow m).tick.inForce ≤ walkAt (markSlow m))) = false := by
    simp [clamped, free, at_, behind, due]
  simp only [walkIndex, Bool.or_eq_true, decide_eq_true_eq] at walks ⊢
  rw [if_neg (by simpa using walks), modPwr_pwr, modStp_pwr, markSlow_pwr, at_, admits]
  simp only [decide_eq_true_eq]

end

/-! ### Shutdowns (R410, R480) -/

theorem thermalShutdown_hot {m : Mach} (up : isUp m = true) (hot : 105 ≤ m.pwr.tj ∨ 100 ≤ m.pwr.th) :
    thermalShutdown m = raiseIbi 2 (modPwr (fun p => { p with shutLatched := true }) m) := by
  simp [thermalShutdown, up, hot]

theorem thermalShutdown_cool {m : Mach} (tj : m.pwr.tj < 105) (th : m.pwr.th < 100) : thermalShutdown m = m := by
  simp [thermalShutdown, Nat.not_le.2 tj, Nat.not_le.2 th]

/-- R480: the count that a supply shutdown's cause keeps. -/
def countSupply (cause : Nat) (nv : Nv) : Nv :=
  match cause with
  | 1 => { nv with uvShut := bump 8 1 nv.uvShut }
  | 2 => { nv with ovShut := bump 8 1 nv.ovShut }
  | _ => { nv with ocTrip := bump 8 1 nv.ocTrip }

/-- R480: a supply fault of a module that is up shuts it down. -/
theorem supplyShutdown_up {c : Nat} {nv : Nv} {m : Mach} (up : isUp m = true) (still : m.life.removal = false)
    (fault : supplyFault m.pwr c = true) : supplyShutdown c nv m =
    ({ countSupply c nv with lastShut := c },
      modLife (fun x => { x with run := .shutdown, switchOn := x.switchOn && c != 3 }) (raiseIbi 4 (sayLeaving m))) := by
  have acts : (!supplyFault m.pwr c || m.life.removal || !(isUp m || m.life.run == .held || m.life.run == .warmOff)) = false := by
    simp [up, still, fault]
  simp only [supplyShutdown, acts, Bool.false_eq_true, if_false]
  simp only [up, Bool.not_true, Bool.false_eq_true, if_false]
  rfl

/-! ### Leases, calibration and gating (R393, R411, R413) -/

theorem leaseExpires_ended {m : Mach} (leased : m.pwr.leased = true) (ended : m.pwr.leaseEndUs ≤ m.tick.nowUs) : leaseExpires m =
    raiseIbi 6 (changeLimit (fun p =>
      { p with leased := false, ceilingW := 900, lastLeaseSeq := none, expired := bump 8 1 p.expired }) (notePower 2 m)) := by
  simp [leaseExpires, leased, ended]

/-- R413: a share charged to a context or a tenancy leaves the meter and the tick. -/
theorem chargeShare_meter (x : Bool × Nat × Nat × Account) (mj : Nat) (m : Mach) :
    ((chargeShare x mj m).pwr, (chargeShare x mj m).tick) = (m.pwr, m.tick) := by
  simp only [chargeShare]
  split <;> rfl

/-- R413: the calibration keeps when it was, and what the meter read. -/
theorem calibrate_pwr {m : Mach} (second : m.pwr.lastCalUs + 1000000 ≤ m.tick.nowUs) :
    (calibrate m).pwr.lastCalUs = m.tick.nowUs ∧ (calibrate m).pwr.lastCalTick = m.tick.count ∧
      (calibrate m).pwr.lastCal = m.pwr.energy ∧ (calibrate m).pwr.calNo = m.pwr.calNo + 1 := by
  have charged := fun l : List ((Bool × Nat × Nat × Account) × Nat × Nat) =>
    forEach_keeps (fun m => (m.pwr, m.tick)) l (fun s => chargeShare s.1 s.2.2) (fun s x => chargeShare_meter s.1 s.2.2 x) m
  simp only [calibrate, if_neg (Nat.not_lt.2 second), modPwr_pwr, (Prod.mk.inj (charged _)).1, (Prod.mk.inj (charged _)).2, and_self]

theorem gatePod_idle {m : Mach} {pod : Nat} (inside : pod < 48) (gates : m.pwr.gateTicks ≠ 0)
    (idle : m.pwr.gateTicks < m.pwr.idleTicks.getD pod 0) (on : pod ∉ m.pwr.gated) (free : podHasUnit m pod = false) :
    gatePod pod m = modPwr (fun x => { x with gated := insRising pod x.gated }) m := by
  have due : (decide (pod < 48) && m.pwr.gateTicks != 0 && decide (m.pwr.gateTicks < m.pwr.idleTicks.getD pod 0) &&
      !m.pwr.gated.contains pod && !podHasUnit m pod) = true := by
    simp only [Bool.and_eq_true, bne_iff_ne, decide_eq_true_eq, Bool.not_eq_true', List.contains_eq_mem, decide_eq_false_iff_not]
    exact ⟨⟨⟨⟨inside, gates⟩, idle⟩, on⟩, free⟩
  simp only [gatePod, due, if_true]

theorem ungatePod_listed {m : Mach} {pod : Nat} (listed : pod ∈ m.pwr.ungating) : ungatePod pod m =
    modPwr (fun x => { x with gated := x.gated.filter (· != pod), ungating := x.ungating.filter (· != pod) }) m := by
  simp [ungatePod, modPwr, listed]

/-! ### The statement -/

/-- Settles O39: what each happening of the power block comes to. -/
theorem powerHappenings : Obligations.PowerHappenings := by
  refine ⟨?sample, ?clamp, ?walk, ?hot, ?cool, ?supply, ?lease, ?calibration, fun m second p same => same ▸ calibrate_pwr second, ?gate,
    ?ungate⟩
  case sample =>
    intro s x there
    have sampled : exec (.telemetrySample x) s = .next (withM s (takeSample x s.m)) := by
      have stays : ¬(s.m.life.run == .removed) = true := by simpa using there
      exact congrArg (fun m => Host.Outcome.next { s with m := m }) (if_neg stays)
    obtain ⟨voltMv, current, powerW, energy, tj, th, window⟩ := takeSample_measures x s.m
    exact ⟨_, sampled, rfl, voltMv, current, powerW, energy, tj, th, window⟩
  case clamp =>
    intro s up silent
    rw [← latchClampEnds_silent silent]
    exact onUp_ofUp up _
  case walk =>
    intro s up free behind due
    refine ⟨withM s (walkIndex s.m), onUp_ofUp up _, ?_⟩
    rw [walkIndex_pwr free behind due]
    refine ⟨by split <;> rfl, fun admitted => ?_, fun refused => ?_⟩
    · rw [if_pos admitted]
      exact ⟨rfl, rfl, rfl⟩
    · rw [if_neg refused]
      exact ⟨rfl, rfl, rfl⟩
  case hot =>
    intro s up hot
    rw [← thermalShutdown_hot up hot]
    exact onUp_ofUp up _
  case cool =>
    intro s tj th
    have same : (if isUp s.m then thermalShutdown s.m else s.m) = s.m := by rw [thermalShutdown_cool tj th, ite_self]
    exact congrArg (fun m => Host.Outcome.next { s with m := m }) same
  case supply =>
    intro s c up still fault
    refine ⟨{ s with nv := (supplyShutdown c s.nv s.m).1, m := (supplyShutdown c s.nv s.m).2 }, rfl, ?_⟩
    rw [supplyShutdown_up up still fault]
    refine ⟨rfl, rfl, ?_, ?_, ?_⟩
    · rintro rfl
      rfl
    · rintro rfl
      rfl
    · rintro rfl
      exact ⟨rfl, Bool.and_false _⟩
  case lease =>
    intro s up leased ended
    rw [← leaseExpires_ended leased ended]
    exact atBoundary_ofUp up fun _ => leaseExpires
  case calibration =>
    intro s up second
    exact atBoundary_ofUp up fun _ => calibrate
  case gate =>
    intro s pod up inside gates idle on free
    rw [← gatePod_idle inside gates idle on free]
    exact atBoundary_ofUp up fun _ => gatePod pod
  case ungate =>
    intro s pod up listed
    rw [← ungatePod_listed listed]
    exact onUp_ofUp up _

end Sys2Proof.Machine

/-! ## What the commands of each unit may change

For each unit a relation says which parts of the machine its commands may change; it composes. -/

namespace Sys2Proof.Machine

/-- From `a` to `b` the power unit has worked (R393 to R411). -/
structure PowerWorks (a b : Mach) : Prop where
  rest : b = { a with peas := b.peas, stp := b.stp, pwr := b.pwr, cap := b.cap } := by rfl

theorem PowerWorks.trans {a b c : Mach} (h : PowerWorks a b) (k : PowerWorks b c) : PowerWorks a c :=
  ⟨k.rest.trans (congrArg (fun m : Mach => { m with peas := c.peas, stp := c.stp, pwr := c.pwr, cap := c.cap }) h.rest)⟩

/-- From `a` to `b` the tick has been synchronised (R33, R39 to R41). -/
structure SyncWorks (a b : Mach) : Prop where
  rest : b = { a with tick := b.tick, link := b.link, out := b.out, peas := b.peas, stp := b.stp, pwr := b.pwr, cap := b.cap } := by rfl

theorem SyncWorks.trans {a b c : Mach} (h : SyncWorks a b) (k : SyncWorks b c) : SyncWorks a c :=
  ⟨k.rest.trans (congrArg (fun m : Mach => { m with
    tick := c.tick, link := c.link, out := c.out, peas := c.peas, stp := c.stp, pwr := c.pwr, cap := c.cap }) h.rest)⟩

/-- From `a` to `b` the host's functions have been reset or its link trained (R120, R433). -/
structure HostWorks (a b : Mach) : Prop where
  rest : b = { a with fns := b.fns, reqs := b.reqs, host := b.host } := by rfl

theorem HostWorks.trans {a b c : Mach} (h : HostWorks a b) (k : HostWorks b c) : HostWorks a c :=
  ⟨k.rest.trans (congrArg (fun m : Mach => { m with fns := c.fns, reqs := c.reqs, host := c.host }) h.rest)⟩

/-- From `a` to `b` the boot engine has worked, or the pins (R436 to R445, R479 to R483). -/
structure BootWorks (a b : Mach) : Prop where
  rest : b = { a with
    tick := b.tick, chan := b.chan, i3c := b.i3c, life := b.life, cap := b.cap, host := b.host, evq := b.evq, out := b.out } := by rfl

theorem BootWorks.trans {a b c : Mach} (h : BootWorks a b) (k : BootWorks b c) : BootWorks a c :=
  ⟨k.rest.trans (congrArg (fun m : Mach => { m with
    tick := c.tick, chan := c.chan, i3c := c.i3c, life := c.life, cap := c.cap, host := c.host, evq := c.evq, out := c.out }) h.rest)⟩

/-- From `a` to `b` peas have worked (R64, R75, R86, R87). -/
structure PeasWork (a b : Mach) : Prop where
  rest : b = { a with
    ctxs := b.ctxs, ten := b.ten, mem := b.mem, ecc := b.ecc, peas := b.peas, stp := b.stp, lat := b.lat, cap := b.cap } := by rfl

theorem PeasWork.trans {a b c : Mach} (h : PeasWork a b) (k : PeasWork b c) : PeasWork a c :=
  ⟨k.rest.trans (congrArg (fun m : Mach => { m with
    ctxs := c.ctxs, ten := c.ten, mem := c.mem, ecc := c.ecc, peas := c.peas, stp := c.stp, lat := c.lat, cap := c.cap }) h.rest)⟩

/-- From `a` to `b` a core of Turnip has replayed or halted (R209, R210). -/
structure CoreWorks (a b : Mach) : Prop where
  rest : b = { a with ecc := b.ecc, life := b.life, cap := b.cap, out := b.out } := by rfl

theorem CoreWorks.trans {a b c : Mach} (h : CoreWorks a b) (k : CoreWorks b c) : CoreWorks a c :=
  ⟨k.rest.trans (congrArg (fun m : Mach => { m with ecc := c.ecc, life := c.life, cap := c.cap, out := c.out }) h.rest)⟩

/-- From `a` to `b` pea `p` has computed, or its unit has ended (R90 to R112). -/
structure PeaComputes (p : Nat) (a b : Mach) : Prop where
  rest : b = { a with ctxs := b.ctxs, mem := b.mem, peas := b.peas, lat := b.lat, cap := b.cap } := by rfl
  slices : b.mem.sliceMem = a.mem.sliceMem := by rfl
  dev : b.mem.dev = a.mem.dev := by rfl
  others : ∀ q, q ≠ p → peaOf b q = peaOf a q := by exact fun _ _ => rfl

theorem PeaComputes.trans {p : Nat} {a b c : Mach} (h : PeaComputes p a b) (k : PeaComputes p b c) : PeaComputes p a c where
  rest := k.rest.trans (congrArg (fun m : Mach => { m with
    ctxs := c.ctxs, mem := c.mem, peas := c.peas, lat := c.lat, cap := c.cap }) h.rest)
  slices := k.slices.trans h.slices
  dev := k.dev.trans h.dev
  others q other := (k.others q other).trans (h.others q other)

/-- From `a` to `b` a scrub pass has gone over stored data: what is stored stays, its marks and wrong bits may change (R194 to
R198). -/
structure Scrubs (a b : Mach) : Prop where
  rest : b = { a with mem := b.mem, ecc := b.ecc, lat := b.lat, cap := b.cap } := by rfl
  slices : b.mem.sliceMem = a.mem.sliceMem := by rfl
  dev : b.mem.dev = a.mem.dev := by rfl

theorem Scrubs.trans {a b c : Mach} (h : Scrubs a b) (k : Scrubs b c) : Scrubs a c where
  rest := k.rest.trans (congrArg (fun m : Mach => { m with mem := c.mem, ecc := c.ecc, lat := c.lat, cap := c.cap }) h.rest)
  slices := k.slices.trans h.slices
  dev := k.dev.trans h.dev

end Sys2Proof.Machine

/-! ## The happenings of a link port

What each happening of a port comes to: flits received (R314 to R318), training (R319 to R324), lanes (R333), and the loss of
lock (R322). -/

namespace Sys2Proof.Machine

/-! ### What a port sends (R316) -/

@[simp] theorem portOf_send (o : Out) (m : Mach) (q : Nat) : portOf (send o m) q = portOf m q := by rw [send_rest]; rfl

@[simp] theorem send_lat (o : Out) (m : Mach) : (send o m).lat = m.lat := by rw [send_rest]

/-- R433: what goes to a port goes out whatever the host port does. -/
theorem send_out_port {o : Out} (port : toHost o = false) (m : Mach) : (send o m).out = m.out ++ [o] := by
  have goes : ¬(m.host.stopped && toHost o) = true := by simp [port]
  simp only [send, if_neg goes]
  split
  · exact Bool.noConfusion port
  · rfl

theorem PortsSend.lat {a b : Mach} (h : PortsSend a b) : b.lat = a.lat := by rw [h.rest]

theorem PortsSend.tick {a b : Mach} (h : PortsSend a b) : b.tick = a.tick := by rw [h.rest]

/-- A part of a port that what queues is no part of. -/
theorem PortsSend.port {α : Type} {a b : Mach} (h : PortsSend a b) (q : Nat) (π : Port → α)
    (apart : ∀ (x : Port) a b c, π { x with txWait := a, replayBuf := b, txNext := c } = π x) : π (portOf b q) = π (portOf a q) :=
  (h.ports q).part π apart

theorem LinksRun.tick {a b : Mach} (h : LinksRun a b) : b.tick = a.tick := by rw [h]

theorem linksRun_send (o : Out) (m : Mach) : LinksRun m (send o m) := (portsSend_send o m).linksRun

theorem linksRun_onlyIf {b : Bool} {f : Mach → Mach} {m : Mach} (h : LinksRun m (f m)) : LinksRun m (onlyIf b f m) := by
  cases b
  · exact .refl m
  · exact h

/-! ### Replay (R316, R317) -/

theorem portsSend_ackFlits (p ack : Nat) (m : Mach) : PortsSend m (ackFlits p ack m) := by
  have dropped : (fun x : Port =>
      if x.replayBuf.any (·.1 == ack) then { x with replayBuf := (x.replayBuf.dropWhile (·.1 != ack)).tail } else x) =
      fun x => { x with
        txWait := x.txWait
        replayBuf := if x.replayBuf.any (·.1 == ack) then (x.replayBuf.dropWhile (·.1 != ack)).tail else x.replayBuf
        txNext := x.txNext } := by
    funext x
    split <;> rfl
  have queued := portsSend_queues p (·.txWait)
    (fun x => if x.replayBuf.any (·.1 == ack) then (x.replayBuf.dropWhile (·.1 != ack)).tail else x.replayBuf) (·.txNext) m
  rw [← dropped] at queued
  exact queued.trans (portsSend_drainPort p _)

section
variable {p : Nat} {m : Mach}

theorem resendFrom_again {x : Nat × Nat} {r : List (Nat × Nat)} (buffered : (portOf m p).replayBuf = x :: r)
    (fresh : ∀ y ∈ x :: r, y.2 < 16) : resendFrom p m = send (.linkResend p x.1) (modPort p (fun y =>
      { y with replayBuf := y.replayBuf.map fun f => (f.1, f.2 + 1), replayed := bump 32 y.replayBuf.length y.replayed }) m) := by
  have sound : ¬(x :: r).any (16 ≤ ·.2) = true := by
    simpa only [List.any_eq_true, decide_eq_true_eq, not_exists, not_and, Nat.not_le] using fresh
  simp only [resendFrom, buffered, if_neg sound]

/-- R317: a flit sent 16 times without an answer takes the port down. -/
theorem resendFrom_down (tired : ∃ y ∈ (portOf m p).replayBuf, 16 ≤ y.2) : resendFrom p m = portGoes p .down m := by
  have any : (portOf m p).replayBuf.any (16 ≤ ·.2) = true := by
    simpa only [List.any_eq_true, decide_eq_true_eq] using tired
  cases buffered : (portOf m p).replayBuf with
  | nil => simp [buffered] at any
  | cons x r =>
    rw [buffered] at any
    simp only [resendFrom, buffered, if_pos any]

theorem linksRun_resendFrom : LinksRun m (resendFrom p m) := by
  simp only [resendFrom]
  split
  · exact .refl m
  · split
    · exact linksRun_portGoes
    · exact (linksRun_modPort ..).trans (linksRun_send ..)

end

/-! ### Flits received (R314 to R318) -/

theorem nakFlits_eq (p : Nat) (m : Mach) : nakFlits p m =
    send (.linkAck p (wrap 12 ((portOf m p).rxNext + 4095)) true) (modPort p (fun x => { x with nakking := true }) m) := rfl

theorem linksRun_nakFlits (p : Nat) (m : Mach) : LinksRun m (nakFlits p m) := (linksRun_modPort ..).trans (linksRun_send ..)

theorem nakFlits_out (p : Nat) (m : Mach) : (nakFlits p m).out = m.out ++ [.linkAck p (wrap 12 ((portOf m p).rxNext + 4095)) true] :=
  send_out_port rfl _

theorem portOf_nakFlits {p : Nat} {m : Mach} (inside : p < m.link.ports.length) :
    portOf (nakFlits p m) p = { portOf m p with nakking := true } := by
  rw [nakFlits_eq, portOf_send, portOf_modPort_self inside]

/-- R316: a sound flit's credit and acknowledgement taken. -/
def ackTaken (p : Nat) (f : Flit) (m : Mach) : Mach :=
  ackFlits p (flitAck f) (modPort p (fun x => { x with credit := sat 16 (x.credit + flitCredit f) }) m)

theorem portsSend_ackTaken (p : Nat) (f : Flit) (m : Mach) :
    PortsSend (modPort p (fun x => { x with credit := sat 16 (x.credit + flitCredit f) }) m) (ackTaken p f m) := portsSend_ackFlits ..

theorem linksRun_takeFlit (p : Nat) (f : Flit) (m : Mach) : LinksRun m (takeFlit p f m) := by
  have taken : LinksRun m (onlyIf (flitNak f) (resendFrom p) (ackTaken p f m)) :=
    (linksRun_modPort ..).trans ((portsSend_ackTaken p f m).linksRun.trans (linksRun_onlyIf linksRun_resendFrom))
  simp only [takeFlit]
  split
  · exact taken
  · split
    · exact taken.trans (linksRun_send ..)
    · split
      · exact taken.trans ((linksRun_modPort ..).trans ((linksRun_send ..).trans (linksRun_send ..)))
      · exact taken.trans (linksRun_nakFlits ..)

section
variable {p : Nat} {f : Flit} {m : Mach}

theorem ackTaken_rxNext (inside : p < m.link.ports.length) : (portOf (ackTaken p f m) p).rxNext = (portOf m p).rxNext :=
  ((portsSend_ackTaken p f m).port p (·.rxNext) fun _ _ _ _ => rfl).trans (by rw [portOf_modPort_self inside])

theorem ackTaken_state (inside : p < m.link.ports.length) : (portOf (ackTaken p f m) p).state = (portOf m p).state :=
  ((portsSend_ackTaken p f m).port p (·.state) fun _ _ _ _ => rfl).trans (by rw [portOf_modPort_self inside])

theorem ackTaken_count : (ackTaken p f m).link.ports.length = m.link.ports.length :=
  (portsSend_ackTaken p f m).count.trans (modAt_length ..)

section
variable (sequenced : flitKind f = 1 ∨ flitKind f = 2) (plain : flitNak f = false)
include sequenced plain

theorem takeFlit_sequenced : takeFlit p f m =
    if flitSeq f = (portOf (ackTaken p f m) p).rxNext then
      send (.linkAck p (flitSeq f) false) (send (.flitPayload p (flitKind f) ((f.bytes.drop 6).take 242))
        (modPort p (fun x => { x with rxNext := wrap 12 (flitSeq f + 1), nakking := false }) (ackTaken p f m)))
    else nakFlits p (ackTaken p f m) := by
  have notIdle : flitKind f ≠ 0 := by rcases sequenced with h | h <;> simp [h]
  have notTick : flitKind f ≠ 3 := by rcases sequenced with h | h <;> simp [h]
  simp only [takeFlit, plain, onlyIf, Bool.false_eq_true, if_false, if_neg notIdle, if_neg notTick]
  rfl

variable (inside : p < m.link.ports.length)
include inside

/-- R316: a flit in sequence is delivered and acknowledged. -/
theorem takeFlit_next (next : flitSeq f = (portOf m p).rxNext) : takeFlit p f m =
    send (.linkAck p (flitSeq f) false) (send (.flitPayload p (flitKind f) ((f.bytes.drop 6).take 242))
      (modPort p (fun x => { x with rxNext := wrap 12 (flitSeq f + 1), nakking := false }) (ackTaken p f m))) := by
  rw [takeFlit_sequenced sequenced plain, if_pos (next.trans (ackTaken_rxNext inside).symm)]

/-- R316: any other is answered with a NAK. -/
theorem takeFlit_other (other : flitSeq f ≠ (portOf m p).rxNext) : takeFlit p f m = nakFlits p (ackTaken p f m) := by
  rw [takeFlit_sequenced sequenced plain, if_neg fun next => other (next.trans (ackTaken_rxNext inside))]

end

/-- R319: a port that carries anything carries idle flits and notices. -/
theorem carries_notices {st : PortState} {kind : Nat} (h : carries st kind = true) : carries st 2 = true := by
  cases st <;> simp_all [carries]

theorem portOf_countFlit_state : (portOf (countFlit p f m) p).state = (portOf m p).state := by
  rw [countFlit, portOf_modPort]
  split <;> rfl

/-- R314: a sound flit of a kind that its port carries is taken, and its lanes' errors are counted. -/
theorem receiveFlit_sound (carried : carries (portOf m p).state (flitKind f) = true) (corrected : flitUncorrectable f = false)
    (crc : flitCrcOk f = true) : receiveFlit p f m =
    laneErrors p (m.tick.nowUs + f.atUs) (f.codewords.filter (·.length ≤ 15)).flatten (takeFlit p f (countFlit p f m)) := by
  have tick : (takeFlit p f (countFlit p f m)).tick = m.tick := (linksRun_takeFlit ..).tick
  simp only [receiveFlit, carries_notices carried, corrected, crc, portOf_countFlit_state, carried, tick, Bool.not_true, Bool.or_self,
    Bool.false_eq_true, if_false, if_true]

/-- R314: a bad one is answered with a NAK. -/
theorem receiveFlit_bad (carried : carries (portOf m p).state 2 = true) (bad : flitUncorrectable f = true ∨ flitCrcOk f = false) :
    receiveFlit p f m =
    laneErrors p (m.tick.nowUs + f.atUs) (f.codewords.filter (·.length ≤ 15)).flatten (nakFlits p (countFlit p f m)) := by
  have tick : (nakFlits p (countFlit p f m)).tick = m.tick := (linksRun_nakFlits ..).tick
  have unsound : (flitUncorrectable f || !flitCrcOk f) = true := by rcases bad with h | h <;> simp [h]
  simp only [receiveFlit, carried, unsound, tick, Bool.not_true, Bool.false_eq_true, if_false, if_true]

theorem receiveFlit_deaf (deaf : carries (portOf m p).state 2 = false) : receiveFlit p f m = m := by
  simp only [receiveFlit, deaf, Bool.not_false, if_true]

end

/-! ### Training (R319 to R324) -/

section
variable {p : Nat} {m : Mach}

theorem detectStart_due (enabled : m.link.enabled = true) (down : (portOf m p).state = .down)
    (passed : m.link.enabledUs + (8000 * p + 1000 * (selfNode m % 8)) < m.tick.nowUs + m.tick.inForce) :
    detectStart p m = modPort p (toDetect m) m := by
  simp [detectStart, due, nodeUs, enabled, down, passed]

theorem equalizeDone_locks {lanes failed : Nat} (state : (portOf m p).state = .equalize) (wide : 16 ≤ lanes)
    (sound : 16 ≤ (healthy ((portOf m p).rxFailed ||| failed % 2 ^ 18)).length) : equalizeDone p lanes failed m =
    let bad := (portOf m p).rxFailed ||| failed % 2 ^ 18
    linkSend p (.linkIdent p (identBytes (ownIdent m p))) (modPort p (fun x =>
      { x with state := .identify, width := 16, lockFails := 0, rxFailed := bad, spares := (healthy bad).length - 16
               laneMap := trainMap bad, txMap := trainMap x.txFailed, gotIdent := false, echoed := false }) m) := by
  have waits : ((portOf m p).state != .equalize) = false := by simp [state]
  have locked : (decide (lanes < 16) || decide ((healthy ((portOf m p).rxFailed ||| failed % 2 ^ 18)).length < 16)) = false := by
    simp only [Bool.or_eq_false_iff, decide_eq_false_iff_not, Nat.not_lt]
    exact ⟨wide, sound⟩
  simp only [equalizeDone, waits, locked, Bool.false_eq_true, if_false]

/-- R321: a failed attempt counted on its port. -/
def failedOnce (x : Port) : Port := { x with fails := x.fails + 1, lockFails := 0, trainFail := bump 8 1 x.trainFail }

/-- R321: the port of a failed attempt waits in DETECT. -/
def retriesLater (m : Mach) (x : Port) : Port :=
  { toDetect m x with waiting := true, waitUs := m.tick.nowUs, width := 0, proto := 0, laneMap := [], txMap := [] }

theorem attemptFails_again (early : (portOf m p).fails + 1 < 8) :
    attemptFails p false m = modPort p (retriesLater m) (modPort p failedOnce m) := by
  have alive : (decide (8 ≤ (portOf m p).fails + 1) || decide (2 ≤ 0)) = false := by simp; omega
  simp only [attemptFails, Bool.false_eq_true, if_false, alive]
  rfl

theorem attemptFails_dead (eighth : 8 ≤ (portOf m p).fails + 1) : attemptFails p false m = portGoes p .failed (modPort p failedOnce m) := by
  have dead : (decide (8 ≤ (portOf m p).fails + 1) || decide (2 ≤ 0)) = true := by simp [eighth]
  simp only [attemptFails, Bool.false_eq_true, if_false, dead, if_true]
  rfl

theorem portOf_attemptFails_again (inside : p < m.link.ports.length) (early : (portOf m p).fails + 1 < 8) :
    portOf (attemptFails p false m) p = retriesLater m (failedOnce (portOf m p)) := by
  rw [attemptFails_again early, portOf_modPort_self (by simpa using inside), portOf_modPort_self inside]

/-- R321: the wait after a failed attempt ends. -/
theorem retryTimer_due (state : (portOf m p).state = .detect) (waits : (portOf m p).waiting = true)
    (passed : (portOf m p).waitUs + (50000 + 1000 * (selfNode m % 8)) < m.tick.nowUs + m.tick.inForce) :
    retryTimer p m = modPort p (fun x => { x with waiting := false }) m := by
  simp [retryTimer, due, nodeUs, state, waits, passed]

theorem retryTimer_early (early : m.tick.nowUs + m.tick.inForce ≤ (portOf m p).waitUs + 50000) : retryTimer p m = m := by
  have waits : due m (portOf m p).waitUs (50000 + nodeUs m) = false := decide_eq_false (by omega)
  simp [retryTimer, waits]

/-! ### Identity (R322, R323) -/

/-- R322: the port whose IDENTIFY is complete. -/
def checkNext (x : Port) : Port := { x with state := .check, fails := 0 }

theorem identified_complete {i : Ident} (peer : (portOf m p).peer = some i) (state : (portOf m p).state = .identify)
    (got : (portOf m p).gotIdent = true) (echoed : (portOf m p).echoed = true) : identified p m =
    capture 0x0A 5 p (le 2 i.node ++ le 1 i.port ++ le 8 i.serial ++ le 2 i.proto)
      (modLat (fun l => { l with portCheck := l.portCheck ++ [p] }) (modPort p checkNext m)) := by
  simp only [identified, peer, state, got, echoed, beq_self_eq_true, Bool.and_self, if_true]
  rfl

theorem identified_waits (echoes : (portOf m p).echoed = false) : identified p m = m := by
  have waits : ((portOf m p).state == .identify && (portOf m p).gotIdent && (portOf m p).echoed) = false := by simp [echoes]
  simp only [identified, waits, Bool.false_eq_true, if_false]
  split <;> rfl

/-- R322: a port whose IDENTIFY completes goes to CHECK, and that is latched. -/
theorem identified_checks {i : Ident} (inside : p < m.link.ports.length) (peer : (portOf m p).peer = some i)
    (state : (portOf m p).state = .identify) (got : (portOf m p).gotIdent = true) (echoed : (portOf m p).echoed = true) :
    portOf (identified p m) p = checkNext (portOf m p) ∧ (identified p m).lat.portCheck = m.lat.portCheck ++ [p] := by
  rw [identified_complete peer state got echoed]
  refine ⟨?_, ?_⟩
  · rw [portOf_capture, portOf_modLat, portOf_modPort_self inside]
  · rw [capture, captureAt_lat, modLat_lat, modPort_lat]

theorem identityReceive_bad {b : List Byte} (state : (portOf m p).state = .identify) (bad : identOf b = none) :
    identityReceive p b m = attemptFails p false m := by
  simp only [identityReceive, state, bad]

theorem identityReceive_good {b : List Byte} {i : Ident} (state : (portOf m p).state = .identify) (good : identOf b = some i) :
    identityReceive p b m = identified p (modPort p (takeIdent i m) m) := by
  simp only [identityReceive, state, good]

theorem delayMeasure_carried (ns : Nat) (carried : carries (portOf m p).state 2 = true) :
    delayMeasure p ns m = identified p (modPort p (fun x => { x with delayNs := sat 16 ns, echoed := true }) m) := by
  simp only [delayMeasure, carried, if_true]

theorem identifyTimeout_identify (state : (portOf m p).state = .identify) : identifyTimeout p m = attemptFails p false m := by
  simp [identifyTimeout, state]

/-! ### Lanes (R333) -/

@[simp] theorem portOf_noteLanes (c : Nat) (q : Nat) : portOf (noteLanes p c m) q = portOf m q := by
  rw [noteLanes, portOf_capture, portOf_modLat]

theorem noteLanes_portLanes (c : Nat) : (noteLanes p c m).lat.portLanes = m.lat.portLanes ++ [(p, c)] := by
  rw [noteLanes, capture, captureAt_lat, modLat_lat]

/-- R333: a receive lane of a port marked as failed. -/
def laneMarked (failed : Nat) (x : Port) : Port := { x with rxFailed := failed, spares := (healthy failed).length - x.width }

section
variable {lane i : Nat} (locked : (portOf m p).width ≠ 0) (inRange : lane < 18) (sound : (portOf m p).rxFailed.testBit lane = false)
  (used : (portOf m p).laneMap.findIdx? (· == lane) = some i) (settled : (portOf m p).relock = false)
include locked inRange sound used settled

theorem laneFails_spare {sp : Nat}
    (spare : ((healthy ((portOf m p).rxFailed ||| 2 ^ lane)).find? fun l => !(portOf m p).laneMap.contains l) = some sp) :
    laneFails p lane m = noteLanes p 2 (linkSend p (.linkLane p i sp) (modPort p (fun x =>
      { x with laneMap := x.laneMap.set i sp, subst := bump 8 1 x.subst })
      (modPort p (laneMarked ((portOf m p).rxFailed ||| 2 ^ lane)) m))) := by
  have fails : (decide ((portOf m p).width = 0) || decide (18 ≤ lane) || (portOf m p).rxFailed.testBit lane) = false := by
    simp [locked, inRange, sound]
  simp only [laneFails, fails, used, settled, spare, Bool.false_eq_true, if_false]
  rfl

theorem laneFails_none
    (none : ((healthy ((portOf m p).rxFailed ||| 2 ^ lane)).find? fun l => !(portOf m p).laneMap.contains l) = none) :
    laneFails p lane m =
      dropWidth p (linkSend p (.linkNarrow p i) (modPort p (laneMarked ((portOf m p).rxFailed ||| 2 ^ lane)) m)) := by
  have fails : (decide ((portOf m p).width = 0) || decide (18 ≤ lane) || (portOf m p).rxFailed.testBit lane) = false := by
    simp [locked, inRange, sound]
  simp only [laneFails, fails, used, settled, none, Bool.false_eq_true, if_false]
  rfl

end

/-- R333: both directions narrow, where both have the lanes for it. -/
theorem dropWidth_narrows (rx : 8 ≤ (healthy (portOf m p).rxFailed).length) (tx : 8 ≤ (healthy (portOf m p).txFailed).length)
    (settled : (portOf m p).relock = false) : dropWidth p m =
    noteLanes p 3 (modPort p (fun x => { narrow x with widthDrop := bump 8 1 x.widthDrop, relock := true }) m) := by
  have wide : (decide ((healthy (portOf m p).rxFailed).length < 8) || decide ((healthy (portOf m p).txFailed).length < 8)) = false := by
    simp only [Bool.or_eq_false_iff, decide_eq_false_iff_not, Nat.not_lt]
    exact ⟨rx, tx⟩
  simp only [dropWidth, wide, settled, Bool.false_eq_true, if_false]

theorem laneSubstitute_moves {logical spare old : Nat} (mapped : (portOf m p).txMap[logical]? = some old) :
    laneSubstitute p logical spare m =
    if 18 ≤ spare then dropWidth p (modPort p (fun x => { x with txFailed := x.txFailed ||| 2 ^ old }) m)
    else noteLanes p 2 (modPort p (fun x => { x with txMap := x.txMap.set logical spare, subst := bump 8 1 x.subst })
      (modPort p (fun x => { x with txFailed := x.txFailed ||| 2 ^ old }) m)) := by
  simp only [laneSubstitute, mapped]

theorem relockDone_locks (locks : (portOf m p).relock = true) :
    relockDone p m = drainPort p (resendFrom p (modPort p (fun x => { x with relock := false }) m)) := by
  simp only [relockDone, locks, if_true]

end

/-! ### The statement -/

/-- Settles O33: each happening of a port, with what it changes of the port and what it latches. -/
theorem linkHappenings : Obligations.LinkHappenings := by
  refine ⟨?sound, ?bad, ?deaf, ?next, ?other, ?nak, ?resend, ?tired, ?detect, ?partner, ?equalize, ?ident, ?identBad, ?delay, ?again, ?dead,
    ?retry, ?early, ?notice, ?spare, ?narrows, ?moves, ?noSpare, ?relock, ?lost⟩
  case sound =>
    intro s p f up carried corrected crc
    rw [← receiveFlit_sound carried corrected crc]
    exact onUp_ofUp up _
  case bad =>
    intro s p f up carried bad
    rw [← receiveFlit_bad carried bad]
    exact onUp_ofUp up _
  case deaf =>
    intro s p f up deaf
    refine (onUp_ofUp up (receiveFlit p f)).trans ?_
    rw [receiveFlit_deaf deaf]
  case next =>
    intro m p f inside sequenced plain next
    have room : p < (ackTaken p f m).link.ports.length := ackTaken_count.symm ▸ inside
    obtain ⟨held, grown⟩ := (portsSend_ackTaken p f m).grows
    rw [takeFlit_next sequenced plain inside next]
    refine ⟨?_, ?_, held, ?_⟩
    · rw [portOf_send, portOf_send, portOf_modPort_self room]
    · rw [portOf_send, portOf_send, portOf_modPort_self room]
      exact ackTaken_state inside
    · rw [send_out_port rfl, send_out_port rfl, modPort_out, ← grown, modPort_out, List.append_assoc (m.out ++ held)]
      rfl
  case other =>
    intro m p f inside sequenced plain other
    have room : p < (ackTaken p f m).link.ports.length := ackTaken_count.symm ▸ inside
    obtain ⟨held, grown⟩ := (portsSend_ackTaken p f m).grows
    rw [takeFlit_other sequenced plain inside other]
    refine ⟨?_, ?_, held, ?_⟩
    · rw [portOf_nakFlits room]
      exact ackTaken_rxNext inside
    · rw [portOf_nakFlits room]
    · rw [nakFlits_out, ackTaken_rxNext inside, ← grown, modPort_out]
  case nak =>
    intro m p f inside
    have counted : portOf (countFlit p f m) p = _ := portOf_modPort_self inside _
    refine ⟨by rw [portOf_nakFlits inside], by rw [portOf_nakFlits inside], nakFlits_out p m, by rw [counted], by rw [counted]⟩
  case resend =>
    intro s p x r up buffered fresh
    rw [← resendFrom_again buffered fresh]
    exact onUp_ofUp up _
  case tired =>
    intro s p up inside tired
    refine ⟨_, onUp_ofUp up (resendFrom p), ?_⟩
    rw [resendFrom_down tired, portGoes_self (by decide) inside]
    exact ⟨rfl, rfl⟩
  case detect =>
    intro s p up enabled down inside passed
    refine ⟨_, onUp_ofUp up (detectStart p), ?_⟩
    rw [detectStart_due enabled down passed, portOf_modPort_self inside]
    exact ⟨rfl, fun q other => portOf_modPort_other other _⟩
  case partner =>
    intro s p up state listens inside
    refine ⟨_, onUp_ofUp up (partnerDetect p), ?_, fun q other => portOf_modPort_other other _⟩
    rw [partnerDetect, portOf_modPort_self inside]
    simp [state, listens]
  case equalize =>
    rintro s p lanes failed _ up state wide rfl sound
    exact (onUp_ofUp up (equalizeDone p lanes failed)).trans (by rw [equalizeDone_locks state wide sound])
  case ident =>
    intro s p b i up state good inside
    have taken := portOf_modPort_self inside (takeIdent i s.m)
    refine ⟨_, onUp_ofUp up (identityReceive p b), ?_⟩
    rw [identityReceive_good state good]
    cases echoed : (portOf s.m p).echoed with
    | false =>
      rw [identified_waits (by rw [taken]; exact echoed), taken]
      exact ⟨rfl, rfl, nofun, fun _ => ⟨state, rfl⟩⟩
    | true =>
      obtain ⟨port, latched⟩ := identified_checks (m := modPort p (takeIdent i s.m) s.m) (i := i) (by simpa using inside)
        (by rw [taken]; rfl) (by rw [taken]; exact state) (by rw [taken]; rfl) (by rw [taken]; exact echoed)
      rw [port, taken]
      exact ⟨rfl, rfl, fun _ => ⟨rfl, latched⟩, nofun⟩
  case identBad =>
    intro s p b up state bad inside early
    refine ⟨_, onUp_ofUp up (identityReceive p b), ?_⟩
    rw [identityReceive_bad state bad, portOf_attemptFails_again inside early]
    exact ⟨rfl, rfl⟩
  case delay =>
    intro s p ns i up state got peer inside
    have taken := portOf_modPort_self inside (fun x => { x with delayNs := sat 16 ns, echoed := true })
    refine ⟨_, onUp_ofUp up (delayMeasure p ns), ?_⟩
    rw [delayMeasure_carried ns (by rw [state]; rfl)]
    obtain ⟨port, latched⟩ := identified_checks (m := modPort p (fun x => { x with delayNs := sat 16 ns, echoed := true }) s.m) (i := i)
      (by simpa using inside) (by rw [taken]; exact peer) (by rw [taken]; exact state) (by rw [taken]; exact got) (by rw [taken])
    rw [port, taken]
    exact ⟨rfl, rfl, latched⟩
  case again =>
    intro s p up state early inside
    refine ⟨_, onUp_ofUp up (identifyTimeout p), ?_⟩
    rw [identifyTimeout_identify state, portOf_attemptFails_again inside early]
    exact ⟨rfl, rfl, rfl, rfl⟩
  case dead =>
    intro s p up state eighth inside
    have room : p < (modPort p failedOnce s.m).link.ports.length := by simpa using inside
    have still : (portOf (modPort p failedOnce s.m) p).state = .identify := by rw [portOf_modPort_self inside]; exact state
    refine ⟨_, onUp_ofUp up (identifyTimeout p), ?_⟩
    rw [identifyTimeout_identify state, attemptFails_dead eighth, portGoes_self (by decide) room,
      portGoes_portDown (by rw [still]; decide) (by rw [still]; decide)]
    exact ⟨rfl, rfl⟩
  case retry =>
    intro s p up state waits inside passed
    refine ⟨_, onUp_ofUp up (retryTimer p), ?_⟩
    rw [retryTimer_due state waits passed, portOf_modPort_self inside]
    exact ⟨rfl, state⟩
  case early =>
    intro s p up early
    refine (onUp_ofUp up (retryTimer p)).trans ?_
    rw [retryTimer_early early]
  case notice =>
    intro s p accept up carried
    exact (onUp_ofUp up _).trans (by rw [if_pos carried])
  case spare =>
    intro s p lane i sp up locked inRange sound used free settled inside
    have marked := portOf_modPort_self inside (laneMarked ((portOf s.m p).rxFailed ||| 2 ^ lane))
    have moved := portOf_modPort_self (m := modPort p (laneMarked ((portOf s.m p).rxFailed ||| 2 ^ lane)) s.m) (by simpa using inside)
      (fun x => { x with laneMap := x.laneMap.set i sp, subst := bump 8 1 x.subst })
    have sent := fun m => portsSend_linkSend p (.linkLane p i sp) m
    refine ⟨_, onUp_ofUp up (laneFails p lane), ?_⟩
    rw [laneFails_spare locked inRange sound used settled free, portOf_noteLanes, noteLanes_portLanes,
      (sent _).port p (·.laneMap) fun _ _ _ _ => rfl, (sent _).port p (·.width) fun _ _ _ _ => rfl,
      (sent _).port p (·.state) fun _ _ _ _ => rfl, (sent _).lat, moved, marked]
    exact ⟨rfl, rfl, rfl, rfl⟩
  case narrows =>
    rintro s p lane i _ up locked inRange sound used rfl none settled rx tx inside
    have marked := portOf_modPort_self inside (laneMarked ((portOf s.m p).rxFailed ||| 2 ^ lane))
    have sent := portsSend_linkSend p (.linkNarrow p i) (modPort p (laneMarked ((portOf s.m p).rxFailed ||| 2 ^ lane)) s.m)
    have rxFailed := (sent.port p (·.rxFailed) fun _ _ _ _ => rfl).trans (congrArg Port.rxFailed marked)
    have txFailed := (sent.port p (·.txFailed) fun _ _ _ _ => rfl).trans (congrArg Port.txFailed marked)
    have relock := (sent.port p (·.relock) fun _ _ _ _ => rfl).trans (congrArg Port.relock marked)
    have drops := (sent.port p (·.widthDrop) fun _ _ _ _ => rfl).trans (congrArg Port.widthDrop marked)
    have room := sent.count.trans (modAt_length ..) ▸ inside
    refine ⟨_, onUp_ofUp up (laneFails p lane), ?_⟩
    rw [laneFails_none locked inRange sound used settled none,
      dropWidth_narrows (by rw [rxFailed]; exact rx) (by rw [txFailed]; exact tx) (relock.trans settled), portOf_noteLanes,
      noteLanes_portLanes, portOf_modPort_self room, modPort_lat, sent.lat]
    refine ⟨rfl, ?_, ?_, rfl, ?_, rfl⟩
    · exact congrArg (fun l => (healthy l).take 8) rxFailed
    · exact congrArg (fun l => (healthy l).take 8) txFailed
    · exact congrArg (bump 8 1) drops
  case moves =>
    intro s p logical spare old up mapped free
    refine (onUp_ofUp up (laneSubstitute p logical spare)).trans ?_
    rw [laneSubstitute_moves mapped, if_neg (Nat.not_le.2 free)]
  case noSpare =>
    intro s p logical spare old up mapped used
    refine (onUp_ofUp up (laneSubstitute p logical spare)).trans ?_
    rw [laneSubstitute_moves mapped, if_pos used]
  case relock =>
    intro s p up locks
    refine (onUp_ofUp up (relockDone p)).trans ?_
    rw [relockDone_locks locks]
  case lost =>
    intro s p up locked trained alive inside
    have goes : exec (.linkLockLoss p) s = .next (withM s (portGoes p .down s.m)) := by
      have run : exec (.linkLockLoss p) s = execLinkLockLoss p s := rfl
      rw [run, execLinkLockLoss, onUp_ofUp up]
      split
      · exact absurd ‹_› locked
      · exact absurd ‹_› trained
      · exact absurd ‹_› alive
      · rfl
    refine ⟨_, goes, ?_⟩
    rw [portGoes_self (by decide) inside, portGoes_portDown trained locked]
    exact ⟨rfl, rfl, rfl⟩

end Sys2Proof.Machine

/-! ## Units keep apart

What the commands of one unit leave as it was in the others.  The commands of a unit are shown one by one to change what its relation
allows and nothing else. -/

namespace Sys2Proof.Machine

/-! ### Changes of one part of the state, for each unit that makes them -/

section
variable (m : Mach)

theorem PowerWorks.refl : PowerWorks m m := {}
theorem powerWorks_modPwr (f : PwrSt → PwrSt) : PowerWorks m (modPwr f m) := {}

theorem SyncWorks.refl : SyncWorks m m := {}
theorem syncWorks_modTick (f : TickSt → TickSt) : SyncWorks m (modTick f m) := {}
theorem syncWorks_modPort (p : Nat) (f : Port → Port) : SyncWorks m (modPort p f m) := {}

theorem HostWorks.refl : HostWorks m m := {}
theorem hostWorks_modHost (f : HostSt → HostSt) : HostWorks m (modHost f m) := {}
theorem hostWorks_resetFn (c : Nat) : HostWorks m (resetFn c m) := {}

theorem BootWorks.refl : BootWorks m m := {}
theorem bootWorks_modLife (f : LifeSt → LifeSt) : BootWorks m (modLife f m) := {}
theorem bootWorks_modTick (f : TickSt → TickSt) : BootWorks m (modTick f m) := {}
theorem bootWorks_trained (p : Nat → Bool) : BootWorks m (trained p m) := {}
theorem bootWorks_i3c (i : I3cSt) : BootWorks m { m with i3c := i } := {}
theorem bootWorks_cap (c : CapSt) : BootWorks m { m with cap := c } := {}

theorem PeasWork.refl : PeasWork m m := {}
theorem peasWork_modPea (p : Nat) (f : Pea → Pea) : PeasWork m (modPea p f m) := {}
theorem peasWork_modTen (t : Nat) (f : Ten → Ten) : PeasWork m (modTen t f m) := {}
theorem peasWork_modMem (f : MemSt → MemSt) : PeasWork m (modMem f m) := {}
theorem peasWork_modCtx (c : Nat) (f : Ctx → Ctx) : PeasWork m (modCtx c f m) := {}
theorem peasWork_modEcc (f : EccSt → EccSt) : PeasWork m (modEcc f m) := {}

theorem CoreWorks.refl : CoreWorks m m := {}

theorem PeaComputes.refl {p : Nat} : PeaComputes p m m := {}
theorem peaComputes_modCtx (p c : Nat) (f : Ctx → Ctx) : PeaComputes p m (modCtx c f m) := {}

theorem Scrubs.refl : Scrubs m m := {}
theorem scrubs_modEcc (f : EccSt → EccSt) : Scrubs m (modEcc f m) := {}
theorem scrubs_modLat (f : Latched → Latched) : Scrubs m (modLat f m) := {}

end

/-! ### Commands of the running module -/

/-- What holds of a command's change whether the module is up or not, where it holds of no change. -/
theorem onUp_changes {R : Mach → Mach → Prop} {f : Mach → Mach} {s t : State} (refl : R s.m s.m) (step : R s.m (f s.m))
    (moved : onUp f s = .next t) : t.nv = s.nv ∧ R s.m t.m := by
  obtain rfl : { s with m := if isUp s.m then f s.m else s.m } = t := Host.Outcome.next.inj moved
  refine ⟨rfl, ?_⟩
  show R s.m (if isUp s.m then f s.m else s.m)
  split
  · exact step
  · exact refl

theorem onM_changes {R : Mach → Mach → Prop} {f : Mach → Mach} {s t : State} (step : R s.m (f s.m)) (moved : onM f s = .next t) :
    t.nv = s.nv ∧ R s.m t.m := by
  obtain rfl : { s with m := f s.m } = t := Host.Outcome.next.inj moved
  exact ⟨rfl, step⟩

theorem onNv_changes {R : State → State → Prop} {f : Nv → Mach → Nv × Mach} {s t : State} (refl : R s s)
    (step : R s { s with nv := (f s.nv s.m).1, m := (f s.nv s.m).2 }) (moved : onNv f s = .next t) : R s t := by
  unfold onNv at moved
  split at moved
  · cases moved
    exact step
  · cases moved
    exact refl

theorem onlyIf_changes {R : Mach → Mach → Prop} {b : Bool} {f : Mach → Mach} {m : Mach} (refl : R m m) (step : R m (f m)) :
    R m (onlyIf b f m) := by
  cases b
  · exact refl
  · exact step

/-- An in-band interrupt goes out, and that is all it changes. -/
theorem raiseIbi_rest (cause : Nat) (m : Mach) : raiseIbi cause m = { m with out := (raiseIbi cause m).out } := by
  simp only [raiseIbi]
  split
  · exact send_rest ..
  · rfl

/-! ### Power (R393 to R411) -/

theorem powerWorks_captureAt (ord : List Nat) (kind cls source : Nat) (body : List Byte) (m : Mach) :
    PowerWorks m (captureAt ord kind cls source body m) := by
  obtain ⟨c, h⟩ := captureAt_cap ord kind cls source body m
  rw [h]
  exact ⟨rfl⟩

theorem powerWorks_captureClamp (k : Clamp) (begins : Bool) (m : Mach) : PowerWorks m (captureClamp k begins m) :=
  powerWorks_captureAt ..

theorem powerWorks_forEach {α : Type} (l : List α) (f : α → Mach → Mach) (h : ∀ a m, PowerWorks m (f a m)) (m : Mach) :
    PowerWorks m (forEach l f m) :=
  forEach_ind (PowerWorks m) l f (fun a x works => works.trans (h a x)) m (.refl m)

theorem powerWorks_takeSample (x : Sample) (m : Mach) : PowerWorks m (takeSample x m) := by
  have begun : ∀ k m, PowerWorks m (beginClamp k m) := fun k m => (powerWorks_captureClamp k true m).trans (powerWorks_modPwr ..)
  simp only [takeSample]
  split
  · exact (powerWorks_modPwr ..).trans (powerWorks_forEach _ _ begun _)
  · exact powerWorks_modPwr ..

theorem powerWorks_latchClampEnds (m : Mach) : PowerWorks m (latchClampEnds m) :=
  (powerWorks_forEach _ _ (fun (c : ClampSt) m => powerWorks_captureClamp c.kind false m) m).trans (powerWorks_modPwr ..)

theorem powerWorks_markSlow (m : Mach) : PowerWorks m (markSlow m) := by
  simp only [markSlow]
  split <;> exact ⟨rfl⟩

theorem powerWorks_walkIndex (m : Mach) : PowerWorks m (walkIndex m) := by
  have walked : ∀ f g m, PowerWorks m (modPwr g (modStp f m)) := fun f g m => ⟨rfl⟩
  simp only [walkIndex]
  split
  · exact powerWorks_markSlow m
  · exact (powerWorks_markSlow m).trans (walked _ _ _)

theorem powerWorks_walkStart (m : Mach) : PowerWorks m (walkStart m) := by
  simp only [walkStart]
  split
  · exact powerWorks_walkIndex m
  · exact powerWorks_markSlow m

theorem powerWorks_enterStep (step node : Nat) (m : Mach) : PowerWorks m (enterStep step node m) := by
  have entered : ∀ old m, PowerWorks m
      (if clamped m.pwr then m
      else if m.pwr.localStep ≤ step then modPwr (fun x => { x with localStep := step }) m
      else if step < old then walkStart m else m) := fun old m => by
    split
    · exact .refl m
    · split
      · exact powerWorks_modPwr ..
      · split
        · exact powerWorks_walkStart m
        · exact .refl m
  have counted : ∀ old m, PowerWorks m
      (if step = old then m else m |> notePower 0 |> modPwr (fun x => { x with stepChanges := bump 16 1 x.stepChanges })) :=
    fun old m => by split <;> exact ⟨rfl⟩
  exact (powerWorks_modPwr ..).trans ((counted m.pwr.groupStep _).trans (entered m.pwr.groupStep _))

/-- What the power unit's work leaves as it was. -/
theorem PowerWorks.apart {s t : State} (h : t.nv = s.nv ∧ PowerWorks s.m t.m) : t.nv = s.nv ∧ SameWork s.m t.m ∧ SameNet s.m t.m ∧
    t.m.life = s.m.life ∧ t.m.host = s.m.host ∧ t.m.lat = s.m.lat ∧ t.m.ecc = s.m.ecc ∧ t.m.out = s.m.out := by
  obtain ⟨nv, works⟩ := h
  refine ⟨nv, ?_⟩
  rw [works.rest]
  exact ⟨⟨rfl, rfl, rfl, rfl, rfl⟩, ⟨rfl, rfl, rfl, rfl⟩, rfl, rfl, rfl, rfl, rfl⟩

/-- R410: a thermal shutdown is latched, and told in-band. -/
theorem thermalShutdown_rest (m : Mach) :
    thermalShutdown m = { m with pwr := (thermalShutdown m).pwr, out := (thermalShutdown m).out } := by
  have told : ∀ m, raiseIbi 2 m = { m with out := (raiseIbi 2 m).out } := raiseIbi_rest 2
  simp only [thermalShutdown]
  split
  · rw [told]
    rfl
  · rfl

theorem thermalShutdown_apart {s t : State} (moved : exec .thermalShutdown s = .next t) :
    t.nv = s.nv ∧ SameWork s.m t.m ∧ SameNet s.m t.m ∧ SameCore s.m t.m ∧ t.m.lat = s.m.lat := by
  obtain ⟨nv, shut⟩ := onUp_changes (R := fun a b => b = { a with pwr := b.pwr, out := b.out }) rfl (thermalShutdown_rest s.m) moved
  refine ⟨nv, ?_⟩
  rw [shut]
  exact ⟨⟨rfl, rfl, rfl, rfl, rfl⟩, ⟨rfl, rfl, rfl, rfl⟩, ⟨rfl, rfl, rfl, rfl⟩, rfl⟩

/-! ### Tick synchronisation (R33, R39 to R41) -/

theorem PowerWorks.sync {a b : Mach} (h : PowerWorks a b) : SyncWorks a b :=
  ⟨h.rest.trans (congrArg (fun x : Mach => { a with
    tick := x.tick, link := x.link, out := x.out, peas := b.peas, stp := b.stp, pwr := b.pwr, cap := b.cap }) h.rest.symm)⟩

theorem syncWorks_send (o : Out) (m : Mach) : SyncWorks m (send o m) := by
  rw [send_rest]
  exact ⟨rfl⟩

theorem syncWorks_sends (l : List Nat) (o : Nat → Mach → Out) (m : Mach) : SyncWorks m (forEach l (fun p m => send (o p m) m) m) :=
  forEach_ind (SyncWorks m) l _ (fun _ _ works => works.trans (syncWorks_send ..)) m (.refl m)

theorem syncWorks_captureTick (port : Nat) (bs : List Byte) (m : Mach) : SyncWorks m (captureTick port bs m) :=
  (powerWorks_captureAt ..).sync

theorem syncWorks_launchTsync (m : Mach) : SyncWorks m (launchTsync m) := by
  have granted : SyncWorks m (makeGrant m) := ⟨rfl⟩
  simp only [launchTsync]
  split
  · exact .refl m
  · split
    · exact granted
    · exact granted.trans (syncWorks_sends (treePorts _) (fun p m => .linkTsync p { rootTsync m with version := portVersion m p }) _)

theorem syncWorks_lateTsync (t : Tsync) (m : Mach) : SyncWorks m (lateTsync t m) := (powerWorks_enterStep ..).sync.trans ⟨rfl⟩

theorem syncWorks_receiveTsync (port : Nat) (t : Tsync) (m : Mach) : SyncWorks m (receiveTsync port t m) := by
  have forwarded : ∀ l (o : Nat → Mach → Out) f, SyncWorks m
      (modTick f (forEach l (fun p m => send (o p m) m) (captureTick port (tsyncBytes t) m))) :=
    fun l o f => (syncWorks_captureTick ..).trans ((syncWorks_sends l o _).trans (syncWorks_modTick ..))
  have floored : ∀ f g m, SyncWorks m (modTick f (modPwr g m)) := fun f g m => ⟨rfl⟩
  simp only [receiveTsync]
  split
  · exact syncWorks_modPort ..
  · split
    · exact forwarded ..
    · split
      · exact (forwarded ..).trans ((floored ..).trans (syncWorks_modTick ..))
      · split
        · exact (forwarded ..).trans ((floored ..).trans (syncWorks_lateTsync ..))
        · exact (forwarded ..).trans (floored ..)

theorem syncWorks_receiveTreq (port : Nat) (t : Treq) (m : Mach) : SyncWorks m (receiveTreq port t m) := by
  have kept : ∀ f m, SyncWorks m (noteFormed (modTick f m)) := fun f m => ⟨rfl⟩
  simp only [receiveTreq]
  split
  · exact syncWorks_modPort ..
  · split
    · split
      · exact (syncWorks_captureTick ..).trans (syncWorks_send ..)
      · exact syncWorks_captureTick ..
    · exact (syncWorks_captureTick ..).trans (kept _ _)

/-- What synchronisation leaves as it was. -/
theorem SyncWorks.apart {s t : State} (h : t.nv = s.nv ∧ SyncWorks s.m t.m) : t.nv = s.nv ∧ SameWork s.m t.m ∧ t.m.life = s.m.life ∧
    t.m.host = s.m.host ∧ t.m.lat = s.m.lat ∧ t.m.ecc = s.m.ecc ∧ t.m.i3c = s.m.i3c := by
  obtain ⟨nv, works⟩ := h
  refine ⟨nv, ?_⟩
  rw [works.rest]
  exact ⟨⟨rfl, rfl, rfl, rfl, rfl⟩, rfl, rfl, rfl, rfl, rfl⟩

/-! ### Links (R319 to R333) -/

/-- From `a` to `b` a command of port `p` has run: another port at most sends. -/
structure PortRuns (p : Nat) (a b : Mach) : Prop where
  runs : LinksRun a b
  others : ∀ q, q ≠ p → SameButQueues (portOf a q) (portOf b q)

section
variable {p : Nat}

theorem PortRuns.refl (m : Mach) : PortRuns p m m := ⟨.refl m, fun _ _ => .refl _⟩

theorem PortRuns.trans {a b c : Mach} (h : PortRuns p a b) (k : PortRuns p b c) : PortRuns p a c :=
  ⟨h.runs.trans k.runs, fun q other => (h.others q other).trans (k.others q other)⟩

theorem PortsSend.portRuns {a b : Mach} (h : PortsSend a b) : PortRuns p a b := ⟨h.linksRun, fun q _ => h.ports q⟩

variable (m : Mach)

theorem portRuns_modPort (f : Port → Port) : PortRuns p m (modPort p f m) :=
  ⟨linksRun_modPort .., fun _ other => by rw [portOf_modPort_other other]; exact .refl _⟩

theorem portRuns_linkSend (o : Out) : PortRuns p m (linkSend p o m) := (portsSend_linkSend ..).portRuns

theorem portRuns_portGoes (st : PortState) : PortRuns p m (portGoes p st m) := ⟨linksRun_portGoes, fun _ => portGoes_other⟩

theorem portRuns_latched (f : Latched → Latched) (kind cls source : Nat) (body : List Byte) :
    PortRuns p m (capture kind cls source body (modLat f m)) :=
  ⟨(linksRun_modLat ..).trans (linksRun_capture ..), fun _ _ => by rw [portOf_capture, portOf_modLat]; exact .refl _⟩

theorem portRuns_noteLanes (cause : Nat) : PortRuns p m (noteLanes p cause m) := portRuns_latched ..

theorem portRuns_resendFrom : PortRuns p m (resendFrom p m) := by
  simp only [resendFrom]
  split
  · exact .refl m
  · split
    · exact portRuns_portGoes ..
    · exact (portRuns_modPort ..).trans (portsSend_send ..).portRuns

theorem portRuns_detectStart : PortRuns p m (detectStart p m) := by
  simp only [detectStart]
  split
  · exact portRuns_modPort ..
  · exact .refl m

theorem portRuns_retryTimer : PortRuns p m (retryTimer p m) := by
  simp only [retryTimer]
  split
  · exact portRuns_modPort ..
  · exact .refl m

theorem portRuns_attemptFails : PortRuns p m (attemptFails p false m) := by
  rcases Nat.lt_or_ge ((portOf m p).fails + 1) 8 with early | eighth
  · rw [attemptFails_again early]
    exact (portRuns_modPort ..).trans (portRuns_modPort ..)
  · rw [attemptFails_dead eighth]
    exact (portRuns_modPort ..).trans (portRuns_portGoes ..)

theorem portRuns_identifyTimeout : PortRuns p m (identifyTimeout p m) := by
  simp only [identifyTimeout]
  split
  · exact portRuns_attemptFails ..
  · exact .refl m

theorem portRuns_identified : PortRuns p m (identified p m) := by
  simp only [identified]
  split
  · split
    · exact (portRuns_modPort ..).trans (portRuns_latched ..)
    · exact .refl m
  · exact .refl m

theorem portRuns_identityReceive (block : List Byte) : PortRuns p m (identityReceive p block m) := by
  have changed : ∀ i (x : Port), PortRuns p m (if x.peer == some i then m else
      m |> modPort p (takeIdent i m) |> modLat (fun l => { l with portCheck := l.portCheck ++ [p] })
        |> capture 0x0A 5 p (le 2 i.node ++ le 1 i.port ++ le 8 i.serial ++ le 2 i.proto)) := fun i x => by
    split
    · exact .refl m
    · exact (portRuns_modPort ..).trans (portRuns_latched ..)
  simp only [identityReceive]
  split
  · exact portRuns_attemptFails ..
  · exact (portRuns_modPort ..).trans (portRuns_identified ..)
  · exact changed ..
  · exact changed ..
  · exact changed ..
  · exact .refl m

theorem portRuns_dropWidth : PortRuns p m (dropWidth p m) := by
  simp only [dropWidth]
  split
  · exact portRuns_portGoes ..
  · split
    · exact portRuns_modPort ..
    · exact (portRuns_modPort ..).trans (portRuns_noteLanes ..)

theorem portRuns_laneFails (lane : Nat) : PortRuns p m (laneFails p lane m) := by
  simp only [laneFails]
  split
  · exact .refl m
  · split
    · exact portRuns_modPort ..
    · split
      · split
        · exact (portRuns_modPort ..).trans (portRuns_dropWidth ..)
        · exact (portRuns_modPort ..).trans ((portRuns_modPort ..).trans ((portRuns_linkSend ..).trans (portRuns_noteLanes ..)))
      · exact (portRuns_modPort ..).trans
          ((onlyIf_changes (R := PortRuns p) (.refl _) (portRuns_linkSend ..)).trans (portRuns_dropWidth ..))

theorem portRuns_laneSubstitute (logical spare : Nat) : PortRuns p m (laneSubstitute p logical spare m) := by
  simp only [laneSubstitute]
  split
  · exact .refl m
  · split
    · exact (portRuns_modPort ..).trans (portRuns_dropWidth ..)
    · exact (portRuns_modPort ..).trans ((portRuns_modPort ..).trans (portRuns_noteLanes ..))

theorem portRuns_relockDone : PortRuns p m (relockDone p m) := by
  simp only [relockDone]
  split
  · exact (portRuns_modPort ..).trans ((portRuns_resendFrom ..).trans (portsSend_drainPort ..).portRuns)
  · exact .refl m

theorem execLinkLockLoss_changes {s t : State} (moved : execLinkLockLoss p s = .next t) : t.nv = s.nv ∧ PortRuns p s.m t.m := by
  unfold execLinkLockLoss at moved
  refine onUp_changes (.refl _) ?_ moved
  split
  · exact .refl _
  · exact .refl _
  · exact .refl _
  · exact portRuns_portGoes ..

end

theorem LinksRun.apart {a b : Mach} (h : LinksRun a b) :
    SameWork a b ∧ SameCore a b ∧ b.tick = a.tick ∧ b.i3c = a.i3c ∧ b.pwr = a.pwr := by
  rw [h]
  exact ⟨⟨rfl, rfl, rfl, rfl, rfl⟩, ⟨rfl, rfl, rfl, rfl⟩, rfl, rfl, rfl⟩

/-- What a port's command leaves as it was: of another port all but its queues. -/
theorem PortRuns.apart {p : Nat} {s t : State} (h : t.nv = s.nv ∧ PortRuns p s.m t.m) : t.nv = s.nv ∧ SameWork s.m t.m ∧
    SameCore s.m t.m ∧ t.m.tick = s.m.tick ∧ t.m.i3c = s.m.i3c ∧ t.m.pwr = s.m.pwr ∧ ∀ q, q ≠ p →
      (portOf t.m q).state = (portOf s.m q).state ∧ (portOf t.m q).peer = (portOf s.m q).peer ∧
        (portOf t.m q).rxNext = (portOf s.m q).rxNext := by
  obtain ⟨nv, runs, others⟩ := h
  obtain ⟨work, core, tick, i3c, pwr⟩ := runs.apart
  exact ⟨nv, work, core, tick, i3c, pwr, fun q other => ⟨(others q other).part (·.state) fun _ _ _ _ => rfl,
    (others q other).part (·.peer) fun _ _ _ _ => rfl, (others q other).part (·.rxNext) fun _ _ _ _ => rfl⟩⟩

/-! ### The host's functions (R120, R433) -/

theorem hostWorks_resetFns (l : List Nat) (m : Mach) : HostWorks m (forEach l resetFn m) :=
  forEach_ind (HostWorks m) l resetFn (fun c x works => works.trans (hostWorks_resetFn x c)) m (.refl m)

theorem hostWorks_flr (c : Nat) (m : Mach) : HostWorks m (flr c m) := by
  simp only [flr]
  split
  · exact .refl m
  · exact (hostWorks_modHost ..).trans (hostWorks_resetFns ..)

theorem hostWorks_clearVfEnable (m : Mach) : HostWorks m (clearVfEnable m) := by
  simp only [clearVfEnable]
  split
  · exact (hostWorks_modHost ..).trans (hostWorks_resetFns ..)
  · exact .refl m

theorem hostWorks_trainLink (speed width : Nat) (flit256 cacheEn vfEnable : Bool) (numVfs : Nat) (m : Mach) :
    HostWorks m (trainLink speed width flit256 cacheEn vfEnable numVfs m) := by
  simp only [trainLink]
  split
  · exact (onlyIf_changes (.refl m) (hostWorks_clearVfEnable m)).trans (hostWorks_modHost ..)
  · exact .refl m

theorem HostWorks.apart {s t : State} (h : t.nv = s.nv ∧ HostWorks s.m t.m) : t.nv = s.nv ∧ SameNet s.m t.m ∧ t.m.ctxs = s.m.ctxs ∧
    t.m.ten = s.m.ten ∧ t.m.mem = s.m.mem ∧ t.m.peas = s.m.peas ∧ t.m.stp = s.m.stp ∧ t.m.pwr = s.m.pwr ∧ t.m.life = s.m.life ∧
    t.m.cap = s.m.cap ∧ t.m.lat = s.m.lat ∧ t.m.out = s.m.out := by
  obtain ⟨nv, works⟩ := h
  refine ⟨nv, ?_⟩
  rw [works.rest]
  exact ⟨⟨rfl, rfl, rfl, rfl⟩, rfl, rfl, rfl, rfl, rfl, rfl, rfl, rfl, rfl, rfl⟩

/-! ### Power-up and hot swap (R436 to R445, R479 to R483) -/

theorem bootWorks_send (o : Out) (m : Mach) : BootWorks m (send o m) := by
  rw [send_rest]
  exact ⟨rfl⟩

theorem bootWorks_bootFails (code : Nat) (m : Mach) : BootWorks m (bootFails code m) := by
  rw [bootFails, raiseIbi_rest]
  exact ⟨rfl⟩

theorem bootWorks_captureEvent (cause tick : Nat) (m : Mach) : BootWorks m (captureEvent cause tick m) := by
  have noted : ∀ typ body m, BootWorks m (trigger typ body m) := fun typ body m => by
    simp only [trigger]
    split
    · split <;> exact ⟨rfl⟩
    · exact ⟨rfl⟩
  exact (noted ..).trans ⟨rfl⟩

theorem bootWorks_tryPowerUp (nv : Nv) (m : Mach) : BootWorks m (tryPowerUp nv m) := by
  have started : BootWorks m (coldPowerUp nv m) := by
    simp only [coldPowerUp]
    split
    · exact bootWorks_modLife ..
    · exact (bootWorks_modLife ..).trans ((bootWorks_cap ..).trans (bootWorks_captureEvent ..))
  simp only [tryPowerUp]
  split
  · exact started
  · exact .refl m

theorem bootWorks_warmResume (m : Mach) : BootWorks m (warmResume m) := by
  simp only [warmResume]
  split
  · exact (bootWorks_modLife ..).trans ((bootWorks_i3c ..).trans (bootWorks_send ..))
  · exact .refl m

theorem bootWorks_railsDone (m : Mach) : BootWorks m (railsDone m) := by
  simp only [railsDone]
  split
  · exact (bootWorks_modLife ..).trans ((bootWorks_i3c ..).trans (onlyIf_changes (.refl _) (bootWorks_send ..)))
  · exact .refl m

theorem bootWorks_turnipRelease (m : Mach) : BootWorks m (turnipRelease m) := by
  simp only [turnipRelease]
  split
  · exact (bootWorks_modLife ..).trans (bootWorks_modTick ..)
  · exact .refl m

theorem bootWorks_presenceMake (m : Mach) : BootWorks m (presenceMake m) := by
  have noted : BootWorks m (capture 0x0D 2 0 [1] m) := by
    obtain ⟨c, h⟩ := captureAt_cap [1, 0] 0x0D 2 0 [1] m
    show BootWorks m (captureAt [1, 0] 0x0D 2 0 [1] m)
    rw [h]
    exact bootWorks_cap m c
  exact noted.trans (bootWorks_modLife ..)

theorem bootWorks_hotswapIsolate (m : Mach) : BootWorks m (hotswapIsolate m) := by
  simp only [hotswapIsolate]
  split <;> exact ⟨rfl⟩

theorem bootWorks_hotswapBleedDone (m : Mach) : BootWorks m (hotswapBleedDone m) := by
  simp only [hotswapBleedDone]
  split <;> exact ⟨rfl⟩

theorem bootWorks_chargeStart (nv : Nv) (m : Mach) : BootWorks m (chargeStart nv m) := by
  simp only [chargeStart]
  split
  · exact (bootWorks_modLife ..).trans (bootWorks_tryPowerUp ..)
  · exact .refl m

theorem bootWorks_bulkCharged (m : Mach) : BootWorks m (bulkCharged m) := by
  simp only [bulkCharged]
  split <;> exact ⟨rfl⟩

theorem bootWorks_ftlMountDone (ok : Bool) (m : Mach) : BootWorks m (ftlMountDone ok m) := by
  simp only [ftlMountDone]
  split
  · exact .refl m
  · split
    · exact (bootWorks_trained ..).trans (bootWorks_modLife ..)
    · exact bootWorks_bootFails ..

/-- What the pins and the boot engine leave as it was. -/
theorem BootWorks.apart {f : Nv → Mach → Mach} {s t : State} (works : BootWorks s.m (f s.nv s.m)) (moved : onPins f s = .next t) :
    t.nv = s.nv ∧ SameWork s.m t.m ∧ t.m.peas = s.m.peas ∧ t.m.stp = s.m.stp ∧ t.m.link = s.m.link ∧ t.m.fab = s.m.fab ∧
      t.m.pwr = s.m.pwr ∧ t.m.ecc = s.m.ecc := by
  obtain rfl : { s with m := f s.nv s.m } = t := Host.Outcome.next.inj moved
  refine ⟨rfl, ?_⟩
  show SameWork s.m (f s.nv s.m) ∧ (f s.nv s.m).peas = s.m.peas ∧ (f s.nv s.m).stp = s.m.stp ∧ (f s.nv s.m).link = s.m.link ∧
    (f s.nv s.m).fab = s.m.fab ∧ (f s.nv s.m).pwr = s.m.pwr ∧ (f s.nv s.m).ecc = s.m.ecc
  rw [works.rest]
  exact ⟨⟨rfl, rfl, rfl, rfl, rfl⟩, rfl, rfl, rfl, rfl, rfl, rfl⟩

/-- R440: the memory test and its repairs. -/
theorem memoryInitDone_apart (ok : Bool) (lpFail : List Nat) (nv : Nv) (m : Mach) :
    SameWork m (memoryInitDone ok lpFail nv m).2 ∧ SameNet m (memoryInitDone ok lpFail nv m).2 ∧
      (memoryInitDone ok lpFail nv m).2.peas = m.peas ∧ (memoryInitDone ok lpFail nv m).2.stp = m.stp := by
  have rest : (memoryInitDone ok lpFail nv m).2 =
      { m with ecc := (memoryInitDone ok lpFail nv m).2.ecc, life := (memoryInitDone ok lpFail nv m).2.life
               out := (memoryInitDone ok lpFail nv m).2.out } := by
    simp only [memoryInitDone]
    split
    · rfl
    · split
      · rw [bootFails, raiseIbi_rest]
        rfl
      · split <;> rfl
  rw [rest]
  exact ⟨⟨rfl, rfl, rfl, rfl, rfl⟩, ⟨rfl, rfl, rfl, rfl⟩, rfl, rfl⟩

/-! ### Peas that compute (R90 to R112) -/

section
variable {p : Nat}

variable (m : Mach)

theorem peaComputes_modPea (f : Pea → Pea) : PeaComputes p m (modPea p f m) :=
  ⟨rfl, rfl, rfl, fun _ other => peaOf_modPea_other other f⟩

theorem peaComputes_charge (f : Account → Account) : PeaComputes p m (charge p f m) := peaComputes_modCtx ..

theorem peaComputes_tally (k : Trouble) : PeaComputes p m (tally p k m) := peaComputes_modPea ..

theorem peaComputes_latchDone (d : DoneIn) : PeaComputes p m (latchDone d m) := by
  obtain ⟨c, h⟩ := captureAt_cap [4, d.ctx, d.seq] 0x07 5 d.unit (le 4 d.seq ++ le 1 (statusCode d.status))
    (modLat (fun l => { l with dones := l.dones ++ [d] }) m)
  rw [latchDone, h]
  exact ⟨rfl, rfl, rfl, fun _ _ => rfl⟩

theorem peaComputes_endTile : PeaComputes p m (endTile p m) := by
  have counted : ∀ c n k m, PeaComputes p m (addCounts c n k m) := fun c n k m => ⟨rfl, rfl, rfl, fun _ _ => rfl⟩
  simp only [endTile]
  split
  · split
    · exact (peaComputes_modPea ..).trans (counted ..)
    · exact peaComputes_modPea ..
  · exact peaComputes_modPea ..

theorem peaComputes_endUnit (st : Status) (detail : Nat) : PeaComputes p m (endUnit p st detail m) := by
  simp only [endUnit]
  split
  · exact .refl m
  · exact (peaComputes_endTile m).trans ((peaComputes_modPea ..).trans (peaComputes_latchDone ..))

theorem peaComputes_endInvalid : PeaComputes p m (endInvalid p m) := peaComputes_endUnit ..

theorem peaComputes_quantOp (vsrc elem side spill : Nat) : PeaComputes p m (quantOp p vsrc elem side spill m) := by
  simp only [quantOp]
  split
  · exact peaComputes_endInvalid m
  · exact (peaComputes_modPea ..).trans (peaComputes_tally ..)

theorem peaComputes_matrixOp (o : MatOp) : PeaComputes p m (matrixOp p o m) := by
  simp only [matrixOp]
  split
  · exact peaComputes_endInvalid m
  · split
    · exact peaComputes_endInvalid m
    · split
      · exact .refl m
      · exact (peaComputes_modPea ..).trans ((peaComputes_tally ..).trans (peaComputes_charge ..))

theorem peaComputes_vectorOp (op : VecOp) (rd ra rb rc : Nat) : PeaComputes p m (vectorOp p op rd ra rb rc m) :=
  (peaComputes_modPea ..).trans (peaComputes_charge ..)

end

/-- What an instruction of a pea leaves as it was. -/
theorem PeaComputes.apart {p : Nat} {f : Mach → Mach} {s t : State} (step : PeaComputes p s.m (f s.m)) (moved : onPea p f s = .next t) :
    t.nv = s.nv ∧ SameNet s.m t.m ∧ t.m.fns = s.m.fns ∧ t.m.reqs = s.m.reqs ∧ t.m.ten = s.m.ten ∧ t.m.life = s.m.life ∧
      t.m.host = s.m.host ∧ t.m.out = s.m.out ∧ t.m.mem.sliceMem = s.m.mem.sliceMem ∧ t.m.mem.dev = s.m.mem.dev ∧
      ∀ q, q ≠ p → peaOf t.m q = peaOf s.m q := by
  have ran : PeaComputes p s.m (if peaRuns s.m p then f s.m else s.m) := by
    split
    · exact step
    · exact .refl _
  obtain ⟨nv, rest, slices, dev, others⟩ := onM_changes (R := PeaComputes p) ran moved
  refine ⟨nv, ?_, ?_, ?_, ?_, ?_, ?_, ?_, slices, dev, others⟩
  · rw [rest]
    exact ⟨rfl, rfl, rfl, rfl⟩
  all_goals rw [rest]

/-! ### Work units and align groups (R64, R75, R86, R87) -/

theorem PeaComputes.work {p : Nat} {a b : Mach} (h : PeaComputes p a b) : PeasWork a b :=
  ⟨h.rest.trans (congrArg (fun x : Mach => { a with
    ctxs := b.ctxs, ten := x.ten, mem := b.mem, ecc := x.ecc, peas := b.peas, stp := x.stp, lat := b.lat, cap := b.cap }) h.rest.symm)⟩

theorem peasWork_forEach {α : Type} (l : List α) (f : α → Mach → Mach) (h : ∀ a m, PeasWork m (f a m)) (m : Mach) :
    PeasWork m (forEach l f m) :=
  forEach_ind (PeasWork m) l f (fun a x works => works.trans (h a x)) m (.refl m)

theorem peasWork_releasePeas (ps : List Nat) (failed : Bool) (m : Mach) : PeasWork m (releasePeas ps failed m) :=
  peasWork_forEach _ _ (fun _ _ => peasWork_modPea ..) m

theorem peasWork_failRound (t g : Nat) (also : List Nat) (m : Mach) : PeasWork m (failRound t g also m) := by
  simp only [failRound]
  split
  · exact .refl m
  · exact (peasWork_modTen ..).trans ((peasWork_releasePeas ..).trans ((peasWork_modMem ..).trans
      (peasWork_forEach _ _ (fun _ _ => peasWork_modCtx ..) _)))

theorem peasWork_arrive (p g n : Nat) (m : Mach) : PeasWork m (arrive p g n m) := by
  simp only [arrive]
  split
  · exact (peasWork_modPea ..).trans (peasWork_modTen ..)
  · split
    · exact peasWork_failRound ..
    · split
      · exact (peasWork_modTen ..).trans (peasWork_releasePeas ..)
      · exact (peasWork_modPea ..).trans (peasWork_modTen ..)

theorem peasWork_noteRead (t a n : Nat) (merges : Bool) (m : Mach) : PeasWork m (noteRead t a n merges m) := by
  have array : ∀ line m, PeasWork m (arrayRead line m) := fun line m => by
    simp only [arrayRead]
    split
    · obtain ⟨c, h⟩ := captureAt_cap [3, 0, 64 * line] 0x08 5 0 (le 8 (64 * line)) (modEcc (fun e =>
        { e with sramCorrected := bump 32 1 e.sramCorrected, tickSram := bump 32 1 e.tickSram }) m)
      rw [captureCorr, h]
      exact ⟨rfl⟩
    · exact ⟨rfl⟩
  have line : ∀ slice line m, PeasWork m (mergeLine slice line m) := fun slice line m => by
    simp only [mergeLine]
    split
    · exact ⟨rfl⟩
    · exact (peasWork_modMem ..).trans (array _ _)
  simp only [noteRead]
  split
  · exact .refl m
  · refine peasWork_forEach _ _ (fun l m => ?_) m
    split
    · exact line ..
    · exact array ..

theorem peasWork_countBadRead (t a n : Nat) (m : Mach) : PeasWork m (countBadRead t a n m) := by
  have counted : PeasWork m (countPoison (.poison 0) m) := ⟨rfl⟩
  simp only [countBadRead]
  split
  · exact .refl m
  · exact counted.trans ⟨rfl⟩

theorem peasWork_peaRead (p a n : Nat) {k : List Byte → Mach → Mach} (next : ∀ bs m, PeasWork m (k bs m)) (m : Mach) :
    PeasWork m (peaRead p a n k m) := by
  simp only [peaRead, peaAccess]
  split
  · exact (peasWork_noteRead ..).trans ((peasWork_modCtx ..).trans (next _ _))
  · exact (peasWork_noteRead ..).trans ((peasWork_countBadRead ..).trans (peaComputes_endUnit ..).work)
  · exact (peasWork_modMem ..).trans ((peasWork_modCtx ..).trans (peaComputes_endUnit ..).work)

theorem peasWork_descDone (p : Nat) (m : Mach) : PeasWork m (descDone p m) := peasWork_modPea ..

theorem peasWork_countSkip (p : Nat) (m : Mach) : PeasWork m (countSkip p m) := by
  simp only [countSkip]
  split <;> exact ⟨rfl⟩

theorem peasWork_skipGated (p fuel : Nat) (m : Mach) : PeasWork m (skipGated p fuel m) := by
  induction fuel generalizing m with
  | zero => exact .refl m
  | succ fuel ih =>
    have gate : ∀ (bs : List Byte) m, PeasWork m (if unle bs = 0 then skipGated p fuel (descDone p (countSkip p m)) else m) :=
      fun bs m => by
        split
        · exact (peasWork_countSkip ..).trans ((peasWork_descDone ..).trans (ih _))
        · exact .refl m
    simp only [skipGated]
    split
    · exact .refl m
    · split
      · exact .refl m
      · split
        · exact (peaComputes_endInvalid (p := p) m).work
        · split
          · exact peasWork_peaRead _ _ _ gate m
          · exact .refl m

theorem peasWork_completeUnit (p : Nat) (m : Mach) : PeasWork m (completeUnit p m) := by
  have ended : PeasWork m (runEnds p m) := by
    simp only [runEnds]
    split
    · exact peasWork_descDone ..
    · exact .refl m
  have settled : PeasWork m (settlePea p m) := ended.trans (peasWork_skipGated ..)
  simp only [completeUnit]
  split
  · exact settled.trans (peaComputes_endUnit ..).work
  · exact settled

theorem peasWork_peaLoad (p a n : Nat) (dst : PeaDst) (m : Mach) : PeasWork m (peaLoad p a n dst m) := by
  simp only [peaLoad]
  split
  · exact peasWork_peaRead _ _ _ (fun _ _ => peasWork_modPea ..) m
  · exact .refl m

/-- What the peas' work leaves as it was. -/
theorem PeasWork.apart {s t : State} (h : t.nv = s.nv ∧ PeasWork s.m t.m) : t.nv = s.nv ∧ t.m.fns = s.m.fns ∧ t.m.reqs = s.m.reqs ∧
    t.m.tick = s.m.tick ∧ t.m.life = s.m.life ∧ t.m.host = s.m.host ∧ t.m.i3c = s.m.i3c ∧ t.m.pwr = s.m.pwr := by
  obtain ⟨nv, works⟩ := h
  refine ⟨nv, ?_⟩
  rw [works.rest]
  exact ⟨rfl, rfl, rfl, rfl, rfl, rfl, rfl⟩

/-! ### Turnip's cores (R209, R210) -/

theorem coreWorks_haltCore (core cause : Nat) (m : Mach) : CoreWorks m (haltCore core cause m) := by
  have told : ∀ m, CoreWorks m (raiseIbi 1 m) := fun m => by
    rw [raiseIbi_rest]
    exact ⟨rfl⟩
  have noted : ∀ f m, CoreWorks m (captureAt [0, core] 0x08 3 core [BitVec.ofNat 8 cause] (modLife f m)) := fun f m => by
    obtain ⟨c, h⟩ := captureAt_cap [0, core] 0x08 3 core [BitVec.ofNat 8 cause] (modLife f m)
    rw [h]
    exact ⟨rfl⟩
  simp only [haltCore]
  split
  · exact .refl m
  · exact (noted ..).trans (told _)

theorem coreWorks_turnipReplay (core : Nat) (ok : Bool) (m : Mach) : CoreWorks m (turnipReplay core ok m) := by
  have counted : ∀ f g m, CoreWorks m (modLife f (modEcc g m)) := fun f g m => ⟨rfl⟩
  simp only [turnipReplay]
  split
  · exact counted ..
  · exact (counted ..).trans (coreWorks_haltCore ..)

/-- What a halted or replaying core leaves as it was. -/
theorem CoreWorks.apart {s t : State} (h : t.nv = s.nv ∧ CoreWorks s.m t.m) : t.nv = s.nv ∧ SameWork s.m t.m ∧ SameNet s.m t.m ∧
    t.m.peas = s.m.peas ∧ t.m.stp = s.m.stp ∧ t.m.pwr = s.m.pwr := by
  obtain ⟨nv, works⟩ := h
  refine ⟨nv, ?_⟩
  rw [works.rest]
  exact ⟨⟨rfl, rfl, rfl, rfl, rfl⟩, ⟨rfl, rfl, rfl, rfl⟩, rfl, rfl, rfl⟩

/-! ### Scrubbing (R194 to R198) -/

theorem scrubs_forEach {α : Type} (l : List α) (f : α → Mach → Mach) (h : ∀ a m, Scrubs m (f a m)) (m : Mach) :
    Scrubs m (forEach l f m) :=
  forEach_ind (Scrubs m) l f (fun a x scrubbed => scrubbed.trans (h a x)) m (.refl m)

/-- What changes marks and wrong bits alone. -/
theorem scrubs_modMem {f : MemSt → MemSt} (slices : ∀ x, (f x).sliceMem = x.sliceMem) (dev : ∀ x, (f x).dev = x.dev) (m : Mach) :
    Scrubs m (modMem f m) := ⟨rfl, slices _, dev _⟩

theorem scrubs_flipBytes (fs : List (Nat × Nat)) (m : Mach) : Scrubs m (flipBytes fs m) := ⟨rfl, rfl, rfl⟩

theorem scrubs_markBytes (l : List Nat) (m : Mach) : Scrubs m (markBytes l m) := ⟨rfl, rfl, rfl⟩

theorem scrubs_markUnit (k : Nat) (m : Mach) : Scrubs m (markUnit k m) := ⟨rfl, rfl, rfl⟩

theorem scrubs_keepCorrected (store : Nat) (locs : List Nat) (m : Mach) : Scrubs m (keepCorrected store locs m) := scrubs_modEcc ..

theorem scrubs_countHbm (n : Nat) (m : Mach) : Scrubs m (countHbm n m) := scrubs_modEcc ..

theorem scrubs_countStack (stack : Nat) (v : UnitVerdict) (m : Mach) : Scrubs m (countStack stack v m) := scrubs_modEcc ..

theorem scrubs_captureAt (ord : List Nat) (kind cls source : Nat) (body : List Byte) (m : Mach) :
    Scrubs m (captureAt ord kind cls source body m) := by
  obtain ⟨c, h⟩ := captureAt_cap ord kind cls source body m
  rw [h]
  exact ⟨rfl, rfl, rfl⟩

theorem scrubs_captureCorr (store loc : Nat) (m : Mach) : Scrubs m (captureCorr store loc m) := scrubs_captureAt ..

theorem scrubs_latchErr (e : ErrIn) (m : Mach) : Scrubs m (latchErr e m) := by
  exact (scrubs_modLat ..).trans (scrubs_captureAt ..)

theorem scrubs_closeMerges (lo hi : Nat) (m : Mach) : Scrubs m (modMem (closeMerges lo hi) m) :=
  scrubs_modMem (f := closeMerges lo hi) (fun _ => rfl) (fun _ => rfl) m

theorem scrubs_candidates (st : Store) (locs : List Nat) (nv : Nv) (m : Mach) :
    Scrubs m (candidates st locs nv m).2 ∧ (candidates st locs nv m).1.flash = nv.flash := by
  have remapped : ∀ row m, Scrubs m (startRemap row m) := fun row m => by
    simp only [startRemap]
    split
    · exact .refl m
    · exact scrubs_modEcc ..
  have begun : ∀ row m, Scrubs m (if st == .hbm then startRemap row m else m) := fun row m => by
    split
    · exact remapped ..
    · exact .refl m
  have one : ∀ loc nv m, Scrubs m (candidate st loc nv m).2 ∧ (candidate st loc nv m).1.flash = nv.flash := fun loc nv m => by
    simp only [candidate]
    split
    · exact ⟨begun .., rfl⟩
    · exact ⟨(begun loc m).trans (scrubs_modEcc _ (fun e => { e with tickCandidates := bump 16 1 e.tickCandidates })), rfl⟩
  induction locs generalizing nv m with
  | nil => exact ⟨.refl m, rfl⟩
  | cons loc locs ih =>
    obtain ⟨first, flash⟩ := one loc nv m
    obtain ⟨then', flash'⟩ := ih (candidate st loc nv m).1 (candidate st loc nv m).2
    exact ⟨first.trans then', flash'.trans flash⟩

/-- R208: after a pass, what was corrected twice and what could not be corrected are candidates. -/
theorem scrubs_candidates_twice {st : Store} (again fresh : List Nat) (nv : Nv) {m m' : Mach} (pass : Scrubs m m') :
    Scrubs m (candidates st fresh (candidates st again nv m').1 (candidates st again nv m').2).2 ∧
      (candidates st fresh (candidates st again nv m').1 (candidates st again nv m').2).1.flash = nv.flash := by
  obtain ⟨first, flash⟩ := scrubs_candidates st again nv m'
  obtain ⟨second, flash'⟩ := scrubs_candidates st fresh (candidates st again nv m').1 (candidates st again nv m').2
  exact ⟨pass.trans (first.trans second), flash'.trans flash⟩

theorem scrubs_sramScrub (flips : List (Nat × Nat)) (nv : Nv) (m : Mach) :
    Scrubs m (sramScrub flips nv m).2 ∧ (sramScrub flips nv m).1.flash = nv.flash := by
  have emptied : ∀ m, Scrubs m (modMem (fun x => { x with sliceErr := [], sliceRepair := [] }) m) := fun m => ⟨rfl, rfl, rfl⟩
  refine scrubs_candidates_twice _ _ nv ?_
  refine .trans ?_ (scrubs_forEach _ _ (fun _ m => scrubs_latchErr _ m) _)
  refine .trans ?_ (emptied _)
  refine .trans ?_ (scrubs_markBytes ..)
  refine .trans ?_ (scrubs_forEach _ _ (fun a m => scrubs_closeMerges a (a + 1) m) _)
  refine .trans ?_ (scrubs_forEach _ _ (fun l m => scrubs_captureCorr 0 (64 * l) m) _)
  exact (scrubs_flipBytes ..).trans ((scrubs_keepCorrected ..).trans (scrubs_modEcc ..))

theorem scrubs_rewriteHit (h : HbmHit) (poison : Bool) (m : Mach) : Scrubs m (rewriteHit h poison m) := by
  have framed : ∀ (f : MemSt → List Nat), Scrubs m (modMem (fun x => { x with framePoison := f x }) m) := fun f => ⟨rfl, rfl, rfl⟩
  simp only [rewriteHit]
  split
  · split
    · exact scrubs_markUnit ..
    · exact ⟨rfl, rfl, rfl⟩
  · exact onlyIf_changes (.refl m) (framed _)

theorem scrubs_hbmScrub (hits : List HbmHit) (nv : Nv) (m : Mach) :
    Scrubs m (hbmScrub hits nv m).2 ∧ (hbmScrub hits nv m).1.flash = nv.flash := by
  refine scrubs_candidates_twice _ _ nv ?_
  refine .trans ?_ (scrubs_forEach _ _ (fun _ m => (scrubs_rewriteHit _ _ m).trans (scrubs_latchErr ..)) _)
  refine .trans ?_ (scrubs_forEach _ _ (fun _ m => (scrubs_captureCorr _ _ m).trans (scrubs_rewriteHit ..)) _)
  refine .trans ?_ (scrubs_modEcc ..)
  refine .trans ?_ (scrubs_forEach _ _ (fun _ m => scrubs_countStack _ _ m) _)
  exact (scrubs_keepCorrected ..).trans (scrubs_countHbm ..)

/-- What a scrub pass leaves as it was. -/
theorem Scrubs.apart {f : Nv → Mach → Nv × Mach} {s t : State} (pass : ∀ nv m, Scrubs m (f nv m).2 ∧ (f nv m).1.flash = nv.flash)
    (moved : onNv f s = .next t) : t.m.fns = s.m.fns ∧ t.m.reqs = s.m.reqs ∧ t.m.ctxs = s.m.ctxs ∧ t.m.ten = s.m.ten ∧
      SameCore s.m t.m ∧ SameNet s.m t.m ∧ t.m.pwr = s.m.pwr ∧ t.nv.flash = s.nv.flash ∧ t.m.mem.sliceMem = s.m.mem.sliceMem ∧
      t.m.mem.dev = s.m.mem.dev := by
  obtain ⟨⟨rest, slices, dev⟩, flash⟩ :=
    onNv_changes (R := fun s t => Scrubs s.m t.m ∧ t.nv.flash = s.nv.flash) ⟨.refl _, rfl⟩ (pass s.nv s.m) moved
  refine ⟨?_, ?_, ?_, ?_, ?_, ?_, ?_, flash, slices, dev⟩
  case refine_5 | refine_6 =>
    rw [rest]
    exact ⟨rfl, rfl, rfl, rfl⟩
  all_goals rw [rest]

/-! ### The flash tier's blocks (R188 to R191) -/

/-- From `s` to `t` the flash tier has worked on its blocks. -/
def FlashWorks (s t : State) : Prop := t.nv = { s.nv with flash := t.nv.flash } ∧ t.m = { s.m with flashTick := t.m.flashTick }

theorem FlashWorks.refl (s : State) : FlashWorks s s := ⟨rfl, rfl⟩

/-- A pair of what no reset clears and a machine, as flash work leaves them. -/
def BlocksWork (nv : Nv) (m : Mach) (r : Nv × Mach) : Prop := ∃ f b, r = ({ nv with flash := f }, { m with flashTick := b })

theorem blocksWork_settles (f : FlashSt) (b : FlashTick) (nv : Nv) (m : Mach) :
    BlocksWork nv m (flashSettles ({ nv with flash := f }, { m with flashTick := b })) := by
  obtain ⟨st, c, -, warn⟩ := flashWorse_reads (dest := .warn) (nv := { nv with flash := f }) nofun 0xFF { m with flashTick := b }
  rw [flashSettles, warn]
  obtain ⟨st', c', -, worse⟩ := flashWorse_reads (dest := .readOnly) (nv := inState st { nv with flash := f }) nofun 0xFF
    (noteChange c { m with flashTick := b })
  rw [worse]
  exact ⟨_, _, rfl⟩

theorem blocksWork_retire (bs : List Nat) (f : FlashSt) (nv : Nv) (m : Mach) : BlocksWork nv m (retire bs { nv with flash := f } m) :=
  blocksWork_settles ..

theorem blocksWork_eraseBlock (nv : Nv) (m : Mach) : BlocksWork nv m (eraseBlock nv m) := by
  simp only [eraseBlock]
  split
  · exact blocksWork_settles _ m.flashTick nv m
  · exact blocksWork_settles ..

theorem blocksWork_collect (erase : BlockErase) (nv : Nv) (m : Mach) : BlocksWork nv m
    (if nv.flash.retiredBlocks.contains erase.block then (nv, m)
    else if erase.fails then retire [erase.block] nv m
    else eraseBlock nv m) := by
  split
  · exact ⟨nv.flash, m.flashTick, rfl⟩
  · split
    · exact blocksWork_retire _ nv.flash nv m
    · exact blocksWork_eraseBlock ..

/-- What work on blocks leaves as it was. -/
theorem BlocksWork.apart {f : Nv → Mach → Nv × Mach} {s t : State} (work : BlocksWork s.nv s.m (f s.nv s.m))
    (moved : onNv f s = .next t) : FlashWorks s t := by
  obtain ⟨x, b, h⟩ := work
  refine onNv_changes (.refl s) ?_ moved
  rw [h]
  exact ⟨rfl, rfl⟩

section
variable {s t : State}

theorem flashFreeBlockCollect_apart {erase : BlockErase} (moved : execFlashFreeBlockCollect erase s = .next t) : FlashWorks s t := by
  unfold execFlashFreeBlockCollect at moved
  exact BlocksWork.apart (blocksWork_collect ..) moved

theorem flashProgramFail_apart {block : Nat} (moved : execFlashProgramFail block s = .next t) : FlashWorks s t := by
  unfold execFlashProgramFail at moved
  exact BlocksWork.apart (blocksWork_retire [block] (relocate s.nv.flash) s.nv s.m) moved

/-- A change of the flash tier alone. -/
theorem onFlash_apart {f : FlashSt → FlashSt} (moved : onFlash f s = .next t) : FlashWorks s t :=
  BlocksWork.apart ⟨f s.nv.flash, s.m.flashTick, rfl⟩ moved

end

/-! ### The statement -/

/-- Settles O60: each listed command keeps within what its unit may change. -/
theorem unitsKeepApart : Obligations.UnitsKeepApart := by
  intro c s t moved
  cases c with
  | telemetrySample x =>
    have run : execTelemetrySample x s = .next t := moved
    unfold execTelemetrySample at run
    refine PowerWorks.apart (onM_changes ?_ run)
    split
    · exact .refl _
    · exact powerWorks_takeSample ..
  | clampEnd => exact PowerWorks.apart (onUp_changes (.refl _) (powerWorks_latchClampEnds _) moved)
  | stepWalkIndex => exact PowerWorks.apart (onUp_changes (.refl _) (powerWorks_walkIndex _) moved)
  | podUngateDone pod => exact PowerWorks.apart (onUp_changes (.refl _) (powerWorks_modPwr ..) moved)
  | thermalShutdown => exact thermalShutdown_apart moved
  | linkDetectStart p => exact PortRuns.apart (onUp_changes (.refl _) (portRuns_detectStart _) moved)
  | linkPartnerDetect p => exact PortRuns.apart (onUp_changes (.refl _) (portRuns_modPort ..) moved)
  | linkIdentityReceive p b => exact PortRuns.apart (onUp_changes (.refl _) (portRuns_identityReceive ..) moved)
  | linkIdentifyTimeout p => exact PortRuns.apart (onUp_changes (.refl _) (portRuns_identifyTimeout _) moved)
  | linkRetryTimer p => exact PortRuns.apart (onUp_changes (.refl _) (portRuns_retryTimer _) moved)
  | linkLaneFail p lane => exact PortRuns.apart (onUp_changes (.refl _) (portRuns_laneFails ..) moved)
  | linkLaneSubstitute p logical spare => exact PortRuns.apart (onUp_changes (.refl _) (portRuns_laneSubstitute ..) moved)
  | linkWidthRelockDone p => exact PortRuns.apart (onUp_changes (.refl _) (portRuns_relockDone _) moved)
  | linkLockLoss p => exact PortRuns.apart (execLinkLockLoss_changes moved)
  | rootTsyncLaunch => exact SyncWorks.apart (onUp_changes (.refl _) (syncWorks_launchTsync _) moved)
  | tsyncReceive p x => exact SyncWorks.apart (onUp_changes (.refl _) (syncWorks_receiveTsync ..) moved)
  | treqReceive p x => exact SyncWorks.apart (onUp_changes (.refl _) (syncWorks_receiveTreq ..) moved)
  | flashFreeBlockCollect erase => exact flashFreeBlockCollect_apart moved
  | flashProgramFail b => exact flashProgramFail_apart moved
  | flashReadDisturbRelocate b =>
    have run : execFlashReadDisturbRelocate b s = .next t := moved
    unfold execFlashReadDisturbRelocate at run
    exact onFlash_apart run
  | flashRetentionScan b limit =>
    have run : execFlashRetentionScan b limit s = .next t := moved
    unfold execFlashRetentionScan at run
    exact onFlash_apart run
  | flashChannelRetrain channel => exact onUp_changes (R := fun a b => b = { a with chan := b.chan }) rfl rfl moved
  | vectorOperation p op rd ra rb rc => exact PeaComputes.apart (peaComputes_vectorOp ..) moved
  | matrixInstruction p o => exact PeaComputes.apart (peaComputes_matrixOp ..) moved
  | quant p vsrc elem side spill => exact PeaComputes.apart (peaComputes_quantOp ..) moved
  | functionLevelReset c => exact HostWorks.apart (onM_changes (hostWorks_flr ..) moved)
  | vfEnableClear => exact HostWorks.apart (onM_changes (hostWorks_clearVfEnable _) moved)
  | cxlLinkTrain speed width flit cache vf num => exact HostWorks.apart (onM_changes (hostWorks_trainLink ..) moved)
  | resetInputRelease => exact BootWorks.apart (f := releaseReset) ((bootWorks_modLife ..).trans (bootWorks_tryPowerUp ..)) moved
  | resetHoldEnd => exact BootWorks.apart (f := holdEnds) ((bootWorks_modLife ..).trans (bootWorks_tryPowerUp ..)) moved
  | warmResetResume => exact BootWorks.apart (f := fun _ => warmResume) (bootWorks_warmResume _) moved
  | powerupRailsDone => exact BootWorks.apart (f := fun _ => railsDone) (bootWorks_railsDone _) moved
  | turnipRelease => exact BootWorks.apart (f := fun _ => turnipRelease) (bootWorks_turnipRelease _) moved
  | presenceMake => exact BootWorks.apart (f := fun _ => presenceMake) (bootWorks_presenceMake _) moved
  | hotswapIsolate => exact BootWorks.apart (f := fun _ => hotswapIsolate) (bootWorks_hotswapIsolate _) moved
  | hotswapBleedDone => exact BootWorks.apart (f := fun _ => hotswapBleedDone) (bootWorks_hotswapBleedDone _) moved
  | hotswapChargeStart => exact BootWorks.apart (f := chargeStart) (bootWorks_chargeStart ..) moved
  | hotswapBulkCharged => exact BootWorks.apart (f := fun _ => bulkCharged) (bootWorks_bulkCharged _) moved
  | ftlMountDone ok => exact BootWorks.apart (f := fun _ => ftlMountDone ok) (bootWorks_ftlMountDone ..) moved
  | memoryInitDone test =>
    cases moved
    exact memoryInitDone_apart ..
  | align p g n =>
    have run : execAlign p g n s = .next t := moved
    unfold execAlign at run
    refine PeasWork.apart (onUp_changes (.refl _) ?_ run)
    split
    · exact peasWork_arrive ..
    · exact .refl _
  | alignFail t g => exact PeasWork.apart (onUp_changes (.refl _) (peasWork_failRound ..) moved)
  | workUnitComplete p => exact PeasWork.apart (onUp_changes (.refl _) (peasWork_completeUnit ..) moved)
  | peaLoad p a n dst => exact PeasWork.apart (onUp_changes (.refl _) (peasWork_peaLoad ..) moved)
  | turnipWatchdogExpiry core => exact CoreWorks.apart (onUp_changes (.refl _) (coreWorks_haltCore ..) moved)
  | turnipParityReplay core ok => exact CoreWorks.apart (onUp_changes (.refl _) (coreWorks_turnipReplay ..) moved)
  | sramScrubPass bytes bits => exact Scrubs.apart (scrubs_sramScrub _) moved
  | hbmScrubPass units errs written => exact Scrubs.apart (scrubs_hbmScrub _) moved
  | _ => trivial

end Sys2Proof.Machine

/-! ## Requests at their source

What an issue puts among the outstanding requests (R340), what a completion leaves there, and what each happening of a request at
its source comes to (R350 to R357). -/

namespace Sys2Proof.Machine

/-! ### What a completion does for whoever waits (R345, R352) -/

@[simp] theorem piecesWrite_fab (ps : List (Nat × Nat)) (bs : List Byte) (m : Mach) : (piecesWrite ps bs m).fab = m.fab := by
  induction ps generalizing bs m with
  | nil => rfl
  | cons piece ps ih => exact ih ..

theorem slWrite_fab {t a : Nat} {bs : List Byte} {m m' : Mach} (written : slWrite t a bs m = .ok m') : m'.fab = m.fab := by
  simp only [slWrite] at written
  split at written
  · cases written
  · cases written
    exact piecesWrite_fab ..

@[simp] theorem slPut_fab (t a : Nat) (bs : List Byte) (m : Mach) : (slPut t a bs m).fab = m.fab := by
  simp only [slPut]
  split
  · rfl
  · exact slWrite_fab ‹_›

@[simp] theorem slPoison_fab (t a n : Nat) (m : Mach) : (slPoison t a n m).fab = m.fab := by
  simp only [slPoison]
  split
  · rfl
  · refine forEach_keeps (·.fab) _ _ ?_ m
    intro p x
    rfl

/-- R345: what a completion brings goes to memory, to a pea or to the latches, and not back to the fabric. -/
@[simp] theorem deliver_fab (o : Outreq) (st : Status) (detail : Nat) (data : List Byte) (m : Mach) :
    (deliver o st detail data m).fab = m.fab := by
  simp only [deliver]
  split
  case h_1 => rfl
  case h_2 p a own =>
    have stored : ∀ (b c : Prop) [Decidable b] [Decidable c] (f : Pea → Pea) (t a n : Nat) (x : Mach), x.fab = m.fab →
        (if b then modPea p f x else if c then slPoison t a n x else x).fab = m.fab := by
      intro b c _ _ f t a n x kept
      split
      · exact kept
      · split
        · rw [slPoison_fab, kept]
        · exact kept
    split
    · rfl
    · generalize written : (if decide (o.req.type = tLoad) && !(decide (o.req.type = tLoad) && (peaOf m p).mvPhase != 0) && st == .ok
        then slWrite o.req.ten a (data.take o.req.len) m else Except.ok m) = landed
      rw [modPea_fab]
      cases landed with
      | error n => exact stored _ _ _ _ _ _ m rfl
      | ok x =>
        have kept : x.fab = m.fab := by
          split at written
          · exact slWrite_fab written
          · cases written
            rfl
        exact stored _ _ _ _ _ _ x kept
  case h_3 => exact slPut_fab ..
  case h_4 =>
    split
    · rfl
    · rfl
  case h_5 => rfl

/-- R463: a payload recorded changes nothing but the recording. -/
theorem capturePayload_cap (digest payload : List Byte) (m : Mach) : ∃ c, (capturePayload digest payload m).2 = { m with cap := c } := by
  unfold capturePayload
  generalize 2 ^ 64 - 1 = none
  dsimp only
  split
  · exact ⟨_, rfl⟩
  · exact ⟨_, rfl⟩

@[simp] theorem capturePayload_fab (digest payload : List Byte) (m : Mach) : (capturePayload digest payload m).2.fab = m.fab := by
  obtain ⟨c, h⟩ := capturePayload_cap digest payload m
  rw [h]

@[simp] theorem capture_fab (kind cls source : Nat) (body : List Byte) (m : Mach) : (capture kind cls source body m).fab = m.fab :=
  captureAt_fab ..

/-- R340: a completion gives no identifier away. -/
theorem completeOut_nextId (o : Outreq) (st : Status) (detail : Nat) (data : List Byte) (m : Mach) :
    (completeOut o st detail data m).fab.nextId = m.fab.nextId := by
  simp only [completeOut, deliver_fab, capture_fab, capturePayload_fab, modTen_fab, modCtx_fab, modFab_fab]
  split <;> rfl

/-! ### An issue (R340, R341, R354) -/

/-- R341, R354: the machine in which a request has its sequence number and its tag. -/
def numbered (r : FabReq) (m : Mach) : Mach :=
  let ftid := (tenOf m r.ten).ftid
  let m := (takeSsn r.node ftid r.cls m).2
  let tag := ((m.fab.tags.find? (·.1 == (r.node, ftid))).map (·.2)).getD 0
  if r.type = tAtomic then
    modFab (fun f => { f with tags := ((r.node, ftid), wrap 16 (tag + 1)) :: f.tags.filter (·.1 != (r.node, ftid)) }) m
  else m

/-- R340: a request as it enters the outstanding ones. -/
def newReq (r : FabReq) (own : Waiter) (m : Mach) : Outreq :=
  let ftid := (tenOf m r.ten).ftid
  let t := takeSsn r.node ftid r.cls m
  let x := numbered r m
  { req := r, own, id := m.fab.nextId, ftid, ssn := t.1
    tag := ((t.2.fab.tags.find? (·.1 == (r.node, ftid))).map (·.2)).getD 0
    order := packetOrder (selfNode x) r.node r.cls ftid r.offset, attempts := x.fab.attempts
    epoch := (alGet r.node x.fab.peerEpochs).getD 0, sinceUs := x.tick.nowUs
    tainted := x.fab.srcStreams.any fun s => s.node == r.node && s.ftid == ftid && s.cls == r.cls && s.failed }

/-- R345, R352: a pea that waits for a request knows it. -/
def tellWaiter (own : Waiter) (id : Nat) (m : Mach) : Mach :=
  match own with
  | .move p _ => modPea p (fun x => { x with pkts := x.pkts ++ [id] }) m
  | .atom p _ => modPea p (fun x => { x with fatoms := x.fatoms + 1 }) m
  | _ => m

/-- R340: a request outstanding, before R28 and R359 are asked. -/
def enqueue (r : FabReq) (own : Waiter) (m : Mach) : Mach :=
  tellWaiter own m.fab.nextId
    (modFab (fun f => { f with nextId := wrap 16 (f.nextId + 1), out := f.out ++ [newReq r own m] }) (numbered r m))

section
variable (r : FabReq) (own : Waiter) (m : Mach)

theorem numbered_fab : ∃ streams tags, (numbered r m).fab = { m.fab with srcStreams := streams, tags } := by
  simp only [numbered, takeSsn]
  split <;> exact ⟨_, _, rfl⟩

theorem enqueue_fab : ∃ streams tags, (enqueue r own m).fab =
    { m.fab with srcStreams := streams, tags, nextId := wrap 16 (m.fab.nextId + 1), out := m.fab.out ++ [newReq r own m] } := by
  have told : ∀ id x, (tellWaiter own id x).fab = x.fab := by
    intro id x
    cases own <;> rfl
  obtain ⟨streams, tags, fab⟩ := numbered_fab r m
  refine ⟨streams, tags, ?_⟩
  rw [enqueue, told, modFab_fab, fab]

/-- R28, R359: a request out of reach or to a lost node is refused as it is issued; any other waits or is counted as held. -/
theorem issueReq_eq : issueReq r own m =
    if (r.node != selfNode (enqueue r own m) && r.type != tMessage && !inReach (enqueue r own m) r.node) = true then
      completeOut (newReq r own m) .outOfReach r.node [] (enqueue r own m)
    else if (enqueue r own m).fab.lostNodes.contains r.node = true then
      completeOut (newReq r own m) .targetLost r.node [] (enqueue r own m)
    else if lineHeld ((enqueue r own m).fab.out.takeWhile (·.id != m.fab.nextId)) (newReq r own m) = true then
      modFab (fun f => { f with lineHold := bump 16 1 f.lineHold }) (enqueue r own m)
    else enqueue r own m := rfl

theorem issueReq_nextId : (issueReq r own m).fab.nextId = wrap 16 (m.fab.nextId + 1) := by
  obtain ⟨streams, tags, fab⟩ := enqueue_fab r own m
  have next : (enqueue r own m).fab.nextId = wrap 16 (m.fab.nextId + 1) := by rw [fab]
  rw [issueReq_eq]
  split
  · rw [completeOut_nextId, next]
  · split
    · rw [completeOut_nextId, next]
    · split <;> exact next

/-- R340: a request that R28 and R359 let through is the last of the outstanding ones. -/
theorem issueReq_out (reached : r.node = selfNode m ∨ r.type = 4 ∨ inReach m r.node = true) (stands : r.node ∉ m.fab.lostNodes) :
    (issueReq r own m).fab.out = m.fab.out ++ [newReq r own m] := by
  obtain ⟨streams, tags, fab⟩ := enqueue_fab r own m
  have out : (enqueue r own m).fab.out = m.fab.out ++ [newReq r own m] := by rw [fab]
  have self : selfNode (enqueue r own m) = selfNode m := by rw [selfNode, selfNode, fab]
  have reach : inReach (enqueue r own m) r.node = inReach m r.node := by rw [inReach, inReach, fab]
  have lost : (enqueue r own m).fab.lostNodes = m.fab.lostNodes := by rw [fab]
  have near : ¬(r.node != selfNode (enqueue r own m) && r.type != tMessage && !inReach (enqueue r own m) r.node) = true := by
    rw [self, reach]
    rcases reached with node | type | within
    · simp [node]
    · simp [type, tMessage]
    · simp [within]
  rw [issueReq_eq, if_neg near, if_neg (by simpa [lost] using stands)]
  split <;> exact out

end

/-! ### Happenings of a request (R350 to R357) -/

section
variable {m : Mach} {o : Outreq} {id : Nat} (fs : FlashState)

theorem receiveCompletion_completes {p : FabPkt} (known : p.srcEpoch = 0) (found : findOut m p.reqId = some o) (sent : 0 < o.sends)
    (from_ : o.req.node = p.src) (ready : statusOf p.aop ≠ .notReady) : receiveCompletion p fs m =
    settleFab fs (completeOut o (statusOf p.aop) (field p.payload 0 4) (p.payload.drop 4) m) := by
  have learnt : learnEpoch p.src p.srcEpoch m = m := by simp [learnEpoch, known]
  have taken : (decide (o.sends = 0) || o.req.node != p.src) = false := by simp [from_]; omega
  have answered : ¬(statusOf p.aop == .notReady) = true := by simpa using ready
  simp only [receiveCompletion, learnt, found, taken, Bool.false_eq_true, if_false, if_neg answered]

section
variable (found : findOut m id = some o)
include found

section
variable (sent : 0 < o.sends) (away : o.req.node ≠ selfNode m) (asks : o.waitUs = none)
  (passed : due m o.sinceUs m.fab.timeoutUs = true)
include sent away asks passed

/-- R350: a request times out on its last attempt or before. -/
theorem timeoutReq_due : timeoutReq id fs m =
    if o.attempts ≤ o.sends then settleFab fs (completeOut o .targetLost o.req.node [] m)
    else sendOut fs id (modOut id (fun o => { o with order := (o.order + 1) % 6 })
      (modFab (fun f => { f with resent := bump 16 1 f.resent }) m)) := by
  have times : (decide (o.sends = 0) || decide (o.req.node = selfNode m) || o.waitUs.isSome || !due m o.sinceUs m.fab.timeoutUs) = false := by
    simp [away, asks, passed]; omega
  simp only [timeoutReq, found, times, Bool.false_eq_true, if_false, resend]

end

theorem notReadyRetry_due {us : Nat} (waits : o.waitUs = some us)
    (passed : due m us (if o.hint = 0 then m.fab.timeoutUs else o.hint) = true) : notReadyRetry id fs m =
    modOut id (fun o => { o with sends := o.sends - 1, waitUs := none })
      (sendOut fs id (modOut id (fun o => { o with order := (o.order + 1) % 6 })
        (modFab (fun f => { f with nrRetry := bump 16 1 f.nrRetry }) m))) := by
  simp only [notReadyRetry, found, waits, Option.any_some, passed, Bool.not_true, Bool.false_eq_true, if_false, resend]

theorem notReadyExpiry_due {us : Nat} (since : o.nrSinceUs = some us) (passed : due m us (m.fab.notReadyMs * 1000) = true) :
    notReadyExpiry id fs m =
      settleFab fs (completeOut o .notReady ((o.hint + m.tick.inForce - 1) / m.tick.inForce) [] m) := by
  simp only [notReadyExpiry, found, since, Option.any_some, passed, Bool.not_true, Bool.false_eq_true, if_false]

end

end

/-! ### Atomics of a pea (R352) -/

section
variable {m : Mach} {p rec : Nat} {r : FabReq} (fs : FlashState)

theorem peaAtomic_room (room : (peaOf m p).fatoms < 32) : peaAtomic fs r p rec m = settleFab fs (issueReq r (.atom p rec) m) := by
  simp only [peaAtomic, if_pos room, issueNow]

theorem peaAtomic_full (full : 32 ≤ (peaOf m p).fatoms) (runs : (peaOf m p).st = .run) :
    peaAtomic fs r p rec m = modPea p (fun a => { a with st := .held, fatomHeld := some (r, rec) }) m := by
  have running : ((peaOf m p).st == .run) = true := by rw [runs]; rfl
  simp only [peaAtomic, if_neg (Nat.not_lt.2 full), running, if_true]

/-- R340: an issue that is no pea's FATOM. -/
theorem issueCmd_plain (plain : r.record = none) (fits : r.type = 3 → atomicFits r.aop r.size r.offset = true) :
    issueCmd r fs m = settleFab fs (issueReq r .none m) := by
  have made : ¬(decide (r.type = tAtomic) && !atomicFits r.aop r.size r.offset) = true := by
    by_cases atomic : r.type = 3
    · simp [fits atomic]
    · simp [tAtomic, atomic]
  simp only [issueCmd, if_neg made, plain, issueNow]

end

/-- R352: a FATOM as a request of its pea. -/
def fatomReq (m : Mach) (p aop size cls : Nat) (h a b : Word64) : FabReq :=
  { ten := peaTen m p, ctx := peaCtx m p, seq := ((peaOf m p).active.map (·.seq)).getD 0, type := tAtomic
    node := h.toNat / 2 ^ 45, offset := h.toNat % 2 ^ 45, cls, aop, size, payload := le size a.toNat ++ le size b.toNat }

/-- R53: a pea that a FATOM takes off the module. -/
def noteFatom (p : Nat) (h : Word64) (m : Mach) : Mach :=
  modPea p (fun x => { x with hadFabric := x.hadFabric || h.toNat / 2 ^ 45 != selfNode m }) m

theorem fatomOp_valid {m : Mach} {p aop size cls rec : Nat} {h a b : Word64} {ps : List (Nat × Nat)} (fs : FlashState)
    (handle : h.toNat < 2 ^ 57) (class_ : cls ≤ 7) (valid : atomicValid aop size = true) (aligned : h.toNat % size = 0)
    (owned : slRange m (peaTen m p) true rec 16 = .ok ps) : fatomOp p aop size cls h a b rec fs m =
    peaAtomic fs (fatomReq m p aop size cls h a b) p rec (noteFatom p h m) := by
  have sound : ¬(decide (2 ^ 57 ≤ h.toNat) || decide (7 < cls) || !atomicFits aop size h.toNat) = true := by
    simp only [decide_eq_false (Nat.not_le.2 handle), decide_eq_false (Nat.not_lt.2 class_), atomicFits, valid, aligned,
      beq_self_eq_true, Bool.and_self, Bool.not_true, Bool.or_self, Bool.false_eq_true, not_false_eq_true]
  have active : (peaOf (noteFatom p h m) p).active = (peaOf m p).active := peaOf_keeps (·.active) p _ m p fun _ => rfl
  have ten : peaTen (noteFatom p h m) p = peaTen m p := by rw [peaTen, peaTen, active]
  have ctx : peaCtx (noteFatom p h m) p = peaCtx m p := by rw [peaCtx, peaCtx, active]
  simp only [noteFatom] at ten ctx
  simp only [fatomOp, if_neg sound, owned, fatomReq, noteFatom, ten, ctx]

/-- R71: a FATOM of a running pea. -/
theorem fatom_ofRun {s : State} {p : Nat} (up : isUp s.m = true) (run : (peaOf s.m p).st = .run) (aop size cls : Nat) (h a b : Word64)
    (rec : Nat) : exec (.fatom p aop size cls h a b rec) s =
    .next (withM s (settleAll s.nv.flash.state (fatomOp p aop size cls h a b rec s.nv.flash.state s.m))) := by
  have runs : peaRuns s.m p = true := by simp [peaRuns, run, up]
  refine (onFabric_ofUp up fun fs m => if peaRuns m p then fatomOp p aop size cls h a b rec fs m else m).trans ?_
  rw [if_pos runs]

/-! ### The statement -/

/-- Settles O31: an issue by what it enqueues, and each happening of a request by what it comes to. -/
theorem fabricSourceHappenings : Obligations.FabricSourceHappenings := by
  refine ⟨?issue, ?enters, ?fatom, ?completion, ?lost, ?again, ?hold, ?retry, ?expiry, ?age⟩
  case issue =>
    rintro s r _ up rfl plain fits
    rw [← issueCmd_plain s.nv.flash.state plain fits]
    exact onFabric_ofUp up (issueCmd r)
  case enters =>
    intro s r w
    exact ⟨newReq r w s.m, issueReq_nextId r w s.m, rfl, rfl, rfl, issueReq_out r w s.m⟩
  case fatom =>
    rintro s p aop size cls h a b rec ps _ _ up rfl run handle class_ valid aligned owned rfl _ rfl
    have told : (peaOf (noteFatom p h s.m) p).fatoms = (peaOf s.m p).fatoms := peaOf_keeps (·.fatoms) p _ s.m p fun _ => rfl
    have still : (peaOf (noteFatom p h s.m) p).st = (peaOf s.m p).st := peaOf_keeps (·.st) p _ s.m p fun _ => rfl
    have op := fatomOp_valid (a := a) (b := b) s.nv.flash.state handle class_ valid aligned owned
    refine ⟨fun room => ?_, fun full => ?_⟩
    · rw [fatom_ofRun up run, op, peaAtomic_room _ (told.symm ▸ room)]
      rfl
    · rw [fatom_ofRun up run, op, peaAtomic_full _ (told.symm ▸ full) (still.trans run)]
      rfl
  case completion =>
    rintro s p o _ up rfl known found sent from_ ready
    rw [← receiveCompletion_completes s.nv.flash.state known found sent from_ ready]
    exact onFabric_ofUp up (receiveCompletion p)
  case lost =>
    rintro s id o _ up rfl found sent away asks passed last
    refine (onFabric_ofUp up (timeoutReq id)).trans ?_
    rw [timeoutReq_due _ found sent away asks passed, if_pos last]
  case again =>
    rintro s id o _ up rfl found sent away asks passed left
    refine (onFabric_ofUp up (timeoutReq id)).trans ?_
    rw [timeoutReq_due _ found sent away asks passed, if_neg (Nat.not_le.2 left)]
  case hold =>
    intro s id up
    exact onUp_ofUp up (holdReceive id)
  case retry =>
    rintro s id o us _ up rfl found waits passed
    rw [← notReadyRetry_due s.nv.flash.state found waits passed]
    exact onFabric_ofUp up (notReadyRetry id)
  case expiry =>
    rintro s id o us _ up rfl found since passed
    rw [← notReadyExpiry_due s.nv.flash.state found since passed]
    exact onFabric_ofUp up (notReadyExpiry id)
  case age =>
    intro s src tag up
    exact onUp_ofUp up (ageReplay src tag)

end Sys2Proof.Machine

/-! ## The happenings of the expert exchange

What each command of the exchange comes to, from the conditions that the state and the operands meet. -/

namespace Sys2Proof.Machine

/-! ### Reads of slices leave the fabric -/

@[simp] theorem arrayRead_fab (line : Nat) (m : Mach) : (arrayRead line m).fab = m.fab := by
  simp only [arrayRead]
  split
  · exact captureAt_fab ..
  · rfl

@[simp] theorem noteRead_fab (t a n : Nat) (merges : Bool) (m : Mach) : (noteRead t a n merges m).fab = m.fab := by
  have merged : ∀ slice line m, (mergeLine slice line m).fab = m.fab := by
    intro slice line m
    simp only [mergeLine]
    split
    · rfl
    · exact arrayRead_fab ..
  simp only [noteRead]
  split
  · rfl
  · refine forEach_keeps (·.fab) _ _ (fun line m => ?_) m
    split
    · exact merged ..
    · exact arrayRead_fab ..

theorem slTake_ok {t a n : Nat} {m : Mach} {bs : List Byte} (read : slRead m t a n = .ok bs) :
    slTake t a n m = (.ok bs, noteRead t a n true m) := by
  simp only [slTake, read]

/-! ### Starting a round (R294) -/

/-- R294: the only step of a context whose router phase is done starts the layer's round. -/
theorem exchangeStart_due {m : Mach} {c layer ph : Nat} {q : Step} {x l : Layout} (fs : FlashState) (listed : q ∈ m.stp.steps)
    (only : ∀ y ∈ m.stp.steps, y.ctx = c → y = q) (ctx : q.ctx = c) (area : q.areaDone = true) (uncut : q.cutDone = false)
    (inside : ph < q.blk.phases) (router : routerDone m q ph = true) (expert : (phaseAt m q ph).bind (expertOf m c) = some x)
    (named : x.blk.layer = layer) (found : findLayout m c layer = some l) (closed : l.isOpen = false) :
    exchangeStart c layer fs m = startRound fs c layer q.seq false m := by
  have due : exchangeDue m q layer = true := by
    simp only [exchangeDue, area, uncut, Bool.not_false, Bool.and_self, Bool.true_and, List.any_eq_true]
    refine ⟨ph, List.mem_range.2 inside, ?_⟩
    rw [ctx, expert]
    simp [router, named]
  have step : (m.stp.steps.find? fun s => s.ctx == c && exchangeDue m s layer) = some q := by
    cases picked : m.stp.steps.find? fun s => s.ctx == c && exchangeDue m s layer with
    | none => exact absurd (List.find?_eq_none.1 picked q listed) (by simp [ctx, due])
    | some y =>
      have own := List.find?_some picked
      simp only [Bool.and_eq_true, beq_iff_eq] at own
      rw [only y (List.mem_of_find?_eq_some picked) own.1]
  simp only [exchangeStart, step, found, Option.map_some, Option.getD_some, closed, Bool.false_eq_true, if_false]

/-! ### Headers and rows at a queue (R299) -/

/-- R299: the control area of a buffer with one header more. -/
def headerPut (t q b : Nat) (k : Queue) (l : Layout) (h : ExpHdr) (m : Mach) : Mach :=
  slPut t (ctrlAt k l.blk b) (le 4 ((bufOf k b).hdrs.length + 1)) (slPut t (ctrlAt k l.blk b + 4) (le 4 (bufTotal (bufOf k b) + h.count))
    (slPut t (ctrlAt k l.blk b + 16 + 16 * h.index) (hdrBytes h) (modBuf t q b (fun x => { x with hdrs := x.hdrs ++ [(h.index, h)] }) m)))

section
variable {m : Mach} {t q : Nat} {k : Queue} {l : Layout} (queue : findQueue m t q = some k) (layout : queueLayout m k = some l)

section
variable {h : ExpHdr} (type : h.type = 1) (id : h.layoutId = k.blk.layoutId) (round : h.round = (bufOf k (h.round % 2)).round)
  (source : h.index < l.blk.sources.length) (sound : (bufOf k (h.round % 2)).faulted = false)
  (first : ((bufOf k (h.round % 2)).hdrs.any fun y => y.1 == h.index) = false) (plain : h.fault = false)
include queue layout type id round source sound first plain

theorem acceptHdr_awaited : acceptHdr t q h m =
    if (bufOf k (h.round % 2)).hdrs.length + 1 = l.blk.sources.length then
      (completeRound t q (h.round % 2) (headerPut t q (h.round % 2) k l h m), true)
    else (headerPut t q (h.round % 2) k l h m, false) := by
  have awaited : (decide (h.type ≠ 1) || decide (h.layoutId ≠ k.blk.layoutId) || decide (h.round ≠ (bufOf k (h.round % 2)).round) ||
      decide (l.blk.sources.length ≤ h.index) || (bufOf k (h.round % 2)).faulted ||
      (bufOf k (h.round % 2)).hdrs.any (·.1 == h.index)) = false := by
    simp only [Bool.or_eq_false_iff, decide_eq_false_iff_not, not_not, Nat.not_le]
    exact ⟨⟨⟨⟨⟨type, id⟩, round⟩, source⟩, sound⟩, first⟩
  simp only [acceptHdr, queue, layout, awaited, plain, onlyIf, Bool.false_eq_true, if_false]
  rfl

/-- R299: a header that leaves others to come. -/
theorem deliverHdr_waits (fs : FlashState) (more : (bufOf k (h.round % 2)).hdrs.length + 1 ≠ l.blk.sources.length) :
    deliverHdr fs t q h m = headerPut t q (h.round % 2) k l h m := by
  simp only [deliverHdr, acceptHdr_awaited queue layout type id round source sound first plain, if_neg more, Bool.false_eq_true, if_false]

/-- R299: the last header completes the round. -/
theorem deliverHdr_completes (fs : FlashState) (last : (bufOf k (h.round % 2)).hdrs.length + 1 = l.blk.sources.length) :
    deliverHdr fs t q h m =
      settleQueue fs t q (h.round % 2) (completeRound t q (h.round % 2) (headerPut t q (h.round % 2) k l h m)) := by
  simp only [deliverHdr, acceptHdr_awaited queue layout type id round source sound first plain, if_pos last, if_true]

end

/-- R299: a row of the round in progress, put where no merge meets poison. -/
theorem acceptRow_sound {g : RowTag} {pos : Nat} (row : List Byte) (round : g.round = (bufOf k (g.round % 2)).round)
    (sound : (bufOf k (g.round % 2)).faulted = false) (source : g.source < l.blk.sources.length) (inside : pos < l.blk.srcCap)
    (tag : dataBad m t k (tagOff l.blk (g.round % 2) g.source pos) 16 = false)
    (data : dataBad m t k (rowOff l.blk (g.round % 2) g.source pos) (rowBytes l.blk) = false)
    (queue : findQueue m t q = some k) (layout : queueLayout m k = some l) : acceptRow t q k.blk.layoutId pos g row m =
      putData t k (rowOff l.blk (g.round % 2) g.source pos) (padTo (rowBytes l.blk) row)
        (putData t k (tagOff l.blk (g.round % 2) g.source pos) (tagBytes { g with status := 0 })
          (modBuf t q (g.round % 2) (fun x => { x with rowsIn := true }) m)) := by
  have taken : (decide (k.blk.layoutId ≠ k.blk.layoutId) || decide (g.round ≠ (bufOf k (g.round % 2)).round) ||
      (bufOf k (g.round % 2)).faulted || decide (l.blk.sources.length ≤ g.source) || decide (l.blk.srcCap ≤ pos)) = false := by
    simp only [Bool.or_eq_false_iff, decide_eq_false_iff_not, not_not, Nat.not_le]
    exact ⟨⟨⟨⟨trivial, round⟩, sound⟩, source⟩, inside⟩
  simp only [acceptRow, queue, layout, taken, tag, data, onlyIf, Bool.or_self, Bool.false_eq_true, if_false]

end

/-- R299: any other header is rejected and counted. -/
theorem deliverHdr_rejected {m : Mach} {t q : Nat} {h : ExpHdr} (fs : FlashState) (odd : findQueue m t q = none ∨ h.type ≠ 1) :
    deliverHdr fs t q h m = badHdr m := by
  have rejected : acceptHdr t q h m = (badHdr m, false) := by
    rcases odd with none | type
    · simp only [acceptHdr, none]
    · simp only [acceptHdr]
      split
      · rfl
      · split
        · rfl
        · simp [type]
  simp only [deliverHdr, rejected, Bool.false_eq_true, if_false]

/-- R303: a round served whole sends its return headers. -/
theorem queueReturn_served {m : Mach} {t q : Nat} {k : Queue} (fs : FlashState) (queue : findQueue m t q = some k)
    (complete : (bufOf k (k.expected % 2)).complete = true) (acted : (bufOf k (k.expected % 2)).acted = true)
    (cut : (bufOf k (k.expected % 2)).todo = []) (gone : queueUnitsGone m t q (k.expected % 2) = true) :
    queueReturn t q fs m = returnHeaders fs t q m := by
  have served : (((bufOf k (k.expected % 2)).faulted || ((bufOf k (k.expected % 2)).complete && ((bufOf k (k.expected % 2)).acted ||
      ((bufOf k (k.expected % 2)).earlyCut && decide (roundUnits k (bufOf k (k.expected % 2)) ≤ 1))))) &&
      (bufOf k (k.expected % 2)).todo.isEmpty && queueUnitsGone m t q (k.expected % 2)) = true := by
    simp [complete, acted, cut, gone]
  simp only [queueReturn, queue, served, if_true]

/-! ### Answers and return headers at the source (R297, R304, R305) -/

section
variable {m : Mach} {c layer : Nat} {l : Layout} (found : findLayout m c layer = some l)
include found

theorem gatherReceive_stale {g : RowTag} (ans : List Byte) (late : l.isOpen = false ∨ g.round ≠ l.openRound) :
    gatherReceive c layer g ans m = modStp (fun x => { x with stale := bump 16 1 x.stale }) m := by
  have stale : (!l.isOpen || decide (g.round ≠ l.openRound)) = true := by rcases late with h | h <;> simp [h]
  simp only [gatherReceive, found, stale, if_true]

/-- R304: an answer whose tag the gather area awaits. -/
theorem gatherReceive_lands {g : RowTag} {ten : Nat} {bs : List Byte} (ans : List Byte) (own : ten = (ctxOf m c).ten)
    (open_ : l.isOpen = true) (round : g.round = l.openRound) (gen : (slotOf m c g.slot).gen = g.gen) (row : g.row < l.rows)
    (rank : g.rank < l.blk.topk) (read : slRead m ten (gatherTag l g.row g.rank) 16 = .ok bs) (status : (readTag bs).status = 0)
    (slot : (readTag bs).slot = g.slot) (tagGen : (readTag bs).gen = g.gen) (expert : (readTag bs).expert = g.expert) :
    gatherReceive c layer g ans m = modStp (fun x => { x with answers := bump 32 1 x.answers })
      (slPut ten (gatherTag l g.row g.rank + 7) [1] (slPut ten (gatherAnswer l g.row g.rank) (padTo (ansBytes l.blk) ans)
        (noteRead ten (gatherTag l g.row g.rank) 16 true m))) := by
  subst own
  have current : (!l.isOpen || decide (g.round ≠ l.openRound)) = false := by simp [open_, round]
  have inside : (decide (l.rows ≤ g.row) || decide (l.blk.topk ≤ g.rank)) = false := by simp [row, rank]
  have matched : ((readTag bs).status != 0 || (readTag bs).slot != g.slot || (readTag bs).gen != g.gen ||
      (readTag bs).expert != g.expert) = false := by simp [status, slot, tagGen, expert]
  simp only [gatherReceive, found, current, gen, inside, slTake_ok read, matched, ne_eq, not_true_eq_false, Bool.false_eq_true, if_false]

/-- R297, R305: a return header noted lets the rows held back for its expert go. -/
theorem gatherReturn_closed {h : ExpHdr} (fs : FlashState) (type : h.type = 2) (id : h.layoutId = l.blk.layoutId)
    (inside : h.index < l.blk.experts.length) (first : alGet h.index l.lastReturn = none) (closed : l.isOpen = false) :
    gatherReturn fs c layer h m =
      sendWaiting fs c layer (modLayout c layer (fun l => { l with lastReturn := alSet h.index h.round l.lastReturn }) m) := by
  have known : (decide (h.type ≠ 2) || decide (h.layoutId ≠ l.blk.layoutId) || decide (l.blk.experts.length ≤ h.index)) = false := by
    simp [type, id, inside]
  simp only [gatherReturn, noteReturn, found, known, first, closed, Bool.not_false, Bool.true_or, Bool.false_eq_true, if_false, if_true,
    Option.map_none, Option.getD_none]

theorem expertDeadline_due (open_ : l.isOpen = true) (cut : l.passCut = true)
    (passed : l.startTick + (if l.blk.hdrWait = 0 then 8 else l.blk.hdrWait) ≤ m.tick.count) :
    expertDeadline c layer m = faultRounds c l (openRounds m c l false) 0 .poisoned 4 m := by
  have due : (!l.isOpen || !l.passCut || decide (m.tick.count < l.startTick + (if l.blk.hdrWait = 0 then 8 else l.blk.hdrWait))) = false := by
    simp only [open_, cut, Bool.not_true, Bool.or_self, Bool.false_or, decide_eq_false_iff_not]
    omega
  simp only [expertDeadline, found, due, Bool.false_eq_true, if_false]

end

/-! ### RETURN (R303) -/

section
variable {m : Mach} {p t q ta aa : Nat} {k : Queue} {l : Layout} {bs ans : List Byte}

/-- R303: the answer to a row of this module goes to its own gather area. -/
theorem returnOp_here (fs : FlashState) (runs : peaRuns m p = true) (own : peaTen m p = t) (queue : findQueue m t q = some k)
    (layout : queueLayout m k = some l) (slice : k.blk.dataSlice = true) (tag : slRead m t ta 16 = .ok bs)
    (answer : slRead (afterRead p ta 16 m) t aa (ansBytes l.blk) = .ok ans)
    (here : l.blk.sources[(readTag bs).source]? = some (selfNode m)) : returnOp p t q ta aa fs m =
    gatherReceive k.ctx l.blk.layer (readTag bs) ans (modBuf t q ((readTag bs).round % 2) (fun x =>
      { x with answers := alSet (readTag bs).source ((alGet (readTag bs).source x.answers).getD 0 + 1) x.answers })
      (afterRead p aa (ansBytes l.blk) (afterRead p ta 16 m))) := by
  subst own
  have still : peaTen (afterRead p ta 16 m) p = peaTen m p := peaTen_congr (afterRead_peas ..) p
  have node : ∀ f, selfNode (modBuf (peaTen m p) q ((readTag bs).round % 2) f (afterRead p aa (ansBytes l.blk) (afterRead p ta 16 m))) =
      selfNode m := by
    intro f
    have kept : ∀ a n m, (afterRead p a n m).fab = m.fab := fun a n m => noteRead_fab ..
    exact congrArg (fun f => f.node.getD 0x8000) ((kept ..).trans (kept ..))
  have acts : (!peaRuns m p || decide (peaTen m p ≠ peaTen m p)) = false := by simp [runs]
  simp only [returnOp, acts, Bool.false_eq_true, if_false, queue, layout, slice, if_true]
  rw [peaRead_ok tag, peaRead_ok (still.symm ▸ answer)]
  simp only [here, node, if_true]

end

/-! ### The statement -/

/-- Settles O24: each command's next state, by what its operation comes to. -/
theorem exchangeHappenings : Obligations.ExchangeHappenings := by
  refine ⟨?start, ?header, ?last, ?rejected, ?row, ?returns, ?lands, ?stale, ?goes, ?deadline, ?answer⟩
  case start =>
    intro s c layer q ph x l up listed only ctx area uncut inside router expert named found closed
    rw [← exchangeStart_due s.nv.flash.state listed only ctx area uncut inside router expert named found closed]
    exact onFab_ofUp up (exchangeStart c layer)
  case header =>
    rintro s t q h k l _ _ up queue layout rfl rfl type id round source sound first plain more
    exact (onFab_ofUp up fun fs => deliverHdr fs t q h).trans
      (by rw [deliverHdr_waits queue layout type id round source sound first plain _ more, headerPut])
  case last =>
    rintro s t q h k l _ _ up queue layout rfl rfl type id round source sound first plain last
    exact (onFab_ofUp up fun fs => deliverHdr fs t q h).trans
      (by rw [deliverHdr_completes queue layout type id round source sound first plain _ last, headerPut])
  case rejected =>
    intro s t q h up odd
    exact (onFab_ofUp up fun fs => deliverHdr fs t q h).trans (by rw [deliverHdr_rejected _ odd, badHdr])
  case row =>
    rintro s t q pos g row k l _ _ _ up queue layout rfl rfl round sound source inside rfl tag data
    exact (onUp_ofUp up (acceptRow t q k.blk.layoutId pos g row)).trans
      (by rw [acceptRow_sound (m := s.m) (q := q) row round sound source inside tag data queue layout])
  case returns =>
    rintro s t q k l _ up queue layout rfl complete acted cut gone
    exact (onFab_ofUp up (queueReturn t q)).trans (by rw [queueReturn_served _ queue complete acted cut gone])
  case lands =>
    rintro s c layer g ans l bs ten _ up found own open_ round gen row rank read status slot tagGen expert rfl
    exact (onUp_ofUp up (gatherReceive c layer g ans)).trans
      (by rw [gatherReceive_lands found ans own open_ round gen row rank read status slot tagGen expert])
  case stale =>
    intro s c layer g ans l up found late
    exact (onUp_ofUp up (gatherReceive c layer g ans)).trans (by rw [gatherReceive_stale found ans late])
  case goes =>
    intro s c layer h l up found type id inside first closed
    exact (onFab_ofUp up fun fs => gatherReturn fs c layer h).trans
      (by rw [gatherReturn_closed found _ type id inside first closed])
  case deadline =>
    intro s c layer l up found open_ cut passed
    exact (atBoundary_ofUp up fun _ => expertDeadline c layer).trans (by rw [expertDeadline_due found open_ cut passed])
  case answer =>
    rintro s p _ q ta aa k l bs ans _ _ up run rfl queue layout slice tag rfl answer here rfl
    have runs : peaRuns s.m p = true := by simp [peaRuns, run, up]
    have second : peaTen (afterRead p ta 16 s.m) p = peaTen s.m p := peaTen_congr (afterRead_peas ..) p
    refine (onFab_ofUp up (returnOp p (peaTen s.m p) q ta aa)).trans ?_
    rw [returnOp_here _ runs rfl queue layout slice tag answer here]
    simp only [afterRead] at second ⊢
    rw [second]

end Sys2Proof.Machine

/-! ## Collectives: the counterexample

A rejected header frees one slot of the collective it names. The statement frees in each collective of that number the slot that
the header has there, and two of one number may have different stages in a state that R370 does not give. -/

namespace Sys2Proof.Machine

/-- R376, R378: a header from another than the predecessor is rejected, and its slot of the collective found is no longer late. -/
theorem collHeader_stranger {m : Mach} {c : Nat} {h : CollHdr} {k : Coll} (fs : FlashState) (found : findColl m c h.collId = some k)
    (stranger : h.sender ≠ prevRank k) : collHeader c h fs m =
    modColl c h.collId (fun x => { x with late := x.late.filter (· != slotNo k h.round h.stage) })
      (modFab (fun f => { f with collBad := bump 16 1 f.collBad }) m) := by
  have rejected : (h.round != (if h.round % 2 = k.round % 2 then k.round else wrap 32 (k.round + 1)) ||
      !(owedHeaders k).contains h.stage || h.sender != prevRank k || (alGet (slotNo k h.round h.stage) k.arrived).isSome) = true := by
    simp [stranger]
  simp only [collHeader, found, rejected, if_true]

/-- A collective of two ranks whose rounds have two stages. -/
def pairReduce : Coll :=
  { blk := { kind := 1, wire := 1, rank := 0, order := 1, collId := 1, queue := 0, layer := 0, maxCount := 256, recv := 0, nodes := [0, 1] } }

/-- One of the same number whose rounds have one stage, with a message late. -/
def pairSend : Coll := { blk := { pairReduce.blk with kind := 4 }, late := [2] }

/-- A module whose context 0 has both. -/
def twinState : State := { pending := [], nv := {}, m := { life := { run := .up }, ctxs := [{ colls := [pairReduce, pairSend] }] } }

/-- A header of round 1 that rank 0 sent itself. -/
def strayHeader : CollHdr := { collId := 1, round := 1, stage := 0, sender := 0, count := 0 }

/-- Refutes O25: a header of round 1 has slot 2 of the collective found, and slot 1 of the other one of its number. -/
theorem not_collectiveHappenings : ¬ Obligations.CollectiveHappenings := by
  rintro ⟨-, -, -, -, stranger, -⟩
  have up : isUp twinState.m = true := rfl
  have found : findColl twinState.m 0 strayHeader.collId = some pairReduce := rfl
  have sender : strayHeader.sender ≠ prevRank pairReduce := by decide
  have ran : exec (.collHeaderReceive 0 strayHeader) twinState = _ := onFab_ofUp up (collHeader 0 strayHeader)
  rw [collHeader_stranger _ found sender] at ran
  have same := Host.Outcome.next.inj (ran.symm.trans (stranger twinState 0 strayHeader pairReduce up found sender))
  have late := congrArg (fun t : State => (ctxOf t.m 0).colls.map (·.late)) same
  exact absurd late (by decide)

end Sys2Proof.Machine

/-! ## The happenings of shards

What each command of a shard comes to (R383 to R388), from the conditions that the state and the operands meet. -/

namespace Sys2Proof.Machine

/-! ### Chunks and installs (R383 to R385) -/

section
variable {m : Mach} {t slot shard : Nat} {k : Shard} (found : findShard m t slot shard = some k)
include found

section
variable {data : List Byte} {nv : Nv} (installing : k.st = .installing)
include installing

/-- R383: a chunk received in its size is taken in. -/
theorem processChunk_upstream (upstream : k.blk.upstream = true) (size : data.length = min 65536 (k.length - 65536 * k.next)) :
    processChunk t slot shard data false false nv m = takeChunk t k data nv m := by
  have under : (k.st != .installing) = false := by simp [installing]
  simp only [processChunk, found, under, upstream, size, Bool.false_eq_true, if_false, if_true]

/-- R383: one read from its source is taken in. -/
theorem processChunk_local {bs : List Byte} (source : k.blk.upstream = false) (there : nv.flash.state ≠ .offline)
    (read : devRead m t (k.blk.src + 65536 * k.next) (min 65536 (k.length - 65536 * k.next)) = .ok bs) :
    processChunk t slot shard data false false nv m =
      takeChunk t k bs nv (noteDev t (k.blk.src + 65536 * k.next) (min 65536 (k.length - 65536 * k.next)) m) := by
  have under : (k.st != .installing) = false := by simp [installing]
  have online : (nv.flash.state == .offline) = false := by simpa using there
  simp only [processChunk, found, under, source, online, Bool.false_and, Bool.false_eq_true, if_false, read]

end

/-- R385: an install whose upstream has been silent for a second ends. -/
theorem upstreamTimeout_due (fs : FlashState) (installing : k.st = .installing) (upstream : k.blk.upstream = true)
    (silent : k.lastHdrUs + 1000000 ≤ m.tick.nowUs) :
    upstreamTimeout t slot shard fs m = stopInstall fs t k .targetLost k.blk.upNode m := by
  have due : (k.st == .installing && k.blk.upstream && decide (k.lastHdrUs + 1000000 ≤ m.tick.nowUs)) = true := by
    simp [installing, upstream, silent]
  simp only [upstreamTimeout, found, due, if_true]

section
variable (hashed : k.st = .hashed)
include hashed

/-- R384: a digest that is not the manifest's ends the install. -/
theorem finishInstall_mismatch (digest : (shardEntry m t slot shard).map (·.2) ≠ some (sha256 k.bytes)) :
    finishInstall t slot shard m = finalise k.ctx k.seq .digestMismatch shard (countInstallFail (dropShard t slot shard m)) := by
  have whole : (k.st != .hashed) = false := by simp [hashed]
  have differs : ((shardEntry m t slot shard).map (·.2) != some (sha256 k.bytes)) = true := by simpa using digest
  simp only [finishInstall, found, whole, differs, Bool.false_eq_true, if_false, if_true]

/-- R384: a page of a shard that is installed. -/
def shardPage (t slot shard : Nat) (k : Shard) (m : Mach) (i : Nat) : Page :=
  { ten := t, num := k.blk.basePage + i, key := k.key, tier := k.tiers.getD i .hbm, pin := bit k.blk.pinHbm
    lastTouch := m.tick.count, ctx := k.ctx, claim := 4, owner := 65536 * slot + shard
    crcs := if k.tiers.getD i .hbm == .hbm then [] else pageCrcs m t (k.blk.basePage + i) }

/-- R384: one that is becomes pages of its tenancy. -/
theorem finishInstall_match (digest : (shardEntry m t slot shard).map (·.2) = some (sha256 k.bytes)) :
    finishInstall t slot shard m =
      let x := devPut t (k.blk.basePage * pageSize) k.bytes m
      let pages := (List.range (shardPages k)).map (shardPage t slot shard k x)
      finalise k.ctx k.seq .ok (shardPages k % 2 ^ 24 + 2 ^ 31 * bit k.fwdFail)
        (forEach (pages.filter (·.tier == .flash)) (fun g => countImage t g.num)
          (modMem (fun x => { x with pages := x.pages ++ pages })
            (modShard t slot shard (fun z =>
              { z with st := .installed, bytes := [], lastGood := m.tick.count, dueUs := m.tick.nowUs + hoursUs z.hours }) x))) := by
  have whole : (k.st != .hashed) = false := by simp [hashed]
  have same : ((shardEntry m t slot shard).map (·.2) != some (sha256 k.bytes)) = false := by simpa using digest
  simp only [finishInstall, found, whole, same, Bool.false_eq_true, if_false]
  rfl

end

end

/-! ### Checks (R387, R388) -/

section
variable {m : Mach} {t : Nat} {k : Shard} {bs : List Byte}

/-- R387: the machine in which a shard has been read. -/
def checkRead (t : Nat) (k : Shard) (m : Mach) : Mach :=
  noteDev t (k.blk.basePage * pageSize) k.length (modFab (fun f => { f with shVerBytes := f.shVerBytes + k.length }) m)

variable (read : devRead (checkRead t k m) t (k.blk.basePage * pageSize) k.length = .ok bs)
include read

theorem checkShard_good (digest : (shardEntry (checkRead t k m) t k.blk.slot k.blk.shard).map (·.2) = some (sha256 bs)) :
    checkShard t k m = forEach k.verifies (fun v => finalise v.1 v.2 .ok 0)
      (modFab (fun f => { f with shVerified := bump 16 1 f.shVerified })
        (modShard t k.blk.slot k.blk.shard (fun z => { z with
            lastGood := (checkRead t k m).tick.count, dueUs := (checkRead t k m).tick.nowUs + hoursUs z.hours, verifies := [] })
          (checkRead t k m))) := by
  have same : ((shardEntry (checkRead t k m) t k.blk.slot k.blk.shard).map (·.2) == some (sha256 bs)) = true := by simpa using digest
  simp only [checkRead] at read same ⊢
  simp only [checkShard, read, same, if_true]

theorem checkShard_bad (digest : (shardEntry (checkRead t k m) t k.blk.slot k.blk.shard).map (·.2) ≠ some (sha256 bs)) :
    checkShard t k m = forEach k.verifies (fun v => finalise v.1 v.2 .digestMismatch k.blk.shard) (checkFails t k 0 (checkRead t k m)) := by
  have differs : ((shardEntry (checkRead t k m) t k.blk.slot k.blk.shard).map (·.2) == some (sha256 bs)) = false := by simpa using digest
  simp only [checkRead] at read differs ⊢
  simp only [checkShard, read, differs, Bool.false_eq_true, if_false]

end

theorem backgroundVerify_next {m : Mach} {t : Nat} {k : Shard} (turn : nextCheck m = some (t, k)) :
    backgroundVerify m = checkShard t k m := by
  simp only [backgroundVerify, turn]

/-! ### The statement -/

/-- Settles O26: each command's next state, by what its operation comes to. -/
theorem shardHappenings : Obligations.ShardHappenings := by
  refine ⟨?upstream, ?source, ?installed, ?mismatch, ?silent, ?good, ?bad, ?manifest⟩
  case upstream =>
    rintro s t slot shard data k up found installing upstream size _ rfl
    refine (onNv_ofUp up (f := fun nv m => ((processChunk t slot shard data false false nv m).1,
      settleAll (processChunk t slot shard data false false nv m).1.flash.state (processChunk t slot shard data false false nv m).2))
      rfl).trans ?_
    rw [processChunk_upstream found installing upstream size]
  case source =>
    rintro s t slot shard data k bs _ _ up found installing source rfl rfl there read _ rfl
    refine (onNv_ofUp up (f := fun nv m => ((processChunk t slot shard data false false nv m).1,
      settleAll (processChunk t slot shard data false false nv m).1.flash.state (processChunk t slot shard data false false nv m).2))
      rfl).trans ?_
    rw [processChunk_local found installing source there read]
  case installed =>
    rintro s t slot shard k up found hashed digest _ _ rfl rfl
    refine (atBoundary_ofUp up fun _ => finishInstall t slot shard).trans ?_
    rw [finishInstall_match found hashed digest]
    rfl
  case mismatch =>
    intro s t slot shard k up found hashed digest
    exact (atBoundary_ofUp up fun _ => finishInstall t slot shard).trans (by rw [finishInstall_mismatch found hashed digest])
  case silent =>
    intro s t slot shard k up found installing upstream silent
    exact (atBoundary_ofUp up (upstreamTimeout t slot shard)).trans (by rw [upstreamTimeout_due found _ installing upstream silent])
  case good =>
    rintro s t k bs _ up turn rfl read digest
    exact (atBoundary_ofUp up fun _ => backgroundVerify).trans
      (by rw [backgroundVerify_next turn, checkShard_good read digest, checkRead])
  case bad =>
    rintro s t k bs _ up turn rfl read digest
    exact (atBoundary_ofUp up fun _ => backgroundVerify).trans
      (by rw [backgroundVerify_next turn, checkShard_bad read digest, checkRead])
  case manifest =>
    intro s t slot up
    exact onUp_ofUp up (manifestChecked t slot)

end Sys2Proof.Machine
